-- ==== Sys2Proof/Word.lean ====
section
/-! DEFINITION. The word types of the F9 (R2, R3 00_scope.md) and the one container the model uses for sparse
contents: a list of keys and values in canonical form (keys strictly rising, no value equal to the default). -/

namespace Sys2Proof

/-- A 32-bit word: an instruction word, a register, a unit (R44, R27, R86). -/
abbrev Word := BitVec 32
/-- A 64-bit value: a register pair, an address before its reserved bits are checked. -/
abbrev Dword := BitVec 64
/-- One byte of memory. -/
abbrev Byte := BitVec 8

/-- Sparse contents by key, in canonical form. -/
abbrev SMap (α : Type) := List (Nat × α)

namespace SMap

variable {α : Type}

/-- The value at key `k`, `d` where nothing is listed. -/
def get (d : α) : SMap α → Nat → α
  | [], _ => d
  | (k', v) :: rest, k => if k' = k then v else get d rest k

/-- Is the key listed? -/
def has : SMap α → Nat → Bool
  | [], _ => false
  | (k', _) :: rest, k => k' == k || has rest k

/-- Every listed key but `k`. -/
def erase : SMap α → Nat → SMap α
  | [], _ => []
  | (k', v') :: rest, k => if k' = k then erase rest k else (k', v') :: erase rest k

/-- `v` at key `k`, in its place by rising key. -/
def put : SMap α → Nat → α → SMap α
  | [], k, v => [(k, v)]
  | (k', v') :: rest, k, v =>
    if k < k' then (k, v) :: (k', v') :: rest
    else if k = k' then (k, v) :: rest
    else (k', v') :: put rest k v

/-- `v` at key `k`; a value equal to the default leaves the key unlisted. -/
def set [DecidableEq α] (d : α) (m : SMap α) (k : Nat) (v : α) : SMap α :=
  if v = d then erase m k else put m k v

/-- The canonical map of `n` keys from `k` on, each with the value `f` gives it. -/
def build [DecidableEq α] (d : α) (f : Nat → α) : Nat → Nat → SMap α
  | _, 0 => []
  | k, n + 1 => if f k = d then build d f (k + 1) n else (k, f k) :: build d f (k + 1) n

/-- Keys strictly rise from above `lo`, and no value is the default. -/
def wfFrom [DecidableEq α] (d : α) : Nat → SMap α → Bool
  | _, [] => true
  | lo, (k, v) :: rest => decide (lo ≤ k) && decide (v ≠ d) && wfFrom d (k + 1) rest

/-- The canonical form. -/
def wf [DecidableEq α] (d : α) (m : SMap α) : Bool := wfFrom d 0 m

end SMap

/-- The contents of one register in every thread t = 32m + l (R19, R141). -/
abbrev Vec := SMap Word

end Sys2Proof
end

