-- ==== Sys2Proof/Wire.lean ====
section
/-! DEFINITION. The fields of instruction words as they are laid out (R46, R49, R60, R69 02_encoding.md), and what an event
carries from the engine or from the world outside the machine. The fields stay as the words hold them, because the spec
gives a meaning (a trap) to every value of every field. -/

namespace Sys2Proof

/-- The base form (R46): one word; OP and LEN are the constructor's. -/
structure Base where
  d : BitVec 8
  a : BitVec 8
  m : BitVec 6
deriving DecidableEq, Repr

/-- The extended form (R49): three words, or five with a literal (R44). Words 1 and 2 stay whole: an entry's own fields
overlay B, C, RND and SUB there. -/
structure Ext where
  d : BitVec 9
  a : BitVec 9
  p : BitVec 4
  w1 : Word
  w2 : Word
  lit : Option Dword
deriving DecidableEq, Repr

/-- The extended form with record (R60): seven words. -/
structure Rec where
  d : BitVec 9
  a : BitVec 9
  p : BitVec 4
  w1 : Word
  w2 : Word
  r0 : Word
  r1 : Word
  r2 : Word
  r3 : Word
deriving DecidableEq, Repr

/-- The RUNEND trailer (R69); KIND is the constructor's. -/
structure Trailer where
  cond : BitVec 2
  pred : BitVec 4
  xf : BitVec 8
  naw : BitVec 3
  low : BitVec 2
  w1 : Word
  w2 : Word
deriving DecidableEq, Repr

/-- One sub-group: its group's number and its record number in the group (R135, R141). -/
structure SubRef where
  grp : Nat
  sub : Nat
deriving DecidableEq, Repr

/-- What a remote operation asks of a peer chip, by physical address there (R441 to R444 20_links.md). -/
inductive PeerAsk where
  /-- Bytes of a copy, and the lines of them that are sent marked poisoned (R442). -/
  | write (bytes : List (Nat × Byte)) (poison : List Nat)
  /-- A signal write: the unit, its width in bytes, set or add, the value (R443). -/
  | signal (addr width : Nat) (add : Bool) (value : Nat)
  /-- An atomic: the unit, its width, operation, type and rounding codes, flushes, operand (R444). -/
  | atom (addr width op type rnd : Nat) (fzi fzo : Bool) (value : Nat)
deriving DecidableEq, Repr

/-- A remote operation that arrives at this chip: the chip it comes from and that chip's name for it (R437). -/
structure PeerRequest where
  chip : Nat
  tag : Nat
  ask : PeerAsk
deriving DecidableEq, Repr

/-- What a peer answers (R446): an error code or 0, the old value and the flags of an atomic, and for a unit whose line is poisoned
or failing the cause, DETAIL and line address of R274 11_atomics.md; cause 0 for none. -/
structure PeerAnswer where
  error : Nat
  value : Nat
  flags : Nat
  cause : Nat
  detail : Nat
  addr : Nat
deriving DecidableEq, Repr

/-- A host access to a line of device memory through CXL.mem (R438): none for a read, offsets and bytes for a write; does the host's own
architecture order the write after its earlier ones (R107 03_visibility.md)? -/
structure HostAccess where
  line : Nat
  write : Option (List (Nat × Byte))
  ordered : Bool
deriving DecidableEq, Repr

/-- What self-test and training find at bring-up (R454 21_management.md); widths of links are 0 down, 1 quarter, 2 half, 3 full. -/
structure SelfTest where
  /-- Physical cores that pass, by 44 x die + core. -/
  cores : List Nat
  /-- Failing memory channels, by 64 x die + channel. -/
  channels : List Nat
  /-- Widths of peer ports 0 to 15 after training, 0 for a port that is down. -/
  ports : List Nat
  /-- Far-end chip numbers of the ports. -/
  chips : List Nat
  /-- Widths of the host links. -/
  host : List Nat
  /-- The step of R454 that fails, if one does. -/
  failed : Option Nat
deriving DecidableEq, Repr

/-- What another chip of a team contributes to a collective (R401 to R403 18_collective.md): its position, whether its instances
agree with this chip's, each contribution's elements in order, and, where its first contribution is the first of all, the
observations. -/
structure TeamPart where
  pos : Nat
  agree : Bool
  vals : List (List Nat)
  obs : List Nat
deriving DecidableEq, Repr

/-- What an event concerns: the sub-group, operation, line or unit it names, or what the world outside supplies. -/
inductive EventArg where
  | none
  | sub (r : SubRef)
  | num (n : Nat)
  | pair (n k : Nat)
  | triple (n k j : Nat)
  /-- An operation, and the index of an early part of its arrival (R105); no index: its completion. -/
  | part (op : Nat) (p : Option Nat)
  /-- A line, the bytes that the host writes to it, and whether the host orders the write after its earlier ones (R107). -/
  | bytes (n : Nat) (b : List Byte) (ordered : Bool)
  /-- A register access: offset or queue, width in bytes, value. -/
  | value (n width : Nat) (v : Dword)
  | peer (q : PeerRequest)
  | answer (op part : Nat) (a : PeerAnswer)
  | host (q : HostAccess)
  | team (op : Nat) (parts : List TeamPart)
  | test (t : SelfTest)
deriving DecidableEq, Repr

end Sys2Proof
end

