-- ==== Sys2Proof/Syntax.lean ====
section
/-! DEFINITION. The instructions: one constructor for each row of spec/opcode_table.json (R76 02_encoding.md for the encoded
ones; the others are the part's events, 95_what_each_step_holds.md). The constructor of an encoded instruction carries the
fields of its words; what an event concerns stands in State.arg (EventArg of Wire.lean). -/

namespace Sys2Proof

/-- Every row of the opcode table. -/
inductive Instr where
  /-- RUNEND_FALL (R70). Trailer that ends a run and continues at the next word, noting the listed awaited registers. -/
  | runendFall (t : Trailer)
  /-- RUNEND_BRA (R70). Trailer that ends a run and transfers to a target relative to the trailer's fetch block. -/
  | runendBra (t : Trailer)
  /-- RUNEND_BRC (R71). Trailer that ends a run and branches on an any/all/none predicate condition judged per member, splitting the group when members disagree. -/
  | runendBrc (t : Trailer)
  /-- RUNEND_JMP (R70). Trailer that ends a run and jumps to the 64-bit address held in a uniform register pair. -/
  | runendJmp (t : Trailer)
  /-- RUNEND_CALL (R333). Trailer that allocates a call frame with its spill area and transfers to the target, recording the return address. -/
  | runendCall (t : Trailer)
  /-- RUNEND_RET (R333). Trailer that frees the current call frame and returns to the address of the matching CALL. -/
  | runendRet (t : Trailer)
  /-- RUNEND_EXIT (R72). Trailer that ends the live threads whose predicate bit is true; the survivors fall through. -/
  | runendExit (t : Trailer)
  /-- RUNEND_YIELD (R132). Trailer that continues at the next word and ranks the group last for issue until it next issues. -/
  | runendYield (t : Trailer)
  /-- NOP (R75). Extended-form no-operation that counts towards the run length. -/
  | nop (x : Ext)
  /-- NOP_BASE (R75). Base-form no-operation word 0x0040_0000. -/
  | nopBase (b : Base)
  /-- EXMRD (R118). Reads a member's execution mask into a vector or uniform register. -/
  | exmrd (x : Ext)
  /-- EXMWR (R119). Sets, ANDs or ORs the execution masks of the issuing sub-group's members, limited to live lanes. -/
  | exmwr (x : Ext)
  /-- MMKRD (R118). Reads the member mask as the issuing sub-group sees it. -/
  | mmkrd (x : Ext)
  /-- MMKWR (R119). Sets, ANDs or ORs the member-mask bits of the issuing sub-group's own members. -/
  | mmkwr (x : Ext)
  /-- LPRRD (R118). Reads the current tile width. -/
  | lprrd (x : Ext)
  /-- LPRWR (R119). Sets the tile width field of LPR. -/
  | lprwr (x : Ext)
  /-- PMOV (R120). Moves a predicate, or converts between a predicate and a vector or uniform value. -/
  | pmov (x : Ext)
  /-- PAND (R120). Predicate AND per active thread. -/
  | pand (x : Ext)
  /-- POR (R120). Predicate OR per active thread. -/
  | por (x : Ext)
  /-- PXOR (R120). Predicate XOR per active thread. -/
  | pxor (x : Ext)
  /-- PNOT (R120). Predicate NOT per active thread. -/
  | pnot (x : Ext)
  /-- PANDN (R120). Predicate AND-NOT per active thread. -/
  | pandn (x : Ext)
  /-- PCNT (R120). Counts the active lanes of the tile whose predicate bit is true. -/
  | pcnt (x : Ext)
  /-- PFIRST (R120). Marks the lowest active lane of the tile whose predicate bit is true. -/
  | pfirst (x : Ext)
  /-- WAITC (R74). Holds later issue until the LD, ST, CP and MX counters are at or below their thresholds. -/
  | waitc (x : Ext)
  /-- BAR (R128). Barrier at a level, waited at the run boundary after the trailer. -/
  | bar (x : Ext)
  /-- TRAP (R130). Raises the TRAP cause with a code when the instance has an active thread. -/
  | trap (x : Ext)
  /-- SRRD (R123). Reads a system register named by SRN. -/
  | srrd (x : Ext)
  /-- SRWR (R123). Writes FPCR or FPSR. -/
  | srwr (x : Ext)
  /-- FLGRD (R124). Reads the floating-point status flags. -/
  | flgrd (x : Ext)
  /-- FLGCLR (R124). Clears the masked floating-point status flags. -/
  | flgclr (x : Ext)
  /-- FPMODE (R125). Updates masked fields of FPCR with a value. -/
  | fpmode (x : Ext)
  /-- SLEEP (R129). Stops issue at the run boundary for a count of reference clocks. -/
  | sleep (x : Ext)
  /-- CLKRD (R126). Reads the 64-bit device time. -/
  | clkrd (x : Ext)
  /-- IDRD (R127). Reads the thread's index, or the extent, at a launch level. -/
  | idrd (x : Ext)
  /-- VOTE (R152). Any, all or uniform vote over the active lanes of each tile, written to a predicate. -/
  | vote (x : Ext)
  /-- BALLOT (R152). Writes the bit mask of the tile's active lanes whose predicate is true. -/
  | ballot (x : Ext)
  /-- TREDUCE (R155). Reduces a value over the active lanes of each tile by a fixed tree. -/
  | treduce (x : Ext)
  /-- TSCAN (R155). Inclusive or exclusive scan over the active lanes of each tile by the fixed tree. -/
  | tscan (x : Ext)
  /-- IADD (R164). Integer add, wrapping or saturating (extended or literal form). -/
  | iadd (x : Ext)
  /-- IADD_BASE (R164). Base-form integer add D <- D + A. -/
  | iaddBase (b : Base)
  /-- ISUB (R164). Integer subtract, wrapping or saturating. -/
  | isub (x : Ext)
  /-- ISUB_BASE (R164). Base-form integer subtract D <- D - A. -/
  | isubBase (b : Base)
  /-- IADDC (R165). Add with a carry-in and a carry-out predicate. -/
  | iaddc (x : Ext)
  /-- ISUBB (R165). Subtract with a borrow-in and a borrow-out predicate. -/
  | isubb (x : Ext)
  /-- IADD3 (R164). Three-operand integer add modulo 2^w. -/
  | iadd3 (x : Ext)
  /-- IMUL (R166). Low half of an integer product. -/
  | imul (x : Ext)
  /-- IMUL_BASE (R166). Base-form integer multiply D <- D x A. -/
  | imulBase (b : Base)
  /-- IMULH (R166). High half of the exact double-width product. -/
  | imulh (x : Ext)
  /-- IMAD (R166). Integer multiply-add modulo 2^w. -/
  | imad (x : Ext)
  /-- IMADW (R166). 32-bit multiply added to a 64-bit value. -/
  | imadw (x : Ext)
  /-- IDIV (R167). Integer division with a quotient truncated toward zero and defined results for zero and overflow. -/
  | idiv (x : Ext)
  /-- IREM (R167). Integer remainder with the sign of the dividend. -/
  | irem (x : Ext)
  /-- IMIN (R168). Integer minimum. -/
  | imin (x : Ext)
  /-- IMIN_BASE (R168). Base-form integer minimum. -/
  | iminBase (b : Base)
  /-- IMAX (R168). Integer maximum. -/
  | imax (x : Ext)
  /-- IMAX_BASE (R168). Base-form integer maximum. -/
  | imaxBase (b : Base)
  /-- IABS (R168). Integer absolute value, wrapping or saturating. -/
  | iabs (x : Ext)
  /-- IABS_BASE (R168). Base-form integer absolute value. -/
  | iabsBase (b : Base)
  /-- INEG (R168). Integer negation, wrapping or saturating. -/
  | ineg (x : Ext)
  /-- INEG_BASE (R168). Base-form integer negation. -/
  | inegBase (b : Base)
  /-- ISAT (R169). Clamps an integer to the range of a narrower type. -/
  | isat (x : Ext)
  /-- AND (R170). Bitwise AND. -/
  | and (x : Ext)
  /-- AND_BASE (R170). Base-form bitwise AND. -/
  | andBase (b : Base)
  /-- OR (R170). Bitwise OR. -/
  | or (x : Ext)
  /-- OR_BASE (R170). Base-form bitwise OR. -/
  | orBase (b : Base)
  /-- XOR (R170). Bitwise XOR. -/
  | xor (x : Ext)
  /-- XOR_BASE (R170). Base-form bitwise XOR. -/
  | xorBase (b : Base)
  /-- ANDN (R170). Bitwise AND-NOT. -/
  | andn (x : Ext)
  /-- ANDN_BASE (R170). Base-form AND-NOT D <- D and not A. -/
  | andnBase (b : Base)
  /-- NOT (R170). Bitwise NOT. -/
  | not (x : Ext)
  /-- NOT_BASE (R170). Base-form bitwise NOT. -/
  | notBase (b : Base)
  /-- SHL (R171). Shift left, zero for amounts of w or more. -/
  | shl (x : Ext)
  /-- SHL_BASE (R171). Base-form shift left. -/
  | shlBase (b : Base)
  /-- SHR (R171). Logical shift right. -/
  | shr (x : Ext)
  /-- SHR_BASE (R171). Base-form logical shift right. -/
  | shrBase (b : Base)
  /-- SAR (R171). Arithmetic shift right. -/
  | sar (x : Ext)
  /-- SAR_BASE (R171). Base-form arithmetic shift right. -/
  | sarBase (b : Base)
  /-- ROTL (R171). Rotate left by the amount modulo w. -/
  | rotl (x : Ext)
  /-- ROTL_BASE (R171). Base-form rotate left. -/
  | rotlBase (b : Base)
  /-- BFX (R172). Extracts a bit field, sign- or zero-extended. -/
  | bfx (x : Ext)
  /-- BFI (R172). Inserts a bit field into a base value. -/
  | bfi (x : Ext)
  /-- POPC (R173). Counts the set bits. -/
  | popc (x : Ext)
  /-- POPC_BASE (R173). Base-form population count. -/
  | popcBase (b : Base)
  /-- CLZ (R173). Counts the leading zero bits. -/
  | clz (x : Ext)
  /-- CLZ_BASE (R173). Base-form count of leading zeros. -/
  | clzBase (b : Base)
  /-- CTZ (R173). Counts the trailing zero bits. -/
  | ctz (x : Ext)
  /-- CTZ_BASE (R173). Base-form count of trailing zeros. -/
  | ctzBase (b : Base)
  /-- BREV (R173). Reverses the bit order. -/
  | brev (x : Ext)
  /-- BREV_BASE (R173). Base-form bit reversal. -/
  | brevBase (b : Base)
  /-- ISETP (R174). Integer comparison written to a predicate, optionally combined with another predicate. -/
  | isetp (x : Ext)
  /-- ISEL (R175). Selects between two sources by a predicate. -/
  | isel (x : Ext)
  /-- MOV (R176). Copies a routed source. -/
  | mov (x : Ext)
  /-- MOV_BASE (R176). Base-form copy D <- A. -/
  | movBase (b : Base)
  /-- MOVI (R176). Writes the literal. -/
  | movi (x : Ext)
  /-- LEA (R177). Forms a 64-bit address from base, scaled index and offset without accessing memory. -/
  | lea (x : Ext)
  /-- IDOT4 (R178). Packed small-integer dot product added to a 32-bit value. -/
  | idot4 (x : Ext)
  /-- CVTI (R179). Converts an integer between widths, wrapping or saturating. -/
  | cvti (x : Ext)
  /-- CVTF (R198). Converts between floating-point formats with one rounding and an optional scale. -/
  | cvtf (x : Ext)
  /-- CVTFI (R198). Converts a floating-point value to an integer or ternary type. -/
  | cvtfi (x : Ext)
  /-- CVTIF (R198). Converts an integer to a floating-point format. -/
  | cvtif (x : Ext)
  /-- PACKN (R199). Converts a value and places it in one element of a packed word. -/
  | packn (x : Ext)
  /-- UNPACKN (R199). Takes one element of a packed word and converts it. -/
  | unpackn (x : Ext)
  /-- QCOMP (R200). Compresses a value to the nearest companded code. -/
  | qcomp (x : Ext)
  /-- QEXP (R200). Expands a companded code and rounds it. -/
  | qexp (x : Ext)
  /-- FADD (R209). Floating-point add, rounded once. -/
  | fadd (x : Ext)
  /-- FADD_BASE (R209). Base-form floating-point add. -/
  | faddBase (b : Base)
  /-- FSUB (R209). Floating-point subtract. -/
  | fsub (x : Ext)
  /-- FSUB_BASE (R209). Base-form floating-point subtract. -/
  | fsubBase (b : Base)
  /-- FMUL (R209). Floating-point multiply. -/
  | fmul (x : Ext)
  /-- FMUL_BASE (R209). Base-form floating-point multiply. -/
  | fmulBase (b : Base)
  /-- FFMA (R209). Fused multiply-add with one rounding. -/
  | ffma (x : Ext)
  /-- FMIN (R211). minimumNumber of two values. -/
  | fmin (x : Ext)
  /-- FMIN_BASE (R211). Base-form minimumNumber. -/
  | fminBase (b : Base)
  /-- FMAX (R211). maximumNumber of two values. -/
  | fmax (x : Ext)
  /-- FMAX_BASE (R211). Base-form maximumNumber. -/
  | fmaxBase (b : Base)
  /-- FMINM (R211). IEEE minimum, propagating NaN. -/
  | fminm (x : Ext)
  /-- FMINM_BASE (R211). Base-form IEEE minimum. -/
  | fminmBase (b : Base)
  /-- FMAXM (R211). IEEE maximum, propagating NaN. -/
  | fmaxm (x : Ext)
  /-- FMAXM_BASE (R211). Base-form IEEE maximum. -/
  | fmaxmBase (b : Base)
  /-- FABS (R212). Clears the sign bit. -/
  | fabs (x : Ext)
  /-- FABS_BASE (R212). Base-form clearing of the sign bit. -/
  | fabsBase (b : Base)
  /-- FNEG (R212). Inverts the sign bit. -/
  | fneg (x : Ext)
  /-- FNEG_BASE (R212). Base-form inversion of the sign bit. -/
  | fnegBase (b : Base)
  /-- FCPSGN (R212). Copies the sign bit of B onto A. -/
  | fcpsgn (x : Ext)
  /-- FCPSGN_BASE (R212). Base-form sign copy. -/
  | fcpsgnBase (b : Base)
  /-- FSETP (R215). Floating-point comparison written to a predicate. -/
  | fsetp (x : Ext)
  /-- FSEL (R213). Selects a source by a predicate. -/
  | fsel (x : Ext)
  /-- FCLASS (R214). Writes a one-hot class mask of the value. -/
  | fclass (x : Ext)
  /-- FDIV (R210). Correctly rounded division. -/
  | fdiv (x : Ext)
  /-- FSQRT (R210). Correctly rounded square root. -/
  | fsqrt (x : Ext)
  /-- FSQRT_BASE (R210). Base-form square root. -/
  | fsqrtBase (b : Base)
  /-- FRCP (R210). Correctly rounded reciprocal. -/
  | frcp (x : Ext)
  /-- FRCP_BASE (R210). Base-form reciprocal. -/
  | frcpBase (b : Base)
  /-- FRSQ (R210). Correctly rounded reciprocal square root. -/
  | frsq (x : Ext)
  /-- FRSQ_BASE (R210). Base-form reciprocal square root. -/
  | frsqBase (b : Base)
  /-- FRINT (R216). Rounds to an integral value. -/
  | frint (x : Ext)
  /-- FSCALE (R217). Multiplies by a power of two with one rounding. -/
  | fscale (x : Ext)
  /-- FGEXP (R218). Writes the exponent of the value. -/
  | fgexp (x : Ext)
  /-- FGEXP_BASE (R218). Base-form exponent extraction. -/
  | fgexpBase (b : Base)
  /-- FGMANT (R218). Writes the significand of the value. -/
  | fgmant (x : Ext)
  /-- FREM (R219). Exact remainder, IEEE or truncated. -/
  | frem (x : Ext)
  /-- HADD2 (R220). Packed 16-bit add. -/
  | hadd2 (x : Ext)
  /-- HADD2_BASE (R220). Base-form packed 16-bit add. -/
  | hadd2Base (b : Base)
  /-- HMUL2 (R220). Packed 16-bit multiply. -/
  | hmul2 (x : Ext)
  /-- HMUL2_BASE (R220). Base-form packed 16-bit multiply. -/
  | hmul2Base (b : Base)
  /-- HFMA2 (R220). Packed 16-bit fused multiply-add. -/
  | hfma2 (x : Ext)
  /-- HDOT2 (R221). Two-element packed dot product added to FP32 with one rounding. -/
  | hdot2 (x : Ext)
  /-- FEXP (R225). Correctly rounded e^a. -/
  | fexp (x : Ext)
  /-- FEXP_BASE (R225). Base-form e^a. -/
  | fexpBase (b : Base)
  /-- FEXP2 (R225). Correctly rounded 2^a. -/
  | fexp2 (x : Ext)
  /-- FEXP2_BASE (R225). Base-form 2^a. -/
  | fexp2Base (b : Base)
  /-- FEXPM1 (R225). Correctly rounded e^a - 1. -/
  | fexpm1 (x : Ext)
  /-- FEXPM1_BASE (R225). Base-form e^a - 1. -/
  | fexpm1Base (b : Base)
  /-- FLOG (R225). Correctly rounded natural logarithm. -/
  | flog (x : Ext)
  /-- FLOG_BASE (R225). Base-form natural logarithm. -/
  | flogBase (b : Base)
  /-- FLOG2 (R225). Correctly rounded base-2 logarithm. -/
  | flog2 (x : Ext)
  /-- FLOG2_BASE (R225). Base-form base-2 logarithm. -/
  | flog2Base (b : Base)
  /-- FLOG1P (R225). Correctly rounded ln(1 + a). -/
  | flog1p (x : Ext)
  /-- FLOG1P_BASE (R225). Base-form ln(1 + a). -/
  | flog1pBase (b : Base)
  /-- FERF (R225). Correctly rounded error function. -/
  | ferf (x : Ext)
  /-- FERF_BASE (R225). Base-form error function. -/
  | ferfBase (b : Base)
  /-- FERFC (R225). Correctly rounded complementary error function. -/
  | ferfc (x : Ext)
  /-- FERFC_BASE (R225). Base-form complementary error function. -/
  | ferfcBase (b : Base)
  /-- FSINPI (R225). Correctly rounded sin(pi a). -/
  | fsinpi (x : Ext)
  /-- FSINPI_BASE (R225). Base-form sin(pi a). -/
  | fsinpiBase (b : Base)
  /-- FCOSPI (R225). Correctly rounded cos(pi a). -/
  | fcospi (x : Ext)
  /-- FCOSPI_BASE (R225). Base-form cos(pi a). -/
  | fcospiBase (b : Base)
  /-- FTANH (R225). Correctly rounded hyperbolic tangent. -/
  | ftanh (x : Ext)
  /-- FTANH_BASE (R225). Base-form hyperbolic tangent. -/
  | ftanhBase (b : Base)
  /-- FCBRT (R225). Correctly rounded cube root. -/
  | fcbrt (x : Ext)
  /-- FCBRT_BASE (R225). Base-form cube root. -/
  | fcbrtBase (b : Base)
  /-- RAND (R229). Draws a random integer or uniform float from a counter and a key by hmix. -/
  | rand (x : Ext)
  /-- DROPM (R230). Writes a dropout keep predicate from a counter, a key and a threshold. -/
  | dropm (x : Ext)
  /-- HMIX (R228). Keyed 64-bit mixing function. -/
  | hmix (x : Ext)
  /-- LD (R239). Loads S bytes per thread into vector registers on the LD counter. -/
  | ld (x : Ext)
  /-- ST (R240). Stores S bytes per thread into L1 on the ST counter. -/
  | st (x : Ext)
  /-- LDU (R242). Loads once per lane and gives the value to every member, or once into a uniform register. -/
  | ldu (x : Ext)
  /-- LDP (R241). Member-strided load. -/
  | ldp (x : Ext)
  /-- STP (R241). Member-strided store. -/
  | stp (x : Ext)
  /-- PREF (R243). Prefetches lines into L1 or L2 without making an access. -/
  | pref (x : Ext)
  /-- LDNA (R250). Load that allocates neither L1 lines nor guest copies. -/
  | ldna (x : Ext)
  /-- STNA (R250). Store sent to the homes without allocating. -/
  | stna (x : Ext)
  /-- ATOM (R262). Atomic read-modify-write per active thread at the unit's executor, returning the old value if D names a register. -/
  | atom (x : Ext)
  /-- ATOMCAS (R265). Atomic compare-and-swap returning the old value. -/
  | atomcas (x : Ext)
  /-- AIMG (R266). Merges an exact accumulator image atomically into an image in memory. -/
  | aimg (x : Ext)
  /-- SIGNAL (R267). Release write (set or add) of a unit or block, flushing L1 first. -/
  | signal (x : Ext)
  /-- OBSERVE (R269). Observing read of a unit that takes a position and steps the L1 epoch. -/
  | observe (x : Ext)
  /-- MONITOR (R270). Arms the sub-group's monitor on one unit. -/
  | monitor (x : Ext)
  /-- MWAIT (R272). Waits at the run boundary for a wake event on the armed monitor. -/
  | mwait (x : Ext)
  /-- TLBINV (R286). Flushes L1, waits for earlier writes, and broadcasts a translation invalidation to all dies in service. -/
  | tlbinv (x : Ext)
  /-- QSYNC_WAIT (R288). Advances QI and waits until QC reaches it. -/
  | qsyncWait (x : Ext)
  /-- QSYNC_PUT (R288). Appends a freed frame to the quarantine queue with a new QI stamp. -/
  | qsyncPut (x : Ext)
  /-- QSYNC_TAKE (R288). Removes the oldest quarantined frame once QC has passed its stamp. -/
  | qsyncTake (x : Ext)
  /-- MIGR_MOVE (R290). Starts a migration engine moving a page to a new frame and placement. -/
  | migrMove (x : Ext)
  /-- MIGR_SCRUB (R291). Starts zeroing a frame with full-line writes, clearing poison. -/
  | migrScrub (x : Ext)
  /-- PGQRY (R294). Queries a translation, a line, a die's units or the quarantine state. -/
  | pgqry (x : Ext)
  /-- TCOPY (R309). Copies and converts a tensor between memory, tiles and registers on the CP counter. -/
  | tcopy (x : Rec)
  /-- HCOPY (R316). Fills a tile with a field window and its halo under boundary rules. -/
  | hcopy (x : Rec)
  /-- TILEDEF (R302). Defines a tile's base and size, zeroes it and leaves it empty. -/
  | tiledef (x : Ext)
  /-- TILEQ (R303). Reads a tile entry's state and counts. -/
  | tileq (x : Ext)
  /-- TILEREL (R302). Makes a tile undefined. -/
  | tilerel (x : Ext)
  /-- TILEDRN (R314). Drains a ready tile to memory. -/
  | tiledrn (x : Rec)
  /-- TFILL (R317). Writes a repeated pattern into a tile or memory. -/
  | tfill (x : Ext)
  /-- SPAWN (R323). Creates a child per active thread, writes spawn frames and deposits slots in bins. -/
  | spawn (x : Ext)
  /-- AWAIT (R329). Waits at the run boundary until every active thread's outstanding-child count is zero. -/
  | await (x : Ext)
  /-- AWAITN (R329). Waits at the run boundary until every count is at or below N. -/
  | awaitn (x : Ext)
  /-- FRMRD (R331). Reads a field of the thread's spawn frame. -/
  | frmrd (x : Ext)
  /-- FRMWR (R331). Writes an argument word of the thread's spawn frame. -/
  | frmwr (x : Ext)
  /-- CHCNT (R332). Snapshots outstanding, unreported or free-block counts. -/
  | chcnt (x : Ext)
  /-- LAUNCH (R334). Enqueues a launch record from memory and writes the dispatcher's answer. -/
  | launch (x : Ext)
  /-- XCLR (R345). Clears an exact accumulator. -/
  | xclr (x : Ext)
  /-- XADD (R345). Adds values exactly into an accumulator. -/
  | xadd (x : Ext)
  /-- XFMA (R346). Adds products into an accumulator, exact except FP64 products. -/
  | xfma (x : Ext)
  /-- XMRG (R345). Merges one accumulator into another within a member. -/
  | xmrg (x : Ext)
  /-- XRND (R347). Rounds an accumulator's value once into a register. -/
  | xrnd (x : Ext)
  /-- XST (R349). Stores an accumulator image with CRC to memory. -/
  | xst (x : Ext)
  /-- XLD (R349). Loads and checks an image into an accumulator. -/
  | xld (x : Ext)
  /-- XSTAT (R348). Reads an accumulator's state word or count. -/
  | xstat (x : Ext)
  /-- MCFG (R362). Sets the tile modes, zeroing tiles whose mode changes. -/
  | mcfg (x : Rec)
  /-- MLDB (R364). Loads B panel rows from memory, aligning float blocks. -/
  | mldb (x : Rec)
  /-- MLDBW (R364). Loads B panel rows from the weight store. -/
  | mldbw (x : Rec)
  /-- MMA (R366). Multiplies members' A rows by the resident panel into accumulator tiles. -/
  | mma (x : Rec)
  /-- MZERO (R363). Zeroes the masked tiles. -/
  | mzero (x : Ext)
  /-- MDRN (R368). Drains a tile range, converted, to memory or a pool tile. -/
  | mdrn (x : Rec)
  /-- MSTAT (R369). Reads or clears tile, panel or MXERR status. -/
  | mstat (x : Ext)
  /-- WSWR (R375). Copies memory into the weight store in a weight-loading launch. -/
  | wswr (x : Rec)
  /-- WSRD (R375). Copies the weight store to memory. -/
  | wsrd (x : Rec)
  /-- WSQRY (R376). Reads TARNSCHED or a bank's refresh state. -/
  | wsqry (x : Ext)
  /-- MSPLIT (R383). Splits the sub-group at the boundary by member mask or into single members. -/
  | msplit (x : Ext)
  /-- RJOIN (R384). Join point that holds a sub-group before its run until the join. -/
  | rjoin (x : Ext)
  /-- REPACK (R387). Holds the group at a repack point of its block. -/
  | repack (x : Ext)
  /-- MSUMX (R393). Sums values, or merges accumulators, across members per lane. -/
  | msumx (x : Ext)
  /-- MMEAN (R393). Correctly rounded mean across members per lane. -/
  | mmean (x : Ext)
  /-- MSPRD (R394). Correctly rounded standard deviation across members. -/
  | msprd (x : Ext)
  /-- MQNT (R395). Order statistic or interpolated quantile across members. -/
  | mqnt (x : Ext)
  /-- MRANK (R396). Rank of an observation among member values with keyed tie-breaking. -/
  | mrank (x : Ext)
  /-- MHIST (R397). Adds one atomic count per lane to a histogram bin in memory. -/
  | mhist (x : Ext)
  /-- CCOLL (R399). Issues a collective reduction (EXACT, BANDED, QUANT or RHIST) on the CP counter. -/
  | ccoll (x : Rec)
  /-- RCOPY (R442). Copies rows of local memory to peer memory over the links. -/
  | rcopy (x : Rec)
  /-- RSIGNAL (R443). Release write to a peer unit. -/
  | rsignal (x : Ext)
  /-- RATOM (R444). Atomic read-modify-write at a peer executor. -/
  | ratom (x : Ext)
  /-- LNKQ (R448). Queries own chip, a port, a peer chip or the launch's link-error count. -/
  | lnkq (x : Ext)
  /-- WAITC_RETURN (R34). The counters fall to the thresholds; the WAITC returns, covers the completed operations, creates engine edges and takes their deferred faults. -/
  | waitcReturn
  /-- COUNTER_STALL_RELEASE (R33). A counter held at 63 falls to 62 or below, and the stalled asynchronous operation issues. -/
  | counterStallRelease
  /-- BAR_RELEASE (R128). Every participant with a live thread has arrived; the barrier completes and all participants resume. -/
  | barRelease
  /-- SLEEP_EXPIRE (R129). The sleep count has passed and the group becomes eligible again. -/
  | sleepExpire
  /-- LOAD_DATA_ARRIVAL (R245). Data of a load, load-counter atomic or XLD returns; the destination is written, marked units are set for poison or check failure, and the LD counter decrements. -/
  | loadDataArrival
  /-- WRITE_PERFORMED_AT_HOME (R254). A write request reaches its home L2 slice, takes its position, gets a visibility time and sends invalidations to sharing dies. -/
  | writePerformedAtHome
  /-- GUEST_INVALIDATION_PROBE (R253). An invalidation arrives at a guest die, which drops the line if held and answers. -/
  | guestInvalidationProbe
  /-- PROBE_ANSWER (R253). A probe answer reaches the home, which removes a die that holds no line of the region from the set. -/
  | probeAnswer
  /-- DIRECTORY_EVICTION (R253). The home directory evicts a region entry after invalidating every guest copy of it. -/
  | directoryEviction
  /-- VISIBILITY_TIME_REACHED (R254). Device time reaches a write's visibility time; the store completes and the ST counter decrements. -/
  | visibilityTimeReached
  /-- L1_WRITEBACK_DEADLINE (R248). A dirty byte reaches 2,048 clocks since its store and is written back to its home. -/
  | l1WritebackDeadline
  /-- L1_EVICTION (R248). The L1 evicts a line and writes back its dirty bytes. -/
  | l1Eviction
  /-- ATOMIC_AT_EXECUTOR (R257). An atomic, OBSERVE, MONITOR or MHIST update reaches its executor and is performed in modification order. -/
  | atomicAtExecutor
  /-- AIMG_AT_EXECUTOR (R266). The lead executor reserves the image lines in ascending order, merges the 288 bytes and releases them. -/
  | aimgAtExecutor
  /-- SIGNAL_DEPART (R268). Every ancestor write of a SIGNAL is performed; it leaves the core carrying the release horizon. -/
  | signalDepart
  /-- SIGNAL_ARRIVE_EXECUTOR (R268). A SIGNAL reaches its executor and is held until its horizon. -/
  | signalArriveExecutor
  /-- SIGNAL_PERFORM (R268). Device time reaches the held SIGNAL's horizon and it takes the next position in the unit's order. -/
  | signalPerform
  /-- MWAIT_WAKE (R272). A wake event ends a waiting MWAIT, the monitor is disarmed and the reason is written. -/
  | mwaitWake
  /-- MWAIT_TIMEOUT (R272). The MWAIT timeout expires and the wait ends with reason 3. -/
  | mwaitTimeout
  /-- HOST_LINE_TAKE (R273). A host write takes a host-memory line from die 4 and records wake events on monitors of that line. -/
  | hostLineTake
  /-- TLBINV_DIE_INVALIDATE (R286). A die receives the invalidation, drops matching entries, waits for its walks and acknowledges. -/
  | tlbinvDieInvalidate
  /-- TLBINV_ACKNOWLEDGEMENT (R286). An acknowledgement reaches the initiator; the TLBINV completes when all are counted. -/
  | tlbinvAcknowledgement
  /-- QSYNC_WAIT_COMPLETE (R288). QC reaches the stamp of a waiting QSYNC.wait, which returns it. -/
  | qsyncWaitComplete
  /-- MIGR_COMPLETE (R290). The migration engine finishes copying, rewrites the leaf, invalidates, queues the source frames and writes the status. -/
  | migrComplete
  /-- TILE_STALL_RELEASE (R298). A tile reaches a state that lets a stalled fill, reader or drain issue. -/
  | tileStallRelease
  /-- COPY_OPERATION_COMPLETE (R312). A copy-engine operation finishes; tile transitions take place, flags are ORed and CP decrements. -/
  | copyOperationComplete
  /-- BIN_SLOT_ARRIVAL (R325). A spawned slot reaches a bin store and joins or opens a bin of its key. -/
  | binSlotArrival
  /-- BIN_TIMER_EXPIRE (R325). A collecting bin's timer reaches T and the bin passes to launching. -/
  | binTimerExpire
  /-- BIN_GROUP_FORM (R326). A launching bin forms a child group once device time passes its slots' horizons. -/
  | binGroupForm
  /-- SPAWNED_GROUP_PLACEMENT (R327). A formed group or ready continuation is placed on a core of its bound domain that has room. -/
  | spawnedGroupPlacement
  /-- CHILD_COMPLETE (R328). A child thread completes; L1 flushes, the parent's counts are updated and the frame freed. -/
  | childComplete
  /-- AWAIT_CONDITION_MET (R330). An awaiting group's condition is met; it takes its completions and resumes or becomes ready. -/
  | awaitConditionMet
  /-- AWAIT_YIELD_TIMEOUT (R330). A resident awaiting group passes 1,024 clocks and yields its slot, saving its record. -/
  | awaitYieldTimeout
  /-- MATRIX_INSTRUCTION_START (R356). The array begins its next matrix instruction in core issue order after the previous one ends. -/
  | matrixInstructionStart
  /-- MATRIX_OPERATION_COMPLETE (R361). A matrix or weight-store operation reaches its final state and decrements MX or CP. -/
  | matrixOperationComplete
  /-- TARN_REFRESH_WINDOW (R373). A weight-store bank enters or leaves its refresh window on the device-time schedule. -/
  | tarnRefreshWindow
  /-- WEIGHT_STORE_LINE_ACCESS (R374). A weight-store line access starts, after any refresh window, and takes 60 clocks. -/
  | weightStoreLineAccess
  /-- RJOIN_MERGE (R385). Every unfinished sub-group is held at an RJOIN; sub-groups at one address merge and run on. -/
  | rjoinMerge
  /-- REGROUP_DEADLOCK (R385). Sub-groups held at RJOIN beside ones at BAR or REPACK raise cause 0x14 DETAIL 3. -/
  | regroupDeadlock
  /-- REPACK_EXECUTE (R388). All participants arrived and drained; live threads are repacked into dense new groups. -/
  | repackExecute
  /-- CCOLL_MATCHED (R402). Every participant has issued its matching instance; the reduction is checked and performed. -/
  | ccollMatched
  /-- CCOLL_COMPLETE (R408). A participant's destinations hold the result; flags are ORed and CP decrements. -/
  | ccollComplete
  /-- PEER_INBOUND_OPERATION (R437). A remote write, signal or atomic arrives from a peer and is performed or refused by the inbound window table. -/
  | peerInboundOperation
  /-- REMOTE_ACKNOWLEDGEMENT (R446). A peer acknowledges a remote operation, which completes on CP with any result. -/
  | remoteAcknowledgement
  /-- REMOTE_TIMEOUT (R446). A remote operation's chip stays unreachable for 10 ms; it ends with error code 1. -/
  | remoteTimeout
  /-- LINK_FLIT_REPLAY (R435). A flit fails its link-level check and is replayed. -/
  | linkFlitReplay
  /-- LINK_LANE_LOSS (R449). A peer or host link loses lanes and begins retraining, or goes down below four lanes. -/
  | linkLaneLoss
  /-- LINK_RETRAIN_COMPLETE (R449). A link finishes retraining at its new width and resumes carrying flits. -/
  | linkRetrainComplete
  /-- HOST_CXL_MEM_ACCESS (R438). A host access to device memory through CXL.mem is performed at the line's home. -/
  | hostCxlMemAccess
  /-- QGO (R440). A write to QGO copies QREC and enqueues it, setting QSTAT to the status. -/
  | qgo
  /-- QCTL_PREEMPT (R427). QCTL command 1 requests pre-emption of the queue's active launch. -/
  | qctlPreempt
  /-- QCTL_WITHDRAW (R427). QCTL command 2 withdraws the pre-emption request so the launch is restored. -/
  | qctlWithdraw
  /-- QCTL_RESUME (R416). QCTL command 3 resumes a trapped launch after checking its save records. -/
  | qctlResume
  /-- QCTL_END (R416). QCTL command 4 ends a trapped launch with status 4. -/
  | qctlEnd
  /-- ASTBASE_WRITE (R439). Host write of the address-space table base, taken only with no active launch and a valid value. -/
  | astbaseWrite
  /-- HWBASE_WRITE (R439). Host write of the host window base, taken only with no active launch and 4 KiB alignment. -/
  | hwbaseWrite
  /-- HWLEN_WRITE (R439). Host write of the host window length, taken only with no active launch and a valid length. -/
  | hwlenWrite
  /-- REGISTER_WRITE (R439). Host write to a BAR0 register without behaviour of its own, such as QREC, QMSI, ARG, EVTAIL or EVVEC. -/
  | registerWrite
  /-- DISPATCH_CHOICE (R417). Stride scheduling picks the contending queue of lowest pass and places its next block. -/
  | dispatchChoice
  /-- BLOCK_RETIRE (R423). All groups of a block finish with counters zero; resources are freed and waiting blocks of the launch placed. -/
  | blockRetire
  /-- BLOCK_RELEASE (R429). A retired block of an ordered-release launch releases its staged writes once lower blocks are released. -/
  | blockRelease
  /-- PREEMPT_QUANTUM (R427). A block resident for 3,500,000 clocks while a lower-pass queue waits is chosen for pre-emption. -/
  | preemptQuantum
  /-- GROUP_SAVE (R140). A pre-empted or stopped group reaches its boundary, drains, flushes L1 and writes its save record. -/
  | groupSave
  /-- LAUNCH_TRAP_REPORT (R416). Every group of a trapped launch is saved; the completion record is written with status 1 and signalled. -/
  | launchTrapReport
  /-- LAUNCH_COMPLETION (R415). A kernel completes; the completion record is written, signalled, and the queue's next launch becomes active. -/
  | launchCompletion
  /-- CORE_LOSS (R432). A core is lost in service; its launches stop or restart and the event is reported. -/
  | coreLoss
  /-- LAUNCH_RESTART (R433). A restartable launch's outstanding operations have drained and it is placed again from block 0. -/
  | launchRestart
  /-- HBM_CHANNEL_LOSS (R41). An HBM channel is lost in service; its lines are poisoned and its atomic unit disabled. -/
  | hbmChannelLoss
  /-- BASE_DIE_LOSS (R12). A base die is lost, taking its compute die's cores and poisoning its lines. -/
  | baseDieLoss
  /-- POWER_ON_BRINGUP (R454). At power-on the controller verifies the image, self-tests, maps out, trains, starts device time and sets READY. -/
  | powerOnBringup
  /-- GOVERNOR_SAMPLE (R455). Every 10 µs the governor measures power and lowers the arithmetic clock while over the ceiling. -/
  | governorSample
  /-- REPORT (R458). Mailbox command 1 returns unit states, link state, VERSION and the last failed step. -/
  | report
  /-- QUOTE (R460). Mailbox command 2 writes a signed attestation quote to a host buffer. -/
  | quote
  /-- OFFLINE (R293). Mailbox command 3 evacuates, fences or refuses taking a near die offline. -/
  | offline
  /-- WINDOW (R458). Mailbox command 4 writes an inbound window table entry. -/
  | window
  /-- STAGE (R458). Mailbox command 5 verifies an image and writes it to flash for the next reset. -/
  | stage
  /-- RESET (R458). Mailbox command 6 brings the module up again from step 1 when no launch is active. -/
  | reset
  /-- DOORBELL_UNKNOWN_COMMAND (R458). A doorbell write with an unassigned command code ends with result 6. -/
  | doorbellUnknownCommand
  /-- OTHER_CAUSE_WAKE_EVENT (R271). A wake event with reason 4 is recorded against an armed monitor for any other cause, at any time. -/
  | otherCauseWakeEvent
  /-- GUEST_COPY_EVICTION (R253). A die's L2 drops a guest copy by replacement, so its guest filter no longer holds the line and later reads go to the home. -/
  | guestCopyEviction
  /-- MAILBOX_COMMAND_END (R458). A running mailbox command ends: the controller writes RESP, then the result in MSTAT, then clears BUSY. -/
  | mailboxCommandEnd
deriving DecidableEq, Repr

end Sys2Proof
end

