-- ==== Sys2Proof/Machine/Fields.lean ====
section
/-! DEFINITION. The named fields of instruction words and the codes they hold: operands, types, rounding, routing (R46 to R60
02_encoding.md). -/

namespace Sys2Proof

/-- Bits hi down to lo of a value, as a number (R3). -/
def bits {n : Nat} (v : BitVec n) (hi lo : Nat) : Nat := (v.toNat >>> lo) % 2 ^ (hi + 1 - lo)

/-- One bit (R3). -/
def bitAt {n : Nat} (v : BitVec n) (i : Nat) : Bool := v.getLsbD i

/-! ### Operand types (R56) -/

inductive DType where
  | b32 | b64 | i8 | i16 | i32 | i64 | n8 | n16 | n32 | n64 | f16 | bf16 | f32 | f64 | e4m3 | e5m2 | i4 | n4 | t2 | c8
deriving DecidableEq, Repr

/-- The type codes of R56; 0x14 to 0x1F are reserved. -/
def DType.ofCode : Nat → Option DType
  | 0x00 => some .b32 | 0x01 => some .b64 | 0x02 => some .i8 | 0x03 => some .i16 | 0x04 => some .i32
  | 0x05 => some .i64 | 0x06 => some .n8 | 0x07 => some .n16 | 0x08 => some .n32 | 0x09 => some .n64
  | 0x0A => some .f16 | 0x0B => some .bf16 | 0x0C => some .f32 | 0x0D => some .f64 | 0x0E => some .e4m3
  | 0x0F => some .e5m2 | 0x10 => some .i4 | 0x11 => some .n4 | 0x12 => some .t2 | 0x13 => some .c8
  | _ => none

/-- Bits of one value of the type. -/
def DType.width : DType → Nat
  | .b64 | .i64 | .n64 | .f64 => 64
  | .b32 | .i32 | .n32 | .f32 => 32
  | .i16 | .n16 | .f16 | .bf16 => 16
  | .i8 | .n8 | .e4m3 | .e5m2 | .c8 => 8
  | .i4 | .n4 => 4
  | .t2 => 2

/-- Is the type a signed integer type? -/
def DType.signed : DType → Bool
  | .i4 | .i8 | .i16 | .i32 | .i64 => true
  | _ => false

/-- Is the type a floating-point type? -/
def DType.isFloat : DType → Bool
  | .f16 | .bf16 | .f32 | .f64 | .e4m3 | .e5m2 => true
  | _ => false

/-- Does an operand of the type name a pair (R50)? -/
def DType.wide (t : DType) : Bool := t.width == 64

/-! ### Rounding (R55) -/

inductive Rnd where
  | rne | rtz | rup | rdn | rna
deriving DecidableEq, Repr

/-- The modes of R55 but for .dyn; other codes read as rne where a legal code stands for certain. -/
def Rnd.ofCode : Nat → Rnd
  | 1 => .rtz | 2 => .rup | 3 => .rdn | 4 => .rna | _ => .rne

/-! ### Operand codes (R50) -/

inductive Operand where
  /-- v0 to v239 -/
  | vreg (n : Nat)
  /-- s0 to s159 -/
  | ureg (n : Nat)
  /-- w1 to w8, numbered from 0 -/
  | win (k : Nat)
  /-- the sixteen inline constants (R51) -/
  | const (k : Nat)
  | lane
  | member
  /-- 0x1FF: the literal as a source, window only as a destination -/
  | lit
  | reserved
deriving DecidableEq, Repr

/-- The 9-bit operand codes (R50). -/
def operandOf (c : BitVec 9) : Operand :=
  let n := c.toNat
  if n ≤ 0x0EF then .vreg n
  else if 0x100 ≤ n ∧ n ≤ 0x19F then .ureg (n - 0x100)
  else if 0x1A0 ≤ n ∧ n ≤ 0x1A7 then .win (n - 0x1A0)
  else if 0x1B0 ≤ n ∧ n ≤ 0x1BF then .const (n - 0x1B0)
  else if n = 0x1C0 then .lane
  else if n = 0x1C1 then .member
  else if n = 0x1FF then .lit
  else .reserved

/-- The 9-bit code that an 8-bit code of a base form stands for (R47). -/
def code8 (c : BitVec 8) : BitVec 9 :=
  let n := c.toNat
  if n ≤ 0xEF then BitVec.ofNat 9 n
  else if n ≤ 0xF7 then BitVec.ofNat 9 (0x1A0 + (n - 0xF0))
  else BitVec.ofNat 9 (0x1B0 + (n - 0xF8))

/-! ### Fields of the extended form (R49) -/

def Ext.b (x : Ext) : BitVec 9 := BitVec.ofNat 9 (bits x.w1 31 23)
def Ext.c (x : Ext) : BitVec 9 := BitVec.ofNat 9 (bits x.w1 22 14)
def Ext.rnd (x : Ext) : Nat := bits x.w1 13 11
def Ext.sub (x : Ext) : Nat := bits x.w1 10 0
/-- SUB[4:0], the operand type where the entry carries one (R56). -/
def Ext.tcode (x : Ext) : Nat := bits x.w1 4 0
/-- SUB[9:5], the second type where the entry carries two (R56). -/
def Ext.tcode2 (x : Ext) : Nat := bits x.w1 9 5
def Ext.moda (x : Ext) : Nat := bits x.w2 31 22
def Ext.modb (x : Ext) : Nat := bits x.w2 21 12
def Ext.modc (x : Ext) : Nat := bits x.w2 11 2
def Ext.neg (x : Ext) : Bool := bitAt x.w2 1
def Ext.abs (x : Ext) : Bool := bitAt x.w2 0
/-- The operand type, .b32 where the code is reserved (the checks turn that encoding away). -/
def Ext.ty (x : Ext) : DType := (DType.ofCode x.tcode).getD .b32
def Ext.ty2 (x : Ext) : DType := (DType.ofCode x.tcode2).getD .b32
/-- Words of the instruction (R44). -/
def Ext.words (x : Ext) : Nat := if x.lit.isSome then 5 else 3
/-- SUB[hi:lo]. -/
def Ext.subBits (x : Ext) (hi lo : Nat) : Nat := bits x.w1 hi lo
/-- One bit of word 1. -/
def Ext.bit1 (x : Ext) (i : Nat) : Bool := bitAt x.w1 i

/-- The three source fields. -/
inductive Slot where
  | A | B | C
deriving DecidableEq, Repr

def Ext.code (x : Ext) : Slot → BitVec 9
  | .A => x.a
  | .B => x.b
  | .C => x.c

/-- The routing modifier of a source field. -/
def Ext.modOf (x : Ext) : Slot → Nat
  | .A => x.moda
  | .B => x.modb
  | .C => x.modc

/-- KIND[9:7] of a routing modifier (R58). -/
def modKind (m : Nat) : Nat := m / 128 % 8
/-- FILL[6] of a routing modifier (R58). -/
def modFill (m : Nat) : Bool := m / 64 % 2 == 1
/-- PARAM[5:0] of a routing modifier (R58). -/
def modParam (m : Nat) : Nat := m % 64

/-- The guard (R54): the predicate and whether it is negated. -/
def guardPred (p : BitVec 4) : Nat := p.toNat % 8
def guardNot (p : BitVec 4) : Bool := 8 ≤ p.toNat

/-- The extended form that a base form with one source equals (R48). -/
def Base.one (b : Base) : Ext :=
  { d := code8 b.d, a := code8 b.a, p := 0, w1 := BitVec.ofNat 32 b.m.toNat, w2 := 0, lit := none }

/-- The extended form that a base form with two sources equals (R48). -/
def Base.two (b : Base) : Ext :=
  { d := code8 b.d, a := code8 b.d, p := 0,
    w1 := BitVec.ofNat 32 ((code8 b.a).toNat * 2 ^ 23 + b.m.toNat), w2 := 0, lit := none }

/-! ### Fields of the record form (R60) -/

/-- SUBM[31:28] of word 2: is record word k a substitution marker? -/
def Rec.marked (x : Rec) (k : Nat) : Bool := bitAt x.w2 (28 + k)
def Rec.word (x : Rec) : Nat → Word
  | 0 => x.r0
  | 1 => x.r1
  | 2 => x.r2
  | _ => x.r3
def Rec.b (x : Rec) : BitVec 9 := BitVec.ofNat 9 (bits x.w1 31 23)
def Rec.c (x : Rec) : BitVec 9 := BitVec.ofNat 9 (bits x.w1 22 14)
def Rec.rnd (x : Rec) : Nat := bits x.w1 13 11
def Rec.sub (x : Rec) : Nat := bits x.w1 10 0
def Rec.code (x : Rec) : Slot → BitVec 9
  | .A => x.a
  | .B => x.b
  | .C => x.c

/-! ### Fields of the trailer (R69) -/

/-- Awaited-register field i, from 0 to 5. -/
def Trailer.awField (t : Trailer) (i : Nat) : Nat :=
  if i < 4 then bits t.w1 (31 - 8 * i) (24 - 8 * i) else bits t.w2 (31 - 8 * (i - 4)) (24 - 8 * (i - 4))
/-- The awaited registers. -/
def Trailer.awaited (t : Trailer) : List Nat := (List.range t.naw.toNat).map t.awField
/-- TARGET[15:0], signed (R69). -/
def Trailer.target (t : Trailer) : Int := (BitVec.ofNat 16 (bits t.w2 15 0)).toInt

end Sys2Proof
end

