-- ==== Sys2Proof/Machine/Bits.lean ====
section
/-! DEFINITION. Integers read from bit patterns and written back (R163 06_integer.md), and small helpers over bits and lists. -/

namespace Sys2Proof
namespace Machine

/-- A pattern of w bits read as an integer (R163: int). -/
def intOf (signed : Bool) (w v : Nat) : Int :=
  let u := v % 2 ^ w
  if signed && decide (2 ^ (w - 1) ≤ u) then (u : Int) - 2 ^ w else u

/-- A pattern read as an integer of a type. -/
def intTy (t : DType) (v : Nat) : Int := intOf t.signed t.width v

/-- v mod 2^w as a pattern (R163: lo). -/
def lo (v : Int) (w : Nat) : Nat := (v % (2 ^ w : Nat)).toNat

/-- An integer as a 32-bit or 64-bit pattern. -/
def pat32 (v : Int) : Dword := BitVec.ofNat 64 (lo v 32)
def pat64 (v : Int) : Dword := BitVec.ofNat 64 (lo v 64)

/-- The pattern of an integer in w bits, held in a 64-bit value. -/
def pat (w : Nat) (v : Int) : Dword := BitVec.ofNat 64 (lo v w)

/-- Bytes of a number, the lowest address first. -/
def leBytes : Nat → Nat → List Byte
  | 0, _ => []
  | n + 1, v => BitVec.ofNat 8 v :: leBytes n (v / 256)

/-- The number that bytes hold, the lowest address first (R2). -/
def leNat : List Byte → Nat
  | [] => 0
  | b :: rest => b.toNat + 256 * leNat rest

/-- The number in `n` bytes of a list from an offset. -/
def leAt (b : List Byte) (off n : Nat) : Nat := leNat ((b.drop off).take n)

/-- Bits set in the low n bits. -/
def popcount : Nat → Nat → Nat
  | 0, _ => 0
  | n + 1, v => v % 2 + popcount n (v / 2)

/-- The positions below n of set bits, ascending. -/
def bitsSet (n v : Nat) : List Nat := (List.range n).filter fun i => v.testBit i

/-- A word with the bits of a list of positions. -/
def ofBits (l : List Nat) : Nat := l.foldl (fun a i => a ||| 2 ^ i) 0

/-- A number of at most n bits, reversed. -/
def revBits : Nat → Nat → Nat
  | 0, _ => 0
  | n + 1, v => (v % 2) * 2 ^ n + revBits n (v / 2)

/-- Insertion into a sorted list, and sorting by it: equal elements keep their order. -/
def insertBy {α : Type} (le : α → α → Bool) (a : α) : List α → List α
  | [] => [a]
  | b :: rest => if le a b then a :: b :: rest else b :: insertBy le a rest
def sortBy {α : Type} (le : α → α → Bool) (l : List α) : List α := l.foldr (insertBy le) []

end Machine
end Sys2Proof
end

