-- ==== Sys2Proof/Config.lean ====
section
/-! DEFINITION. What the spec leaves open: free values without a body, so that no proof can see what they are. Each is named
in the assumption log. State.stamp, a plain counter, is the argument that makes one use differ from the next. -/

namespace Sys2Proof
namespace Config

/-- Which of the candidates moves next (log 1). -/
opaque arbiter : Nat → Nat
/-- How many reference clocks pass with one step (log 2). -/
opaque clocks : Nat → Nat
/-- One clock at least passes with every so many steps, and one more (log 2). -/
opaque pace : Nat
/-- For how many steps the arbiter may pass over what stays possible (R103, R419; log 1). -/
opaque patience : Nat
/-- Which of the allowed values an early read returns, by stamp and by thread and register (R66, R105; log 3). -/
opaque earlyRead : Nat → Nat → Nat
/-- Which of the allowed values a read across sub-groups returns (R147; log 4). -/
opaque crossRead : Nat → Nat → Nat
/-- Which failing row of R78 an encoding with several reports as DETAIL (log 8). -/
opaque whichDetail : Nat → Nat
/-- Which part of an operation's destinations or sources an early arrival covers (R105, R106; log 3). -/
opaque partSet : Nat → Nat → Bool
/-- What the world outside sends with one step: events of the host, of peers, of the physical world (log 56). -/
opaque world : Nat → List (Instr × EventArg)
/-- The line of memory in which storage loses its bytes between two steps, if any, and whether ECC found it (R39, R40; log 52). -/
opaque struckLine : Nat → Option (Nat × Bool)
/-- The line of a weight store, as die and line, in which that comes about (R375; log 52). -/
opaque struckWeight : Nat → Option (Nat × Nat)
/-- Is an A element of an MMA lost beyond correction, by member, A row and element; is a stored panel element, by K index and column
(R370; log 52)? -/
opaque lostA : Nat → Nat → Nat → Nat → Bool
opaque lostW : Nat → Nat → Nat → Bool
/-- The line of a core's L1, or with `true` of a die's guest copies, in which that comes about (R40; log 52). -/
opaque struckCopy : Nat → Option (Bool × Nat × Nat)
/-- The unit of a group in which it does: 0 of a vector register, 1 of a uniform one, 2 an accumulator; the group; the unit (R40; log 52). -/
opaque struckUnit : Nat → Option (Nat × Nat × Nat)
/-- The pool byte of a block in which it does, by launch, block and key (R40; log 52). -/
opaque struckPool : Nat → Option (Nat × Nat × Nat)
/-- The write request whose bytes are damaged on the way (R38, R39; log 52). -/
opaque struckWrite : Nat → Option Nat
/-- Which of several permitted choices of an engine is taken, where the spec gives no order (log 1). -/
opaque choice : Nat → Nat → Nat
/-- Which cached line or translation a unit keeps or drops, where the spec gives no rule (log 9). -/
opaque keeps : Nat → Nat → Bool
/-- The value of a function-pipe result where the enclosures of the model do not decide the rounding (log 13). -/
opaque functionUnresolved : Nat → Nat → Nat
/-- A byte that the spec gives no value: of the weight store past its last address (R364, R461; log 34). -/
opaque freeByte : Nat → Nat → BitVec 8
/-- Bytes of the device's own keys, by key and index (R460; log 15). -/
opaque keyByte : Nat → Nat → BitVec 8
/-- The identifier and the root of the vendor's tree, 48 bytes in mask ROM (R452; log 15). -/
opaque romByte : Nat → BitVec 8
/-- What a configuration block says, by item, and the digests of an image whose bytes the spec does not give (R453, R460; log 15). -/
opaque imageItem : List (BitVec 8) → Nat → Nat

end Config
end Sys2Proof
end

