-- ==== Sys2Proof/Machine/State.lean ====
section
/-! DEFINITION. The state of the machine as plain data: what each rule of the spec gives a thread, a member, a sub-group, a
group, a block, a launch, a queue, a core, a die or the device (INVENTORY.md, heading State, names the rule and the reset
value of each field). -/

namespace Sys2Proof
namespace Machine

/-- A fault: the machine stops because the outside world asked for something the spec says does not exist.
The traps of a group are not faults of this kind: taking one is a next state (R133 to R138 04_sequencer.md). -/
inductive Fault where
  /-- An access from outside names a physical address that the address map reserves (R276 12_translation.md). Raised by
  HOST_CXL_MEM_ACCESS, HOST_LINE_TAKE and PEER_INBOUND_OPERATION; safe: the spec gives no such address any contents. -/
  | noSuchAddress (address : Nat)
deriving DecidableEq, Repr

/-- A refusal: the step that was asked for does not come about in this state. -/
inductive Refusal where
  /-- Raised by the dispatcher's arm of an instruction without a meaning; safe. -/
  | notModelled (mnemonic : String)
  /-- Raised by an encoded instruction when State.cur names no resident sub-group that can issue: there is no issuer whose
  instruction it could be (R131 04_sequencer.md); safe: nothing happens. -/
  | noIssuer
  /-- Raised by an event whose condition the state does not meet (its rule is cited at the event); safe: nothing happens. -/
  | notEnabled (event : String)
deriving DecidableEq, Repr

/-! ### Registers of threads and groups -/

/-- One window entry (R64 02_encoding.md): its width and uniform marks (R141) and its value in every thread of its members;
a uniform entry holds the one value under every thread. -/
structure WinEntry where
  wide : Bool
  uni : Bool
  vals : SMap Dword
deriving DecidableEq, Repr

/-- A marked 4-byte unit (R245 10_loadstore.md): the cause, the DETAIL and the line's address it reports when read. -/
structure Mark where
  cause : Nat
  detail : Nat
  addr : Nat
deriving DecidableEq, Repr

/-- An armed monitor (R270, R271 11_atomics.md): the unit it watches, none for one restored from a save, and the recorded wake
events, earliest first. `pending` holds while the MONITOR is on its way to the executor. -/
structure Monitor where
  addr : Option Nat
  /-- Its executor (R257), and its rank among the monitors armed there. -/
  exec : Nat
  order : Nat
  pending : Bool
  wakes : List Nat
deriving DecidableEq, Repr

/-- The wait that a boundary-waiting instruction arms for the trailer (R63 02_encoding.md, R383 17_regroup.md). -/
inductive Boundary where
  | bar (level : Nat)
  | sleep (clocks : Nat)
  | mwait (timeout : Nat) (dest : Option Nat)
  /-- AWAIT and AWAITN: the threshold, and the threads active at the instruction (R329). -/
  | await (n : Nat) (act : List Nat)
  /-- MSPLIT: every member apart, or by a mask (R383). -/
  | split (mask : Option (BitVec 8))
deriving DecidableEq, Repr

/-- What an operation does with a pool tile (R298 13_copy.md). -/
inductive TileRole where
  | fill | reader | drain | define
deriving DecidableEq, Repr

/-- What a sub-group waits for (R131 04_sequencer.md). -/
inductive Phase where
  /-- Eligible. -/
  | running
  /-- A WAITC has issued and holds later instructions (R74 02_encoding.md). -/
  | waitc (ld st cp mx : Nat)
  /-- Held before an instruction whose counter stands at 63 (R33 01_machine.md). -/
  | counterStall (counter : Nat)
  /-- Held before an instruction whose tile is not ready (R298 13_copy.md). -/
  | tileStall (tile : Nat) (role : TileRole)
  /-- Held by an interlocked engine operation (R269, R285). -/
  | engine (op : Nat)
  /-- Waiting at a boundary: BAR (R128). -/
  | bar (level : Nat)
  /-- Waiting at a boundary: SLEEP, until the device time (R129). -/
  | sleep (wake : Nat)
  /-- Waiting at a boundary: MWAIT (R272). -/
  | mwait (deadline : Option Nat) (dest : Option Nat)
  /-- Waiting at a boundary: AWAIT or AWAITN, resident since the device time (R329, R330). -/
  | await (since n : Nat) (act : List Nat)
  /-- Held at an RJOIN (R384) or a REPACK (R387 17_regroup.md). -/
  | heldJoin
  | heldRepack (dest : Option Nat)
  /-- Every thread has exited (R72 02_encoding.md). -/
  | finished
  /-- Stopped at a run boundary for a save (R140). -/
  | stopped
  /-- A trap has been taken (R133); it resumes by the host's choice (R138). -/
  | trapped
deriving DecidableEq, Repr

/-- The registers that a trap writes (R135 04_sequencer.md). -/
structure TrapRegs where
  info : Dword
  pc : Dword
  addr : Dword
  msk0 : Dword
  msk1 : Dword
  msk2 : Dword
  msk3 : Dword
deriving DecidableEq, Repr

def TrapRegs.zero : TrapRegs := ⟨0, 0, 0, 0, 0, 0, 0⟩

/-- One exact accumulator (R339 15_accumulator.md): the sign-magnitude sum as an integer in units of its last place, the count
and the state bits. -/
structure Accum where
  mag : BitVec 2176
  count : BitVec 64
  pi : Bool
  ni : Bool
  qn : Bool
  iv : Bool
  nz : Bool
deriving DecidableEq, Repr

/-- A cleared accumulator (R339). -/
def Accum.clear : Accum := ⟨0, 0, false, false, false, false, true⟩

/-- A sub-group: all of a group, or what a split made of it (R379 17_regroup.md). -/
structure SubGroup where
  /-- Its record number, 0 to 7 (R135, R141). -/
  num : Nat
  /-- Members held. -/
  members : BitVec 8
  /-- MMK bits of its own members (R115). -/
  mmk : BitVec 8
  uregs : SMap Word
  /-- Marked units of its uniform registers (R245). -/
  umarks : SMap Mark
  /-- Uniform registers that an LDU still writes, with the operation (R67, R242). -/
  upending : SMap Nat
  /-- Uniform registers that a MIGR writes at its completion, with the operation; a read before then returns the old value (R105, R289). -/
  ulate : SMap Nat := []
  fpcr : Word
  lpr : BitVec 3
  pc : Dword
  /-- Instructions of the run already executed (R68, R141). -/
  ndone : Nat
  /-- Window entries, newest first (R64). -/
  window : List WinEntry
  /-- Current call frame: header block index from the frame-area base (R333). -/
  cfrm : Option Nat
  phase : Phase
  boundary : Option Boundary
  /-- The last trailer was YIELD (R70, R132). -/
  yielded : Bool
  /-- The RJOIN or REPACK at the pc has been released (R385, R388). -/
  passed : Bool
  monitor : Option Monitor
  /-- The last BAR: its address, its position in the run, the window before it, where a deadlock's fault resumes (R133, R385). -/
  barAt : Option (Nat × Nat × List WinEntry)
  /-- Its call frame at that BAR, with the run of the frame area that holds it (R133, R385). -/
  barFrame : Option (Nat × Option (Nat × Nat)) := none
  /-- State.stamp at its last issue, 0 where it has not issued yet (R132). -/
  issued : Nat := 0
  /-- Port-M instructions wait for this OBSERVE (R269). -/
  observing : Option Nat
  /-- Vector registers as they stood at the split, and every value written since, newest first, for reads by other
  sub-groups (R147): register, then values. -/
  hist : SMap (List Vec)
deriving DecidableEq, Repr

/-- Errors that wait for a covering WAITC or a save (R39, R274, R312, R370, R409): the operation, its counter, and the fault. -/
structure Deferred where
  op : Nat
  counter : Nat
  /-- The operation has completed. -/
  ready : Bool
  cause : Nat
  detail : Nat
  addr : Nat
  /-- The thread of an MHIST that met it (R397 18_collective.md). -/
  thread : Nat := 0
deriving DecidableEq, Repr

/-- Where a group stands (R327, R330 14_spawn.md, R140 04_sequencer.md, R426 19_dispatch.md). -/
inductive Place where
  /-- In a slot of its core. -/
  | slot
  /-- Formed from a bin and not placed yet. -/
  | formed
  /-- Away from its slot, waiting for its children; its record stands in memory. -/
  | yielded
  /-- A continuation that waits to be placed again. -/
  | ready
  /-- Saved with its block or its launch. -/
  | saved
  /-- Finished, and out of its slot. -/
  | gone
deriving DecidableEq, Repr

/-- A group (R19 01_machine.md): resident, waiting away from its slot, formed or saved. -/
structure Group where
  id : Nat
  launch : Nat
  block : Nat
  /-- Its index in the block (R24), and for a spawned group the index it took (R326). -/
  index : Nat
  /-- Device core number, and the partition in which it takes a slot (R13, R14); no rule says which slot. -/
  core : Nat
  partition : Nat
  place : Place
  /-- M (R19). -/
  m : Nat
  vregs : SMap Vec
  /-- Values an unawaited read may still return, per register, newest first (R66). -/
  stale : SMap (List Vec)
  /-- Awaited registers, with the operations that a read of them waits for (R73). -/
  awaited : SMap (List Nat) := []
  /-- Marked units, keyed 256 x register + thread (R245). -/
  vmarks : SMap Mark
  /-- Predicates, keyed 16 x member + k. -/
  preds : SMap Word
  exm : SMap Word
  live : SMap Word
  fpsr : SMap (BitVec 5)
  /-- The trap flag array (R137, R141). -/
  trapFlags : SMap (BitVec 5)
  /-- Exact accumulators, keyed 4 x member + i (R339). -/
  accs : SMap Accum
  /-- Accumulators marked by a bad XLD, or still being loaded (R350), same keys. -/
  accMarks : SMap Mark
  accPending : SMap Nat
  trap : TrapRegs
  ld : Nat
  st : Nat
  cp : Nat
  mx : Nat
  /-- Release horizon (R268). -/
  horizon : Nat
  /-- Group epoch G (R249). -/
  gepoch : Nat
  subs : List SubGroup
  deferred : List Deferred
  /-- Counters of the operations that completed and that no WAITC has covered yet (R34). -/
  uncovered : List Nat
  /-- The await record (R321) as a block index from the frame-area base. -/
  awr : Option Nat
  /-- The largest horizon of the completions that a thread has not taken yet (R328, R329). -/
  reports : SMap Nat
  /-- A count of its await record was to pass below zero (R335). -/
  awrBad : Bool
  /-- A spawned group (R326): the frame of each thread that is not complete, as a block index; its continuation reservation; the
  threads whose frames break the layout (R335). -/
  spawned : Bool
  frames : SMap Nat
  resv : Option Nat
  frameBad : List Nat
  /-- Its rank among formed groups and ready continuations (R327). -/
  rank : Nat
  /-- The bound domain (R324): 0 a core, 1 a cluster, 2 a die, with its number over the device; 3 the cores of its block. -/
  bound : Nat × Nat
  /-- For each exited thread, the next name of an operation when it exited (R328). -/
  exits : SMap Nat
  /-- CCOLLs executed per (LVL, XC, TEAM, TAG), as one number (R402). -/
  ccolls : SMap Nat
  /-- REASON of its last save record (R141). -/
  reason : Nat := 0
deriving DecidableEq, Repr

/-! ### Memory, caches and what is in flight -/

/-- What a 64-byte line carries beside its bytes: poison (0 none, else DETAIL 2 to 4 of R284), the failing mark of R39, whether the
failure has been reported (R461), and whether it is an error that ECC could not correct (R40). -/
structure LineMark where
  poison : Nat
  failing : Bool
  reported : Bool
  ecc : Bool := false
deriving DecidableEq, Repr

def LineMark.none : LineMark := ⟨0, false, false, false⟩

/-- A line of a core's L1 (R247, R249): its clean bytes if it was filled, dirty bytes by offset, the epoch of the fill, the
earliest stamp and store time of its dirty bytes (R287, R248), and the groups and store operations that wait for them. -/
structure L1Line where
  core : Nat
  line : Nat
  clean : Option (List Byte)
  mark : LineMark
  epoch : Nat
  dirty : SMap Byte
  stamp : Nat
  since : Nat
  owners : List Nat
  waiters : List Nat
deriving DecidableEq, Repr

/-- A guest copy of a line in a die's L2 (R252). -/
structure Guest where
  die : Nat
  line : Nat
  bytes : List Byte
  mark : LineMark
deriving DecidableEq, Repr

/-- A write request on its way to the home of its line (R254): `bytes` are the bytes of its mask; `staged` names the launch and
block that stage it under ordered release (R428). -/
structure HomeWrite where
  id : Nat
  core : Option Nat
  die : Nat
  line : Nat
  bytes : SMap Byte
  stamp : Nat
  owners : List Nat
  waiters : List Nat
  staged : Option (Nat × Nat)
  /-- The bytes arrive with a failing check value (R39). -/
  failing : Bool
  /-- The line it writes is delivered poisoned (R284), or failing, by a copy of such a line (R312). -/
  poison : Bool
  marked : Bool := false
deriving DecidableEq, Repr

/-- A release in progress (R268): the writes of group `grp` before it that are not performed yet, and the horizon so far. -/
structure Edge where
  id : Nat
  grp : Nat
  pend : List Nat
  v : Nat
deriving DecidableEq, Repr

/-- One access at an executor (R259 to R267 11_atomics.md), with the operands taken at issue. `what` is 0 ATOM, 1 ATOMCAS,
2 SIGNAL, 3 OBSERVE. -/
structure AtomReq where
  thread : Nat
  pa : Nat
  width : Nat
  what : Nat
  opn : Nat
  ty : DType
  rnd : Rnd
  fzi : Bool
  fzo : Bool
  b : Nat
  c : Nat
  reg : Option Nat
  msa : Bool
  /-- Flags it raised, for the FPSR of its thread at completion (R263). -/
  fl : BitVec 5
  done : Bool
deriving DecidableEq, Repr

/-- One member's image of an AIMG, with the accumulator taken at issue (R266). -/
structure AimgReq where
  member : Nat
  pa : Nat
  msa : Bool
  acc : Accum
  done : Bool
deriving DecidableEq, Repr

/-- A staged write or atomic of a block under ordered release (R428 19_dispatch.md); `die` stages it. -/
structure Staged where
  launch : Nat
  block : Nat
  die : Nat
  line : Nat
  bytes : SMap Byte
  atom : Option AtomReq
  poison : Bool
  marked : Bool := false
  /-- QI at translation (R287). -/
  stamp : Nat := 0
deriving DecidableEq, Repr

/-- A performed write that waits for its visibility time (R254). -/
structure Visible where
  id : Nat
  time : Nat
  waiters : List Nat
deriving DecidableEq, Repr

/-- An invalidation on its way to a guest die, or its answer on its way back (R253); `due` is the visibility time it serves. -/
structure Probe where
  id : Nat
  die : Nat
  line : Nat
  due : Nat
  answered : Bool
deriving DecidableEq, Repr

/-- A cached table entry of a core (R283): the ASID, level and table address it was read for, and its two words. -/
structure TlbEntry where
  core : Nat
  asid : Nat
  level : Nat
  va : Nat
  w0 : Dword
  w1 : Dword
deriving DecidableEq, Repr

/-- One read of a load: the threads that receive it (several for an LDU, R242; none for a uniform destination), the first
destination register, the physical address of each byte in ascending order, and how a result narrower than a register extends. -/
structure Access where
  threads : List Nat
  reg : Nat
  addrs : List Nat
  signed : Bool
  /-- .w8 or .w16: the access is one block (R101). -/
  widened : Bool
deriving DecidableEq, Repr

/-- A byte already taken by a load, and the mark of the line it came from. -/
structure Taken where
  byte : Byte
  mark : Option Mark
deriving DecidableEq, Repr

/-! ### Operations, blocks, launches, queues -/

/-- A tile of a block's core that an operation uses until it completes (R298). -/
structure TileUse where
  launch : Nat
  block : Nat
  core : Nat
  tile : Nat
  role : TileRole
deriving DecidableEq, Repr

/-- One side of a copy (R304 13_copy.md): memory; a tile from a byte offset of its part; registers; or the values that it read
at issue, for each transfer in order. -/
inductive CopyEnd where
  | mem
  | tile (k off : Nat)
  | reg (n : Nat)
  | vals (l : List (List Nat))
deriving DecidableEq, Repr

/-- How a copy finds its elements: extents with the byte strides of the memory side from a base (R307); a shape table of `rank`
dimensions (R306); a field with its halo (R316). -/
inductive CopyWay where
  | dims (base : Nat) (l : List (Nat × Int))
  | table (base va rank : Nat)
  | field (base stride x0 y0 h nx ny tx ty bx byy : Nat)
deriving DecidableEq, Repr

/-- One element of one transfer (R309): the member, its number, the bytes of its memory side and the bit it starts at, whether a
boundary rule supplies it (R316), and what it came to once it has been read: the converted bits, its flags, and the mark it met. -/
structure Move where
  m : Nat
  e : Nat
  addrs : List Nat
  shift : Nat
  /-- Bits of the tile side that a shape table's TOFF puts before element 0 (R306). -/
  first : Nat
  fixed : Bool
  res : Option (Nat × BitVec 5 × Option Mark)
deriving DecidableEq, Repr

/-- What a copy does (R304 to R317), with the operands taken at issue; `moves` from its start on. -/
structure CopyWork where
  src : CopyEnd
  dst : CopyEnd
  ts : DType
  td : DType
  mode : Rnd
  fzi : Bool
  fzo : Bool
  pm : Bool
  xfers : List Nat
  /-- Active threads. -/
  active : List Nat
  way : CopyWay
  moves : Option (List Move)
deriving DecidableEq, Repr

/-- What a matrix or weight-store operation does (R362 to R375 16_matrix.md), with the operands taken at issue. -/
inductive MxWhat where
  /-- MCFG: the four mode codes. -/
  | cfg (modes : Nat)
  | zero (mask : Nat)
  /-- MLDB, and MLDBW with `tarn`. -/
  | load (tarn : Bool) (ty : DType) (wb : Nat) (bs : Bool) (base str saddr kb kn : Nat)
  /-- MMA: a tile source, or each member's A stream as one number. -/
  | mma (ty : DType) (mt nh : Nat) (acc bsa : Bool) (src : Option Nat) (aoff astr nrow row0 mstr kb kn wa soff : Nat) (streams : SMap Nat)
  | drain (td : DType) (mode : Rnd) (fzi fzo : Bool) (mt : Nat) (zr : Bool) (tile : Option Nat) (base str row0 nr col0 nc : Nat)
  | stat (sel : Nat) (clr : Bool) (d : BitVec 9) (p : BitVec 4)
  | wsWrite (addr ta len : Nat)
  | wsRead (addr ta len : Nat)
deriving DecidableEq, Repr

/-- A matrix or weight-store operation on its way: active threads, participating members, whether it waits (0), has started (1) or
has had its effect and waits for its writes (2); the physical addresses of its memory side; the weight-store lines that it has
accessed, with whether they fail their check value. -/
structure MxWork where
  what : MxWhat
  active : List Nat
  members : List Nat
  stage : Nat
  rows : List (List Nat)
  saddrs : List Nat
  lines : List (Nat × List Byte × Bool)
  /-- Device time at which its last access of the weight store ends (R374). -/
  busy : Nat := 0
deriving DecidableEq, Repr

/-- An endpoint of CCOLL (R399 18_collective.md). -/
inductive CcollEnd where
  | reg (n : Nat)
  | acc (i : Nat)
  | mem
deriving DecidableEq, Repr

/-- A CCOLL (R399 to R410), with the operands taken at issue: its counting key and its place in that count (R402); the endpoint
addresses; for each contributing member in order its elements where they are registers or an accumulator, and the physical
addresses of its memory source and destination; the result once it has been matched. -/
structure CcollWork where
  key : Nat
  kth : Nat
  /-- The domain bound to LVL. -/
  dom : Nat
  team : Option Nat
  mode : Nat
  count : Nat
  ts : DType
  td : DType
  rnd : Nat
  env : Rnd
  /-- Does it flush subnormal sources (R190 07_formats.md)? -/
  fzi : Bool := false
  fzo : Bool
  param : Nat
  oofs : Int
  src : CcollEnd
  dst : CcollEnd
  base : Nat
  dest : Nat
  members : List Nat
  active : List Nat
  vals : List (List Nat)
  srcs : List (List Nat)
  dsts : List (List Nat)
  /-- Issued while its launch was being stopped: it matches nothing (R410). -/
  dead : Bool
  result : Option (List Nat)
deriving DecidableEq, Repr

/-- One message of a remote operation (R442 to R444 20_links.md): the chip it goes to, the thread it stands for, what it asks, once it
has left, and the answer. -/
structure RemotePart where
  chip : Nat
  thread : Nat
  ask : Option PeerAsk
  answer : Option PeerAnswer
deriving DecidableEq, Repr

/-- A remote operation, with the operands taken at issue; `moves` of a copy are source byte, chip and destination byte, in the order
of R442. -/
structure RemoteWork where
  reg : Option Nat
  width : Nat
  issued : Nat
  moves : List (Nat × Nat × Nat)
  parts : List RemotePart
  /-- The code of its first error (R446). -/
  error : Nat
deriving DecidableEq, Repr

/-- The leaf that a page move works on (R290 12_translation.md): where it stands, and its words as they were before MG was set. -/
structure MovingLeaf where
  slot : Nat
  w0 : Dword
  w1 : Dword
deriving DecidableEq, Repr

/-- What an outstanding operation still does (R29 to R35 01_machine.md), with the operands it took at issue (R104). -/
inductive OpKind where
  /-- LD, LDNA, LDP, LDU: the accesses, the group epoch at issue, the uniform destination of an LDU. -/
  | load (accs : List Access) (epoch : Nat) (na : Bool) (uni : Option Nat)
  /-- ST, STP, STNA, XST: its writes are on their way. -/
  | store
  /-- Accesses at executors: ATOM, ATOMCAS, OBSERVE. -/
  | atom (reqs : List AtomReq)
  /-- SIGNAL: its accesses, its release, and its way: 0 waiting, 1 departed with V, 2 held at its executor (R268). -/
  | signal (reqs : List AtomReq) (edge way v : Nat)
  /-- AIMG: the images (R266). -/
  | aimg (reqs : List AimgReq)
  /-- XLD: one read for each member, with 4 x member + accumulator in `reg` (R349). -/
  | xld (accs : List Access) (epoch : Nat)
  /-- MONITOR on its way to the executor, with the unit (R270). -/
  | monitor (pa : Nat) (msa : Bool)
  /-- TLBINV: 0 all, 1 an ASID, 2 a page; its release; dies that have not dropped yet, and dies whose acknowledgement is on its
  way (R286). -/
  | tlbinv (mode asid va edge : Nat) (todo acks : List Nat)
  /-- QSYNC.wait for QC to reach n, with its destination (R288). -/
  | qsync (n : Nat) (dest : BitVec 9)
  /-- MIGR.move or .scrub: its operands, its status register, and once MG is set the leaf that it moves (R290, R291). -/
  | migr (move : Bool) (a b c : Nat) (dest : Option Nat) (leaf : Option MovingLeaf)
  /-- TCOPY, HCOPY, TILEDRN, TFILL. -/
  | copy (w : CopyWork)
  /-- The instructions of 16_matrix.md. -/
  | matrix (w : MxWork)
  | ccoll (w : CcollWork)
  /-- RCOPY, RSIGNAL, RATOM. -/
  | remote (w : RemoteWork)
deriving DecidableEq, Repr

/-- An outstanding operation. -/
structure Op where
  id : Nat
  grp : Nat
  sub : Nat
  /-- 0 LD, 1 ST, 2 CP, 3 MX, 4 none (R31). -/
  counter : Nat
  core : Nat
  asid : Nat
  /-- QI at translation (R287). -/
  stamp : Nat
  /-- Writes of the operation that are not visible yet. -/
  left : Nat
  /-- Bytes already taken, keyed 512 x position of the access + byte (R101, R105). -/
  taken : SMap Taken
  /-- Destination units already written, keyed 256 x register + thread (R105). -/
  given : List Nat
  kind : OpKind
  /-- Of an engine operation: the tiles it uses, the flags it raises for each thread, and the release before its accesses. -/
  ends : List TileUse := []
  raises : SMap (BitVec 5) := []
  edge : Nat := 0
deriving DecidableEq, Repr

/-- One entry of a tile table (R297 13_copy.md). -/
structure Tile where
  defined : Bool
  pm : Bool
  bs : Nat
  sz : Nat
  /-- 0 empty, 1 filling, 2 ready, 3 draining (R298). -/
  state : Nat
  pf : Nat
  rc : Nat
deriving DecidableEq, Repr

def Tile.undefined : Tile := ⟨false, false, 0, 0, 0, 0, 0⟩

/-- The matrix array of one core, as a block holds it (R353 to R355 16_matrix.md). -/
structure MxArray where
  /-- Tile words, keyed 32768 x tile + 512 x row + column. -/
  tiles : SMap Word
  /-- Mode codes and sticky status bits of the tiles. -/
  modes : SMap Nat
  tstat : SMap Nat
  /-- Form 0 to 3, kind, WB code of the panel. -/
  form : Nat
  float : Bool
  wb : Nat
  /-- Stored patterns, keyed 1024 x k + n; the K-blocks whose patterns are unsigned. -/
  weights : SMap Nat
  uns : List Nat
  /-- For each block-column 1024 x b + n: the BF16 scale of an integer panel, E of a float panel, the special marks. -/
  scales : SMap Nat
  exps : SMap Int
  special : List Nat
  /-- Sticky panel bits ALNX, BSPC, BRSV, BZ, from bit 0. -/
  pstat : Nat
  /-- Matrix instructions of the core since block start. -/
  seq : Nat
deriving DecidableEq, Repr

/-- The array as a block first takes it (R354). -/
def MxArray.empty : MxArray :=
  { tiles := [], modes := [], tstat := [], form := 0, float := false, wb := 0, weights := [], uns := [], scales := [], exps := [],
    special := [], pstat := 0, seq := 0 }

/-- Where a block stands (R422 to R426 19_dispatch.md). -/
inductive BlockPhase where
  | placed
  /-- Chosen for a save; REASON 0 pre-emption, 1 or 2 trap (R140, R141). -/
  | saving (reason : Nat)
  | saved
  | retired
  | released
deriving DecidableEq, Repr

structure Block where
  launch : Nat
  index : Nat
  /-- Device core numbers, ascending. -/
  cores : List Nat
  slot : Nat
  /-- Device time since which it is resident (R427). -/
  since : Nat
  phase : BlockPhase
  /-- Group numbers, in group order; a group that has finished keeps its number here. -/
  groups : List Nat
  /-- Tile tables, keyed 16 x (position of the core in cores) + k (R297). -/
  tiles : SMap Tile
  /-- Pool bytes, keyed 2^20 x (position of the core) + offset (R296). -/
  pool : SMap Byte
  /-- Matrix arrays, by position of the core. -/
  arrays : SMap MxArray
  /-- Keys of pool bytes that ECC could not correct (R40; log 52). -/
  struck : List Nat := []
deriving DecidableEq, Repr

/-- A slot of child threads on its way to a bin store, or in a bin (R323, R325 14_spawn.md). -/
structure SpawnSlot where
  id : Nat
  /-- The SPAWN it comes from. -/
  batch : Nat
  launch : Nat
  /-- The core whose bin store takes it. -/
  core : Nat
  entry : Nat
  /-- K: the members that have a child in it. -/
  k : BitVec 8
  bound : Nat × Nat
  /-- Frame block of each child, by member. -/
  frames : SMap Nat
  /-- The release of its SPAWN, as a name of State.edges. -/
  edge : Nat
  /-- The continuation reservation that its SPAWN made for the bin it would open. -/
  resv : Option Nat
  /-- The bin that it waits to see empty. -/
  waits : Option Nat
deriving DecidableEq, Repr

/-- A bin that is not empty (R325): its slots in order, when the first one entered, whether it is launching, and the group that it
has formed. -/
structure Bin where
  id : Nat
  core : Nat
  slots : List SpawnSlot
  since : Nat
  launching : Bool
  resv : Option Nat
  formed : Option Nat
deriving DecidableEq, Repr

/-- What becomes of a launch (R138, R415, R416, R427, R432, R433). -/
inductive LaunchPhase where
  | waiting
  | active
  /-- Its groups stop for a trap. -/
  | stopping
  /-- Reported as trapped; the host resumes or ends it. -/
  | trapped
  /-- Its groups stop before it is placed again (R433). -/
  | restarting
  /-- It ends with the status once its groups have stopped. -/
  | ending (status : Nat)
  /-- Its completion record has been written, and becomes visible at the device time; the signals follow. -/
  | reporting (status v : Nat)
  | complete
deriving DecidableEq, Repr

/-- One allocation of the frame area (R319 14_spawn.md): first block, blocks, the group it serves, and its use: 0 spawn frame,
1 await record, 2 continuation reservation, 3 call frame. -/
structure FrameUse where
  start : Nat
  len : Nat
  grp : Nat
  use : Nat
deriving DecidableEq, Repr

structure Launch where
  id : Nat
  queue : Nat
  /-- The 256 bytes copied at enqueue (R412, R413). -/
  record : List Byte
  /-- Memory, and the base of the address-space table, as they stood at enqueue, which fetch sees (R79; log 18). -/
  code : List Host.Cell
  codeAst : Dword
  priv : Bool
  /-- Compander registers (R186). -/
  cpnd : SMap Word
  /-- Team table bytes (R401). -/
  teams : List Byte
  /-- Enabled near dies at enqueue (R25). -/
  dies : List Nat
  phase : LaunchPhase
  rotor : Option Nat
  /-- Cluster of each cluster-unit (R422). -/
  clusters : SMap Nat
  /-- Blocks placed so far; the next first placement is of this index. -/
  nextBlock : Nat
  /-- Pre-emption asked for by the host or the controller (R427). -/
  preempt : Bool
  /-- Taken whole (R336): its spawned groups stop too, until everything of it is saved. -/
  whole : Bool
  restarts : Nat
  firstPlaced : Option Nat
  /-- Request counts, keyed 4 x die + c (R255, R416). -/
  counts : SMap Nat
  /-- The unit a LAUNCH named for the completion signal, as ASID and address (R334). -/
  signal : Option (Nat × Nat)
  /-- The trap that stopped it: CAUSE, block index, group index (R416). -/
  trapCause : Nat
  trapBlock : Nat
  trapGroup : Nat
  /-- Remote operations that failed, and the code of the first (R446). -/
  remoteErrors : Nat
  remoteCode : Nat
  /-- The allocations of the frame area, by rising first block (R319). -/
  frames : List FrameUse
  /-- The visibility time of the host's writes before its enqueue: its first block is placed past it (R96). -/
  after : Nat := 0
  /-- It has been reported as trapped (R446). -/
  trapped : Bool := false
deriving DecidableEq, Repr

/-- A hardware queue (R415, R417, R439). -/
structure Queue where
  pass : Nat
  /-- Did it contend at the last choice (R417)? -/
  contending : Bool
  launches : List Nat
  qrec : List Byte
  qstat : Word
  qmsi : Word
  /-- Resumptions refused and reported to the host (R142; log 27). -/
  refusals : Nat := 0
deriving DecidableEq, Repr

/-- A link, to a peer port or to the host (R435, R449 20_links.md): width 0 down, 1 quarter, 2 half, 3 full; the width it retrains to;
since when it has been down; the chip at its far end. -/
structure Port where
  width : Nat
  next : Option Nat
  since : Nat
  chip : Nat
  replays : Nat
  reductions : Nat
deriving DecidableEq, Repr

def Port.down : Port := ⟨0, none, 0, 0xFFF, 0, 0⟩

/-- An entry of the inbound window table (R437); length 0 admits nothing. -/
structure Window where
  chip : Nat
  base : Nat
  len : Nat
  w : Bool
  t : Bool
deriving DecidableEq, Repr

def Window.none : Window := ⟨0, 0, 0, false, false⟩

/-- A remote operation of a peer: its name, what it is to be answered, and how many of its writes are not visible yet; it is
acknowledged with none left (R446). -/
structure Inbound where
  id : Nat
  chip : Nat
  tag : Nat
  answer : PeerAnswer
  left : Nat
deriving DecidableEq, Repr

/-- An image of firmware and configuration (R451, R453 21_management.md): its bytes, none for the one that the module comes with, its
version, and what its configuration block says. -/
structure Image where
  bytes : List Byte
  version : Nat
  chip : Nat
  ig : Nat
  /-- Preference order of physical clusters, per near die. -/
  prefs : List (List Nat)
  /-- Channels out of service, by 64 x die + channel, and where each is mapped. -/
  off : List Nat
  chanMap : SMap Nat
  phase : Nat
  power : Nat
  clock : Nat
  windows : List Window
deriving DecidableEq, Repr

/-- An entry of EVRING (R461). -/
structure RingEvent where
  type : Nat
  die : Nat
  addr : Nat
  time : Nat
deriving DecidableEq, Repr

/-- The mailbox (R457, R458): the running command with its argument bytes, READY, result and count of commands; event ring. -/
structure Mailbox where
  running : Option Nat
  taken : List Byte
  ready : Bool
  result : Nat
  done : Nat
  arg : SMap Byte
  resp : SMap Byte
  head : Nat
  tail : Nat
  drop : Nat
  vec : Nat
  ring : SMap RingEvent
deriving DecidableEq, Repr

/-- A near die on its way out of service (R293 12_translation.md): the pool for its pages, and once they have been moved the count that
QC must reach. -/
structure Evacuation where
  die : Nat
  base : Nat
  len : Nat
  moved : Option Nat
  /-- The near dies of each launch when the request came. -/
  was : List (Nat × List Nat) := []
deriving DecidableEq, Repr

/-- Where bring-up stands (R454). -/
inductive Bringup where
  | waiting
  | done
  /-- Stopped at a step. -/
  | failed (step : Nat)
deriving DecidableEq, Repr

/-- Who moves next. -/
inductive Turn where
  | issue (r : SubRef)
  | event (i : Instr) (a : EventArg)
  | idle
deriving DecidableEq, Repr

/-- The machine. -/
structure State where
  /-- Memory by physical address (R276); an unlisted byte reads as zero (log 5). -/
  mem : List Host.Cell
  lineMarks : SMap LineMark
  l1 : List L1Line
  /-- Core epochs E (R249). -/
  epochs : SMap Nat
  guests : List Guest
  /-- Home directory: the dies of each 512-byte region (R253). -/
  dirs : SMap (List Nat)
  writes : List HomeWrite
  staged : List Staged
  edges : List Edge
  /-- Lines whose source home forwards to another line while a page moves (R290). -/
  forward : SMap Nat
  visible : List Visible
  probes : List Probe
  tlb : List TlbEntry
  ops : List Op
  groups : List Group
  blocks : List Block
  launches : List Launch
  /-- Slots on their way, and the bins of every core (R325). -/
  slots : List SpawnSlot
  bins : List Bin
  queues : SMap Queue
  gvt : Nat
  /-- Quiescence counter QI (R287). -/
  qi : Nat
  /-- The quarantine queue, oldest first: frame, size code, stamp (R288). -/
  quarantine : List (Nat × Nat × Nat)
  astbase : Dword
  hwbase : Dword
  hwlen : Dword
  /-- GiB of each near die's HBM in the interleaved window (R276). -/
  ig : Nat
  /-- Device cores in service (R13, R41). -/
  cores : List Nat
  /-- Die states 0 to 3 of PGQRY.units (R294), and whether dies are up at all. -/
  dieState : SMap Nat
  /-- Channels out of service, mapped out at bring-up or lost since, by 64 x die + channel (R41). -/
  mapped : List Nat
  lost : List Nat
  /-- Where the configuration image maps a channel that is out of service, by 64 x die + channel (R277). -/
  chanMap : SMap Nat
  /-- Matrix error logs by core (R370). -/
  mxerr : SMap Dword
  /-- PHASE of the refresh schedule, and the bank that is in its refresh window (R373). -/
  tarnPhase : Nat
  refresh : Option Nat
  /-- Weight stores, by 2^30 x die + TA, and their lines that fail their check value, by 2^24 x die + line (R371, R375),
  and those of them that have been reported (R461). -/
  tarn : SMap Byte
  tarnFailing : List Nat
  tarnReported : List Nat
  /-- Chip number, peer ports, host links, inbound windows and peers' operations (R434 to R437, R446). -/
  chip : Nat
  ports : List Port
  hosts : List Port
  windows : List Window
  inbound : List Inbound
  /-- What the last host read through CXL.mem returned: the bytes of the line, and whether they are marked with poison (R438). -/
  hostData : Option (List Byte × Bool)
  /-- The largest visibility time of a host write to device memory (R96, R107). -/
  hostHorizon : Nat
  /-- How often each MSI-X vector has been raised (R439, R457). -/
  msix : SMap Nat
  mailbox : Mailbox
  /-- The image in flash, and the one that runs (R451, R458). -/
  flash : Image
  image : Image
  bringup : Bringup
  offline : Option Evacuation
  /-- Arithmetic clock in MHz, and when the governor last measured (R455). -/
  clock : Nat
  sampled : Nat
  /-- Leaf index of the identity key in flash, and quotes of this session (R460). -/
  leaf : Nat
  quotes : Nat
  /-- Device time (R126). -/
  time : Nat
  /-- The model's own: who moves next, who issues, what the event concerns, and the events the world has sent. -/
  turn : Turn
  cur : SubRef
  arg : EventArg
  inputs : List (Instr × EventArg)
  /-- The model's own: what may move, with the stamp since which it could (log 1). -/
  since : List (Turn × Nat)
  /-- The model's own: the index of free values, and fresh names. -/
  stamp : Nat
  nextId : Nat
deriving DecidableEq, Repr

/-! ### Reset (R454; log 5 to 7, 16) -/

/-- The image that the module comes with: the spec gives a configuration block ranges and no values (log 6). -/
def Image.factory : Image :=
  { bytes := [], version := 0, chip := 0, ig := 0, prefs := List.replicate 4 (List.range 11), off := [],
    chanMap := (List.range 256).map fun k => (k, (k + 1) % 64), phase := 0, power := 2800, clock := 1750, windows := [] }

/-- Self-test and training that find nothing wrong, with no peer connected (log 16). -/
def SelfTest.clean : SelfTest :=
  { cores := List.range 176, channels := [], ports := [], chips := [], host := [3, 3], failed := none }

/-- The mailbox at power-on (R457). -/
def Mailbox.reset : Mailbox :=
  { running := none, taken := [], ready := false, result := 0, done := 0, arg := [], resp := [], head := 0, tail := 0, drop := 0,
    vec := 0, ring := [] }

/-- The machine at power-on, before step 1 of bring-up (R454). -/
def State.reset : State :=
  { mem := [], lineMarks := [], l1 := [], epochs := [], guests := [], dirs := [], writes := [], staged := [], edges := [], forward := [],
    visible := [], probes := [], tlb := [], ops := [], groups := [], blocks := [], launches := [], slots := [], bins := [], queues := [],
    gvt := 0, qi := 0, quarantine := [], astbase := 0, hwbase := 0, hwlen := 0, ig := 0, cores := [], dieState := [], mapped := [],
    lost := [], chanMap := [], mxerr := [], tarnPhase := 0, refresh := none, tarn := [], tarnFailing := [], tarnReported := [], chip := 0,
    ports := List.replicate 16 Port.down, hosts := List.replicate 2 Port.down, windows := List.replicate 16 Window.none, inbound := [],
    hostData := none, hostHorizon := 0, msix := [], mailbox := Mailbox.reset, flash := Image.factory, image := Image.factory, bringup := .waiting,
    offline := none, clock := 1750, sampled := 0, leaf := 0, quotes := 0, time := 0,
    turn := .event .powerOnBringup (.test SelfTest.clean), cur := { grp := 0, sub := 0 }, arg := .none, inputs := [], since := [], stamp := 0, nextId := 1 }

end Machine
end Sys2Proof
end

