-- ==== Sys2Proof/Machine/Address.lean ====
section
/-! DEFINITION. The physical address map and the marks of lines (R276, R277, R284, R290 12_translation.md, R41 01_machine.md), and the
reports of failing lines to the host (R39 01_machine.md, R461 21_management.md). -/

namespace Sys2Proof
namespace Machine

/-! ### The physical address map (R276, R277) -/

def gib : Nat := 2 ^ 30

/-- The die of a device core number (R13). -/
def dieOf (core : Nat) : Nat := core / 40
/-- The cluster of a device core number, numbered over the device. -/
def clusterOf (core : Nat) : Nat := core / 4

/-- GiB that a die's channels in service hold; a channel mapped out at bring-up takes its share: 2 GiB of HBM on a near die, 8 GiB of
LPDDR on a far one (R41; log 6). -/
def State.capacity (s : State) (d : Nat) : Nat :=
  (if d < 4 then 128 else 512) - (if d < 4 then 2 else 8) * (s.mapped.filter fun k => k / 64 == d).length

/-- The home of a physical byte: its die and, on a near die, its die-local offset (R277); none for an address that the map
reserves. -/
def State.home (s : State) (pa : Nat) : Option (Nat × Nat) :=
  let o := pa % 2 ^ 44
  match pa / 2 ^ 44 with
  | 0 => if o < 4 * s.ig * gib then
      some ((o / 2 ^ 12 % 4) ^^^ (o / 2 ^ 24 % 4) ^^^ (o / 2 ^ 36 % 4), o / 2 ^ 14 % 2 ^ 25 * 2 ^ 12 + o % 2 ^ 12)
    else none
  | 5 => if o < s.capacity 4 * gib then some (4, o) else none
  | 6 => if o < s.capacity 5 * gib then some (5, o) else none
  | 8 => if o < s.hwlen.toNat then some (4, o) else none
  | r => if 1 ≤ r ∧ r ≤ 4 ∧ s.ig * gib + o < s.capacity (r - 1) * gib then some (r - 1, s.ig * gib + o) else none

def State.homeDie (s : State) (pa : Nat) : Nat := match s.home pa with
  | some h => h.1
  | none => 4

/-- The L2 slice of a byte of a near die (R277). -/
def sliceOf (o : Nat) : Nat := (o / 2 ^ 6 % 64) ^^^ (o / 2 ^ 16 % 64)
/-- The channel that remains in place of channel `c`: the image's map is followed, at most `n` times, past channels that are out of
service themselves (R41, R277). -/
def State.remain (s : State) (d : Nat) : Nat → Nat → Nat
  | 0, c => c
  | n + 1, c => if s.mapped.contains (64 * d + c) then s.remain d n (s.chanMap.get 0 (64 * d + c)) else c
/-- The HBM channel of a byte of a near die (R277). -/
def State.channel (s : State) (d o : Nat) : Nat := s.remain d 64 (sliceOf o)

/-- State of a die as PGQRY.units codes it: 0 in service, 1 compute fenced, 2 evacuated, 3 lost (R294). -/
def State.dieCode (s : State) (d : Nat) : Nat := s.dieState.get 0 d

/-- A line of source frames that a migration has copied is served at its destination (R290). -/
def State.fwd (s : State) (line : Nat) : Nat := s.forward.get line line

/-- The mark of a line as a consumer finds it: DETAIL 3 for the home of a lost or evacuated base die, 4 for a lost channel, else
what the line itself carries (R284). -/
def State.markOf (s : State) (line : Nat) : LineMark :=
  let m := s.lineMarks.get LineMark.none line
  match s.home (64 * line) with
  | none => m
  | some (d, o) =>
    if 2 ≤ s.dieCode d then { m with poison := 3 }
    else if decide (d < 4) && s.lost.contains (64 * d + s.channel d o) then { m with poison := 4 }
    else m

/-! ### Reports to the host (R461 21_management.md) -/

/-- Raise an MSI-X vector. -/
def State.raiseMsix (s : State) (v : Nat) : State := { s with msix := s.msix.set 0 v (s.msix.get 0 v + 1) }

/-- An event enters EVRING, or is dropped where the ring is full. -/
def State.event (s : State) (type die addr : Nat) : State :=
  let b := s.mailbox
  if (b.head + 1) % 128 = b.tail then { s with mailbox := { b with drop := min (b.drop + 1) (2 ^ 32 - 1) } }
  else
    let s : State := { s with mailbox := { b with
      ring := b.ring.put b.head { type := type, die := die, addr := addr, time := s.time % 2 ^ 32 }
      head := (b.head + 1) % 128 } }
    if b.vec.testBit 8 then s.raiseMsix (b.vec % 64) else s

/-- A line is found failing: it is reported once (R39, R40 01_machine.md). -/
def State.foundFailing (s : State) (line : Nat) : State :=
  let m := s.lineMarks.get LineMark.none line
  if m.failing && !m.reported then
    { s with lineMarks := s.lineMarks.set LineMark.none line { m with reported := true } }.event (if m.ecc then 2 else 1) (s.homeDie (64 * line)) (64 * line)
  else s

end Machine
end Sys2Proof
end

