-- ==== Sys2Proof/Machine/Fp.lean ====
section
/-! DEFINITION. Number formats and the one rounding of the machine (R180 to R184, R189 to R196 07_formats.md), on exact
values: a finite value is a sign and a quotient of natural numbers. -/

namespace Sys2Proof
namespace Machine

/-! ### Flags, in the bit order of TE (R112, R113) -/

abbrev Flags := BitVec 5
def flagNV : Flags := 1
def flagDZ : Flags := 2
def flagOF : Flags := 4
def flagUF : Flags := 8
def flagNX : Flags := 16

/-! ### Formats (R180) -/

structure Fmt where
  /-- Fraction bits. -/
  t : Nat
  /-- Exponent bits. -/
  eb : Nat
  bias : Nat
  /-- No infinities, one NaN (R181). -/
  e4m3 : Bool
deriving DecidableEq, Repr

def fmtOf : DType → Fmt
  | .f64 => ⟨52, 11, 1023, false⟩
  | .f16 => ⟨10, 5, 15, false⟩
  | .bf16 => ⟨7, 8, 127, false⟩
  | .e5m2 => ⟨2, 5, 15, false⟩
  | .e4m3 => ⟨3, 4, 7, true⟩
  | _ => ⟨23, 8, 127, false⟩

/-- Bits of a value of the format. -/
def Fmt.width (f : Fmt) : Nat := 1 + f.eb + f.t
/-- The exponent of the smallest normal. -/
def Fmt.emin (f : Fmt) : Int := 1 - (f.bias : Int)
def Fmt.allOnes (f : Fmt) : Nat := 2 ^ f.eb - 1
/-- Bits of the canonical NaN (R182). -/
def Fmt.nan (f : Fmt) : Nat :=
  if f.e4m3 then 0x7F else f.allOnes * 2 ^ f.t + 2 ^ (f.t - 1)
def Fmt.signBit (f : Fmt) (neg : Bool) : Nat := if neg then 2 ^ (f.eb + f.t) else 0
/-- Bits of an infinity; in E4M3 the largest finite magnitude of the sign (R51, R189). -/
def Fmt.inf (f : Fmt) (neg : Bool) : Nat :=
  f.signBit neg + (if f.e4m3 then 0x7E else f.allOnes * 2 ^ f.t)
/-- Bits of the largest finite value of the sign. -/
def Fmt.largest (f : Fmt) (neg : Bool) : Nat :=
  f.signBit neg + (if f.e4m3 then 0x7E else f.allOnes * 2 ^ f.t - 1)

/-! ### Exact values -/

/-- An exact value: a NaN (signalling or not), an infinity, or sign and magnitude num / den; a zero keeps its sign. -/
inductive Ex where
  | nan (sig : Bool)
  | inf (neg : Bool)
  | rat (neg : Bool) (num den : Nat)
deriving DecidableEq, Repr

/-- 2^e as a quotient. -/
def pow2 (e : Int) : Nat × Nat :=
  if 0 ≤ e then (2 ^ e.toNat, 1) else (1, 2 ^ (-e).toNat)

/-- n x 2^e. -/
def Ex.dyadic (neg : Bool) (n : Nat) (e : Int) : Ex :=
  let p := pow2 e
  .rat neg (n * p.1) p.2

def Ex.ofInt (v : Int) : Ex := .rat (decide (v < 0)) v.natAbs 1

def Ex.isNan : Ex → Bool
  | .nan _ => true
  | _ => false
def Ex.isSig : Ex → Bool
  | .nan s => s
  | _ => false
def Ex.isInf : Ex → Bool
  | .inf _ => true
  | _ => false
def Ex.isZero : Ex → Bool
  | .rat _ n _ => n == 0
  | _ => false
def Ex.neg : Ex → Bool
  | .nan _ => false
  | .inf s => s
  | .rat s _ _ => s
def Ex.flip : Ex → Ex
  | .nan s => .nan s
  | .inf s => .inf (!s)
  | .rat s n d => .rat (!s) n d

/-- real(x) of an encoding (R181). -/
def unpack (f : Fmt) (v : Nat) : Ex :=
  let frac := v % 2 ^ f.t
  let e := v / 2 ^ f.t % 2 ^ f.eb
  let s := v / 2 ^ (f.eb + f.t) % 2 == 1
  if e = 0 then .dyadic s frac (f.emin - f.t)
  else if e = f.allOnes ∧ f.e4m3 = true ∧ frac = 2 ^ f.t - 1 then .nan false
  else if e = f.allOnes ∧ f.e4m3 = false then
    if frac = 0 then .inf s else .nan (frac / 2 ^ (f.t - 1) % 2 == 0)
  else .dyadic s (2 ^ f.t + frac) ((e : Int) - f.bias - f.t)

/-- Compare magnitudes a/b and c/d. -/
def ltMag (a b c d : Nat) : Bool := decide (a * d < c * b)
def leMag (a b c d : Nat) : Bool := decide (a * d ≤ c * b)

/-- The exponent of the leading bit of num / den, both above zero. -/
def leadExp (num den : Nat) : Int :=
  let g : Int := (Nat.log2 num : Int) - Nat.log2 den
  let p := pow2 g
  if ltMag num den p.1 p.2 then g - 1 else g

/-- num / den rounded to a multiple of 2^q in a mode: the multiple, and whether it differs from the value. -/
def roundGrid (neg : Bool) (num den : Nat) (q : Int) (mode : Rnd) : Nat × Bool :=
  let p := pow2 q
  let n := num * p.2
  let d := den * p.1
  let k := n / d
  let r := n % d
  let up : Bool := match mode with
    | .rne => decide (d < 2 * r) || (decide (2 * r = d) && k % 2 == 1)
    | .rna => decide (d ≤ 2 * r)
    | .rtz => false
    | .rup => !neg && decide (0 < r)
    | .rdn => neg && decide (0 < r)
  (if up then k + 1 else k, decide (0 < r))

/-- Bits of sign and magnitude k x 2^q, which the format represents. -/
def packMag (f : Fmt) (neg : Bool) (k : Nat) (q : Int) : Nat :=
  if k = 0 then f.signBit neg
  else
    let e := (Nat.log2 k : Int) + q
    if e < f.emin then f.signBit neg + (k * 2 ^ (q - (f.emin - f.t)).toNat)
    else
      let sh := (f.t : Int) - Nat.log2 k
      let m := if 0 ≤ sh then k * 2 ^ sh.toNat else k / 2 ^ (-sh).toNat
      f.signBit neg + (e + f.bias).toNat * 2 ^ f.t + (m - 2 ^ f.t)

/-- k x 2^q above the largest finite value of the format? -/
def aboveLargest (f : Fmt) (k : Nat) (q : Int) : Bool :=
  match unpack f (f.largest false) with
  | .rat _ n d => let p := pow2 q; ltMag n d (k * p.1) p.2
  | _ => false

/-- round(x, F, mode) (R189): the bits and the flags. `fzo` is FPCR.FZO. A NaN carries no flag here; the callers' rules
raise it. -/
def round (f : Fmt) (mode : Rnd) (fzo : Bool) : Ex → Nat × Flags
  | .nan _ => (f.nan, 0)
  | .inf s => (f.inf s, 0)
  | .rat s num den =>
    if num = 0 then (f.signBit s, 0)
    else
      let q := leadExp num den - f.t
      let (k, ix) := roundGrid s num den q mode
      if aboveLargest f k q then
        let big : Bool := match mode with
          | .rne | .rna => true
          | .rtz => false
          | .rup => !s
          | .rdn => s
        (if f.e4m3 || big then f.inf s else f.largest s, flagOF ||| flagNX)
      else
        let p := pow2 q
        let m := pow2 f.emin
        if ltMag (k * p.1) p.2 m.1 m.2 then
          let g := f.emin - f.t
          let (k2, ix2) := roundGrid s num den g mode
          if fzo && decide (0 < k2) && decide (k2 < 2 ^ f.t) then (f.signBit s, flagUF ||| flagNX)
          else (packMag f s k2 g, if ix2 then flagUF ||| flagNX else 0)
        else (packMag f s k q, if ix then flagNX else 0)

/-- nanres (R206): the canonical NaN; NV if an input is signalling or `extra` holds. -/
def nanres (f : Fmt) (inputs : List Ex) (extra : Bool) : Nat × Flags :=
  (f.nan, if inputs.any Ex.isSig || extra then flagNV else 0)

/-- A product of two values that are no NaN (R206); none for an infinity times a zero. -/
def mulEx (a b : Ex) : Option Ex :=
  match a, b with
  | .rat s n d, .rat t m e => some (.rat (s != t) (n * m) (d * e))
  | .inf s, .rat t m _ => if m = 0 then none else some (.inf (s != t))
  | .rat t m _, .inf s => if m = 0 then none else some (.inf (s != t))
  | .inf s, .inf t => some (.inf (s != t))
  | _, _ => none

/-- An infinity times a zero? -/
def infZero (a b : Ex) : Bool := (a.isInf && b.isZero) || (a.isZero && b.isInf)

/-- Signed sum of two finite values, as sign and quotient; a zero sum has sign plus. -/
def addRat (a b : Ex) : Ex :=
  match a, b with
  | .rat s n d, .rat t m e =>
    let x : Int := (if s then -(n * e : Int) else (n * e : Int)) + (if t then -(m * d : Int) else (m * d : Int))
    .rat (decide (x < 0)) x.natAbs (d * e)
  | _, _ => a

/-- fsum (R206) over values and exact products that are no NaN. -/
def fsum (terms : List Ex) (f : Fmt) (mode : Rnd) (fzo : Bool) : Nat × Flags :=
  let pos := terms.any fun x => x.isInf && !x.neg
  let ng := terms.any fun x => x.isInf && x.neg
  if pos && ng then (f.nan, flagNV)
  else if pos then (f.inf false, 0)
  else if ng then (f.inf true, 0)
  else match terms with
    | [x] => round f mode fzo x
    | _ =>
      match terms.foldl addRat (.rat false 0 1) with
      | .rat s n d =>
        if n = 0 then
          if terms.all fun x => x.neg then (f.signBit true, 0)
          else if mode = .rdn then (f.signBit true, 0)
          else (f.signBit false, 0)
        else round f mode fzo (.rat s n d)
      | _ => (f.nan, 0)

/-- Is a nonzero finite value, scaled by kn / kd, below the smallest normal of the format (R190)? -/
def subnormalIn (f : Fmt) (kn kd : Nat) : Ex → Bool
  | .rat _ n d => let m := pow2 f.emin; decide (n ≠ 0) && ltMag (n * kn) (d * kd) m.1 m.2
  | _ => false

/-- An input under FZI (R190): a value below the smallest normal of the reference format becomes zero of its sign. -/
def flushIn (fzi : Bool) (ref : Fmt) (x : Ex) : Ex :=
  if fzi && subnormalIn ref 1 1 x then .rat x.neg 0 1 else x

/-- Order of two values that are no NaN; zeros are equal. -/
def ltEx (a b : Ex) : Bool :=
  match a, b with
  | .inf s, .inf t => s && !t
  | .inf s, .rat _ _ _ => s
  | .rat _ _ _, .inf t => !t
  | .rat s n d, .rat t m e =>
    decide ((if s then -(n * e : Int) else (n * e : Int)) < (if t then -(m * d : Int) else (m * d : Int)))
  | _, _ => false

/-- Equality of two values that are no NaN; zeros are equal. -/
def eqEx (a b : Ex) : Bool := !ltEx a b && !ltEx b a && !a.isNan && !b.isNan

/-- Conversion to a floating-point format (R193). -/
def toFloat (f : Fmt) (mode : Rnd) (fzo : Bool) : Ex → Nat × Flags
  | .nan sig => (f.nan, if sig then flagNV else 0)
  | .inf s => (f.inf s, if f.e4m3 then flagNV else 0)
  | x => round f mode fzo x

/-- An exact finite value rounded to an integer in a mode, and whether it changed. -/
def roundInt (s : Bool) (n d : Nat) (mode : Rnd) : Int × Bool :=
  let (k, ix) := roundGrid s n d 0 mode
  (if s then -(k : Int) else (k : Int), ix)

/-- The range of an integer type (R163). -/
def minOf (t : DType) : Int := if t.signed then -(2 ^ (t.width - 1) : Int) else 0
def maxOf (t : DType) : Int := if t.signed then 2 ^ (t.width - 1) - 1 else 2 ^ t.width - 1
/-- clamp of R163. -/
def clampTo (t : DType) (v : Int) : Int := if v < minOf t then minOf t else if maxOf t < v then maxOf t else v

/-- Conversion to an integer type (R194). -/
def toInt (t : DType) (mode : Rnd) : Ex → Int × Flags
  | .nan _ => (0, flagNV)
  | .inf s => (if s then minOf t else maxOf t, flagNV)
  | .rat s n d =>
    let (v, ix) := roundInt s n d mode
    if v < minOf t then (minOf t, flagNV)
    else if maxOf t < v then (maxOf t, flagNV)
    else (v, if ix then flagNX else 0)

/-- Conversion to ternary (R195). -/
def toTernary (mode : Rnd) : Ex → Int × Flags
  | .nan _ => (0, flagNV)
  | .inf s => (if s then -1 else 1, flagNX)
  | .rat s n d =>
    let (v, _) := roundInt s n d mode
    let r : Int := if v < 0 then -1 else if 0 < v then 1 else 0
    (r, if (if r = 0 then decide (n = 0) else decide (n = d) && decide (s = decide (r < 0))) then 0 else flagNX)

/-! ### Roots of natural numbers -/

/-- The largest r of `i` more bits below `acc` with r^k at most n. -/
def rootBits (k n : Nat) : Nat → Nat → Nat
  | 0, acc => acc
  | i + 1, acc => if (acc + 2 ^ i) ^ k ≤ n then rootBits k n i (acc + 2 ^ i) else rootBits k n i acc

/-- floor of the k-th root of n. -/
def iroot (k n : Nat) : Nat := rootBits k n (Nat.log2 n / k + 1) 0

/-- The exact k-th root of num / den if it is a multiple of 2^-p; else a value strictly between the two such multiples around
it, which every rounding to a coarser grid treats as it treats the root. -/
def rootEx (k num den p : Nat) : Ex :=
  let m := iroot k (num * 2 ^ (k * p) / den)
  if m ^ k * den = num * 2 ^ (k * p) then .rat false m (2 ^ p) else .rat false (2 * m + 1) (2 ^ (p + 1))

end Machine
end Sys2Proof
end

