-- ==== Sys2Proof/Machine/Ops.lean ====
section
/-! DEFINITION. The named operations over groups, registers and launches that every meaning shares: finding them, masks and
guards, taking a trap (R133 to R138 04_sequencer.md), and issuing one instruction. -/

namespace Sys2Proof
namespace Machine

abbrev Out := Host.Outcome State Fault Refusal

/-- Memory in its canonical form: addresses strictly rising, no zero byte listed (an unlisted byte reads as zero, log 5). -/
def Memory.wf (m : List Host.Cell) : Bool := SMap.wf 0 m

/-! ### Finding and changing -/

def State.group? (s : State) (id : Nat) : Option Group := s.groups.find? fun g => g.id == id
def State.launch? (s : State) (id : Nat) : Option Launch := s.launches.find? fun l => l.id == id
def State.op? (s : State) (id : Nat) : Option Op := s.ops.find? fun o => o.id == id
def State.block? (s : State) (launch index : Nat) : Option Block :=
  s.blocks.find? fun b => b.launch == launch && b.index == index
/-- Is the group in a slot of its core? -/
def Group.resident (g : Group) : Bool := decide (g.place = .slot)
def Group.sub? (g : Group) (n : Nat) : Option SubGroup := g.subs.find? fun u => u.num == n

def State.modGroup (s : State) (id : Nat) (f : Group → Group) : State :=
  { s with groups := s.groups.map fun g => if g.id = id then f g else g }
def Group.modSub (g : Group) (n : Nat) (f : SubGroup → SubGroup) : Group :=
  { g with subs := g.subs.map fun u => if u.num = n then f u else u }
def State.modSub (s : State) (r : SubRef) (f : SubGroup → SubGroup) : State :=
  s.modGroup r.grp fun g => g.modSub r.sub f
def State.modLaunch (s : State) (id : Nat) (f : Launch → Launch) : State :=
  { s with launches := s.launches.map fun l => if l.id = id then f l else l }
def State.modBlock (s : State) (launch index : Nat) (f : Block → Block) : State :=
  { s with blocks := s.blocks.map fun b => if b.launch = launch ∧ b.index = index then f b else b }
def State.modOp (s : State) (id : Nat) (f : Op → Op) : State :=
  { s with ops := s.ops.map fun o => if o.id = id then f o else o }
def State.dropOp (s : State) (id : Nat) : State := { s with ops := s.ops.filter fun o => o.id ≠ id }
/-- A fresh name. -/
def State.fresh (s : State) : Nat × State := (s.nextId, { s with nextId := s.nextId + 1 })
/-- The next use of free values. -/
def State.tick (s : State) : State := { s with stamp := s.stamp + 1 }

/-! ### Fields of the launch record (R412 19_dispatch.md) -/

def Launch.entry (l : Launch) : Nat := leAt l.record 0x00 8
def Launch.asid (l : Launch) : Nat := leAt l.record 0x08 2
def Launch.word (l : Launch) (off : Nat) : Nat := leAt l.record off 4
def Launch.tickets (l : Launch) : Nat := l.word 0x0C % 2 ^ 13
/-- 0 WP, 1 PAR, 2 CONC. -/
def Launch.cls (l : Launch) : Nat := l.word 0x0C / 2 ^ 13 % 4
def Launch.conc (l : Launch) : Bool := l.cls == 2
def Launch.rc (l : Launch) : Bool := (l.word 0x0C).testBit 15
def Launch.ord (l : Launch) : Bool := (l.word 0x0C).testBit 16
def Launch.wl (l : Launch) : Bool := (l.word 0x0C).testBit 17
def Launch.urg (l : Launch) : Bool := (l.word 0x0C).testBit 18
def Launch.mxu (l : Launch) : Bool := (l.word 0x0C).testBit 19
def Launch.nlev (l : Launch) : Nat := l.word 0x30 % 16
def Launch.m (l : Launch) : Nat := l.word 0x30 / 2 ^ 4 % 16
def Launch.vregs (l : Launch) : Nat := l.word 0x30 / 2 ^ 8 % 256
def Launch.uregs (l : Launch) : Nat := l.word 0x30 / 2 ^ 16 % 256
def Launch.acc (l : Launch) : Nat := l.word 0x30 / 2 ^ 24 % 8
/-- Extent of level i, 1 where the launch does not declare it (R127 04_sequencer.md). -/
def Launch.extent (l : Launch) (i : Nat) : Nat := if i < l.nlev then l.word (0x10 + 4 * i) % 2 ^ 24 + 1 else 1
/-- Domain of level i: 0 group, 1 block, 2 cluster, 3 die, 4 device. -/
def Launch.domain (l : Launch) (i : Nat) : Option Nat :=
  if i < l.nlev then some (l.word (0x10 + 4 * i) / 2 ^ 24 % 8) else none
def Launch.pool (l : Launch) : Nat := l.word 0x34
def Launch.fpcr (l : Launch) : Nat := l.word 0x38 % 2 ^ 10
def Launch.bint (l : Launch) : Nat := let b := leAt l.record 0x3A 2; if b = 0 then 256 else b
def Launch.firstc (l : Launch) : Nat := leAt l.record 0x3C 1
def Launch.ncore (l : Launch) : Nat := leAt l.record 0x3D 1
def Launch.argp (l : Launch) : Nat := leAt l.record 0x40 8
def Launch.frameBase (l : Launch) : Nat := leAt l.record 0x48 8
def Launch.frameSize (l : Launch) : Nat := leAt l.record 0x50 8
def Launch.cpndAt (l : Launch) : Nat := leAt l.record 0x58 8
def Launch.teamAt (l : Launch) : Nat := leAt l.record 0x60 8
def Launch.nteam (l : Launch) : Nat := leAt l.record 0x68 1
def Launch.saveAt (l : Launch) : Nat := leAt l.record 0x70 8
def Launch.saveSize (l : Launch) : Nat := leAt l.record 0x78 8
def Launch.complAt (l : Launch) : Nat := leAt l.record 0x80 8
def Launch.csigAt (l : Launch) : Nat := leAt l.record 0x88 8
/-- Product of the extents of the levels bound to a domain (R23 01_machine.md). -/
def Launch.prod (l : Launch) (dom : Nat) : Nat :=
  ((List.range l.nlev).filter fun i => l.domain i == some dom).foldl (fun a i => a * l.extent i) 1
/-- G, groups per block (R21, R23). -/
def Launch.groupsPerBlock (l : Launch) : Nat := l.prod 1
/-- Blocks of the launch (R23): the block domain's extents, which make up G, do not count (log 62). -/
def Launch.nblocks (l : Launch) : Nat := l.prod 2 * l.prod 3 * l.prod 4

def Group.exmOf (g : Group) (m : Nat) : Word := g.exm.get 0 m
def Group.liveOf (g : Group) (m : Nat) : Word := g.live.get 0 m
/-- Has a sub-group a live thread? -/
def Group.subLive (g : Group) (u : SubGroup) : Bool :=
  (List.range g.m).any fun m => u.members.getLsbD m && decide (g.liveOf m ≠ 0)
/-- A group has finished: every thread has exited and its counters are zero (R328 14_spawn.md, R423). -/
def Group.finished (g : Group) : Bool :=
  (g.subs.all fun u => !g.subLive u) && g.ld == 0 && g.st == 0 && g.cp == 0 && g.mx == 0

/-! ### Who issues -/

/-- The issuing sub-group with its group and its launch. -/
structure Cx where
  g : Group
  u : SubGroup
  l : Launch
  r : SubRef
  stamp : Nat
deriving DecidableEq, Repr

/-- Does a group belong to the same unit of a domain as group `a` (R95, R128)? -/
def Launch.sameUnit (l : Launch) (dom : Nat) (a b : Group) : Bool :=
  a.launch == b.launch && !b.spawned && match dom with
    | 1 => a.block == b.block
    | 2 => a.block / l.prod 2 == b.block / l.prod 2
    | 3 => a.block / (l.prod 2 * l.prod 3) == b.block / (l.prod 2 * l.prod 3)
    | _ => true

/-- A CCOLL that another participant has issued holds off the pre-emption of a group that has still to issue its own (R410
18_collective.md). -/
def State.ccollOwed (s : State) (l : Launch) (g : Group) : Bool :=
  s.ops.any fun o => match o.kind, s.group? o.grp with
    | .ccoll w, some h => w.result.isNone && !w.dead && decide (w.dom ≠ 0) && l.sameUnit w.dom h g && decide (g.ccolls.get 0 w.key < w.kth)
    | _, _ => false

/-- A trap that stops the launch, a pre-emption, a restart or an end holds a group at its run boundary (R138, R140, R433). -/
def State.mustStop (s : State) (g : Group) : Bool :=
  (match s.launch? g.launch with
    | some l => match l.phase with
      | .stopping | .restarting | .ending _ => true
      | _ => g.spawned && (l.preempt || l.whole)
    | none => false) ||
  (match s.block? g.launch g.block with
    | some b => match b.phase with
      | .saving _ => (match s.launch? g.launch with
        | some l => !(decide (l.phase = .active) && s.ccollOwed l g)
        | none => true)
      | _ => false
    | none => false)

/-- May the sub-group issue (R33, R131)? -/
def State.canIssue (s : State) (g : Group) (u : SubGroup) : Bool :=
  g.resident && decide (u.phase = .running) && !(s.mustStop g && u.ndone == 0 && !u.passed) &&
    -- a counter at 63 holds every instruction of the group (R33), and so does an MHIST (R397 18_collective.md)
    !(g.subs.any fun o => match o.phase with
      | .counterStall _ => true
      | .engine k => (match s.op? k with
        | some p => (match p.kind with | .atom _ => true | _ => false)
        | none => false)
      | _ => false)

/-- The issuer that State.cur names, if it may issue. -/
def State.issuer (s : State) : Option Cx :=
  match s.group? s.cur.grp with
  | none => none
  | some g => match g.sub? s.cur.sub with
    | none => none
    | some u => match s.launch? g.launch with
      | none => none
      | some l => if s.canIssue g u then some { g := g, u := u, l := l, r := s.cur, stamp := s.stamp } else none

/-! ### Masks, predicates and guards (R7, R20, R54) -/

/-- Predicate k of member m; p0 reads all ones (R27). -/
def Group.predOf (g : Group) (m k : Nat) : Word := if k = 0 then 0xFFFFFFFF else g.preds.get 0 (16 * m + k)
def Group.predBit (g : Group) (t k : Nat) : Bool := (g.predOf (t / 32) k).getLsbD (t % 32)
/-- The members a sub-group holds, below M. -/
def Cx.members (c : Cx) : List Nat := (List.range c.g.m).filter fun m => c.u.members.getLsbD m
/-- Members with MMK set. -/
def Cx.masked (c : Cx) : List Nat := c.members.filter fun m => c.u.mmk.getLsbD m
/-- Is thread t active under guard p (R7)? -/
def Cx.active (c : Cx) (p : BitVec 4) (t : Nat) : Bool :=
  c.u.members.getLsbD (t / 32) && decide (t / 32 < c.g.m) && c.u.mmk.getLsbD (t / 32) &&
    (c.g.exmOf (t / 32)).getLsbD (t % 32) && (c.g.predBit t (guardPred p) != guardNot p)
/-- The active threads, ascending. -/
def Cx.threads (c : Cx) (p : BitVec 4) : List Nat := (List.range (32 * c.g.m)).filter (c.active p)
/-- Threads of the sub-group with MMK and EXM set, which the flags of a uniform instruction reach (R197). -/
def Cx.unguarded (c : Cx) : List Nat := c.threads 0
/-- Live threads of the sub-group. -/
def Cx.liveThreads (c : Cx) : List Nat :=
  (List.range (32 * c.g.m)).filter fun t => c.u.members.getLsbD (t / 32) && (c.g.liveOf (t / 32)).getLsbD (t % 32)

/-- Tile width (R20, R114). -/
def Cx.width (c : Cx) : Nat := 2 * 2 ^ c.u.lpr.toNat

/-! ### FPCR (R112) -/

def Cx.te (c : Cx) : Flags := BitVec.ofNat 5 (bits c.u.fpcr 4 0)
def Cx.fzi (c : Cx) : Bool := c.u.fpcr.getLsbD 8
def Cx.fzo (c : Cx) : Bool := c.u.fpcr.getLsbD 9
/-- The mode that a RND field selects (R55). -/
def Cx.mode (c : Cx) (rnd : Nat) : Rnd := if rnd = 5 then Rnd.ofCode (bits c.u.fpcr 7 5) else Rnd.ofCode rnd

/-! ### Traps (R133 to R138) -/

/-- What a trap records: CAUSE, DETAIL, CODE, TRAPADDR, the marked threads, the flags raised, and the lowest thread it
concerns (R284 ranks by it). -/
structure TrapReq where
  cause : Nat
  detail : Nat := 0
  code : Nat := 0
  addr : Nat := 0
  msk : List Nat := []
  raised : SMap Flags := []
  thread : Nat := 0
deriving DecidableEq, Repr

/-- Priority of a cause (R134). -/
def priority (cause : Nat) : Nat :=
  match cause with
  | 0x03 => 1 | 0x01 => 2 | 0x04 => 3 | 0x02 => 4 | 0x09 => 4 | 0x0C => 5 | 0x08 => 5
  | 0x05 => 6 | 0x06 => 6 | 0x07 => 6 | 0x0A => 8 | 0x0B => 8 | _ => 7

/-- TRAPMSK word j (R135). -/
def maskWord (msk : List Nat) (j : Nat) : Dword :=
  BitVec.ofNat 64 (ofBits ((msk.filter fun t => t / 64 == j).map fun t => t % 64))

/-- TRAPINFO (R135). -/
def trapInfo (t : TrapReq) (sub runpos : Nat) (resume : Bool) : Dword :=
  BitVec.ofNat 64 (t.cause + t.detail * 2 ^ 8 + runpos * 2 ^ 16 + (if resume then 2 ^ 21 else 0) + sub * 2 ^ 24 + t.code * 2 ^ 32)

/-- The seven registers a trap replaces (R135). -/
def trapRegs (t : TrapReq) (sub runpos : Nat) (resume : Bool) (pc : Dword) : TrapRegs :=
  { info := trapInfo t sub runpos resume, pc := pc, addr := BitVec.ofNat 64 t.addr,
    msk0 := maskWord t.msk 0, msk1 := maskWord t.msk 1, msk2 := maskWord t.msk 2, msk3 := maskWord t.msk 3 }

/-- A trap stops its launch (R138); the first one is what the completion record reports (R416). -/
def State.stopLaunch (s : State) (launch cause block index : Nat) : State :=
  s.modLaunch launch fun l =>
    match l.phase with
    | .active => { l with phase := .stopping, trapCause := cause, trapBlock := block, trapGroup := index }
    | _ => l

/-- Take a trap of sub-group `r` of group `g` at the instruction at `pc`, position `runpos` of its run: the one description of
R133 to R138. With `resume` the resume point is the next instruction, where the sub-group's pc already stands. -/
def State.takeTrap (s : State) (g : Group) (r : SubRef) (t : TrapReq) (pc : Dword) (runpos : Nat) (resume : Bool) : State :=
  (s.modGroup r.grp fun g' =>
    { g' with trap := trapRegs t r.sub runpos resume pc, trapFlags := t.raised }.modSub r.sub fun u =>
      { u with phase := .trapped }).stopLaunch g.launch t.cause (if g.spawned then 0 else g.block) g.index

/-! ### Issuing one instruction -/

/-- How an instruction ends. -/
inductive Res where
  /-- An interlock holds it: nothing changes (R131). -/
  | hold
  /-- It waits in the phase, before issue (R33, R298, R323) or until the engine is done with it (R74); what it has done so far. -/
  | stall (s : State) (p : Phase)
  /-- Its effect. -/
  | done (s : State)
  /-- Its effect, and a trap after it (R133). -/
  | after (s : State) (t : TrapReq)
  /-- A fault: no effect (R133). -/
  | fault (t : TrapReq)
deriving DecidableEq, Repr

/-- The DETAIL that an encoding with these failing rows of R78 reports: the row, or one of several (log 8). -/
def pickDetail (stamp : Nat) : List Nat → Nat
  | [] => 0
  | [d] => d
  | d :: rest => (d :: rest).getD (Config.whichDetail stamp % (rest.length + 1)) d

/-- The illegal-instruction trap (R78); it marks no thread (R135). -/
def illegal (stamp : Nat) (fails : List Nat) : TrapReq := { cause := 0x01, detail := pickDetail stamp fails }

/-- A fault of the issuing instruction. -/
def State.faultAt (s : State) (c : Cx) (t : TrapReq) : State := s.takeTrap c.g c.r t c.u.pc c.u.ndone false

/-- A wait inside a run ends: the next instruction follows the one of `words` words that waited (R61, R68). -/
def State.advance (s : State) (r : SubRef) (words : Nat) : State :=
  s.modSub r fun u => { u with pc := u.pc + BitVec.ofNat 64 (4 * words), ndone := u.ndone + 1, yielded := false }
/-- An instruction of `words` words has issued: the next one of the run follows it (R61, R68, R132). -/
def State.retire (s : State) (r : SubRef) (words : Nat) : State :=
  s.modSub r fun u => { u with pc := u.pc + BitVec.ofNat 64 (4 * words), ndone := u.ndone + 1, yielded := false, issued := s.stamp }
/-- Has an instruction that waits in this phase issued? -/
def Phase.issues : Phase → Bool
  | .waitc _ _ _ _ | .engine _ => true
  | _ => false

/-- Of a fault of the instruction and a marked unit that it reads, the one taken first (R134, R245, R284). -/
def firstFault (t : TrapReq) : Option TrapReq → TrapReq
  | none => t
  | some m => if priority t.cause < 6 then t else if priority t.cause = 6 && decide (t.thread < m.thread) then t else m

/-- An instruction's fault by a failing line of a page table: the line is found failing (R39 01_machine.md). -/
def State.noteFault (s : State) (t : TrapReq) : State := if t.cause = 0x07 then s.foundFailing (t.addr / 64) else s

/-- The end of an instruction of `words` words whose operands met `mark`. -/
def finish (s : State) (c : Cx) (words : Nat) (mark : Option TrapReq) : Res → State
  | .hold => s
  | .stall s' p => match mark, p with
    | some m, .engine _ => s.faultAt c m
    | _, _ => s'.modSub c.r fun u => { u with phase := p, issued := if p.issues then s'.stamp else u.issued }
  -- cause 0: a walk waits for a path to its table (R449 20_links.md)
  | .fault t => if t.cause = 0 then s else (s.noteFault t).faultAt c (firstFault t mark)
  | .done s' => match mark with
    | some m => s.faultAt c m
    | none => s'.retire c.r words
  | .after s' t => match mark with
    | some m => s.faultAt c m
    | none => (s'.retire c.r words).takeTrap c.g c.r t c.u.pc c.u.ndone true

/-- Issue: the issuer, the encoding's checks (before any effect, R78), then the effect. -/
def State.issue (s : State) (words : Nat) (fails : Cx → List Nat) (mark : Cx → Option TrapReq)
    (eff : Cx → State → Res) : Out :=
  match s.issuer with
  | none => .refused .noIssuer
  | some c =>
    match fails c with
    | [] => .next (finish s.tick c words (mark c) (eff c s.tick))
    | d :: ds => .next (s.tick.faultAt c (illegal s.stamp (d :: ds)))

end Machine
end Sys2Proof
end

