-- ==== Sys2Proof/Machine/Checks.lean ====
section
/-! DEFINITION. The encodings that are not instructions (R78 02_encoding.md, with the DETAIL of R136 04_sequencer.md): what an
entry's encoding admits (Form), what fails in an encoding by itself, and what fails against the launch and the run. -/

namespace Sys2Proof
namespace Machine

/-- The kinds of operand a source field admits. -/
structure Kinds where
  vec : Bool
  uni : Bool
  win : Bool
  const : Bool
  ids : Bool
  lit : Bool
deriving DecidableEq, Repr

/-- Any source code of R50. -/
def anySrc : Kinds := ⟨true, true, true, true, true, true⟩
/-- A uniform register or an inline constant. -/
def uniConst : Kinds := ⟨false, true, false, true, false, false⟩
/-- The base of a memory operand (R233): vector, uniform or window. -/
def baseSrc : Kinds := ⟨true, true, true, false, false, false⟩
/-- Any source code but the literal. -/
def notLit : Kinds := ⟨true, true, true, true, true, false⟩

/-- A source field that the instruction reads: pairs are `wide`; `mods` admits a routing modifier. -/
structure SrcUse where
  slot : Slot
  wide : Bool
  kinds : Kinds := anySrc
  mods : Bool := true
deriving DecidableEq, Repr

/-- The D field. -/
inductive DestUse where
  /-- Bits of D that the entry assigns to fields of its own; the others are reserved. -/
  | own (mask : Nat)
  /-- A result: a pair if `wide`; vector, uniform and 0x1FF codes as admitted. -/
  | reg (wide vec uni nil : Bool)
  /-- A data source of `regs` registers (R234), aligned to their number; also a 64-bit or 32-bit window code if `win`. -/
  | data (regs : Nat) (uni win : Bool)
  /-- A load destination of `regs` registers (R234). -/
  | load (regs : Nat) (uni : Bool)
deriving DecidableEq, Repr

/-- How the RND field stands (R55, R78): required zero, free, or not a field of the layout. -/
inductive RndUse where
  | zero | any | absent
deriving DecidableEq, Repr

/-- What an entry's encoding admits. -/
structure Form where
  ext : Bool := true
  literal : Bool := false
  dest : DestUse := .own 0
  srcs : List SrcUse := []
  /-- Bits of A, B and C fields, SUB and word 2 that the entry assigns to fields of its own. -/
  ownA : Nat := 0
  own1 : Nat := 0
  own2 : Nat := 0
  rnd : RndUse := .zero
  /-- Types accepted in SUB[4:0], and in SUB[9:5]. -/
  ty : Option (List DType) := none
  ty2 : Option (List DType) := none
  neg : Bool := false
  /-- The row that NEG or ABS fails where it is not accepted: 3 where the layout has no such bits (R259). -/
  negRow : Nat := 11
  guard : Bool := true
  /-- The entry uses the literal whatever its source fields name (R176). -/
  litUsed : Bool := false
  /-- DETAILs of the entry's own rules that the encoding breaks. -/
  own : List Nat := []
deriving DecidableEq, Repr

/-- `d` where the condition holds. -/
def failIf (b : Bool) (d : Nat) : List Nat := if b then [d] else []

def DestUse.isUni (d : DestUse) (code : BitVec 9) : Bool :=
  match d, operandOf code with
  | .reg _ _ uni _, .ureg _ => uni
  | .load _ uni, .ureg _ => uni
  | _, _ => false

/-- Source field checks that need the encoding alone. -/
def srcFails (x : Ext) (uni : Bool) (u : SrcUse) : List Nat :=
  let code := x.code u.slot
  match operandOf code with
  | .reserved => [8]
  | .vreg n => failIf (!u.kinds.vec || uni || (u.wide && n % 2 == 1)) 8
  | .ureg n => failIf (!u.kinds.uni || (u.wide && n % 2 == 1)) 8
  | .win _ => failIf (!u.kinds.win) 8
  | .const _ => failIf (!u.kinds.const) 8
  | .lane | .member => failIf (!u.kinds.ids || uni) 8
  | .lit => failIf (!u.kinds.lit || x.lit.isNone) 8 ++
      failIf (!u.wide && (match x.lit with | some v => decide (2 ^ 32 ≤ v.toNat) | none => false)) 12

/-- Routing modifier checks that need the encoding alone (R58). -/
def modFails (x : Ext) (uni : Bool) (u : SrcUse) : List Nat :=
  let m := x.modOf u.slot
  let k := modKind m
  let p := modParam m
  let routable := match operandOf (x.code u.slot) with
    | .vreg _ | .win _ => true
    | _ => false
  if u.mods then
    failIf (decide (m ≠ 0) && (!routable || uni)) 10 ++
    failIf (k == 7 || (k == 0 && decide (m ≠ 0)) || ((k == 2 || k == 3) && decide (32 ≤ p)) || (k == 5 && decide (8 ≤ p))) 10
  else []

def slotMask1 : Slot → Nat
  | .A => 0
  | .B => 0xFF800000
  | .C => 0x007FC000

def slotMask2 : Slot → Nat
  | .A => 0xFFC00000
  | .B => 0x003FF000
  | .C => 0x00000FFC

def orAll (l : List Nat) : Nat := l.foldl (fun a b => a ||| b) 0

/-- Bits of `v` outside `mask`? -/
def outside (v mask : Nat) : Bool := decide (v ||| mask ≠ mask)

/-- The rows of R78 that fail in the encoding itself. -/
def formFails (x : Ext) (f : Form) : List Nat :=
  let uni := f.dest.isUni x.d
  let reads := fun s => f.srcs.any fun u => u.slot == s
  let mask1 := f.own1 ||| orAll (f.srcs.map fun u => slotMask1 u.slot) |||
    (if f.rnd = .absent then 0 else 0x3800) ||| (if f.ty.isSome then 0x1F else 0) ||| (if f.ty2.isSome then 0x3E0 else 0)
  let mods := f.srcs.filter fun u => u.mods
  -- NEG and ABS have a row of their own; modifiers of unread fields fail as reserved bits and as modifiers
  let mask2 := f.own2 ||| orAll (mods.map fun u => slotMask2 u.slot)
  let unreadMods := outside (x.w2.toNat / 4 * 4) (mask2 ||| 3)
  let litUnused := match x.lit with
    | some v => decide (v ≠ 0) && !f.litUsed && !(f.srcs.any fun u => decide (operandOf (x.code u.slot) = .lit))
    | none => false
  -- LEN
  failIf (match x.lit with | some _ => !f.literal | none => !f.ext) 2 ++
  -- reserved bits
  failIf (match f.dest with | .own m => outside x.d.toNat m | _ => false) 3 ++
  failIf (!reads .A && outside x.a.toNat f.ownA) 3 ++
  failIf (outside x.w1.toNat mask1) 3 ++
  failIf unreadMods 3 ++
  failIf litUnused 3 ++
  failIf (!f.guard && decide (x.p ≠ 0) && !uni) 3 ++
  -- SUB: bits the entry does not assign, types
  failIf (decide (f.rnd ≠ .absent) && outside (x.w1.toNat % 2 ^ 11) mask1) 4 ++
  failIf (match f.ty with
    | some l => (match DType.ofCode x.tcode with | some t => !l.contains t | none => true)
    | none => false) 4 ++
  failIf (match f.ty2 with
    | some l => (match DType.ofCode x.tcode2 with | some t => !l.contains t | none => true)
    | none => false) 4 ++
  -- RND
  failIf (match f.rnd with
    | .zero => decide (x.rnd ≠ 0)
    | .any => decide (6 ≤ x.rnd)
    | .absent => false) 5 ++
  -- P
  failIf (x.p == 8 || (uni && decide (x.p ≠ 0))) 6 ++
  -- D
  (match f.dest with
    | .own m => failIf (x.d == 0x1FF && outside x.d.toNat m) 7
    | .reg wide vec uniOk nil => (match operandOf x.d with
      | .vreg n => failIf (!vec || (wide && n % 2 == 1)) 7
      | .ureg n => failIf (!uniOk || (wide && n % 2 == 1)) 7
      | .lit => failIf (!nil) 7
      | _ => [7])
    | .data regs uniOk win => (match operandOf x.d with
      | .vreg n => failIf (n % regs != 0 || decide (240 < n + regs)) 7
      | .ureg n => failIf (!uniOk || n % regs != 0 || decide (160 < n + regs)) 7
      | .win _ => failIf (!win || decide (2 < regs)) 7
      | _ => [7])
    | .load regs uniOk => (match operandOf x.d with
      | .vreg n => failIf (n % regs != 0 || decide (240 < n + regs)) 7
      | .ureg n => failIf (!uniOk || n % regs != 0 || decide (160 < n + regs)) 7
      | _ => [7])) ++
  -- A, B, C, literals
  f.srcs.flatMap (srcFails x uni) ++
  -- routing modifiers
  f.srcs.flatMap (modFails x uni) ++ failIf unreadMods 10 ++
  -- NEG and ABS
  failIf ((x.neg || x.abs) && !f.neg) f.negRow ++
  failIf litUnused 12 ++
  f.own

/-- Source checks against the launch and the run (R462, R64, R53). -/
def srcDyn (c : Cx) (uni : Bool) (code : BitVec 9) (wide : Bool) : List Nat :=
  match operandOf code with
  | .vreg n => failIf (decide (c.l.vregs < n + (if wide then 2 else 1))) 8
  | .ureg n => failIf (decide (c.l.uregs < n + (if wide then 2 else 1))) 8
  | .win k => (match c.u.window[k]? with
    | none => [9]
    | some e => failIf (wide && !e.wide) 9 ++ failIf (uni && !e.uni) 8)
  | _ => []

/-- Routing modifier checks against the launch (R58, R147, R462). -/
def modDyn (c : Cx) (m : Nat) : List Nat :=
  failIf ((modKind m == 5 && decide (c.l.m ≤ modParam m)) || (modKind m == 4 && decide (c.l.vregs ≤ modParam m))) 10

/-- The rows of R78 that fail against the launch and the run. -/
def dynFails (c : Cx) (x : Ext) (f : Form) : List Nat :=
  let uni := f.dest.isUni x.d
  (match f.dest, operandOf x.d with
    | .reg wide _ _ _, .vreg n => failIf (decide (c.l.vregs < n + (if wide then 2 else 1))) 7
    | .reg wide _ _ _, .ureg n => failIf (decide (c.l.uregs < n + (if wide then 2 else 1))) 7
    | .load regs _, .vreg n => failIf (decide (c.l.vregs < n + regs)) 7
    | .load regs _, .ureg n => failIf (decide (c.l.uregs < n + regs)) 7
    | .data regs _ _, .vreg n => failIf (decide (c.l.vregs < n + regs)) 8
    | .data regs _ _, .ureg n => failIf (decide (c.l.uregs < n + regs)) 8
    | .data regs _ _, .win k => (match c.u.window[k]? with
      | none => [9]
      | some e => failIf (regs == 2 && !e.wide) 9)
    | _, _ => []) ++
  f.srcs.flatMap (fun u => srcDyn c uni (x.code u.slot) u.wide) ++
  f.srcs.flatMap (fun u => if u.mods then modDyn c (x.modOf u.slot) else []) ++
  failIf (decide (24 ≤ c.u.ndone)) 15

end Machine
end Sys2Proof
end

