-- ==== Sys2Proof/Machine/Operands.lean ====
section
/-! DEFINITION. Operand forms: inline constants (R51, R52 02_encoding.md), literals (R59), routing (R143 to R149 05_router.md), what
a register read may return (R66, R147), marked units (R245 10_loadstore.md), and the writing of registers, window entries
and predicates (R64, R65, R53). -/

namespace Sys2Proof
namespace Machine

/-! ### Inline constants (R51) -/

/-- How an operand reads a constant: as an integer, as a value of a floating-point type, or repeated in every element. -/
inductive View where
  | int
  | flt (t : DType)
  | packed (t : DType)
deriving DecidableEq, Repr

def constInt (k : Nat) : Int :=
  [0, 1, 2, -1, 4, 8, 16, 32, 3, 31, 64, 255, 65535, 2147483647, -2147483648, 1431655765].getD k 0

/-- π and ln 2, cut after 128 fraction bits: enough for every format's nearest value. -/
def piCut : Ex := .rat false 0x3243F6A8885A308D313198A2E03707344 (2 ^ 128)
def ln2Cut : Ex := .rat false 0xB17217F7D1CF79ABC9E3B39803F2F6AF (2 ^ 128)

/-- The floating-point value of constant k in a format. -/
def constFlt (f : Fmt) (k : Nat) : Nat :=
  let r := fun x => (round f .rne false x).1
  match k with
  | 0 => r (.rat false 0 1) | 1 => r (.rat false 1 1) | 2 => r (.rat false 2 1) | 3 => r (.rat true 1 1)
  | 4 => r (.rat false 1 2) | 5 => r (.rat false 4 1) | 6 => r (.rat false 1 4) | 7 => r (.rat true 0 1)
  | 8 => r (.rat false 3 1) | 9 => r (.rat false 10 1) | 10 => f.inf false | 11 => f.inf true
  | 12 => f.largest false | 13 => 2 ^ f.t | 14 => r piCut | _ => r ln2Cut

/-- The bits that constant k supplies to an operand of 32 or 64 bits. -/
def constBits (v : View) (wide : Bool) (k : Nat) : Nat :=
  match v with
  | .int => lo (constInt k) (if wide then 64 else 32)
  | .flt t => constFlt (fmtOf t) k
  | .packed t =>
    let b := constFlt (fmtOf t) k
    if t.width = 8 then b * 0x01010101 else b * 0x00010001

/-! ### Vector registers -/

/-- The current value of a unit. -/
def Group.vcur (g : Group) (r t : Nat) : Word := SMap.get 0 (g.vregs.get [] r) t

/-- A read of a unit under R66: the value, and whether it is the current one. With no unawaited write it is. Two reads of one unit by one
instruction choose alike (log 3). -/
def Cx.vread (c : Cx) (r t : Nat) : Word × Bool :=
  match c.g.stale.get [] r with
  | [] => (c.g.vcur r t, true)
  | olds =>
    let k := Config.earlyRead c.stamp (256 * r + t) % (olds.length + 1)
    if k = 0 then (c.g.vcur r t, true) else (SMap.get 0 (olds.getD (k - 1) []) t, false)

/-- The sub-group that holds a member. -/
def Group.holder (g : Group) (m : Nat) : Option SubGroup := g.subs.find? fun u => u.members.getLsbD m

/-- A read of a unit of a member that another sub-group holds (R147): its value at the split or one written since. -/
def Cx.vcross (c : Cx) (r t : Nat) : Word × Bool :=
  match (c.g.holder (t / 32)).map fun u => u.hist.get [] r with
  | none | some [] => (c.g.vcur r t, true)
  | some olds =>
    let k := Config.crossRead c.stamp (256 * r + t) % (olds.length + 1)
    if k = 0 then (c.g.vcur r t, true) else (SMap.get 0 (olds.getD (k - 1) []) t, false)

/-- Write some threads' units of a vector register by an interlocked instruction of sub-group `n`: the old contents stay
readable until awaited (R66), the register is awaited no longer (R73), the units' marks are cleared (R245). -/
def Group.putVec (g : Group) (n r : Nat) (f : Nat → Option Word) : Group :=
  let old := g.vregs.get [] r
  let new := SMap.build 0 (fun t => match f t with | some v => v | none => SMap.get 0 old t) 0 (32 * g.m)
  let g : Group := { g with
    vregs := g.vregs.set [] r new
    stale := g.stale.set [] r (old :: (g.stale.get [] r).filter fun o => o ≠ old)
    awaited := g.awaited.erase r
    vmarks := g.vmarks.filter fun k => !(k.1 / 256 == r && (f (k.1 % 256)).isSome) }
  if g.subs.length ≤ 1 then g
  else g.modSub n fun u => { u with hist := u.hist.set [] r (old :: u.hist.get [] r) }

/-- Write a pair or a single register. -/
def Group.putRegs (g : Group) (n r : Nat) (wide : Bool) (f : Nat → Option Dword) : Group :=
  let g := g.putVec n r fun t => (f t).map fun v => BitVec.ofNat 32 (bits v 31 0)
  if wide then g.putVec n (r + 1) fun t => (f t).map fun v => BitVec.ofNat 32 (bits v 63 32) else g

/-! ### Uniform registers -/

def SubGroup.ureg (u : SubGroup) (n : Nat) : Word := u.uregs.get 0 n
def SubGroup.putU (u : SubGroup) (n : Nat) (v : Word) : SubGroup :=
  { u with uregs := u.uregs.set 0 n v, umarks := u.umarks.erase n }
def SubGroup.putUregs (u : SubGroup) (n : Nat) (wide : Bool) (v : Dword) : SubGroup :=
  let u := u.putU n (BitVec.ofNat 32 (bits v 31 0))
  if wide then u.putU (n + 1) (BitVec.ofNat 32 (bits v 63 32)) else u
/-- A uniform pair or register. -/
def SubGroup.uget (u : SubGroup) (n : Nat) (wide : Bool) : Dword :=
  BitVec.ofNat 64 ((u.ureg n).toNat + if wide then (u.ureg (n + 1)).toNat * 2 ^ 32 else 0)

/-! ### Routing (R145 to R148) -/

/-- What a routed read names: a thread's own contents, zero, or a thread of another sub-group. -/
inductive Routed where
  | own (t : Nat)
  | zero
  | cross (t : Nat)
deriving DecidableEq, Repr

/-- fill(X, m, l) of R148. -/
def fillOf (m t : Nat) : Routed := if modFill m then .own t else .zero

/-- val(X, m′, s, m, l) of R148: a live source thread, else the fill. -/
def Cx.valOf (c : Cx) (m t src : Nat) : Routed :=
  if (c.g.liveOf (src / 32)).getLsbD (src % 32) then .own src else fillOf m t

/-- route(X, m, l) of R145, for the modifier `m` and the reading thread t; `win` for a window operand. -/
def Cx.routeOf (c : Cx) (m : Nat) (win : Bool) (t : Nat) : Routed :=
  let w := c.width
  let l := t % 32
  let q := l % w
  let base := t - q
  let k := modParam m
  let d : Int := intOf true 6 k
  match modKind m with
  | 0 => .own t
  | 1 => c.valOf m t (base + (((q : Int) + d) % (w : Int)).toNat)
  | 6 =>
    let p : Int := (q : Int) + d
    if p < 0 ∨ (w : Int) ≤ p then fillOf m t else c.valOf m t (base + p.toNat)
  | 2 => c.valOf m t (base + k % w)
  | 3 => c.valOf m t (base + (q ^^^ (k &&& (w - 1))))
  | 4 => c.valOf m t (base + (c.vread k t).1.toNat % w)
  | 5 =>
    let src := 32 * (k % 8) + l
    if c.u.members.getLsbD (k % 8) then c.valOf m t src
    else if win then fillOf m t
    else .cross src
  | _ => .own t

/-! ### Reading a source -/

/-- own(X, m, l): the contents of an operand for a thread, unrouted. -/
def Cx.ownVal (c : Cx) (code : BitVec 9) (wide : Bool) (view : View) (lit : Option Dword) (t : Nat) : Dword :=
  match operandOf code with
  | .vreg n => BitVec.ofNat 64 ((c.vread n t).1.toNat + if wide then (c.vread (n + 1) t).1.toNat * 2 ^ 32 else 0)
  | .ureg n => c.u.uget n wide
  | .win k => match c.u.window[k]? with
    | some e => let v := e.vals.get 0 t; if wide then v else BitVec.ofNat 64 (bits v 31 0)
    | none => 0
  | .const k => BitVec.ofNat 64 (constBits view wide k)
  | .lane => BitVec.ofNat 64 (t % 32)
  | .member => BitVec.ofNat 64 (t / 32)
  | .lit => match lit with
    | some v => if wide then v else BitVec.ofNat 64 (bits v 31 0)
    | none => 0
  | .reserved => 0

def isWin (code : BitVec 9) : Bool :=
  match operandOf code with
  | .win _ => true
  | _ => false

/-- A routed operand of a thread (R143). -/
def Cx.routed (c : Cx) (code : BitVec 9) (m : Nat) (wide : Bool) (view : View) (lit : Option Dword) (t : Nat) : Dword :=
  if m = 0 then c.ownVal code wide view lit t
  else match c.routeOf m (isWin code) t with
    | .own s => c.ownVal code wide view lit s
    | .zero => 0
    | .cross s => match operandOf code with
      | .vreg n => BitVec.ofNat 64 ((c.vcross n s).1.toNat + if wide then (c.vcross (n + 1) s).1.toNat * 2 ^ 32 else 0)
      | _ => 0

/-- Source field `sl` of an extended form for thread t, routed, before ABS and NEG. -/
def Cx.src (c : Cx) (x : Ext) (sl : Slot) (wide : Bool) (view : View) (t : Nat) : Dword :=
  c.routed (x.code sl) (x.modOf sl) wide view x.lit t

/-- A source field without a routing modifier of its own. -/
def Cx.plain (c : Cx) (x : Ext) (sl : Slot) (wide : Bool) (view : View) (t : Nat) : Dword :=
  c.ownVal (x.code sl) wide view x.lit t

/-- ABS and NEG on an integer operand A (R57). -/
def negAbsInt (x : Ext) (w : Nat) (v : Dword) : Dword :=
  let i := intOf true w v.toNat
  let i := if x.abs && decide (i < 0) then -i else i
  let i := if x.neg then -i else i
  if x.abs || x.neg then pat w i else v

/-- ABS and NEG on a floating-point operand A of w bits (R57). -/
def negAbsFlt (x : Ext) (w : Nat) (v : Dword) : Dword :=
  let b := v.toNat % 2 ^ w
  let b := if x.abs then b % 2 ^ (w - 1) else b
  let b := if x.neg then (if 2 ^ (w - 1) ≤ b then b - 2 ^ (w - 1) else b + 2 ^ (w - 1)) else b
  BitVec.ofNat 64 b

/-! ### Marked units (R245) -/

/-- A register operand that an instruction reads: `regs` consecutive registers. -/
structure RegUse where
  code : BitVec 9
  mod : Nat
  regs : Nat
deriving DecidableEq, Repr

/-- The mark that thread t meets in one operand. -/
def Cx.markAt (c : Cx) (u : RegUse) (t : Nat) : Option Mark :=
  let one (rd : Nat → Nat → Word × Bool) (r s : Nat) : Option Mark :=
    if (rd r s).2 then (c.g.vmarks.find? fun k => k.1 == 256 * r + s).map fun k => k.2 else none
  let index := if modKind u.mod = 4 then one c.vread (modParam u.mod) t else none
  index.or <| match operandOf u.code with
    | .vreg n =>
      (match (if u.mod = 0 then Routed.own t else c.routeOf u.mod false t) with
        | .own s => (List.range u.regs).findSome? fun i => one c.vread (n + i) s
        | .zero => none
        | .cross s => (List.range u.regs).findSome? fun i => one c.vcross (n + i) s)
    | .ureg n => (List.range u.regs).findSome? fun i => (c.u.umarks.find? fun k => k.1 == n + i).map fun k => k.2
    | _ => none

/-- The fault of the first marked unit that an instruction reads: the lowest thread names it, every thread that met one is
marked; an instruction that acts once reads even with no active thread (R245). -/
def Cx.markFault (c : Cx) (uses : List RegUse) (threads : List Nat) (once : Bool) : Option TrapReq :=
  if c.g.vmarks.isEmpty && c.u.umarks.isEmpty then none
  else
    let hits := threads.filterMap fun t => (uses.findSome? fun u => c.markAt u t).map fun m => (t, m)
    let hits := if once && hits.isEmpty then
        ((uses.findSome? fun u => c.markAt u 0).map fun m => (0, m)).toList else hits
    let uniHit := uses.any fun u => match operandOf u.code with
      | .ureg n => (List.range u.regs).any fun i => c.u.umarks.has (n + i)
      | _ => false
    match hits with
    | [] => none
    | (t, m) :: _ => some
        { cause := m.cause, detail := m.detail, addr := m.addr, thread := t,
          msk := if uniHit then threads else hits.map fun h => h.1 }

/-- Register operands of an extended form. -/
def formUses (x : Ext) (f : Form) : List RegUse :=
  (f.srcs.map fun u => { code := x.code u.slot, mod := if u.mods then x.modOf u.slot else 0, regs := if u.wide then 2 else 1 }) ++
    match f.dest with
    | .data n _ _ => [{ code := x.d, mod := 0, regs := n }]
    | _ => []

/-! ### Writing results -/

/-- A new newest window entry (R64). -/
def SubGroup.push (u : SubGroup) (e : WinEntry) : SubGroup := { u with window := (e :: u.window).take 8 }

/-- Does an operation that is still loading hold one of these uniform registers (R67, R242)? -/
def Cx.uniHeld (c : Cx) (uses : List RegUse) : Bool :=
  !c.u.upending.isEmpty && uses.any fun u => match operandOf u.code with
    | .ureg n => (List.range u.regs).any fun i => c.u.upending.has (n + i)
    | _ => false

/-- Does a read of one of these vector registers wait for an operation: one that was to write the register before a trailer named it
(R66, R73)? -/
def Cx.awaitHeld (c : Cx) (uses : List RegUse) : Bool :=
  !c.g.awaited.isEmpty && uses.any fun u =>
    (modKind u.mod == 4 && c.g.awaited.has (modParam u.mod)) || match operandOf u.code with
      | .vreg n => (List.range u.regs).any fun i => c.g.awaited.has (n + i)
      | _ => false

/-- One thread's result. -/
structure Lane where
  t : Nat
  val : Dword
  fl : Flags
deriving DecidableEq, Repr

def laneAt (l : List Lane) (t : Nat) : Option Dword := (l.find? fun k => k.t == t).map fun k => k.val

/-- The floating-point trap after an instruction, if an enabled exception was raised (R137). -/
def fpTrap (te : Flags) (lanes : List Lane) : Option TrapReq :=
  let bad := lanes.filter fun k => k.fl &&& te ≠ 0
  if bad.isEmpty then none
  else some { cause := 0x0A, detail := ((bad.foldl (fun a k => a ||| k.fl) (0 : Flags)) &&& te).toNat,
              msk := bad.map fun k => k.t,
              raised := (lanes.filter fun k => k.fl ≠ 0).map fun k => (k.t, k.fl) }

/-- Flags raised by threads go to their FPSR (R113, R191). -/
def Group.raise (g : Group) (lanes : List Lane) : Group :=
  if lanes.all fun k => k.fl = 0 then g
  else { g with fpsr := lanes.foldl (fun m k => m.set 0 k.t (m.get 0 k.t ||| k.fl)) g.fpsr }

def resOf (s : State) : Option TrapReq → Res
  | none => .done s
  | some t => .after s t

/-- Write the results of a per-thread instruction with D = `code` and make its window entry. For a vector register the
entry holds, for threads that were not active, the unchanged contents; for 0x1FF, zero (R64). -/
def Cx.writeLanes (c : Cx) (s : State) (code : BitVec 9) (wide : Bool) (lanes : List Lane) : State :=
  match operandOf code with
  | .vreg n =>
    let held := fun t => (c.g.vcur n t).toNat + if wide then (c.g.vcur (n + 1) t).toNat * 2 ^ 32 else 0
    let e : WinEntry := ⟨wide, false,
      SMap.build 0 (fun t => match laneAt lanes t with
        | some v => v
        | none => BitVec.ofNat 64 (held t)) 0 (32 * c.g.m)⟩
    s.modGroup c.r.grp fun g => ((g.putRegs c.r.sub n wide (laneAt lanes)).raise lanes).modSub c.r.sub fun u => u.push e
  | .lit =>
    let e : WinEntry := { wide := wide, uni := false, vals := SMap.build 0 (fun t => (laneAt lanes t).getD 0) 0 (32 * c.g.m) }
    s.modGroup c.r.grp fun g => (g.raise lanes).modSub c.r.sub fun u => u.push e
  | _ => s

/-- Write the one result of a uniform-destination instruction (R53); its flags reach every thread of the sub-group with MMK
and EXM set (R197). -/
def Cx.writeUni (c : Cx) (s : State) (n : Nat) (wide : Bool) (v : Dword) (fl : Flags) : State :=
  let e : WinEntry := { wide := wide, uni := true, vals := SMap.build 0 (fun _ => v) 0 (32 * c.g.m) }
  s.modGroup c.r.grp fun g =>
    (g.raise (c.unguarded.map fun t => ⟨t, v, fl⟩)).modSub c.r.sub fun u => (u.putUregs n wide v).push e

/-- The window entry of a uniform-destination instruction that changed nothing: what the register holds (R361, R64). -/
def Cx.keepUni (c : Cx) (s : State) (n : Nat) (wide : Bool) : State :=
  let e : WinEntry := { wide := wide, uni := true, vals := SMap.build 0 (fun _ => c.u.uget n wide) 0 (32 * c.g.m) }
  s.modSub c.r fun u => u.push e

/-- The result of an instruction on port V, I or F: `f` gives each thread's value and flags; a uniform destination computes it
once. -/
def Cx.result (c : Cx) (s : State) (x : Ext) (wide : Bool) (f : Nat → Dword × Flags) : Res :=
  match operandOf x.d with
  | .ureg n =>
    let r := f 0
    let lanes := c.unguarded.map fun t => (⟨t, r.1, r.2⟩ : Lane)
    resOf (c.writeUni s n wide r.1 r.2) (fpTrap c.te lanes)
  | _ =>
    let lanes := (c.threads x.p).map fun t => let r := f t; (⟨t, r.1, r.2⟩ : Lane)
    resOf (c.writeLanes s x.d wide lanes) (fpTrap c.te lanes)

/-- Write predicate k for some threads; p0 is never written (R27). -/
def Group.putPred (g : Group) (k : Nat) (l : List (Nat × Bool)) : Group :=
  if k = 0 then g
  else { g with preds := l.foldl (fun p tv =>
      let key := 16 * (tv.1 / 32) + k
      let w := p.get 0 key
      let bit := BitVec.ofNat 32 (2 ^ (tv.1 % 32))
      p.set 0 key (if tv.2 then w ||| bit else w &&& ~~~bit)) g.preds }

/-- The result of an instruction that writes predicate k. -/
def Cx.predResult (c : Cx) (s : State) (k : Nat) (p : BitVec 4) (f : Nat → Bool × Flags) : Res :=
  let rs := (c.threads p).map fun t => (t, f t)
  let lanes := rs.map fun r => (⟨r.1, 0, r.2.2⟩ : Lane)
  resOf (s.modGroup c.r.grp fun g => (g.putPred k (rs.map fun r => (r.1, r.2.1))).raise lanes) (fpTrap c.te lanes)

/-! ### Issuing an extended form -/

/-- Uses of D: a destination is no read, but an outstanding LDU holds it too. -/
def holdUses (x : Ext) (f : Form) : List RegUse :=
  formUses x f ++ match f.dest with
    | .reg wide _ _ _ => [{ code := x.d, mod := 0, regs := if wide then 2 else 1 }]
    | .load n _ => [{ code := x.d, mod := 0, regs := n }]
    | _ => []

/-- Issue an extended form of `words` words (one for the base form it stands for, R48): the checks of its entry, further
ones against the run, marked units that the threads `who` read, interlocks, effect. -/
def State.issueExt (s : State) (words : Nat) (x : Ext) (f : Form) (dyn : Cx → List Nat) (eff : Cx → State → Res)
    (who : Cx → List Nat := fun c => c.threads x.p) : Out :=
  s.issue words (fun c => formFails x f ++ dynFails c x f ++ dyn c)
    (fun c => c.markFault (formUses x f) (who c) (f.dest.isUni x.d || !f.guard))
    (fun c s => if c.uniHeld (holdUses x f) || c.awaitHeld (formUses x f) then .hold else eff c s)

/-- Issue of an entry without further checks. -/
def State.issueAlu (s : State) (words : Nat) (x : Ext) (f : Form) (eff : Cx → State → Res) : Out :=
  s.issueExt words x f (fun _ => []) eff

end Machine
end Sys2Proof
end

