-- ==== Sys2Proof/Machine/Integer.lean ====
section
/-! DEFINITION. Integer and address pipe (R157 to R179 06_integer.md): what each entry's encoding admits, and its meaning. -/

namespace Sys2Proof
namespace Machine

/-! ### Forms -/

def intTypes : List DType := [.i32, .n32, .i64, .n64]
def bitTypes : List DType := [.b32, .b64]

/-- A vector, uniform or window-only destination (R160). -/
def destAny (wide : Bool) : DestUse := .reg wide true true true
/-- The same without a uniform code. -/
def destVec (wide : Bool) : DestUse := .reg wide true false true

/-- One source of the operand type's width. -/
def formOne (x : Ext) (tys : List DType) (own1 : Nat) (neg : Bool) : Form :=
  { dest := destAny x.ty.wide, srcs := [{ slot := .A, wide := x.ty.wide }], own1 := own1, ty := some tys, neg := neg }

/-- Two sources of the operand type's width; classes E and L. -/
def formTwo (x : Ext) (tys : List DType) (own1 : Nat) (neg : Bool) : Form :=
  { literal := true, dest := destAny x.ty.wide,
    srcs := [{ slot := .A, wide := x.ty.wide }, { slot := .B, wide := x.ty.wide }], own1 := own1, ty := some tys, neg := neg }

/-- Three sources of the operand type's width; classes E and L. -/
def formThree (x : Ext) (tys : List DType) (neg : Bool) : Form :=
  { literal := true, dest := destAny x.ty.wide,
    srcs := [{ slot := .A, wide := x.ty.wide }, { slot := .B, wide := x.ty.wide }, { slot := .C, wide := x.ty.wide }],
    ty := some tys, neg := neg }

/-! ### Operands as integers -/

/-- Operand A, with ABS and NEG, as an integer of the operand type. -/
def Cx.intA (c : Cx) (x : Ext) (t : Nat) : Int :=
  intTy x.ty (negAbsInt x x.ty.width (c.src x .A x.ty.wide .int t)).toNat
def Cx.intB (c : Cx) (x : Ext) (t : Nat) : Int := intTy x.ty (c.src x .B x.ty.wide .int t).toNat
def Cx.intC (c : Cx) (x : Ext) (t : Nat) : Int := intTy x.ty (c.src x .C x.ty.wide .int t).toNat

/-- An integer result of the operand type's width, wrapped or saturated (R164). -/
def intResult (t : DType) (sat : Bool) (v : Int) : Dword := pat t.width (if sat then clampTo t v else v)

/-- SAT in SUB[5]. -/
def sat5 (x : Ext) : Bool := x.bit1 5

/-! ### Addition and subtraction (R164, R165) -/

def formAddSub (x : Ext) : Form := formTwo x intTypes 0x20 x.ty.signed

def effIadd (x : Ext) (c : Cx) (s : State) : Res :=
  c.result s x x.ty.wide fun t => (intResult x.ty (sat5 x) (c.intA x t + c.intB x t), 0)
def effIsub (x : Ext) (c : Cx) (s : State) : Res :=
  c.result s x x.ty.wide fun t => (intResult x.ty (sat5 x) (c.intA x t - c.intB x t), 0)
def formIadd3 (x : Ext) : Form := formThree x intTypes x.ty.signed
def effIadd3 (x : Ext) (c : Cx) (s : State) : Res :=
  c.result s x x.ty.wide fun t => (intResult x.ty false (c.intA x t + c.intB x t + c.intC x t), 0)

/-- IADDC and ISUBB: CI[22:19], CO[18:15] and CIN[14] of word 1 stand in the place of C (R165). -/
def formCarry (x : Ext) : Form :=
  { dest := destVec x.ty.wide, srcs := [{ slot := .A, wide := x.ty.wide }, { slot := .B, wide := x.ty.wide }],
    own1 := 0x007FC000, ty := some [.n32, .n64],
    own := failIf (!x.bit1 14 && decide (bits x.w1 22 19 ≠ 0)) 16 }

/-- An addition or subtraction with carry: the value before it is cut to the width, and whether it carries out (R165). -/
def effCarry (x : Ext) (op : Int → Int → Int → Int) (out : Int → Bool) (c : Cx) (s : State) : Res :=
  let cin := fun t => if x.bit1 14 && c.g.predBit t (bits x.w1 22 19) then (1 : Int) else 0
  let v := fun t => op (c.intA x t) (c.intB x t) (cin t)
  match c.result s x x.ty.wide fun t => (intResult x.ty false (v t), 0) with
  | .done s' => .done (s'.modGroup c.r.grp fun g =>
      g.putPred (bits x.w1 18 15) ((c.threads x.p).map fun t => (t, out (v t))))
  | r => r

def effIaddc (x : Ext) : Cx → State → Res :=
  effCarry x (fun a b ci => a + b + ci) fun v => decide ((2 ^ x.ty.width : Nat) ≤ v)
def effIsubb (x : Ext) : Cx → State → Res := effCarry x (fun a b ci => a - b - ci) fun v => decide (v < 0)

/-! ### Multiplication (R166) and division (R167) -/

def formMul (x : Ext) : Form := formTwo x intTypes 0 x.ty.signed
def effImul (x : Ext) (c : Cx) (s : State) : Res :=
  c.result s x x.ty.wide fun t => (intResult x.ty false (c.intA x t * c.intB x t), 0)
def effImulh (x : Ext) (c : Cx) (s : State) : Res :=
  c.result s x x.ty.wide fun t => (intResult x.ty false ((c.intA x t * c.intB x t).fdiv (2 ^ x.ty.width : Nat)), 0)
def formImad (x : Ext) : Form := formThree x intTypes x.ty.signed
def effImad (x : Ext) (c : Cx) (s : State) : Res :=
  c.result s x x.ty.wide fun t => (intResult x.ty false (c.intA x t * c.intB x t + c.intC x t), 0)

/-- IMADW: A and B of 32 bits, C and D pairs (R166). -/
def formImadw (x : Ext) : Form :=
  { literal := true, dest := destAny true,
    srcs := [{ slot := .A, wide := false }, { slot := .B, wide := false }, { slot := .C, wide := true }],
    ty := some [.i32, .n32], neg := x.ty.signed }
def effImadw (x : Ext) (c : Cx) (s : State) : Res :=
  c.result s x true fun t =>
    (pat64 (c.intA x t * c.intB x t + intOf true 64 (c.src x .C true .int t).toNat), 0)

/-- Quotient toward zero and remainder (R167). -/
def divRem (t : DType) (a b : Int) : Int × Int :=
  if b = 0 then (-1, a)
  else if t.signed = true ∧ a = minOf t ∧ b = -1 then (minOf t, 0)
  else (a.tdiv b, a - a.tdiv b * b)

def effIdiv (x : Ext) (c : Cx) (s : State) : Res :=
  c.result s x x.ty.wide fun t => (intResult x.ty false (divRem x.ty (c.intA x t) (c.intB x t)).1, 0)
def effIrem (x : Ext) (c : Cx) (s : State) : Res :=
  c.result s x x.ty.wide fun t => (intResult x.ty false (divRem x.ty (c.intA x t) (c.intB x t)).2, 0)

/-! ### Minimum, maximum, absolute value, negation, saturation (R168, R169) -/

def effImin (x : Ext) (c : Cx) (s : State) : Res :=
  c.result s x x.ty.wide fun t =>
    (pat x.ty.width (if c.intA x t ≤ c.intB x t then c.intA x t else c.intB x t), 0)
def effImax (x : Ext) (c : Cx) (s : State) : Res :=
  c.result s x x.ty.wide fun t =>
    (pat x.ty.width (if c.intB x t ≤ c.intA x t then c.intA x t else c.intB x t), 0)

/-- IABS and INEG: signed types, SAT in SUB[5], no NEG or ABS (R159, R168). -/
def formSign (x : Ext) : Form := formOne x [.i32, .i64] 0x20 false
def effIabs (x : Ext) (c : Cx) (s : State) : Res :=
  c.result s x x.ty.wide fun t => (intResult x.ty (sat5 x) ((c.intA x t).natAbs : Int), 0)
def effIneg (x : Ext) (c : Cx) (s : State) : Res :=
  c.result s x x.ty.wide fun t => (intResult x.ty (sat5 x) (-(c.intA x t)), 0)

/-- ISAT: T in SUB[4:0], U in SUB[9:5], U no wider than T (R169). -/
def formIsat (x : Ext) : Form :=
  { dest := destAny x.ty.wide, srcs := [{ slot := .A, wide := x.ty.wide }], ty := some intTypes,
    ty2 := some ([.i4, .n4, .i8, .n8, .i16, .n16, .i32, .n32] ++ if x.ty.wide then [.i64, .n64] else []) }
def effIsat (x : Ext) (c : Cx) (s : State) : Res :=
  c.result s x x.ty.wide fun t => (pat x.ty.width (clampTo x.ty2 (c.intA x t)), 0)

/-! ### Bitwise operations, shifts, rotation (R170, R171) -/

def formBits2 (x : Ext) : Form := formTwo x bitTypes 0 false
def formBits1 (x : Ext) : Form := formOne x bitTypes 0 false

/-- A two-source operation on patterns. -/
def effBits (x : Ext) (f : Dword → Dword → Dword) (c : Cx) (s : State) : Res :=
  c.result s x x.ty.wide fun t =>
    (BitVec.ofNat 64 ((f (c.src x .A x.ty.wide .int t) (c.src x .B x.ty.wide .int t)).toNat % 2 ^ x.ty.width), 0)
def effAnd (x : Ext) : Cx → State → Res := effBits x fun a b => a &&& b
def effOr (x : Ext) : Cx → State → Res := effBits x fun a b => a ||| b
def effXor (x : Ext) : Cx → State → Res := effBits x fun a b => a ^^^ b
def effAndn (x : Ext) : Cx → State → Res := effBits x fun a b => a &&& ~~~b
def effNot (x : Ext) (c : Cx) (s : State) : Res :=
  c.result s x x.ty.wide fun t =>
    (BitVec.ofNat 64 ((~~~(c.src x .A x.ty.wide .int t)).toNat % 2 ^ x.ty.width), 0)

/-- The amount of a shift is always 32 bits (R171). -/
def formShift (x : Ext) : Form :=
  { literal := true, dest := destAny x.ty.wide, srcs := [{ slot := .A, wide := x.ty.wide }, { slot := .B, wide := false }],
    ty := some bitTypes }
/-- A shift of the w-bit value a by n. -/
def effShift (x : Ext) (f : Nat → Nat → Nat → Int) (c : Cx) (s : State) : Res :=
  c.result s x x.ty.wide fun t =>
    (pat x.ty.width (f x.ty.width (c.src x .A x.ty.wide .int t).toNat (c.src x .B false .int t).toNat), 0)
def shlOf (w a n : Nat) : Int := if w ≤ n then 0 else (a * 2 ^ n : Nat)
def shrOf (w a n : Nat) : Int := if w ≤ n then 0 else (a / 2 ^ n : Nat)
def sarOf (w a n : Nat) : Int := (intOf true w a).fdiv (2 ^ (min n (w - 1)) : Nat)
def rotlOf (w a n : Nat) : Int := ((a * 2 ^ (n % w)) % 2 ^ w ||| a / 2 ^ (w - n % w) : Nat)
def effShl (x : Ext) : Cx → State → Res := effShift x shlOf
def effShr (x : Ext) : Cx → State → Res := effShift x shrOf
def effSar (x : Ext) : Cx → State → Res := effShift x sarOf
def effRotl (x : Ext) : Cx → State → Res := effShift x rotlOf

/-! ### Bit fields and counts (R172, R173) -/

def formBfx (x : Ext) : Form :=
  { literal := true, dest := destAny x.ty.wide, srcs := [{ slot := .A, wide := x.ty.wide }, { slot := .B, wide := false }],
    ty := some intTypes }
/-- POS and the effective length of a field descriptor (R172). -/
def fieldOf (w d : Nat) : Nat × Nat :=
  let pos := d % 256
  let len := d / 256 % 256
  (pos, if pos < w then min len (w - pos) else 0)
def effBfx (x : Ext) (c : Cx) (s : State) : Res :=
  c.result s x x.ty.wide fun t =>
    let (pos, len) := fieldOf x.ty.width (c.src x .B false .int t).toNat
    let f := (c.src x .A x.ty.wide .int t).toNat / 2 ^ pos % 2 ^ len
    (if len = 0 then 0 else pat x.ty.width (intOf x.ty.signed len f), 0)

def formBfi (x : Ext) : Form :=
  { literal := true, dest := destAny x.ty.wide,
    srcs := [{ slot := .A, wide := x.ty.wide }, { slot := .B, wide := x.ty.wide }, { slot := .C, wide := false }],
    ty := some bitTypes }
def effBfi (x : Ext) (c : Cx) (s : State) : Res :=
  c.result s x x.ty.wide fun t =>
    let (pos, len) := fieldOf x.ty.width (c.src x .C false .int t).toNat
    let b := (c.src x .B x.ty.wide .int t).toNat
    let a := (c.src x .A x.ty.wide .int t).toNat % 2 ^ len
    let low := b % 2 ^ pos
    let high := b / 2 ^ (pos + len)
    (BitVec.ofNat 64 (if len = 0 then b else low + a * 2 ^ pos + high * 2 ^ (pos + len)), 0)

/-- A count of 32 bits from a source of the type's width (R173). -/
def formCount (x : Ext) : Form :=
  { dest := destAny false, srcs := [{ slot := .A, wide := x.ty.wide }], ty := some bitTypes }
def effCount (x : Ext) (f : Nat → Nat → Nat) (c : Cx) (s : State) : Res :=
  c.result s x false fun t => (BitVec.ofNat 64 (f x.ty.width (c.src x .A x.ty.wide .int t).toNat), 0)
def clzOf (w a : Nat) : Nat := if a = 0 then w else w - 1 - Nat.log2 a
def ctzOf (w a : Nat) : Nat := ((List.range w).find? fun i => a.testBit i).getD w
def effPopc (x : Ext) : Cx → State → Res := effCount x popcount
def effClz (x : Ext) : Cx → State → Res := effCount x clzOf
def effCtz (x : Ext) : Cx → State → Res := effCount x ctzOf
def effBrev (x : Ext) (c : Cx) (s : State) : Res :=
  c.result s x x.ty.wide fun t => (BitVec.ofNat 64 (revBits x.ty.width (c.src x .A x.ty.wide .int t).toNat), 0)

/-! ### Comparison, selection, moves (R174 to R176) -/

/-- ISETP: PD in D[3:0], PB in word 1 [17:14], CND in SUB[7:5], CMB in SUB[9:8] (R174). -/
def formIsetp (x : Ext) : Form :=
  { literal := true, dest := .own 0x00F, srcs := [{ slot := .A, wide := x.ty.wide }, { slot := .B, wide := x.ty.wide }],
    own1 := 0x3C000 + 0x3E0, ty := some intTypes, neg := x.ty.signed,
    own := failIf (x.d.toNat % 16 == 0) 16 ++ failIf (decide (6 ≤ x.subBits 7 5)) 4 ++
      failIf (x.subBits 9 8 == 0 && decide (bits x.w1 17 14 ≠ 0)) 16 }

/-- A comparison combined with a predicate (R174, R215). -/
def combine (cmb : Nat) (b pb : Bool) : Bool :=
  match cmb with
  | 0 => b
  | 1 => b && pb
  | 2 => b || pb
  | _ => b != pb

def intCond (cnd : Nat) (a b : Int) : Bool :=
  match cnd with
  | 0 => decide (a = b) | 1 => decide (a ≠ b) | 2 => decide (a < b) | 3 => decide (a ≤ b) | 4 => decide (b < a)
  | _ => decide (b ≤ a)

def effIsetp (x : Ext) (c : Cx) (s : State) : Res :=
  c.predResult s (x.d.toNat % 16) x.p fun t =>
    (combine (x.subBits 9 8) (intCond (x.subBits 7 5) (c.intA x t) (c.intB x t)) (c.g.predBit t (bits x.w1 17 14)), 0)

/-- ISEL and FSEL: PS in word 1 [17:14], NS in [18]; no uniform destination (R160, R175, R213). -/
def formSelect (x : Ext) (tys : List DType) : Form :=
  { dest := destVec x.ty.wide, srcs := [{ slot := .A, wide := x.ty.wide }, { slot := .B, wide := x.ty.wide }],
    own1 := 0x7C000, ty := some tys }
def formIsel (x : Ext) : Form := formSelect x bitTypes
def effSelect (x : Ext) (v : View) (c : Cx) (s : State) : Res :=
  c.result s x x.ty.wide fun t =>
    (if c.g.predBit t (bits x.w1 17 14) != x.bit1 18 then c.src x .A x.ty.wide v t else c.src x .B x.ty.wide v t, 0)
def effIsel (x : Ext) : Cx → State → Res := effSelect x .int

def effMov (x : Ext) (c : Cx) (s : State) : Res :=
  c.result s x x.ty.wide fun t => (c.src x .A x.ty.wide .int t, 0)
/-- MOVI: class L only; it uses the literal, and an A that does not name it breaks the entry's own rule (R176, R161). -/
def formMovi (x : Ext) : Form :=
  let named := decide (operandOf x.a = .lit)
  { ext := false, literal := true, dest := destAny x.ty.wide, ty := some bitTypes, ownA := 0x1FF, litUsed := true,
    srcs := if named then [{ slot := .A, wide := x.ty.wide, kinds := ⟨false, false, false, false, false, true⟩, mods := false }] else [],
    own := failIf (!named) 16 }

/-! ### Addresses (R177) -/

/-- The base may be a vector, window or uniform code (log 54). -/
def formLea (x : Ext) : Form :=
  { literal := true, dest := destAny true,
    srcs := [{ slot := .A, wide := true, kinds := ⟨true, true, true, false, false, false⟩ },
      { slot := .B, wide := false }, { slot := .C, wide := false }],
    own1 := 0xE0, ty := some [.i32, .n32], own := failIf (decide (5 ≤ x.subBits 7 5)) 4 }
/-- base + index x 2^sc + offset, cut to 64 bits (R177, R235). -/
def addressOf (base : Nat) (index : Int) (sc : Nat) (offset : Int) : Nat := lo ((base : Int) + index * (2 ^ sc : Nat) + offset) 64
def effLea (x : Ext) (c : Cx) (s : State) : Res :=
  c.result s x true fun t =>
    (BitVec.ofNat 64 (addressOf (c.src x .A true .int t).toNat (intTy x.ty (c.src x .B false .int t).toNat) (x.subBits 7 5)
      (intOf true 32 (c.src x .C false .int t).toNat)), 0)

/-! ### Packed dot product and width conversion (R178, R179) -/

def formIdot4 (x : Ext) : Form :=
  { dest := destVec false, srcs := [{ slot := .A, wide := false }, { slot := .B, wide := false }, { slot := .C, wide := false }],
    own1 := 0x400, ty := some [.i8, .n8, .i4, .n4], ty2 := some [.i8, .n8, .i4, .n4],
    own := failIf (x.ty.width != x.ty2.width) 4 }
/-- Element j of a packed word (R183). -/
def element (w v j : Nat) : Nat := v / 2 ^ (w * j) % 2 ^ w
def effIdot4 (x : Ext) (c : Cx) (s : State) : Res :=
  c.result s x false fun t =>
    let a := (c.src x .A false .int t).toNat
    let b := (c.src x .B false .int t).toNat
    let w := x.ty.width
    let v := (List.range (32 / w)).foldl
      (fun acc j => acc + intTy x.ty (element w a j) * intTy x.ty2 (element w b j))
      (intOf true 32 (c.src x .C false .int t).toNat)
    (intResult .i32 (x.bit1 10) v, 0)

def cvtiTypes : List DType := [.i8, .n8, .i16, .n16, .i32, .n32, .i64, .n64]
def formCvti (x : Ext) : Form :=
  { dest := destAny x.ty.wide, srcs := [{ slot := .A, wide := x.ty2.wide }], own1 := 0x400,
    ty := some cvtiTypes, ty2 := some cvtiTypes }
def effCvti (x : Ext) (c : Cx) (s : State) : Res :=
  c.result s x x.ty.wide fun t =>
    let v := intTy x.ty2 (c.src x .A x.ty2.wide .int t).toNat
    let r := if x.bit1 10 then clampTo x.ty v else intTy x.ty (lo v x.ty.width)
    (pat (if x.ty.wide then 64 else 32) r, 0)

/-! ### The instructions -/

/-- IADD (R164). -/
def execIadd (x : Ext) (s : State) : Out := s.issueAlu x.words x (formAddSub x) (effIadd x)
/-- The base form of IADD (R48 02_encoding.md). -/
def execIaddBase (b : Base) (s : State) : Out :=
  s.issueAlu 1 b.two (formAddSub b.two) (effIadd b.two)
/-- ISUB (R164). -/
def execIsub (x : Ext) (s : State) : Out := s.issueAlu x.words x (formAddSub x) (effIsub x)
/-- The base form of ISUB (R48 02_encoding.md). -/
def execIsubBase (b : Base) (s : State) : Out :=
  s.issueAlu 1 b.two (formAddSub b.two) (effIsub b.two)
/-- IADDC (R165). -/
def execIaddc (x : Ext) (s : State) : Out := s.issueAlu x.words x (formCarry x) (effIaddc x)
/-- ISUBB (R165). -/
def execIsubb (x : Ext) (s : State) : Out := s.issueAlu x.words x (formCarry x) (effIsubb x)
/-- IADD3 (R164). -/
def execIadd3 (x : Ext) (s : State) : Out := s.issueAlu x.words x (formIadd3 x) (effIadd3 x)
/-- IMUL (R166). -/
def execImul (x : Ext) (s : State) : Out := s.issueAlu x.words x (formMul x) (effImul x)
/-- The base form of IMUL (R48 02_encoding.md). -/
def execImulBase (b : Base) (s : State) : Out :=
  s.issueAlu 1 b.two (formMul b.two) (effImul b.two)
/-- IMULH (R166). -/
def execImulh (x : Ext) (s : State) : Out := s.issueAlu x.words x (formMul x) (effImulh x)
/-- IMAD (R166). -/
def execImad (x : Ext) (s : State) : Out := s.issueAlu x.words x (formImad x) (effImad x)
/-- IMADW (R166). -/
def execImadw (x : Ext) (s : State) : Out := s.issueAlu x.words x (formImadw x) (effImadw x)
/-- IDIV (R167). -/
def execIdiv (x : Ext) (s : State) : Out := s.issueAlu x.words x (formMul x) (effIdiv x)
/-- IREM (R167). -/
def execIrem (x : Ext) (s : State) : Out := s.issueAlu x.words x (formMul x) (effIrem x)
/-- IMIN (R168). -/
def execImin (x : Ext) (s : State) : Out := s.issueAlu x.words x (formMul x) (effImin x)
/-- The base form of IMIN (R48 02_encoding.md). -/
def execIminBase (b : Base) (s : State) : Out :=
  s.issueAlu 1 b.two (formMul b.two) (effImin b.two)
/-- IMAX (R168). -/
def execImax (x : Ext) (s : State) : Out := s.issueAlu x.words x (formMul x) (effImax x)
/-- The base form of IMAX (R48 02_encoding.md). -/
def execImaxBase (b : Base) (s : State) : Out :=
  s.issueAlu 1 b.two (formMul b.two) (effImax b.two)
/-- IABS (R168). -/
def execIabs (x : Ext) (s : State) : Out := s.issueAlu x.words x (formSign x) (effIabs x)
/-- The base form of IABS (R48 02_encoding.md). -/
def execIabsBase (b : Base) (s : State) : Out :=
  s.issueAlu 1 b.one (formSign b.one) (effIabs b.one)
/-- INEG (R168). -/
def execIneg (x : Ext) (s : State) : Out := s.issueAlu x.words x (formSign x) (effIneg x)
/-- The base form of INEG (R48 02_encoding.md). -/
def execInegBase (b : Base) (s : State) : Out :=
  s.issueAlu 1 b.one (formSign b.one) (effIneg b.one)
/-- ISAT (R169). -/
def execIsat (x : Ext) (s : State) : Out := s.issueAlu x.words x (formIsat x) (effIsat x)
/-- AND (R170). -/
def execAnd (x : Ext) (s : State) : Out := s.issueAlu x.words x (formBits2 x) (effAnd x)
/-- The base form of AND (R48 02_encoding.md). -/
def execAndBase (b : Base) (s : State) : Out :=
  s.issueAlu 1 b.two (formBits2 b.two) (effAnd b.two)
/-- OR (R170). -/
def execOr (x : Ext) (s : State) : Out := s.issueAlu x.words x (formBits2 x) (effOr x)
/-- The base form of OR (R48 02_encoding.md). -/
def execOrBase (b : Base) (s : State) : Out :=
  s.issueAlu 1 b.two (formBits2 b.two) (effOr b.two)
/-- XOR (R170). -/
def execXor (x : Ext) (s : State) : Out := s.issueAlu x.words x (formBits2 x) (effXor x)
/-- The base form of XOR (R48 02_encoding.md). -/
def execXorBase (b : Base) (s : State) : Out :=
  s.issueAlu 1 b.two (formBits2 b.two) (effXor b.two)
/-- ANDN (R170). -/
def execAndn (x : Ext) (s : State) : Out := s.issueAlu x.words x (formBits2 x) (effAndn x)
/-- The base form of ANDN (R48 02_encoding.md). -/
def execAndnBase (b : Base) (s : State) : Out :=
  s.issueAlu 1 b.two (formBits2 b.two) (effAndn b.two)
/-- NOT (R170). -/
def execNot (x : Ext) (s : State) : Out := s.issueAlu x.words x (formBits1 x) (effNot x)
/-- The base form of NOT (R48 02_encoding.md). -/
def execNotBase (b : Base) (s : State) : Out :=
  s.issueAlu 1 b.one (formBits1 b.one) (effNot b.one)
/-- SHL (R171). -/
def execShl (x : Ext) (s : State) : Out := s.issueAlu x.words x (formShift x) (effShl x)
/-- The base form of SHL (R48 02_encoding.md). -/
def execShlBase (b : Base) (s : State) : Out :=
  s.issueAlu 1 b.two (formShift b.two) (effShl b.two)
/-- SHR (R171). -/
def execShr (x : Ext) (s : State) : Out := s.issueAlu x.words x (formShift x) (effShr x)
/-- The base form of SHR (R48 02_encoding.md). -/
def execShrBase (b : Base) (s : State) : Out :=
  s.issueAlu 1 b.two (formShift b.two) (effShr b.two)
/-- SAR (R171). -/
def execSar (x : Ext) (s : State) : Out := s.issueAlu x.words x (formShift x) (effSar x)
/-- The base form of SAR (R48 02_encoding.md). -/
def execSarBase (b : Base) (s : State) : Out :=
  s.issueAlu 1 b.two (formShift b.two) (effSar b.two)
/-- ROTL (R171). -/
def execRotl (x : Ext) (s : State) : Out := s.issueAlu x.words x (formShift x) (effRotl x)
/-- The base form of ROTL (R48 02_encoding.md). -/
def execRotlBase (b : Base) (s : State) : Out :=
  s.issueAlu 1 b.two (formShift b.two) (effRotl b.two)
/-- BFX (R172). -/
def execBfx (x : Ext) (s : State) : Out := s.issueAlu x.words x (formBfx x) (effBfx x)
/-- BFI (R172). -/
def execBfi (x : Ext) (s : State) : Out := s.issueAlu x.words x (formBfi x) (effBfi x)
/-- POPC (R173). -/
def execPopc (x : Ext) (s : State) : Out := s.issueAlu x.words x (formCount x) (effPopc x)
/-- The base form of POPC (R48 02_encoding.md). -/
def execPopcBase (b : Base) (s : State) : Out :=
  s.issueAlu 1 b.one (formCount b.one) (effPopc b.one)
/-- CLZ (R173). -/
def execClz (x : Ext) (s : State) : Out := s.issueAlu x.words x (formCount x) (effClz x)
/-- The base form of CLZ (R48 02_encoding.md). -/
def execClzBase (b : Base) (s : State) : Out :=
  s.issueAlu 1 b.one (formCount b.one) (effClz b.one)
/-- CTZ (R173). -/
def execCtz (x : Ext) (s : State) : Out := s.issueAlu x.words x (formCount x) (effCtz x)
/-- The base form of CTZ (R48 02_encoding.md). -/
def execCtzBase (b : Base) (s : State) : Out :=
  s.issueAlu 1 b.one (formCount b.one) (effCtz b.one)
/-- BREV (R173). -/
def execBrev (x : Ext) (s : State) : Out := s.issueAlu x.words x (formBits1 x) (effBrev x)
/-- The base form of BREV (R48 02_encoding.md). -/
def execBrevBase (b : Base) (s : State) : Out :=
  s.issueAlu 1 b.one (formBits1 b.one) (effBrev b.one)
/-- ISETP (R174). -/
def execIsetp (x : Ext) (s : State) : Out := s.issueAlu x.words x (formIsetp x) (effIsetp x)
/-- ISEL (R175). -/
def execIsel (x : Ext) (s : State) : Out := s.issueAlu x.words x (formIsel x) (effIsel x)
/-- MOV (R176). -/
def execMov (x : Ext) (s : State) : Out := s.issueAlu x.words x (formBits1 x) (effMov x)
/-- The base form of MOV (R48 02_encoding.md). -/
def execMovBase (b : Base) (s : State) : Out :=
  s.issueAlu 1 b.one (formBits1 b.one) (effMov b.one)
/-- MOVI (R176). -/
def execMovi (x : Ext) (s : State) : Out := s.issueAlu x.words x (formMovi x) (effMov x)
/-- LEA (R177). -/
def execLea (x : Ext) (s : State) : Out := s.issueAlu x.words x (formLea x) (effLea x)
/-- IDOT4 (R178). -/
def execIdot4 (x : Ext) (s : State) : Out := s.issueAlu x.words x (formIdot4 x) (effIdot4 x)
/-- CVTI (R179). -/
def execCvti (x : Ext) (s : State) : Out := s.issueAlu x.words x (formCvti x) (effCvti x)

end Machine
end Sys2Proof
end

