-- ==== Sys2Proof/Machine/Convert.lean ====
section
/-! DEFINITION. The conversion instructions (R185, R187, R190 to R200 07_formats.md). -/

namespace Sys2Proof
namespace Machine

/-! ### Companded values (R185, R187) -/

/-- expand(c) for u = c + 128. -/
def expandU (l : Launch) (u : Nat) : Ex :=
  let w := l.cpnd.get 0 (u / 16)
  let b := unpack (fmtOf .bf16) (bits w 31 16)
  let f := u % 16
  if f = 0 then b
  else match unpack (fmtOf .bf16) (bits w 15 0) with
    | .rat s n d => (match addRat b (.rat s (f * n) d) with
      | .rat s n d => if n = 0 then .rat false 0 1 else .rat s n d
      | v => v)
    | v => v

/-- |a - b| of finite values, as a quotient. -/
def distEx (a b : Ex) : Nat × Nat :=
  match addRat a b.flip with
  | .rat _ n d => (n, d)
  | _ => (0, 1)

/-- compress(x): u, and the flags. -/
def compressU (l : Launch) (x : Ex) : Nat × Flags :=
  match x with
  | .nan _ => (128, flagNV)
  | .inf s =>
    ((List.range 256).foldl (fun best u =>
      let better := if s then ltEx (expandU l u) (expandU l best) else ltEx (expandU l best) (expandU l u)
      if better then u else best) 0, flagNV)
  | .rat _ _ _ =>
    let best := (List.range 256).foldl (fun best u =>
      let d := distEx (expandU l u) x
      let e := distEx (expandU l best) x
      if ltMag d.1 d.2 e.1 e.2 then u else best) 0
    (best, if (distEx (expandU l best) x).1 = 0 then 0 else flagNX)

/-! ### Sources -/

def floatTypes : List DType := [.f16, .bf16, .f32, .f64, .e4m3, .e5m2]

/-- A floating-point source field of a type, after ABS and NEG on A, as its bits. -/
def Cx.fltBits (c : Cx) (x : Ext) (sl : Slot) (ty : DType) (t : Nat) : Nat :=
  let v := c.src x sl ty.wide (.flt ty) t
  let v := BitVec.ofNat 64 (v.toNat % 2 ^ ty.width)
  (if sl = .A then negAbsFlt x ty.width v else v).toNat

/-- A floating-point source as an exact value, before any flush. -/
def Cx.flt (c : Cx) (x : Ext) (sl : Slot) (ty : DType) (t : Nat) : Ex := unpack (fmtOf ty) (c.fltBits x sl ty t)

/-- SCL in SUB[10] (R197). -/
def scl (x : Ext) : Bool := x.bit1 10

/-- The scale k of operand B, if there is one. -/
def Cx.scale (c : Cx) (x : Ext) (t : Nat) : Option Ex := if scl x then some (c.flt x .B .f32 t) else none

/-- A source under FZI with the reference format (R190), times its scale (R197), with the flags of special values. -/
def scaled (fzi : Bool) (ref : Fmt) (x : Ex) (k : Option Ex) : Ex × Flags :=
  match k with
  | none => (flushIn fzi ref x, 0)
  | some k =>
    if x.isNan || k.isNan then (.nan false, if x.isSig || k.isSig then flagNV else 0)
    else
      let x := match k with
        | .rat _ n d => if fzi && subnormalIn ref n d x then .rat x.neg 0 1 else x
        | _ => x
      match mulEx x k with
      | some v => (v, 0)
      | none => (.nan false, flagNV)

/-- A dword with the flags of two sources of flags. -/
def withFlags (r : Nat × Flags) (fl : Flags) : Dword × Flags := (BitVec.ofNat 64 r.1, r.2 ||| fl)
def withFlagsInt (w : Nat) (r : Int × Flags) (fl : Flags) : Dword × Flags := (pat w r.1, r.2 ||| fl)

/-- Bits in which an integer of a type is written: a register, or a pair. -/
def regBits (t : DType) : Nat := if t.wide then 64 else 32

/-! ### Forms -/

/-- Common fields (R197): the destination type in SUB[4:0], the source type in SUB[9:5], SCL where the entry accepts it. -/
def formCvt (x : Ext) (dst src : List DType) (canScale rounds neg : Bool) (own : List Nat) : Form :=
  { dest := destAny x.ty.wide,
    srcs := { slot := .A, wide := x.ty2.wide } :: if canScale && scl x then [{ slot := .B, wide := false }] else [],
    own1 := if canScale then 0x400 else 0, rnd := if rounds then .any else .zero,
    ty := some dst, ty2 := some src, neg := neg, own := own }

def formCvtf (x : Ext) : Form := formCvt x floatTypes floatTypes true true true (failIf (x.tcode == x.tcode2) 4)
def formCvtfi (x : Ext) : Form :=
  formCvt x [.i8, .n8, .i16, .n16, .i32, .n32, .i64, .n64, .t2] floatTypes false true true []
def formCvtif (x : Ext) : Form := formCvt x floatTypes intTypes true true false []

/-! ### CVTF, CVTFI, CVTIF (R198) -/

def effCvtf (x : Ext) (c : Cx) (s : State) : Res :=
  c.result s x x.ty.wide fun t =>
    let f := fmtOf x.ty
    let (v, fl) := scaled c.fzi f (c.flt x .A x.ty2 t) (c.scale x t)
    withFlags (toFloat f (c.mode x.rnd) c.fzo v) fl

/-- Float to integer or ternary (R194, R195): the reference format of FZI is the source's (R190). -/
def fltToInt (ty : DType) (mode : Rnd) (v : Ex) : Int × Flags :=
  if ty = .t2 then toTernary mode v else toInt ty mode v

def effCvtfi (x : Ext) (c : Cx) (s : State) : Res :=
  c.result s x x.ty.wide fun t =>
    let v := flushIn c.fzi (fmtOf x.ty2) (c.flt x .A x.ty2 t)
    withFlagsInt (regBits x.ty) (fltToInt x.ty (c.mode x.rnd) v) 0

def effCvtif (x : Ext) (c : Cx) (s : State) : Res :=
  c.result s x x.ty.wide fun t =>
    let f := fmtOf x.ty
    let i := intTy x.ty2 (c.src x .A x.ty2.wide .int t).toNat
    let (v, fl) := scaled c.fzi f (Ex.ofInt i) (c.scale x t)
    withFlags (toFloat f (c.mode x.rnd) c.fzo v) fl

/-! ### PACKN, UNPACKN (R199) -/

/-- J in C[17:14] of word 1. -/
def elementIndex (x : Ext) : Nat := bits x.w1 17 14
def narrowFloat : List DType := [.f16, .bf16, .e4m3, .e5m2]
def narrowInt : List DType := [.i8, .n8, .i4, .n4]

def formPackn (x : Ext) : Form :=
  let fromFloat := x.ty2 == .f32 || x.ty2 == .f64
  let src := if narrowFloat.contains x.ty || x.ty == .c8 then [.f32, .f64] else [.i32, .n32, .f32, .f64]
  { dest := .reg false true true false,
    srcs := { slot := .A, wide := x.ty2.wide } :: if fromFloat && scl x then [{ slot := .B, wide := false }] else [],
    own1 := 0x3C000 + 0x400, rnd := if fromFloat && x.ty != .c8 then .any else .zero,
    ty := some (narrowFloat ++ narrowInt ++ [.c8, .t2]), ty2 := some src, neg := fromFloat,
    own := failIf (decide (32 ≤ elementIndex x * x.ty.width)) 16 ++ failIf (scl x && !fromFloat) 4 }

/-- A value converted to a narrow type (R193 to R195, compress, or a saturated integer). -/
def packValue (c : Cx) (x : Ext) (t : Nat) : Nat × Flags :=
  if x.ty2 = .f32 ∨ x.ty2 = .f64 then
    let ref := if x.ty.isFloat then fmtOf x.ty else fmtOf x.ty2
    let (v, fl) := scaled c.fzi ref (c.flt x .A x.ty2 t) (c.scale x t)
    if x.ty.isFloat then let r := toFloat (fmtOf x.ty) (c.mode x.rnd) c.fzo v; (r.1, r.2 ||| fl)
    else if x.ty = .c8 then let r := compressU c.l v; ((r.1 + 128) % 256, r.2 ||| fl)
    else let r := fltToInt x.ty (c.mode x.rnd) v; (lo r.1 x.ty.width, r.2 ||| fl)
  else
    let i := intTy x.ty2 (c.src x .A false .int t).toNat
    if x.ty = .t2 then (lo (if i < 0 then -1 else if 0 < i then 1 else 0) 2, 0) else (lo (clampTo x.ty i) x.ty.width, 0)

def effPackn (x : Ext) (c : Cx) (s : State) : Res :=
  c.result s x false fun t =>
    let old := (c.ownVal x.d false .int none t).toNat
    let (e, fl) := packValue c x t
    let w := x.ty.width
    let j := elementIndex x
    let high := old / 2 ^ (w * (j + 1)) * 2 ^ (w * (j + 1))
    (BitVec.ofNat 64 (high + e * 2 ^ (w * j) + old % 2 ^ (w * j)), fl)

def formUnpackn (x : Ext) : Form :=
  let toFlt := x.ty == .f32 || x.ty == .f64
  let dst := if narrowFloat.contains x.ty2 || x.ty2 == .c8 then [.f32, .f64] else [.i32, .f32, .f64]
  { dest := destAny x.ty.wide,
    srcs := { slot := .A, wide := false } :: if toFlt && scl x then [{ slot := .B, wide := false }] else [],
    own1 := 0x3C000 + 0x400, rnd := if toFlt && (scl x || x.ty2 == .c8) then .any else .zero,
    ty := some dst, ty2 := some (narrowFloat ++ narrowInt ++ [.c8, .t2]), neg := narrowFloat.contains x.ty2,
    own := failIf (decide (32 ≤ elementIndex x * x.ty2.width)) 16 ++ failIf (scl x && !toFlt) 4 }

/-- A ternary code read (R184): the value, and NV for the reserved code. -/
def ternaryOf (e : Nat) : Int × Flags :=
  match e with
  | 0 => (0, 0)
  | 1 => (1, 0)
  | 3 => (-1, 0)
  | _ => (0, flagNV)

def effUnpackn (x : Ext) (c : Cx) (s : State) : Res :=
  c.result s x x.ty.wide fun t =>
    let w := x.ty2.width
    let view := if x.ty2.isFloat then View.flt x.ty2 else .int
    let e := element w (c.src x .A false view t).toNat (elementIndex x)
    let e := if x.ty2.isFloat then (negAbsFlt x w (BitVec.ofNat 64 e)).toNat else e
    let int := if x.ty2 = .t2 then ternaryOf e else (intTy x.ty2 e, 0)
    if x.ty = .i32 then withFlagsInt 32 int 0
    else
      let f := fmtOf x.ty
      let v := if x.ty2.isFloat then unpack (fmtOf x.ty2) e
        else if x.ty2 = .c8 then expandU c.l ((e + 128) % 256) else Ex.ofInt int.1
      let (v, fl) := scaled c.fzi f v (c.scale x t)
      withFlags (toFloat f (c.mode x.rnd) c.fzo v) (fl ||| (if x.ty2 = .t2 then int.2 else 0))

/-! ### QCOMP, QEXP (R200) -/

def formQcomp (x : Ext) : Form := formCvt x [.c8] [.f16, .bf16, .f32, .f64] true false true []
def effQcomp (x : Ext) (c : Cx) (s : State) : Res :=
  c.result s x false fun t =>
    let (v, fl) := scaled c.fzi (fmtOf x.ty2) (c.flt x .A x.ty2 t) (c.scale x t)
    let (u, fl') := compressU c.l v
    (pat32 ((u : Int) - 128), fl ||| fl')

def formQexp (x : Ext) : Form := formCvt x [.f16, .bf16, .f32, .f64] [.c8] false true false []
def effQexp (x : Ext) (c : Cx) (s : State) : Res :=
  c.result s x x.ty.wide fun t =>
    let f := fmtOf x.ty
    let code := (c.src x .A false .int t).toNat % 256
    let v := flushIn c.fzi f (expandU c.l ((code + 128) % 256))
    withFlags (toFloat f (c.mode x.rnd) c.fzo v) 0

/-! ### The instructions -/

/-- CVTF (R198). -/
def execCvtf (x : Ext) (s : State) : Out := s.issueAlu x.words x (formCvtf x) (effCvtf x)
/-- CVTFI (R198). -/
def execCvtfi (x : Ext) (s : State) : Out := s.issueAlu x.words x (formCvtfi x) (effCvtfi x)
/-- CVTIF (R198). -/
def execCvtif (x : Ext) (s : State) : Out := s.issueAlu x.words x (formCvtif x) (effCvtif x)
/-- PACKN (R199): D is also a source. -/
def execPackn (x : Ext) (s : State) : Out :=
  s.issue x.words (fun c => formFails x (formPackn x) ++ dynFails c x (formPackn x))
    (fun c => c.markFault ({ code := x.d, mod := 0, regs := 1 } :: formUses x (formPackn x)) (c.threads x.p)
      ((formPackn x).dest.isUni x.d))
    (fun c s => 
      if c.uniHeld (holdUses x (formPackn x)) || c.awaitHeld ({ code := x.d, mod := 0, regs := 1 } :: formUses x (formPackn x)) then .hold
      else effPackn x c s)
/-- UNPACKN (R199). -/
def execUnpackn (x : Ext) (s : State) : Out := s.issueAlu x.words x (formUnpackn x) (effUnpackn x)
/-- QCOMP (R200). -/
def execQcomp (x : Ext) (s : State) : Out := s.issueAlu x.words x (formQcomp x) (effQcomp x)
/-- QEXP (R200). -/
def execQexp (x : Ext) (s : State) : Out := s.issueAlu x.words x (formQexp x) (effQexp x)

end Machine
end Sys2Proof
end

