-- ==== Sys2Proof/Machine/Float.lean ====
section
/-! DEFINITION. Floating-point pipe (R202 to R221 08_float.md). -/

namespace Sys2Proof
namespace Machine

def fltTypes : List DType := [.f32, .f64]

/-! ### Forms -/

def rndIf (rounds : Bool) : RndUse := if rounds then .any else .zero

/-- One source (R208). -/
def formFlt1 (x : Ext) (own1 : Nat) (rounds neg : Bool) : Form :=
  { dest := destAny x.ty.wide, srcs := [{ slot := .A, wide := x.ty.wide }], own1 := own1, rnd := rndIf rounds,
    ty := some fltTypes, neg := neg }
/-- Two sources; `l` admits class L. -/
def formFlt2 (x : Ext) (l : Bool) (own1 : Nat) (rounds neg : Bool) : Form :=
  { literal := l, dest := destAny x.ty.wide,
    srcs := [{ slot := .A, wide := x.ty.wide }, { slot := .B, wide := x.ty.wide }], own1 := own1, rnd := rndIf rounds,
    ty := some fltTypes, neg := neg }

def formArith (x : Ext) : Form := formFlt2 x true 0 true true
def formMinMax (x : Ext) : Form := formFlt2 x true 0 false true
def formFfma (x : Ext) : Form :=
  { literal := true, dest := destAny x.ty.wide, rnd := .any, ty := some fltTypes, neg := true,
    srcs := [{ slot := .A, wide := x.ty.wide }, { slot := .B, wide := x.ty.wide }, { slot := .C, wide := x.ty.wide }] }

/-! ### Arithmetic (R209) on exact inputs -/

/-- What rounding and flushing an instruction works under. -/
structure FpEnv where
  mode : Rnd
  fzi : Bool
  fzo : Bool
deriving DecidableEq, Repr

def Cx.env (c : Cx) (x : Ext) : FpEnv := ⟨c.mode x.rnd, c.fzi, c.fzo⟩

/-- A source of the operand type, flushed under R205. -/
def Cx.fin (c : Cx) (x : Ext) (sl : Slot) (t : Nat) : Ex := flushIn c.fzi (fmtOf x.ty) (c.flt x sl x.ty t)

def faddOf (f : Fmt) (e : FpEnv) (a b : Ex) : Nat × Flags :=
  if a.isNan || b.isNan then nanres f [a, b] false else fsum [a, b] f e.mode e.fzo
def fmulOf (f : Fmt) (e : FpEnv) (a b : Ex) : Nat × Flags :=
  if a.isNan || b.isNan then nanres f [a, b] false
  else match mulEx a b with
    | some p => fsum [p] f e.mode e.fzo
    | none => (f.nan, flagNV)
/-- a x b + c, rounded once (R209). -/
def ffmaOf (f : Fmt) (e : FpEnv) (a b c : Ex) : Nat × Flags :=
  if a.isNan || b.isNan || c.isNan then nanres f [a, b, c] (infZero a b)
  else match mulEx a b with
    | some p => fsum [p, c] f e.mode e.fzo
    | none => (f.nan, flagNV)

def dw (r : Nat × Flags) : Dword × Flags := (BitVec.ofNat 64 r.1, r.2)

def effFlt1 (x : Ext) (op : Fmt → FpEnv → Ex → Nat × Flags) (c : Cx) (s : State) : Res :=
  c.result s x x.ty.wide fun t => dw (op (fmtOf x.ty) (c.env x) (c.fin x .A t))
def effFlt2 (x : Ext) (op : Fmt → FpEnv → Ex → Ex → Nat × Flags) (c : Cx) (s : State) : Res :=
  c.result s x x.ty.wide fun t => dw (op (fmtOf x.ty) (c.env x) (c.fin x .A t) (c.fin x .B t))

def effFadd (x : Ext) : Cx → State → Res := effFlt2 x faddOf
def effFsub (x : Ext) : Cx → State → Res := effFlt2 x fun f e a b => faddOf f e a b.flip
def effFmul (x : Ext) : Cx → State → Res := effFlt2 x fmulOf
def effFfma (x : Ext) (c : Cx) (s : State) : Res :=
  c.result s x x.ty.wide fun t => dw (ffmaOf (fmtOf x.ty) (c.env x) (c.fin x .A t) (c.fin x .B t) (c.fin x .C t))

/-! ### Division and roots (R210) -/

/-- A quotient of finite nonzero values. -/
def quot (s : Bool) (n d m e : Nat) : Ex := .rat s (n * e) (d * m)

def fdivOf (f : Fmt) (e : FpEnv) (a b : Ex) : Nat × Flags :=
  if a.isNan || b.isNan then nanres f [a, b] false
  else
    let sg := a.neg != b.neg
    match a, b with
    | .inf _, .inf _ => (f.nan, flagNV)
    | .inf _, .rat _ _ _ => (f.inf sg, 0)
    | .rat _ _ _, .inf _ => (f.signBit sg, 0)
    | .rat _ n d, .rat _ m k =>
      if m = 0 then (if n = 0 then (f.nan, flagNV) else (f.inf sg, flagDZ))
      else if n = 0 then (f.signBit sg, 0)
      else round f e.mode e.fzo (quot sg n d m k)
    | _, _ => (f.nan, 0)

/-- Fraction bits beyond which no rounding of the format looks. -/
def Fmt.fine (f : Fmt) : Nat := f.bias + f.t + 4

def fsqrtOf (f : Fmt) (e : FpEnv) (a : Ex) : Nat × Flags :=
  match a with
  | .nan _ => nanres f [a] false
  | .inf s => if s then (f.nan, flagNV) else (f.inf false, 0)
  | .rat s n d =>
    if n = 0 then (f.signBit s, 0)
    else if s then (f.nan, flagNV)
    else round f e.mode e.fzo (rootEx 2 n d f.fine)

def frcpOf (f : Fmt) (e : FpEnv) (a : Ex) : Nat × Flags :=
  match a with
  | .nan _ => nanres f [a] false
  | .inf s => (f.signBit s, 0)
  | .rat s n d => if n = 0 then (f.inf s, flagDZ) else round f e.mode e.fzo (.rat s d n)

def frsqOf (f : Fmt) (e : FpEnv) (a : Ex) : Nat × Flags :=
  match a with
  | .nan _ => nanres f [a] false
  | .inf s => if s then (f.nan, flagNV) else (f.signBit false, 0)
  | .rat s n d =>
    if n = 0 then (f.inf s, flagDZ)
    else if s then (f.nan, flagNV)
    else round f e.mode e.fzo (rootEx 2 d n f.fine)

def effFdiv (x : Ext) : Cx → State → Res := effFlt2 x fdivOf
def effFsqrt (x : Ext) : Cx → State → Res := effFlt1 x fsqrtOf
def effFrcp (x : Ext) : Cx → State → Res := effFlt1 x frcpOf
def effFrsq (x : Ext) : Cx → State → Res := effFlt1 x frsqOf
def formFdiv (x : Ext) : Form := formFlt2 x true 0 true true
def formRound1 (x : Ext) : Form := formFlt1 x 0 true true

/-! ### Minimum and maximum (R211) -/

/-- Bits of a value that is no NaN and that the format represents. -/
def exactBits (f : Fmt) (x : Ex) : Nat := (round f .rne false x).1

/-- a below b, with -0 below +0. -/
def belowEx (a b : Ex) : Bool := ltEx a b || (eqEx a b && a.neg && !b.neg)

/-- FMIN, FMAX (`num`) and FMINM, FMAXM; `mx` selects the larger. -/
def minMaxOf (num mx : Bool) (f : Fmt) (_ : FpEnv) (a b : Ex) : Nat × Flags :=
  let pick := if belowEx a b != mx then a else b
  if a.isNan && b.isNan then nanres f [a, b] false
  else if a.isNan then (if num then (exactBits f b, if a.isSig then flagNV else 0) else nanres f [a, b] false)
  else if b.isNan then (if num then (exactBits f a, if b.isSig then flagNV else 0) else nanres f [a, b] false)
  else (exactBits f pick, 0)

def effFmin (x : Ext) : Cx → State → Res := effFlt2 x (minMaxOf true false)
def effFmax (x : Ext) : Cx → State → Res := effFlt2 x (minMaxOf true true)
def effFminm (x : Ext) : Cx → State → Res := effFlt2 x (minMaxOf false false)
def effFmaxm (x : Ext) : Cx → State → Res := effFlt2 x (minMaxOf false true)

/-! ### Sign, selection, classification (R212 to R214) -/

def formFsign (x : Ext) : Form := formFlt1 x 0 false false
def formFcpsgn (x : Ext) : Form := formFlt2 x false 0 false false
def signOf (ty : DType) (v : Nat) : Nat := v / 2 ^ (ty.width - 1) % 2
def effFabs (x : Ext) (c : Cx) (s : State) : Res :=
  c.result s x x.ty.wide fun t => (BitVec.ofNat 64 (c.fltBits x .A x.ty t % 2 ^ (x.ty.width - 1)), 0)
def effFneg (x : Ext) (c : Cx) (s : State) : Res :=
  c.result s x x.ty.wide fun t =>
    let v := c.fltBits x .A x.ty t
    (BitVec.ofNat 64 (v % 2 ^ (x.ty.width - 1) + (1 - signOf x.ty v) * 2 ^ (x.ty.width - 1)), 0)
def effFcpsgn (x : Ext) (c : Cx) (s : State) : Res :=
  c.result s x x.ty.wide fun t =>
    let v := c.fltBits x .A x.ty t
    (BitVec.ofNat 64 (v % 2 ^ (x.ty.width - 1) + signOf x.ty (c.fltBits x .B x.ty t) * 2 ^ (x.ty.width - 1)), 0)

def formFsel (x : Ext) : Form := formSelect x fltTypes
def effFsel (x : Ext) : Cx → State → Res := effSelect x (.flt x.ty)

def formFclass (x : Ext) : Form :=
  { dest := destAny false, srcs := [{ slot := .A, wide := x.ty.wide }], ty := some fltTypes, neg := true }
/-- The class bit of an encoding (R214). -/
def classOf (f : Fmt) (v : Nat) : Nat :=
  match unpack f v with
  | .nan sig => if sig then 0 else 1
  | .inf s => if s then 2 else 9
  | .rat s n _ =>
    if n = 0 then (if s then 5 else 6)
    else if v / 2 ^ f.t % 2 ^ f.eb = 0 then (if s then 4 else 7)
    else (if s then 3 else 8)
def effFclass (x : Ext) (c : Cx) (s : State) : Res :=
  c.result s x false fun t => (BitVec.ofNat 64 (2 ^ classOf (fmtOf x.ty) (c.fltBits x .A x.ty t)), 0)

/-! ### Comparison (R215) -/

/-- A nonzero PB with CMB = 00 breaks the entry's own rule (log 54). -/
def formFsetp (x : Ext) : Form :=
  { literal := true, dest := .own 0x00F, srcs := [{ slot := .A, wide := x.ty.wide }, { slot := .B, wide := x.ty.wide }],
    own1 := 0x3C000 + 0x7E0, ty := some fltTypes, neg := true,
    own := failIf (x.d.toNat % 16 == 0) 16 ++
      failIf (x.bit1 10 && (decide (x.subBits 7 5 < 2) || decide (5 < x.subBits 7 5))) 16 ++
      failIf (x.subBits 9 8 == 0 && decide (bits x.w1 17 14 ≠ 0)) 16 }

def fltCond (cnd : Nat) (u : Bool) (a b : Ex) : Bool :=
  match cnd with
  | 0 => !u && eqEx a b | 1 => u || !eqEx a b | 2 => !u && ltEx a b | 3 => !u && !ltEx b a | 4 => !u && ltEx b a
  | 5 => !u && !ltEx a b | 6 => !u | _ => u

def effFsetp (x : Ext) (c : Cx) (s : State) : Res :=
  let cnd := x.subBits 7 5
  c.predResult s (x.d.toNat % 16) x.p fun t =>
    let a := c.fin x .A t
    let b := c.fin x .B t
    let u := a.isNan || b.isNan
    (combine (x.subBits 9 8) (fltCond cnd u a b) (c.g.predBit t (bits x.w1 17 14)),
      if a.isSig || b.isSig || (u && decide (2 ≤ cnd) && decide (cnd ≤ 5) && !x.bit1 10) then flagNV else 0)

/-! ### Integral values, scaling, exponent, remainder (R216 to R219) -/

def formFrint (x : Ext) : Form := formFlt1 x 0x20 true true
/-- FRINT: X = `exact` raises NX; FZO does not apply. -/
def frintOf (exact : Bool) (f : Fmt) (e : FpEnv) (a : Ex) : Nat × Flags :=
  match a with
  | .nan _ => nanres f [a] false
  | .inf s => (f.inf s, 0)
  | .rat s n d =>
    let (k, ix) := roundGrid s n d 0 e.mode
    ((round f e.mode false (.rat s k 1)).1, if ix && exact then flagNX else 0)
def effFrint (x : Ext) : Cx → State → Res := effFlt1 x (frintOf (x.bit1 5))

def formFscale (x : Ext) : Form :=
  { dest := destAny x.ty.wide, srcs := [{ slot := .A, wide := x.ty.wide }, { slot := .B, wide := false }], rnd := .any,
    ty := some fltTypes, neg := true }
/-- FSCALE by 2^n. Past 5,000 in magnitude every further power gives the same rounding of a finite nonzero value. -/
def fscaleOf (f : Fmt) (e : FpEnv) (a : Ex) (n : Int) : Nat × Flags :=
  match a with
  | .nan _ => nanres f [a] false
  | .inf s => (f.inf s, 0)
  | .rat s m d =>
    if m = 0 then (f.signBit s, 0)
    else
      let p := pow2 (if n < -5000 then -5000 else if 5000 < n then 5000 else n)
      let v := Ex.rat s (m * p.1) (d * p.2)
      if e.fzi && subnormalIn f 1 1 v then (f.signBit s, 0) else round f e.mode e.fzo v
def effFscale (x : Ext) (c : Cx) (s : State) : Res :=
  c.result s x x.ty.wide fun t =>
    dw (fscaleOf (fmtOf x.ty) (c.env x) (c.flt x .A x.ty t) (intOf true 32 (c.src x .B false .int t).toNat))

def formFgexp (x : Ext) : Form := formFlt1 x 0 false true
def fgexpOf (f : Fmt) (_ : FpEnv) (a : Ex) : Nat × Flags :=
  match a with
  | .nan _ => nanres f [a] false
  | .inf _ => (f.inf false, 0)
  | .rat _ n d => if n = 0 then (f.inf true, flagDZ) else (exactBits f (Ex.ofInt (leadExp n d)), 0)
def effFgexp (x : Ext) : Cx → State → Res := effFlt1 x fgexpOf

def formFgmant (x : Ext) : Form := formFlt1 x 0x20 false true
def fgmantOf (half : Bool) (f : Fmt) (_ : FpEnv) (a : Ex) : Nat × Flags :=
  match a with
  | .nan _ => nanres f [a] false
  | .inf _ => (f.nan, flagNV)
  | .rat s n d =>
    if n = 0 then (f.signBit s, 0)
    else
      let p := pow2 (-(leadExp n d) - if half then 1 else 0)
      (exactBits f (.rat s (n * p.1) (d * p.2)), 0)
def effFgmant (x : Ext) : Cx → State → Res := effFlt1 x (fgmantOf (x.bit1 5))

def formFrem (x : Ext) : Form := formFlt2 x true 0x20 false true
/-- FREM; `tr` truncates the quotient (R219). -/
def fremOf (tr : Bool) (f : Fmt) (e : FpEnv) (a b : Ex) : Nat × Flags :=
  if a.isNan || b.isNan then nanres f [a, b] false
  else match a, b with
    | .inf _, _ => (f.nan, flagNV)
    | .rat s n d, .inf _ => round f .rne e.fzo (.rat s n d)
    | .rat s n d, .rat _ m k =>
      if m = 0 then (f.nan, flagNV)
      else
        -- magnitudes over one denominator: n k / (d k) and m d / (d k)
        let a' := n * k
        let b' := m * d
        let q := a' / b'
        let r := a' % b'
        let up := !tr && (decide (b' < 2 * r) || (decide (2 * r = b') && q % 2 == 1))
        if r = 0 then (f.signBit s, 0)
        else if up then round f .rne e.fzo (.rat (!s) (b' - r) (d * k))
        else round f .rne e.fzo (.rat s r (d * k))
    | _, _ => (f.nan, 0)
def effFrem (x : Ext) : Cx → State → Res := effFlt2 x (fremOf (x.bit1 5))

/-! ### Packed 16-bit arithmetic (R220, R221) -/

def formPacked (_x : Ext) (three : Bool) : Form :=
  { literal := true, dest := destAny false, rnd := .any, ty := some [.f16, .bf16], neg := true,
    srcs := [{ slot := .A, wide := false }, { slot := .B, wide := false }] ++
      if three then [{ slot := .C, wide := false }] else [] }

/-- ABS and NEG on both halves of a packed word (R204). -/
def negAbsPacked (x : Ext) (v : Nat) : Nat :=
  let v := if x.abs then v &&& 0x7FFF7FFF else v
  if x.neg then v ^^^ 0x80008000 else v

/-- Element j of a packed source of element type ty, flushed with a reference format. -/
def Cx.half (c : Cx) (x : Ext) (sl : Slot) (ty : DType) (ref : Fmt) (t j : Nat) : Ex :=
  let v := (c.src x sl false (.packed ty) t).toNat
  let v := if sl = .A then negAbsPacked x v else v
  flushIn c.fzi ref (unpack (fmtOf ty) (element 16 v j))

def effPacked (x : Ext) (op : Fmt → FpEnv → Ex → Ex → Ex → Nat × Flags) (c : Cx) (s : State) : Res :=
  c.result s x false fun t =>
    let f := fmtOf x.ty
    let e := fun j => op f (c.env x) (c.half x .A x.ty f t j) (c.half x .B x.ty f t j) (c.half x .C x.ty f t j)
    (BitVec.ofNat 64 ((e 0).1 + (e 1).1 * 2 ^ 16), (e 0).2 ||| (e 1).2)
def effHadd2 (x : Ext) : Cx → State → Res := effPacked x fun f e a b _ => faddOf f e a b
def effHmul2 (x : Ext) : Cx → State → Res := effPacked x fun f e a b _ => fmulOf f e a b
def effHfma2 (x : Ext) : Cx → State → Res := effPacked x ffmaOf
def formHalf2 (x : Ext) : Form := formPacked x false
def formHfma2 (x : Ext) : Form := formPacked x true

def formHdot2 (_x : Ext) : Form :=
  { literal := true, dest := destAny false, rnd := .any, ty := some [.f32], ty2 := some [.f16, .bf16], neg := true,
    srcs := [{ slot := .A, wide := false }, { slot := .B, wide := false }, { slot := .C, wide := false }] }
def effHdot2 (x : Ext) (c : Cx) (s : State) : Res :=
  c.result s x false fun t =>
    let f := fmtOf .f32
    let a := fun j => c.half x .A x.ty2 f t j
    let b := fun j => c.half x .B x.ty2 f t j
    let k := flushIn c.fzi f (c.flt x .C .f32 t)
    let ins := [a 0, a 1, b 0, b 1, k]
    dw (if ins.any Ex.isNan then nanres f ins (infZero (a 0) (b 0) || infZero (a 1) (b 1))
      else match mulEx (a 0) (b 0), mulEx (a 1) (b 1) with
        | some p, some q => fsum [p, q, k] f (c.mode x.rnd) c.fzo
        | _, _ => (f.nan, flagNV))

/-! ### The instructions -/

/-- FADD (R209). -/
def execFadd (x : Ext) (s : State) : Out := s.issueAlu x.words x (formArith x) (effFadd x)
/-- The base form of FADD (R48 02_encoding.md). -/
def execFaddBase (b : Base) (s : State) : Out :=
  s.issueAlu 1 b.two (formArith b.two) (effFadd b.two)
/-- FSUB (R209). -/
def execFsub (x : Ext) (s : State) : Out := s.issueAlu x.words x (formArith x) (effFsub x)
/-- The base form of FSUB (R48 02_encoding.md). -/
def execFsubBase (b : Base) (s : State) : Out :=
  s.issueAlu 1 b.two (formArith b.two) (effFsub b.two)
/-- FMUL (R209). -/
def execFmul (x : Ext) (s : State) : Out := s.issueAlu x.words x (formArith x) (effFmul x)
/-- The base form of FMUL (R48 02_encoding.md). -/
def execFmulBase (b : Base) (s : State) : Out :=
  s.issueAlu 1 b.two (formArith b.two) (effFmul b.two)
/-- FFMA (R209). -/
def execFfma (x : Ext) (s : State) : Out := s.issueAlu x.words x (formFfma x) (effFfma x)
/-- FMIN (R211). -/
def execFmin (x : Ext) (s : State) : Out := s.issueAlu x.words x (formMinMax x) (effFmin x)
/-- The base form of FMIN (R48 02_encoding.md). -/
def execFminBase (b : Base) (s : State) : Out :=
  s.issueAlu 1 b.two (formMinMax b.two) (effFmin b.two)
/-- FMAX (R211). -/
def execFmax (x : Ext) (s : State) : Out := s.issueAlu x.words x (formMinMax x) (effFmax x)
/-- The base form of FMAX (R48 02_encoding.md). -/
def execFmaxBase (b : Base) (s : State) : Out :=
  s.issueAlu 1 b.two (formMinMax b.two) (effFmax b.two)
/-- FMINM (R211). -/
def execFminm (x : Ext) (s : State) : Out := s.issueAlu x.words x (formMinMax x) (effFminm x)
/-- The base form of FMINM (R48 02_encoding.md). -/
def execFminmBase (b : Base) (s : State) : Out :=
  s.issueAlu 1 b.two (formMinMax b.two) (effFminm b.two)
/-- FMAXM (R211). -/
def execFmaxm (x : Ext) (s : State) : Out := s.issueAlu x.words x (formMinMax x) (effFmaxm x)
/-- The base form of FMAXM (R48 02_encoding.md). -/
def execFmaxmBase (b : Base) (s : State) : Out :=
  s.issueAlu 1 b.two (formMinMax b.two) (effFmaxm b.two)
/-- FABS (R212). -/
def execFabs (x : Ext) (s : State) : Out := s.issueAlu x.words x (formFsign x) (effFabs x)
/-- The base form of FABS (R48 02_encoding.md). -/
def execFabsBase (b : Base) (s : State) : Out :=
  s.issueAlu 1 b.one (formFsign b.one) (effFabs b.one)
/-- FNEG (R212). -/
def execFneg (x : Ext) (s : State) : Out := s.issueAlu x.words x (formFsign x) (effFneg x)
/-- The base form of FNEG (R48 02_encoding.md). -/
def execFnegBase (b : Base) (s : State) : Out :=
  s.issueAlu 1 b.one (formFsign b.one) (effFneg b.one)
/-- FCPSGN (R212). -/
def execFcpsgn (x : Ext) (s : State) : Out := s.issueAlu x.words x (formFcpsgn x) (effFcpsgn x)
/-- The base form of FCPSGN (R48 02_encoding.md). -/
def execFcpsgnBase (b : Base) (s : State) : Out :=
  s.issueAlu 1 b.two (formFcpsgn b.two) (effFcpsgn b.two)
/-- FSETP (R215). -/
def execFsetp (x : Ext) (s : State) : Out := s.issueAlu x.words x (formFsetp x) (effFsetp x)
/-- FSEL (R213). -/
def execFsel (x : Ext) (s : State) : Out := s.issueAlu x.words x (formFsel x) (effFsel x)
/-- FCLASS (R214). -/
def execFclass (x : Ext) (s : State) : Out := s.issueAlu x.words x (formFclass x) (effFclass x)
/-- FDIV (R210). -/
def execFdiv (x : Ext) (s : State) : Out := s.issueAlu x.words x (formFdiv x) (effFdiv x)
/-- FSQRT (R210). -/
def execFsqrt (x : Ext) (s : State) : Out := s.issueAlu x.words x (formRound1 x) (effFsqrt x)
/-- The base form of FSQRT (R48 02_encoding.md). -/
def execFsqrtBase (b : Base) (s : State) : Out :=
  s.issueAlu 1 b.one (formRound1 b.one) (effFsqrt b.one)
/-- FRCP (R210). -/
def execFrcp (x : Ext) (s : State) : Out := s.issueAlu x.words x (formRound1 x) (effFrcp x)
/-- The base form of FRCP (R48 02_encoding.md). -/
def execFrcpBase (b : Base) (s : State) : Out :=
  s.issueAlu 1 b.one (formRound1 b.one) (effFrcp b.one)
/-- FRSQ (R210). -/
def execFrsq (x : Ext) (s : State) : Out := s.issueAlu x.words x (formRound1 x) (effFrsq x)
/-- The base form of FRSQ (R48 02_encoding.md). -/
def execFrsqBase (b : Base) (s : State) : Out :=
  s.issueAlu 1 b.one (formRound1 b.one) (effFrsq b.one)
/-- FRINT (R216). -/
def execFrint (x : Ext) (s : State) : Out := s.issueAlu x.words x (formFrint x) (effFrint x)
/-- FSCALE (R217). -/
def execFscale (x : Ext) (s : State) : Out := s.issueAlu x.words x (formFscale x) (effFscale x)
/-- FGEXP (R218). -/
def execFgexp (x : Ext) (s : State) : Out := s.issueAlu x.words x (formFgexp x) (effFgexp x)
/-- The base form of FGEXP (R48 02_encoding.md). -/
def execFgexpBase (b : Base) (s : State) : Out :=
  s.issueAlu 1 b.one (formFgexp b.one) (effFgexp b.one)
/-- FGMANT (R218). -/
def execFgmant (x : Ext) (s : State) : Out := s.issueAlu x.words x (formFgmant x) (effFgmant x)
/-- FREM (R219). -/
def execFrem (x : Ext) (s : State) : Out := s.issueAlu x.words x (formFrem x) (effFrem x)
/-- HADD2 (R220). -/
def execHadd2 (x : Ext) (s : State) : Out := s.issueAlu x.words x (formHalf2 x) (effHadd2 x)
/-- The base form of HADD2 (R48 02_encoding.md). -/
def execHadd2Base (b : Base) (s : State) : Out :=
  s.issueAlu 1 b.two (formHalf2 b.two) (effHadd2 b.two)
/-- HMUL2 (R220). -/
def execHmul2 (x : Ext) (s : State) : Out := s.issueAlu x.words x (formHalf2 x) (effHmul2 x)
/-- The base form of HMUL2 (R48 02_encoding.md). -/
def execHmul2Base (b : Base) (s : State) : Out :=
  s.issueAlu 1 b.two (formHalf2 b.two) (effHmul2 b.two)
/-- HFMA2 (R220). -/
def execHfma2 (x : Ext) (s : State) : Out := s.issueAlu x.words x (formHfma2 x) (effHfma2 x)
/-- HDOT2 (R221). -/
def execHdot2 (x : Ext) (s : State) : Out := s.issueAlu x.words x (formHdot2 x) (effHdot2 x)

end Machine
end Sys2Proof
end

