-- ==== Sys2Proof/Decode.lean ====
section
/-! DEFINITION. Decoding, total on any bytes, and the encoder beside it, both from the opcode map (R44, R45, R69, R76, R77
02_encoding.md). What the decoder turns away it names; the machine takes the illegal-instruction trap for it (R78). -/

namespace Sys2Proof

/-- Why bytes are no instruction of the opcode map. -/
inductive DecodeError where
  /-- Fewer bytes than the instruction has. -/
  | short
  /-- The major opcode is unassigned (R77). -/
  | opcode (op : Nat)
  /-- The opcode does not admit the class that LEN names (R45, R76). -/
  | length (op len : Nat)
  /-- QSYNC and MIGR: an operation the entry does not define (R285). -/
  | operation (op sub : Nat)
deriving DecidableEq, Repr

/-- LEN[31:30] of word 0 (R44). -/
def lenOf (w : Word) : Nat := bits w 31 30
/-- OP[29:22] of word 0 (R44). -/
def opOf (w : Word) : Nat := bits w 29 22
/-- How many words the instruction has (R44). -/
def wordsOf (w : Word) : Nat := 1 + 2 * lenOf w

def baseOf (w : Word) : Base :=
  { d := BitVec.ofNat 8 (bits w 21 14), a := BitVec.ofNat 8 (bits w 13 6), m := BitVec.ofNat 6 (bits w 5 0) }

/-- The extended form's fields; a literal stands in words 3 and 4 of a 5-word instruction, low half first (R44). -/
def extOf (w : Nat → Word) : Ext :=
  { d := BitVec.ofNat 9 (bits (w 0) 21 13), a := BitVec.ofNat 9 (bits (w 0) 12 4), p := BitVec.ofNat 4 (bits (w 0) 3 0),
    w1 := w 1, w2 := w 2,
    lit := if lenOf (w 0) = 2 then some (BitVec.ofNat 64 ((w 4).toNat * 2 ^ 32 + (w 3).toNat)) else none }

def recOf (w : Nat → Word) : Rec :=
  { d := BitVec.ofNat 9 (bits (w 0) 21 13), a := BitVec.ofNat 9 (bits (w 0) 12 4), p := BitVec.ofNat 4 (bits (w 0) 3 0),
    w1 := w 1, w2 := w 2, r0 := w 3, r1 := w 4, r2 := w 5, r3 := w 6 }

def trailerOf (w : Nat → Word) : Trailer :=
  { cond := BitVec.ofNat 2 (bits (w 0) 18 17), pred := BitVec.ofNat 4 (bits (w 0) 16 13),
    xf := BitVec.ofNat 8 (bits (w 0) 12 5), naw := BitVec.ofNat 3 (bits (w 0) 4 2),
    low := BitVec.ofNat 2 (bits (w 0) 1 0), w1 := w 1, w2 := w 2 }

/-- Classes B, E and L as an opcode admits them; `none` where it does not admit the class. -/
def classed (op : Nat) (w : Nat → Word) (b : Option (Base → Instr)) (e : Option (Ext → Instr)) (l : Option (Ext → Instr)) :
    Except DecodeError Instr :=
  match lenOf (w 0) with
  | 0 => match b with
    | some f => .ok (f (baseOf (w 0)))
    | none => .error (.length op 0)
  | 1 => match e with
    | some f => .ok (f (extOf w))
    | none => .error (.length op 1)
  | 2 => match l with
    | some f => .ok (f (extOf w))
    | none => .error (.length op 2)
  | n => .error (.length op n)

/-- Class R only. -/
def recorded (op : Nat) (w : Nat → Word) (f : Rec → Instr) : Except DecodeError Instr :=
  if lenOf (w 0) = 3 then .ok (f (recOf w)) else .error (.length op (lenOf (w 0)))

/-- RUNEND: KIND[21:19] (R69, R70). -/
def runendOf (w : Nat → Word) : Except DecodeError Instr :=
  if lenOf (w 0) = 1 then
    match bits (w 0) 21 19 with
    | 0 => .ok (.runendFall (trailerOf w))
    | 1 => .ok (.runendBra (trailerOf w))
    | 2 => .ok (.runendBrc (trailerOf w))
    | 3 => .ok (.runendJmp (trailerOf w))
    | 4 => .ok (.runendCall (trailerOf w))
    | 5 => .ok (.runendRet (trailerOf w))
    | 6 => .ok (.runendExit (trailerOf w))
    | _ => .ok (.runendYield (trailerOf w))
  else .error (.length 0 (lenOf (w 0)))

/-- QSYNC: SUB[1:0] selects the operation (R285 12_translation.md). -/
def qsyncOf (w : Nat → Word) : Except DecodeError Instr :=
  match bits (w 1) 1 0 with
  | 0 => classed 0xb9 w none (some .qsyncWait) none
  | 1 => classed 0xb9 w none (some .qsyncPut) none
  | 2 => classed 0xb9 w none (some .qsyncTake) none
  | n => .error (.operation 0xb9 n)

/-- MIGR: SUB[1:0] selects the operation (R285 12_translation.md). -/
def migrOf (w : Nat → Word) : Except DecodeError Instr :=
  match bits (w 1) 1 0 with
  | 0 => classed 0xba w none (some .migrMove) none
  | 1 => classed 0xba w none (some .migrScrub) none
  | n => .error (.operation 0xba n)

/-- Opcodes 0x0 to 0x3f (R76). -/
def decodeOp0 (op : Nat) (w : Nat → Word) : Except DecodeError Instr :=
  match op with
  | 0x0 => runendOf w
  | 0x1 => classed 0x1 w (some .nopBase) (some .nop) none
  | 0x2 => classed 0x2 w none (some .exmrd) none
  | 0x3 => classed 0x3 w none (some .exmwr) none
  | 0x4 => classed 0x4 w none (some .mmkrd) none
  | 0x5 => classed 0x5 w none (some .mmkwr) none
  | 0x6 => classed 0x6 w none (some .lprrd) none
  | 0x7 => classed 0x7 w none (some .lprwr) none
  | 0x8 => classed 0x8 w none (some .pmov) none
  | 0x9 => classed 0x9 w none (some .pand) none
  | 0xa => classed 0xa w none (some .por) none
  | 0xb => classed 0xb w none (some .pxor) none
  | 0xc => classed 0xc w none (some .pnot) none
  | 0xd => classed 0xd w none (some .pandn) none
  | 0xe => classed 0xe w none (some .pcnt) none
  | 0xf => classed 0xf w none (some .pfirst) none
  | 0x10 => classed 0x10 w none (some .waitc) none
  | 0x11 => classed 0x11 w none (some .bar) none
  | 0x12 => classed 0x12 w none (some .trap) none
  | 0x13 => classed 0x13 w none (some .srrd) none
  | 0x14 => classed 0x14 w none (some .srwr) none
  | 0x15 => classed 0x15 w none (some .flgrd) none
  | 0x16 => classed 0x16 w none (some .flgclr) none
  | 0x17 => classed 0x17 w none (some .fpmode) none
  | 0x18 => classed 0x18 w none (some .sleep) none
  | 0x19 => classed 0x19 w none (some .clkrd) none
  | 0x1a => classed 0x1a w none (some .idrd) none
  | 0x20 => classed 0x20 w none (some .vote) none
  | 0x21 => classed 0x21 w none (some .ballot) none
  | 0x22 => classed 0x22 w none (some .treduce) none
  | 0x23 => classed 0x23 w none (some .tscan) none
  | 0x28 => classed 0x28 w (some .iaddBase) (some .iadd) (some .iadd)
  | 0x29 => classed 0x29 w (some .isubBase) (some .isub) (some .isub)
  | 0x2a => classed 0x2a w none (some .iaddc) none
  | 0x2b => classed 0x2b w none (some .isubb) none
  | 0x2c => classed 0x2c w none (some .iadd3) (some .iadd3)
  | 0x2d => classed 0x2d w (some .imulBase) (some .imul) (some .imul)
  | 0x2e => classed 0x2e w none (some .imulh) (some .imulh)
  | 0x2f => classed 0x2f w none (some .imad) (some .imad)
  | 0x30 => classed 0x30 w none (some .imadw) (some .imadw)
  | 0x31 => classed 0x31 w none (some .idiv) (some .idiv)
  | 0x32 => classed 0x32 w none (some .irem) (some .irem)
  | 0x33 => classed 0x33 w (some .iminBase) (some .imin) (some .imin)
  | 0x34 => classed 0x34 w (some .imaxBase) (some .imax) (some .imax)
  | 0x35 => classed 0x35 w (some .iabsBase) (some .iabs) none
  | 0x36 => classed 0x36 w (some .inegBase) (some .ineg) none
  | 0x37 => classed 0x37 w none (some .isat) none
  | 0x38 => classed 0x38 w (some .andBase) (some .and) (some .and)
  | 0x39 => classed 0x39 w (some .orBase) (some .or) (some .or)
  | 0x3a => classed 0x3a w (some .xorBase) (some .xor) (some .xor)
  | 0x3b => classed 0x3b w (some .andnBase) (some .andn) (some .andn)
  | 0x3c => classed 0x3c w (some .notBase) (some .not) none
  | 0x3d => classed 0x3d w (some .shlBase) (some .shl) (some .shl)
  | 0x3e => classed 0x3e w (some .shrBase) (some .shr) (some .shr)
  | 0x3f => classed 0x3f w (some .sarBase) (some .sar) (some .sar)
  | _ => .error (.opcode op)

/-- Opcodes 0x40 to 0x7f (R76). -/
def decodeOp1 (op : Nat) (w : Nat → Word) : Except DecodeError Instr :=
  match op with
  | 0x40 => classed 0x40 w (some .rotlBase) (some .rotl) (some .rotl)
  | 0x41 => classed 0x41 w none (some .bfx) (some .bfx)
  | 0x42 => classed 0x42 w none (some .bfi) (some .bfi)
  | 0x43 => classed 0x43 w (some .popcBase) (some .popc) none
  | 0x44 => classed 0x44 w (some .clzBase) (some .clz) none
  | 0x45 => classed 0x45 w (some .ctzBase) (some .ctz) none
  | 0x46 => classed 0x46 w (some .brevBase) (some .brev) none
  | 0x47 => classed 0x47 w none (some .isetp) (some .isetp)
  | 0x48 => classed 0x48 w none (some .isel) none
  | 0x49 => classed 0x49 w (some .movBase) (some .mov) none
  | 0x4a => classed 0x4a w none none (some .movi)
  | 0x4b => classed 0x4b w none (some .lea) (some .lea)
  | 0x4c => classed 0x4c w none (some .idot4) none
  | 0x4d => classed 0x4d w none (some .cvti) none
  | 0x50 => classed 0x50 w none (some .cvtf) none
  | 0x51 => classed 0x51 w none (some .cvtfi) none
  | 0x52 => classed 0x52 w none (some .cvtif) none
  | 0x53 => classed 0x53 w none (some .packn) none
  | 0x54 => classed 0x54 w none (some .unpackn) none
  | 0x55 => classed 0x55 w none (some .qcomp) none
  | 0x56 => classed 0x56 w none (some .qexp) none
  | 0x60 => classed 0x60 w (some .faddBase) (some .fadd) (some .fadd)
  | 0x61 => classed 0x61 w (some .fsubBase) (some .fsub) (some .fsub)
  | 0x62 => classed 0x62 w (some .fmulBase) (some .fmul) (some .fmul)
  | 0x63 => classed 0x63 w none (some .ffma) (some .ffma)
  | 0x64 => classed 0x64 w (some .fminBase) (some .fmin) (some .fmin)
  | 0x65 => classed 0x65 w (some .fmaxBase) (some .fmax) (some .fmax)
  | 0x66 => classed 0x66 w (some .fminmBase) (some .fminm) (some .fminm)
  | 0x67 => classed 0x67 w (some .fmaxmBase) (some .fmaxm) (some .fmaxm)
  | 0x68 => classed 0x68 w (some .fabsBase) (some .fabs) none
  | 0x69 => classed 0x69 w (some .fnegBase) (some .fneg) none
  | 0x6a => classed 0x6a w (some .fcpsgnBase) (some .fcpsgn) none
  | 0x6b => classed 0x6b w none (some .fsetp) (some .fsetp)
  | 0x6c => classed 0x6c w none (some .fsel) none
  | 0x6d => classed 0x6d w none (some .fclass) none
  | 0x6e => classed 0x6e w none (some .fdiv) (some .fdiv)
  | 0x6f => classed 0x6f w (some .fsqrtBase) (some .fsqrt) none
  | 0x70 => classed 0x70 w (some .frcpBase) (some .frcp) none
  | 0x71 => classed 0x71 w (some .frsqBase) (some .frsq) none
  | 0x72 => classed 0x72 w none (some .frint) none
  | 0x73 => classed 0x73 w none (some .fscale) none
  | 0x74 => classed 0x74 w (some .fgexpBase) (some .fgexp) none
  | 0x75 => classed 0x75 w none (some .fgmant) none
  | 0x76 => classed 0x76 w none (some .frem) (some .frem)
  | 0x77 => classed 0x77 w (some .hadd2Base) (some .hadd2) (some .hadd2)
  | 0x78 => classed 0x78 w (some .hmul2Base) (some .hmul2) (some .hmul2)
  | 0x79 => classed 0x79 w none (some .hfma2) (some .hfma2)
  | 0x7a => classed 0x7a w none (some .hdot2) (some .hdot2)
  | _ => .error (.opcode op)

/-- Opcodes 0x80 to 0xbf (R76). -/
def decodeOp2 (op : Nat) (w : Nat → Word) : Except DecodeError Instr :=
  match op with
  | 0x80 => classed 0x80 w (some .fexpBase) (some .fexp) none
  | 0x81 => classed 0x81 w (some .fexp2Base) (some .fexp2) none
  | 0x82 => classed 0x82 w (some .fexpm1Base) (some .fexpm1) none
  | 0x83 => classed 0x83 w (some .flogBase) (some .flog) none
  | 0x84 => classed 0x84 w (some .flog2Base) (some .flog2) none
  | 0x85 => classed 0x85 w (some .flog1pBase) (some .flog1p) none
  | 0x86 => classed 0x86 w (some .ferfBase) (some .ferf) none
  | 0x87 => classed 0x87 w (some .ferfcBase) (some .ferfc) none
  | 0x88 => classed 0x88 w (some .fsinpiBase) (some .fsinpi) none
  | 0x89 => classed 0x89 w (some .fcospiBase) (some .fcospi) none
  | 0x8a => classed 0x8a w (some .ftanhBase) (some .ftanh) none
  | 0x8b => classed 0x8b w (some .fcbrtBase) (some .fcbrt) none
  | 0x8c => classed 0x8c w none (some .rand) none
  | 0x8d => classed 0x8d w none (some .dropm) none
  | 0x8e => classed 0x8e w none (some .hmix) none
  | 0x90 => classed 0x90 w none (some .ld) (some .ld)
  | 0x91 => classed 0x91 w none (some .st) (some .st)
  | 0x92 => classed 0x92 w none (some .ldu) (some .ldu)
  | 0x93 => classed 0x93 w none (some .ldp) (some .ldp)
  | 0x94 => classed 0x94 w none (some .stp) (some .stp)
  | 0x95 => classed 0x95 w none (some .pref) (some .pref)
  | 0x96 => classed 0x96 w none (some .ldna) (some .ldna)
  | 0x97 => classed 0x97 w none (some .stna) (some .stna)
  | 0xa8 => classed 0xa8 w none (some .atom) (some .atom)
  | 0xa9 => classed 0xa9 w none (some .atomcas) (some .atomcas)
  | 0xaa => classed 0xaa w none (some .aimg) none
  | 0xab => classed 0xab w none (some .signal) (some .signal)
  | 0xac => classed 0xac w none (some .observe) none
  | 0xad => classed 0xad w none (some .monitor) none
  | 0xae => classed 0xae w none (some .mwait) none
  | 0xb8 => classed 0xb8 w none (some .tlbinv) none
  | 0xb9 => qsyncOf w
  | 0xba => migrOf w
  | 0xbb => classed 0xbb w none (some .pgqry) none
  | _ => .error (.opcode op)

/-- Opcodes 0xc0 to 0xff (R76). -/
def decodeOp3 (op : Nat) (w : Nat → Word) : Except DecodeError Instr :=
  match op with
  | 0xc0 => recorded 0xc0 w .tcopy
  | 0xc1 => recorded 0xc1 w .hcopy
  | 0xc2 => classed 0xc2 w none (some .tiledef) none
  | 0xc3 => classed 0xc3 w none (some .tileq) none
  | 0xc4 => classed 0xc4 w none (some .tilerel) none
  | 0xc5 => recorded 0xc5 w .tiledrn
  | 0xc6 => classed 0xc6 w none (some .tfill) (some .tfill)
  | 0xc8 => classed 0xc8 w none (some .spawn) none
  | 0xc9 => classed 0xc9 w none (some .await) none
  | 0xca => classed 0xca w none (some .awaitn) none
  | 0xcb => classed 0xcb w none (some .frmrd) none
  | 0xcc => classed 0xcc w none (some .frmwr) none
  | 0xcd => classed 0xcd w none (some .chcnt) none
  | 0xce => classed 0xce w none (some .launch) none
  | 0xd0 => classed 0xd0 w none (some .xclr) none
  | 0xd1 => classed 0xd1 w none (some .xadd) none
  | 0xd2 => classed 0xd2 w none (some .xfma) none
  | 0xd3 => classed 0xd3 w none (some .xmrg) none
  | 0xd4 => classed 0xd4 w none (some .xrnd) none
  | 0xd5 => classed 0xd5 w none (some .xst) (some .xst)
  | 0xd6 => classed 0xd6 w none (some .xld) (some .xld)
  | 0xd7 => classed 0xd7 w none (some .xstat) none
  | 0xd8 => recorded 0xd8 w .mcfg
  | 0xd9 => recorded 0xd9 w .mldb
  | 0xda => recorded 0xda w .mldbw
  | 0xdb => recorded 0xdb w .mma
  | 0xdc => classed 0xdc w none (some .mzero) none
  | 0xdd => recorded 0xdd w .mdrn
  | 0xde => classed 0xde w none (some .mstat) none
  | 0xdf => recorded 0xdf w .wswr
  | 0xe0 => recorded 0xe0 w .wsrd
  | 0xe1 => classed 0xe1 w none (some .wsqry) none
  | 0xe4 => classed 0xe4 w none (some .msplit) none
  | 0xe5 => classed 0xe5 w none (some .rjoin) none
  | 0xe6 => classed 0xe6 w none (some .repack) none
  | 0xe8 => classed 0xe8 w none (some .msumx) none
  | 0xe9 => classed 0xe9 w none (some .mmean) none
  | 0xea => classed 0xea w none (some .msprd) none
  | 0xeb => classed 0xeb w none (some .mqnt) none
  | 0xec => classed 0xec w none (some .mrank) none
  | 0xed => classed 0xed w none (some .mhist) none
  | 0xee => recorded 0xee w .ccoll
  | 0xf0 => recorded 0xf0 w .rcopy
  | 0xf1 => classed 0xf1 w none (some .rsignal) (some .rsignal)
  | 0xf2 => classed 0xf2 w none (some .ratom) (some .ratom)
  | 0xf3 => classed 0xf3 w none (some .lnkq) none
  | _ => .error (.opcode op)

/-- The instruction whose words are `w` 0, `w` 1, and so on (R76). -/
def decodeWords (w : Nat → Word) : Except DecodeError Instr :=
  match opOf (w 0) / 64 with
  | 0 => decodeOp0 (opOf (w 0)) w
  | 1 => decodeOp1 (opOf (w 0)) w
  | 2 => decodeOp2 (opOf (w 0)) w
  | _ => decodeOp3 (opOf (w 0)) w

/-- Four bytes as a word, the lowest address first (R2). -/
def wordAt (b : List Byte) (k : Nat) : Word :=
  BitVec.ofNat 32 ((b.getD (4 * k) 0).toNat + (b.getD (4 * k + 1) 0).toNat * 2 ^ 8
    + (b.getD (4 * k + 2) 0).toNat * 2 ^ 16 + (b.getD (4 * k + 3) 0).toNat * 2 ^ 24)

/-- The bytes of a word, the lowest address first (R2). -/
def wordBytes (w : Word) : List Byte :=
  [BitVec.ofNat 8 (bits w 7 0), BitVec.ofNat 8 (bits w 15 8), BitVec.ofNat 8 (bits w 23 16), BitVec.ofNat 8 (bits w 31 24)]

/-- Decode the instruction at the head of `b`, and what follows it. -/
def decode (b : List Byte) : Except DecodeError (Instr × List Byte) :=
  if b.length < 4 then .error .short
  else if b.length < 4 * wordsOf (wordAt b 0) then .error .short
  else match decodeWords (wordAt b) with
    | .ok i => .ok (i, b.drop (4 * wordsOf (wordAt b 0)))
    | .error e => .error e

/-! ### The encoder -/

/-- Word 0 of a base form (R46). -/
def baseWord (op : Nat) (x : Base) : Word :=
  BitVec.ofNat 32 (op * 2 ^ 22 + x.d.toNat * 2 ^ 14 + x.a.toNat * 2 ^ 6 + x.m.toNat)

/-- Words of an extended form (R44, R49). -/
def extWords (op : Nat) (x : Ext) : List Word :=
  let w0 (len : Nat) := BitVec.ofNat 32 (len * 2 ^ 30 + op * 2 ^ 22 + x.d.toNat * 2 ^ 13 + x.a.toNat * 2 ^ 4 + x.p.toNat)
  match x.lit with
  | none => [w0 1, x.w1, x.w2]
  | some v => [w0 2, x.w1, x.w2, BitVec.ofNat 32 (bits v 31 0), BitVec.ofNat 32 (bits v 63 32)]

/-- Words of a record form (R44, R60). -/
def recWords (op : Nat) (x : Rec) : List Word :=
  [BitVec.ofNat 32 (3 * 2 ^ 30 + op * 2 ^ 22 + x.d.toNat * 2 ^ 13 + x.a.toNat * 2 ^ 4 + x.p.toNat),
    x.w1, x.w2, x.r0, x.r1, x.r2, x.r3]

/-- Words of a trailer (R69). -/
def trailerWords (k : Nat) (t : Trailer) : List Word :=
  [BitVec.ofNat 32 (2 ^ 30 + k * 2 ^ 19 + t.cond.toNat * 2 ^ 17 + t.pred.toNat * 2 ^ 13 + t.xf.toNat * 2 ^ 5
    + t.naw.toNat * 2 ^ 2 + t.low.toNat), t.w1, t.w2]

/-- The words of an instruction; an event has none. -/
def encode : Instr → List Word
  | .runendFall t => trailerWords 0 t
  | .runendBra t => trailerWords 1 t
  | .runendBrc t => trailerWords 2 t
  | .runendJmp t => trailerWords 3 t
  | .runendCall t => trailerWords 4 t
  | .runendRet t => trailerWords 5 t
  | .runendExit t => trailerWords 6 t
  | .runendYield t => trailerWords 7 t
  | .nop x => extWords 0x1 x
  | .nopBase b => [baseWord 0x1 b]
  | .exmrd x => extWords 0x2 x
  | .exmwr x => extWords 0x3 x
  | .mmkrd x => extWords 0x4 x
  | .mmkwr x => extWords 0x5 x
  | .lprrd x => extWords 0x6 x
  | .lprwr x => extWords 0x7 x
  | .pmov x => extWords 0x8 x
  | .pand x => extWords 0x9 x
  | .por x => extWords 0xa x
  | .pxor x => extWords 0xb x
  | .pnot x => extWords 0xc x
  | .pandn x => extWords 0xd x
  | .pcnt x => extWords 0xe x
  | .pfirst x => extWords 0xf x
  | .waitc x => extWords 0x10 x
  | .bar x => extWords 0x11 x
  | .trap x => extWords 0x12 x
  | .srrd x => extWords 0x13 x
  | .srwr x => extWords 0x14 x
  | .flgrd x => extWords 0x15 x
  | .flgclr x => extWords 0x16 x
  | .fpmode x => extWords 0x17 x
  | .sleep x => extWords 0x18 x
  | .clkrd x => extWords 0x19 x
  | .idrd x => extWords 0x1a x
  | .vote x => extWords 0x20 x
  | .ballot x => extWords 0x21 x
  | .treduce x => extWords 0x22 x
  | .tscan x => extWords 0x23 x
  | .iadd x => extWords 0x28 x
  | .iaddBase b => [baseWord 0x28 b]
  | .isub x => extWords 0x29 x
  | .isubBase b => [baseWord 0x29 b]
  | .iaddc x => extWords 0x2a x
  | .isubb x => extWords 0x2b x
  | .iadd3 x => extWords 0x2c x
  | .imul x => extWords 0x2d x
  | .imulBase b => [baseWord 0x2d b]
  | .imulh x => extWords 0x2e x
  | .imad x => extWords 0x2f x
  | .imadw x => extWords 0x30 x
  | .idiv x => extWords 0x31 x
  | .irem x => extWords 0x32 x
  | .imin x => extWords 0x33 x
  | .iminBase b => [baseWord 0x33 b]
  | .imax x => extWords 0x34 x
  | .imaxBase b => [baseWord 0x34 b]
  | .iabs x => extWords 0x35 x
  | .iabsBase b => [baseWord 0x35 b]
  | .ineg x => extWords 0x36 x
  | .inegBase b => [baseWord 0x36 b]
  | .isat x => extWords 0x37 x
  | .and x => extWords 0x38 x
  | .andBase b => [baseWord 0x38 b]
  | .or x => extWords 0x39 x
  | .orBase b => [baseWord 0x39 b]
  | .xor x => extWords 0x3a x
  | .xorBase b => [baseWord 0x3a b]
  | .andn x => extWords 0x3b x
  | .andnBase b => [baseWord 0x3b b]
  | .not x => extWords 0x3c x
  | .notBase b => [baseWord 0x3c b]
  | .shl x => extWords 0x3d x
  | .shlBase b => [baseWord 0x3d b]
  | .shr x => extWords 0x3e x
  | .shrBase b => [baseWord 0x3e b]
  | .sar x => extWords 0x3f x
  | .sarBase b => [baseWord 0x3f b]
  | .rotl x => extWords 0x40 x
  | .rotlBase b => [baseWord 0x40 b]
  | .bfx x => extWords 0x41 x
  | .bfi x => extWords 0x42 x
  | .popc x => extWords 0x43 x
  | .popcBase b => [baseWord 0x43 b]
  | .clz x => extWords 0x44 x
  | .clzBase b => [baseWord 0x44 b]
  | .ctz x => extWords 0x45 x
  | .ctzBase b => [baseWord 0x45 b]
  | .brev x => extWords 0x46 x
  | .brevBase b => [baseWord 0x46 b]
  | .isetp x => extWords 0x47 x
  | .isel x => extWords 0x48 x
  | .mov x => extWords 0x49 x
  | .movBase b => [baseWord 0x49 b]
  | .movi x => extWords 0x4a x
  | .lea x => extWords 0x4b x
  | .idot4 x => extWords 0x4c x
  | .cvti x => extWords 0x4d x
  | .cvtf x => extWords 0x50 x
  | .cvtfi x => extWords 0x51 x
  | .cvtif x => extWords 0x52 x
  | .packn x => extWords 0x53 x
  | .unpackn x => extWords 0x54 x
  | .qcomp x => extWords 0x55 x
  | .qexp x => extWords 0x56 x
  | .fadd x => extWords 0x60 x
  | .faddBase b => [baseWord 0x60 b]
  | .fsub x => extWords 0x61 x
  | .fsubBase b => [baseWord 0x61 b]
  | .fmul x => extWords 0x62 x
  | .fmulBase b => [baseWord 0x62 b]
  | .ffma x => extWords 0x63 x
  | .fmin x => extWords 0x64 x
  | .fminBase b => [baseWord 0x64 b]
  | .fmax x => extWords 0x65 x
  | .fmaxBase b => [baseWord 0x65 b]
  | .fminm x => extWords 0x66 x
  | .fminmBase b => [baseWord 0x66 b]
  | .fmaxm x => extWords 0x67 x
  | .fmaxmBase b => [baseWord 0x67 b]
  | .fabs x => extWords 0x68 x
  | .fabsBase b => [baseWord 0x68 b]
  | .fneg x => extWords 0x69 x
  | .fnegBase b => [baseWord 0x69 b]
  | .fcpsgn x => extWords 0x6a x
  | .fcpsgnBase b => [baseWord 0x6a b]
  | .fsetp x => extWords 0x6b x
  | .fsel x => extWords 0x6c x
  | .fclass x => extWords 0x6d x
  | .fdiv x => extWords 0x6e x
  | .fsqrt x => extWords 0x6f x
  | .fsqrtBase b => [baseWord 0x6f b]
  | .frcp x => extWords 0x70 x
  | .frcpBase b => [baseWord 0x70 b]
  | .frsq x => extWords 0x71 x
  | .frsqBase b => [baseWord 0x71 b]
  | .frint x => extWords 0x72 x
  | .fscale x => extWords 0x73 x
  | .fgexp x => extWords 0x74 x
  | .fgexpBase b => [baseWord 0x74 b]
  | .fgmant x => extWords 0x75 x
  | .frem x => extWords 0x76 x
  | .hadd2 x => extWords 0x77 x
  | .hadd2Base b => [baseWord 0x77 b]
  | .hmul2 x => extWords 0x78 x
  | .hmul2Base b => [baseWord 0x78 b]
  | .hfma2 x => extWords 0x79 x
  | .hdot2 x => extWords 0x7a x
  | .fexp x => extWords 0x80 x
  | .fexpBase b => [baseWord 0x80 b]
  | .fexp2 x => extWords 0x81 x
  | .fexp2Base b => [baseWord 0x81 b]
  | .fexpm1 x => extWords 0x82 x
  | .fexpm1Base b => [baseWord 0x82 b]
  | .flog x => extWords 0x83 x
  | .flogBase b => [baseWord 0x83 b]
  | .flog2 x => extWords 0x84 x
  | .flog2Base b => [baseWord 0x84 b]
  | .flog1p x => extWords 0x85 x
  | .flog1pBase b => [baseWord 0x85 b]
  | .ferf x => extWords 0x86 x
  | .ferfBase b => [baseWord 0x86 b]
  | .ferfc x => extWords 0x87 x
  | .ferfcBase b => [baseWord 0x87 b]
  | .fsinpi x => extWords 0x88 x
  | .fsinpiBase b => [baseWord 0x88 b]
  | .fcospi x => extWords 0x89 x
  | .fcospiBase b => [baseWord 0x89 b]
  | .ftanh x => extWords 0x8a x
  | .ftanhBase b => [baseWord 0x8a b]
  | .fcbrt x => extWords 0x8b x
  | .fcbrtBase b => [baseWord 0x8b b]
  | .rand x => extWords 0x8c x
  | .dropm x => extWords 0x8d x
  | .hmix x => extWords 0x8e x
  | .ld x => extWords 0x90 x
  | .st x => extWords 0x91 x
  | .ldu x => extWords 0x92 x
  | .ldp x => extWords 0x93 x
  | .stp x => extWords 0x94 x
  | .pref x => extWords 0x95 x
  | .ldna x => extWords 0x96 x
  | .stna x => extWords 0x97 x
  | .atom x => extWords 0xa8 x
  | .atomcas x => extWords 0xa9 x
  | .aimg x => extWords 0xaa x
  | .signal x => extWords 0xab x
  | .observe x => extWords 0xac x
  | .monitor x => extWords 0xad x
  | .mwait x => extWords 0xae x
  | .tlbinv x => extWords 0xb8 x
  | .qsyncWait x => extWords 0xb9 x
  | .qsyncPut x => extWords 0xb9 x
  | .qsyncTake x => extWords 0xb9 x
  | .migrMove x => extWords 0xba x
  | .migrScrub x => extWords 0xba x
  | .pgqry x => extWords 0xbb x
  | .tcopy x => recWords 0xc0 x
  | .hcopy x => recWords 0xc1 x
  | .tiledef x => extWords 0xc2 x
  | .tileq x => extWords 0xc3 x
  | .tilerel x => extWords 0xc4 x
  | .tiledrn x => recWords 0xc5 x
  | .tfill x => extWords 0xc6 x
  | .spawn x => extWords 0xc8 x
  | .await x => extWords 0xc9 x
  | .awaitn x => extWords 0xca x
  | .frmrd x => extWords 0xcb x
  | .frmwr x => extWords 0xcc x
  | .chcnt x => extWords 0xcd x
  | .launch x => extWords 0xce x
  | .xclr x => extWords 0xd0 x
  | .xadd x => extWords 0xd1 x
  | .xfma x => extWords 0xd2 x
  | .xmrg x => extWords 0xd3 x
  | .xrnd x => extWords 0xd4 x
  | .xst x => extWords 0xd5 x
  | .xld x => extWords 0xd6 x
  | .xstat x => extWords 0xd7 x
  | .mcfg x => recWords 0xd8 x
  | .mldb x => recWords 0xd9 x
  | .mldbw x => recWords 0xda x
  | .mma x => recWords 0xdb x
  | .mzero x => extWords 0xdc x
  | .mdrn x => recWords 0xdd x
  | .mstat x => extWords 0xde x
  | .wswr x => recWords 0xdf x
  | .wsrd x => recWords 0xe0 x
  | .wsqry x => extWords 0xe1 x
  | .msplit x => extWords 0xe4 x
  | .rjoin x => extWords 0xe5 x
  | .repack x => extWords 0xe6 x
  | .msumx x => extWords 0xe8 x
  | .mmean x => extWords 0xe9 x
  | .msprd x => extWords 0xea x
  | .mqnt x => extWords 0xeb x
  | .mrank x => extWords 0xec x
  | .mhist x => extWords 0xed x
  | .ccoll x => recWords 0xee x
  | .rcopy x => recWords 0xf0 x
  | .rsignal x => extWords 0xf1 x
  | .ratom x => extWords 0xf2 x
  | .lnkq x => extWords 0xf3 x
  | .waitcReturn => []
  | .counterStallRelease => []
  | .barRelease => []
  | .sleepExpire => []
  | .loadDataArrival => []
  | .writePerformedAtHome => []
  | .guestInvalidationProbe => []
  | .probeAnswer => []
  | .directoryEviction => []
  | .visibilityTimeReached => []
  | .l1WritebackDeadline => []
  | .l1Eviction => []
  | .atomicAtExecutor => []
  | .aimgAtExecutor => []
  | .signalDepart => []
  | .signalArriveExecutor => []
  | .signalPerform => []
  | .mwaitWake => []
  | .mwaitTimeout => []
  | .hostLineTake => []
  | .tlbinvDieInvalidate => []
  | .tlbinvAcknowledgement => []
  | .qsyncWaitComplete => []
  | .migrComplete => []
  | .tileStallRelease => []
  | .copyOperationComplete => []
  | .binSlotArrival => []
  | .binTimerExpire => []
  | .binGroupForm => []
  | .spawnedGroupPlacement => []
  | .childComplete => []
  | .awaitConditionMet => []
  | .awaitYieldTimeout => []
  | .matrixInstructionStart => []
  | .matrixOperationComplete => []
  | .tarnRefreshWindow => []
  | .weightStoreLineAccess => []
  | .rjoinMerge => []
  | .regroupDeadlock => []
  | .repackExecute => []
  | .ccollMatched => []
  | .ccollComplete => []
  | .peerInboundOperation => []
  | .remoteAcknowledgement => []
  | .remoteTimeout => []
  | .linkFlitReplay => []
  | .linkLaneLoss => []
  | .linkRetrainComplete => []
  | .hostCxlMemAccess => []
  | .qgo => []
  | .qctlPreempt => []
  | .qctlWithdraw => []
  | .qctlResume => []
  | .qctlEnd => []
  | .astbaseWrite => []
  | .hwbaseWrite => []
  | .hwlenWrite => []
  | .registerWrite => []
  | .dispatchChoice => []
  | .blockRetire => []
  | .blockRelease => []
  | .preemptQuantum => []
  | .groupSave => []
  | .launchTrapReport => []
  | .launchCompletion => []
  | .coreLoss => []
  | .launchRestart => []
  | .hbmChannelLoss => []
  | .baseDieLoss => []
  | .powerOnBringup => []
  | .governorSample => []
  | .report => []
  | .quote => []
  | .offline => []
  | .window => []
  | .stage => []
  | .reset => []
  | .doorbellUnknownCommand => []
  | .otherCauseWakeEvent => []
  | .guestCopyEviction => []
  | .mailboxCommandEnd => []

/-- The bytes of an instruction in memory (R2, R44). -/
def encodeBytes (i : Instr) : List Byte := (encode i).flatMap wordBytes

/-- Bytes of a number, the least significant first. -/
def natBytes : Nat → Nat → List Byte
  | 0, _ => []
  | n + 1, v => BitVec.ofNat 8 v :: natBytes n (v / 256)

/-- The instruction the decoder reads from the bits `w`, every bit above `nbits` zero. -/
def decodeTableWord (nbits w : Nat) : Option Instr :=
  match decode (natBytes 28 (w % 2 ^ nbits)) with
  | .ok (i, _) => some i
  | .error _ => none

end Sys2Proof
end

