-- ==== Sys2Proof/Machine/Memory.lean ====
section
/-! DEFINITION. Physical memory and the walk of the tables (R278 to R284 12_translation.md), and the caches, homes, guest copies
and write requests through which every access passes (R247 to R255 10_loadstore.md). -/

namespace Sys2Proof
namespace Machine

/-! ### Bytes at their homes -/

/-- Where the byte at a physical address stands, while a page moves or not (R290). -/
def State.place (s : State) (pa : Nat) : Nat := 64 * s.fwd (pa / 64) + pa % 64
/-- A byte of physical memory, and several in ascending order; forwarding applies. -/
def State.byteAt (s : State) (pa : Nat) : Byte := SMap.get 0 s.mem (s.place pa)
def State.bytesAt (s : State) (pa n : Nat) : List Byte := (List.range n).map fun i => s.byteAt (pa + i)
/-- Write bytes given by physical address. -/
def State.putBytes (s : State) (l : List (Nat × Byte)) : State :=
  { s with mem := l.foldl (fun m p => SMap.set 0 m p.1 p.2) s.mem }
/-- The 64 bytes that stand in a line. A home line is one as `fwd` names it; L1s, guest copies, write requests and staged writes name
home lines. -/
def State.homeLine (s : State) (line : Nat) : List Byte := (List.range 64).map fun i => SMap.get 0 s.mem (64 * line + i)
/-- The 64 bytes of a line at its home. -/
def State.lineAt (s : State) (line : Nat) : List Byte := s.homeLine (s.fwd line)

/-- Lay bytes by offset over the bytes of a line. -/
def overlay (bytes : SMap Byte) (l : List Byte) : List Byte :=
  (List.range l.length).map fun i => match bytes.find? fun k => k.1 == i with
    | some k => k.2
    | none => l.getD i 0

/-- Does a host link carry anything now (R449 20_links.md)? -/
def State.hostPath (s : State) : Bool := s.hosts.any fun p => p.width != 0 && p.next.isNone
/-- Has the device a path to a line? Host memory lies behind the host links (R449). -/
def State.pathTo (s : State) (line : Nat) : Bool := decide (line / 2 ^ 38 ≠ 8) || s.hostPath

/-! ### The walk (R279 to R283) -/

def levelShift (level : Nat) : Nat := [16, 21, 30, 36, 46].getD level 46
def levelBits (level : Nat) : Nat := [5, 9, 6, 10, 11].getD level 11

/-- A leaf as the walk finds it, with the physical address of the byte. -/
structure Leaf where
  pa : Nat
  level : Nat
  pl : Nat
  psn : Bool
  msa : Bool
  mr : Bool
  prv : Bool
  ex : Bool
  wr : Bool
  rd : Bool
  mg : Bool
  chip : Nat
  frame : Nat
  /-- Where the leaf itself stands. -/
  slot : Nat
deriving DecidableEq, Repr

/-- What a walk comes to: a leaf, or the cause and DETAIL it fails with, and the table's line where its check value fails. Cause 0 is
no failure: the walk waits for a path to its table (R449). -/
inductive Walked where
  | leaf (l : Leaf)
  | fails (cause detail : Nat) (line : Nat := 0)
deriving DecidableEq, Repr

/-- Do `n` bytes from a frame address lie in regions that the placement allows, at offsets in use (R276, R282)? -/
def State.frameOk (s : State) (pl pa n : Nat) : Bool :=
  let r := pa / 2 ^ 44
  let inside := (s.home pa).isSome && (s.home (pa + n - 1)).isSome && (pa + n - 1) / 2 ^ 44 == r
  match pl with
  | 0 => r == 0 && inside
  | 1 => decide (1 ≤ r) && decide (r ≤ 4) && inside
  | 2 => (r == 5 || r == 6 || r == 8) && inside
  | _ => true

/-- May a table of `n` bytes stand there (R282)? -/
def State.tableOk (s : State) (pa n : Nat) : Bool :=
  (s.home pa).isSome && (s.home (pa + n - 1)).isSome && decide (pa / 2 ^ 44 ≤ 8)

/-- A valid entry breaks the format of its level (R282). A pointer at level 0 has no table to name (log 21). -/
def State.entryBad (s : State) (level : Nat) (w0 w1 : Dword) : Bool :=
  let addr := bits w0 51 9 * 2 ^ 9
  if bitAt w0 1 then
    let page := 2 ^ levelShift level
    decide (bits w0 63 52 ≠ 0) || decide (level = 4) || decide (bits w1 63 28 ≠ 0) || decide (bits w1 15 5 ≠ 0) ||
    decide (bits w1 3 2 ≠ level) || decide (addr % page ≠ 0) ||
    (decide (bits w1 1 0 ≠ 3) && decide (bits w1 27 16 ≠ 0)) ||
    !s.frameOk (bits w1 1 0) addr (if bitAt w0 6 then 8 * page else page)
  else
    decide (bits w0 63 52 ≠ 0) || decide (bits w0 8 2 ≠ 0) || decide (w1 ≠ 0) || decide (level = 0) ||
    decide (addr % (2 ^ (levelBits (level - 1) + 4)) ≠ 0) || !s.tableOk addr (2 ^ (levelBits (level - 1) + 4))

/-- Bytes on their way from a core to a line, the oldest laid down first. -/
def State.inflight (s : State) (core line : Nat) (l : List Byte) : List Byte :=
  s.writes.foldl (fun l w => if w.core = some core ∧ w.line = line ∧ w.staged = none then overlay w.bytes l else l) l

def State.l1? (s : State) (core line : Nat) : Option L1Line := s.l1.find? fun x => x.core == core && x.line == line

/-- The two words of the entry at an address, at their home. -/
def State.entryAt (s : State) (pa : Nat) : Dword × Dword :=
  (BitVec.ofNat 64 (leNat (s.bytesAt pa 8)), BitVec.ofNat 64 (leNat (s.bytesAt (pa + 8) 8)))

/-- The two words of an entry as a walk for a core reads them: its group's own writes, still on their way or dirty, are ancestors of
the walk (R283, R99). -/
def State.entryFor (s : State) (core : Option Nat) (pa : Nat) : Dword × Dword :=
  match core with
  | none => s.entryAt pa
  | some c =>
    let line := s.fwd (pa / 64)
    let b := s.inflight c line (s.homeLine line)
    let b := match s.l1? c line with
      | some x => overlay x.dirty b
      | none => b
    (BitVec.ofNat 64 (leNat ((b.drop (pa % 64)).take 8)), BitVec.ofNat 64 (leNat ((b.drop (pa % 64 + 8)).take 8)))

/-- The entry the walker of `core` uses: one that it cached, if it still keeps it, else the one it reads, or the mark of the line
that holds it, none where there is no path to it. -/
def State.walkEntry (s : State) (core : Option Nat) (asid level va pa : Nat) : Except (Option LineMark) (Dword × Dword) :=
  let fresh : Except (Option LineMark) (Dword × Dword) :=
    let m := s.markOf (s.fwd (pa / 64))
    if s.pathTo (s.fwd (pa / 64)) = false then .error none
    else if m.poison ≠ 0 ∨ m.failing = true then .error (some m) else .ok (s.entryFor core pa)
  match core with
  | none => fresh
  | some c =>
    match s.tlb.find? fun e => e.core == c && e.asid == asid && e.level == level && e.va == va / 2 ^ levelShift level with
    | some e => if Config.keeps s.stamp (8 * (va / 2 ^ 16) + level) then .ok (e.w0, e.w1) else fresh
    | none => fresh

/-- The walk from a table down, with the entries read on the way. -/
def State.walkFrom (s : State) (core : Option Nat) (asid va member : Nat) : Nat → Nat → List TlbEntry → Walked × List TlbEntry
  | level, table, seen =>
    let pa := table + 16 * (va / 2 ^ levelShift level % 2 ^ levelBits level)
    match s.walkEntry core asid level va pa with
    | .error (some m) => (.fails (if m.poison ≠ 0 then 6 else 7) m.poison (s.fwd (pa / 64)), seen)
    | .error none => (.fails 0 0, seen)
    | .ok (w0, w1) =>
      if !bitAt w0 0 then (.fails 5 1, seen)
      else if s.entryBad level w0 w1 then (.fails 5 8, seen)
      else
        let seen := { core := core.getD 0, asid := asid, level := level, va := va / 2 ^ levelShift level, w0 := w0, w1 := w1 } :: seen
        let addr := bits w0 51 9 * 2 ^ 9
        if bitAt w0 1 then
          let page := 2 ^ levelShift level
          (.leaf { pa := addr + (if bitAt w0 6 then member * page else 0) + va % page, level := level, pl := bits w1 1 0,
                   psn := bitAt w0 8, msa := bitAt w0 7, mr := bitAt w0 6, prv := bitAt w0 5, ex := bitAt w0 4,
                   wr := bitAt w0 3, rd := bitAt w0 2, mg := bitAt w1 4, chip := bits w1 27 16, frame := addr, slot := pa }, seen)
        else match level with
          | 0 => (.fails 5 8, seen)
          | level + 1 => s.walkFrom core asid va member level addr seen

/-- The address-space entry of an ASID (R278). -/
def State.asidEntry (s : State) (asid : Nat) : Dword × Dword := s.entryAt (s.astbase.toNat + 16 * asid)
/-- Is the entry valid and well formed? -/
def State.asidOk (s : State) (asid : Nat) : Bool :=
  let (w0, w1) := s.asidEntry asid
  bitAt w0 0 && decide (bits w0 14 2 = 0) && decide (bits w0 63 52 = 0) && decide (w1 = 0)
def State.asidPriv (s : State) (asid : Nat) : Bool := bitAt (s.asidEntry asid).1 1

/-- Translate one byte. -/
def State.walk (s : State) (core : Option Nat) (asid va member : Nat) : Walked × List TlbEntry :=
  if s.asidOk asid then s.walkFrom core asid va member 4 (bits (s.asidEntry asid).1 51 15 * 2 ^ 15) []
  else (.fails 5 1, [])

/-- A core keeps the valid entries that its walks read (R283). -/
def State.learn (s : State) (l : List TlbEntry) : State :=
  { s with tlb := l.foldl (fun tlb e => e :: tlb.filter fun o =>
      !(o.core == e.core && o.asid == e.asid && o.level == e.level && o.va == e.va)) s.tlb }

/-! ### Checked accesses (R244, R260) -/

/-- Who accesses: core, ASID, privilege, and what it needs of the page. -/
structure Who where
  core : Option Nat
  asid : Nat
  priv : Bool
  rd : Bool
  wr : Bool
  /-- 1: a peer page is what the access names; 2: the source of a copy to a peer (R441 20_links.md). -/
  peer : Nat := 0
deriving DecidableEq, Repr

/-- A translated run of bytes of one page. -/
structure Reach where
  pa : Nat
  msa : Bool
  chip : Nat
deriving DecidableEq, Repr

/-- The failure of one byte, as the address to report (the line's for a failing table line, R134), cause and DETAIL; or where it lies.
Several memory faults of one byte report one DETAIL (log 8). -/
def State.reach (s : State) (w : Who) (va member : Nat) : Except (Nat × Nat × Nat) Reach × List TlbEntry :=
  if 2 ^ 57 ≤ va then (.error (va, 5, 4), [])
  else match s.walk w.core w.asid va member with
    | (.fails cause detail line, seen) => (.error (if cause = 7 then 64 * line else va, cause, detail), seen)
    | (.leaf l, seen) =>
      let bad := failIf (w.rd && !l.rd) 2 ++ failIf (w.wr && !l.wr) 3 ++ failIf (l.prv && !w.priv) 6 ++
        failIf (l.pl == 3 && w.peer == 0) 9 ++ failIf (if w.peer = 1 then l.pl != 3 else w.peer == 2 && l.pl == 3) 10 ++
        failIf (w.peer == 1 && l.pl == 3 && l.chip == s.chip) 11
      match bad with
      | [] => if l.psn then (.error (va, 6, 1), seen) else (.ok { pa := l.pa, msa := l.msa, chip := l.chip }, seen)
      | _ => (.error (va, 5, pickDetail s.stamp bad), seen)

/-- Translate `n` bytes from `va`: the physical address of each, or the first failing byte. -/
def State.reachAll (s : State) (w : Who) (va n member : Nat) :
    Except (Nat × Nat × Nat) (List Nat × Bool) × List TlbEntry :=
  let k := if n ≤ 2 ^ 16 - va % 2 ^ 16 then n else 2 ^ 16 - va % 2 ^ 16
  match s.reach w va member with
  | (.error f, seen) => (.error f, seen)
  | (.ok r, seen) =>
    let first := (List.range k).map fun i => r.pa + i
    if k = n then (.ok (first, r.msa), seen)
    else
      let va' := (va + k) % 2 ^ 64
      match s.reach w va' member with
      | (.error f, seen') => (.error f, seen ++ seen')
      | (.ok r', seen') => (.ok (first ++ (List.range (n - k)).map fun i => r'.pa + i, r.msa), seen ++ seen')

/-! ### Releases, visibility, monitors -/

/-- A write of some groups has been performed with visibility time `t`: their horizons rise (R268), and releases that wait for the
name `id` wait no longer; those of the groups carry the time. -/
def State.performedFor (s : State) (owners : List Nat) (id t : Nat) : State :=
  { s with
    groups := s.groups.map fun g => if owners.contains g.id then { g with horizon := max g.horizon t } else g
    edges := s.edges.map fun e => if e.pend.contains id then { e with pend := e.pend.filter (· ≠ id), v := if owners.contains e.grp then max e.v t else e.v } else e }

/-- Record a wake event of the reason against every armed monitor that `hit` names (R271). -/
def State.wake (s : State) (hit : Monitor → Bool) (reason : Nat) : State :=
  { s with groups := s.groups.map fun g => { g with subs := g.subs.map fun u =>
      match u.monitor with
      | some m => if !m.pending && hit m then { u with monitor := some { m with wakes := m.wakes ++ [reason] } } else u
      | none => u } }

/-- Writes of bytes of a line at the offsets of `bytes` have taken their positions at the line's home (R271, reason 0); a monitor on a
source unit of a page that moves sees them at the destination (R290). -/
def State.wakeLine (s : State) (line : Nat) (bytes : SMap Byte) : State :=
  s.wake (fun m => match m.addr with
    | some a => s.fwd (a / 64) == line && bytes.any fun k => k.1 / 4 * 4 == a % 64
    | none => false) 0

/-- The dies that may hold guest copies of a line's region (R253). -/
def State.dirOf (s : State) (line : Nat) : List Nat := SMap.get [] s.dirs (line / 8)

/-- Make the visibility record and the invalidations of a write that die `die` performs on a line (R253, R254). -/
def State.publish (s : State) (line die : Nat) (owners waiters : List Nat) (id : Nat) : State :=
  let others := (s.dirOf line).filter (· ≠ die)
  let t := if others.isEmpty then s.time else s.time + 1120
  let s := s.performedFor owners id t
  { s with
    visible := s.visible ++ [{ id := id, time := t, waiters := waiters }]
    probes := s.probes ++ others.map fun d => { id := id, die := d, line := line, due := t, answered := false } }

/-! ### Writes at their homes -/

/-- Bytes take their position in a home line: merge, marks, guest copy of the writer's die, monitors (R38, R39, R252, R284). A resident
line that fails under a partial write is found failing, and stays so. -/
def State.mergeHome (s : State) (line die : Nat) (bytes : SMap Byte) (poison : Bool) : State :=
  let full := bytes.length == 64
  let s := if full then s else s.foundFailing line
  let old := s.lineMarks.get LineMark.none line
  let mark := if poison then { old with poison := 2 } else if full then LineMark.none else old
  let s := s.putBytes (bytes.map fun k => (64 * line + k.1, k.2))
  let s : State := { s with
    lineMarks := s.lineMarks.set LineMark.none line mark
    guests := s.guests.map fun g => if g.die = die ∧ g.line = line then { g with bytes := overlay bytes g.bytes, mark := mark } else g }
  s.wakeLine line bytes
/-- The same for a line as an access names it. -/
def State.merge (s : State) (line die : Nat) (bytes : SMap Byte) (poison : Bool) : State := s.mergeHome (s.fwd line) die bytes poison

/-- A copy of a failing line leaves its destination failing (R312). -/
def State.taint (s : State) (line : Nat) (marked : Bool) : State :=
  if marked then
    { s with
      lineMarks := s.lineMarks.set LineMark.none line { s.lineMarks.get LineMark.none line with failing := true }
      guests := s.guests.map fun g => if g.line = line then { g with mark := { g.mark with failing := true } } else g }
  else s

/-- An error that waits for a covering WAITC or a save. -/
def State.defer (s : State) (o : Op) (cause detail addr : Nat) (thread : Nat := 0) : State :=
  s.modGroup o.grp fun g => { g with deferred := g.deferred ++
    [{ op := o.id, counter := o.counter, ready := false, cause := cause, detail := detail, addr := addr, thread := thread }] }
/-- Report an error of an operation once. -/
def State.deferOnce (s : State) (o : Op) (cause detail addr : Nat) : State :=
  match s.group? o.grp with
  | some g => if g.deferred.any fun d => d.op == o.id then s else s.defer o cause detail addr
  | none => s
/-- The integrity error status of the operations whose write has been discarded (R39; log 52). -/
def State.integrityError (s : State) (ops : List Nat) (line : Nat) : State :=
  ops.foldl (fun s id => match s.op? id with
    | some o => s.deferOnce o 7 0 (64 * line)
    | none => s) s
/-- The event of a discarded incoming part: once for each line found failing, so not where its resident line has been reported (R39,
R461). -/
def State.foundDamaged (s : State) (line : Nat) : State :=
  let m := s.lineMarks.get LineMark.none line
  if m.failing && m.reported then s else s.event 1 (s.homeDie (64 * line)) (64 * line)

/-- Perform a write request at the home of its line (R254). A failing incoming part is discarded and reported, and its operation
completes with an integrity error (R39). -/
def State.performWrite (s : State) (w : HomeWrite) : State :=
  let s : State := { s with writes := s.writes.filter fun o => o.id ≠ w.id }
  match w.staged with
  | some (l, b) =>
    -- staged: no position yet, no horizon; the operation is complete for its counter (R428, log 22)
    let s := s.performedFor [] w.id 0
    { s with
      staged := s.staged ++ [{ launch := l, block := b, die := w.die, line := w.line, bytes := w.bytes, atom := none, poison := w.poison,
                               marked := w.marked, stamp := w.stamp }]
      visible := s.visible ++ [{ id := w.id, time := s.time, waiters := w.waiters }] }
  | none =>
    if w.failing then (((s.performedFor [] w.id 0).foundDamaged w.line).integrityError w.waiters w.line).publish w.line w.die [] w.waiters w.id
    else ((s.mergeHome w.line w.die w.bytes w.poison).taint w.line w.marked).publish w.line w.die w.owners w.waiters w.id

/-! ### Request counts (R255) -/

/-- Count a request of a core for a line: c = 0 or 1 reads, 2 or 3 writes, local or remote. -/
def State.countReq (s : State) (launch core line : Nat) (write : Bool) : State :=
  let c := (if s.homeDie (64 * line) = dieOf core then 0 else 1) + if write then 2 else 0
  s.modLaunch launch fun l => { l with counts := l.counts.set 0 (4 * dieOf core + c) (l.counts.get 0 (4 * dieOf core + c) + 1) }

/-- A copy of a line in an L1 or a guest L2 that ECC could not correct is found at its consumption: it is reported once (R40; log 52). -/
def State.foundL1 (s : State) (x : L1Line) : State :=
  if x.mark.failing && !x.mark.reported then
    { s with l1 := s.l1.map fun (o : L1Line) => if o.core = x.core ∧ o.line = x.line then { o with mark := { o.mark with reported := true } } else o }.event
      2 (dieOf x.core) (64 * x.line)
  else s
def State.foundGuest (s : State) (g : Guest) : State :=
  if g.mark.failing && !g.mark.reported then
    { s with guests := s.guests.map fun (o : Guest) => if o.die = g.die ∧ o.line = g.line then { o with mark := { o.mark with reported := true } } else o }.event
      2 g.die (64 * g.line)
  else s

/-- The launch a write belongs to, by its first owner. -/
def State.launchOf (s : State) (owners : List Nat) : Nat :=
  match owners.findSome? fun o => (s.group? o).map fun g => g.launch with
  | some l => l
  | none => 0

/-! ### The L1 (R247 to R250) -/

/-- Lines that a core's L1 holds: 256 KiB (R247). -/
def l1Lines : Nat := 4096
def State.putL1 (s : State) (x : L1Line) : State :=
  { s with l1 := x :: s.l1.filter fun o => !(o.core == x.core && o.line == x.line) }
def State.dropL1 (s : State) (core line : Nat) : State :=
  { s with l1 := s.l1.filter fun o => !(o.core == core && o.line == line) }

/-- Put a write request on its way; the guest copy of the writer's die is updated at once (R252). -/
def State.send (s : State) (w : HomeWrite) (launch : Nat) : State :=
  let s := match w.core with
    | some c => s.countReq launch c w.line true
    | none => s
  { s with
    writes := s.writes ++ [w]
    guests := if w.staged.isSome then s.guests
      else s.guests.map fun g => if g.die = w.die ∧ g.line = w.line then { g with bytes := overlay w.bytes g.bytes } else g }

/-- Write back the dirty bytes of one L1 line: one partial write (R248). Clean bytes it holds keep what was written. -/
def State.flushLine (s : State) (x : L1Line) : State :=
  if x.dirty.isEmpty then s
  else
    let (id, s) := s.fresh
    let s := s.send { id := id, core := some x.core, die := dieOf x.core, line := x.line, bytes := x.dirty, stamp := x.stamp,
                      owners := x.owners, waiters := x.waiters, staged := none, failing := false, poison := false }
      (s.launchOf x.owners)
    match x.clean with
    | some b => s.putL1 { x with clean := some (overlay x.dirty b), dirty := [], owners := [], waiters := [] }
    | none => s.dropL1 x.core x.line

/-- A line enters a core's L1; where the L1 is full another line leaves it first, its dirty bytes written back (R247, R248; log 9). -/
def State.allocL1 (s : State) (x : L1Line) : State :=
  let held := s.l1.filter fun o => o.core == x.core && o.line != x.line
  let s := if held.length < l1Lines then s
    else match held[Config.choice s.stamp 3 % held.length]? with
      | some v => (s.flushLine v).dropL1 v.core v.line
      | none => s
  s.putL1 x

/-- Write back every dirty byte of a core's L1: an outgoing edge (R248). -/
def State.flush (s : State) (core : Nat) : State :=
  s.l1.foldl (fun s x => if x.core = core then s.flushLine x else s) s

/-- Write back the lines that hold dirty bytes of a group (R248: WAITC). -/
def State.flushGroup (s : State) (core grp : Nat) : State :=
  s.l1.foldl (fun s x => if x.core = core ∧ x.owners.contains grp then s.flushLine x else s) s

/-- The core epoch E (R249). -/
def State.epoch (s : State) (core : Nat) : Nat := s.epochs.get 0 core

/-- An incoming edge of a group (R249): E rises and the group's G takes it; at the wrap every clean line goes and every G is 0. -/
def State.incoming (s : State) (grp core : Nat) : State :=
  let e := (s.epoch core + 1) % 2 ^ 16
  let s : State := { s with epochs := s.epochs.set 0 core e }
  if e = 0 then
    { s with
      l1 := s.l1.filterMap fun x => if x.core ≠ core then some x else if x.dirty.isEmpty then none else some { x with clean := none }
      groups := s.groups.map fun g => if g.core = core then { g with gepoch := 0 } else g }
  else s.modGroup grp fun g => { g with gepoch := e }

/-- The clean bytes that a read of a home line by a core meets below its L1: the guest copy of its die where there is one, else the home;
with `alloc` a read from another die leaves a guest copy and a directory entry (R252, R253). -/
def State.fetchLine (s : State) (core line : Nat) (alloc : Bool) : List Byte × LineMark × State :=
  let d := dieOf core
  let s := s.foundFailing line
  if s.homeDie (64 * line) = d then (s.inflight core line (s.homeLine line), s.markOf line, s)
  else match s.guests.find? fun g => g.die == d && g.line == line with
    | some g => (s.inflight core line g.bytes, g.mark, s.foundGuest g)
    | none =>
      let b := s.homeLine line
      let m := s.markOf line
      let s' : State := if alloc then { s with
          guests := { die := d, line := line, bytes := b, mark := m } :: s.guests
          dirs := s.dirs.set [] (line / 8) (if (s.dirOf line).contains d then s.dirOf line else d :: s.dirOf line) }
        else s
      (s.inflight core line b, m, s')

/-- The clean bytes of an L1 line that a group of epoch `g` may read (R249). -/
def L1Line.cleanAt (x : L1Line) (g : Nat) : Option (List Byte) := if g ≤ x.epoch then x.clean else none
/-- Does the L1 hold everything that a read of a group of epoch `g` wants of a line, at the offsets `offs` (R247, R249)? -/
def L1Line.hits (x : L1Line) (g : Nat) (offs : List Nat) : Bool := (x.cleanAt g).isSome || offs.all x.dirty.has

/-- The 64 bytes of a home line as a load of a core with epoch `g` that wants the offsets `offs` reads them, and the mark of its clean bytes:
dirty bytes of the L1, clean bytes filled at an epoch of at least `g`, else bytes from below, which fill the line at epoch `fill`
unless the read is LDNA. Nothing is read below where every byte wanted is dirty. -/
def State.readHome (s : State) (core line g fill : Nat) (na : Bool) (offs : List Nat) : List Byte × LineMark × State :=
  let fresh : L1Line := { core := core, line := line, clean := none, mark := LineMark.none, epoch := 0, dirty := [], stamp := 0, since := 0,
                          owners := [], waiters := [] }
  let x := (s.l1? core line).getD fresh
  match (if na then none else x.cleanAt g) with
  | some b => (overlay x.dirty b, x.mark, s.foundL1 x)
  | none =>
    if !offs.isEmpty && offs.all x.dirty.has then
      (overlay x.dirty (List.replicate 64 0), if x.clean.isSome then x.mark else LineMark.none, s)
    else
      let (b, m, s) := s.fetchLine core line (!na)
      (overlay x.dirty b, m, if na then s else s.allocL1 { x with clean := some b, mark := m, epoch := fill })
/-- The same for a line as an access names it. -/
def State.readLine (s : State) (core line g fill : Nat) (na : Bool) (offs : List Nat) : List Byte × LineMark × State :=
  s.readHome core (s.fwd line) g fill na offs

/-- The lines that bytes lie in, without repeats. -/
def linesOf (l : List Nat) : List Nat := l.foldl (fun ls a => if ls.contains (a / 64) then ls else ls ++ [a / 64]) []

/-- The mark that a consumer of a line meets (R245). -/
def markFor (line : Nat) (m : LineMark) : Option Mark :=
  if m.poison ≠ 0 then some { cause := 6, detail := 128 + m.poison, addr := 64 * line }
  else if m.failing then some { cause := 7, detail := 128, addr := 64 * line }
  else none
/-- The mark that a consumer of some bytes at their homes meets first (R37, R39). -/
def State.markOfBytes (s : State) (addrs : List Nat) : Option Mark :=
  (linesOf addrs).findSome? fun n => markFor (s.fwd n) (s.markOf (s.fwd n))
/-- Bytes are consumed at their homes: those of their lines that fail are found failing (R39). -/
def State.consume (s : State) (addrs : List Nat) : State := (linesOf addrs).foldl (fun s n => s.foundFailing (s.fwd n)) s

/-- The read requests of an instance of a group of epoch `g` for some bytes: one for each distinct line that misses the L1, or for each
line of an LDNA (R255). -/
def State.countReads (s : State) (launch core g : Nat) (na : Bool) (addrs : List Nat) : State :=
  (linesOf (addrs.map s.place)).foldl (fun s line =>
    let offs := (addrs.filter fun pa => s.fwd (pa / 64) == line).map fun pa => pa % 64
    if !na && (s.l1? core line).any (fun x => x.hits g offs) then s else s.countReq launch core line false) s

/-- A store's bytes go into the L1's home line and become dirty (R247). A line written whole has a fresh check value (R284). -/
def State.dirtyLine (s : State) (core line grp op stamp : Nat) (bytes : SMap Byte) : State :=
  let x : L1Line := (s.l1? core line).getD
    { core := core, line := line, clean := none, mark := LineMark.none, epoch := 0, dirty := [], stamp := stamp, since := s.time,
      owners := [], waiters := [] }
  let first := x.dirty.isEmpty
  let dirty := bytes.foldl (fun m k => m.put k.1 k.2) x.dirty
  s.allocL1 { x with
    dirty := dirty
    mark := if dirty.length = 64 then LineMark.none else x.mark
    stamp := if first then stamp else min x.stamp stamp
    since := if first then s.time else x.since
    owners := if x.owners.contains grp then x.owners else grp :: x.owners
    waiters := op :: x.waiters }

/-! ### Ordered release (R428 to R430) -/

/-- The bytes staged by a group's own block over a line. Staged atomics are laid on by the executor (Machine/Atomics.lean). -/
def State.stagedOver (s : State) (launch block line : Nat) (l : List Byte) : List Byte :=
  s.staged.foldl (fun l w => if w.launch = launch ∧ w.block = block ∧ w.line = line then overlay w.bytes l else l) l

/-- Bytes of a core's group on their way to be staged. -/
def State.stagingOver (s : State) (launch block core line : Nat) (l : List Byte) : List Byte :=
  s.writes.foldl (fun l w => if w.core = some core ∧ w.line = line ∧ w.staged = some (launch, block) then overlay w.bytes l else l) l

/-! ### Operations -/

/-- The count of a counter: 0 LD, 1 ST, 2 CP, 3 MX. -/
def Group.counter (g : Group) (k : Nat) : Nat := match k with | 0 => g.ld | 1 => g.st | 2 => g.cp | 3 => g.mx | _ => 0
def Group.addCounter (g : Group) (k : Nat) (f : Nat → Nat) : Group :=
  match k with
  | 0 => { g with ld := f g.ld }
  | 1 => { g with st := f g.st }
  | 2 => { g with cp := f g.cp }
  | 3 => { g with mx := f g.mx }
  | _ => g

/-- An operation issues: its counter rises by one (R30). -/
def State.newOp (s : State) (o : Op) : State :=
  { s with ops := s.ops ++ [o] }.modGroup o.grp fun g => g.addCounter o.counter (· + 1)

/-- A tile of a block on one of its cores; undefined where there is no such block (R296, R297 13_copy.md). -/
def Block.corePos (b : Block) (core : Nat) : Nat := b.cores.idxOf core
def State.tile (s : State) (launch block core k : Nat) : Tile :=
  match s.block? launch block with
  | some b => if b.cores.contains core then b.tiles.get Tile.undefined (16 * b.corePos core + k) else Tile.undefined
  | none => Tile.undefined
def State.modTile (s : State) (launch block core k : Nat) (f : Tile → Tile) : State :=
  s.modBlock launch block fun b =>
    let key := 16 * b.corePos core + k
    { b with tiles := b.tiles.set Tile.undefined key (f (b.tiles.get Tile.undefined key)) }

/-- A fill, reader or drain completes (R298). -/
def Tile.finish (t : Tile) (role : TileRole) : Tile :=
  match role with
  | .fill => { t with pf := t.pf - 1, state := if t.pf ≤ 1 then 2 else t.state }
  | .reader => { t with rc := t.rc - 1 }
  | .drain => { t with state := 0 }
  | .define => t

/-- An operation completes: its counter falls by one, its tiles change (R298), its flags reach their threads (R263, R309), and a
WAITC can cover it from now on (R30, R34). -/
def State.complete (s : State) (id : Nat) : State :=
  match s.op? id with
  | none => s
  | some o =>
    let s : State := { s with edges := if o.edge = 0 then s.edges else s.edges.filter fun e => e.id ≠ o.edge }
    let s := o.ends.foldl (fun s u => s.modTile u.launch u.block u.core u.tile fun t => t.finish u.role) s
    (s.dropOp id).modGroup o.grp fun g =>
      -- MHIST lets its sub-group go on past its three words (R397 18_collective.md)
      let g : Group := { g with subs := g.subs.map fun u =>
        if u.phase = Phase.engine id then { u with phase := .running, pc := u.pc + 12, ndone := u.ndone + 1, yielded := false } else u }
      let g : Group := match o.kind with
        | .atom reqs => g.raise (reqs.map fun r => ⟨r.thread, 0, r.fl⟩)
        | _ => g.raise (o.raises.map fun k => ⟨k.1, 0, k.2⟩)
      { (g.addCounter o.counter (· - 1)) with
        awaited := g.awaited.filterMap fun k => match k.2.filter (· ≠ id) with
          | [] => none
          | rest => some (k.1, rest)
        uncovered := o.counter :: g.uncovered
        deferred := g.deferred.map fun d => if d.op = id then { d with ready := true } else d }

/-- One of the writes of a store-counter operation, or of a peer's operation, has become visible. -/
def State.landed (s : State) (id : Nat) : State :=
  match s.op? id with
  | none => { s with inbound := s.inbound.map fun q => if q.id = id then { q with left := q.left - 1 } else q }
  | some o => if o.left ≤ 1 then s.complete id else s.modOp id fun o => { o with left := o.left - 1 }

/-- A counter at 63 holds the instruction (R33). -/
def Cx.full (c : Cx) (k : Nat) : Bool := decide (63 ≤ c.g.counter k)

/-! ### Registers written by operations (R105, R245) -/

/-- An operation's value for one thread's unit: it replaces the current value and every older one a read could return. -/
def Group.deliver (g : Group) (r t : Nat) (v : Word) (mark : Option Mark) : Group :=
  let set (m : Vec) : Vec := m.set 0 t v
  let old := g.vregs.get [] r
  let g : Group := { g with
    vregs := g.vregs.set [] r (set old)
    stale := g.stale.set [] r ((g.stale.get [] r).map set)
    vmarks := match mark with
      | some k => g.vmarks.put (256 * r + t) k
      | none => g.vmarks.erase (256 * r + t) }
  if g.subs.length ≤ 1 then g
  else { g with subs := g.subs.map fun u =>
    if u.members.getLsbD (t / 32) then { u with hist := u.hist.set [] r (old :: u.hist.get [] r) } else u }

/-- The value an LDU delivers to a uniform register, in every sub-group that still waits for it (R242). -/
def Group.deliverU (g : Group) (op r : Nat) (v : Word) (mark : Option Mark) : Group :=
  { g with subs := g.subs.map fun u =>
    if u.upending.get 0 r = op + 1 then
      { u with uregs := u.uregs.set 0 r v, upending := u.upending.erase r,
               umarks := match mark with | some k => u.umarks.put r k | none => u.umarks.erase r }
    else u }

/-- The value that an operation writes to a uniform register at its completion (R105, R289). -/
def Group.deliverLate (g : Group) (op r : Nat) (v : Word) : Group :=
  { g with subs := g.subs.map fun u => if u.ulate.get 0 r = op + 1 then { u.putU r v with ulate := u.ulate.erase r } else u }

end Machine
end Sys2Proof
end

