-- ==== Sys2Proof/Machine/LoadStore.lean ====
section
/-! DEFINITION. Load/store unit (R233 to R255 10_loadstore.md): memory operands, the eight instructions, the arrival of loads,
and the events by which writes reach their homes, become visible and leave the caches. -/

namespace Sys2Proof
namespace Machine

/-! ### Port M -/

/-- Issue of an instruction on port M: it waits for an outstanding OBSERVE of its sub-group (R269), and at a full counter (R33).
`counter` is 4 where it uses none. -/
def State.issueM (s : State) (words : Nat) (x : Ext) (f : Form) (dyn : Cx → List Nat) (counter : Cx → Nat)
    (eff : Cx → State → Res) (who : Cx → List Nat := fun c => c.threads x.p) : Out :=
  s.issueExt words x f dyn (fun c s =>
    if c.u.observing.isSome then .hold
    else if c.full (counter c) then .stall s (.counterStall (counter c))
    else eff c s) who

/-! ### Memory operands (R233 to R237) -/

def memTypes : List DType := [.b32, .b64, .i8, .i16, .n8, .n16]

def memN (x : Ext) : Nat := [1, 2, 4, 1].getD (x.subBits 6 5) 1
def memSC (x : Ext) : Nat := x.subBits 9 7
def memW (x : Ext) : Nat := bits x.w2 3 2
def memSrc (x : Ext) : Nat := bits x.w2 7 4
/-- S, the access size in bytes (R234). -/
def memSize (x : Ext) : Nat := x.ty.width / 8 * memN x
def memRegs (x : Ext) : Nat := if memSize x < 4 then 1 else memSize x / 4

/-- The encoding rules that the memory operand of every entry shares (R233, R237); MSRC codes without a meaning break the entry's own rule
(log 54). -/
def memOwn (x : Ext) : List Nat :=
  failIf (bits x.w2 11 8 ≠ 0) 3 ++ failIf (decide (4 < memSC x)) 16 ++ failIf (memW x == 3) 16 ++
  failIf (decide (memSrc x ≠ 0) && decide (memSrc x < 8)) 16
/-- The rules of N, type and widening (R234, R237). -/
def memTyped (x : Ext) : List Nat :=
  failIf (x.subBits 6 5 == 3) 16 ++
  failIf ((memN x == 2 && !(x.ty == .b32 || x.ty == .b64)) || (memN x == 4 && !(x.ty == .b32))) 4 ++
  failIf ((memW x == 1 && memSize x != 8) || (memW x == 2 && memSize x != 16)) 16
/-- An MSRC at or above M (R233). -/
def memDyn (x : Ext) (c : Cx) : List Nat := failIf (decide (8 ≤ memSrc x) && decide (c.l.m ≤ memSrc x - 8)) 16

def memSrcs : List SrcUse :=
  [{ slot := .A, wide := true, kinds := baseSrc }, { slot := .B, wide := false },
   { slot := .C, wide := false, kinds := ⟨false, true, false, true, false, true⟩, mods := false }]

def formLoad (x : Ext) (uni : Bool) : Form :=
  { literal := true, dest := .load (memRegs x) uni, srcs := memSrcs, own1 := 0x7E0, own2 := 0xFFC,
    ty := some memTypes, own := memOwn x ++ memTyped x }
def formStore (x : Ext) : Form :=
  { literal := true, dest := .data (memRegs x) true true, srcs := memSrcs, own1 := 0x7E0, own2 := 0xFFC,
    ty := some memTypes, own := memOwn x ++ memTyped x }
/-- PREF: SUB[4:0] is zero and SUB[6:5] is the level (R243). It has no access size that a widening could fit (log 54). -/
def formPref (x : Ext) : Form :=
  { literal := true, srcs := memSrcs, own1 := 0x7E0, own2 := 0xFFC,
    own := memOwn x ++ failIf (decide (2 ≤ x.subBits 6 5)) 4 ++ failIf (memW x == 1 || memW x == 2) 16 }

/-- ea(m, l) of R235, with the member-strided change of R241. -/
def Cx.ea (c : Cx) (x : Ext) (strided : Bool) (t : Nat) : Nat :=
  let base := (c.src x .A true .int t).toNat
  let idx := intOf (x.bit1 10) 32 (c.src x .B false .int t).toNat
  let off : Int := if strided then (t / 32 * (c.plain x .C false .int t).toNat : Nat)
    else intOf true 32 (c.plain x .C false .int t).toNat
  lo ((base : Int) + idx * 2 ^ memSC x + off) 64
/-- The member index of an access (R236). -/
def memMember (x : Ext) (t : Nat) : Nat := if 8 ≤ memSrc x then memSrc x - 8 else t / 32

/-! ### Translation before issue (R244) -/

/-- One access to translate: the thread, its address and member index. -/
structure Want where
  thread : Nat
  va : Nat
  member : Nat
deriving DecidableEq, Repr

/-- One access translated. -/
structure Got where
  thread : Nat
  addrs : List Nat
  msa : Bool
deriving DecidableEq, Repr

def Cx.who (c : Cx) (rd wr : Bool) : Who := { core := some c.g.core, asid := c.l.asid, priv := c.l.priv, rd := rd, wr := wr }

/-- Translate accesses of `n` bytes in ascending thread order; `align` is the alignment they need and the DETAIL that reports a
misaligned one. The first failing byte of the lowest failing thread is the fault. -/
def State.translate (s : State) (c : Cx) (w : Who) (n : Nat) (align : Option (Nat × Nat)) (p : BitVec 4) :
    List Want → Except TrapReq (List Got × List TlbEntry)
  | [] => .ok ([], [])
  | a :: rest =>
    let fail := fun (va cause detail : Nat) => ({ cause := cause, detail := detail, addr := va, msk := c.threads p,
                                                  thread := a.thread } : TrapReq)
    let skew : List Nat := match align with
      | some (k, d) => failIf (a.va % k ≠ 0) d
      | none => []
    match s.reachAll w a.va n a.member, skew with
    | (.error (va, cause, d), _), _ :: _ =>
      .error (fail a.va 5 (if va = a.va ∧ cause = 5 then pickDetail s.stamp (skew ++ [d]) else skew.headD 0))
    | (.error (va, cause, d), _), [] => .error (fail va cause d)
    | (.ok _, _), d :: _ => .error (fail a.va 5 d)
    | (.ok r, seen), [] =>
      match s.translate c w n align p rest with
      | .error t => .error t
      | .ok (gs, seen') => .ok ({ thread := a.thread, addrs := r.1, msa := r.2 } :: gs, seen ++ seen')

/-- Lines that an operation has still to access at their executors. -/
def Op.performs (o : Op) : List Nat :=
  match o.kind with
  | .atom reqs | .signal reqs _ _ _ => (reqs.filter fun r => !r.done).map fun r => r.pa / 64
  | .aimg reqs => (reqs.filter fun r => !r.done).flatMap fun r => (List.range 6).map fun i => r.pa / 64 + i
  | _ => []
/-- Lines that it has still to reach at their executors; a MONITOR reaches one without accessing it (R270). -/
def Op.ahead (o : Op) : List Nat :=
  match o.kind with
  | .monitor pa _ => [pa / 64]
  | _ => o.performs

/-- An atomic, SIGNAL or MONITOR of the group that has not executed yet holds a later access of the group to its line (R90, R261,
R270; log 23). -/
def State.atomHeld (s : State) (grp : Nat) (lines : List Nat) : Bool :=
  s.ops.any fun o => o.grp == grp && o.ahead.any fun n => lines.contains (s.fwd n)

/-! ### Sampling loads (R99, R101, R239) -/

/-- Lines read for a load, with their bytes and marks. -/
abbrev Views := List (Nat × List Byte × LineMark)

/-- The offsets in a line of some bytes. -/
def offsetsIn (line : Nat) (addrs : List Nat) : List Nat := (addrs.filter fun pa => pa / 64 == line).map fun pa => pa % 64

/-- Read lines for a load of a group that wants the bytes `addrs`: its own block's staged bytes lie over them (R430). -/
def State.readLines (s : State) (g : Group) (epoch : Nat) (na : Bool) (addrs : List Nat) : List Nat → Views × State
  | [] => ([], s)
  | line :: rest =>
    let (b, m, s) := s.readLine g.core line epoch (s.epoch g.core) na (offsetsIn line addrs)
    let b := if s.staged.isEmpty && s.writes.isEmpty then b
      else s.stagingOver g.launch g.block g.core (s.fwd line) (s.stagedOver g.launch g.block (s.fwd line) b)
    let (vs, s) := s.readLines g epoch na addrs rest
    ((line, b, m) :: vs, s)

def takenAt (vs : Views) (pa : Nat) : Taken :=
  match vs.find? fun v => v.1 == pa / 64 with
  | some (line, b, m) => { byte := b.getD (pa % 64) 0, mark := markFor line m }
  | none => { byte := 0, mark := none }

/-- The index of the aligned unit that byte i of an access lies in; a widened access is one block (R101). -/
def Access.unit (a : Access) (i : Nat) : Nat := if a.widened then 0 else (a.addrs.headD 0 % 4 + i) / 4

/-- Take the bytes of an operation's accesses that `sel` selects by access and unit, those not taken before. -/
def State.sample (s : State) (o : Op) (g : Group) (accs : List Access) (epoch : Nat) (na : Bool)
    (sel : Nat → Nat → Bool) : State :=
  let want := accs.zipIdx.flatMap fun (a, i) =>
    a.addrs.zipIdx.filterMap fun (pa, j) =>
      if sel i (a.unit j) && !o.taken.has (512 * i + j) then some (512 * i + j, pa) else none
  if want.isEmpty then s
  else
    let addrs := want.map fun k => k.2
    let (vs, s) := s.readLines g epoch na addrs (linesOf addrs)
    s.modOp o.id fun o => { o with taken := want.foldl (fun m k => m.put k.1 (takenAt vs k.2)) o.taken }

/-- The plain reads that an operation of the load/store unit still has to make, their epoch, and whether they allocate nothing. -/
def Op.reads (o : Op) : Option (List Access × Nat × Bool) :=
  match o.kind with
  | .load accs epoch na _ => some (accs, epoch, na)
  | .xld accs epoch => some (accs, epoch, false)
  | _ => none

/-- Bring forward the outstanding loads of a group that touch some of the lines (all of them for none), before a later store of
the group or an edge leaves it (R90, R99; log 24). -/
def State.settle (s : State) (grp : Nat) (lines : Option (List Nat)) : State :=
  s.ops.foldl (fun s o =>
    if o.grp ≠ grp then s
    else match o.reads, s.group? grp with
      | some (accs, epoch, na), some g =>
        let touches := fun i => match lines, accs[i]? with
          | none, _ => true
          | some ls, some a => a.addrs.any fun pa => ls.contains (s.fwd (pa / 64))
          | _, none => false
        s.sample o g accs epoch na fun i _ => touches i
      | _, _ => s) s

/-- The value of destination register j of a load, once its bytes are taken (R239). -/
def Access.regValue (a : Access) (b : Nat → Byte) (j : Nat) : Word :=
  let n := a.addrs.length
  if n < 4 then
    let v := leNat ((List.range n).map b)
    BitVec.ofInt 32 (intOf a.signed (8 * n) v)
  else BitVec.ofNat 32 (leNat ((List.range 4).map fun i => b (4 * j + i)))

/-- Destination registers of one access. -/
def Access.regs (a : Access) : Nat := if a.addrs.length < 4 then 1 else a.addrs.length / 4

/-- Bytes of an access that destination register j takes. -/
def Access.span (a : Access) (j : Nat) : List Nat :=
  if a.addrs.length < 4 then List.range a.addrs.length else (List.range 4).map fun i => 4 * j + i

/-- Write every destination unit whose bytes have all been taken and that has not been written yet (R105). -/
def State.give (s : State) (o : Op) (accs : List Access) (uni : Option Nat) : State :=
  let units := accs.zipIdx.flatMap fun (a, i) => (List.range a.regs).filterMap fun j =>
    if (a.span j).all fun k => o.taken.has (512 * i + k) then
      let tk := fun k => o.taken.get { byte := 0, mark := none } (512 * i + k)
      some (a.threads, a.reg + j, a.regValue (fun k => (tk k).byte) j, (a.span j).findSome? fun k => (tk k).mark)
    else none
  let s := s.modGroup o.grp fun g => units.foldl (fun g (ts, r, v, km) =>
    match uni with
    | some _ => g.deliverU o.id r v km
    | none => ts.foldl (fun g t => if o.given.contains (256 * r + t) then g else g.deliver r t v km) g) g
  s.modOp o.id fun o => { o with given := (units.flatMap fun u => u.1.map fun t => 256 * u.2.1 + t) ++ o.given }

/-- The units of an early part (R105): a subset that nothing fixes (log 3). -/
def partSel (stamp p : Nat) (i u : Nat) : Bool := Config.partSet stamp (p + 512 * (512 * i + u))

/-! ### Loads -/

/-- Issue a load: its requests are counted now, its data may arrive in parts (R255, R105). -/
def Cx.startLoad (c : Cx) (s : State) (accs : List Access) (na : Bool) (uni : Option Nat) (seen : List TlbEntry) : Res :=
  if s.atomHeld c.g.id (linesOf ((accs.flatMap fun a => a.addrs).map s.place)) then .hold
  else
    let (id, s) := ((s.learn seen).countReads c.l.id c.g.core c.g.gepoch na (accs.flatMap fun a => a.addrs)).fresh
    let regs := match uni, accs with
      | some n, a :: _ => (List.range a.regs).map fun j => n + j
      | _, _ => []
    let s := s.newOp { id := id, grp := c.g.id, sub := c.r.sub, counter := 0, core := c.g.core, asid := c.l.asid, stamp := s.qi,
                       left := 0, taken := [], given := [], kind := .load accs c.g.gepoch na uni }
    .done (s.modSub c.r fun u => { u with
      upending := regs.foldl (fun m r => m.put r (id + 1)) u.upending
      umarks := regs.foldl (fun m r => SMap.erase m r) u.umarks })

/-- LD, LDNA and LDP (R239, R241). -/
def effLoad (x : Ext) (strided na : Bool) (c : Cx) (s : State) : Res :=
  let want := (c.threads x.p).map fun t => ({ thread := t, va := c.ea x strided t, member := memMember x t } : Want)
  let align := if memW x = 0 then none else some (memSize x, 5)
  match s.translate c (c.who true false) (memSize x) align x.p want with
  | .error t => .fault t
  | .ok (gs, seen) =>
    c.startLoad s (gs.map fun g => { threads := [g.thread], reg := x.d.toNat, addrs := g.addrs, signed := x.ty.signed,
                                     widened := decide (memW x ≠ 0) }) na none seen

/-- The lowest active member of each lane, with the active threads of the lane (R242). -/
def Cx.lanes (c : Cx) (p : BitVec 4) : List (Nat × List Nat) :=
  (List.range 32).filterMap fun l =>
    match (c.threads p).filter fun t => t % 32 == l with
    | [] => none
    | t :: ts => some (t, t :: ts)

/-- The threads (m*, l) (R242). -/
def Cx.firstMembers (c : Cx) (p : BitVec 4) : List Nat := (c.lanes p).map fun l => l.1

/-- LDU (R242). -/
def effLdu (x : Ext) (c : Cx) (s : State) : Res :=
  let align := if memW x = 0 then none else some (memSize x, 5)
  match operandOf x.d with
  | .ureg n =>
    let want : List Want := [{ thread := 0, va := c.ea x false 0, member := if 8 ≤ memSrc x then memSrc x - 8 else 0 }]
    (match s.translate c (c.who true false) (memSize x) align x.p want with
      | .error t => .fault t
      | .ok (gs, seen) =>
        c.startLoad s (gs.map fun g => { threads := [], reg := n, addrs := g.addrs, signed := x.ty.signed,
                                         widened := decide (memW x ≠ 0) }) false (some n) seen)
  | _ =>
    let ls := c.lanes x.p
    let want := ls.map fun l => ({ thread := l.1, va := c.ea x false l.1, member := memMember x l.1 } : Want)
    -- the lowest failing t comes first (R244)
    (match s.translate c (c.who true false) (memSize x) align x.p (sortBy (fun a b => decide (a.thread ≤ b.thread)) want) with
      | .error t => .fault t
      | .ok (gs, seen) =>
        c.startLoad s (gs.map fun g =>
            { threads := (ls.find? fun l => l.1 == g.thread).elim [] fun l => l.2, reg := x.d.toNat, addrs := g.addrs,
              signed := x.ty.signed, widened := decide (memW x ≠ 0) }) false none seen)

/-! ### Stores (R240, R241, R250) -/

/-- The bytes of each line that an instance writes; a higher thread's byte stands later (R240). -/
def gather (l : List (Nat × Byte)) : List (Nat × SMap Byte) :=
  l.foldl (fun ls (pa, b) =>
    let line := pa / 64
    let cur : SMap Byte := SMap.get [] ls line
    SMap.put ls line (cur.put (pa % 64) b)) []

/-- The group's own block stages its writes: launches with ordered release, groups of a block (R428; log 22). -/
def Cx.stages (c : Cx) : Bool := c.l.ord && !c.g.spawned
/-- Bytes a block has staged on a die, or has on their way there. -/
def State.stagedBytes (s : State) (launch block die : Nat) : Nat :=
  (s.staged.filter fun w => w.launch == launch && w.block == block && w.die == die).foldl (fun n w => n + w.bytes.length) 0 +
  (s.writes.filter fun w => w.staged == some (launch, block) && w.die == die).foldl (fun n w => n + w.bytes.length) 0
/-- Has every block of a launch below this one been released (R429)? -/
def State.lowerReleased (s : State) (launch block : Nat) : Bool :=
  !(s.blocks.any fun b => b.launch == launch && decide (b.index < block) && decide (b.phase ≠ .released))
/-- More than 16 MiB staged on one die hold a block until the blocks below it have been released (R430). -/
def State.stageHolds (s : State) (launch block die n : Nat) : Bool :=
  decide (16 * 2 ^ 20 < s.stagedBytes launch block die + n) && !s.lowerReleased launch block
def Cx.stageFull (c : Cx) (s : State) (n : Nat) : Bool := c.stages && s.stageHolds c.l.id c.g.block (dieOf c.g.core) n

/-- A line present in the L1 takes the bytes of an STNA and clears their dirty bits; the stores that are left without a dirty byte wait
for that write instead (R250). -/
def L1Line.replaced (x : L1Line) (bytes : SMap Byte) : L1Line × List Nat × List Nat :=
  let dirty := x.dirty.filter fun k => !bytes.has k.1
  let y : L1Line := { x with
    clean := x.clean.map (overlay bytes)
    mark := if bytes.length = 64 then LineMark.none else x.mark
    dirty := dirty }
  if dirty.isEmpty then ({ y with owners := [], waiters := [] }, x.owners, x.waiters) else (y, [], [])

/-- Send the lines of a write straight to their homes or to the staging of their block. -/
def Cx.sendLines (c : Cx) (s : State) (op : Nat) (lines : List (Nat × SMap Byte)) : State :=
  lines.foldl (fun s (line, bytes) =>
    let (id, s) := s.fresh
    let (s, owners, waiters) := match s.l1? c.g.core line with
      | some x => if c.stages then (s, [], []) else (s.putL1 (x.replaced bytes).1, (x.replaced bytes).2)
      | none => (s, [], [])
    s.send { id := id, core := some c.g.core, die := dieOf c.g.core, line := line, bytes := bytes, stamp := s.qi,
             owners := c.g.id :: owners.filter (· ≠ c.g.id), waiters := op :: waiters, staged := if c.stages then some (c.l.id, c.g.block) else none,
             failing := false, poison := false } c.l.id) s

/-- Write gathered lines as a store of the group: into the L1, or straight to the homes for STNA and under ordered release. -/
def Cx.store (c : Cx) (s : State) (lines : List (Nat × SMap Byte)) (na : Bool) : State :=
  let s := s.settle c.g.id (some (lines.map fun k => k.1))
  let (id, s) := s.fresh
  if lines.isEmpty then s
  else
    let s := s.newOp { id := id, grp := c.g.id, sub := c.r.sub, counter := 1, core := c.g.core, asid := c.l.asid, stamp := s.qi,
                       left := lines.length, taken := [], given := [], kind := .store }
    if na || c.stages then c.sendLines s id lines
    else lines.foldl (fun s (line, bytes) => s.dirtyLine c.g.core line c.g.id id s.qi bytes) s

/-- The data of a store for a thread: the low S bytes of the operand (R240). -/
def Cx.storeData (c : Cx) (x : Ext) (t : Nat) : List Byte :=
  let reg := fun (i : Nat) => match operandOf x.d with
    | .vreg n => (c.vread (n + i) t).1.toNat
    | .ureg n => (c.u.ureg (n + i)).toNat
    | .win k => (match c.u.window[k]? with
      | some e => (e.vals.get 0 t).toNat / 2 ^ (32 * i) % 2 ^ 32
      | none => 0)
    | _ => 0
  ((List.range (memRegs x)).flatMap fun i => leBytes 4 (reg i)).take (memSize x)

/-- ST, STNA and STP. -/
def effStore (x : Ext) (strided na : Bool) (c : Cx) (s : State) : Res :=
  let want := (c.threads x.p).map fun t => ({ thread := t, va := c.ea x strided t, member := memMember x t } : Want)
  let align := if memW x = 0 then none else some (memSize x, 5)
  match s.translate c (c.who false true) (memSize x) align x.p want with
  | .error t => .fault t
  | .ok (gs, seen) =>
    let lines := gather (gs.flatMap fun g => (g.addrs.map s.place).zip (c.storeData x g.thread))
    if s.atomHeld c.g.id (lines.map fun k => k.1) || c.stageFull s (gs.length * memSize x) then .hold
    else .done (c.store (s.learn seen) lines na)

/-- The lines that a PREF asks for: those that the active threads' addresses touch and that can be read (R243). -/
def Cx.prefLines (c : Cx) (x : Ext) (s : State) : List Nat :=
  (linesOf ((c.threads x.p).filterMap fun t => match s.reach (c.who true false) (c.ea x false t) (memMember x t) with
    | (.error _, _) => none
    | (.ok r, _) => some (64 * s.fwd (r.pa / 64)))).filter fun line =>
      decide ((s.markOf line).poison = 0) && !(s.markOf line).failing

/-- PREF: each distinct line is filled at the group's epoch, or fetched to the die's L2; a line that the group's reads hit already asks
for nothing (R243, R255). -/
def effPref (x : Ext) (c : Cx) (s : State) : Res :=
  .done ((c.prefLines x s).foldl (fun s line =>
    if x.subBits 6 5 = 0 then
      if (s.l1? c.g.core line).any fun k => (k.cleanAt c.g.gepoch).isSome then s
      else ((s.countReq c.l.id c.g.core line false).readHome c.g.core line c.g.gepoch c.g.gepoch false []).2.2
    else ((s.countReq c.l.id c.g.core line false).fetchLine c.g.core line true).2.2) s)

/-! ### Meanings -/

/-- LD (R239). -/
def execLd (x : Ext) (s : State) : Out :=
  s.issueM x.words x (formLoad x false) (memDyn x) (fun _ => 0) (effLoad x false false)
/-- LDNA (R239, R250, R252). -/
def execLdna (x : Ext) (s : State) : Out :=
  s.issueM x.words x (formLoad x false) (memDyn x) (fun _ => 0) (effLoad x false true)
/-- LDP (R241). -/
def execLdp (x : Ext) (s : State) : Out :=
  s.issueM x.words x (formLoad x false) (memDyn x) (fun _ => 0) (effLoad x true false)
/-- LDU (R242). -/
def execLdu (x : Ext) (s : State) : Out :=
  s.issueM x.words x (formLoad x true) (memDyn x) (fun _ => 0) (effLdu x) fun c => c.firstMembers x.p
/-- ST (R240). -/
def execSt (x : Ext) (s : State) : Out :=
  s.issueM x.words x (formStore x) (memDyn x) (fun _ => 1) (effStore x false false)
/-- STNA (R240, R250). -/
def execStna (x : Ext) (s : State) : Out :=
  s.issueM x.words x (formStore x) (memDyn x) (fun _ => 1) (effStore x false true)
/-- STP (R241). -/
def execStp (x : Ext) (s : State) : Out :=
  s.issueM x.words x (formStore x) (memDyn x) (fun _ => 1) (effStore x true false)
/-- PREF (R243). A marked base or index is a read of a marked unit (R245; log 54). -/
def execPref (x : Ext) (s : State) : Out :=
  s.issueM x.words x (formPref x) (memDyn x) (fun _ => 4) (effPref x)

/-! ### Events -/

/-- An event that is not enabled. -/
def notNow (name : String) : Out := .refused (.notEnabled name)

/-- LOAD_DATA_ARRIVAL of a plain load: an early part, or the rest and its completion (R31, R105, R245). -/
def State.loadArrival (s : State) (o : Op) (g : Group) (accs : List Access) (epoch : Nat) (na : Bool) (uni : Option Nat)
    (p : Option Nat) : State :=
  match p with
  | some p =>
    let s := s.sample o g accs epoch na (partSel s.stamp p)
    match uni, s.op? o.id with
    | none, some o => s.give o accs uni
    | _, _ => s
  | none =>
    let s := s.sample o g accs epoch na fun _ _ => true
    match s.op? o.id with
    | some o => (s.give o accs uni).complete o.id
    | none => s

/-- Writes of one core to one line are performed in the order in which they left (R98); lines that move are named by their destination
(R290). -/
def State.firstOfLine (s : State) (w : HomeWrite) : Bool :=
  match s.writes.find? fun o => o.line == w.line && o.core == w.core && w.core.isSome with
  | some o => o.id == w.id
  | none => true

/-- Links in service to a chip, and whether one of them carries flits now (R435, R436, R449). -/
def State.linksTo (s : State) (chip : Nat) : List Port := s.ports.filter fun p => p.width != 0 && p.chip == chip
def State.reachable (s : State) (chip : Nat) : Bool := !(s.linksTo chip).isEmpty
def State.carries (s : State) (chip : Nat) : Bool := (s.linksTo chip).any fun p => p.next.isNone

/-- WRITE_PERFORMED_AT_HOME (R254): the write request that State.arg names. -/
def execWritePerformedAtHome (s : State) : Out :=
  match s.arg with
  | .num id => match s.writes.find? fun w => w.id == id with
    | some w => if s.firstOfLine w && s.pathTo w.line then .next (s.tick.performWrite w) else notNow "WRITE_PERFORMED_AT_HOME"
    | none => notNow "WRITE_PERFORMED_AT_HOME"
  | _ => notNow "WRITE_PERFORMED_AT_HOME"

/-- GUEST_INVALIDATION_PROBE (R253): the die drops the line if its filter shows it, and its answer starts back. -/
def execGuestInvalidationProbe (s : State) : Out :=
  match s.arg with
  | .pair id die => match s.probes.find? fun p => p.id == id && p.die == die && !p.answered with
    | some p => .next { s.tick with
        guests := s.guests.filter fun g => !(g.die == die && g.line == p.line)
        probes := s.probes.map fun q => if q.id = id ∧ q.die = die then { q with answered := true } else q }
    | none => notNow "GUEST_INVALIDATION_PROBE"
  | _ => notNow "GUEST_INVALIDATION_PROBE"

/-- PROBE_ANSWER (R253): a die that holds no line of the region any more leaves the region's set. -/
def execProbeAnswer (s : State) : Out :=
  match s.arg with
  | .pair id die => match s.probes.find? fun p => p.id == id && p.die == die && p.answered with
    | some p =>
      let holds := s.guests.any fun g => g.die == die && g.line / 8 == p.line / 8
      .next { s.tick with
        probes := s.probes.filter fun q => !(q.id == id && q.die == die)
        dirs := if holds then s.dirs else s.dirs.set [] (p.line / 8) ((s.dirOf p.line).filter (· ≠ die)) }
    | none => notNow "PROBE_ANSWER"
  | _ => notNow "PROBE_ANSWER"

/-- DIRECTORY_EVICTION (R253): every guest copy of the region goes, then its entry. -/
def execDirectoryEviction (s : State) : Out :=
  match s.arg with
  | .num region => if s.dirs.has region then
      .next { s.tick with
        guests := s.guests.filter fun g => g.line / 8 ≠ region
        dirs := s.dirs.erase region }
    else notNow "DIRECTORY_EVICTION"
  | _ => notNow "DIRECTORY_EVICTION"

/-- GUEST_COPY_EVICTION (R253): a die drops a guest copy. -/
def execGuestCopyEviction (s : State) : Out :=
  match s.arg with
  | .pair die line => if s.guests.any fun g => g.die == die && g.line == line then
      .next { s.tick with guests := s.guests.filter fun g => !(g.die == die && g.line == line) }
    else notNow "GUEST_COPY_EVICTION"
  | _ => notNow "GUEST_COPY_EVICTION"

/-- VISIBILITY_TIME_REACHED (R31, R254): device time has reached it and every guest copy of the line is invalidated; the stores
that wait for it count down. -/
def execVisibilityTimeReached (s : State) : Out :=
  match s.arg with
  | .num id => match s.visible.find? fun v => v.id == id with
    | some v =>
      if v.time ≤ s.time && !(s.probes.any fun p => p.id == id && !p.answered) then
        let s : State := { s.tick with visible := s.visible.filter fun o => o.id ≠ id }
        .next (v.waiters.foldl (fun s op => s.landed op) s)
      else notNow "VISIBILITY_TIME_REACHED"
    | none => notNow "VISIBILITY_TIME_REACHED"
  | _ => notNow "VISIBILITY_TIME_REACHED"

/-- Write back one L1 line, for whatever cause. -/
def State.writeBack (s : State) (core line : Nat) (drop : Bool) : State :=
  match s.l1? core line with
  | some x => let s := s.flushLine x; if drop then s.dropL1 core line else s
  | none => s

/-- Dirty bytes stay in an L1 for so many clocks at most (R248). -/
def writebackClocks : Nat := 2048

/-- L1_WRITEBACK_DEADLINE (R248): dirty bytes leave 2,048 clocks after the store that dirtied them, unless they have left before. -/
def execL1WritebackDeadline (s : State) : Out :=
  match s.arg with
  | .pair core line => match s.l1? core line with
    | some x => if !x.dirty.isEmpty && decide (x.since + writebackClocks ≤ s.time) then .next (s.tick.writeBack core line false)
      else notNow "L1_WRITEBACK_DEADLINE"
    | none => notNow "L1_WRITEBACK_DEADLINE"
  | _ => notNow "L1_WRITEBACK_DEADLINE"

/-- L1_EVICTION (R248): a line leaves the L1 at any time; its dirty bytes are written back. -/
def execL1Eviction (s : State) : Out :=
  match s.arg with
  | .pair core line => if (s.l1? core line).isSome then .next (s.tick.writeBack core line true) else notNow "L1_EVICTION"
  | _ => notNow "L1_EVICTION"

end Machine
end Sys2Proof
end

