-- ==== Sys2Proof/Machine/Fetch.lean ====
section
/-! DEFINITION. Instruction fetch: code as it stood when the launch was enqueued, under the permissions of the page (R79
02_encoding.md, R283 12_translation.md), and the look at the word after an instruction (R63). -/

namespace Sys2Proof
namespace Machine

/-- The fault of a fetch at `va`: none, or its address, cause and DETAIL (R79, R282, R283, R284). A fetch consumes the line it reads,
so that a poisoned or failing line stops it (R39; log 25). Cause 0 is no fault: the fetch waits for a path (R449). -/
def State.fetchFault (s : State) (l : Launch) (core va : Nat) : Option (Nat × Nat × Nat) :=
  if 2 ^ 57 ≤ va then some (va, 3, 0)
  else match (s.walk (some core) l.asid va 0).1 with
    | .fails 5 9 _ => some (va, 5, 9)
    | .fails 5 _ _ => some (va, 3, 0)
    | .fails cause detail line => some (if cause = 7 then 64 * line else va, cause, detail)
    | .leaf f =>
      if f.pl = 3 then some (va, 5, 9)
      else if !f.ex || (f.prv && !l.priv) then some (va, 3, 0)
      else if f.psn then some (va, 6, 1)
      else if s.pathTo (s.fwd (f.pa / 64)) = false then some (va, 0, 0)
      else (s.markOfBytes [f.pa]).map fun m => (m.addr, m.cause, m.detail)

/-- The physical address at which the launch's code memory holds a byte: through the tables as they stood at enqueue, so that a
page moved since keeps its code. -/
def State.codeAddr (s : State) (l : Launch) (core va : Nat) : Nat :=
  let old : State := { s with mem := l.code, astbase := l.codeAst, tlb := [], forward := [], lineMarks := [], lost := [], dieState := [] }
  match (old.walk none l.asid va 0).1 with
  | .leaf f => f.pa
  | .fails _ _ _ => match (s.walk (some core) l.asid va 0).1 with
    | .leaf f => f.pa
    | .fails _ _ _ => 0

/-- One word of code. -/
def State.codeWord (s : State) (l : Launch) (core va : Nat) : Except (Nat × Nat × Nat) Word :=
  match s.fetchFault l core va with
  | some e => .error e
  | none =>
    let pa := s.codeAddr l core va
    .ok (BitVec.ofNat 32 (leNat ((List.range 4).map fun i => SMap.get 0 l.code (pa + i))))

/-- `n` words of code from an address. -/
def State.codeWords (s : State) (l : Launch) (core : Nat) : Nat → Nat → Except (Nat × Nat × Nat) (List Word)
  | _, 0 => .ok []
  | va, n + 1 => match s.codeWord l core va with
    | .error e => .error e
    | .ok w => match s.codeWords l core (va + 4) n with
      | .error e => .error e
      | .ok ws => .ok (w :: ws)

/-- The words of the instruction at an address: as many as its LEN says. -/
def State.fetch (s : State) (l : Launch) (core va : Nat) : Except (Nat × Nat × Nat) (List Word) :=
  match s.codeWord l core va with
  | .error e => .error e
  | .ok w => match s.codeWords l core (va + 4) (wordsOf w - 1) with
    | .error e => .error e
    | .ok ws => .ok (w :: ws)

/-- An instruction that waits at a run boundary stands immediately before the trailer (R63); a word that cannot be fetched is left
to its own fetch fault (log 17). -/
def State.notLast (s : State) (c : Cx) : List Nat :=
  match s.codeWord c.l c.g.core (c.u.pc.toNat + 12) with
  | .ok w => failIf (decide (opOf w ≠ 0)) 15
  | .error _ => []

end Machine
end Sys2Proof
end

