-- ==== Sys2Proof/Machine/Frames.lean ====
section
/-! DEFINITION. The frame area (R319, R320 14_spawn.md), the accesses that engines make at homes on behalf of no single thread
(R464 12_translation.md), and call frames (R333). -/

namespace Sys2Proof
namespace Machine

/-- Blocks of the frame area. -/
def Launch.frameBlocks (l : Launch) : Nat := l.frameSize / 64

/-- The lowest block at which `n` consecutive free blocks stand below `total`. -/
def lowestRun (total n : Nat) : Nat → List FrameUse → Option Nat
  | pos, [] => if pos + n ≤ total then some pos else none
  | pos, f :: rest => if pos + n ≤ f.start then some pos else lowestRun total n (f.start + f.len) rest

/-- Allocate one run (R319). -/
def Launch.alloc (l : Launch) (n grp use : Nat) : Option (Nat × Launch) :=
  (lowestRun l.frameBlocks n 0 l.frames).map fun k =>
    (k, { l with frames := insertBy (fun a b => decide (a.start ≤ b.start)) { start := k, len := n, grp := grp, use := use } l.frames })
/-- Free the run that starts at a block. -/
def Launch.free (l : Launch) (start : Nat) : Launch := { l with frames := l.frames.filter fun f => f.start ≠ start }
/-- Free blocks in all (R332). -/
def Launch.freeBlocks (l : Launch) : Nat := l.frameBlocks - l.frames.foldl (fun n f => n + f.len) 0
/-- Virtual address of a block. -/
def Launch.blockAddr (l : Launch) (k : Nat) : Nat := l.frameBase + 64 * k

/-- Who accesses for an engine: no core's cache, member 0 (R464). -/
def Launch.engine (l : Launch) (rd wr : Bool) : Who := { core := none, asid := l.asid, priv := l.priv, rd := rd, wr := wr }

/-- Physical addresses of an engine's access. -/
def State.engineAddrs (s : State) (l : Launch) (va n : Nat) (rd wr : Bool) : Except (Nat × Nat × Nat) (List Nat) :=
  match (s.reachAll (l.engine rd wr) va n 0).1 with
  | .error e => .error e
  | .ok r => .ok r.1

/-- Perform writes at their homes at once: one request for each line, from a die, for some groups' horizons. -/
def State.writeHome (s : State) (die : Nat) (owners : List Nat) (l : List (Nat × Byte)) : State :=
  (gather l).foldl (fun s (line, bytes) =>
    let (id, s) := s.fresh
    (s.merge line die bytes false).publish (s.fwd line) die owners [] id) s

/-- An engine's write of bytes at a virtual address; where the page no longer allows it, nothing is written. -/
def State.engineWrite (s : State) (l : Launch) (die : Nat) (owners : List Nat) (va : Nat) (b : List Byte) : State :=
  match s.engineAddrs l va b.length false true with
  | .error _ => s
  | .ok addrs => s.writeHome die owners (addrs.zip b)

/-- An engine's read of `n` bytes as a number; none where the page does not allow it. -/
def State.engineRead (s : State) (l : Launch) (va n : Nat) : Option Nat :=
  match s.engineAddrs l va n true false with
  | .error _ => none
  | .ok addrs => some (leNat (addrs.map s.byteAt))

/-- The mark that an engine's read of `n` bytes meets: no bytes of such a line are used (R39, R284; log 58). -/
def State.engineMark (s : State) (l : Launch) (va n : Nat) : Option Mark :=
  match s.engineAddrs l va n true false with
  | .error _ => none
  | .ok addrs => s.markOfBytes addrs
/-- The fault that an engine's read of some blocks of the frame area makes of an instruction, by the first of `ts` whose block is
marked (R39, R284, R320; log 58). -/
def State.frameFault (s : State) (l : Launch) (msk : List Nat) (ts : List (Nat × Nat)) : Option TrapReq :=
  ts.findSome? fun (t, va) => (s.engineMark l va 1).map fun m =>
    { cause := m.cause, detail := m.detail, addr := m.addr, msk := msk, thread := t }

/-- Engine reads of `n` bytes consume their lines. -/
def State.engineConsume (s : State) (l : Launch) (va n : Nat) : State :=
  match s.engineAddrs l va n true false with
  | .error _ => s
  | .ok addrs => s.consume addrs

/-- Pages that `n` bytes can touch. -/
def pagesOf (n : Nat) : Nat := n / 65536 + 2
/-- Is there a path to each page of some bytes, and to its tables (R449 20_links.md)? -/
def State.areaPath (s : State) (l : Launch) : Nat → Nat → Nat → Bool
  | 0, _, _ => true
  | _, _, 0 => true
  | fuel + 1, va, n =>
    let k := min n (65536 - va % 65536)
    (match (s.reach (l.engine false false) va 0).1 with
      | .ok r => s.pathTo (r.pa / 64)
      | .error (_, cause, _) => decide (cause ≠ 0)) && s.areaPath l fuel (va + k) (n - k)
/-- Can the dispatcher and the engines reach some bytes of a launch now? -/
def State.areaOpen (s : State) (l : Launch) (va n : Nat) : Bool := s.hostPath || s.areaPath l (pagesOf n) va n
/-- Can they reach its frame area? -/
def State.framesOpen (s : State) (l : Launch) : Bool := s.areaOpen l l.frameBase l.frameSize

/-! ### Await records, completion of threads (R321, R328) -/

/-- The count of outstanding, and of unreported, children of a thread, as they stand in memory; 0 with no await record. -/
def State.count (s : State) (l : Launch) (awr : Option Nat) (t off : Nat) : Nat :=
  match awr with
  | some k => (s.engineRead l (l.blockAddr k + off + 2 * t) 2).getD 0
  | none => 0
def State.outstanding (s : State) (l : Launch) (awr : Option Nat) (t : Nat) : Nat := s.count l awr t 0
def State.unreported (s : State) (l : Launch) (awr : Option Nat) (t : Nat) : Nat := s.count l awr t 512

/-- Free the run at a block, if there is one. -/
def State.freeBlocksAt (s : State) (launch : Nat) : Option Nat → State
  | some k => s.modLaunch launch fun l => l.free k
  | none => s

/-- Operations that the group issued before a thread's exit are outstanding. -/
def State.opsBefore (s : State) (g : Group) (t : Nat) : Bool :=
  let mark := match g.exits.find? fun k => k.1 == t % 256 with
    | some k => k.2
    | none => 0
  s.ops.any fun o => o.grp == g.id && decide (o.id < mark)

/-- A thread is complete but for its report: it has exited, it has no outstanding children, and the operations before its exit
have completed. -/
def State.threadDone (s : State) (l : Launch) (g : Group) (t : Nat) : Bool :=
  !(g.liveOf (t / 32)).getLsbD (t % 32) && decide (s.outstanding l g.awr (t % 256) = 0) && !s.opsBefore g t

/-- Free what finished groups of a launch no longer need (R319): their continuation reservations and call frames, and an await
record once every thread of its group is complete. Formed groups have not begun. -/
def State.reap (s : State) (launch : Nat) : State :=
  s.groups.foldl (fun s g =>
    if g.launch ≠ launch ∨ g.finished = false ∨ g.place = .formed then s
    else match s.launch? launch with
      | none => s
      | some l =>
        let s := if g.resv.isSome then (s.freeBlocksAt launch g.resv).modGroup g.id fun g => { g with resv := none, place := .gone } else s
        let s := s.modLaunch launch fun l => { l with frames := l.frames.filter fun f => !(f.grp == g.id && f.use == 3) }
        let complete := g.frames.isEmpty && (List.range (32 * g.m)).all fun t => s.threadDone l g t
        if complete && g.awr.isSome then (s.freeBlocksAt launch g.awr).modGroup g.id fun g => { g with awr := none } else s) s

/-! ### Call frames (R333) -/

/-- No call frame, as a header and a save record code it. -/
def noFrame : Nat := 0xFFFFFFFF

/-- The call frames that a sub-group holds: its current one, and those that it will return to, as the headers name them. -/
def State.frameChain (s : State) (l : Launch) : Nat → Option Nat → List Nat
  | 0, _ => []
  | _, none => []
  | n + 1, some k => k :: s.frameChain l n (match s.engineRead l (l.blockAddr k + 8) 4 with
      | some p => if p = noFrame then none else some p
      | none => none)
def State.framesOf (s : State) (l : Launch) (u : SubGroup) : List Nat := s.frameChain l l.frames.length u.cfrm

/-- Does another unfinished sub-group of the group hold the frame? -/
def State.sharesFrame (s : State) (l : Launch) (g : Group) (n k : Nat) : Bool :=
  g.subs.any fun u => u.num ≠ n && decide (u.phase ≠ .finished) && (s.framesOf l u).contains k

/-- A RET gives up the sub-group's current call frame; the last holder frees it (R381). -/
def State.releaseFrame (s : State) (l : Launch) (g : Group) (u : SubGroup) : State :=
  match u.cfrm with
  | some k => if s.sharesFrame l g u.num k then s else s.modLaunch g.launch fun l => l.free k
  | none => s
/-- A sub-group that finishes gives up every call frame that it holds (R381). -/
def State.releaseFrames (s : State) (l : Launch) (g : Group) (u : SubGroup) : State :=
  ((s.framesOf l u).filter fun k => !s.sharesFrame l g u.num k).foldl (fun s k => s.modLaunch g.launch fun l => l.free k) s

/-- Is the operation still to write the vector register (R73)? -/
def Op.writesReg (o : Op) (r : Nat) : Bool :=
  let span := fun (n len : Nat) => decide (n ≤ r) && decide (r < n + len)
  let elems := fun (t : DType) (n : Nat) => (if t.wide then 2 else 1) * ((n + 31) / 32)
  match o.kind with
  | .load accs _ _ none => accs.any fun a => span a.reg a.regs
  | .atom reqs => reqs.any fun q => match q.reg with
    | some n => span n (if q.width = 8 then 2 else 1)
    | none => false
  | .copy w => (match w.dst with
    | .reg n => span n (match w.way with
      | .dims _ l => elems w.td (l.foldl (fun k d => k * d.1) 1)
      | .field _ _ _ _ _ nx ny _ _ _ _ => elems w.td (nx * ny)
      | .table _ _ _ => 240)
    | _ => false)
  | .ccoll w => (match w.dst with
    | .reg n => span n (elems w.td w.count)
    | _ => false)
  | .remote w => (match w.reg with
    | some n => span n (if w.width = 8 then 2 else 1)
    | none => false)
  | .qsync _ d => operandOf d == .vreg r
  | .matrix w => (match w.what with
    | .stat _ _ d _ => operandOf d == .vreg r
    | _ => false)
  | _ => false

/-- Blocks of a call frame. -/
def callBlocks (m fsz : Nat) : Nat := 1 + 32 * m * fsz

/-- The spill part of a thread in the sub-group's current call frame, 0 outside a CALL (R331, R333). -/
def Cx.spill (c : Cx) (t : Nat) : Nat :=
  match c.u.cfrm with
  | none => 0
  | some k => match c.l.frames.find? fun f => f.start == k with
    | some f => c.l.blockAddr k + 64 + t * ((f.len - 1) / (32 * c.g.m)) * 64
    | none => 0

end Machine
end Sys2Proof
end

