-- ==== Sys2Proof/Machine/Sequencer.lean ====
section
/-! DEFINITION. Group sequencer: masks, predicates, system registers, waits (R111 to R130 04_sequencer.md), WAITC and NOP (R74, R75
02_encoding.md). -/

namespace Sys2Proof
namespace Machine

/-! ### Forms -/

def isVec (d : BitVec 9) : Bool := match operandOf d with | .vreg _ => true | _ => false
def isUni (d : BitVec 9) : Bool := match operandOf d with | .ureg _ => true | _ => false

/-- A reader of group state: vector, uniform and, where `nil`, 0x1FF destinations; a guard with a vector D only (R117). -/
def formRead (x : Ext) (wide nil : Bool) (own1 : Nat) (own : List Nat) : Form :=
  { dest := .reg wide true true nil, own1 := own1, guard := isVec x.d, own := own }
/-- An instruction that acts once, with source A uniform or constant where `src`. -/
def formOnce (src : Bool) (own1 : Nat) (own : List Nat) : Form :=
  { srcs := if src then [{ slot := .A, wide := false, kinds := uniConst, mods := false }] else [],
    own1 := own1, guard := false, own := own }

/-! ### Masks and partition (R117 to R119) -/

def formExmrd (x : Ext) : Form := formRead x false true (if isUni x.d then 7 else 0) []
def formExmwr (x : Ext) : Form :=
  formOnce (!x.bit1 2) (7 + if x.bit1 2 then 0x0F000000 else 0) (failIf (x.subBits 1 0 == 3) 4)
def formMmkwr (x : Ext) : Form := formOnce true 3 (failIf (x.subBits 1 0 == 3) 4)
def formLprwr (x : Ext) : Form := formOnce false 7 (failIf (decide (5 ≤ x.subBits 2 0)) 4)

/-- MMK as a sub-group sees it (R115). -/
def Cx.mmkSeen (c : Cx) : Nat := (c.u.mmk &&& c.u.members).toNat

def w32 (n : Nat) : Dword := BitVec.ofNat 64 (n % 2 ^ 32)

/-- EXMRD (R118): a uniform destination takes the member of SUB[2:0]. -/
def effExmrd (x : Ext) (c : Cx) (s : State) : Res :=
  c.result s x false fun t =>
    (w32 (c.g.exmOf (if isUni x.d then x.subBits 2 0 else t / 32)).toNat, 0)
/-- MMKRD (R118). -/
def effMmkrd (x : Ext) (c : Cx) (s : State) : Res := c.result s x false fun _ => (w32 c.mmkSeen, 0)
/-- LPRRD (R118). -/
def effLprrd (x : Ext) (c : Cx) (s : State) : Res := c.result s x false fun _ => (w32 c.width, 0)

/-- The three mask operations of OPC; bits outside `own` stay (R119). -/
def maskOp (opc old val own : Nat) : Nat :=
  match opc with
  | 0 => (old &&& (own ^^^ (old ||| own))) ||| (val &&& own)
  | 1 => old &&& (val ||| (own ^^^ (old ||| own)))
  | _ => old ||| (val &&& own)

/-- The value of a uniform or constant operand A. -/
def Cx.once (c : Cx) (x : Ext) : Nat := (c.plain x .A false .int 0).toNat

/-- EXMWR (R119): every member with MMK set; lanes that are not live stay zero. -/
def effExmwr (x : Ext) (c : Cx) (s : State) : Res :=
  .done (s.modGroup c.r.grp fun g => { g with exm := c.masked.foldl (fun exm m =>
    let val := if x.bit1 2 then (g.predOf m (bits x.w1 27 24)).toNat else c.once x
    let live := (g.liveOf m).toNat
    exm.set 0 m (BitVec.ofNat 32 (maskOp (x.subBits 1 0) (g.exmOf m).toNat val live &&& live))) g.exm })
/-- MMKWR (R119). -/
def effMmkwr (x : Ext) (c : Cx) (s : State) : Res :=
  .done (s.modSub c.r fun u => { u with
    mmk := BitVec.ofNat 8 (maskOp (x.subBits 1 0) u.mmk.toNat (c.once x % 256) (ofBits c.members)) })
/-- LPRWR (R119). -/
def effLprwr (x : Ext) (c : Cx) (s : State) : Res :=
  .done (s.modSub c.r fun u => { u with lpr := BitVec.ofNat 3 (x.subBits 2 0) })

/-- EXMRD (R117, R118). -/
def execExmrd (x : Ext) (s : State) : Out := s.issueAlu x.words x (formExmrd x) (effExmrd x)
/-- EXMWR (R117, R119). -/
def execExmwr (x : Ext) (s : State) : Out := s.issueAlu x.words x (formExmwr x) (effExmwr x)
/-- MMKRD (R117, R118). -/
def execMmkrd (x : Ext) (s : State) : Out := s.issueAlu x.words x (formRead x false true 0 []) (effMmkrd x)
/-- MMKWR (R117, R119). -/
def execMmkwr (x : Ext) (s : State) : Out := s.issueAlu x.words x (formMmkwr x) (effMmkwr x)
/-- LPRRD (R117, R118). -/
def execLprrd (x : Ext) (s : State) : Out := s.issueAlu x.words x (formRead x false true 0 []) (effLprrd x)
/-- LPRWR (R117, R119). -/
def execLprwr (x : Ext) (s : State) : Out := s.issueAlu x.words x (formLprwr x) (effLprwr x)

/-! ### Predicates (R120) -/

def pdOf (x : Ext) : Nat := bits x.w1 31 28
def paOf (x : Ext) : Nat := bits x.w1 27 24
def pbOf (x : Ext) : Nat := bits x.w1 23 20
def pdMask : Nat := 0xF0000000
def paMask : Nat := 0x0F000000
def pbMask : Nat := 0x00F00000
/-- A PD of 0 breaks the entry's own rule. -/
def pdRule (x : Ext) : List Nat := failIf (pdOf x == 0) 16

/-- A predicate result from predicates only. -/
def formPred (x : Ext) (own1 : Nat) : Form := { own1 := pdMask ||| own1, own := pdRule x }

def formPmov (x : Ext) : Form :=
  match x.sub with
  | 0 => { own1 := pdMask ||| paMask, own := pdRule x }
  | 1 => { own1 := pdMask ||| 3, own := pdRule x,
           srcs := [{ slot := .A, wide := false, kinds := ⟨true, true, true, false, false, false⟩, mods := false }] }
  | 2 => { own1 := paMask ||| 3, dest := .reg false true false true }
  | 3 => { own1 := pdMask ||| 3, own := pdRule x, srcs := [{ slot := .A, wide := false, kinds := uniConst, mods := false }] }
  | _ => { own1 := pdMask ||| paMask ||| 0x7FF, own := [4] }

/-- Predicate k of a thread. -/
def Cx.pred (c : Cx) (k t : Nat) : Bool := c.g.predBit t k

/-- PMOV (R120). -/
def effPmov (x : Ext) (c : Cx) (s : State) : Res :=
  match x.sub with
  | 1 => c.predResult s (pdOf x) x.p fun t => (decide ((c.plain x .A false .int t).toNat ≠ 0), 0)
  | 2 => c.result s x false fun t => (if c.pred (paOf x) t then 1 else 0, 0)
  | 3 => c.predResult s (pdOf x) x.p fun t => ((c.plain x .A false .int t).getLsbD (t % 32), 0)
  | _ => c.predResult s (pdOf x) x.p fun t => (c.pred (paOf x) t, 0)
/-- A predicate of two predicates. -/
def effPbin (x : Ext) (f : Bool → Bool → Bool) (c : Cx) (s : State) : Res :=
  c.predResult s (pdOf x) x.p fun t => (f (c.pred (paOf x) t) (c.pred (pbOf x) t), 0)

/-- The active threads of t's tile whose predicate PA is true (R120, R152). -/
def Cx.tileSet (c : Cx) (p : BitVec 4) (pa t : Nat) : List Nat :=
  let w := c.width
  (c.threads p).filter fun o => o / 32 == t / 32 && o % 32 / w == t % 32 / w && c.pred pa o
/-- PCNT (R120). -/
def effPcnt (x : Ext) (c : Cx) (s : State) : Res :=
  c.result s x false fun t => (w32 (c.tileSet x.p (paOf x) t).length, 0)
/-- PFIRST (R120). -/
def effPfirst (x : Ext) (c : Cx) (s : State) : Res :=
  c.predResult s (pdOf x) x.p fun t => ((c.tileSet x.p (paOf x) t).head? == some t, 0)

/-- PMOV (R120). -/
def execPmov (x : Ext) (s : State) : Out := s.issueAlu x.words x (formPmov x) (effPmov x)
/-- PAND (R120). -/
def execPand (x : Ext) (s : State) : Out :=
  s.issueAlu x.words x (formPred x (paMask ||| pbMask)) (effPbin x fun a b => a && b)
/-- POR (R120). -/
def execPor (x : Ext) (s : State) : Out :=
  s.issueAlu x.words x (formPred x (paMask ||| pbMask)) (effPbin x fun a b => a || b)
/-- PXOR (R120). -/
def execPxor (x : Ext) (s : State) : Out :=
  s.issueAlu x.words x (formPred x (paMask ||| pbMask)) (effPbin x fun a b => a != b)
/-- PNOT (R120). -/
def execPnot (x : Ext) (s : State) : Out :=
  s.issueAlu x.words x (formPred x paMask) (effPbin x fun a _ => !a)
/-- PANDN (R120). -/
def execPandn (x : Ext) (s : State) : Out :=
  s.issueAlu x.words x (formPred x (paMask ||| pbMask)) (effPbin x fun a b => a && !b)
/-- PCNT (R120). -/
def execPcnt (x : Ext) (s : State) : Out :=
  s.issueAlu x.words x { own1 := paMask, dest := .reg false true false true } (effPcnt x)
/-- PFIRST (R120). -/
def execPfirst (x : Ext) (s : State) : Out := s.issueAlu x.words x (formPred x paMask) (effPfirst x)

/-! ### System registers (R122 to R124) -/

def srnOf (x : Ext) : Nat := x.subBits 7 0
def srnWide (n : Nat) : Bool := decide (3 ≤ n) && decide (n ≤ 0x0B)
def srnOk (n : Nat) : Bool := decide (n ≤ 0x0B) || (decide (0x10 ≤ n) && decide (n ≤ 0x1F))

def formSrrd (x : Ext) : Form :=
  formRead x (srnWide (srnOf x)) false 0xFF
    (failIf (!srnOk (srnOf x)) 4 ++ failIf (srnOf x == 1 && isUni x.d) 7)
/-- SRWR writes FPCR from a uniform or constant source and FPSR from a per-thread one. -/
def formSrwr (x : Ext) : Form :=
  { srcs := [{ slot := .A, wide := false,
               kinds := if srnOf x = 1 then ⟨true, true, true, true, false, false⟩ else uniConst, mods := false }],
    own1 := 0xFF, guard := srnOf x == 1, own := failIf (decide (2 ≤ srnOf x)) 4 }

/-- A system register as a group sees it; FPSR apart (R122). -/
def State.sysReg (s : State) (c : Cx) (n : Nat) : Dword :=
  match n with
  | 0 => w32 c.u.fpcr.toNat
  | 2 => w32 (dieOf c.g.core)
  | 3 => c.g.trap.info
  | 4 => c.g.trap.pc
  | 5 => c.g.trap.addr
  | 6 => c.g.trap.msk0
  | 7 => c.g.trap.msk1
  | 8 => c.g.trap.msk2
  | 9 => c.g.trap.msk3
  | 0x0A => s.mxerr.get 0 c.g.core
  | 0x0B => BitVec.ofNat 64 (s.tarnPhase % 2 ^ 17 + 7000 * 2 ^ 32 + 3500 * 2 ^ 48)
  | n => w32 (c.l.cpnd.get 0 (n - 0x10)).toNat

/-- SRRD (R123). -/
def effSrrd (x : Ext) (c : Cx) (s : State) : Res :=
  c.result s x (srnWide (srnOf x)) fun t =>
    (if srnOf x = 1 then w32 (c.g.fpsr.get 0 t).toNat else s.sysReg c (srnOf x), 0)

/-- FPCR as SRWR writes it (R123): a DRM above 100 becomes 000; reserved bits are discarded. -/
def fpcrOf (v : Nat) : Word :=
  BitVec.ofNat 32 (if 4 < v / 32 % 8 then v % 1024 / 256 * 256 + v % 32 else v % 1024)

/-- Change FPSR of some threads. -/
def Group.setFpsr (g : Group) (ts : List Nat) (f : Nat → Flags → Flags) : Group :=
  { g with fpsr := ts.foldl (fun m t => m.set 0 t (f t (m.get 0 t))) g.fpsr }

/-- SRWR (R123). -/
def effSrwr (x : Ext) (c : Cx) (s : State) : Res :=
  if srnOf x = 1 then
    .done (s.modGroup c.r.grp fun g => g.setFpsr (c.threads x.p) fun t _ =>
      BitVec.ofNat 5 (c.plain x .A false .int t).toNat)
  else .done (s.modSub c.r fun u => { u with fpcr := fpcrOf (c.once x) })

/-- FLGRD (R124). -/
def effFlgrd (x : Ext) (c : Cx) (s : State) : Res :=
  let all := (c.liveThreads.filter fun t => c.u.mmk.getLsbD (t / 32)).foldl (fun a t => a ||| (c.g.fpsr.get 0 t).toNat) 0
  c.result s x false fun t => (w32 (if isUni x.d then all else (c.g.fpsr.get 0 t).toNat), 0)
/-- FLGCLR (R124). -/
def effFlgclr (x : Ext) (c : Cx) (s : State) : Res :=
  .done (s.modGroup c.r.grp fun g => g.setFpsr (c.threads x.p) fun _ f => f &&& ~~~(BitVec.ofNat 5 x.sub))

/-- SRRD (R122, R123). -/
def execSrrd (x : Ext) (s : State) : Out := s.issueAlu x.words x (formSrrd x) (effSrrd x)
/-- SRWR (R122, R123). -/
def execSrwr (x : Ext) (s : State) : Out := s.issueAlu x.words x (formSrwr x) (effSrwr x)
/-- FLGRD (R124). -/
def execFlgrd (x : Ext) (s : State) : Out := s.issueAlu x.words x (formRead x false true 0 []) (effFlgrd x)
/-- FLGCLR (R124). -/
def execFlgclr (x : Ext) (s : State) : Out := s.issueAlu x.words x { own1 := 0x1F } (effFlgclr x)

/-! ### FPMODE, CLKRD, IDRD (R125 to R127) -/

def fmskOf (x : Ext) : Nat := bits x.w1 25 16
def fvalOf (x : Ext) : Nat := bits x.w1 9 0
def formFpmode (x : Ext) : Form :=
  { own1 := 0x03FF03FF, rnd := .absent, guard := false,
    own := failIf (outside (fvalOf x) (fmskOf x)) 16 ++
      failIf (!(fmskOf x / 32 % 8 == 0 || fmskOf x / 32 % 8 == 7)) 16 ++
      failIf (fmskOf x / 32 % 8 == 7 && decide (4 < fvalOf x / 32 % 8)) 16 }
/-- FPMODE (R125). -/
def effFpmode (x : Ext) (c : Cx) (s : State) : Res :=
  .done (s.modSub c.r fun u => { u with
    fpcr := (u.fpcr &&& ~~~(BitVec.ofNat 32 (fmskOf x)) ||| BitVec.ofNat 32 (fvalOf x)) &&& 0x3FF })
/-- CLKRD (R126): one device time in every thread. -/
def effClkrd (x : Ext) (c : Cx) (s : State) : Res := c.result s x true fun _ => (BitVec.ofNat 64 s.time, 0)

/-- The position of a unit among its siblings in a domain (R24): lane, group, block of the cluster-unit, cluster-unit of the
die-unit, die-unit. -/
def Cx.position (c : Cx) (dom t : Nat) : Nat :=
  match dom with
  | 0 => t % 32
  | 1 => c.g.index
  | 2 => c.g.block % c.l.prod 2
  | 3 => c.g.block / c.l.prod 2 % c.l.prod 3
  | _ => c.g.block / (c.l.prod 2 * c.l.prod 3)
/-- The index at level i of a position in its domain, the lowest level varying fastest (R24). -/
def Launch.indexAt (l : Launch) (i pos : Nat) : Nat :=
  let below := ((List.range i).filter fun j => l.domain j == l.domain i).foldl (fun a j => a * l.extent j) 1
  pos / below % l.extent i

/-- IDRD (R127); a spawned group belongs to no block (R326). -/
def effIdrd (x : Ext) (c : Cx) (s : State) : Res :=
  let i := x.subBits 2 0
  let seen := match c.l.domain i with
    | some d => if c.g.spawned && decide (d ≠ 0) then none else some d
    | none => none
  c.result s x false fun t =>
    (match seen with
      | none => if x.bit1 3 then 1 else 0
      | some d => if x.bit1 3 then w32 (c.l.extent i)
        else if d = 0 ∧ isUni x.d = true then 0
        else w32 (c.l.indexAt i (c.position d t)), 0)

/-- FPMODE (R125). -/
def execFpmode (x : Ext) (s : State) : Out := s.issueAlu x.words x (formFpmode x) (effFpmode x)
/-- CLKRD (R126). -/
def execClkrd (x : Ext) (s : State) : Out := s.issueAlu x.words x (formRead x true true 0 []) (effClkrd x)
/-- IDRD (R127). -/
def execIdrd (x : Ext) (s : State) : Out := s.issueAlu x.words x (formRead x false true 0xF []) (effIdrd x)

/-! ### NOP, WAITC, TRAP (R75, R74, R130) -/

/-- NOP of class E: every field zero (R75). -/
def execNop (x : Ext) (s : State) : Out := s.issueAlu x.words x { guard := false } fun _ s => .done s

/-- A NOP word with a nonzero field is no NOP (R75, R78); the 25th instruction of a run is none either (R61). -/
def execNopBase (b : Base) (s : State) : Out :=
  s.issue 1 (fun c => failIf (decide (b ≠ ⟨0, 0, 0⟩)) 3 ++ failIf (decide (24 ≤ c.u.ndone)) 15) (fun _ => none) fun _ s => .done s

/-- Word 2 is reserved as a whole; its bits [1:0] report the row of NEG and ABS (log 54). -/
def formWaitc : Form := { own1 := 0x00FFFFFF, rnd := .absent, guard := false }
/-- WAITC (R74): its sub-group, and no sibling, waits until WAITC_RETURN (log 65); a threshold below the ST count starts write-backs (R248). -/
def effWaitc (x : Ext) (c : Cx) (s : State) : Res :=
  .stall (if bits x.w1 17 12 < c.g.st then s.flushGroup c.g.core c.g.id else s)
    (.waitc (bits x.w1 23 18) (bits x.w1 17 12) (bits x.w1 11 6) (bits x.w1 5 0))
/-- WAITC (R74). -/
def execWaitc (x : Ext) (s : State) : Out := s.issueAlu x.words x formWaitc (effWaitc x)

def formTrap : Form := { own1 := 0xFFFF0000, rnd := .absent }
/-- TRAP (R130): a trap after it, if the instance has an active thread. -/
def effTrap (x : Ext) (c : Cx) (s : State) : Res :=
  match c.threads x.p with
  | [] => .done s
  | t :: ts => .after s { cause := 0x0B, code := bits x.w1 31 16, msk := t :: ts }
/-- TRAP (R130). -/
def execTrap (x : Ext) (s : State) : Out := s.issueAlu x.words x formTrap (effTrap x)

/-! ### Waits at a run boundary: BAR and SLEEP (R128, R129) -/

/-- A BAR at this level raises the barrier-level trap (R128, R326). -/
def Cx.barFails (c : Cx) (level : Nat) : Bool :=
  match c.l.domain level with
  | none => true
  | some 0 => false
  | some 1 => c.g.spawned
  | some _ => c.g.spawned || !c.l.conc
/-- An outgoing edge of a group: its loads are settled, its core's dirty bytes leave (R248). -/
def Cx.outgoing (c : Cx) (s : State) : State := (s.settle c.g.id none).flush c.g.core
/-- BAR (R128): the wait is armed for the boundary after the trailer. -/
def effBar (x : Ext) (c : Cx) (s : State) : Res :=
  let level := x.subBits 2 0
  if c.barFails level then .fault { cause := 0x0C, msk := c.threads 0 }
  else .done ((c.outgoing s).modSub c.r fun u => { u with
    boundary := some (.bar level)
    barAt := some (u.pc.toNat, u.ndone, u.window)
    barFrame := u.cfrm.map fun k => (k, (c.l.frames.find? fun f => f.start == k).map fun f => (f.len, f.use)) })
/-- SLEEP (R129). -/
def effSleep (x : Ext) (c : Cx) (s : State) : Res :=
  .done (s.modSub c.r fun u => { u with boundary := some (.sleep (c.once x)) })

/-- BAR (R128). -/
def execBar (x : Ext) (s : State) : Out := s.issueExt x.words x (formOnce false 7 []) (fun c => s.notLast c) (effBar x)
/-- SLEEP (R129). -/
def execSleep (x : Ext) (s : State) : Out := s.issueExt x.words x (formOnce true 0 []) (fun c => s.notLast c) (effSleep x)

/-! ### Events -/

/-- The sub-group that State.arg names. -/
def State.argSub (s : State) : Option (Group × SubGroup × SubRef) :=
  match s.arg with
  | .sub r => match s.group? r.grp with
    | some g => (g.sub? r.sub).map fun u => (g, u, r)
    | none => none
  | _ => none

/-- Device time has passed a horizon, and with it every invalidation that a write of that time needed (R254, R268). -/
def State.clear (s : State) (v : Nat) : Bool := decide (v ≤ s.time) && !(s.probes.any fun p => !p.answered && decide (p.due ≤ v))

/-- Words of a WAITC. -/
def waitcWords : Nat := 3

/-- WAITC_RETURN (R34): the first deferred fault that it covers is taken at the WAITC; otherwise it returns, an incoming edge where
it covers an operation on CP or MX (R249). -/
def execWaitcReturn (s : State) : Out :=
  match s.argSub with
  | some (g, u, r) => match u.phase with
    | .waitc ld st cp mx =>
      let engine := g.uncovered.any fun k => k == 2 || k == 3
      if g.ld ≤ ld ∧ g.st ≤ st ∧ g.cp ≤ cp ∧ g.mx ≤ mx ∧ (engine = true → s.clear g.horizon = true) then
        match g.deferred.find? fun d => d.ready && decide (d.counter < 4) with
        | some d =>
          let s := s.tick.modGroup g.id fun g => { g with deferred := g.deferred.filter fun o => !(o.op == d.op) }
          .next (s.takeTrap g r { cause := d.cause, detail := d.detail, addr := d.addr,
                                  msk := (List.range (32 * g.m)).filter fun t => u.members.getLsbD (t / 32) &&
                                    u.mmk.getLsbD (t / 32) && (g.exmOf (t / 32)).getLsbD (t % 32) } u.pc u.ndone false)
        | none =>
          let s := if engine then s.tick.incoming g.id g.core else s.tick
          let s := (s.modGroup g.id fun g => { g with uncovered := [] }).modSub r fun u => { u with phase := .running }
          .next (s.advance r waitcWords)
      else notNow "WAITC_RETURN"
    | _ => notNow "WAITC_RETURN"
  | none => notNow "WAITC_RETURN"

/-- COUNTER_STALL_RELEASE (R33): the counter has fallen to 62 or below. -/
def execCounterStallRelease (s : State) : Out :=
  match s.argSub with
  | some (g, u, r) => match u.phase with
    | .counterStall k => if g.counter k ≤ 62 then .next (s.tick.modSub r fun u => { u with phase := .running })
      else notNow "COUNTER_STALL_RELEASE"
    | _ => notNow "COUNTER_STALL_RELEASE"
  | none => notNow "COUNTER_STALL_RELEASE"

/-- SLEEP_EXPIRE (R129). -/
def execSleepExpire (s : State) : Out :=
  match s.argSub with
  | some (_, u, r) => match u.phase with
    | .sleep wake => if wake ≤ s.time then .next (s.tick.modSub r fun u => { u with phase := .running })
      else notNow "SLEEP_EXPIRE"
    | _ => notNow "SLEEP_EXPIRE"
  | none => notNow "SLEEP_EXPIRE"

/-! ### Barriers (R128) -/

/-- Is the sub-group waiting at a BAR of the domain? -/
def Launch.atBar (l : Launch) (dom : Nat) (u : SubGroup) : Bool :=
  match u.phase with
  | .bar level => l.domain level == some dom
  | _ => false
/-- A group has arrived when every sub-group of it with a live thread has. -/
def Launch.arrived (l : Launch) (dom : Nat) (g : Group) : Bool := g.subs.all fun u => !g.subLive u || l.atBar dom u
/-- Every block of a unit has been placed: a CONC launch places all of them at once (R419). -/
def Launch.allPlaced (l : Launch) (dom : Nat) : Bool := decide (dom ≤ 1) || decide (l.nextBlock = l.nblocks)

/-- What an edge of some groups must find performed: their writes, and every write that their cores' L1s have sent (R248). -/
def State.quietFor (s : State) (grps : List Nat) : Bool :=
  let cores := grps.filterMap fun k => (s.group? k).map fun g => g.core
  !(s.writes.any fun w => w.staged.isNone && (w.owners.any (fun o => grps.contains o) || w.core.any fun k => cores.contains k)) &&
  !(s.ops.any fun o => grps.contains o.grp && !o.performs.isEmpty) &&
  grps.all fun k => match s.group? k with
    | some g => s.clear g.horizon
    | none => true

/-- BAR_RELEASE (R128): the barrier that the named sub-group waits at completes when every participant with a live thread has
arrived and the writes before it are visible (R95, R268); each participant has an incoming edge and the horizon of all. -/
def execBarRelease (s : State) : Out :=
  match s.argSub with
  | some (g, u, _) => match s.launch? g.launch, u.phase with
    | some l, .bar level => match l.domain level with
      | some 0 =>
        if l.arrived 0 g && s.quietFor [g.id] then
          .next ((s.tick.incoming g.id g.core).modGroup g.id fun g => { g with
            subs := g.subs.map fun u => if l.atBar 0 u then { u with phase := .running } else u })
        else notNow "BAR_RELEASE"
      | some dom =>
        let unit := s.groups.filter fun o => l.sameUnit dom g o && o.subs.any fun u => o.subLive u
        if l.allPlaced dom && unit.all (fun o => o.resident && l.arrived dom o) && s.quietFor (unit.map fun o => o.id) then
          let h := unit.foldl (fun h o => max h o.horizon) 0
          .next (unit.foldl (fun s o =>
            (s.incoming o.id o.core).modGroup o.id fun o => { o with
              horizon := max o.horizon h
              subs := o.subs.map fun u => if l.atBar dom u then { u with phase := .running } else u }) s.tick)
        else notNow "BAR_RELEASE"
      | none => notNow "BAR_RELEASE"
    | _, _ => notNow "BAR_RELEASE"
  | none => notNow "BAR_RELEASE"

end Machine
end Sys2Proof
end

