-- ==== Sys2Proof/Machine/Router.lean ====
section
/-! DEFINITION. Operand router: votes, ballots, tile reductions and scans (R151 to R155 05_router.md). -/

namespace Sys2Proof
namespace Machine

/-! ### VOTE and BALLOT (R151, R152) -/

def formVote (x : Ext) : Form :=
  { own1 := pdMask ||| paMask ||| 3, own := pdRule x ++ failIf (x.subBits 1 0 == 3) 4 }
def formBallot : Form := { own1 := paMask, dest := .reg false true false true }

/-- The active threads of a thread's tile (R152). -/
def Cx.tileAll (c : Cx) (p : BitVec 4) (t : Nat) : List Nat :=
  let w := c.width
  (c.threads p).filter fun o => o / 32 == t / 32 && o % 32 / w == t % 32 / w

/-- VOTE (R152). -/
def effVote (x : Ext) (c : Cx) (s : State) : Res :=
  c.predResult s (pdOf x) x.p fun t =>
    let yes := c.tileSet x.p (paOf x) t
    let all := yes.length == (c.tileAll x.p t).length
    (match x.subBits 1 0 with
      | 0 => !yes.isEmpty
      | 1 => all
      | _ => yes.isEmpty || all, 0)
/-- BALLOT (R152). -/
def effBallot (x : Ext) (c : Cx) (s : State) : Res :=
  c.result s x false fun t => (BitVec.ofNat 64 (ofBits ((c.tileSet x.p (paOf x) t).map fun o => o % 32)), 0)

/-- VOTE (R151, R152). -/
def execVote (x : Ext) (s : State) : Out := s.issueAlu x.words x (formVote x) (effVote x)
/-- BALLOT (R151, R152). -/
def execBallot (x : Ext) (s : State) : Out := s.issueAlu x.words x formBallot (effBallot x)

/-! ### Reductions and scans (R153 to R155) -/

/-- The operation code of TREDUCE and TSCAN. -/
def treeOp (x : Ext) : Nat := x.subBits 8 5
/-- The types of an operation (R153); none for a code that names no operation. -/
def treeTypes (op : Nat) : List DType :=
  if op ≤ 2 then intTypes else if op ≤ 5 then bitTypes else if op ≤ 8 then fltTypes else []

def formTree (x : Ext) (own1 : Nat) : Form :=
  { dest := destVec x.ty.wide, srcs := [{ slot := .A, wide := x.ty.wide, kinds := notLit }], own1 := own1,
    ty := some (treeTypes (treeOp x)), rnd := if treeOp x = 6 then .any else .zero }

/-- A value on its way up the tree, with the flags raised below it. -/
abbrev Node := Option (Nat × Flags)

/-- The node function (R153), on patterns of the type. -/
def nodeOf (c : Cx) (x : Ext) (a b : Nat) : Nat × Flags :=
  let ty := x.ty
  let w := ty.width
  let f := fmtOf ty
  let fin := fun v => flushIn c.fzi f (unpack f v)
  match treeOp x with
  | 0 => (lo (intTy ty a + intTy ty b) w, 0)
  | 1 => (if intTy ty a ≤ intTy ty b then a else b, 0)
  | 2 => (if intTy ty b ≤ intTy ty a then a else b, 0)
  | 3 => (a &&& b, 0)
  | 4 => (a ||| b, 0)
  | 5 => (a ^^^ b, 0)
  | 6 => faddOf f (c.env x) (fin a) (fin b)
  | 7 => minMaxOf true false f (c.env x) (fin a) (fin b)
  | _ => minMaxOf true true f (c.env x) (fin a) (fin b)

/-- One node from its children (R154). -/
def joinNode (f : Nat → Nat → Nat × Flags) (l r : Node) : Node :=
  match l, r with
  | some (a, fa), some (b, fb) => let v := f a b; some (v.1, v.2 ||| fa ||| fb)
  | some a, none => some a
  | none, r => r

/-- One level of the tree. -/
def treeLevel (f : Nat → Nat → Nat × Flags) : List Node → List Node
  | a :: b :: rest => joinNode f a b :: treeLevel f rest
  | l => l

/-- The root after `k` levels (R154). -/
def treeRoot (f : Nat → Nat → Nat × Flags) : Nat → List Node → Node
  | 0, l => l.headD none
  | k + 1, l => treeRoot f k (treeLevel f l)

/-- The root over the positions of a thread's tile that `present` admits. -/
def Cx.tree (c : Cx) (x : Ext) (t : Nat) (present : Nat → Bool) : Node :=
  let base := t - t % c.width
  let view : View := if 6 ≤ treeOp x then .flt x.ty else .int
  treeRoot (nodeOf c x) (c.u.lpr.toNat + 1)
    ((List.range c.width).map fun q =>
      if c.active x.p (base + q) && present q then some ((c.src x .A x.ty.wide view (base + q)).toNat, 0) else none)

/-- The value of an exclusive scan with nothing before it (R153). -/
def emptyValue (x : Ext) : Nat :=
  let w := x.ty.width
  match treeOp x with
  | 1 => lo (maxOf x.ty) w
  | 2 => lo (minOf x.ty) w
  | 3 => 2 ^ w - 1
  | 7 => (fmtOf x.ty).inf false
  | 8 => (fmtOf x.ty).inf true
  | _ => 0

def nodeValue (x : Ext) (n : Node) : Dword × Flags :=
  match n with
  | some (v, fl) => (BitVec.ofNat 64 v, fl)
  | none => (BitVec.ofNat 64 (emptyValue x), 0)

/-- TREDUCE (R155). -/
def effTreduce (x : Ext) (c : Cx) (s : State) : Res :=
  c.result s x x.ty.wide fun t => nodeValue x (c.tree x t fun _ => true)
/-- TSCAN (R155), inclusive or exclusive. -/
def effTscan (x : Ext) (c : Cx) (s : State) : Res :=
  c.result s x x.ty.wide fun t =>
    nodeValue x (c.tree x t fun p => if x.bit1 9 then decide (p < t % c.width) else decide (p ≤ t % c.width))

/-- TREDUCE (R153 to R155). -/
def execTreduce (x : Ext) (s : State) : Out := s.issueAlu x.words x (formTree x 0x1E0) (effTreduce x)
/-- TSCAN (R153 to R155). -/
def execTscan (x : Ext) (s : State) : Out := s.issueAlu x.words x (formTree x 0x3E0) (effTscan x)

end Machine
end Sys2Proof
end

