-- ==== Sys2Proof/Machine/Trailer.lean ====
section
/-! DEFINITION. The RUNEND trailer (R61 to R63, R69 to R73 02_encoding.md), splits and their numbering (R379 to R383
17_regroup.md), call frames (R333 14_spawn.md), and the waits armed for a run boundary. -/

namespace Sys2Proof
namespace Machine

/-! ### Splits (R379 to R381) -/

/-- The lowest member held. -/
def SubGroup.lowest (u : SubGroup) : Nat := ((List.range 8).find? fun m => u.members.getLsbD m).getD 8

/-- TRAPINFO with another SUBG (R135). -/
def withSub (info : Dword) (n : Nat) : Dword := (info &&& ~~~(7 <<< 24 : Dword)) ||| (BitVec.ofNat 64 n <<< 24)

/-- Sub-groups are numbered in ascending order of the lowest member each holds; SUBG of a trap that stands follows the sub-group that
took it (R380, R135). -/
def Group.renumber (g : Group) : Group :=
  let sorted := (sortBy (fun a b => decide (a.lowest ≤ b.lowest)) g.subs).zipIdx
  { g with
    subs := sorted.map fun (u, i) => { u with num := i }
    trap := match sorted.find? fun k => decide (k.1.phase = .trapped) && k.1.num == bits g.trap.info 26 24 with
      | some (_, i) => { g.trap with info := withSub g.trap.info i }
      | none => g.trap }

/-- A part of a sub-group: the monitor goes with the lowest member (R381). -/
def SubGroup.part (u : SubGroup) (members : BitVec 8) : SubGroup :=
  { u with
    members := members
    mmk := u.mmk &&& members
    monitor := if members.getLsbD u.lowest then u.monitor else none }

/-- Divide a sub-group by a set of members; a division that would leave a part empty does not take place (R381). -/
def SubGroup.divide (u : SubGroup) (mask : BitVec 8) : List SubGroup :=
  if u.members &&& mask = 0 ∨ u.members &&& ~~~mask = 0 then [u]
  else [u.part (u.members &&& mask), u.part (u.members &&& ~~~mask)]

/-- What MSPLIT armed: each member apart (none), or a mask (R383). -/
def SubGroup.msplit (u : SubGroup) : Option (BitVec 8) → List SubGroup
  | some mask => u.divide mask
  | none => (bitsSet 8 u.members.toNat).map fun m => u.part (BitVec.ofNat 8 (2 ^ m))

/-! ### The run boundary -/

/-- A trailer awaits a register: a read of it waits for the operations `ops` that are still to write it, and the values that a read by
these members could still return for an interlocked write go, all but the current one (R73). -/
def Group.await (g : Group) (ops : List Nat) (members : BitVec 8) (r : Nat) : Group :=
  let cur := g.vregs.get [] r
  let olds := g.stale.get [] r
  let g : Group := if ops.isEmpty then g else { g with awaited := g.awaited.put r ops }
  if olds.isEmpty then g
  else
    let news := olds.map fun old =>
      SMap.build 0 (fun t => if members.getLsbD (t / 32) then SMap.get 0 cur t else SMap.get 0 old t) 0 (32 * g.m)
    { g with stale := g.stale.set [] r (news.filter fun v => v ≠ cur) }

/-- The wait that begins at the boundary (R128, R129, R272, R329); MWAIT may end at once. -/
def SubGroup.arrive (u : SubGroup) (time : Nat) : SubGroup :=
  match u.boundary with
  | some (.bar level) => { u with boundary := none, phase := .bar level }
  | some (.sleep n) => if n = 0 then { u with boundary := none } else { u with boundary := none, phase := .sleep (time + n) }
  | some (.mwait timeout dest) =>
    let done := fun (reason : Nat) => { u with
      boundary := none
      monitor := none
      uregs := match dest with | some d => u.uregs.set 0 d (BitVec.ofNat 32 reason) | none => u.uregs
      umarks := match dest with | some d => u.umarks.erase d | none => u.umarks }
    (match u.monitor with
      | none => done 5
      | some m => match m.wakes with
        | reason :: _ => done reason
        | [] => { u with boundary := none, phase := .mwait (if timeout = 0 then none else some (time + timeout)) dest })
  | some (.await n act) => { u with boundary := none, phase := .await time n act }
  | some (.split _) => { u with boundary := none }
  | none => u

/-- Position of a trailer in TRAPINFO (R135). -/
def trailerPos : Nat := 24

/-- An MHIST of the run met a bad line: its fault comes at the boundary that follows, as R246 words it (R397 18_collective.md). -/
def State.boundaryFault (s : State) (grp : Nat) (members : BitVec 8) : State :=
  match s.group? grp with
  | none => s
  | some g => match g.deferred.find? fun d => d.ready && d.counter == 4 && members.getLsbD (d.thread / 32) with
    | some d => match g.holder (d.thread / 32) with
      | some u => (s.modGroup grp fun g => { g with deferred := g.deferred.filter fun o => o.op ≠ d.op }).takeTrap g
          { grp := grp, sub := u.num }
          { cause := d.cause, detail := d.detail, addr := d.addr, msk := (g.deferred.filter fun o => o.op == d.op).map fun o => o.thread }
          u.pc trailerPos false
      | none => s
    | none => s

/-- The boundary after a trailer: the sub-group, as the transfer left it in `parts`, starts its next run, divided as MSPLIT asked,
waiting as its last instruction asked; a sub-group without a live thread has finished and holds no call frame (R379, R381). -/
def State.boundary (s : State) (c : Cx) (t : Trailer) (yield : Bool) (parts : List SubGroup) : State :=
  let parts := parts.map fun (u : SubGroup) => { u with ndone := 0, window := [], yielded := yield, passed := false, issued := s.stamp }
  let parts := parts.flatMap fun (u : SubGroup) => match u.boundary with
    | some (.split mask) => u.msplit mask
    | _ => [u]
  (s.modGroup c.r.grp fun g =>
    let parts := parts.map fun (u : SubGroup) =>
      if g.subLive u then u.arrive s.time else { u with boundary := none, phase := .finished, cfrm := none }
    let g := t.awaited.foldl (fun g r =>
      g.await ((s.ops.filter fun o => o.grp == g.id && o.writesReg r).map fun o => o.id) c.u.members r) g
    Group.renumber { g with subs := g.subs.filter (fun o => decide (o.num ≠ c.r.sub)) ++ parts }).boundaryFault c.r.grp c.u.members

/-! ### Checks (R69, R78, R462) -/

/-- Fields of the trailer that a KIND uses. -/
structure TrailerUse where
  cond : Bool := false
  pred : Bool := false
  jump : Bool := false
  frame : Bool := false
  target : Bool := false
deriving DecidableEq, Repr

/-- A RUNEND whose fields break R69, by the encoding alone. -/
def trailerBad (t : Trailer) (k : TrailerUse) : Bool :=
  decide (t.low ≠ 0) || t.naw == 7 ||
  ((List.range 6).any fun i => if i < t.naw.toNat then decide (0xF0 ≤ t.awField i) else decide (t.awField i ≠ 0)) ||
  (if k.cond then t.cond == 0 else decide (t.cond ≠ 0)) ||
  (!k.pred && decide (t.pred ≠ 0)) ||
  (if k.jump then decide (t.xf.toNat % 2 = 1) || decide (158 < t.xf.toNat) else !k.frame && decide (t.xf ≠ 0)) ||
  (!k.target && decide (bits t.w2 15 0 ≠ 0))

/-- A register of the trailer outside the declared count (R462). -/
def trailerUndeclared (t : Trailer) (k : TrailerUse) (c : Cx) : Bool :=
  (t.awaited.any fun n => decide (c.l.vregs ≤ n)) || (k.jump && decide (c.l.uregs ≤ t.xf.toNat + 1))

def trailerFails (t : Trailer) (k : TrailerUse) : List Nat := failIf (trailerBad t k) 14

/-- Issue a trailer: the checks of R78, then its transfer. -/
def State.issueTrailer (s : State) (t : Trailer) (k : TrailerUse) (eff : Cx → State → Res) : Out :=
  match s.issuer with
  | none => .refused .noIssuer
  | some c =>
    let trap := fun (tr : TrapReq) => s.tick.takeTrap c.g c.r tr c.u.pc trailerPos false
    match trailerFails t k ++ failIf (trailerUndeclared t k c) 14 with
    | d :: ds => .next (trap (illegal s.stamp (d :: ds)))
    | [] => match eff c s.tick with
      | .fault tr => .next ((s.tick.noteFault tr).takeTrap c.g c.r tr c.u.pc trailerPos false)
      | .done s' => .next s'
      | .hold | .stall _ _ | .after _ _ => .next s.tick

/-! ### Transfers (R70 to R72) -/

/-- The word after the trailer. -/
def Cx.nextWord (c : Cx) : Dword := c.u.pc + 12
/-- The target of BRA, BRC and CALL (R70). -/
def Cx.target (c : Cx) (t : Trailer) : Dword :=
  BitVec.ofNat 64 (lo (((c.u.pc.toNat / 64 * 64 : Nat) : Int) + 64 * t.target) 64)
/-- The issuing sub-group at another pc. -/
def Cx.at (c : Cx) (pc : Dword) : SubGroup := { c.u with pc := pc }

/-- The fault of a JMP or RET address: bits above 56, or not 64-byte aligned (R70). -/
def addressFault (c : Cx) (a : Nat) : Option TrapReq :=
  if 2 ^ 57 ≤ a then some { cause := 0x03, addr := a, msk := c.threads 0 }
  else if a % 64 ≠ 0 then some { cause := 0x02, addr := a, msk := c.threads 0 }
  else none

/-- The outcome of BRC for a member (R71, R382). -/
def Cx.brc (c : Cx) (t : Trailer) (m : Nat) : Bool :=
  let lanes := if c.u.mmk.getLsbD m then (c.g.exmOf m).toNat else 0
  let hit := lanes &&& (c.g.predOf m t.pred.toNat).toNat
  match t.cond.toNat with
  | 1 => decide (hit ≠ 0)
  | 2 => decide (hit = lanes)
  | _ => decide (hit = 0)

def effFall (t : Trailer) (c : Cx) (s : State) : Res := .done (s.boundary c t false [c.at c.nextWord])
def effYield (t : Trailer) (c : Cx) (s : State) : Res := .done (s.boundary c t true [c.at c.nextWord])
def effBra (t : Trailer) (c : Cx) (s : State) : Res := .done (s.boundary c t false [c.at (c.target t)])

/-- BRC (R71): members that agree transfer as one, else the sub-group splits. -/
def effBrc (t : Trailer) (c : Cx) (s : State) : Res :=
  let taken := c.members.filter (c.brc t)
  let mask := BitVec.ofNat 8 (ofBits taken)
  if taken.isEmpty then .done (s.boundary c t false [c.at c.nextWord])
  else if taken.length = c.members.length then .done (s.boundary c t false [c.at (c.target t)])
  else .done (s.boundary c t false
    [{ c.u.part (c.u.members &&& mask) with pc := c.target t }, { c.u.part (c.u.members &&& ~~~mask) with pc := c.nextWord }])

/-- JMP (R70); the pair is a uniform source (R67, R245). -/
def effJmp (t : Trailer) (c : Cx) (s : State) : Res :=
  let n := t.xf.toNat
  let uses : List RegUse := [{ code := BitVec.ofNat 9 (0x100 + n), mod := 0, regs := 2 }]
  if c.uniHeld uses then .hold
  else
    let a := c.u.uget n true
    match addressFault c a.toNat, c.markFault uses (c.threads 0) true with
    | some tr, m => .fault (firstFault tr m)
    | none, some m => .fault m
    | none, none => .done (s.boundary c t false [c.at a])

/-- CALL (R70, R333): the next word must be aligned; one run of frame blocks; the header takes the return address and the previous
frame. -/
def effCall (t : Trailer) (c : Cx) (s : State) : Res :=
  if c.nextWord.toNat % 64 ≠ 0 then .fault { cause := 0x02, addr := c.nextWord.toNat, msk := c.threads 0 }
  else
    let s := s.reap c.l.id
    match ((s.launch? c.l.id).getD c.l).alloc (callBlocks c.g.m t.xf.toNat) c.g.id 3 with
    | none => .fault { cause := 0x08, msk := c.threads 0 }
    | some (k, l) =>
      let s := s.modLaunch c.l.id fun _ => l
      let s := s.engineWrite l (dieOf c.g.core) [c.g.id] (l.blockAddr k)
        (leBytes 8 c.nextWord.toNat ++ leBytes 8 (c.u.cfrm.getD noFrame))
      -- a monitor of the sub-group on the header has recorded the write
      let u := ((s.group? c.r.grp).bind fun g => g.sub? c.r.sub).getD c.u
      .done (s.boundary c t false [{ u with pc := c.target t, cfrm := some k }])

/-- RET (R70, R333). A header that can no longer be read is a memory fault of the trailer (log 26), one on a poisoned or failing line
the fault of that line (R39, R284). -/
def effRet (t : Trailer) (c : Cx) (s : State) : Res :=
  match c.u.cfrm with
  | none => .fault { cause := 0x09, msk := c.threads 0 }
  | some k => match s.engineAddrs c.l (c.l.blockAddr k) 16 true false with
    | .error (va, cause, detail) => .fault { cause := cause, detail := detail, addr := va, msk := c.threads 0 }
    | .ok addrs =>
      let b := addrs.map s.byteAt
      let prev := leAt b 8 4
      match s.markOfBytes addrs with
      | some m => .fault { cause := m.cause, detail := m.detail, addr := m.addr, msk := c.threads 0 }
      | none => match addressFault c (leAt b 0 8) with
      | some tr => .fault tr
      | none =>
        .done ((s.releaseFrame c.l c.g c.u).boundary c t false
          [{ c.at (BitVec.ofNat 64 (leAt b 0 8)) with cfrm := if prev = noFrame then none else some prev }])

/-- EXIT (R72): every live thread with MMK set and PRED true ends, whatever its EXM bit; a sub-group that finishes gives up its
call frame (R381). -/
def effExit (t : Trailer) (c : Cx) (s : State) : Res :=
  let ends := fun m => (c.g.liveOf m) &&& (c.g.predOf m t.pred.toNat)
  let s := s.modGroup c.r.grp fun g => { g with
    live := c.masked.foldl (fun l m => l.set 0 m (c.g.liveOf m &&& ~~~(ends m))) g.live
    exm := c.masked.foldl (fun l m => l.set 0 m (c.g.exmOf m &&& ~~~(ends m))) g.exm
    exits := (c.masked.flatMap fun m => (bitsSet 32 (ends m).toNat).map fun l => 32 * m + l).foldl
      (fun e t => e.put t s.nextId) g.exits }
  let ended := match s.group? c.r.grp with
    | some g => !g.subLive c.u
    | none => false
  if ended then .done ((s.releaseFrames c.l c.g c.u).boundary c t false [{ c.at c.nextWord with cfrm := none }])
  else .done (s.boundary c t false [c.at c.nextWord])

/-- RUNEND.FALL (R70). -/
def execRunendFall (t : Trailer) (s : State) : Out := s.issueTrailer t {} (effFall t)
/-- RUNEND.BRA (R70). -/
def execRunendBra (t : Trailer) (s : State) : Out := s.issueTrailer t { target := true } (effBra t)
/-- RUNEND.BRC (R71). -/
def execRunendBrc (t : Trailer) (s : State) : Out :=
  s.issueTrailer t { cond := true, pred := true, target := true } (effBrc t)
/-- RUNEND.JMP (R70). -/
def execRunendJmp (t : Trailer) (s : State) : Out := s.issueTrailer t { jump := true } (effJmp t)
/-- RUNEND.CALL (R333). -/
def execRunendCall (t : Trailer) (s : State) : Out := s.issueTrailer t { frame := true, target := true } (effCall t)
/-- RUNEND.RET (R333). -/
def execRunendRet (t : Trailer) (s : State) : Out := s.issueTrailer t {} (effRet t)
/-- RUNEND.EXIT (R72). -/
def execRunendExit (t : Trailer) (s : State) : Out := s.issueTrailer t { pred := true } (effExit t)
/-- RUNEND.YIELD (R70, R132). -/
def execRunendYield (t : Trailer) (s : State) : Out := s.issueTrailer t {} (effYield t)

end Machine
end Sys2Proof
end

