-- ==== Sys2Proof/Machine/Atomics.lean ====
section
/-! DEFINITION. Memory-side atomic units (R257 to R274 11_atomics.md): the atomic instructions, what executors do, SIGNAL and its
release horizon, OBSERVE, monitors and the events that wake them. -/

namespace Sys2Proof
namespace Machine

/-! ### Common fields (R259, R260) -/

def opnOf (x : Ext) : Nat := x.subBits 8 5
/-- OFS, a signed byte offset. -/
def ofsOf (x : Ext) : Int := intOf true 10 (bits x.w2 11 2)

def atomBase : SrcUse := { slot := .A, wide := true, kinds := baseSrc }

/-- Types of an ATOM operation; none for a reserved one (R262). -/
def atomTypes : Nat → List DType
  | 0 | 1 => intTypes
  | 2 | 3 => [.i32, .i64]
  | 4 | 5 => [.n32, .n64]
  | 6 | 7 | 8 | 9 => bitTypes
  | 10 | 11 | 12 => fltTypes
  | 13 => [.f16, .bf16, .f32, .i32, .n32]
  | _ => []
/-- Does an ATOM operate on 8 bytes? -/
def atomWide (x : Ext) : Bool := x.ty.wide || opnOf x == 13

def formAtom (x : Ext) : Form :=
  { literal := true, dest := .reg (atomWide x) true false true, srcs := [atomBase, { slot := .B, wide := atomWide x }],
    own1 := 0x1E0, own2 := 0xFFC, rnd := if opnOf x = 10 then .any else .zero, ty := some (atomTypes (opnOf x)), negRow := 3 }
/-- A nonzero OPN where the instruction has one operation alone is a reserved one (R259). -/
def opnFails (x : Ext) : List Nat := failIf (decide (opnOf x ≠ 0)) 4
/-- ATOMCAS: C takes no routing, and D must name a register (R265). -/
def formAtomcas (x : Ext) : Form :=
  { literal := true, dest := .reg x.ty.wide true false false, own1 := 0x1E0, own := opnFails x, own2 := 0xFFC, ty := some bitTypes, negRow := 3,
    srcs := [atomBase, { slot := .B, wide := x.ty.wide }, { slot := .C, wide := x.ty.wide, mods := false }] }
def formSignal (x : Ext) : Form :=
  { literal := true, srcs := [atomBase, { slot := .B, wide := x.ty.wide }], own1 := 0x1E0, own2 := 0xFFC, negRow := 3,
    ty := some (match opnOf x with | 0 => bitTypes | 1 => [.n32, .n64] | _ => []) }
def formObserve (x : Ext) : Form :=
  { dest := .reg x.ty.wide true false false, srcs := [atomBase], own1 := 0x1E0, own := opnFails x, own2 := 0xFFC,
    ty := some bitTypes, negRow := 3 }
def formMonitor (x : Ext) : Form :=
  { srcs := [atomBase], own1 := 0x1E0, own := opnFails x, own2 := 0xFFC, ty := some [.b32], negRow := 3 }

/-- ea(m, l) of R260. -/
def Cx.atomEa (c : Cx) (x : Ext) (t : Nat) : Nat := lo ((c.src x .A true .int t).toNat + ofsOf x) 64

/-- The operand of an atomic: a floating-point constant in a floating-point operation. -/
def Cx.atomB (c : Cx) (x : Ext) (wide : Bool) (t : Nat) : Nat :=
  (c.src x .B wide (if x.ty.isFloat && opnOf x != 13 then .flt x.ty else .int) t).toNat

/-! ### What an executor computes (R262 to R265) -/

/-- The rank of a MAXIDX value: NaNs below all, -0 below +0 (R264). -/
def maxidxBelow (ty : DType) (a b : Nat) : Bool :=
  if ty.isFloat then
    let p := unpack (fmtOf ty) (a % 2 ^ ty.width)
    let q := unpack (fmtOf ty) (b % 2 ^ ty.width)
    if p.isNan then !q.isNan else !q.isNan && belowEx p q
  else decide (intTy ty a < intTy ty b)

/-- The winner of MAXIDX (R264). -/
def maxidx (ty : DType) (old b : Nat) : Nat :=
  let v := fun n => n / 2 ^ 32
  let i := fun n => n % 2 ^ 32
  if maxidxBelow ty (v old) (v b) then b
  else if maxidxBelow ty (v b) (v old) then old
  else if i b < i old ∨ (i b = i old ∧ b < old) then b
  else old

/-- The new value of an access and the flags it raises; none where nothing is written. -/
def AtomReq.compute (r : AtomReq) (old : Nat) : Option (Nat × Flags) :=
  let w := 8 * r.width
  let f := fmtOf r.ty
  let e : FpEnv := ⟨r.rnd, r.fzi, r.fzo⟩
  let fin := fun v => flushIn r.fzi f (unpack f v)
  let iold := intTy r.ty old
  let ib := intTy r.ty r.b
  match r.what with
  | 0 => some (match r.opn with
    | 0 => (lo ((old : Int) + r.b) w, 0)
    | 1 => (lo ((old : Int) - r.b) w, 0)
    | 2 | 4 => (if iold ≤ ib then old else r.b, 0)
    | 3 | 5 => (if ib ≤ iold then old else r.b, 0)
    | 6 => (old &&& r.b, 0)
    | 7 => (old ||| r.b, 0)
    | 8 => (old ^^^ r.b, 0)
    | 9 => (r.b, 0)
    | 10 => faddOf f e (fin old) (fin r.b)
    | 11 => minMaxOf true false f e (fin old) (fin r.b)
    | 12 => minMaxOf true true f e (fin old) (fin r.b)
    | _ => (maxidx r.ty old r.b, 0))
  | 1 => if old = r.b then some (r.c, 0) else none
  | 2 => some (if r.opn = 0 then r.b else lo ((old : Int) + r.b) w, 0)
  | _ => none

/-- The executor of a unit (R257): the channel's unit for memory-side pages of near HBM, else the home slice. -/
def State.executor (s : State) (pa : Nat) (msa : Bool) : Nat :=
  match s.home (64 * s.fwd (pa / 64)) with
  | some (d, o) => if msa && decide (d < 4) && decide (pa / 2 ^ 44 ≤ 4) then 1000 + 64 * d + s.channel d o
      else 64 * d + if d < 4 then sliceOf o else 0
  | none => 0

/-! ### Issue -/

/-- Home lines that an atomic of the group is about to reach leave the core's L1, their dirty bytes written back (log 14). -/
def Cx.yieldLines (c : Cx) (s : State) (lines : List Nat) : State :=
  lines.foldl (fun s line => s.writeBack c.g.core line true) (s.settle c.g.id (some lines))

/-- Translate the accesses of the active threads. -/
def Cx.atomGot (c : Cx) (s : State) (x : Ext) (rd wr : Bool) (size : Nat) : Except TrapReq (List Got × List TlbEntry) :=
  s.translate c (c.who rd wr) size (some (size, 7)) x.p
    ((c.threads x.p).map fun t => { thread := t, va := c.atomEa x t, member := t / 32 })

/-- The access of a thread at its executor. -/
def Cx.atomReq (c : Cx) (x : Ext) (what size : Nat) (reg : Option Nat) (g : Got) : AtomReq :=
  { thread := g.thread, pa := g.addrs.headD 0, width := size, what := what, opn := opnOf x, ty := x.ty, rnd := c.mode x.rnd,
    fzi := c.fzi, fzo := c.fzo, b := c.atomB x (size == 8) g.thread,
    c := if what = 1 then (c.plain x .C (size == 8) .int g.thread).toNat else 0,
    reg := reg, msa := g.msa, fl := 0, done := false }

/-- A new operation of the issuing sub-group. -/
def Cx.opOf (c : Cx) (s : State) (id counter left : Nat) (kind : OpKind) : Op :=
  { id := id, grp := c.g.id, sub := c.r.sub, counter := counter, core := c.g.core, asid := c.l.asid, stamp := s.qi,
    left := left, taken := [], given := [], kind := kind }

def destReg (d : BitVec 9) : Option Nat := match operandOf d with | .vreg n => some n | _ => none

/-- ATOM and ATOMCAS (R262, R265). -/
def effAtom (x : Ext) (what size : Nat) (c : Cx) (s : State) : Res :=
  match c.atomGot s x true true size with
  | .error t => .fault t
  | .ok (gs, seen) =>
    let reqs := gs.map (c.atomReq x what size (destReg x.d))
    match reqs, destReg x.d with
    | [], none => .done s
    | _, d =>
      if c.stageFull s (if d.isNone then size * reqs.length else 0) then .hold
      else
        let s := c.yieldLines (s.learn seen) (linesOf (reqs.map fun r => s.place r.pa))
        let (id, s) := s.fresh
        .done (s.newOp (c.opOf s id (if d.isSome then 0 else 1) reqs.length (.atom reqs)))

/-- The release of a SIGNAL (R268) or of another outgoing edge: writes of the group that are its ancestors and not performed yet, and
what its core's L1 has sent (R248). -/
def State.openEdge (s : State) (grp horizon : Nat) : Nat × State :=
  let (id, s) := s.fresh
  let core := (s.group? grp).map fun g => g.core
  let pend := (s.writes.filter fun w => w.staged.isNone && (w.owners.contains grp || (w.core == core && core.isSome))).map (fun w => w.id) ++
    (s.ops.filter fun o => o.grp == grp && !o.performs.isEmpty).map fun o => o.id
  (id, { s with edges := s.edges ++ [{ id := id, grp := grp, pend := pend, v := horizon }] })

/-- SIGNAL (R267): an outgoing edge, then one signal write for each active thread. -/
def effSignal (x : Ext) (c : Cx) (s : State) : Res :=
  let size := if x.ty.wide then 8 else 4
  match c.atomGot s x false true size with
  | .error t => .fault t
  | .ok (gs, seen) =>
    let reqs := gs.map (c.atomReq x 2 size none)
    let s := c.outgoing (s.learn seen)
    match reqs with
    | [] => .done s
    | _ =>
      let s := c.yieldLines s (linesOf (reqs.map fun r => s.place r.pa))
      let (e, s) := s.openEdge c.g.id c.g.horizon
      let (id, s) := s.fresh
      .done (s.newOp (c.opOf s id 1 reqs.length (.signal reqs e 0 0)))

/-- OBSERVE (R269): later instructions on port M wait for it. -/
def effObserve (x : Ext) (c : Cx) (s : State) : Res :=
  let size := if x.ty.wide then 8 else 4
  match c.atomGot s x true false size with
  | .error t => .fault t
  | .ok (gs, seen) =>
    let reqs := gs.map (c.atomReq { x with w1 := x.w1 &&& 0x1F } 3 size (destReg x.d))
    let s := c.yieldLines (s.learn seen) (linesOf (reqs.map fun r => s.place r.pa))
    let (id, s) := s.fresh
    .done ((s.newOp (c.opOf s id 0 0 (.atom reqs))).modSub c.r fun u => { u with observing := some id })

/-- MONITOR (R270): the unit of the lowest active thread; the arming is on its way. -/
def effMonitor (x : Ext) (c : Cx) (s : State) : Res :=
  match c.threads x.p with
  | [] => .done s
  | t :: _ =>
    match s.translate c (c.who true false) 4 (some (4, 7)) x.p
        ((c.threads x.p).map fun t => { thread := t, va := c.atomEa x t, member := t / 32 }) with
    | .error tr => .fault tr
    | .ok (gs, seen) =>
      match gs.find? fun g => g.thread == t with
      | none => .done s
      | some g =>
        let pa := g.addrs.headD 0
        let (id, s) := (s.learn seen).fresh
        let s : State := { s with ops := (s.ops.filter fun o => match o.kind, c.u.monitor with
            | .monitor _ _, some m => o.id ≠ m.order
            | _, _ => true) ++ [c.opOf s id 4 0 (.monitor pa g.msa)] }
        .done (s.modSub c.r fun u => { u with
          monitor := some { addr := some pa, exec := 0, order := id, pending := true, wakes := [] } })

/-- MWAIT (R272): the wait is armed for the boundary. -/
def effMwait (x : Ext) (c : Cx) (s : State) : Res :=
  let dest := match operandOf x.d with | .ureg n => some n | _ => none
  .done (s.modSub c.r fun u => { u with boundary := some (.mwait (c.once x) dest) })

def formMwait : Form :=
  { dest := .reg false false true true, guard := false, negRow := 3,
    srcs := [{ slot := .A, wide := false, kinds := uniConst, mods := false }] }

/-- ATOM (R262). -/
def execAtom (x : Ext) (s : State) : Out :=
  s.issueM x.words x (formAtom x) (fun _ => []) (fun _ => if (destReg x.d).isSome then 0 else 1)
    (effAtom x 0 (if atomWide x then 8 else 4))
/-- ATOMCAS (R265). -/
def execAtomcas (x : Ext) (s : State) : Out :=
  s.issueM x.words x (formAtomcas x) (fun _ => []) (fun _ => 0) (effAtom x 1 (if x.ty.wide then 8 else 4))
/-- SIGNAL (R267, R268). -/
def execSignal (x : Ext) (s : State) : Out :=
  s.issueM x.words x (formSignal x) (fun _ => []) (fun _ => 1) (effSignal x)
/-- OBSERVE (R269). -/
def execObserve (x : Ext) (s : State) : Out :=
  s.issueM x.words x (formObserve x) (fun _ => []) (fun _ => 0) (effObserve x)
/-- MONITOR (R270). -/
def execMonitor (x : Ext) (s : State) : Out :=
  s.issueM x.words x (formMonitor x) (fun _ => []) (fun _ => 4) (effMonitor x)
/-- MWAIT (R272). -/
def execMwait (x : Ext) (s : State) : Out :=
  s.issueM x.words x formMwait (fun c => s.notLast c) (fun _ => 4) (effMwait x)

/-! ### At the executor -/

def Op.reqs (o : Op) : List AtomReq :=
  match o.kind with
  | .atom reqs | .signal reqs _ _ _ => reqs
  | _ => []
def Op.setReqs (o : Op) (reqs : List AtomReq) : Op :=
  match o.kind with
  | .atom _ => { o with kind := .atom reqs }
  | .signal _ e a v => { o with kind := .signal reqs e a v }
  | _ => o

/-- Does an operation hold an access of a line with the MSA attribute `msa` at the line's slice: a SIGNAL that waits there for its
visibility time (R268, R292)? -/
def Op.heldWith (o : Op) (s : State) (line : Nat) (msa : Bool) : Bool :=
  match o.kind with
  | .signal reqs _ 2 _ => reqs.any fun q => !q.done && s.fwd (q.pa / 64) == line && q.msa == msa
  | _ => false

/-- May access `i` of an operation be performed now? Accesses of one instance to one unit go in thread order, those of successive
instances in group order, after the group's own writes that left before it (R261, R270), and none while the line's slice serves the
other MSA attribute (R292). -/
def State.atomReady (s : State) (o : Op) (i : Nat) (r : AtomReq) : Bool :=
  let line := s.fwd (r.pa / 64)
  !r.done && s.pathTo line &&
  ((o.reqs.take i).all fun q => q.done || s.fwd (q.pa / 64) ≠ line || q.pa % 64 / 8 ≠ r.pa % 64 / 8) &&
  !(s.ops.any fun p => p.grp == o.grp && decide (p.id < o.id) && p.ahead.any fun n => s.fwd n == line) &&
  !(s.writes.any fun w => w.core == some o.core && w.line == line && decide (w.id < o.id)) &&
  !(s.ops.any fun p => p.heldWith s line (!r.msa) && (r.what != 2 || decide (p.id < o.id)))

/-- A read of an executor's line by an operation's own block lies over staged bytes (R430). -/
def State.atomBytes (s : State) (launch block pa n : Nat) : List Byte :=
  ((s.stagedOver launch block (s.fwd (pa / 64)) (s.lineAt (pa / 64))).drop (pa % 64)).take n

/-- Clean bytes of a home line that the issuing core holds go once its own atomic has been performed (R90). -/
def State.dropClean (s : State) (core line : Nat) : State :=
  match s.l1? core line with
  | some x => if x.dirty.isEmpty then s.dropL1 core line else s.putL1 { x with clean := none }
  | none => s

/-- Mark an access as performed and, for a result, keep its old value or the mark that reading it meets. -/
def State.atomDone (s : State) (o : Op) (i : Nat) (r : AtomReq) (old : List Byte) (fl : Flags) (mark : Option Mark) : State :=
  s.modOp o.id fun p => { p.setReqs (p.reqs.set i { r with done := true, fl := fl }) with
    taken := if r.reg.isSome then old.zipIdx.foldl (fun m (b, j) => m.put (512 * i + j) { byte := b, mark := mark }) p.taken
      else p.taken }

/-- A release that waits for an operation goes on once all its accesses have been performed (R268). -/
def State.atomEdge (s : State) (o : Op) : State :=
  match s.op? o.id with
  | some p => if p.reqs.all fun r => r.done then s.performedFor [] o.id 0 else s
  | none => s.performedFor [] o.id 0

/-- Raise every waiting release of the operation to a visibility time. -/
def State.raiseEdges (s : State) (id t : Nat) : State :=
  { s with edges := s.edges.map fun e => if e.pend.contains id then { e with v := max e.v t } else e }

/-- The visibility time of a write to a line performed now by a die (R254). -/
def State.visTime (s : State) (line die : Nat) : Nat :=
  if ((s.dirOf line).filter (· ≠ die)).isEmpty then s.time else s.time + 1120

/-- Perform access `i` at its executor (R258, R262 to R269, R274). -/
def State.atomPerform (s : State) (o : Op) (i : Nat) (r : AtomReq) : State :=
  let line := s.fwd (r.pa / 64)
  let die := dieOf o.core
  let (launch, block, stages) := match s.group? o.grp with
    | some g => (g.launch, g.block, !g.spawned && match s.launch? g.launch with | some l => l.ord | none => false)
    | none => (0, 0, false)
  match markFor line (s.markOf line) with
  | some m =>
    -- nothing is performed; a result is marked, anything else waits for a covering WAITC
    let s := (s.foundFailing line).atomDone o i r (List.replicate r.width 0) 0 (some m)
    let s := if r.reg.isSome then s else (s.defer o m.cause (if m.cause = 6 then m.detail else 0) m.addr r.thread).landed o.id
    s.atomEdge o
  | none =>
    let old := s.atomBytes launch block r.pa r.width
    match r.compute (leNat old) with
    | none => (s.atomDone o i r old 0 none).atomEdge o
    | some (v, fl) =>
      let bytes : SMap Byte := (leBytes r.width v).zipIdx.map fun (b, j) => (r.pa % 64 + j, b)
      let s := s.atomDone o i r old fl none
      if stages && r.what == 0 && r.reg.isNone && (r.opn == 9 || r.opn == 10) then
        -- staged until its block's release (R428)
        let s : State := { s with staged := s.staged ++ [{ launch := launch, block := block, die := die, line := line, bytes := bytes,
                                                           atom := some r, poison := false, stamp := o.stamp }] }
        (s.landed o.id).atomEdge o
      else
        let t := s.visTime line die
        let (id, s) := s.fresh
        let s := (s.merge (r.pa / 64) die bytes false).dropClean o.core line
        let s := (s.raiseEdges o.id t).publish line die [o.grp] (if r.reg.isNone then [o.id] else []) id
        s.atomEdge o

/-- Arm a monitor at its executor (R270, R271): a poisoned or failing line drops it; the 257th displaces the oldest. -/
def State.armMonitor (s : State) (o : Op) (pa : Nat) (msa : Bool) : State :=
  let ex := s.executor pa msa
  let bad := (markFor (s.fwd (pa / 64)) (s.markOf (s.fwd (pa / 64)))).isSome
  let (rank, s) := ((s.foundFailing (s.fwd (pa / 64))).dropOp o.id).fresh
  let armed := s.groups.flatMap fun g => g.subs.filterMap fun u => match u.monitor with
    | some m => if !m.pending && m.addr.isSome && m.exec == ex then some m.order else none
    | none => none
  let oldest := armed.foldl (fun a b => min a b) rank
  let s := if 256 ≤ armed.length then
      { s with groups := s.groups.map fun g => { g with subs := g.subs.map fun u => match u.monitor with
          | some m => if !m.pending && m.order == oldest then { u with monitor := some { m with addr := none, wakes := m.wakes ++ [1] } } else u
          | none => u } }
    else s
  { s with groups := s.groups.map fun g => if g.id ≠ o.grp then g else { g with subs := g.subs.map fun u => match u.monitor with
      | some m => if m.pending && m.order == o.id then
          { u with monitor := some (if bad then { m with addr := none, exec := ex, order := rank, pending := false, wakes := [1] }
                                    else { m with exec := ex, order := rank, pending := false }) }
        else u
      | none => u } }

/-- ATOMIC_AT_EXECUTOR (R257, R258): the access of the operation that State.arg names, or the arming of its monitor. -/
def execAtomicAtExecutor (s : State) : Out :=
  match s.arg with
  | .pair id i => match s.op? id with
    | some o => match o.kind with
      | .atom reqs => match reqs[i]? with
        | some r => if s.atomReady o i r then .next (s.tick.atomPerform o i r) else notNow "ATOMIC_AT_EXECUTOR"
        | none => notNow "ATOMIC_AT_EXECUTOR"
      | .monitor pa msa => .next (s.tick.armMonitor o pa msa)
      | _ => notNow "ATOMIC_AT_EXECUTOR"
    | none => notNow "ATOMIC_AT_EXECUTOR"
  | _ => notNow "ATOMIC_AT_EXECUTOR"

/-- SIGNAL_DEPART (R268): every write that is its ancestor has been performed; it carries V = H. -/
def execSignalDepart (s : State) : Out :=
  match s.arg with
  | .num id => match s.op? id with
    | some o => match o.kind with
      | .signal reqs e 0 _ => match s.edges.find? fun k => k.id == e with
        | some k =>
          if k.pend.isEmpty then
            let h := match s.group? o.grp with | some g => g.horizon | none => 0
            .next ({ s.tick with edges := s.edges.filter fun k => k.id ≠ e }.modOp id fun o =>
              { o with kind := .signal reqs e 1 (max k.v h) })
          else notNow "SIGNAL_DEPART"
        | none => notNow "SIGNAL_DEPART"
      | _ => notNow "SIGNAL_DEPART"
    | none => notNow "SIGNAL_DEPART"
  | _ => notNow "SIGNAL_DEPART"

/-- SIGNAL_ARRIVE_EXECUTOR (R268): its executor holds it. -/
def execSignalArriveExecutor (s : State) : Out :=
  match s.arg with
  | .num id => match s.op? id with
    | some o => match o.kind with
      | .signal reqs e 1 v => .next (s.tick.modOp id fun o => { o with kind := .signal reqs e 2 v })
      | _ => notNow "SIGNAL_ARRIVE_EXECUTOR"
    | none => notNow "SIGNAL_ARRIVE_EXECUTOR"
  | _ => notNow "SIGNAL_ARRIVE_EXECUTOR"

/-- SIGNAL_PERFORM (R268): access `i` is performed once device time has reached V. -/
def execSignalPerform (s : State) : Out :=
  match s.arg with
  | .pair id i => match s.op? id with
    | some o => match o.kind with
      | .signal reqs _ 2 v => match reqs[i]? with
        | some r => if s.clear v && s.atomReady o i r then .next (s.tick.atomPerform o i r) else notNow "SIGNAL_PERFORM"
        | none => notNow "SIGNAL_PERFORM"
      | _ => notNow "SIGNAL_PERFORM"
    | none => notNow "SIGNAL_PERFORM"
  | _ => notNow "SIGNAL_PERFORM"

/-- What LOAD_DATA_ARRIVAL delivers of an atomic: the old values of the accesses performed so far, and with all of them its
completion; an OBSERVE ends the wait of its sub-group, an incoming edge (R249, R269). -/
def State.atomArrival (s : State) (o : Op) (reqs : List AtomReq) (p : Option Nat) : Option State :=
  let accs : List Access := reqs.map fun r =>
    { threads := [r.thread], reg := r.reg.getD 0, addrs := (List.range r.width).map fun i => r.pa + i, signed := false, widened := true }
  if reqs.any fun r => r.reg.isNone then none
  else match p with
    | some _ => some (s.give o accs none)
    | none =>
      if reqs.all fun r => r.done then
        let s := (s.give o accs none).complete o.id
        some (match s.group? o.grp with
          | some g =>
            if g.subs.any (fun u => decide (u.observing = some o.id)) then
              (s.incoming g.id g.core).modGroup g.id fun g => { g with
                subs := g.subs.map fun u => if u.observing = some o.id then { u with observing := none } else u }
            else s
          | none => s)
      else none

/-! ### Waking (R271 to R273) -/

/-- The end of an MWAIT with a reason (R272). -/
def SubGroup.endMwait (u : SubGroup) (dest : Option Nat) (reason : Nat) : SubGroup :=
  let u := match dest with
    | some d => u.putU d (BitVec.ofNat 32 reason)
    | none => u
  { u with phase := .running, monitor := none }

/-- MWAIT_WAKE (R272): the earliest recorded event. -/
def execMwaitWake (s : State) : Out :=
  match s.argSub with
  | some (_, u, r) => match u.phase, u.monitor with
    | .mwait _ dest, some m => match m.wakes with
      | reason :: _ => .next (s.tick.modSub r fun u => u.endMwait dest reason)
      | [] => notNow "MWAIT_WAKE"
    | _, _ => notNow "MWAIT_WAKE"
  | none => notNow "MWAIT_WAKE"

/-- MWAIT_TIMEOUT (R272): T clocks after the boundary, with reason 3. -/
def execMwaitTimeout (s : State) : Out :=
  match s.argSub with
  | some (_, u, r) => match u.phase, u.monitor with
    | .mwait (some t) dest, some m =>
      if t ≤ s.time ∧ m.wakes.isEmpty = true then .next (s.tick.modSub r fun u => u.endMwait dest 3) else notNow "MWAIT_TIMEOUT"
    | _, _ => notNow "MWAIT_TIMEOUT"
  | none => notNow "MWAIT_TIMEOUT"

/-- OTHER_CAUSE_WAKE_EVENT (R271, reason 4): at any time. -/
def execOtherCauseWakeEvent (s : State) : Out :=
  match s.argSub with
  | some (_, u, r) => match u.monitor with
    | some m => if m.pending then notNow "OTHER_CAUSE_WAKE_EVENT"
      else .next (s.tick.modSub r fun u => { u with monitor := some { m with wakes := m.wakes ++ [4] } })
    | none => notNow "OTHER_CAUSE_WAKE_EVENT"
  | none => notNow "OTHER_CAUSE_WAKE_EVENT"

/-- A write of the host takes a line: every copy of it in the device goes before the write is performed (R107, R273). -/
def State.hostWrite (s : State) (line : Nat) (bytes : SMap Byte) : State :=
  ({ s with guests := s.guests.filter fun g => g.line ≠ s.fwd line } : State).merge line 6 bytes false

/-- HOST_LINE_TAKE (R273): a host write takes a line of host memory from die 4; monitors on its units wake with reason 0. One that the
host orders after its earlier writes waits until those are visible (R107). -/
def execHostLineTake (s : State) : Out :=
  match s.arg with
  | .bytes line data ordered =>
    if line / 2 ^ 38 = 8 ∧ data.length = 64 ∧ (ordered = false ∨ s.clear s.hostHorizon = true) then
      if (s.home (64 * line)).isSome then
        .next (s.tick.hostWrite line (data.zipIdx.map fun (b, i) => (i, b)))
      else .fault (.noSuchAddress (64 * line))
    else notNow "HOST_LINE_TAKE"
  | _ => notNow "HOST_LINE_TAKE"

end Machine
end Sys2Proof
end

