-- ==== Sys2Proof/Machine/Accum.lean ====
section
/-! DEFINITION. Exact accumulator pipe (R339 to R351 15_accumulator.md): the accumulator and its image, the eight instructions, AIMG
(R266 11_atomics.md), and the arrival of everything that completes on the LD counter. -/

namespace Sys2Proof
namespace Machine

/-! ### The accumulator (R339 to R341) -/

/-- take (R340): an addend that is a value or an exact product. -/
def Accum.take (x : Accum) (a : Ex) : Accum :=
  let x := if x.count = BitVec.allOnes 64 then { x with iv := true } else { x with count := x.count + 1 }
  let x := if a.isZero && a.neg then x else { x with nz := false }
  match a with
  | .nan sig => { x with qn := true, iv := x.iv || sig }
  | .inf false => { x with pi := true }
  | .inf true => { x with ni := true }
  | .rat s n d =>
    let v := BitVec.ofNat 2176 (n * 2 ^ 1074 / d)
    { x with mag := if s then x.mag - v else x.mag + v }

/-- merge (R340). -/
def Accum.merge (x y : Accum) : Accum :=
  let n := x.count.toNat + y.count.toNat
  { mag := x.mag + y.mag, pi := x.pi || y.pi, ni := x.ni || y.ni, qn := x.qn || y.qn,
    iv := x.iv || y.iv || decide (2 ^ 64 ≤ n), nz := x.nz && y.nz,
    count := if 2 ^ 64 ≤ n then BitVec.allOnes 64 else BitVec.ofNat 64 n }

/-- xround (R340). -/
def Accum.xround (x : Accum) (f : Fmt) (mode : Rnd) (fzo : Bool) : Nat × Flags :=
  if x.iv || (x.pi && x.ni) then (f.nan, flagNV)
  else if x.qn then (f.nan, 0)
  else if x.pi then (f.inf false, 0)
  else if x.ni then (f.inf true, 0)
  else
    let v := x.mag.toInt
    if v = 0 then
      if x.count = 0 then (f.signBit false, 0)
      else if x.nz then (f.signBit true, 0)
      else if x.count = 1 then (f.signBit false, 0)
      else (f.signBit (decide (mode = .rdn)), 0)
    else round f mode fzo (.rat (decide (v < 0)) v.natAbs (2 ^ 1074))

/-! ### The image (R36, R342, R343) -/

/-- One bit step, eight of them, and the bytes of CRC-32C (R36 01_machine.md). -/
def crcBits : Nat → Nat → Nat
  | 0, c => c
  | n + 1, c => crcBits n (if c % 2 = 1 then c / 2 ^^^ 0x82F63B78 else c / 2)
def crcBytes : Nat → List Byte → Nat
  | c, [] => c
  | c, b :: rest => crcBytes (crcBits 8 (c ^^^ b.toNat)) rest
def crc32c (l : List Byte) : Nat := crcBytes 0xFFFFFFFF l ^^^ 0xFFFFFFFF

def bit (b : Bool) (k : Nat) : Nat := if b then 2 ^ k else 0

/-- PI, NI, QN, IV and NZ in the order of R342. -/
def Accum.state (x : Accum) : Nat := bit x.pi 0 + bit x.ni 1 + bit x.qn 2 + bit x.iv 3 + bit x.nz 4

/-- The 288 bytes of an image (R342). -/
def Accum.image (x : Accum) : List Byte :=
  let b := leBytes 272 x.mag.toNat ++ leBytes 8 x.count.toNat ++ leBytes 4 (x.state + 0x100)
  b ++ leBytes 4 (crc32c b)

/-- An image read back; none where it is not well formed (R343). -/
def Accum.ofImage (b : List Byte) : Option Accum :=
  let low := leAt b 0x118 4
  let x : Accum := { mag := BitVec.ofNat 2176 (leAt b 0 272), count := BitVec.ofNat 64 (leAt b 0x110 8), pi := low.testBit 0,
                     ni := low.testBit 1, qn := low.testBit 2, iv := low.testBit 3, nz := low.testBit 4 }
  if leAt b 0x11C 4 = crc32c (b.take 0x11C) ∧ low / 2 ^ 8 % 2 ^ 8 = 1 ∧ low / 2 ^ 5 % 8 = 0 ∧ low / 2 ^ 16 = 0 ∧
      (x.iv = true ∨ x.mag.toInt.natAbs ≤ x.count.toNat * 2 ^ 2098) ∧ (x.count = 0 → x.nz = true) then some x
  else none

/-- A failed image as XLD and AIMG take it. -/
def Accum.failed : Accum := { Accum.clear with iv := true }
def Accum.ofBytes (b : List Byte) : Accum := (Accum.ofImage b).getD Accum.failed

/-! ### Encoding (R344) -/

def xaOf (x : Ext) : Nat := x.subBits 6 5
def xbOf (x : Ext) : Nat := x.subBits 8 7

def Group.acc (g : Group) (m i : Nat) : Accum := g.accs.get Accum.clear (4 * m + i)
def Group.putAcc (g : Group) (m i : Nat) (x : Accum) : Group := { g with accs := g.accs.set Accum.clear (4 * m + i) x }
/-- XCLR and XLD clear the mark that a bad XLD left (R350). -/
def Group.clearAcc (g : Group) (m i : Nat) (x : Accum) : Group :=
  { g.putAcc m i x with accMarks := SMap.erase g.accMarks (4 * m + i) }

/-- An XA or XB at or above .accum. -/
def accFails (c : Cx) (names : List Nat) : List Nat := failIf (names.any fun i => decide (c.l.acc ≤ i)) 16

/-- The lowest active thread of each member that has one. -/
def Cx.acting (c : Cx) (p : BitVec 4) : List Nat :=
  (List.range 8).filterMap fun m => (c.threads p).find? fun t => t / 32 == m

/-- An outstanding XLD into an accumulator holds the instructions that name it (R350). -/
def Cx.accHeld (c : Cx) (names : List Nat) : Bool := c.members.any fun m => names.any fun i => c.g.accPending.has (4 * m + i)

/-- The fault of a marked accumulator that the instruction reads (R245, R350). -/
def Cx.accMark (c : Cx) (p : BitVec 4) (reads : List Nat) : Option TrapReq :=
  let find := fun (t : Nat) => reads.findSome? fun i => (c.g.accMarks.find? fun k => k.1 == 4 * (t / 32) + i).map fun k => k.2
  let hits := (c.threads p).filterMap fun t => (find t).map fun m => (t, m)
  match hits with
  | [] => none
  | (t, m) :: _ => some { cause := m.cause, detail := m.detail, addr := m.addr, thread := t, msk := hits.map fun h => h.1 }

/-- Of two marks that an instruction meets, the one of the lower thread; every thread that met one is marked (R245). -/
def lowerMark (a b : Option TrapReq) : Option TrapReq :=
  match a, b with
  | some x, some y => some { (if y.thread < x.thread then y else x) with msk := x.msk ++ y.msk }
  | none, _ => b
  | _, none => a

/-- Issue of an instruction that names accumulators: `names` all of them, `reads` those it reads. On port M `counter` is its
counter. -/
def State.issueAcc (s : State) (words : Nat) (x : Ext) (f : Form) (names reads : List Nat) (port : Option Nat)
    (eff : Cx → State → Res) : Out :=
  s.issue words (fun c => formFails x f ++ dynFails c x f ++ accFails c names)
    (fun c => lowerMark (c.markFault (formUses x f) (c.threads x.p) false) (c.accMark x.p reads))
    (fun c s =>
      if c.uniHeld (holdUses x f) || c.awaitHeld (formUses x f) || c.accHeld names || (port.isSome && c.u.observing.isSome) then .hold
      else if c.full (port.getD 4) then .stall s (.counterStall (port.getD 4))
      else eff c s)

def accBase (x : Ext) : SrcUse :=
  { slot := .A, wide := true, kinds := if x.lit.isSome then ⟨false, false, false, false, false, true⟩ else baseSrc }

def formXclr : Form := { own1 := 0x60 }
def formXadd (x : Ext) : Form :=
  { srcs := [{ slot := .A, wide := x.ty.wide }], own1 := 0x60, ty := some fltTypes, neg := true }
def formXfma (x : Ext) : Form :=
  { srcs := [{ slot := .A, wide := x.ty.wide }, { slot := .B, wide := x.ty.wide }], own1 := 0x60,
    rnd := if x.ty = .f64 then .any else .zero, ty := some [.f16, .bf16, .f32, .f64, .e4m3, .e5m2], neg := true }
def formXmrg : Form := { own1 := 0x1E0 }
def formXrnd (x : Ext) : Form :=
  { dest := .reg x.ty.wide true false true, own1 := 0x60, rnd := .any, ty := some [.f16, .bf16, .f32, .f64] }
def formXmem (x : Ext) : Form := { literal := true, srcs := [accBase x], own1 := 0x60, own2 := 0xFFC }
def formXstat (x : Ext) : Form := { dest := .reg (x.bit1 7) true false true, own1 := 0xE0 }
def formAimg : Form := { srcs := [atomBase], own1 := 3, own2 := 0xFFC, negRow := 3 }

/-! ### Clearing, adding, merging (R345, R346) -/

/-- XCLR. -/
def effXclr (x : Ext) (c : Cx) (s : State) : Res :=
  .done (s.modGroup c.r.grp fun g => (c.acting x.p).foldl (fun g t => g.clearAcc (t / 32) (xaOf x) Accum.clear) g)

/-- Give each member's accumulator the addends of its active threads, and each thread its flags. -/
def Cx.addAll (c : Cx) (s : State) (x : Ext) (f : Nat → List (Ex × Bool × Flags)) : Res :=
  let all := (c.threads x.p).map fun t => (t, f t)
  let lanes : List Lane := all.map fun (t, l) => ⟨t, 0, l.foldl (fun a k => a ||| k.2.2) 0⟩
  resOf (s.modGroup c.r.grp fun g =>
    (all.foldl (fun g (t, l) =>
      g.putAcc (t / 32) (xaOf x) (l.foldl (fun acc k =>
        (if k.2.1 then { acc with iv := true } else acc).take k.1) (g.acc (t / 32) (xaOf x)))) g).raise lanes)
    (fpTrap c.te lanes)

/-- XADD. -/
def effXadd (x : Ext) (c : Cx) (s : State) : Res :=
  c.addAll s x fun t =>
    let a := c.fin x .A t
    [(a, false, if a.isSig then flagNV else 0)]

/-- Element j of a source of XFMA, after ABS and NEG, flushed. -/
def Cx.xelement (c : Cx) (x : Ext) (sl : Slot) (t j : Nat) : Ex :=
  let w := x.ty.width
  let v := (c.src x sl x.ty.wide (if w ≤ 16 then .packed x.ty else .flt x.ty) t).toNat
  let e := element w v j
  let e := if sl = .A then (negAbsFlt x w (BitVec.ofNat 64 e)).toNat else e
  flushIn c.fzi (fmtOf x.ty) (unpack (fmtOf x.ty) e)

/-- One product of XFMA (R346): the addend, whether it sets IV by itself, and the thread's flags. -/
def xproduct (ty : DType) (e : FpEnv) (a b : Ex) : Ex × Bool × Flags :=
  if a.isNan || b.isNan then (.nan (a.isSig || b.isSig), false, if a.isSig || b.isSig then flagNV else 0)
  else match mulEx a b with
    | none => (.nan false, true, flagNV)
    | some p =>
      if ty = .f64 then
        let r := round (fmtOf .f64) e.mode e.fzo p
        (unpack (fmtOf .f64) r.1, false, r.2)
      else (p, false, 0)

/-- XFMA. -/
def effXfma (x : Ext) (c : Cx) (s : State) : Res :=
  c.addAll s x fun t =>
    (List.range (if x.ty.width ≤ 16 then 32 / x.ty.width else 1)).map fun j =>
      xproduct x.ty (c.env x) (c.xelement x .A t j) (c.xelement x .B t j)

/-- XMRG. -/
def effXmrg (x : Ext) (c : Cx) (s : State) : Res :=
  .done (s.modGroup c.r.grp fun g => (c.acting x.p).foldl (fun g t =>
    g.putAcc (t / 32) (xaOf x) ((g.acc (t / 32) (xaOf x)).merge (g.acc (t / 32) (xbOf x)))) g)

/-! ### Reading out (R347, R348) -/

/-- XRND. -/
def effXrnd (x : Ext) (c : Cx) (s : State) : Res :=
  let rs := (List.range 8).map fun m => (c.g.acc m (xaOf x)).xround (fmtOf x.ty) (c.mode x.rnd) c.fzo
  c.result s x x.ty.wide fun t => dw (rs.getD (t / 32) (0, 0))

/-- XSTAT. -/
def effXstat (x : Ext) (c : Cx) (s : State) : Res :=
  c.result s x (x.bit1 7) fun t =>
    let a := c.g.acc (t / 32) (xaOf x)
    (if x.bit1 7 then a.count else BitVec.ofNat 64 (a.state + bit a.mag.msb 5 + bit (decide (a.mag = 0)) 6), 0)

/-! ### Images in memory (R349, R350, R266) -/

/-- The images of the members that act, translated: 288 bytes at a multiple of 32. -/
def Cx.accGot (c : Cx) (s : State) (x : Ext) (rd wr : Bool) : Except TrapReq (List Got × List TlbEntry) :=
  s.translate c (c.who rd wr) 288 (some (32, 7)) x.p
    ((c.acting x.p).map fun t => { thread := t, va := c.atomEa x t, member := t / 32 })

/-- XST (R349). -/
def effXst (x : Ext) (c : Cx) (s : State) : Res :=
  match c.accGot s x false true with
  | .error t => .fault t
  | .ok (gs, seen) =>
    let lines := gather (gs.flatMap fun g => (g.addrs.map s.place).zip (c.g.acc (g.thread / 32) (xaOf x)).image)
    if s.atomHeld c.g.id (lines.map fun k => k.1) || c.stageFull s (gs.length * 288) then .hold
    else .done (c.store (s.learn seen) lines false)

/-- XLD (R349, R350). -/
def effXld (x : Ext) (c : Cx) (s : State) : Res :=
  match c.accGot s x true false with
  | .error t => .fault t
  | .ok (gs, seen) =>
    let accs : List Access := gs.map fun g =>
      { threads := [], reg := 4 * (g.thread / 32) + xaOf x, addrs := g.addrs, signed := false, widened := false }
    if s.atomHeld c.g.id (linesOf ((accs.flatMap fun a => a.addrs).map s.place)) then .hold
    else
      let (id, s) := ((s.learn seen).countReads c.l.id c.g.core c.g.gepoch false (accs.flatMap fun a => a.addrs)).fresh
      .done ((s.newOp (c.opOf s id 0 0 (.xld accs c.g.gepoch))).modGroup c.r.grp fun g => { g with
        accPending := accs.foldl (fun m a => m.put a.reg id) g.accPending
        accMarks := accs.foldl (fun m a => SMap.erase m a.reg) g.accMarks })

/-- An image address that leaves its 4 KiB block (R260). -/
def aimgCrosses (c : Cx) (x : Ext) (t : Nat) : Bool := decide (4096 < c.atomEa x t % 4096 + 288)

/-- AIMG (R266). -/
def effAimg (x : Ext) (c : Cx) (s : State) : Res :=
  let xa := x.subBits 1 0
  let want := (c.acting x.p).map fun t => ({ thread := t, va := c.atomEa x t, member := t / 32 } : Want)
  -- a block crossing is a misalignment: it counts with the failures of its thread
  let upTo := fun (l : List Want) => s.translate c (c.who true true) 288 (some (32, 7)) x.p l
  let crossing := want.find? fun w => aimgCrosses c x w.thread
  match upTo (match crossing with | some w => want.filter fun v => decide (v.thread < w.thread) | none => want), crossing with
  | .error t, _ => .fault t
  | .ok _, some w => (match upTo [w] with
    | .error t => .fault (if t.cause = 5 then { t with detail := pickDetail s.stamp (if t.detail = 7 then [7] else
        if t.addr = w.va then [7, t.detail] else [7]), addr := w.va } else { t with cause := 5, detail := 7, addr := w.va })
    | .ok _ => .fault { cause := 5, detail := 7, addr := w.va, msk := c.threads x.p, thread := w.thread })
  | .ok (gs, seen), none =>
    match gs with
    | [] => .done s
    | _ =>
      let reqs : List AimgReq := gs.map fun g =>
        { member := g.thread / 32, pa := g.addrs.headD 0, msa := g.msa, acc := c.g.acc (g.thread / 32) xa, done := false }
      let s := c.yieldLines (s.learn seen) (linesOf ((gs.flatMap fun g => g.addrs).map s.place))
      let (id, s) := s.fresh
      .done (s.newOp (c.opOf s id 1 (gs.foldl (fun n g => n + (linesOf g.addrs).length) 0) (.aimg reqs)))

/-! ### Meanings -/

/-- XCLR (R345). -/
def execXclr (x : Ext) (s : State) : Out := s.issueAcc x.words x formXclr [xaOf x] [] none (effXclr x)
/-- XADD (R345). -/
def execXadd (x : Ext) (s : State) : Out := s.issueAcc x.words x (formXadd x) [xaOf x] [xaOf x] none (effXadd x)
/-- XFMA (R346). -/
def execXfma (x : Ext) (s : State) : Out := s.issueAcc x.words x (formXfma x) [xaOf x] [xaOf x] none (effXfma x)
/-- XMRG (R345). -/
def execXmrg (x : Ext) (s : State) : Out :=
  s.issueAcc x.words x formXmrg [xaOf x, xbOf x] [xaOf x, xbOf x] none (effXmrg x)
/-- XRND (R347). -/
def execXrnd (x : Ext) (s : State) : Out := s.issueAcc x.words x (formXrnd x) [xaOf x] [xaOf x] none (effXrnd x)
/-- XST (R349). -/
def execXst (x : Ext) (s : State) : Out := s.issueAcc x.words x (formXmem x) [xaOf x] [xaOf x] (some 1) (effXst x)
/-- XLD (R349, R350). -/
def execXld (x : Ext) (s : State) : Out := s.issueAcc x.words x (formXmem x) [xaOf x] [] (some 0) (effXld x)
/-- XSTAT (R348). -/
def execXstat (x : Ext) (s : State) : Out := s.issueAcc x.words x (formXstat x) [xaOf x] [xaOf x] none (effXstat x)
/-- AIMG (R266). -/
def execAimg (x : Ext) (s : State) : Out :=
  s.issueAcc x.words x formAimg [x.subBits 1 0] [x.subBits 1 0] (some 1) (effAimg x)

/-! ### Events -/

/-- May the lead executor of image `i` hold its lines now (R261, R266)? -/
def State.aimgReady (s : State) (o : Op) (reqs : List AimgReq) (i : Nat) (r : AimgReq) : Bool :=
  let linesFrom := fun (pa : Nat) => linesOf ((List.range 288).map fun j => s.place (pa + j))
  let lines := linesFrom r.pa
  !r.done && lines.all s.pathTo &&
  ((reqs.take i).all fun q => q.done || !((linesFrom q.pa).any lines.contains)) &&
  !(s.ops.any fun p => p.grp == o.grp && decide (p.id < o.id) && p.ahead.any fun n => lines.contains (s.fwd n)) &&
  !(s.writes.any fun w => w.core == some o.core && lines.contains w.line && decide (w.id < o.id))

/-- Releases that wait for an AIMG go on once every image has been merged. -/
def State.aimgEdge (s : State) (id : Nat) (done : Bool) : State := if done then s.performedFor [] id 0 else s

/-- The merge of image `i` at its lead executor (R266): one position for all 288 bytes. -/
def State.aimgPerform (s : State) (o : Op) (reqs : List AimgReq) (i : Nat) (r : AimgReq) : State :=
  let addrs := (List.range 288).map fun j => r.pa + j
  let lines := linesOf addrs
  let die := dieOf o.core
  let reqs := reqs.set i { r with done := true }
  let all := reqs.all fun q => q.done
  let s := s.modOp o.id fun p => { p with kind := .aimg reqs }
  match lines.findSome? fun line => markFor (s.fwd line) (s.markOf (s.fwd line)) with
  | some m =>
    let s := (lines.foldl (fun s line => s.foundFailing (s.fwd line)) s).defer o m.cause (if m.cause = 6 then m.detail else 0) m.addr
    (lines.foldl (fun s _ => s.landed o.id) s).aimgEdge o.id all
  | none =>
    let new := ((Accum.ofBytes (s.bytesAt r.pa 288)).merge r.acc).image
    let s := (gather (addrs.zip new)).foldl (fun s (line, bytes) =>
      let t := s.visTime (s.fwd line) die
      let (id, s) := s.fresh
      ((s.merge line die bytes false).dropClean o.core (s.fwd line) |>.raiseEdges o.id t).publish (s.fwd line) die [o.grp] [o.id] id) s
    s.aimgEdge o.id all

/-- AIMG_AT_EXECUTOR (R266): the image of the operation that State.arg names. -/
def execAimgAtExecutor (s : State) : Out :=
  match s.arg with
  | .pair id i => match s.op? id with
    | some o => match o.kind with
      | .aimg reqs => match reqs[i]? with
        | some r => if s.aimgReady o reqs i r then .next (s.tick.aimgPerform o reqs i r) else notNow "AIMG_AT_EXECUTOR"
        | none => notNow "AIMG_AT_EXECUTOR"
      | _ => notNow "AIMG_AT_EXECUTOR"
    | none => notNow "AIMG_AT_EXECUTOR"
  | _ => notNow "AIMG_AT_EXECUTOR"

/-- The arrival of an XLD (R349, R350): once every byte has been read, each member's accumulator takes its image, or its mark. -/
def State.xldArrival (s : State) (o : Op) (g : Group) (accs : List Access) (epoch : Nat) (p : Option Nat) : State :=
  match p with
  | some p => s.sample o g accs epoch false (partSel s.stamp p)
  | none =>
    let s := s.sample o g accs epoch false fun _ _ => true
    match s.op? o.id with
    | none => s
    | some o =>
      let tk := fun i j => o.taken.get { byte := 0, mark := none } (512 * i + j)
      (s.modGroup o.grp fun g => accs.zipIdx.foldl (fun g (a, i) =>
        let mark := (List.range 288).findSome? fun j => (tk i j).mark
        let g : Group := { g with accPending := SMap.erase g.accPending a.reg }
        match mark with
        | some m => { g with accMarks := g.accMarks.put a.reg m }
        | none => { g with accs := g.accs.set Accum.clear a.reg (Accum.ofBytes ((List.range 288).map fun j => (tk i j).byte)) }) g).complete o.id

/-- Can the bytes of an access be reached? -/
def State.hasPath (s : State) (a : Access) : Bool := a.addrs.all fun pa => s.pathTo (pa / 64)

/-- LOAD_DATA_ARRIVAL (R31, R105): an early part, or the rest of an operation of the LD counter and its completion. -/
def execLoadDataArrival (s : State) : Out :=
  match s.arg with
  | .part id p => match s.op? id with
    | some o => match s.group? o.grp with
      | some g => match o.kind with
        | .load accs epoch na uni => if accs.all s.hasPath then .next (s.tick.loadArrival o g accs epoch na uni p)
          else notNow "LOAD_DATA_ARRIVAL"
        | .xld accs epoch => if accs.all s.hasPath then .next (s.tick.xldArrival o g accs epoch p) else notNow "LOAD_DATA_ARRIVAL"
        | .atom reqs => match s.tick.atomArrival o reqs p with
          | some s' => .next s'
          | none => notNow "LOAD_DATA_ARRIVAL"
        | _ => notNow "LOAD_DATA_ARRIVAL"
      | none => notNow "LOAD_DATA_ARRIVAL"
    | none => notNow "LOAD_DATA_ARRIVAL"
  | _ => notNow "LOAD_DATA_ARRIVAL"

end Machine
end Sys2Proof
end

