-- ==== Sys2Proof/Machine/Context.lean ====
section
/-! DEFINITION. The save record of a group (R141, R142 04_sequencer.md): its bytes, the checks that a restore and a resumption make,
and the group that a record stands for. -/

namespace Sys2Proof
namespace Machine

/-! ### Layout (R141) -/

/-- n', the declared vector registers rounded up to eights. -/
def Launch.nvec (l : Launch) : Nat := (l.vregs + 7) / 8 * 8
/-- VEND. -/
def Launch.vend (l : Launch) : Nat := 0x5B00 + 128 * l.m * l.nvec
/-- S, the bytes of a save record. -/
def Launch.recordSize (l : Launch) : Nat := l.vend + 288 * l.m * l.acc

def zeros (n : Nat) : List Byte := List.replicate n 0
/-- The bytes of `n` parts in order. -/
def parts (n : Nat) (f : Nat → List Byte) : List Byte := (List.range n).flatMap f

/-- BWAIT and BLEV of a sub-group. -/
def SubGroup.bwait (u : SubGroup) : Nat × Nat :=
  match u.phase with
  | .bar level => (1, level)
  | .await _ _ _ => (2, 0)
  | _ => (0, 0)

/-- A sub-group record, 64 bytes. -/
def SubGroup.recordBytes (u : SubGroup) : List Byte :=
  let flag := fun (f : WinEntry → Bool) => ofBits ((List.range u.window.length).filter fun k => match u.window[k]? with
    | some e => f e
    | none => false)
  leBytes 8 u.pc.toNat ++
  leBytes 4 (u.members.toNat + (u.mmk &&& u.members).toNat * 2 ^ 8 + u.ndone * 2 ^ 16 + u.window.length * 2 ^ 24) ++
  leBytes 4 (flag (fun e => e.wide) + flag (fun e => e.uni) * 2 ^ 8 + u.bwait.1 * 2 ^ 16 + u.bwait.2 * 2 ^ 20) ++
  leBytes 4 u.fpcr.toNat ++ leBytes 4 u.lpr.toNat ++ leBytes 4 (u.cfrm.getD noFrame) ++ leBytes 4 (bit u.monitor.isSome 0) ++ zeros 32

/-- No await record, as a save record codes it. -/
def noAwr : Nat := 0xFFFFFF

/-- The save record of a group; marked units are written as zero (R245, R246). REASON is 0 pre-emption, 1 its own trap, 2 a trap
elsewhere. -/
def Group.record (g : Group) (l : Launch) (reason : Nat) : List Byte :=
  let byMember := fun (f : Nat → Word) => parts 8 fun m => leBytes 4 (f m).toNat
  let sub := fun (j : Nat) => g.subs.find? fun u => u.num == j
  leBytes 4 1 ++ leBytes 4 (l.m + g.subs.length * 2 ^ 4 + reason * 2 ^ 8) ++
  leBytes 4 (l.nvec + l.uregs * 2 ^ 8 + l.acc * 2 ^ 16) ++ leBytes 4 (g.awr.getD noAwr) ++
  leBytes 8 g.trap.info.toNat ++ leBytes 8 g.trap.pc.toNat ++ leBytes 8 g.trap.addr.toNat ++
  leBytes 8 g.trap.msk0.toNat ++ leBytes 8 g.trap.msk1.toNat ++ leBytes 8 g.trap.msk2.toNat ++ leBytes 8 g.trap.msk3.toNat ++
  zeros 8 ++ byMember g.exmOf ++ byMember g.liveOf ++ zeros 112 ++
  (parts 15 fun k => byMember fun m => if m < g.m then g.predOf m (k + 1) else 0) ++ zeros 32 ++
  (parts 256 fun t => leBytes 1 (g.fpsr.get 0 t).toNat) ++ (parts 256 fun t => leBytes 1 (g.trapFlags.get 0 t).toNat) ++
  (parts 8 fun j => match sub j with | some u => u.recordBytes | none => zeros 64) ++
  (parts 8 fun j => parts 160 fun i => match sub j with
    | some u => leBytes 4 (if u.umarks.has i then 0 else (u.ureg i).toNat)
    | none => zeros 4) ++
  (parts 8 fun m => parts 8 fun k => parts 32 fun lane => match g.holder m with
    | some u => (match u.window[k]? with
      | some e => leBytes 8 (e.vals.get 0 (32 * m + lane)).toNat
      | none => zeros 8)
    | none => zeros 8) ++
  (parts l.m fun m => parts l.nvec fun i => parts 32 fun lane =>
    leBytes 4 (if g.vmarks.has (256 * i + 32 * m + lane) then 0 else (g.vcur i (32 * m + lane)).toNat)) ++
  (parts l.m fun m => parts l.acc fun i => (if g.accMarks.has (4 * m + i) then Accum.clear else g.acc m i).image)

/-! ### Reading a record -/

/-- A record as a map from offsets to bytes. -/
abbrev Bytes := Nat → Byte

def rdN (b : Bytes) (off n : Nat) : Nat := leNat ((List.range n).map fun i => b (off + i))
def zeroAt (b : Bytes) (off n : Nat) : Bool := (List.range n).all fun i => b (off + i) == 0

/-- Offset of sub-group record j. -/
def subAt (j : Nat) : Nat := 0x500 + 64 * j

/-- What the host may not change (R142): FMT, the words at 0x0004, 0x0008 and 0x000C, and each CFRM. -/
def Group.fixedOk (g : Group) (l : Launch) (b : Bytes) : Bool :=
  rdN b 0 4 == 1 && rdN b 4 4 == l.m + g.subs.length * 2 ^ 4 + g.reason * 2 ^ 8 &&
  rdN b 8 4 == l.nvec + l.uregs * 2 ^ 8 + l.acc * 2 ^ 16 && rdN b 0xC 4 == g.awr.getD noAwr &&
  g.subs.all fun u => rdN b (subAt u.num + 0x18) 4 == u.cfrm.getD noFrame

/-- One sub-group record is consistent (R141, R142). Before a resumption by the `host` a PC with NDONE = 0 must be aligned (log 27). -/
def subConsistent (b : Bytes) (j : Nat) (host : Bool) : Bool :=
  let at' := subAt j
  let flags := rdN b (at' + 8) 4
  let ndone := flags / 2 ^ 16 % 32
  let nwin := flags / 2 ^ 24 % 16
  let wait := rdN b (at' + 0xC) 4
  decide (ndone ≤ 24) && decide (nwin ≤ 8) && decide (nwin ≤ ndone) && decide (flags / 2 ^ 21 % 8 = 0) && decide (flags / 2 ^ 28 = 0) &&
  decide (wait / 2 ^ 16 % 16 ≤ 2) && decide (wait / 2 ^ 23 = 0) &&
  decide (rdN b (at' + 0x10) 4 < 2 ^ 10) && decide (rdN b (at' + 0x10) 4 / 2 ^ 5 % 8 ≤ 4) && decide (rdN b (at' + 0x14) 4 ≤ 4) &&
  decide (rdN b (at' + 0x1C) 4 ≤ 1) && zeroAt b (at' + 0x20) 32 &&
  (!host || decide (ndone ≠ 0) || decide (rdN b at' 8 % 64 = 0))

/-- A record is consistent (R142, R343). -/
def Group.recordOk (g : Group) (l : Launch) (b : Bytes) (host : Bool) : Bool :=
  let n := g.subs.length
  let memb := fun j => rdN b (subAt j + 8) 1
  g.fixedOk l b && decide (rdN b 0x10 8 / 2 ^ 22 % 4 = 0) && decide (rdN b 0x10 8 / 2 ^ 27 % 32 = 0) && zeroAt b 0x48 8 && zeroAt b 0x90 112 && zeroAt b 0x2E0 32 &&
  ((List.range 512).all fun i => decide ((b (0x300 + i)).toNat < 32)) &&
  ((List.range n).all fun j => subConsistent b j host) &&
  zeroAt b (subAt n) (64 * (8 - n)) &&
  -- MEMB sets cover the members below M and do not overlap
  ((List.range 8).all fun m =>
    let k := ((List.range n).filter fun j => (memb j).testBit m).length
    if m < l.m then k == 1 else decide (k ≤ 1)) &&
  ((List.range 8).all fun m => rdN b (0x50 + 4 * m) 4 ||| rdN b (0x70 + 4 * m) 4 == rdN b (0x70 + 4 * m) 4) &&
  ((List.range (l.m * l.acc)).all fun k => (Accum.ofImage ((List.range 288).map fun i => b (l.vend + 288 * k + i))).isSome)

/-- The sub-group that record j stands for, from the one that was saved. A wait for children keeps its awaiting state, which the
spawn engine holds (R141); one that the host set starts with none (log 27). -/
def SubGroup.ofRecord (u : SubGroup) (l : Launch) (live : Nat → Nat) (b : Bytes) (time : Nat) : SubGroup :=
  let at' := subAt u.num
  let flags := rdN b (at' + 8) 4
  let wait := rdN b (at' + 0xC) 4
  let members := BitVec.ofNat 8 flags
  let ended := ((List.range 8).all fun m => !members.getLsbD m || live m == 0)
  let entry := fun (k t : Nat) => BitVec.ofNat 64 (rdN b (0x1B00 + ((8 * (t / 32) + k) * 32 + t % 32) * 8) 8)
  let first := (List.range 8).find? fun m => members.getLsbD m
  { u with
    members := members
    mmk := BitVec.ofNat 8 (flags / 2 ^ 8)
    uregs := SMap.build 0 (fun i => BitVec.ofNat 32 (rdN b (0x700 + 640 * u.num + 4 * i) 4)) 0 l.uregs
    umarks := []
    upending := []
    fpcr := BitVec.ofNat 32 (rdN b (at' + 0x10) 4)
    lpr := BitVec.ofNat 3 (rdN b (at' + 0x14) 4)
    pc := BitVec.ofNat 64 (rdN b at' 8)
    ndone := flags / 2 ^ 16 % 32
    window := (List.range (flags / 2 ^ 24 % 16)).map fun k =>
      { wide := wait.testBit k, uni := wait.testBit (8 + k)
        -- a uniform entry holds the value of the sub-group's first member for every thread (R53, R64)
        vals := SMap.build 0 (fun t => if wait.testBit (8 + k) then entry k (32 * first.getD 0)
          else if members.getLsbD (t / 32) then entry k t else 0) 0 (32 * l.m) }
    phase := if ended then .finished else match wait / 2 ^ 16 % 16 with
      | 1 => .bar (wait / 2 ^ 20 % 8)
      | 2 => (match u.phase with
        | .await _ n act => .await time n act
        | _ => .await time 0 [])
      | _ => .running
    yielded := false
    passed := false
    monitor := if rdN b (at' + 0x1C) 4 = 1 then some { addr := none, exec := 0, order := 0, pending := false, wakes := [2] } else none
    observing := none
    hist := [] }

/-- The group that a record stands for (R140: counters zero; the registers of a trap as they stood). -/
def Group.ofRecord (g : Group) (l : Launch) (b : Bytes) (time : Nat) : Group :=
  let live := fun m => rdN b (0x70 + 4 * m) 4
  let byMember := fun (off : Nat) => SMap.build (0 : Word) (fun m => BitVec.ofNat 32 (rdN b (off + 4 * m) 4)) 0 l.m
  let q := fun (off : Nat) => BitVec.ofNat 64 (rdN b off 8)
  { g with
    vregs := SMap.build [] (fun i => SMap.build 0 (fun t =>
      BitVec.ofNat 32 (rdN b (0x5B00 + ((t / 32 * l.nvec + i) * 32 + t % 32) * 4) 4)) 0 (32 * l.m)) 0 l.vregs
    stale := []
    vmarks := []
    preds := SMap.build 0 (fun k => if k % 16 = 0 then 0 else
      BitVec.ofNat 32 (rdN b (0x100 + ((k % 16 - 1) * 8 + k / 16) * 4) 4)) 0 (16 * l.m)
    exm := byMember 0x50
    live := byMember 0x70
    fpsr := SMap.build 0 (fun t => BitVec.ofNat 5 (b (0x300 + t)).toNat) 0 (32 * l.m)
    trapFlags := SMap.build 0 (fun t => BitVec.ofNat 5 (b (0x400 + t)).toNat) 0 (32 * l.m)
    accs := SMap.build Accum.clear (fun k => if k % 4 < l.acc then
      Accum.ofBytes ((List.range 288).map fun i => b (l.vend + 288 * (k / 4 * l.acc + k % 4) + i)) else Accum.clear) 0 (4 * l.m)
    accMarks := []
    accPending := []
    trap := { info := q 0x10, pc := q 0x18, addr := q 0x20, msk0 := q 0x28, msk1 := q 0x30, msk2 := q 0x38, msk3 := q 0x40 }
    ld := 0
    st := 0
    cp := 0
    mx := 0
    deferred := []
    uncovered := []
    subs := g.subs.map fun u => u.ofRecord l live b time }

end Machine
end Sys2Proof
end

