-- ==== Sys2Proof/Machine/Hash.lean ====
section
/-! DEFINITION. The digests and the signatures of the management controller (R452, R460 21_management.md; log 15): SHA-256, and the LMS
and HSS signatures of NIST SP 800-208 with the one parameter set that the device accepts. -/

namespace Sys2Proof
namespace Machine

/-! ### SHA-256 -/

/-- The largest number below 2^40 whose k-th power is at most n. -/
def rootOf (k n : Nat) : Nat := ((List.range 40).map fun b => 2 ^ (39 - b)).foldl (fun r d => if (r + d) ^ k ≤ n then r + d else r) 0

/-- The first 64 primes. -/
def shaPrimes : List Nat := (List.range 312).filter fun p => decide (2 ≤ p) && (List.range 18).all fun d => decide (d < 2) || decide (p ≤ d) || p % d != 0

/-- The first 32 bits after the point of the k-th root of a prime. -/
def rootWord (k p : Nat) : Word := BitVec.ofNat 32 (rootOf k (p * 2 ^ (32 * k)))

/-- What the hash adds in each round, and its value before the first block. -/
def shaAdds : List Word := shaPrimes.map (rootWord 3)
def shaSeed : List Word := (shaPrimes.take 8).map (rootWord 2)

/-- The exclusive or of a word turned right by two amounts with a third form of it. -/
def turned (w : Word) (a b : Nat) (third : Word) : Word := w.rotateRight a ^^^ w.rotateRight b ^^^ third

/-- The sixteen words of a block, and the 48 that follow from them, the newest in front. -/
def shaWords (block : List Byte) : List Word :=
  let first := ((List.range 16).map fun i => BitVec.ofNat 32 (leNat ((block.drop (4 * i)).take 4).reverse)).reverse
  (List.range 48).foldl (fun ws _ =>
    let old := ws.getD 14 0
    let new := ws.getD 1 0
    (ws.getD 15 0 + turned old 7 18 (old >>> 3) + ws.getD 6 0 + turned new 17 19 (new >>> 10)) :: ws) first

/-- One round on the eight words of the state, with what it adds. -/
def shaStep (v : List Word) (add : Word) : List Word :=
  let r := fun i => v.getD i 0
  let up := r 7 + turned (r 4) 6 11 ((r 4).rotateRight 25) + ((r 4 &&& r 5) ^^^ (~~~(r 4) &&& r 6)) + add
  let top := up + turned (r 0) 2 13 ((r 0).rotateRight 22) + ((r 0 &&& r 1) ||| (r 2 &&& (r 0 ||| r 1)))
  [top, r 0, r 1, r 2, r 3 + up, r 4, r 5, r 6]

/-- A block is taken into the state. -/
def shaTake (v : List Word) (block : List Byte) : List Word :=
  let rounds := List.zipWith (· + ·) shaAdds (shaWords block).reverse
  List.zipWith (· + ·) v (rounds.foldl shaStep v)

/-- A message with its end mark, zeros and its length in bits, whole blocks long. -/
def shaPadded (m : List Byte) : List Byte :=
  m ++ [0x80] ++ zeros ((119 - m.length % 64) % 64) ++ (leBytes 8 (8 * m.length)).reverse

/-- SHA-256 of a message. -/
def sha256 (m : List Byte) : List Byte :=
  let b := shaPadded m
  (((List.range (b.length / 64)).map fun i => (b.drop (64 * i)).take 64).foldl shaTake shaSeed).flatMap fun w => (leBytes 4 w.toNat).reverse

/-! ### LMOTS_SHA256_N32_W4 -/

/-- Numbers as signatures and keys hold them: the most significant byte first. -/
def beBytes (n v : Nat) : List Byte := (leBytes n v).reverse
def beAt (b : List Byte) (off n : Nat) : Nat := leNat ((b.drop off).take n).reverse

/-- Chains of a one-time key, its type, and the type of a tree of height 10. -/
def otsChains : Nat := 67
def otsType : Nat := 3
def lmsType : Nat := 6

/-- Bytes of the parts: a one-time signature, a signature of a tree, a tree's public key. -/
def otsLen : Nat := 4 + 32 + 32 * otsChains
def lmsLen : Nat := 4 + otsLen + 4 + 32 * 10
def lmsKeyLen : Nat := 56
/-- Bytes of an HSS signature of two levels (R452, R460). -/
def sigLen : Nat := 4 + lmsLen + lmsKeyLen + lmsLen

/-- The hash of a tree's identifier, a number and a code, with what follows them. -/
def lmsHash (id : List Byte) (q code : Nat) (rest : List Byte) : List Byte := sha256 (id ++ beBytes 4 q ++ beBytes 2 code ++ rest)

/-- The steps of each chain that a message stands for: its digest in hexadecimal digits, and three of a checksum. -/
def otsDigits (id : List Byte) (q : Nat) (c m : List Byte) : List Nat :=
  let digits := (lmsHash id q 0x8181 (c ++ m)).flatMap fun b => [b.toNat / 16, b.toNat % 16]
  let sum := digits.foldl (fun t d => t + (15 - d)) 0
  digits ++ [sum / 256 % 16, sum / 16 % 16, sum % 16]

/-- A chain from step `a` on, for `n` steps. -/
def otsChain (id : List Byte) (q i a n : Nat) (x : List Byte) : List Byte :=
  (List.range n).foldl (fun x j => sha256 (id ++ beBytes 4 q ++ beBytes 2 i ++ beBytes 1 (a + j) ++ x)) x

/-- The public key of a one-time key whose chains end so. -/
def otsKey (id : List Byte) (q : Nat) (ends : Nat → List Byte) : List Byte := lmsHash id q 0x8080 (parts otsChains ends)

/-! ### LMS_SHA256_M32_H10 -/

def lmsLeaf (id : List Byte) (q : Nat) (key : List Byte) : List Byte := lmsHash id (2 ^ 10 + q) 0x8282 key
def lmsPair (id : List Byte) (node : Nat) (l r : List Byte) : List Byte := lmsHash id node 0x8383 (l ++ r)

/-- The root that a leaf and the path beside it lead to. -/
def lmsRoot (id : List Byte) (q : Nat) (leaf : List Byte) (path : Nat → List Byte) : List Byte :=
  (List.range 10).foldl (fun x i =>
    let node := (2 ^ 10 + q) / 2 ^ i
    if node % 2 = 1 then lmsPair id (node / 2) (path i) x else lmsPair id (node / 2) x (path i)) leaf

/-- Does a signature verify under a public key? Another type of key or signature does not (R452). -/
def lmsValid (key m sig : List Byte) : Bool :=
  let id := (key.drop 8).take 16
  let q := beAt sig 0 4
  let ds := otsDigits id q ((sig.drop 8).take 32) m
  let ends := fun i => let d := ds.getD i 0; otsChain id q i d (15 - d) ((sig.drop (40 + 32 * i)).take 32)
  decide (key.length = lmsKeyLen) && decide (sig.length = lmsLen) && beAt key 0 4 == lmsType && beAt key 4 4 == otsType &&
  beAt sig 4 4 == otsType && beAt sig (4 + otsLen) 4 == lmsType && decide (q < 2 ^ 10) &&
  lmsRoot id q (lmsLeaf id q (otsKey id q ends)) (fun i => (sig.drop (8 + otsLen + 32 * i)).take 32) == key.drop 24

/-- Does an HSS signature of two levels verify under the tree of its first level? -/
def hssValid (key m sig : List Byte) : Bool :=
  let next := (sig.drop (4 + lmsLen)).take lmsKeyLen
  decide (sig.length = sigLen) && beAt sig 0 4 == 1 && lmsValid key next ((sig.drop 4).take lmsLen) && lmsValid next m (sig.drop (4 + lmsLen + lmsKeyLen))

/-! ### Keys that the device signs with (R460) -/

/-- Secret bytes of key `k` of the device, which the spec does not give: its identifier, the starts of its chains, its randomizers. -/
def keyId (k : Nat) : List Byte := (List.range 16).map fun i => Config.keyByte k i
def keyStart (k q i : Nat) : List Byte := (List.range 32).map fun j => Config.keyByte k (16 + 32 * (otsChains * q + i) + j)
def keyRandom (k q : Nat) : List Byte := (List.range 32).map fun j => Config.keyByte k (2 ^ 32 + 32 * q + j)

/-- A node of a key's tree, `h` levels above the leaves, the n-th of its level. -/
def keyNode (k : Nat) : Nat → Nat → List Byte
  | 0, n => lmsLeaf (keyId k) n (otsKey (keyId k) n fun i => otsChain (keyId k) n i 0 15 (keyStart k n i))
  | h + 1, n => lmsPair (keyId k) (2 ^ (9 - h) + n) (keyNode k h (2 * n)) (keyNode k h (2 * n + 1))

/-- The public key of a tree, and its signature of a message with leaf q. -/
def keyPublic (k : Nat) : List Byte := beBytes 4 lmsType ++ beBytes 4 otsType ++ keyId k ++ keyNode k 10 0
def keySign (k q : Nat) (m : List Byte) : List Byte :=
  let c := keyRandom k q
  let ds := otsDigits (keyId k) q c m
  beBytes 4 q ++ beBytes 4 otsType ++ c ++ (parts otsChains fun i => otsChain (keyId k) q i 0 (ds.getD i 0) (keyStart k q i)) ++
  beBytes 4 lmsType ++ parts 10 fun i => keyNode k i (q / 2 ^ i ^^^ 1)

/-- The device's identity key: a tree that signs trees of the second level, key 1 + n for the n-th; leaf `n` of it all. -/
def identityPublic : List Byte := beBytes 4 2 ++ keyPublic 0
def identitySign (n : Nat) (m : List Byte) : List Byte :=
  let next := keyPublic (1 + n / 2 ^ 10)
  beBytes 4 1 ++ keySign 0 (n / 2 ^ 10) next ++ next ++ keySign (1 + n / 2 ^ 10) (n % 2 ^ 10) m
/-- The key of the session that used leaf n of the identity key. -/
def sessionKey (n : Nat) : Nat := 2 ^ 32 + n

end Machine
end Sys2Proof
end

