-- ==== Sys2Proof/Machine/Function.lean ====
section
/-! DEFINITION. Function pipe (R223 to R231 09_function.md). A function's result is the rounding of its exact real value (R225).
The exact value is enclosed between two fixed-point numbers, more and more closely, until no rounding can tell it from any
other number between them; inputs with an exact result are listed first (R226, and the exact cases under it). -/

namespace Sys2Proof
namespace Machine

/-! ### Fixed-point series; every value is scaled by 2^w -/

/-- Sum over i of 1 / ((2 i + 1) q^(2 i + 1)), with signs alternating if `alt`: arctan or artanh of 1 / q. -/
def arcInv (alt : Bool) (q : Nat) : Nat → Nat → Nat → Int → Int
  | 0, _, _, acc => acc
  | n + 1, pw, i, acc =>
    if pw = 0 then acc
    else
      let t : Int := (pw / (2 * i + 1) : Nat)
      arcInv alt q n (pw / (q * q)) (i + 1) (if alt && i % 2 == 1 then acc - t else acc + t)

/-- ln 2. -/
def ln2Fix (w : Nat) : Nat := (2 * arcInv false 3 w (2 ^ w / 3) 0 0).toNat
/-- π, by Machin's formula. -/
def piFix (w : Nat) : Nat := (16 * arcInv true 5 w (2 ^ w / 5) 0 0 - 4 * arcInv true 239 w (2 ^ w / 239) 0 0).toNat

/-- Sum of y^i / i!. -/
def expSeries (w y : Nat) : Nat → Nat → Nat → Nat → Nat
  | 0, _, _, acc => acc
  | n + 1, t, i, acc => if t = 0 then acc else expSeries w y n (t * y / 2 ^ w / (i + 1)) (i + 1) (acc + t)

def squareTimes (w : Nat) : Nat → Nat → Nat
  | 0, v => v
  | n + 1, v => squareTimes w n (v * v / 2 ^ w)

/-- e^(n/d) as (m, k): m / 2^w x 2^k, m being within `slack` of the exact factor for n/d at most 1,600. -/
def expFix (w n d : Nat) : Nat × Nat :=
  let l := ln2Fix w
  let x := n * 2 ^ w / d
  let k := x / l
  (squareTimes w 16 (expSeries w ((x - k * l) / 2 ^ 16) w (2 ^ w) 0 0), k)

/-- More units of 2^-w than any sum below is off by: each has some thousand terms, each cut by a few units, and `expFix`
multiplies its error by 2^16. -/
def slack : Nat := 2 ^ 48
/-- The bounds about a value that is off by at most `slack` units. -/
def within (v : Int) : Int × Int := (v - slack, v + slack)
/-- The bounds of the negated value. -/
def negated (b : Int × Int) : Int × Int := (-b.2, -b.1)

/-- Bounds of e^(n/d), or of e^-(n/d), scaled by 2^w: the factor's error counts 2^k times, or its reciprocal's 2^-k times. -/
def expOf (w : Nat) (neg : Bool) (n d : Nat) : Nat × Nat :=
  let (m, k) := expFix w n d
  if neg then (2 ^ (2 * w) / (m + slack) / 2 ^ k, 2 ^ (2 * w) / (m - slack) / 2 ^ k + 1)
  else ((m - slack) * 2 ^ k, (m + slack) * 2 ^ k)
/-- The same bounds as integers. -/
def expBounds (w : Nat) (neg : Bool) (n d : Nat) : Int × Int := let b := expOf w neg n d; (b.1, b.2)

/-- Sum of z^(2i+1) / (2i+1) from the power `pw`. -/
def atanhSeries (w z2 : Nat) : Nat → Nat → Nat → Nat → Nat
  | 0, _, _, acc => acc
  | n + 1, pw, i, acc => if pw = 0 then acc else atanhSeries w z2 n (pw * z2 / 2 ^ w) (i + 1) (acc + pw / (2 * i + 1))

/-- ln (n/d), signed. -/
def lnFix (w n d : Nat) : Int :=
  let e := leadExp n d
  let p := pow2 e
  let a := n * p.2
  let b := d * p.1
  let z := (a - b) * 2 ^ w / (a + b)
  (2 * atanhSeries w (z * z / 2 ^ w) w z 0 0 : Nat) + e * (ln2Fix w : Int)

/-- Sum of (-1)^i x^(2i+1) / (2i+1)!. -/
def sinSeries (w x2 : Nat) : Nat → Nat → Nat → Int → Int
  | 0, _, _, acc => acc
  | n + 1, t, i, acc =>
    if t = 0 then acc
    else sinSeries w x2 n (t * x2 / 2 ^ w / ((2 * i + 2) * (2 * i + 3))) (i + 1) (if i % 2 = 1 then acc - (t : Int) else acc + (t : Int))

/-- sin (π n/d) for n/d from 0 to 1/2. -/
def sinPiFix (w n d : Nat) : Nat :=
  let x := piFix w * n / d
  (sinSeries w (x * x / 2 ^ w) w x 0 0).toNat

/-- Sum of x^(2i+1) 2^i / (1 x 3 x ... x (2i+1)). -/
def erfSeries (w x2 : Nat) : Nat → Nat → Nat → Nat → Nat
  | 0, _, _, acc => acc
  | n + 1, t, i, acc => if t = 0 then acc else erfSeries w x2 n (2 * t * x2 / 2 ^ w / (2 * i + 3)) (i + 1) (acc + t)

/-- erf (n/d) for n/d at most 28, worked with as many more bits as the sum grows by. -/
def erfFix (w n d : Nat) : Nat :=
  let g := 2 * (n * n / (d * d)) + 8
  let v := w + g
  let x := n * 2 ^ v / d
  let s := erfSeries v (n * n * 2 ^ v / (d * d)) (4 * v + 8192) x 0 0
  let rootPi := iroot 2 (piFix v * 2 ^ v)
  2 * s * (expOf v true (n * n) (d * d)).1 / rootPi / 2 ^ g

/-! ### Deciding a rounding -/

/-- An exact value that every rounding to `f` treats as the one value between lo / 2^w and hi / 2^w, none if they are still
too far apart. The value enclosed is irrational, so it lies on no grid. -/
def decideEx (f : Fmt) (s : Bool) (lo hi w : Nat) : Option Ex :=
  let e : Int := (Nat.log2 hi : Int) - w
  let r : Int := min (f.fine : Int) ((f.t : Int) + 6 - e)
  let p := pow2 ((w : Int) - r)
  let a := lo * p.2 / p.1
  let b := hi * p.2 / p.1
  if a = b then
    let q := pow2 (-(r + 1))
    some (.rat s ((2 * a + 1) * q.1) q.2)
  else none

/-- Work at w bits, where g gives bounds of the exact value, doubling w until decided. -/
def refine (f : Fmt) (s : Bool) (g : Nat → Int × Int) : Nat → Nat → Option Ex
  | 0, _ => none
  | n + 1, w =>
    let v := g w
    match decideEx f s v.1.toNat v.2.toNat w with
    | some x => some x
    | none => refine f s g n (2 * w)

/-- A positive value below every grid point of the format. -/
def tinyEx (f : Fmt) (s : Bool) : Ex := .rat s 1 (2 ^ (f.fine + 1))
/-- A value above the largest finite one. -/
def hugeEx (s : Bool) : Ex := .rat s (2 ^ 1100) 1
/-- A value just below a whole number. -/
def belowWhole (f : Fmt) (s : Bool) (k : Nat) : Ex := .rat s (k * 2 ^ (f.t + 9) - 1) (2 ^ (f.t + 9))

/-- n/d above a whole number k? -/
def above (n d k : Nat) : Bool := decide (k * d < n)

/-- Round a decided value; one on which `enclose` gave up leaves the result free (log 13). -/
def roundFn (f : Fmt) (e : FpEnv) (key : Nat) : Option Ex → Nat × Flags
  | some x => round f e.mode e.fzo x
  | none => (Config.functionUnresolved f.t key % 2 ^ f.width, flagNX)

/-- The bounds are drawn closer until they decide every rounding (R225: the result does not depend on how close the exact
value lies to a boundary). Sixty doublings from 160 bits stand for an unbounded search: a value that no width decides would
lie on a boundary (log 13). -/
def enclose (f : Fmt) (s : Bool) (g : Nat → Int × Int) : Option Ex := refine f s g 60 160

/-! ### The functions on a finite nonzero input s n/d (R225, R226) -/

/-- The integer that n/d is, if it is one. -/
def whole (n d : Nat) : Option Nat := if n % d = 0 then some (n / d) else none

def expEx (f : Fmt) (s : Bool) (n d : Nat) : Option Ex :=
  if above n d 1200 then some (if s then tinyEx f false else hugeEx false)
  else enclose f false fun w => expBounds w s n d
def exp2Ex (f : Fmt) (s : Bool) (n d : Nat) : Option Ex :=
  if above n d 1200 then some (if s then tinyEx f false else hugeEx false)
  else match whole n d with
    | some k => let p := pow2 (if s then -(k : Int) else k); some (.rat false p.1 p.2)
    | none => enclose f false fun w => expBounds w s (n * ln2Fix (w + 16)) (d * 2 ^ (w + 16))
def expm1Ex (f : Fmt) (s : Bool) (n d : Nat) : Option Ex :=
  if above n d 1200 then some (if s then belowWhole f true 1 else hugeEx false)
  else enclose f s fun w => let b := expBounds w s n d; let v := (b.1 - 2 ^ w, b.2 - 2 ^ w); if s then negated v else v
def logEx (f : Fmt) (n d : Nat) : Option Ex :=
  let s := decide (n < d)
  enclose f s fun w => let v := lnFix w n d; within (if s then -v else v)
def log2Ex (f : Fmt) (n d : Nat) : Option Ex :=
  let e := leadExp n d
  let p := pow2 e
  if n * p.2 = d * p.1 then some (Ex.ofInt e)
  else
    let s := decide (n < d)
    enclose f s fun w => let v := lnFix w n d * 2 ^ w / (ln2Fix w : Int); within (if s then -v else v)
def erfEx (f : Fmt) (s : Bool) (n d : Nat) : Option Ex :=
  if above n d 28 then some (belowWhole f s 1) else enclose f s fun w => within (erfFix w n d)
def erfcEx (f : Fmt) (s : Bool) (n d : Nat) : Option Ex :=
  if above n d 28 then some (if s then belowWhole f false 2 else tinyEx f false)
  else enclose f false fun w => within (if s then (2 : Int) ^ w + erfFix w n d else (2 : Int) ^ w - erfFix w n d)
/-- sin (π a), a = s n/d: reduced exactly, modulo 2. -/
def sinpiEx (f : Fmt) (s : Bool) (n d : Nat) : Option Ex :=
  let r := n % (2 * d)
  let sg := s != decide (d ≤ r)
  let r := r % d
  let r := if d < 2 * r then d - r else r
  if r = 0 then some (.rat s 0 1)
  else if 2 * r = d then some (.rat sg 1 1)
  else enclose f sg fun w => within (sinPiFix w r d)
/-- cos (π a): sin of the complement. -/
def cospiEx (f : Fmt) (n d : Nat) : Option Ex :=
  let r := n % (2 * d)
  let r := if d < r then 2 * d - r else r
  let sg := decide (d < 2 * r)
  let r := if sg then d - r else r
  -- r / d now lies from 0 to 1/2; the complement is (d - 2 r) / (2 d)
  if 2 * r = d then some (.rat false 0 1)
  else if r = 0 then some (.rat sg 1 1)
  else enclose f sg fun w => within (sinPiFix w (d - 2 * r) (2 * d))
def tanhEx (f : Fmt) (s : Bool) (n d : Nat) : Option Ex :=
  if above n d 40 then some (belowWhole f s 1)
  else enclose f s fun w =>
    let b := expBounds w false (2 * n) d
    ((b.1 - 2 ^ w) * 2 ^ w / (b.1 + 2 ^ w), (b.2 - 2 ^ w) * 2 ^ w / (b.2 + 2 ^ w) + 1)

/-- A special value: its bits and its flag. -/
def special (f : Fmt) (x : Ex) (fl : Flags) : Nat × Flags :=
  match x with
  | .nan _ => (f.nan, fl)
  | x => (exactBits f x, fl)

inductive FnName where
  | exp | exp2 | expm1 | log | log2 | log1p | erf | erfc | sinpi | cospi | tanh | cbrt
deriving DecidableEq, Repr

def one : Ex := .rat false 1 1
def minusOne : Ex := .rat true 1 1
def zeroOf (s : Bool) : Ex := .rat s 0 1

/-- Results at an infinity (R226). -/
def fnAtInf (k : FnName) (s : Bool) : Ex × Flags :=
  match k with
  | .exp | .exp2 => (if s then zeroOf false else .inf false, 0)
  | .expm1 => (if s then minusOne else .inf false, 0)
  | .log | .log2 | .log1p => if s then (.nan false, flagNV) else (.inf false, 0)
  | .erf | .tanh => (if s then minusOne else one, 0)
  | .erfc => (if s then .rat false 2 1 else zeroOf false, 0)
  | .sinpi | .cospi => (.nan false, flagNV)
  | .cbrt => (.inf s, 0)

/-- Results at a zero (R226). -/
def fnAtZero (k : FnName) (s : Bool) : Ex × Flags :=
  match k with
  | .exp | .exp2 | .erfc | .cospi => (one, 0)
  | .expm1 | .log1p | .erf | .sinpi | .tanh | .cbrt => (zeroOf s, 0)
  | .log | .log2 => (.inf true, flagDZ)

/-- A function of a finite nonzero input. -/
def fnFinite (k : FnName) (f : Fmt) (e : FpEnv) (s : Bool) (n d : Nat) : Nat × Flags :=
  let key := 2 * (n * 2 ^ 1200 / d) + if s then 1 else 0
  let fin := roundFn f e key
  match k with
  | .exp => fin (expEx f s n d)
  | .exp2 => fin (exp2Ex f s n d)
  | .expm1 => fin (expm1Ex f s n d)
  | .log => if s then (f.nan, flagNV) else if n = d then (f.signBit false, 0) else fin (logEx f n d)
  | .log2 => if s then (f.nan, flagNV) else if n = d then (f.signBit false, 0) else fin (log2Ex f n d)
  | .log1p =>
    if s then (if d < n then (f.nan, flagNV) else if n = d then (f.inf true, flagDZ) else fin (logEx f (d - n) d))
    else fin (logEx f (d + n) d)
  | .erf => fin (erfEx f s n d)
  | .erfc => fin (erfcEx f s n d)
  | .sinpi => fin (sinpiEx f s n d)
  | .cospi => fin (cospiEx f n d)
  | .tanh => fin (tanhEx f s n d)
  | .cbrt => fin (match rootEx 3 n d f.fine with | .rat _ m q => some (.rat s m q) | x => some x)

/-- One of the twelve functions (R224 to R226). -/
def fnOf (k : FnName) (f : Fmt) (e : FpEnv) (a : Ex) : Nat × Flags :=
  match a with
  | .nan _ => nanres f [a] false
  | .inf s => let r := fnAtInf k s; special f r.1 r.2
  | .rat s n d => if n = 0 then (let r := fnAtZero k s; special f r.1 r.2) else fnFinite k f e s n d

def formFn (x : Ext) : Form := formFlt1 x 0 true true
def effFn (k : FnName) (x : Ext) : Cx → State → Res := effFlt1 x (fnOf k)

/-! ### Keyed mixing (R227 to R230) -/

def hmixC0 : Dword := 0x6A09E667F3BCC909
def hmixC1 : Dword := 0xBB67AE8584CAA73B
def hmixC2 : Dword := 0x3C6EF372FE94F82B
/-- hmix(k, x) (R227). -/
def hmix (k x : Dword) : Dword :=
  let z := (x ^^^ k) + hmixC0
  let z := (z ^^^ (z >>> 32)) * hmixC1
  let z := (z ^^^ (z >>> 29)) * hmixC2
  z ^^^ (z >>> 32)

def formHmix (x : Ext) : Form :=
  { dest := destAny x.ty.wide, srcs := [{ slot := .A, wide := x.ty.wide }, { slot := .B, wide := true }], ty := some bitTypes }
def effHmix (x : Ext) (c : Cx) (s : State) : Res :=
  c.result s x x.ty.wide fun t =>
    let h := hmix (c.src x .B true .int t) (c.src x .A x.ty.wide .int t)
    (if x.ty.wide then h else BitVec.ofNat 64 (bits h 31 0), 0)

/-- The key with the member mixed in under MB = SUB[6] (R229, R230). -/
def mixKey (x : Ext) (k : Dword) (m : Nat) : Dword := if x.bit1 6 then k ^^^ BitVec.ofNat 64 (m * 2 ^ 56) else k

def formRand (x : Ext) : Form :=
  { dest := destAny x.ty.wide, srcs := [{ slot := .A, wide := true }, { slot := .B, wide := true }], own1 := 0x60,
    ty := some [.n32, .b64, .f32, .f64], own := failIf (x.bit1 5 && !x.ty.isFloat) 16 }
/-- What RAND draws from the mixed bits (R229). -/
def randBits (ty : DType) (opn : Bool) (h : Dword) : Dword :=
  let o := if opn then 1 else 0
  match ty with
  | .n32 => BitVec.ofNat 64 (bits h 63 32)
  | .f32 => BitVec.ofNat 64 (exactBits (fmtOf .f32) (.rat false (bits h 63 40 + o) (2 ^ 24)))
  | .f64 => BitVec.ofNat 64 (exactBits (fmtOf .f64) (.rat false (bits h 63 11 + o) (2 ^ 53)))
  | _ => h
def effRand (x : Ext) (c : Cx) (s : State) : Res :=
  let uni := match operandOf x.d with | .ureg _ => true | _ => false
  c.result s x x.ty.wide fun t =>
    let k := mixKey x (c.src x .B true .int t) (if uni then 0 else t / 32)
    (randBits x.ty (x.bit1 5) (hmix k (c.src x .A true .int t)), 0)

def formDropm (x : Ext) : Form :=
  { dest := .own 0x00F, own1 := 0x40, ty := some [.b64], own := failIf (x.d.toNat % 16 == 0) 16,
    srcs := [{ slot := .A, wide := true }, { slot := .B, wide := true }, { slot := .C, wide := false }] }
def effDropm (x : Ext) (c : Cx) (s : State) : Res :=
  c.predResult s (x.d.toNat % 16) x.p fun t =>
    let k := mixKey x (c.src x .B true .int t) (t / 32)
    let q := min (c.src x .C false .int t).toNat 65536
    (decide (bits (hmix k (c.src x .A true .int t)) 63 48 < q), 0)

/-! ### The instructions -/

/-- FEXP (R225, R226). -/
def execFexp (x : Ext) (s : State) : Out := s.issueAlu x.words x (formFn x) (effFn .exp x)
/-- The base form of FEXP (R48 02_encoding.md). -/
def execFexpBase (b : Base) (s : State) : Out :=
  s.issueAlu 1 b.one (formFn b.one) (effFn .exp b.one)
/-- FEXP2 (R225, R226). -/
def execFexp2 (x : Ext) (s : State) : Out := s.issueAlu x.words x (formFn x) (effFn .exp2 x)
/-- The base form of FEXP2 (R48 02_encoding.md). -/
def execFexp2Base (b : Base) (s : State) : Out :=
  s.issueAlu 1 b.one (formFn b.one) (effFn .exp2 b.one)
/-- FEXPM1 (R225, R226). -/
def execFexpm1 (x : Ext) (s : State) : Out := s.issueAlu x.words x (formFn x) (effFn .expm1 x)
/-- The base form of FEXPM1 (R48 02_encoding.md). -/
def execFexpm1Base (b : Base) (s : State) : Out :=
  s.issueAlu 1 b.one (formFn b.one) (effFn .expm1 b.one)
/-- FLOG (R225, R226). -/
def execFlog (x : Ext) (s : State) : Out := s.issueAlu x.words x (formFn x) (effFn .log x)
/-- The base form of FLOG (R48 02_encoding.md). -/
def execFlogBase (b : Base) (s : State) : Out :=
  s.issueAlu 1 b.one (formFn b.one) (effFn .log b.one)
/-- FLOG2 (R225, R226). -/
def execFlog2 (x : Ext) (s : State) : Out := s.issueAlu x.words x (formFn x) (effFn .log2 x)
/-- The base form of FLOG2 (R48 02_encoding.md). -/
def execFlog2Base (b : Base) (s : State) : Out :=
  s.issueAlu 1 b.one (formFn b.one) (effFn .log2 b.one)
/-- FLOG1P (R225, R226). -/
def execFlog1p (x : Ext) (s : State) : Out := s.issueAlu x.words x (formFn x) (effFn .log1p x)
/-- The base form of FLOG1P (R48 02_encoding.md). -/
def execFlog1pBase (b : Base) (s : State) : Out :=
  s.issueAlu 1 b.one (formFn b.one) (effFn .log1p b.one)
/-- FERF (R225, R226). -/
def execFerf (x : Ext) (s : State) : Out := s.issueAlu x.words x (formFn x) (effFn .erf x)
/-- The base form of FERF (R48 02_encoding.md). -/
def execFerfBase (b : Base) (s : State) : Out :=
  s.issueAlu 1 b.one (formFn b.one) (effFn .erf b.one)
/-- FERFC (R225, R226). -/
def execFerfc (x : Ext) (s : State) : Out := s.issueAlu x.words x (formFn x) (effFn .erfc x)
/-- The base form of FERFC (R48 02_encoding.md). -/
def execFerfcBase (b : Base) (s : State) : Out :=
  s.issueAlu 1 b.one (formFn b.one) (effFn .erfc b.one)
/-- FSINPI (R225, R226). -/
def execFsinpi (x : Ext) (s : State) : Out := s.issueAlu x.words x (formFn x) (effFn .sinpi x)
/-- The base form of FSINPI (R48 02_encoding.md). -/
def execFsinpiBase (b : Base) (s : State) : Out :=
  s.issueAlu 1 b.one (formFn b.one) (effFn .sinpi b.one)
/-- FCOSPI (R225, R226). -/
def execFcospi (x : Ext) (s : State) : Out := s.issueAlu x.words x (formFn x) (effFn .cospi x)
/-- The base form of FCOSPI (R48 02_encoding.md). -/
def execFcospiBase (b : Base) (s : State) : Out :=
  s.issueAlu 1 b.one (formFn b.one) (effFn .cospi b.one)
/-- FTANH (R225, R226). -/
def execFtanh (x : Ext) (s : State) : Out := s.issueAlu x.words x (formFn x) (effFn .tanh x)
/-- The base form of FTANH (R48 02_encoding.md). -/
def execFtanhBase (b : Base) (s : State) : Out :=
  s.issueAlu 1 b.one (formFn b.one) (effFn .tanh b.one)
/-- FCBRT (R225, R226). -/
def execFcbrt (x : Ext) (s : State) : Out := s.issueAlu x.words x (formFn x) (effFn .cbrt x)
/-- The base form of FCBRT (R48 02_encoding.md). -/
def execFcbrtBase (b : Base) (s : State) : Out :=
  s.issueAlu 1 b.one (formFn b.one) (effFn .cbrt b.one)
/-- RAND (R229). -/
def execRand (x : Ext) (s : State) : Out := s.issueAlu x.words x (formRand x) (effRand x)
/-- DROPM (R230). -/
def execDropm (x : Ext) (s : State) : Out := s.issueAlu x.words x (formDropm x) (effDropm x)
/-- HMIX (R228). -/
def execHmix (x : Ext) (s : State) : Out := s.issueAlu x.words x (formHmix x) (effHmix x)

end Machine
end Sys2Proof
end

