-- ==== Sys2Proof/Machine/Alloc.lean ====
section
/-! DEFINITION. Room on the cores and the places of blocks (R17 01_machine.md, R420 to R425 19_dispatch.md), and how a group starts
(R28 01_machine.md, R414 19_dispatch.md). -/

namespace Sys2Proof
namespace Machine

/-! ### Room on a core (R420, R421) -/

/-- What one partition holds: groups, register slices, accumulators. -/
structure PartLoad where
  groups : Nat
  slices : Nat
  accs : Nat
deriving DecidableEq, Repr

/-- What one core holds: its partitions, pool bytes, blocks (tile-table sets), blocks that use the array. -/
structure CoreLoad where
  parts : List PartLoad
  pool : Nat
  blocks : Nat
  arrays : Nat
deriving DecidableEq, Repr

def CoreLoad.empty : CoreLoad := { parts := List.replicate 12 ⟨0, 0, 0⟩, pool := 0, blocks := 0, arrays := 0 }

/-- Register slices and accumulators of a group (R17). -/
def Launch.slices (l : Launch) : Nat := l.nvec * l.m
def Launch.accNeed (l : Launch) : Nat := l.acc * l.m
/-- P: pool bytes of a block on each of its cores. -/
def Launch.poolShare (l : Launch) : Nat := (l.pool + 4095) / 4096 * 4096

def PartLoad.fits (p : PartLoad) (l : Launch) : Bool :=
  decide (p.groups + 1 ≤ 8) && decide (p.slices + l.slices ≤ 384) && decide (p.accs + l.accNeed ≤ 32)

/-- The partition for one more group: the fewest resident groups among those where it fits, the lower one on a tie (R421). -/
def CoreLoad.partition (c : CoreLoad) (l : Launch) : Option Nat :=
  (c.parts.zipIdx.foldl (fun (best : Option (Nat × Nat)) (p, i) =>
    if p.fits l then (match best with
      | some (n, _) => if p.groups < n then some (p.groups, i) else best
      | none => some (p.groups, i))
    else best) none).map fun b => b.2

def CoreLoad.addGroup (c : CoreLoad) (l : Launch) (p : Nat) : CoreLoad :=
  { c with parts := c.parts.modify p fun q => ⟨q.groups + 1, q.slices + l.slices, q.accs + l.accNeed⟩ }

/-- Partitions for `n` groups in group order. -/
def CoreLoad.assign (l : Launch) : Nat → CoreLoad → Option (List Nat × CoreLoad)
  | 0, c => some ([], c)
  | n + 1, c => match c.partition l with
    | none => none
    | some p => (CoreLoad.assign l n (c.addGroup l p)).map fun r => (p :: r.1, r.2)

/-- A share of `n` groups of a block on a core, with its pool share, tile tables and array. -/
def CoreLoad.place (c : CoreLoad) (l : Launch) (n : Nat) : Option (List Nat × CoreLoad) :=
  if c.pool + l.poolShare ≤ 192 * 1024 ∧ c.blocks + 1 ≤ 32 ∧ (l.mxu = true → c.arrays = 0) then
    (CoreLoad.assign l n c).map fun r => (r.1, { r.2 with
      pool := c.pool + l.poolShare, blocks := c.blocks + 1, arrays := c.arrays + if l.mxu then 1 else 0 })
  else none

/-- A group holds its slot: until its block retires, or, where it was spawned, until it finishes. -/
def Group.holdsSlot (g : Group) : Bool := g.resident && !(g.spawned && g.finished)

def Block.resident (b : Block) : Bool :=
  match b.phase with
  | .placed | .saving _ => true
  | _ => false

/-- What a core holds now. -/
def State.coreLoad (s : State) (core : Nat) : CoreLoad :=
  let c := s.groups.foldl (fun (c : CoreLoad) g =>
    if g.core = core ∧ g.holdsSlot = true then (match s.launch? g.launch with
      | some l => c.addGroup l g.partition
      | none => c)
    else c) CoreLoad.empty
  s.blocks.foldl (fun (c : CoreLoad) b =>
    if b.resident = true ∧ b.cores.contains core = true then (match s.launch? b.launch with
      | some l => { c with pool := c.pool + l.poolShare, blocks := c.blocks + 1, arrays := c.arrays + if l.mxu then 1 else 0 }
      | none => c)
    else c) c

/-- Loads that a placement in progress has changed lie over the current ones. -/
abbrev Loads := List (Nat × CoreLoad)
def State.loadIn (s : State) (loads : Loads) (core : Nat) : CoreLoad :=
  match loads.find? fun p => p.1 == core with
  | some p => p.2
  | none => s.coreLoad core

/-- A block of a weight-loading launch and a block of any other are never resident on one near die together (R372
16_matrix.md). -/
def State.weightOk (s : State) (l : Launch) (die : Nat) : Bool :=
  s.blocks.all fun b => !(b.resident && decide (b.launch ≠ l.id) && b.cores.any fun c => decide (dieOf c = die)) ||
    match s.launch? b.launch with
    | some o => !o.wl && !l.wl
    | none => true

/-! ### Eligible cores (R422, R25) -/

/-- Does the core lie in the window of the launch? -/
def Launch.inWindow (l : Launch) (core : Nat) : Bool :=
  l.ncore == 0 || (decide (l.firstc ≤ core) && decide (core < l.firstc + l.ncore))
/-- The near die of a block's die-unit; dies as they stood at enqueue. -/
def Launch.dieOfBlock (l : Launch) (block : Nat) : Nat := l.dies.getD (block / (l.prod 2 * l.prod 3) % l.dies.length) 0
/-- The cluster-unit of a block. -/
def Launch.clusterUnit (l : Launch) (block : Nat) : Nat := block / l.prod 2

/-- Is the die being taken offline? -/
def State.closing (s : State) (d : Nat) : Bool :=
  match s.offline with
  | some e => e.die == d
  | none => false

/-- Cores where a block may be placed, ascending. -/
def State.eligible (s : State) (l : Launch) (block : Nat) : List Nat :=
  s.cores.filter fun c => l.inWindow c && dieOf c == l.dieOfBlock block && !s.closing (dieOf c) &&
    match l.clusters.find? fun k => k.1 == l.clusterUnit block with
    | some k => clusterOf c == k.2
    | none => true

/-- In rotor order: after the rotor's core, wrapping. -/
def Launch.fromRotor (l : Launch) (cores : List Nat) : List Nat :=
  match l.rotor with
  | none => cores
  | some r => (cores.filter fun c => decide (r < c)) ++ cores.filter fun c => decide (c ≤ r)

/-! ### Placing a block (R421, R422) -/

/-- Groups of a block on its i-th of k cores. -/
def shareOf (groups k i : Nat) : Nat := groups / k + if i < groups % k then 1 else 0

/-- Where a block goes: cores ascending, each with the partitions of its groups in order. -/
abbrev Spot := List (Nat × List Nat)

/-- Try exactly these cores. -/
def State.tryCores (s : State) (l : Launch) (loads : Loads) (cores : List Nat) : Option (Spot × Loads) :=
  cores.zipIdx.foldl (fun acc (core, i) =>
    match acc with
    | none => none
    | some (spot, loads) => match (s.loadIn loads core).place l (shareOf l.groupsPerBlock cores.length i) with
      | some (ps, load) => if s.weightOk l (dieOf core) then some (spot ++ [(core, ps)], (core, load) :: loads) else none
      | none => none) (some ([], loads))

/-- Sub-lists of n elements, in lexicographic order. -/
def chooseN : Nat → List Nat → List (List Nat)
  | 0, _ => [[]]
  | _ + 1, [] => []
  | n + 1, a :: rest => (chooseN n rest).map (a :: ·) ++ chooseN (n + 1) rest

/-- Does a block fit on one empty core (R421)? -/
def Launch.oneCore (l : Launch) : Bool := (CoreLoad.empty.place l l.groupsPerBlock).isSome

/-- The sets of k eligible cores of c's cluster of which c is the lowest. -/
def coreSets (eligible : List Nat) (k c : Nat) : List (List Nat) :=
  (chooseN (k - 1) (eligible.filter fun o => decide (c < o) && clusterOf o == clusterOf c)).map (c :: ·)

/-- The first set of k cores, in rotor order of its lowest core, that holds the block. -/
def State.findSets (s : State) (l : Launch) (loads : Loads) (eligible : List Nat) (k : Nat) : Option (Spot × Loads) :=
  (l.fromRotor eligible).findSome? fun c => (coreSets eligible k c).findSome? fun cs => s.tryCores l loads cs

/-- The place of a block (R422); `only` fixes the number of cores at a restore (R426). -/
def State.findSpot (s : State) (l : Launch) (loads : Loads) (block : Nat) (only : Option Nat) : Option (Spot × Loads) :=
  let el := s.eligible l block
  match only with
  | some k => s.findSets l loads el k
  | none => if l.oneCore then s.findSets l loads el 1 else [2, 3, 4].findSome? fun k => s.findSets l loads el k

/-! ### How a group starts (R28, R326, R414) -/

/-- Uniform registers at the start: s0:s1 = ARGP where UREGS is at least 2. -/
def Launch.startUregs (l : Launch) : SMap Word :=
  if 2 ≤ l.uregs then
    SMap.set 0 (SMap.set 0 [] 0 (BitVec.ofNat 32 (l.argp % 2 ^ 32))) 1 (BitVec.ofNat 32 (l.argp / 2 ^ 32))
  else []

/-- A whole group as one sub-group. -/
def Launch.startSub (l : Launch) (pc : Nat) (mmk : BitVec 8) : SubGroup :=
  { num := 0, members := BitVec.ofNat 8 (2 ^ l.m - 1), mmk := mmk, uregs := l.startUregs, umarks := [], upending := [],
    fpcr := BitVec.ofNat 32 l.fpcr, lpr := 4, pc := BitVec.ofNat 64 pc, ndone := 0, window := [], cfrm := none, phase := .running,
    boundary := none, yielded := false, passed := false, monitor := none, barAt := none, observing := none, hist := [] }

/-- A group with these live lanes. -/
def Launch.startGroup (l : Launch) (id block index core partition pc : Nat) (mmk : BitVec 8) (live : SMap Word) : Group :=
  { id := id, launch := l.id, block := block, index := index, core := core, partition := partition, place := .slot, m := l.m,
    vregs := [], stale := [], vmarks := [], preds := [], exm := live, live := live, fpsr := [], trapFlags := [], accs := [],
    accMarks := [], accPending := [], trap := TrapRegs.zero, ld := 0, st := 0, cp := 0, mx := 0, horizon := 0, gepoch := 0,
    subs := [l.startSub pc mmk], deferred := [], uncovered := [], awr := none, reports := [], awrBad := false, spawned := false,
    frames := [], resv := none, frameBad := [], rank := 0, bound := (3, 0), exits := [], ccolls := [] }

/-- Every lane of members 0 to M - 1 (R28). -/
def Launch.allLanes (l : Launch) : SMap Word := SMap.build 0 (fun _ => 0xFFFFFFFF) 0 l.m
def Launch.allMembers (l : Launch) : BitVec 8 := BitVec.ofNat 8 (2 ^ l.m - 1)

/-! ### Save slots (R425) -/

/-- S_r. -/
def Launch.recordRoom (l : Launch) : Nat := (l.recordSize + 255) / 256 * 256
/-- NS. -/
def Launch.maxCores (l : Launch) : Nat := if l.oneCore then 1 else 4
/-- Offsets in a slot: the pool shares, the further tile tables, the array area, the end. -/
def Launch.poolAt (l : Launch) : Nat := 0x200 + l.groupsPerBlock * l.recordRoom
def Launch.tablesAt (l : Launch) : Nat := l.poolAt + l.maxCores * l.poolShare
def Launch.arrayAt (l : Launch) : Nat := l.tablesAt + 256 * (l.maxCores - 1)
/-- Bytes of the array area (R377 16_matrix.md). -/
def arrayArea : Nat := 852032
/-- BSZ. -/
def Launch.slotSize (l : Launch) : Nat := (l.arrayAt + (if l.mxu then arrayArea else 0) + 4095) / 4096 * 4096
/-- The virtual address of slot j, and of the record of group g in it. -/
def Launch.slotVa (l : Launch) (j : Nat) : Nat := l.saveAt + j * l.slotSize
def Launch.recordVa (l : Launch) (j g : Nat) : Nat := l.slotVa j + 0x200 + g * l.recordRoom

/-- How many blocks an empty set of cores holds, at most `n`. -/
def countFit (s : State) (l : Launch) (cores : List Nat) : Nat → Loads → Nat
  | 0, _ => 0
  | n + 1, loads =>
    let spot := if l.oneCore then cores.findSome? fun c => s.tryCores l loads [c]
      else [2, 3, 4].findSome? fun k => (chooseN k cores).findSome? fun cs => s.tryCores l loads cs
    match spot with
    | some (_, loads) => 1 + countFit s l cores n loads
    | none => 0

/-- Cores of the window in service on the dies of the launch's die-units. -/
def State.windowCores (s : State) (l : Launch) : List Nat :=
  let used := (List.range (min (l.prod 4) l.dies.length)).map fun i => l.dies.getD i 0
  s.cores.filter fun c => l.inWindow c && used.contains (dieOf c)

/-- NRES: the smaller of the blocks of the launch and those that its cores hold empty; blocks that span cores are counted over the
eligible cores of each cluster together (log 28). -/
def State.nres (s : State) (l : Launch) : Nat :=
  let cores := s.windowCores l
  let fresh : State := { s with groups := [], blocks := [] }
  let units := if l.oneCore then cores.map fun c => [c]
    else ((List.range 40).map fun k => cores.filter fun c => clusterOf c == k).filter fun cs => !cs.isEmpty
  min l.nblocks (units.foldl (fun n cs => n + countFit fresh l cs 128 (cs.map fun c => (c, CoreLoad.empty))) 0)

/-- The lowest free slot of a launch. -/
def State.freeSlot (s : State) (l : Launch) : Nat :=
  let used := (s.blocks.filter fun b => b.launch == l.id && match b.phase with
    | .retired | .released => false
    | _ => true).map fun b => b.slot
  ((List.range (used.length + 1)).find? fun j => !used.contains j).getD 0

end Machine
end Sys2Proof
end

