-- ==== Sys2Proof/Machine/Save.lean ====
section
/-! DEFINITION. Saving and restoring one group (R138, R140 04_sequencer.md, R246 10_loadstore.md, R336 14_spawn.md, R465
19_dispatch.md): the location of its record, the writes, the trap of a group that holds an error, the restore. -/

namespace Sys2Proof
namespace Machine

/-- The virtual address of a group's save record: its block's slot, or its continuation reservation (R330, R336, R425). -/
def State.recordPlace (s : State) (l : Launch) (g : Group) : Nat :=
  if g.spawned then l.blockAddr (g.resv.getD 0)
  else l.recordVa (match s.block? g.launch g.block with | some b => b.slot | none => 0) g.index

/-- The launch ends with a status once its groups have stopped (R432, R465, R416). -/
def State.endLaunch (s : State) (launch status : Nat) : State :=
  s.modLaunch launch fun l => match l.phase with
    | .complete => l
    | _ => { l with phase := .ending status }

/-- Write bytes of a save area page by page, as the dispatcher reaches each; a page that cannot be written ends the launch with
status 5 (R465). -/
def State.saveBytes (s : State) (l : Launch) (die : Nat) (owners : List Nat) (va : Nat) : Nat → List Byte → State
  | 0, _ => s
  | _, [] => s
  | fuel + 1, b :: bs =>
    let k := min (bs.length + 1) (65536 - va % 65536)
    match s.engineAddrs l va k false true with
    | .error _ => s.endLaunch l.id 5
    | .ok addrs =>
      (s.writeHome die owners (addrs.zip ((b :: bs).take k))).saveBytes l die owners (va + k) fuel ((b :: bs).drop k)

/-- Read bytes of a save area or a table, page by page; none where a byte cannot be read, its line poisoned or failing (R37, R39;
log 58). -/
def State.loadBytes (s : State) (l : Launch) (va : Nat) : Nat → Nat → Option (List Byte)
  | 0, _ => some []
  | _, 0 => some []
  | fuel + 1, n =>
    let k := min n (65536 - va % 65536)
    match s.engineAddrs l va k true false with
    | .error _ => none
    | .ok addrs => match s.markOfBytes addrs with
      | some _ => none
      | none => (s.loadBytes l (va + k) fuel (n - k)).map fun rest => addrs.map s.byteAt ++ rest
/-- Such a read finds its failing lines failing (R39, R461). -/
def State.consumeBytes (s : State) (l : Launch) (va : Nat) : Nat → Nat → State
  | 0, _ => s
  | _, 0 => s
  | fuel + 1, n =>
    let k := min n (65536 - va % 65536)
    (s.engineConsume l va k).consumeBytes l (va + k) fuel (n - k)

/-! ### Reaching the boundary (R140) -/

/-- The sub-group stands at a run boundary, or has trapped. -/
def SubGroup.atBoundary (u : SubGroup) : Bool :=
  match u.phase with
  | .running => u.ndone == 0 && !u.passed
  | .bar _ | .sleep _ | .mwait _ _ | .await _ _ _ | .heldJoin | .heldRepack _ | .finished | .trapped | .stopped => true
  | _ => false

def Group.drained (g : Group) : Bool := g.ld == 0 && g.st == 0 && g.cp == 0 && g.mx == 0

/-- The waits that a save ends (R129, R272, R384). -/
def SubGroup.endWaits (u : SubGroup) : SubGroup :=
  match u.phase with
  | .mwait _ dest => u.endMwait dest 2
  | .sleep _ | .heldJoin | .heldRepack _ => { u with phase := .running, passed := false }
  | .running => { u with passed := false }
  | _ => u

/-! ### Errors that a group still holds (R246, R274) -/

/-- The live threads of some members. -/
def Group.livesOf (g : Group) (members : Nat → Bool) : List Nat :=
  (List.range (32 * g.m)).filter fun t => members (t / 32) && (g.liveOf (t / 32)).getLsbD (t % 32)

/-- What a group holds marked: for each unit the sub-group that holds it, the mark, and the threads that hold the unit: one of a vector
register, the live ones of an accumulator's member or of a uniform register's sub-group (log 63). -/
def Group.holdings (g : Group) : List (Nat × Mark × List Nat) :=
  let sub := fun (m : Nat) => match g.holder m with | some u => u.num | none => 0
  (g.vmarks.map fun k => (sub (k.1 % 256 / 32), k.2, [k.1 % 256])) ++
  (g.accMarks.map fun k => (sub (k.1 / 4), k.2, g.livesOf fun m => m == k.1 / 4)) ++
  g.subs.flatMap fun u => u.umarks.map fun k => (u.num, k.2, g.livesOf fun m => u.members.getLsbD m)

/-- Has a sub-group trapped? -/
def Group.trapped (g : Group) : Bool := g.subs.any fun u => decide (u.phase = .trapped)

/-- Is the group's trap the fault of a mark (R245)? -/
def Group.tells (g : Group) (m : Mark) : Bool :=
  g.trapped && decide (g.trap.info.toNat % 2 ^ 16 = m.cause + m.detail * 2 ^ 8) && decide (g.trap.addr.toNat = m.addr)

/-- The fault that a group brings to a save, with the sub-group that reports it: of a deferred error, else of its marked units, the one
of the lowest thread, for every thread that holds one. A mark that its trap tells already is not raised again (log 63). -/
def Group.saveFault (g : Group) : Option (Nat × TrapReq) :=
  match g.deferred.find? fun d => d.ready with
  | some d => some (0, { cause := d.cause, detail := d.detail, addr := d.addr })
  | none =>
    let held := g.holdings
    match sortBy (fun (a b : Nat × Mark × List Nat) => decide (a.2.2.headD 256 ≤ b.2.2.headD 256)) (held.filter fun h => !g.tells h.2.1) with
    | (n, m, _) :: _ => some (n, { cause := m.cause, detail := m.detail, addr := m.addr,
                                   msk := (List.range (32 * g.m)).filter fun t => held.any fun h => h.2.2.contains t })
    | [] => none

/-- Marked units become zero (R245, R246). -/
def Group.dropMarks (g : Group) : Group :=
  { g with
    vregs := g.vmarks.foldl (fun v k => v.set [] (k.1 / 256) (SMap.set 0 (SMap.get [] v (k.1 / 256)) (k.1 % 256) 0)) g.vregs
    vmarks := []
    accs := g.accMarks.foldl (fun a k => a.erase k.1) g.accs
    accMarks := []
    deferred := []
    subs := g.subs.map fun u => { u with uregs := u.umarks.foldl (fun r k => r.erase k.1) u.uregs, umarks := [] } }

/-- A group that brings an error to a save traps at that boundary: RUNPOS 24, RESUME 0, the next run's address. -/
def State.saveTrap (s : State) (g : Group) (n : Nat) (t : TrapReq) : State :=
  let pc := match g.sub? n with | some u => u.pc | none => 0
  (s.modGroup g.id fun g => g.dropMarks).takeTrap g { grp := g.id, sub := n } t pc trailerPos false

/-! ### Writing and reading back a group (R140) -/

/-- REASON of a save. -/
def State.reason (s : State) (g : Group) : Nat :=
  if g.trapped then 1
  else match s.launch? g.launch with
    | some l => (match l.phase with
      | .stopping | .ending _ => 2
      | _ => 0)
    | none => 0

/-- Write the record of a group whose waits have ended. -/
def State.writeRecord (s : State) (l : Launch) (g : Group) (reason : Nat) : State :=
  s.saveBytes l (dieOf g.core) [g.id] (s.recordPlace l g) 8 (g.record l reason)

/-- Steps 4 to 6 of R140: flush, record, release; monitors are disarmed (R270). With `write` false the state is discarded
(R433, R465). -/
def State.saveGroup (s : State) (l : Launch) (g : Group) (place : Place) (write : Bool) : State :=
  let g' : Group := { g with subs := g.subs.map SubGroup.endWaits }
  let s := if g.resident then s.flush g.core else s
  let reason := s.reason g
  let s := if write then s.writeRecord l g' reason else s
  { s with
    ops := s.ops.filter fun o => !(o.grp == g.id && match o.kind with | .monitor _ _ => true | _ => false)
    groups := s.groups.map fun k => if k.id ≠ g.id then k else
      { g' with
        place := place
        reason := reason
        horizon := k.horizon
        subs := g'.subs.map fun u => { u with monitor := u.monitor.map fun m => { m with addr := none, pending := false } } } }

/-- A record, or the slot that it stands in, breaks its layout (R425): the launch stops with cause 0x01, DETAIL 13, for the group `g`, whose
trap registers and record say so (log 61). -/
def State.recordBroken (s : State) (l : Launch) (g : Group) : State :=
  let pc := match g.sub? 0 with | some u => u.pc | none => 0
  let g' : Group := { g with trap := trapRegs { cause := 0x01, detail := 13 } 0 0 false pc, reason := 1 }
  let b := g'.record l 1
  let va := s.recordPlace l g
  let s := s.saveBytes l (dieOf g.core) [g.id] (va + 4) 2 ((b.drop 4).take 4)
  let s := s.saveBytes l (dieOf g.core) [g.id] (va + 0x10) 2 ((b.drop 0x10).take 56)
  (s.modGroup g.id fun k => { k with trap := g'.trap, reason := 1 }).stopLaunch l.id 0x01 (if g.spawned then 0 else g.block) g.index

/-- What a restore comes to: the state, a record that breaks its layout, or one that cannot be read. -/
inductive Restored where
  | ok (s : State)
  | broken
  | unreadable
deriving DecidableEq, Repr

/-- Restore a group from its record into a slot (R140): an incoming edge. -/
def State.restoreGroup (s : State) (l : Launch) (g : Group) (core partition : Nat) : Restored :=
  match s.loadBytes l (s.recordPlace l g) 8 l.recordSize with
  | none => .unreadable
  | some bytes =>
    let a := bytes.toArray
    let b : Bytes := fun i => a.getD i 0
    if g.recordOk l b false then
      .ok ((s.modGroup g.id fun g => { g.ofRecord l b s.time with place := .slot, core := core, partition := partition }).incoming g.id core)
    else .broken

end Machine
end Sys2Proof
end

