-- ==== Sys2Proof/Machine/Enqueue.lean ====
section
/-! DEFINITION. Enqueuing a launch record (R412, R413 19_dispatch.md), and when a queue contends (R417). -/

namespace Sys2Proof
namespace Machine

/-! ### The levels (R22, R23) and the record's format (R412) -/

/-- A record as the dispatcher would hold it, before it has a number. -/
def Launch.ofRecord (id : Nat) (record : List Byte) : Launch :=
  { id := id, queue := leAt record 8 4 / 2 ^ 16 % 64, record := record, code := [], codeAst := 0, priv := false, cpnd := [], teams := [],
    dies := [], phase := .waiting, rotor := none, clusters := [], nextBlock := 0, preempt := false, whole := false, restarts := 0,
    firstPlaced := none, counts := [], signal := none, trapCause := 0, trapBlock := 0, trapGroup := 0, remoteErrors := 0,
    remoteCode := 0, frames := [] }

/-- Code 1: the format, reserved fields, ranges. `block` is the queue of the queue block it came through. -/
def Launch.badFormat (l : Launch) (block : Option Nat) : Bool :=
  let w := l.word
  let level := fun i => w (0x10 + 4 * i)
  decide (w 0xC / 2 ^ 24 ≠ 1) || decide (w 0xC / 2 ^ 20 % 16 ≠ 0) || decide (w 8 / 2 ^ 22 ≠ 0) ||
  decide (l.entry % 64 ≠ 0) || decide (2 ^ 57 ≤ l.entry) ||
  decide (l.tickets = 0) || decide (4096 < l.tickets) || l.cls == 3 ||
  decide (l.nlev = 0) || decide (8 < l.nlev) || decide (l.m = 0) || decide (8 < l.m) || decide (l.vregs = 0) ||
  decide (240 < l.vregs) || decide (160 < l.uregs) || decide (4 < l.acc) || decide (w 0x30 / 2 ^ 27 ≠ 0) ||
  ((List.range 8).any fun i => if i < l.nlev then decide (4 < level i / 2 ^ 24 % 8) || decide (level i / 2 ^ 27 ≠ 0)
    else decide (level i ≠ 0)) ||
  decide (196608 < l.pool) || decide (w 0x38 / 2 ^ 10 % 2 ^ 6 ≠ 0) || decide (4 < l.fpcr / 2 ^ 5 % 8) ||
  decide (159 < l.firstc) || (decide (l.ncore ≠ 0) && decide (160 < l.firstc + l.ncore)) || decide (w 0x3C / 2 ^ 16 ≠ 0) ||
  decide (w 0x68 / 2 ^ 8 ≠ 0) || decide (w 0x6C ≠ 0) || (l.record.drop 0x90).any (fun b => b != 0) ||
  (match block with
    | some q => decide (l.queue ≠ q)
    | none => false)

/-- Code 2: R22 and R23. -/
def Launch.badLevels (l : Launch) : Bool :=
  let dom := fun i => (l.domain i).getD 0
  ((List.range (l.nlev - 1)).any fun i => decide (dom (i + 1) < dom i)) ||
  decide (l.prod 0 ≠ 32) || decide (6144 < 32 * l.m * l.groupsPerBlock) || decide (2 ^ 32 < l.nblocks)

/-! ### Fitting (codes 3, 4, 11) -/

/-- Dies to which R25 assigns a die-unit. -/
def Launch.usedDies (l : Launch) : List Nat := (List.range (min (l.prod 4) l.dies.length)).map fun i => l.dies.getD i 0

/-- The machine with nothing on its cores. -/
def State.vacant (s : State) : State := { s with groups := [], blocks := [] }

/-- A set of cores can hold one block when empty. -/
def State.canHold (s : State) (l : Launch) (cores : List Nat) : Bool :=
  if l.oneCore then !cores.isEmpty
  else (List.range 40).any fun k => decide (countFit s.vacant l (cores.filter fun c => clusterOf c == k) 1 [] = 1)

def State.badDie (s : State) (l : Launch) : Bool :=
  l.usedDies.any fun d =>
    let cores := s.cores.filter fun c => l.inWindow c && dieOf c == d
    !cores.isEmpty && !s.canHold l cores

/-- Place `n` blocks from index `k` on, one after another; the rotor and the clusters move with them (R422). -/
def State.placeMany (s : State) : Nat → Launch → Loads → Nat → Option (List Spot × Launch)
  | 0, l, _, _ => some ([], l)
  | n + 1, l, loads, k => match s.findSpot l loads k none with
    | none => none
    | some (spot, loads) =>
      let first := (spot.map fun p => p.1).headD 0
      (s.placeMany n { l with rotor := some first, clusters := l.clusters.put (l.clusterUnit k) (clusterOf first) } loads (k + 1)).map
        fun r => (spot :: r.1, r.2)

/-- Code 4: a CONC launch whose blocks do not fit together; more than 32 on each core never do. -/
def State.badConc (s : State) (l : Launch) : Bool :=
  l.conc && (decide (160 * 32 < l.nblocks) || (s.vacant.placeMany l.nblocks l [] 0).isNone)

/-- Code 11. -/
def State.badWindow (s : State) (l : Launch) : Bool :=
  (s.cores.filter l.inWindow).isEmpty || l.usedDies.isEmpty ||
  l.usedDies.any fun d => (s.cores.filter fun c => l.inWindow c && dieOf c == d).isEmpty

/-! ### Mapped bytes (codes 8, 9, 12) -/

/-- Every page from `va` over `n` bytes allows the access. -/
def State.mapped? (s : State) (l : Launch) (rd wr : Bool) : Nat → Nat → Nat → Bool
  | 0, _, _ => true
  | fuel + 1, va, n =>
    if n = 0 then true
    else
      let k := min n (65536 - va % 65536)
      (match s.engineAddrs l va k rd wr with
        | .ok _ => true
        | .error _ => false) && s.mapped? l rd wr fuel (va + k) (n - k)
def State.mappedFor (s : State) (l : Launch) (rd wr : Bool) (va n : Nat) : Bool := s.mapped? l rd wr (pagesOf n) va n

/-- Code 8. -/
def State.badSave (s : State) (l : Launch) : Bool :=
  let need := s.nres l * l.slotSize
  decide (l.saveSize < need) || decide (l.saveAt % 4096 ≠ 0) || !s.mappedFor l true true l.saveAt need
/-- Code 9. -/
def State.badFrames (s : State) (l : Launch) : Bool :=
  decide (l.frameBase % 4096 ≠ 0) || decide (l.frameSize % 4096 ≠ 0) || !s.mappedFor l true true l.frameBase l.frameSize
/-- Code 12. -/
def State.badTables (s : State) (l : Launch) : Bool :=
  (decide (l.cpndAt ≠ 0) && (decide (l.cpndAt % 64 ≠ 0) || (s.loadBytes l l.cpndAt 2 64).isNone)) ||
  (decide (l.teamAt ≠ 0) && decide (l.teamAt % 128 ≠ 0)) || (decide (l.teamAt = 0) && decide (l.nteam ≠ 0)) ||
  (decide (l.teamAt ≠ 0) && (s.loadBytes l l.teamAt (pagesOf (128 * l.nteam)) (128 * l.nteam)).isNone) ||
  (decide (l.complAt ≠ 0) && (decide (l.complAt % 256 ≠ 0) || !s.mappedFor l false true l.complAt 256)) ||
  (decide (l.csigAt ≠ 0) && (decide (l.csigAt % 4 ≠ 0) || !s.mappedFor l false true l.csigAt 4))

/-- Bytes of a table of the launch. -/
def State.tableBytes (s : State) (l : Launch) (va n : Nat) : List Byte := (s.loadBytes l va (pagesOf n) n).getD []

/-- Code 6: a compander word that is an infinity or a NaN. -/
def badCpnd (b : List Byte) : Bool :=
  (List.range 16).any fun k => leAt b (4 * k) 4 / 2 ^ 23 % 256 == 255 || leAt b (4 * k) 4 / 2 ^ 7 % 256 == 255
/-- Code 10 (R401). A nonzero reserved field of an entry is a format error too (R6; log 59). -/
def badTeams (l : Launch) (b : List Byte) : Bool :=
  (List.range l.nteam).any fun i =>
    let nch := leAt b (128 * i) 2
    decide (nch = 0) || decide (32 < nch) || decide (nch ≤ leAt b (128 * i + 2) 2) ||
      decide (leAt b (128 * i + 4) 60 ≠ 0) || (List.range 32).any fun k => decide (2 ^ 12 ≤ leAt b (128 * i + 64 + 2 * k) 2)

/-! ### Acceptance (R413, R415) -/

/-- Launches that a queue holds. -/
def State.queue (s : State) (q : Nat) : Queue :=
  s.queues.get { pass := 0, contending := false, launches := [], qrec := [], qstat := 0, qmsi := 0 } q
def State.modQueue (s : State) (q : Nat) (f : Queue → Queue) : State := { s with queues := s.queues.put q (f (s.queue q)) }

/-- May the launch still go on: is it not at its end? -/
def Launch.goesOn (l : Launch) : Bool :=
  match l.phase with
  | .active | .stopping | .trapped | .restarting | .reporting 1 _ => true
  | _ => false

/-- Does the active launch of a queue have a block that has never been placed (R417)? A launch that is pre-empted on request, or stopped for
a trap, stays the active one (R427, R439). -/
def State.contends (s : State) (q : Queue) : Bool :=
  match q.launches with
  | id :: _ => match s.launch? id with
    | some l => l.goesOn && decide (l.nextBlock < l.nblocks)
    | none => false
  | [] => false

/-- A queue that begins to contend takes PASS = max(PASS, GVT). -/
def State.updateContention (s : State) : State :=
  { s with queues := s.queues.map fun (k, q) =>
      let now := s.contends q
      (k, { q with contending := now, pass := if now && !q.contending then max q.pass s.gvt else q.pass }) }

/-- The rejection code of a record, or none; `caller` is the launch whose LAUNCH enqueues it. -/
def State.rejects (s : State) (l : Launch) (block : Option Nat) (caller : Option Launch) : Option Nat :=
  let cp := if l.cpndAt = 0 then [] else s.tableBytes l l.cpndAt 64
  let tm := if l.teamAt = 0 then [] else s.tableBytes l l.teamAt (128 * l.nteam)
  if l.badFormat block then some 1
  else if l.badLevels then some 2
  else if s.badDie l then some 3
  else if s.badConc l then some 4
  else if !s.asidOk l.asid || (match caller with | some c => !c.priv && c.asid != l.asid | none => false) ||
      (l.urg && !s.asidPriv l.asid) then some 5
  else if s.badTables l then some 12
  else if badCpnd cp then some 6
  else if 256 ≤ (s.queue l.queue).launches.length then some 7
  else if s.badSave l then some 8
  else if s.badFrames l then some 9
  else if badTeams l tm then some 10
  else if s.badWindow l then some 11
  else none

/-- Enqueue a record: its status word, and the machine that holds it where it is accepted. A launch enqueued behind no other is
active at once. -/
def State.enqueue (s : State) (record : List Byte) (block : Option Nat) (caller : Option Launch) (signal : Option (Nat × Nat)) :
    Nat × State :=
  let dies := (List.range 4).filter fun d => s.dieCode d == 0 && !s.closing d
  let l := { Launch.ofRecord s.nextId record with dies := dies, signal := signal }
  let l := { l with priv := s.asidPriv l.asid }
  match s.rejects l block caller with
  | some code => (code, s)
  | none =>
    let cp := if l.cpndAt = 0 then [] else s.tableBytes l l.cpndAt 64
    let tm := if l.teamAt = 0 then [] else s.tableBytes l l.teamAt (128 * l.nteam)
    let q := s.queue l.queue
    let l : Launch := { l with
      code := s.mem
      after := s.hostHorizon
      codeAst := s.astbase
      cpnd := SMap.build 0 (fun k => BitVec.ofNat 32 (leAt cp (4 * k) 4)) 0 16
      teams := tm
      phase := if q.launches.isEmpty then .active else .waiting }
    (0, ({ s with nextId := s.nextId + 1, launches := s.launches ++ [l] }.modQueue l.queue fun q =>
      { q with launches := q.launches ++ [l.id] }).updateContention)

end Machine
end Sys2Proof
end

