-- ==== Sys2Proof/Machine/Spawn.lean ====
section
/-! DEFINITION. Wellspring spawn engine (R319 to R337 14_spawn.md): frames and await records, SPAWN and its bins, the placing of child
groups and continuations, completion of children and the waits for them, LAUNCH. -/

namespace Sys2Proof
namespace Machine

/-! ### Encoding (R322) -/

def spNa (x : Ext) : Nat := x.subBits 3 0
def spDom (x : Ext) : Nat := x.subBits 5 4
def spSel (x : Ext) : Nat := x.subBits 3 0
def chQ (x : Ext) : Nat := x.subBits 1 0

/-- A 32-bit vector, window, uniform or inline constant code. -/
def laneSrc : Kinds := ⟨true, true, true, true, false, false⟩

def formSpawn (x : Ext) : Form :=
  { srcs := [{ slot := .A, wide := true, kinds := baseSrc, mods := false }] ++
      (if spDom x = 3 then [{ slot := .C, wide := false, kinds := laneSrc, mods := false }] else []),
    own1 := 0x3F ||| slotMask1 .B ||| slotMask1 .C, negRow := 3,
    own := failIf (decide (12 < spNa x)) 4 ++ failIf (decide (spNa x ≠ 0) && decide (240 < x.b.toNat + spNa x)) 8 ++
      failIf (spNa x == 0 && x.b != 0) 8 ++ failIf (spDom x != 3 && x.c != 0) 8 }
def formAwait : Form := { negRow := 3 }
def formAwaitn : Form := { srcs := [{ slot := .A, wide := false, kinds := uniConst, mods := false }], negRow := 3 }
def formFrmrd (x : Ext) : Form :=
  { dest := .reg (spSel x == 13) true false true, own1 := 0xF, negRow := 3, own := failIf (spSel x == 15) 4 }
def formFrmwr (x : Ext) : Form :=
  { srcs := [{ slot := .A, wide := false, kinds := laneSrc, mods := false }], own1 := 0xF, negRow := 3,
    own := failIf (decide (11 < spSel x)) 4 }
def formChcnt (x : Ext) : Form :=
  { dest := .reg false true (chQ x == 2) true, own1 := 3, guard := isVec x.d, negRow := 3, own := failIf (chQ x == 3) 4 }
def formLaunch (x : Ext) : Form :=
  { dest := .reg false false true true, guard := false, negRow := 3,
    srcs := [{ slot := .A, wide := true, kinds := ⟨false, true, false, false, false, false⟩, mods := false },
             { slot := .B, wide := true, kinds := uniConst, mods := false }],
    own := failIf (match operandOf x.b with | .const k => decide (k ≠ 0) | _ => false) 8 }

/-- Issue on port M without a counter: it waits for an outstanding OBSERVE (R269). `more` are register operands that the form does
not name; `who` are the threads that read them. -/
def State.issueMem (s : State) (words : Nat) (x : Ext) (f : Form) (more : List RegUse) (dyn : Cx → List Nat)
    (eff : Cx → State → Res) (who : Cx → List Nat := fun c => c.threads x.p) : Out :=
  s.issue words (fun c => formFails x f ++ dynFails c x f ++ dyn c)
    (fun c => c.markFault (formUses x f ++ more) (who c) (f.dest.isUni x.d || !f.guard))
    (fun c s => if c.uniHeld (holdUses x f ++ more) || c.awaitHeld (formUses x f ++ more) || c.u.observing.isSome then .hold else eff c s)

/-- Write some threads' results without a window entry (R322). -/
def Cx.writeQuiet (c : Cx) (s : State) (code : BitVec 9) (wide : Bool) (f : Nat → Dword) (p : BitVec 4) : State :=
  match operandOf code with
  | .vreg n => s.modGroup c.r.grp fun g => g.putRegs c.r.sub n wide fun t => if c.active p t then some (f t) else none
  | .ureg n => s.modSub c.r fun u => u.putUregs n wide (f 0)
  | _ => s

/-! ### Await records and frames (R321) -/

def State.setCount (s : State) (l : Launch) (die : Nat) (awr t off v : Nat) : State :=
  s.engineWrite l die [] (l.blockAddr awr + off + 2 * t) (leBytes 2 v)

/-- A word of a spawn frame. -/
def State.frameWord (s : State) (l : Launch) (k off n : Nat) : Nat := (s.engineRead l (l.blockAddr k + off) n).getD 0

/-- C, the blocks of a continuation reservation. -/
def Launch.contBlocks (l : Launch) : Nat := (l.recordSize + 63) / 64

/-! ### SPAWN (R323, R324) -/

/-- Cores of a bound domain in service. -/
def State.boundCores (s : State) (b : Nat × Nat) : List Nat :=
  s.cores.filter fun c => match b.1 with
    | 0 => c == b.2
    | 1 => clusterOf c == b.2
    | _ => dieOf c == b.2

/-- The bound domain and the bin store of a child with target `d` (R324). -/
def State.spawnTarget (s : State) (core dom d : Nat) : (Nat × Nat) × Nat :=
  match dom with
  | 0 => ((0, core), core)
  | 1 => ((1, clusterOf core), core)
  | 2 => ((2, dieOf core), core)
  | _ =>
    let same := 40 * d + core % 40
    ((2, d), if s.cores.contains same then same else ((s.cores.find? fun k => dieOf k == d).getD same))

/-- A child that a thread asks for; `target` is the near die of .dev. -/
structure Child where
  thread : Nat
  entry : Nat
  target : Nat
deriving DecidableEq, Repr

/-- The slots of an instance: for each lane, ascending, one for each distinct entry and target, ascending, with its children. -/
def spawnSlots (cs : List Child) : List (List Child) :=
  (List.range 32).flatMap fun lane =>
    let own := cs.filter fun c => c.thread % 32 == lane
    let keys := own.foldl (fun ks c => if ks.contains (c.entry, c.target) then ks else ks ++ [(c.entry, c.target)]) []
    (sortBy (fun a b => decide (a.1 < b.1) || (decide (a.1 = b.1) && decide (a.2 ≤ b.2))) keys).map fun k =>
      own.filter fun c => (c.entry, c.target) == k

/-! ### Bins (R325) -/

def Bin.key (b : Bin) : Option (Nat × Nat × BitVec 8 × (Nat × Nat)) :=
  b.slots.head?.map fun x => (x.launch, x.entry, x.k, x.bound)
def SpawnSlot.key (x : SpawnSlot) : Nat × Nat × BitVec 8 × (Nat × Nat) := (x.launch, x.entry, x.k, x.bound)

/-- What a slot meets at its bin store. -/
inductive Landing where
  /-- It joins the collecting bin of its key. -/
  | joins (bin : Nat)
  /-- It takes an empty bin. -/
  | opens
  /-- The collecting bin whose first slot is oldest launches, and the slot waits for it. -/
  | forces (bin : Nat)
  /-- Every bin is launching. -/
  | waits
deriving DecidableEq, Repr

def landing (bins : List Bin) (x : SpawnSlot) : Landing :=
  let own := bins.filter fun b => b.core == x.core
  match own.find? fun b => !b.launching && b.key == some x.key with
  | some b => .joins b.id
  | none =>
    if own.length < 32 then .opens
    else match own.filter fun b => !b.launching with
      | [] => .waits
      | b :: bs => .forces (bs.foldl (fun o b => if b.since < o.since then b else o) b).id

/-- A collecting bin with 32 slots launches. -/
def Bin.join (b : Bin) (x : SpawnSlot) : Bin :=
  { b with slots := b.slots ++ [x], launching := b.launching || decide (32 ≤ b.slots.length + 1) }

/-- Land a slot in the bins, counting only what becomes of them; `fresh` names a bin it opens. Whether it opens a bin, a stall for
an empty one counting as opening it, so that later slots of its key join what it will open. -/
def landIn (bins : List Bin) (x : SpawnSlot) (fresh time : Nat) : List Bin × Bool :=
  let opened : Bin := { id := fresh, core := x.core, slots := [x], since := time, launching := false, resv := none, formed := none }
  match landing bins x with
  | .joins k => (bins.map fun b => if b.id = k then b.join x else b, false)
  | .opens => (bins ++ [opened], true)
  | .forces k => ((bins.map fun b => if b.id = k then { b with launching := true } else b) ++ [opened], true)
  | .waits => (bins ++ [opened], true)

/-- Whether each of some slots would open a bin, after every slot that is already on its way. -/
def State.wouldOpen (s : State) (slots : List SpawnSlot) : List Bool :=
  let ahead := s.slots.foldl (fun bins x => (landIn bins x x.id s.time).1) s.bins
  (slots.foldl (fun (acc : List Bin × List Bool) x =>
    let r := landIn acc.1 x x.id s.time
    (r.1, acc.2 ++ [r.2])) (ahead, [])).2

/-- The 64 bytes of a spawn frame (R321). -/
def frameBytes (entry awr thread dom depth : Nat) (args : List Word) : List Byte :=
  leBytes 8 entry ++ leBytes 4 (awr + thread * 2 ^ 24) ++ leBytes 4 (thread / 32 + dom * 2 ^ 3 + min depth 65535 * 2 ^ 5) ++
  (List.range 12).flatMap fun k => leBytes 4 (args.getD k 0).toNat

/-- The depth of a thread (R331). -/
def State.depth (s : State) (l : Launch) (g : Group) (t : Nat) : Nat :=
  match g.frames.find? fun k => k.1 == t with
  | some k => s.frameWord l k.2 0xC 4 / 2 ^ 5 % 2 ^ 16
  | none => 0

/-- Allocate several runs, in order; none where one cannot be made (R319, R323). -/
def Launch.allocAll (l : Launch) (grp : Nat) : List (Nat × Nat) → Option (List Nat × Launch)
  | [] => some ([], l)
  | (n, use) :: rest => match l.alloc n grp use with
    | none => none
    | some (k, l) => (l.allocAll grp rest).map fun r => (k :: r.1, r.2)

/-- The children that an instance asks for (R323, R324). -/
def Cx.children (c : Cx) (x : Ext) : List Child :=
  (c.threads x.p).map fun t =>
    { thread := t, entry := (c.plain x .A true .int t).toNat,
      target := if spDom x = 3 then c.l.dies.getD ((c.plain x .C false .int t).toNat % c.l.dies.length) 0 else 0 }

/-- A child's entry address is misaligned or passes the address space (R323). -/
def Child.bad (k : Child) : Bool := decide (k.entry % 64 ≠ 0) || decide (2 ^ 57 ≤ k.entry)

/-- The slots of an instance, named from the next fresh name on, without frames and release. -/
def State.slotsOf (s : State) (c : Cx) (x : Ext) : List SpawnSlot :=
  (spawnSlots (c.children x)).zipIdx.map fun (ks, i) =>
    let k0 := ks.headD ⟨0, 0, 0⟩
    let (bound, core) := s.spawnTarget c.g.core (spDom x) k0.target
    { id := s.nextId + i, batch := s.nextId, launch := c.l.id, core := core, entry := k0.entry,
      k := BitVec.ofNat 8 (ofBits (ks.map fun k => k.thread / 32)), bound := bound, frames := [], edge := 0, resv := none, waits := none }

/-- The runs of the frame area that an instance takes: an await record where its group has none, a frame for each child, a reservation
for each bin that it opens. -/
def Cx.spawnNeed (c : Cx) (x : Ext) (opens : List Bool) : List (Nat × Nat) :=
  (if c.g.awr.isNone then [(16, 1)] else []) ++ ((c.children x).map fun _ => (1, 0)) ++
    (opens.filter id).map fun _ => (c.l.contBlocks, 2)

/-- The arguments that the frame of a thread's child holds. -/
def Cx.spawnArgs (c : Cx) (x : Ext) (t : Nat) : List Word := (List.range (spNa x)).map fun i => (c.vread (x.b.toNat + i) t).1

/-- The words of its await record and of its own frames that SPAWN reads, by thread. -/
def Cx.spawnReads (c : Cx) (ts : List Nat) : List (Nat × Nat) :=
  ts.flatMap fun t =>
    (match c.g.awr with
      | some k => [(t, c.l.blockAddr k + 2 * t)]
      | none => []) ++
    match c.g.frames.find? fun k => k.1 == t with
      | some k => [(t, c.l.blockAddr k.2 + 0xC)]
      | none => []

/-- SPAWN (R323). -/
def effSpawn (x : Ext) (c : Cx) (s : State) : Res :=
  let cs := c.children x
  match cs, cs.filter Child.bad with
  | [], _ => .done s
  | _, b :: _ => .fault { cause := 0x12, detail := 1, msk := c.threads x.p, thread := b.thread }
  | _, [] =>
    let groups := spawnSlots cs
    let slots := s.slotsOf c x
    let opens := s.wouldOpen slots
    let s := s.reap c.l.id
    let l := (s.launch? c.l.id).getD c.l
    match l.allocAll c.g.id (c.spawnNeed x opens) with
    | none => .fault { cause := 0x08, msk := c.threads x.p }
    | some (runs, l) =>
      match s.frameFault c.l (c.threads x.p) (c.spawnReads (c.threads x.p)) with
      | some t => .fault t
      | none =>
      if cs.any fun k => decide (65535 ≤ s.outstanding c.l c.g.awr k.thread) then .hold
      else
        let awr := match c.g.awr with | some k => k | none => runs.headD 0
        let runs := if c.g.awr.isSome then runs else runs.drop 1
        let frames := runs.take cs.length
        let resvs := runs.drop cs.length
        let die := dieOf c.g.core
        let s := (c.outgoing s).modLaunch l.id fun o => { o with frames := l.frames }
        let s := if c.g.awr.isSome then s
          else (s.engineWrite l die [] (l.blockAddr awr) (zeros 1024)).modGroup c.g.id fun g => { g with awr := some awr }
        -- frames go to the children in slot order
        let order := (groups.flatMap id).zip frames
        let s := order.foldl (fun s (k, f) =>
          let t := k.thread
          let s := s.engineWrite l die [] (l.blockAddr f) (frameBytes k.entry awr t (spDom x) (s.depth l c.g t + 1)
            (c.spawnArgs x t))
          s.setCount l die awr t 0 (s.outstanding l (some awr) t + 1)) s
        let s : State := { s with nextId := s.nextId + groups.length }
        let slots := (slots.zip (groups.zip opens)).foldl (fun (acc : List SpawnSlot × List Nat × State) (x, ks, o) =>
          let (e, s) := acc.2.2.openEdge c.g.id c.g.horizon
          (acc.1 ++ [{ x with
            frames := ks.foldl (fun m k => SMap.put m (k.thread / 32) (((order.find? fun p => p.1 == k).map fun p => p.2).getD 0)) []
            edge := e
            resv := if o then acc.2.1.head? else none }], if o then acc.2.1.drop 1 else acc.2.1, s)) ([], resvs, s)
        let s := slots.2.2
        .done { s with slots := s.slots ++ slots.1 }

/-- The argument registers that SPAWN reads. -/
def spawnUses (x : Ext) : List RegUse :=
  if spNa x = 0 then [] else [{ code := x.b, mod := 0, regs := spNa x }]

/-- SPAWN (R322, R323). -/
def execSpawn (x : Ext) (s : State) : Out :=
  s.issueMem x.words x (formSpawn x) (spawnUses x)
    (fun c => failIf (decide (spNa x ≠ 0) && decide (c.l.vregs < x.b.toNat + spNa x)) 8) (effSpawn x)

/-! ### AWAIT, AWAITN, FRMRD, FRMWR, CHCNT (R329, R331, R332) -/

/-- AWAIT and AWAITN: the wait is armed for the boundary. -/
def effAwait (x : Ext) (n : Nat) (c : Cx) (s : State) : Res :=
  .done (s.modSub c.r fun u => { u with boundary := some (.await n (c.threads x.p)) })

/-- FRMRD (R331). -/
def effFrmrd (x : Ext) (c : Cx) (s : State) : Res :=
  let f := fun (t : Nat) => match c.g.frames.find? fun k => k.1 == t with
    | some k => (match spSel x with
      | 12 => w32 (s.depth c.l c.g t)
      | 14 => w32 (s.frameWord c.l k.2 8 4 / 2 ^ 24)
      | n => w32 (s.frameWord c.l k.2 (0x10 + 4 * n) 4))
    | none => 0
  let reads := if spSel x = 13 then [] else (c.threads x.p).filterMap fun t => (c.g.frames.find? fun k => k.1 == t).map fun k =>
    (t, c.l.blockAddr k.2 + match spSel x with
      | 12 => 0xC
      | 14 => 8
      | n => 0x10 + 4 * n)
  match s.frameFault c.l (c.threads x.p) reads with
  | some t => .fault t
  | none => .done (c.writeQuiet s x.d (spSel x == 13) (fun t => if spSel x = 13 then BitVec.ofNat 64 (c.spill t) else f t) x.p)

/-- FRMWR (R331, R335). -/
def effFrmwr (x : Ext) (c : Cx) (s : State) : Res :=
  match (c.threads x.p).filter fun t => !c.g.frames.has t with
  | t :: _ => .fault { cause := 0x12, detail := 2, msk := c.threads x.p, thread := t }
  | [] => .done ((c.threads x.p).foldl (fun s t =>
      s.engineWrite c.l (dieOf c.g.core) [] (c.l.blockAddr (c.g.frames.get 0 t) + 0x10 + 4 * spSel x)
        (leBytes 4 (c.plain x .A false .int t).toNat)) s)

/-- CHCNT (R332). -/
def effChcnt (x : Ext) (c : Cx) (s : State) : Res :=
  let s := s.reap c.l.id
  let free := ((s.launch? c.l.id).getD c.l).freeBlocks
  let reads := match c.g.awr with
    | some k => if chQ x < 2 then (c.threads x.p).map fun t => (t, c.l.blockAddr k + 512 * chQ x + 2 * t) else []
    | none => []
  match s.frameFault c.l (c.threads x.p) reads with
  | some t => .fault t
  | none => .done (c.writeQuiet s x.d false (fun t => w32 (match chQ x with
    | 0 => s.outstanding c.l c.g.awr t
    | 1 => s.unreported c.l c.g.awr t
    | _ => free)) x.p)

/-- AWAIT (R329). -/
def execAwait (x : Ext) (s : State) : Out := s.issueMem x.words x formAwait [] (fun c => s.notLast c) (effAwait x 0)
/-- AWAITN (R329). -/
def execAwaitn (x : Ext) (s : State) : Out :=
  s.issueMem x.words x formAwaitn [] (fun c => s.notLast c) (fun c => effAwait x (c.once x) c)
/-- FRMRD (R331). -/
def execFrmrd (x : Ext) (s : State) : Out := s.issueMem x.words x (formFrmrd x) [] (fun _ => []) (effFrmrd x)
/-- FRMWR (R331). -/
def execFrmwr (x : Ext) (s : State) : Out := s.issueMem x.words x (formFrmwr x) [] (fun _ => []) (effFrmwr x)
/-- CHCNT (R332). -/
def execChcnt (x : Ext) (s : State) : Out := s.issueMem x.words x (formChcnt x) [] (fun _ => []) (effChcnt x)

/-! ### LAUNCH (R334) -/

/-- The check of one operand of LAUNCH: alignment and permission of `n` bytes. -/
def Cx.launchCheck (c : Cx) (s : State) (va n align : Nat) (rd : Bool) : Except TrapReq (List Nat) :=
  let fail := fun (va cause d : Nat) => ({ cause := cause, detail := d, addr := va, msk := c.threads 0 } : TrapReq)
  let skew := failIf (decide (va % align ≠ 0)) 7
  match (s.reachAll (c.who rd (!rd)) va n 0).1, skew with
  | .ok r, [] => .ok r.1
  | .ok _, d :: _ => .error (fail va 5 d)
  | .error (a, cause, d), [] => .error (fail a cause d)
  | .error (a, cause, d), k :: _ => .error (fail va 5 (if a = va ∧ cause = 5 then pickDetail s.stamp [k, d] else k))

/-- LAUNCH: its dirty bytes leave; once its release horizon has passed, the record is read and the dispatcher answers. A poisoned or
failing line of the record faults as its reader (R39, R284). -/
def effLaunch (x : Ext) (c : Cx) (s : State) : Res :=
  let a := (c.plain x .A true .int 0).toNat
  let unit := match operandOf x.b with
    | .ureg _ => some (c.plain x .B true .int 0).toNat
    | _ => none
  match c.launchCheck s a 256 64 true, (match unit with | some b => c.launchCheck s b 4 4 false | none => .ok []) with
  | .error t, _ => .fault t
  | .ok _, .error t => .fault t
  | .ok addrs, .ok _ =>
    let s := c.outgoing s
    if s.quietFor [c.g.id] then
      match s.markOfBytes addrs with
      | some m => .fault { cause := m.cause, detail := m.detail, addr := m.addr, msk := c.threads 0 }
      | none =>
      let record := addrs.map s.byteAt
      let l := Launch.ofRecord 0 record
      -- with no path to the record or to its tables LAUNCH waits (R449 20_links.md)
      if !(addrs.all fun pa => s.pathTo (pa / 64)) || !s.areaOpen l l.cpndAt (if l.cpndAt = 0 then 0 else 64) ||
        !s.areaOpen l l.teamAt (if l.teamAt = 0 then 0 else 128 * l.nteam) then .hold
      else
      let (status, s) := s.enqueue record none (some c.l) (unit.map fun b => (c.l.asid, b))
      .done (c.writeQuiet s x.d false (fun _ => w32 status) x.p)
    else .stall s .running

/-- LAUNCH (R334). -/
def execLaunch (x : Ext) (s : State) : Out := s.issueMem x.words x (formLaunch x) [] (fun _ => []) (effLaunch x)

/-! ### Events of the bins (R325, R326, R336) -/

/-- Whether everything of a launch that spawning made must stop (R336). -/
def Launch.stopsBins (l : Launch) : Bool :=
  l.preempt || l.whole || match l.phase with
    | .stopping | .restarting | .ending _ => true
    | _ => false

/-- BIN_SLOT_ARRIVAL (R325): slots of one SPAWN reach a store in the order in which it deposited them. -/
def execBinSlotArrival (s : State) : Out :=
  match s.arg with
  | .num id => match s.slots.find? fun x => x.id == id with
    | some x =>
      let first := match s.slots.find? fun y => y.core == x.core && y.batch == x.batch with
        | some y => y.id == x.id
        | none => false
      let blocked := match x.waits with
        | some k => s.bins.any fun b => b.id == k
        | none => false
      if blocked || !first then notNow "BIN_SLOT_ARRIVAL"
      else
        let t := s.tick
        match landing s.bins x with
        | .joins k =>
          .next { t.freeBlocksAt x.launch x.resv with
            slots := t.slots.filter fun y => y.id ≠ id
            bins := t.bins.map fun b => if b.id = k then b.join { x with resv := none } else b }
        | .opens =>
          -- a bin that its SPAWN did not count needs a reservation now (log 29)
          let t := t.reap x.launch
          let got : Option (Nat × State) := match x.resv, t.launch? x.launch with
            | some k, _ => some (k, t)
            | none, some l => (l.alloc l.contBlocks 0 2).map fun (k, l) => (k, t.modLaunch l.id fun _ => l)
            | none, none => none
          (match got with
            | none => notNow "BIN_SLOT_ARRIVAL"
            | some (k, t) =>
              let (b, t) := t.fresh
              .next { t with
                slots := t.slots.filter fun y => y.id ≠ id
                bins := t.bins ++ [{ id := b, core := x.core, slots := [{ x with resv := none }], since := t.time, launching := false,
                                     resv := some k, formed := none }] })
        | .forces k =>
          .next { t with
            bins := t.bins.map fun b => if b.id = k then { b with launching := true } else b
            slots := t.slots.map fun y => if y.id = id then { y with waits := some k } else y }
        | .waits => notNow "BIN_SLOT_ARRIVAL"
    | none => notNow "BIN_SLOT_ARRIVAL"
  | _ => notNow "BIN_SLOT_ARRIVAL"

/-- BIN_TIMER_EXPIRE (R325, R336): T after the first slot, or at once where the launch stops. -/
def execBinTimerExpire (s : State) : Out :=
  match s.arg with
  | .num id => match s.bins.find? fun b => b.id == id && !b.launching with
    | some b => match b.slots.head?.bind fun x => s.launch? x.launch with
      | some l =>
        if b.since + l.bint ≤ s.time || l.stopsBins then
          .next { s.tick with bins := s.bins.map fun o => if o.id = id then { o with launching := true } else o }
        else notNow "BIN_TIMER_EXPIRE"
      | none => notNow "BIN_TIMER_EXPIRE"
    | none => notNow "BIN_TIMER_EXPIRE"
  | _ => notNow "BIN_TIMER_EXPIRE"

/-- Reserved bits of a spawn frame are set (R321, R335). -/
def State.frameBroken (s : State) (l : Launch) (k : Nat) : Bool :=
  let ent := s.frameWord l k 0 8
  decide (ent % 64 ≠ 0) || decide (2 ^ 57 ≤ ent) || decide (2 ^ 21 ≤ s.frameWord l k 0xC 4)

/-- The group of a bin (R326). -/
def State.binGroup (s : State) (l : Launch) (b : Bin) (id horizon : Nat) : Group :=
  let x := b.slots.headD { id := 0, batch := 0, launch := 0, core := 0, entry := 0, k := 0, bound := (0, 0), frames := [], edge := 0, resv := none, waits := none }
  let lanes : Word := BitVec.ofNat 32 (2 ^ b.slots.length - 1)
  let live : SMap Word := SMap.build 0 (fun m => if x.k.getLsbD m then lanes else 0) 0 l.m
  let frames : SMap Nat := b.slots.zipIdx.foldl (fun m (y, j) => y.frames.foldl (fun m k => SMap.put m (32 * k.1 + j) k.2) m) []
  { l.startGroup id l.nblocks 0 b.core 0 x.entry x.k live with
    place := .formed
    spawned := true
    frames := frames
    resv := b.resv
    frameBad := (frames.filter fun k => (s.engineMark l (l.blockAddr k.2) 64).isNone && s.frameBroken l k.2).map fun k => k.1
    rank := id
    bound := x.bound
    horizon := horizon }

/-- BIN_GROUP_FORM (R325, R326): device time has passed the release horizon of each slot's SPAWN; where the launch stops, the
group keeps that horizon for its restore. -/
def execBinGroupForm (s : State) : Out :=
  match s.arg with
  | .num id => match s.bins.find? fun b => b.id == id && b.launching && b.formed.isNone with
    | some b => match b.slots.head?.bind fun x => s.launch? x.launch with
      | some l =>
        let es := b.slots.filterMap fun x => s.edges.find? fun e => e.id == x.edge
        let v := es.foldl (fun v e => max v e.v) 0
        if es.all (fun e => e.pend.isEmpty) && (s.clear v || l.stopsBins) then
          let (gid, t) := s.tick.fresh
          .next { t with
            edges := t.edges.filter fun e => !(b.slots.any fun x => x.edge == e.id)
            groups := t.groups ++ [t.binGroup l b gid v]
            bins := t.bins.map fun o => if o.id = id then { o with formed := some gid } else o }
        else notNow "BIN_GROUP_FORM"
      | none => notNow "BIN_GROUP_FORM"
    | none => notNow "BIN_GROUP_FORM"
  | _ => notNow "BIN_GROUP_FORM"

/-! ### Placing formed groups and continuations (R327) -/

/-- Waits for a place of its own: formed, ready, or a spawned group saved with a launch that runs again. -/
def Group.wantsPlace (g : Group) : Bool :=
  match g.place with
  | .formed | .ready => true
  | .saved => g.spawned
  | _ => false

/-- Has no sub-group of the group issued yet? -/
def Group.unissued (g : Group) : Bool := g.subs.all fun u => u.issued == 0

/-- Ready continuations come first, each kind in the order in which it became ready; a group that was saved before its first instance
is still a formed one. -/
def Group.before (a b : Group) : Bool :=
  let cls := fun (g : Group) => if g.place = .formed ∨ (g.place = .saved ∧ g.unissued = true) then 1 else 0
  decide (cls a < cls b) || (decide (cls a = cls b) && decide (a.rank < b.rank))

/-- Cores on which a group may be placed. -/
def State.homesOf (s : State) (g : Group) : List Nat :=
  match g.bound.1 with
  | 3 => (match s.block? g.launch g.block with
    | some b => b.cores.filter s.cores.contains
    | none => [])
  | _ => s.boundCores g.bound

/-- The partition of a core that takes the group, if it has room (R17). -/
def State.roomFor (s : State) (l : Launch) (core : Nat) : Option Nat := (s.coreLoad core).partition l

/-- May the launch's groups be placed? -/
def Launch.runs (l : Launch) : Bool := decide (l.phase = .active) && !l.preempt && !l.whole

/-- Frames of a group on poisoned or failing lines, by thread. -/
def State.frameMarks (s : State) (l : Launch) (g : Group) : List (Nat × Mark) :=
  g.frames.filterMap fun k => (s.engineMark l (l.blockAddr k.2) 64).map fun m => (k.1, m)

/-- A group traps at its first instruction where a frame of it stands on a poisoned or failing line (R39, R284; log 58), else where
frames broke the layout (R335). -/
def State.firstInstance (s : State) (l : Launch) (g : Group) : State :=
  let trap := fun (s : State) (t : TrapReq) => (s.noteFault t).takeTrap g { grp := g.id, sub := 0 } t
    (match g.sub? 0 with | some u => u.pc | none => 0) 0 false
  match (if g.unissued then s.frameMarks l g else []), g.frameBad with
  | (t, m) :: ms, _ => trap s { cause := m.cause, detail := m.detail, addr := m.addr, msk := t :: ms.map fun k => k.1 }
  | [], [] => s
  | [], ts => trap (s.modGroup g.id fun g => { g with frameBad := [] }) { cause := 0x12, detail := 3, msk := ts }

/-- Where a restore fails: the launch ends (R465) or stops with cause 0x01, DETAIL 13, reported for group 0 of the block (R425). -/
def State.restoreFailed (s : State) (l : Launch) (g : Group) (r : Restored) : State :=
  match r with
  | .ok s => s
  | .unreadable => (s.consumeBytes l (s.recordPlace l g) 8 l.recordSize).endLaunch l.id 5
  | .broken => s.recordBroken l g

/-- SPAWNED_GROUP_PLACEMENT (R327): the group and the core that State.arg names. No group before it in the order could be placed. -/
def execSpawnedGroupPlacement (s : State) : Out :=
  match s.arg with
  | .pair id core => match s.group? id with
    | some g => match s.launch? g.launch with
      | some l =>
        let ahead := s.groups.any fun o => decide (o.id ≠ id) && o.wantsPlace && o.before g &&
          (match s.launch? o.launch with
            | some ol => ol.runs && (s.homesOf o).any fun c => (s.roomFor ol c).isSome
            | none => false)
        if g.wantsPlace && l.runs && (s.homesOf g).contains core && !ahead && s.clear g.horizon && s.framesOpen l &&
          (decide (g.place = .formed) || s.areaOpen l (s.recordPlace l g) l.recordSize) then
          match s.roomFor l core with
          | none => notNow "SPAWNED_GROUP_PLACEMENT"
          | some p =>
            let t := s.tick
            let t : State := { t with bins := t.bins.filter fun b => b.formed ≠ some id }
            if g.place = .formed then
              .next (((t.modGroup id fun g => { g with place := .slot, core := core, partition := p }).incoming id core).firstInstance l g)
            else match t.restoreGroup l g core p with
              | .ok t' => .next (t'.firstInstance l g)
              | r => .next (t.restoreFailed l g r)
        else notNow "SPAWNED_GROUP_PLACEMENT"
      | none => notNow "SPAWNED_GROUP_PLACEMENT"
    | none => notNow "SPAWNED_GROUP_PLACEMENT"
  | _ => notNow "SPAWNED_GROUP_PLACEMENT"

/-! ### Completion (R328) -/

/-- CHILD_COMPLETE (R328): a thread of a spawned group. -/
def execChildComplete (s : State) : Out :=
  match s.arg with
  | .pair id t => match s.group? id with
    | some g => match s.launch? g.launch, g.frames.find? fun k => k.1 == t with
      | some l, some k =>
        if g.place ≠ .formed ∧ s.threadDone l g t = true ∧ s.framesOpen l = true then
          let st := if g.resident then s.tick.flush g.core else s.tick
          let st := st.engineConsume l (l.blockAddr k.2) 64
          let par := st.frameWord l k.2 8 4
          let awr := par % 2 ^ 24
          let pt := par / 2 ^ 24
          let n := st.outstanding l (some awr) pt
          let die := dieOf g.core
          let st := if n = 0 then st else st.setCount l die awr pt 0 (n - 1)
          let st := st.setCount l die awr pt 512 ((st.unreported l (some awr) pt + 1) % 65536)
          let st : State := { st with groups := st.groups.map fun o =>
            if o.launch = l.id ∧ o.awr = some awr then { o with
              reports := o.reports.put pt (max (o.reports.get 0 pt) g.horizon)
              awrBad := o.awrBad || decide (n = 0) }
            else o }
          let st := (st.freeBlocksAt l.id (some k.2)).modGroup id fun g => { g with frames := SMap.erase g.frames t }
          .next (st.reap l.id)
        else notNow "CHILD_COMPLETE"
      | _, _ => notNow "CHILD_COMPLETE"
    | none => notNow "CHILD_COMPLETE"
  | _ => notNow "CHILD_COMPLETE"

/-! ### Waits for children (R329, R330) -/

/-- The condition of a waiting sub-group is met. -/
def State.awaitMet (s : State) (l : Launch) (g : Group) (n : Nat) (act : List Nat) : Bool :=
  act.all fun t => decide (s.outstanding l g.awr t ≤ n)
/-- The largest horizon among the completions it would take. -/
def Group.reportHorizon (g : Group) (act : List Nat) : Nat := act.foldl (fun h t => max h (g.reports.get 0 t)) 0

/-- The mark on the await record that the wait of some threads reads. -/
def State.awaitMark (s : State) (l : Launch) (g : Group) (act : List Nat) : Option Mark :=
  g.awr.bind fun k => act.findSome? fun t => match s.engineMark l (l.blockAddr k + 2 * t) 2 with
    | some m => some m
    | none => s.engineMark l (l.blockAddr k + 512 + 2 * t) 2

/-- AWAIT_CONDITION_MET (R329, R330): a resident sub-group takes its completions, raises H, and runs on past an incoming edge; a
yielded group becomes ready. A count that was to pass below zero is a frame error at this boundary (R335). -/
def execAwaitConditionMet (s : State) : Out :=
  match s.argSub with
  | some (g, u, r) => match s.launch? g.launch, u.phase with
    | some l, .await _ n act =>
      if !s.framesOpen l then notNow "AWAIT_CONDITION_MET"
      else if g.awrBad && g.resident then
        .next ((s.tick.modGroup g.id fun g => { g with awrBad := false }).takeTrap g r { cause := 0x12, detail := 3, msk := act } u.pc
          trailerPos false)
      else match (if g.resident then s.awaitMark l g act else none) with
      | some m =>
        let t : TrapReq := { cause := m.cause, detail := m.detail, addr := m.addr, msk := act }
        .next ((s.tick.noteFault t).takeTrap g r t u.pc trailerPos false)
      | none =>
      if s.awaitMet l g n act || (decide (g.place = .yielded) && (s.awaitMark l g act).isSome) then
        match g.place with
        | .yielded => .next (s.tick.modGroup g.id fun g => { g with place := .ready, rank := s.nextId }).fresh.2
        | .slot =>
          let h := g.reportHorizon act
          if s.clear h then
            let t := s.tick
            let t := match g.awr with
              | some k => act.foldl (fun (t' : State) m => if t'.unreported l (some k) m = 0 then t' else t'.setCount l (dieOf g.core) k m 512 0) t
              | none => t
            .next (((t.modGroup g.id fun g => { g with
                horizon := max g.horizon h
                reports := g.reports.filter fun k => !act.contains k.1 }).modSub r fun u => { u with phase := .running }).incoming g.id g.core)
          else notNow "AWAIT_CONDITION_MET"
        | _ => notNow "AWAIT_CONDITION_MET"
      else notNow "AWAIT_CONDITION_MET"
    | _, _ => notNow "AWAIT_CONDITION_MET"
  | none => notNow "AWAIT_CONDITION_MET"

/-- AWAIT_YIELD_TIMEOUT (R330): every sub-group with a live thread waits for children, the last of them for 1,024 clocks, and the
counters have drained, while no condition is met: steps 3 to 6 of R140. -/
def execAwaitYieldTimeout (s : State) : Out :=
  match s.arg with
  | .num id => match s.group? id with
    | some g => match s.launch? g.launch with
      | some l =>
        let waits := g.subs.all fun u => match u.phase with
          | .await since n act => decide (since + 1024 ≤ s.time) && !s.awaitMet l g n act
          | .finished => true
          | _ => false
        let any := g.subs.any fun u => match u.phase with
          | .await _ _ _ => true
          | _ => false
        if g.resident && waits && any && g.drained && (!g.spawned || g.resv.isSome) && s.framesOpen l &&
            s.areaOpen l (s.recordPlace l g) l.recordSize then
          match g.saveFault with
          | some (n, t) => .next (s.tick.saveTrap g n t)
          | none => .next (s.tick.saveGroup l g .yielded true)
        else notNow "AWAIT_YIELD_TIMEOUT"
      | none => notNow "AWAIT_YIELD_TIMEOUT"
    | none => notNow "AWAIT_YIELD_TIMEOUT"
  | _ => notNow "AWAIT_YIELD_TIMEOUT"

end Machine
end Sys2Proof
end

