-- ==== Sys2Proof/Machine/Regroup.lean ====
section
/-! DEFINITION. Oxbow regrouping unit (R379 to R388 17_regroup.md): MSPLIT, RJOIN and the join, REPACK and the repack, the deadlock
between them. The division that MSPLIT arms is made at the boundary (Machine/Trailer.lean). -/

namespace Sys2Proof
namespace Machine

/-! ### MSPLIT, RJOIN, REPACK (R383, R384, R387) -/

def formMsplit (x : Ext) : Form :=
  { srcs := if x.bit1 0 then [{ slot := .A, wide := false, kinds := uniConst, mods := false }] else [],
    own1 := 1, guard := false, negRow := 3 }
def formRjoin : Form := { guard := false, negRow := 3 }
def formRepack : Form := { dest := .reg false true false true, guard := false, negRow := 3 }

/-- An RJOIN or REPACK stands first in its run and on a 64-byte boundary. -/
def joinPlaced (c : Cx) : List Nat := failIf (decide (c.u.ndone ≠ 0) || decide (c.u.pc.toNat % 64 ≠ 0)) 16

/-- MSPLIT (R383). -/
def effMsplit (x : Ext) (c : Cx) (s : State) : Res :=
  .done (s.modSub c.r fun u => { u with
    boundary := some (.split (if x.bit1 0 then some (BitVec.ofNat 8 (c.once x)) else none)) })

/-- RJOIN (R384, R385): a whole group passes; a sub-group is held until the join lets it pass. -/
def effRjoin (c : Cx) (s : State) : Res :=
  if c.u.passed || decide (c.g.subs.length ≤ 1) then .done s else .stall s .heldJoin

/-- REPACK (R387): held, after an outgoing edge, until the repack lets it pass. -/
def effRepack (x : Ext) (c : Cx) (s : State) : Res :=
  if c.u.cfrm.isSome then .fault { cause := 0x14, detail := 2, msk := c.threads 0 }
  else if c.u.passed then .done s
  else .stall (c.outgoing s) (.heldRepack (destReg x.d))

/-- MSPLIT (R383). -/
def execMsplit (x : Ext) (s : State) : Out :=
  s.issueMem x.words x (formMsplit x) [] (fun c => s.notLast c) (effMsplit x)
/-- RJOIN (R384). -/
def execRjoin (x : Ext) (s : State) : Out := s.issueMem x.words x formRjoin [] joinPlaced effRjoin
/-- REPACK (R387). -/
def execRepack (x : Ext) (s : State) : Out := s.issueMem x.words x formRepack [] joinPlaced (effRepack x)

/-! ### The join (R385, R386) -/

/-- Threads of a sub-group with MMK and EXM set. -/
def Group.maskOf (g : Group) (u : SubGroup) : List Nat :=
  (List.range (32 * g.m)).filter fun t => u.members.getLsbD (t / 32) && u.mmk.getLsbD (t / 32) && (g.exmOf (t / 32)).getLsbD (t % 32)

/-- Traps of several sub-groups at once: the lowest-numbered one's registers stand (log 30). -/
def State.trapAll (s : State) (g : Group) (us : List SubGroup) (req : SubGroup → TrapReq) : State :=
  us.reverse.foldl (fun s u => s.takeTrap g { grp := g.id, sub := u.num } (req u) u.pc u.ndone false) s

/-- Sub-groups merged into one, which goes on from `pc` (R386): uniform state from the live one of the lowest member. -/
def Group.mergeSubs (g : Group) (us : List SubGroup) : List SubGroup :=
  let sorted := sortBy (fun a b => decide (a.lowest ≤ b.lowest)) us
  let live := sorted.filter g.subLive
  match live ++ sorted with
  | [] => []
  | lead :: _ =>
    [{ lead with
        members := us.foldl (fun m u => m ||| u.members) 0
        mmk := us.foldl (fun m u => m ||| (u.mmk &&& u.members)) 0
        ndone := 0
        window := []
        phase := .running
        boundary := none
        yielded := false
        passed := true
        monitor := if us.length ≤ 1 then lead.monitor else none
        hist := us.foldl (fun h u => u.hist.foldl (fun h k => h.set [] k.1 (SMap.get [] h k.1 ++ k.2)) h) [] }]

/-- A group whose sub-groups are one again has no older values to show other sub-groups. -/
def Group.settleHist (g : Group) : Group :=
  if g.subs.length ≤ 1 then { g with subs := g.subs.map fun u => { u with hist := [] } } else g

/-- RJOIN_MERGE (R385): every unfinished sub-group of the group is held at an RJOIN, none with an OBSERVE outstanding. -/
def execRjoinMerge (s : State) : Out :=
  match s.arg with
  | .num id => match s.group? id with
    | some g =>
      let held := g.subs.filter fun u => decide (u.phase = .heldJoin)
      let ended := g.subs.filter fun u => decide (u.phase = .finished)
      if g.resident && !held.isEmpty && decide (held.length + ended.length = g.subs.length) && held.all fun u => u.observing.isNone then
        let pcs := held.foldl (fun ps u => if ps.contains u.pc then ps else ps ++ [u.pc]) []
        let sets := pcs.map fun pc => held.filter fun u => u.pc == pc
        match sets.filter fun us => us.any fun u => u.cfrm != (us.head?.bind fun v => v.cfrm) with
        | bad :: _ => .next (s.tick.trapAll g bad fun u => { cause := 0x12, detail := 4, msk := g.maskOf u })
        | [] =>
          let first := held.foldl (fun a u => min a u.lowest) 8
          let subs := sets.flatMap fun us =>
            g.mergeSubs (if us.any fun u => u.lowest == first then us ++ ended.map fun u => { u with cfrm := none } else us)
          .next (s.tick.modGroup id fun g => Group.settleHist (Group.renumber { g with subs := subs }))
      else notNow "RJOIN_MERGE"
    | none => notNow "RJOIN_MERGE"
  | _ => notNow "RJOIN_MERGE"

/-- A sub-group that a deadlock finds at a BAR goes back to it, with the call frame that it held there: a fault has no effect, and no
later instruction has any (R133, R385). -/
def SubGroup.backToBar (u : SubGroup) : SubGroup :=
  match u.phase, u.barAt with
  | .bar _, some (pc, n, w) => { u with pc := BitVec.ofNat 64 pc, ndone := n, window := w, cfrm := u.barFrame.map fun k => k.1 }
  | _, _ => u

/-- The frame area as it was before the trailers of the BARs that sub-groups go back to: a frame that a CALL took is free again, and
one that a RET gave up is held again unless another allocation has taken its blocks (R133, R319; log 60). -/
def Launch.framesBack (l : Launch) (s : State) (g : Group) : Launch :=
  let barred := g.subs.filter fun u => match u.phase with
    | .bar _ => true
    | _ => false
  let called := barred.filterMap fun u => match u.cfrm with
    | some k => if u.barFrame.any (fun b => b.1 == k) || (s.engineRead l (l.blockAddr k + 8) 4) ≠ some ((u.barFrame.map fun b => b.1).getD noFrame)
        then none else some k
    | none => none
  let l := called.foldl (fun l k => l.free k) l
  barred.foldl (fun (l : Launch) u => match u.barFrame with
    | some (k, some (len, use)) =>
      if l.frames.any fun f => decide (f.start < k + len) && decide (k < f.start + f.len) then l
      else { l with frames := insertBy (fun a b => decide (a.start ≤ b.start)) { start := k, len := len, grp := g.id, use := use } l.frames }
    | _ => l) l

/-- The named group's sub-groups at BARs go back to them. -/
def State.backToBars (s : State) (g : Group) : State :=
  (s.modLaunch g.launch fun l => l.framesBack s g).modGroup g.id fun _ => { g with subs := g.subs.map SubGroup.backToBar }

/-- REGROUP_DEADLOCK (R385): sub-groups held at RJOINs beside others at BARs or REPACKs, and no other unfinished one. -/
def execRegroupDeadlock (s : State) : Out :=
  match s.arg with
  | .num id => match s.group? id with
    | some g =>
      let live := g.subs.filter fun u => decide (u.phase ≠ .finished)
      let joins := live.filter fun u => decide (u.phase = .heldJoin)
      let rest := live.filter fun u => match u.phase with
        | .bar _ | .heldRepack _ => true
        | _ => false
      if g.resident && !joins.isEmpty && !rest.isEmpty && decide (joins.length + rest.length = live.length) then
        let back : Group := { g with subs := g.subs.map SubGroup.backToBar }
        .next ((s.tick.backToBars g).trapAll back (back.subs.filter fun u => decide (u.phase ≠ .finished))
          fun u => { cause := 0x14, detail := 3, msk := back.maskOf u })
      else notNow "REGROUP_DEADLOCK"
    | none => notNow "REGROUP_DEADLOCK"
  | _ => notNow "REGROUP_DEADLOCK"

/-! ### The repack (R387, R388) -/

/-- Participants of a repack: the groups of the block, in group order, or a spawned group alone. -/
def State.repackers (s : State) (g : Group) : List Group :=
  if g.spawned then [g]
  else sortBy (fun a b => decide (a.index ≤ b.index))
    (s.groups.filter fun o => o.launch == g.launch && o.block == g.block && !o.spawned)

/-- Is a live group held, all of it, at REPACKs, or at REPACKs and block-level BARs? -/
def Launch.heldAt (l : Launch) (g : Group) (bars : Bool) : Bool :=
  g.subs.all fun u => !g.subLive u || match u.phase with
    | .heldRepack _ => true
    | .bar level => bars && l.domain level == some 1
    | _ => false

/-- Addresses of the REPACKs at which a group is held. -/
def Group.repackPcs (g : Group) : List Dword :=
  g.subs.filterMap fun u => match u.phase with
    | .heldRepack _ => some u.pc
    | _ => none

/-- The destination of the REPACK at which a group is held. -/
def Group.repackDest (g : Group) : Option Nat :=
  g.subs.findSome? fun u => match u.phase with
    | .heldRepack d => d
    | _ => none

/-- Has a group a live thread? -/
def Group.alive (g : Group) : Bool := g.subs.any g.subLive

/-- A slot of the repack: its participant's position, its lane, its members. -/
structure RepackSlot where
  part : Nat
  lane : Nat
  k : Nat
deriving DecidableEq, Repr

/-- MMK of a member as its own sub-group holds it. -/
def Group.mmkOf (g : Group) (m : Nat) : Bool := match g.holder m with
  | some u => u.mmk.getLsbD m
  | none => false

/-- The slots in order (R388): by K, then participant, then lane. -/
def repackSlots (ps : List Group) : List RepackSlot :=
  sortBy (fun a b => decide (a.k ≤ b.k))
    (ps.zipIdx.flatMap fun (g, i) => (List.range 32).filterMap fun lane =>
      let k := ofBits ((List.range g.m).filter fun m => g.mmkOf m && (g.exmOf m).getLsbD lane)
      if k = 0 then none else some { part := i, lane := lane, k := k })

/-- The value that an unawaited read of a unit of any group may return (R66). -/
def Group.pick (g : Group) (stamp r t : Nat) : Word :=
  match g.stale.get [] r with
  | [] => g.vcur r t
  | olds =>
    let k := Config.earlyRead stamp (256 * r + t) % (olds.length + 1)
    if k = 0 then g.vcur r t else SMap.get 0 (olds.getD (k - 1) []) t

/-- New group j from the slots that it takes, at the REPACK at `pc` with its destination (R388). -/
def repackInto (ps : List Group) (slots : List RepackSlot) (stamp : Nat) (pc : Dword) (dest : Option Nat) (old : Group) : Group :=
  let empty : Group := { old with subs := [] }
  let src : Nat → Option (Group × RepackSlot) := fun i => (slots[i]?).map fun x => (ps.getD x.part empty, x)
  let lead := (sortBy (fun a b => decide (a.lowest ≤ b.lowest)) old.subs).find? old.subLive
  let lead := match lead with
    | some u => some u
    | none => old.subs.head?
  let lanes : Nat → Word := fun m => BitVec.ofNat 32 (ofBits ((List.range 32).filter fun i => match slots[i]? with
    | some x => x.k.testBit m
    | none => false))
  let masks : SMap Word := SMap.build 0 lanes 0 old.m
  let kall := slots.foldl (fun k x => k ||| x.k) 0
  let reg : Nat → Vec := fun r => SMap.build (0 : Word) (fun t => match src (t % 32) with
    | some (g, x) =>
      if dest == some r && (lanes (t / 32)).getLsbD (t % 32) then BitVec.ofNat 32 (g.index % 256 * 256 + x.lane)
      else g.pick stamp r (32 * (t / 32) + x.lane)
    | none => old.vcur r t) 0 (32 * old.m)
  let bit' := fun (b : Bool) (i : Nat) => if b then 2 ^ i else 0
  -- frames follow their threads; those of exited threads stand aside under a key of their own (log 31)
  let frames := old.frames.foldl (fun (fs : SMap Nat) k =>
    match slots.zipIdx.find? fun p => decide (k.1 < 256) && p.1.lane == k.1 % 32 && p.1.k.testBit (k.1 / 32) with
    | some p => fs.put (32 * (k.1 / 32) + p.2) k.2
    | none => fs.put (256 + k.1 % 256) k.2) []
  { old with
    vregs := SMap.build [] reg 0 240
    stale := []
    vmarks := (List.range (32 * old.m)).foldl (fun (ms : SMap Mark) t => match src (t % 32) with
      | some (g, x) => g.vmarks.foldl (fun (ms : SMap Mark) (k : Nat × Mark) => if k.1 % 256 == 32 * (t / 32) + x.lane && some (k.1 / 256) != dest then
          SMap.put ms (k.1 / 256 * 256 + t) k.2 else ms) ms
      | none => ms) []
    preds := SMap.build 0 (fun key => if key % 16 = 0 then 0 else
      BitVec.ofNat 32 ((List.range 32).foldl (fun w i => w + match src i with
        | some (g, x) => bit' ((g.predOf (key / 16) (key % 16)).getLsbD x.lane) i
        | none => bit' ((old.predOf (key / 16) (key % 16)).getLsbD i) i) 0)) 0 (16 * old.m)
    fpsr := SMap.build 0 (fun t => match src (t % 32) with
      | some (g, x) => g.fpsr.get 0 (32 * (t / 32) + x.lane)
      | none => old.fpsr.get 0 t) 0 (32 * old.m)
    exm := masks
    live := masks
    frames := frames
    subs := match lead with
      | some u => [{ u with
          num := 0, pc := pc, members := BitVec.ofNat 8 (2 ^ old.m - 1), mmk := BitVec.ofNat 8 kall, ndone := 0, window := [],
          phase := if slots.isEmpty then .finished else .running, boundary := none, passed := true, yielded := false, monitor := none,
          cfrm := none, hist := [] }]
      | none => [] }

/-- Threads that a repack takes out of their places exit there (R72, R328). -/
def Group.exitAll (g : Group) (next : Nat) : SMap Nat :=
  (List.range (32 * g.m)).foldl (fun e t => if (g.liveOf (t / 32)).getLsbD (t % 32) then e.put t next else e) g.exits

/-- REPACK_EXECUTE (R387, R388): every live participant has arrived and every participant's counters are zero; where they are held at
different REPACKs, or at block-level BARs beside them, each raises cause 0x14 with DETAIL 1. -/
def execRepackExecute (s : State) : Out :=
  match s.arg with
  | .num id => match s.group? id with
    | some g => match s.launch? g.launch with
      | some l =>
        let ps := s.repackers g
        let live := ps.filter Group.alive
        let pcs := live.flatMap Group.repackPcs
        let one := live.all (fun o => l.heldAt o false) && pcs.all fun pc => some pc == pcs.head?
        if !pcs.isEmpty && ps.all (fun o => o.resident) && live.all (fun o => l.heldAt o true) then
          if one then
            if ps.all (fun o => o.drained) && s.quietFor (ps.map fun o => o.id) then
              let slots := repackSlots ps
              let h := ps.foldl (fun h o => max h o.horizon) 0
              let t := s.tick
              .next (ps.zipIdx.foldl (fun t (o, j) =>
                (t.incoming o.id o.core).modGroup o.id fun o' => { repackInto ps ((slots.drop (32 * j)).take 32) s.stamp
                    (pcs.headD 0) (live.findSome? Group.repackDest) o with
                  gepoch := o'.gepoch
                  horizon := max o.horizon h
                  exits := o.exitAll s.nextId }) t)
            else notNow "REPACK_EXECUTE"
          else
            .next (live.foldl (fun t o =>
              let back : Group := { o with subs := o.subs.map SubGroup.backToBar }
              (t.backToBars o).trapAll back (back.subs.filter back.subLive)
                fun u => { cause := 0x14, detail := 1, msk := back.maskOf u }) s.tick)
        else notNow "REPACK_EXECUTE"
      | none => notNow "REPACK_EXECUTE"
    | none => notNow "REPACK_EXECUTE"
  | _ => notNow "REPACK_EXECUTE"

end Machine
end Sys2Proof
end

