-- ==== Sys2Proof/Machine/Translate.lean ====
section
/-! DEFINITION. Translation and system instructions (R285 to R294 12_translation.md): TLBINV, QSYNC, MIGR, PGQRY, and the events that
complete them. -/

namespace Sys2Proof
namespace Machine

/-! ### Encoding (R285) -/

def sysUni (sl : Slot) (wide : Bool) : SrcUse := { slot := sl, wide := wide, kinds := uniConst, mods := false }
/-- A source of PGQRY. -/
def sysAny (sl : Slot) (wide : Bool) : SrcUse := { slot := sl, wide := wide, kinds := laneSrc, mods := false }
def sysOp (x : Ext) : Nat := x.subBits 1 0

def formTlbinv (x : Ext) : Form :=
  { srcs := (if 1 ≤ sysOp x then [sysUni .A false] else []) ++ (if sysOp x = 2 then [sysUni .B true] else []),
    own1 := 3, guard := false, negRow := 3, own := failIf (sysOp x == 3) 4 }
/-- QSYNC.wait, .put and .take are three rows of the opcode table; SUB[1:0] tells them apart. -/
def formQsync (x : Ext) : Form :=
  { dest := .reg (sysOp x != 1) false true (sysOp x != 2),
    srcs := if sysOp x = 1 then [sysUni .A true, sysUni .B false] else [],
    own1 := 3, guard := false, negRow := 3, own := failIf (sysOp x == 3) 4 }
def formMigr (x : Ext) : Form :=
  { dest := .reg false false true true,
    srcs := (if sysOp x = 0 then [sysUni .A false] else []) ++ [sysUni .B true, sysUni .C (sysOp x == 0)],
    own1 := 3, guard := false, negRow := 3, own := failIf (decide (2 ≤ sysOp x)) 4 }
def formPgqry (x : Ext) : Form :=
  { dest := .reg true true true false, own1 := 3, negRow := 3,
    srcs := (if sysOp x = 1 then [] else [sysAny .A false]) ++ (if sysOp x ≤ 1 then [sysAny .B true] else []) }

/-- The privileged-instruction trap (R285): before any effect, whatever the guard. -/
def Cx.unprivileged (c : Cx) (p : BitVec 4) (r : Res) : Res :=
  if c.l.priv then r else .fault { cause := 0x04, msk := c.threads p }

/-! ### TLBINV (R286) -/

/-- Dies whose base die is in service. -/
def State.basesUp (s : State) : List Nat := (List.range 6).filter fun d => decide (s.dieCode d < 2)

/-- TLBINV: an outgoing edge, then the broadcast; the group waits for the acknowledgements. -/
def effTlbinv (x : Ext) (c : Cx) (s : State) : Res :=
  c.unprivileged x.p <|
    let s := c.outgoing s
    let (e, s) := s.openEdge c.g.id c.g.horizon
    let (id, s) := s.fresh
    let kind : OpKind := .tlbinv (sysOp x) (if 1 ≤ sysOp x then (c.plain x .A false .int 0).toNat % 2 ^ 16 else 0)
      (if sysOp x = 2 then (c.plain x .B true .int 0).toNat else 0) e s.basesUp []
    .stall { s with ops := s.ops ++ [c.opOf s id 4 0 kind] } (.engine id)

/-- Does a cached entry match an invalidation? -/
def TlbEntry.matched (e : TlbEntry) (mode asid va : Nat) : Bool :=
  match mode with
  | 0 => true
  | 1 => e.asid == asid
  | _ => e.asid == asid && e.va == va / 2 ^ levelShift e.level

/-- A sub-group held by an engine operation goes on past its instruction of three words. -/
def State.releaseEngine (s : State) (o : Op) : State :=
  ((s.dropOp o.id).modSub { grp := o.grp, sub := o.sub } fun u => { u with phase := .running }).advance { grp := o.grp, sub := o.sub } 3

/-- The sub-group that an interlocked operation holds: its number may have changed since (R380). -/
def State.heldBy (s : State) (id : Nat) : Option SubRef :=
  s.groups.findSome? fun g => (g.subs.find? fun u => decide (u.phase = .engine id)).map fun u => { grp := g.id, sub := u.num }

/-- TLBINV_DIE_INVALIDATE (R286): once every earlier write of the group is performed, a die drops what matches and answers. -/
def execTlbinvDieInvalidate (s : State) : Out :=
  match s.arg with
  | .pair id die => match s.op? id with
    | some o => match o.kind with
      | .tlbinv mode asid va e todo acks =>
        let quiet := match s.edges.find? fun k => k.id == e with
          | some k => k.pend.isEmpty
          | none => true
        if todo.contains die && quiet then
          .next ({ s.tick with tlb := s.tlb.filter fun t => !(dieOf t.core == die && t.matched mode asid va) }.modOp id fun o =>
            { o with kind := .tlbinv mode asid va e (todo.filter (· ≠ die)) (acks ++ [die]) })
        else notNow "TLBINV_DIE_INVALIDATE"
      | _ => notNow "TLBINV_DIE_INVALIDATE"
    | none => notNow "TLBINV_DIE_INVALIDATE"
  | _ => notNow "TLBINV_DIE_INVALIDATE"

/-- TLBINV_ACKNOWLEDGEMENT (R286): with the last one the TLBINV completes. -/
def execTlbinvAcknowledgement (s : State) : Out :=
  match s.arg with
  | .pair id die => match s.op? id with
    | some o => match o.kind with
      | .tlbinv mode asid va e todo acks =>
        if acks.contains die then
          let acks := acks.filter (· ≠ die)
          let s := s.tick.modOp id fun o => { o with kind := .tlbinv mode asid va e todo acks }
          if todo.isEmpty && acks.isEmpty then
            .next ({ s with edges := s.edges.filter fun k => k.id ≠ e }.releaseEngine
              { o with sub := ((s.heldBy id).map fun (r : SubRef) => r.sub).getD o.sub })
          else .next s
        else notNow "TLBINV_ACKNOWLEDGEMENT"
      | _ => notNow "TLBINV_ACKNOWLEDGEMENT"
    | none => notNow "TLBINV_ACKNOWLEDGEMENT"
  | _ => notNow "TLBINV_ACKNOWLEDGEMENT"

/-! ### QSYNC (R287, R288) -/

/-- The stamp of an operation in flight; an engine operation whose accesses have not been translated yet has none (R287; log 12). -/
def Op.stamped (o : Op) : Option Nat :=
  match o.kind with
  | .qsync _ _ | .tlbinv _ _ _ _ _ _ => none
  | .copy w => if w.moves.isNone then none else some o.stamp
  | .matrix w => if w.stage = 0 then none else some o.stamp
  | _ => some o.stamp

/-- QC: nothing stamped below it is in flight, staged writes included; it never passes QI (log 12). -/
def State.qc (s : State) : Nat :=
  let stamps := s.ops.filterMap Op.stamped ++ (s.l1.filter fun x => !x.dirty.isEmpty).map (fun x => x.stamp) ++
    s.writes.map (fun w => w.stamp) ++ s.staged.map fun w => w.stamp
  stamps.foldl (fun n k => min n k) s.qi

/-- Bytes of a frame of a size code (R279, R285). -/
def sizeOf' (sz : Nat) : Nat := 2 ^ levelShift sz

/-- One entry of the quarantine queue, or the answer that there is none (R288). -/
def State.putQuarantine (s : State) (f sz : Nat) : Nat × State :=
  if 3 < sz ∨ f % sizeOf' sz ≠ 0 then (2, s)
  else if 4096 ≤ s.quarantine.length then (1, s)
  else (0, { s with qi := (s.qi + 1) % 2 ^ 64, quarantine := s.quarantine ++ [(f, sz, (s.qi + 1) % 2 ^ 64)] })

/-- QSYNC.wait. -/
def effQsyncWait (x : Ext) (c : Cx) (s : State) : Res :=
  c.unprivileged x.p <|
    let n := (s.qi + 1) % 2 ^ 64
    let (id, s) := s.fresh
    .stall { s with qi := n, ops := s.ops ++ [c.opOf s id 4 0 (.qsync n x.d)] } (.engine id)
/-- QSYNC.put. -/
def effQsyncPut (x : Ext) (c : Cx) (s : State) : Res :=
  c.unprivileged x.p <|
    let (d, s) := s.putQuarantine (c.plain x .A true .int 0).toNat (c.plain x .B false .int 0).toNat
    .done (c.writeQuiet s x.d false (fun _ => w32 d) x.p)
/-- QSYNC.take: forwarding of a page's source frames ends as they leave the queue (R290). -/
def effQsyncTake (x : Ext) (c : Cx) (s : State) : Res :=
  c.unprivileged x.p <|
    match s.quarantine with
    | (f, sz, n) :: rest =>
      if n ≤ s.qc then
        let s : State := { s with
          quarantine := rest
          forward := s.forward.filter fun k => !(decide (f / 64 ≤ k.1) && decide (k.1 < (f + sizeOf' sz) / 64)) }
        .done (c.writeQuiet s x.d true (fun _ => BitVec.ofNat 64 (f + sz)) x.p)
      else .done (c.writeQuiet s x.d true (fun _ => 0) x.p)
    | [] => .done (c.writeQuiet s x.d true (fun _ => 0) x.p)

/-- QSYNC_WAIT_COMPLETE (R288): the sub-group that State.arg names waits for QC to reach its n. -/
def execQsyncWaitComplete (s : State) : Out :=
  match s.argSub with
  | some (_, u, r) => match u.phase with
    | .engine id => match s.op? id with
      | some o => match o.kind with
        | .qsync n d =>
          if n ≤ s.qc then
            let s := (s.tick.modSub r fun u => { u with phase := .running }).dropOp id
            let s := match operandOf d with
              | .ureg k => s.modSub r fun u => u.putUregs k true (BitVec.ofNat 64 n)
              | _ => s
            .next (s.advance r 3)
          else notNow "QSYNC_WAIT_COMPLETE"
        | _ => notNow "QSYNC_WAIT_COMPLETE"
      | none => notNow "QSYNC_WAIT_COMPLETE"
    | _ => notNow "QSYNC_WAIT_COMPLETE"
  | none => notNow "QSYNC_WAIT_COMPLETE"

/-! ### MIGR (R289 to R291) -/

/-- MIGR: an outgoing edge; its status register is written at completion, and read as it was before then (R105). -/
def effMigr (x : Ext) (move : Bool) (c : Cx) (s : State) : Res :=
  c.unprivileged x.p <|
    if c.full 2 then .stall s (.counterStall 2)
    else
      let dest := match operandOf x.d with
        | .ureg n => some n
        | _ => none
      let (id, s) := (c.outgoing s).fresh
      let s := s.newOp (c.opOf s id 2 0 (.migr move (if move then (c.plain x .A false .int 0).toNat else 0)
        (c.plain x .B true .int 0).toNat (c.plain x .C move .int 0).toNat dest none))
      .done (s.modSub c.r fun u => { u with
        ulate := match dest with | some n => u.ulate.put n (id + 1) | none => u.ulate })

/-- Completion of a MIGR with a status. -/
def State.migrDone (s : State) (o : Op) (dest : Option Nat) (status : Nat) : State :=
  let s := match dest with
    | some n => s.modGroup o.grp fun g => g.deliverLate o.id n (BitVec.ofNat 32 status)
    | none => s
  s.complete o.id

/-- The leaf that a move works on: the walk, made for no core. -/
def State.migrLeaf (s : State) (asid va : Nat) : Option Leaf :=
  if 2 ^ 57 ≤ va then none
  else match (s.walk none asid va 0).1 with
    | .leaf l => some l
    | .fails _ _ _ => none

/-- Bytes that a leaf's page covers. -/
def Leaf.span (l : Leaf) : Nat := (if l.mr then 8 else 1) * 2 ^ levelShift l.level

/-- The status codes that turn a move away. -/
def State.migrRefuses (s : State) (l : Leaf) (pl dest : Nat) : List Nat :=
  failIf (decide (dest % 2 ^ levelShift l.level ≠ 0) || decide (2 ^ 52 ≤ dest) || (pl != 3 && !s.frameOk pl dest l.span) ||
    (decide (dest < l.frame + l.span) && decide (l.frame < dest + l.span))) 2 ++
  failIf (l.pl == 3 || pl == 3) 3 ++ failIf l.mg 5

/-- The page that a move works on, as its leaf stood before MG was set (R290). -/
def MovingLeaf.level (l : MovingLeaf) : Nat := bits l.w1 3 2
def MovingLeaf.mr (l : MovingLeaf) : Bool := bitAt l.w0 6
def MovingLeaf.frame (l : MovingLeaf) : Nat := bits l.w0 51 9 * 2 ^ 9
def MovingLeaf.span (l : MovingLeaf) : Nat := (if l.mr then 8 else 1) * 2 ^ levelShift l.level

/-- Write the two words of a leaf once, at its home. -/
def State.writeLeaf (s : State) (slot die : Nat) (w0 w1 : Dword) : State :=
  s.writeHome die [] ((leBytes 8 w0.toNat ++ leBytes 8 w1.toNat).zipIdx.map fun (b, i) => (slot + i, b))

/-- The migration engine that serves a move (R289). -/
def engineDie (a b : Nat) : Nat := if [5, 8].contains (a / 2 ^ 44) || [5, 8].contains (b / 2 ^ 44) then 4 else 5

/-- Copy one line to another with its marks: a poisoned source arrives poisoned (R284, R290), a failing one is reported (R39). -/
def State.copyLine (s : State) (src dst : Nat) : State :=
  let m := s.markOf (s.fwd src)
  let b := s.lineAt src
  let s := s.foundFailing (s.fwd src)
  let s : State := { s with forward := s.forward.filter fun k => k.1 ≠ dst }
  let s := s.putBytes (b.zipIdx.map fun (b, i) => (64 * dst + i, b))
  { s with
    lineMarks := s.lineMarks.set LineMark.none dst { poison := if m.poison ≠ 0 then 2 else 0, failing := m.failing, reported := false }
    guests := s.guests.filter fun g => g.line ≠ dst && g.line ≠ src }

/-- The lines of a page, moved; every access to a source line is served at its destination from now on, those of caches and on their way
among them, so that a unit of the page keeps one order of its writes (R98, R99, R290). What L1s hold of the destination leaves them. -/
def State.movePage (s : State) (src dst n : Nat) : State :=
  let lines := n / 64
  let s := s.l1.foldl (fun s x => if dst / 64 ≤ x.line ∧ x.line < dst / 64 + lines then (s.flushLine x).dropL1 x.core x.line else s) s
  let s := (List.range lines).foldl (fun s i => s.copyLine (src / 64 + i) (dst / 64 + i)) s
  let shift := fun v => if src / 64 ≤ v ∧ v < src / 64 + lines then v - src / 64 + dst / 64 else v
  let old := s.forward.map fun k => (k.1, shift k.2)
  { s with
    forward := ((List.range lines).foldl (fun (f : SMap Nat) i => f.put (src / 64 + i) (dst / 64 + i)) old).filter fun k => k.1 ≠ k.2
    l1 := s.l1.map fun x => { x with line := shift x.line }
    writes := s.writes.map fun w => { w with line := shift w.line }
    staged := s.staged.map fun w => { w with line := shift w.line } }

/-- Frames of a page in the quarantine queue; whether all went in. -/
def State.putFrames (s : State) (frame size sz : Nat) : Nat → Bool × State
  | 0 => (true, s)
  | n + 1 =>
    let r := s.putQuarantine frame sz
    let q := r.2.putFrames (frame + size) size sz n
    (q.1 && r.1 == 0, q.2)

/-- Steps 2 to 6 of R290; the leaf is written whole from what the engine read of it in step 1. -/
def State.migrFinish (s : State) (o : Op) (l : MovingLeaf) (asid va pl dest : Nat) (reg : Option Nat) : State :=
  let bad := (List.range (l.span / 64)).any fun i => decide ((s.markOf (s.fwd (l.frame / 64 + i))).poison ≠ 0)
  let s := s.movePage l.frame dest l.span
  let w0' := BitVec.ofNat 64 (bits l.w0 63 52 * 2 ^ 52 + bits dest_ 51 9 * 2 ^ 9 + bits l.w0 8 0)
  let w1' := BitVec.ofNat 64 (bits l.w1 63 5 * 2 ^ 5 + bits l.w1 3 2 * 2 ^ 2 + pl)
  let s := s.writeLeaf l.slot (engineDie l.frame dest) w0' w1'
  let s : State := { s with tlb := s.tlb.filter fun t => !t.matched 2 asid va }
  let r := s.putFrames l.frame (2 ^ levelShift l.level) l.level (if l.mr then 8 else 1)
  r.2.migrDone o reg (match bad, r.1 with
    | false, true => 0
    | true, true => 4
    | false, false => 6
    | true, false => if Config.choice s.stamp 2 % 2 = 0 then 4 else 6)
where dest_ : BitVec 64 := BitVec.ofNat 64 dest

/-- MIGR.scrub (R291): full-line zeros; the marks go. -/
def State.scrub (s : State) (frame n : Nat) : State :=
  (List.range (n / 64)).foldl (fun s i =>
    let line := s.fwd (frame / 64 + i)
    let s := s.mergeHome line 5 ((List.range 64).map fun j => (j, 0)) false
    { s with guests := s.guests.filter fun g => g.line ≠ line }) s

/-- MIGR_COMPLETE (R290, R291): for a move, its start, which sets MG or ends it with a status, and then its end; a scrub at once. -/
def execMigrComplete (s : State) : Out :=
  match s.arg with
  | .num id => match s.op? id with
    | some o => match o.kind with
      | .migr true a va dest reg leaf =>
        let asid := a % 2 ^ 16
        let pl := a / 2 ^ 16 % 4
        let t := s.tick
        (match leaf, s.migrLeaf asid va with
          | some l, _ => .next (t.migrFinish o l asid va pl dest reg)
          | none, none => .next (t.migrDone o reg 1)
          | none, some l => match s.migrRefuses l pl dest with
            | [] =>
              let (w0, w1) := s.entryAt l.slot
              .next ((t.writeLeaf l.slot (engineDie l.frame dest) w0 (w1 ||| 0x10)).modOp id fun o =>
                { o with kind := .migr true a va dest reg (some { slot := l.slot, w0 := w0, w1 := w1 }) })
            | ds => .next (t.migrDone o reg (pickDetail s.stamp ds)))
      | .migr false _ frame sz reg _ =>
        if 3 < sz || decide (frame % sizeOf' sz ≠ 0) || decide (2 ^ 52 ≤ frame) || (s.home frame).isNone ||
            (s.home (frame + sizeOf' sz - 1)).isNone then .next (s.tick.migrDone o reg 7)
        else .next ((s.tick.scrub frame (sizeOf' sz)).migrDone o reg 0)
      | _ => notNow "MIGR_COMPLETE"
    | none => notNow "MIGR_COMPLETE"
  | _ => notNow "MIGR_COMPLETE"

/-! ### PGQRY (R294) -/

/-- .xlat: a valid translation of a byte, or 0. -/
def State.queryXlat (s : State) (core asid va member : Nat) : Nat :=
  if 2 ^ 57 ≤ va then 0
  else match (s.walk (some core) (asid % 2 ^ 16) va member).1 with
    | .fails _ _ _ => 0
    | .leaf l => 2 ^ 63 + l.level * 2 ^ 61 + l.pl * 2 ^ 59 + bit l.psn 58 + bit l.msa 57 + bit l.mr 56 + bit l.prv 55 + bit l.ex 54 +
        bit l.wr 53 + bit l.rd 52 + l.pa % 2 ^ 52

/-- .line. -/
def State.queryLine (s : State) (pa : Nat) : Nat :=
  match s.home pa with
  | none => 0
  | some (d, o) =>
    let m := s.markOf (s.fwd (pa / 64))
    d + (if d < 4 then sliceOf o else 0) * 2 ^ 3 + bit (decide (m.poison ≠ 0)) 9 + bit m.failing 10 + bit (decide (2 ≤ s.dieCode d)) 11

/-- Channels of a near die in service. -/
def State.channelsUp (s : State) (d : Nat) : Nat :=
  64 - (s.mapped.filter fun k => k / 64 == d).length - (s.lost.filter fun k => k / 64 == d).length

/-- .units. -/
def State.queryUnits (s : State) (d : Nat) : Nat :=
  let code := s.dieCode d
  if d < 4 then
    let cores := s.cores.filter fun c => dieOf c == d
    let clusters := (List.range 10).filter fun k => cores.any fun c => clusterOf c == 10 * d + k
    let up := if code < 2 then s.channelsUp d else 0
    cores.length + clusters.length * 2 ^ 8 + up * 2 ^ 16 + code * 2 ^ 24 + 2 * up * 2 ^ 32
  else code * 2 ^ 24 + (if code < 2 then s.capacity d else 0) * 2 ^ 32

/-- .qstate. -/
def State.queryQstate (s : State) (a : Nat) : Nat :=
  match a with
  | 0 => s.qi
  | 1 => s.qc
  | 2 => s.quarantine.length
  | _ => (s.quarantine.filter fun e => decide (e.2.2 ≤ s.qc)).length

def effPgqry (x : Ext) (c : Cx) (s : State) : Res :=
  let uni := isUni x.d
  let a := fun t => (c.plain x .A false .int t).toNat
  let limit := match sysOp x with | 2 => 5 | 3 => 3 | _ => 2 ^ 32
  -- the illegal instruction ranks above the privileged one (R134)
  if (if uni then [0] else c.threads x.p).any fun t => decide (limit < a t) then .fault { cause := 0x01, detail := 16 }
  else c.unprivileged x.p <|
    .done (c.writeQuiet s x.d true (fun t => BitVec.ofNat 64 (match sysOp x with
      | 0 => s.queryXlat c.g.core (a t) (c.plain x .B true .int t).toNat (if uni then 0 else t / 32)
      | 1 => s.queryLine (c.plain x .B true .int t).toNat
      | 2 => s.queryUnits (a t)
      | _ => s.queryQstate (a t))) x.p)

/-! ### Meanings -/

/-- TLBINV (R286). -/
def execTlbinv (x : Ext) (s : State) : Out := s.issueMem x.words x (formTlbinv x) [] (fun _ => []) (effTlbinv x)
/-- QSYNC.wait (R288). -/
def execQsyncWait (x : Ext) (s : State) : Out := s.issueMem x.words x (formQsync x) [] (fun _ => []) (effQsyncWait x)
/-- QSYNC.put (R288). -/
def execQsyncPut (x : Ext) (s : State) : Out := s.issueMem x.words x (formQsync x) [] (fun _ => []) (effQsyncPut x)
/-- QSYNC.take (R288). -/
def execQsyncTake (x : Ext) (s : State) : Out := s.issueMem x.words x (formQsync x) [] (fun _ => []) (effQsyncTake x)
/-- MIGR.move (R290). -/
def execMigrMove (x : Ext) (s : State) : Out := s.issueMem x.words x (formMigr x) [] (fun _ => []) (effMigr x true)
/-- MIGR.scrub (R291). -/
def execMigrScrub (x : Ext) (s : State) : Out := s.issueMem x.words x (formMigr x) [] (fun _ => []) (effMigr x false)
/-- PGQRY (R294). -/
def execPgqry (x : Ext) (s : State) : Out := s.issueMem x.words x (formPgqry x) [] (fun _ => []) (effPgqry x)

end Machine
end Sys2Proof
end

