-- ==== Sys2Proof/Machine/Tiles.lean ====
section
/-! DEFINITION. The record form (R60 02_encoding.md), and the pool, its tiles and the tile table (R296 to R303 13_copy.md). -/

namespace Sys2Proof
namespace Machine

/-! ### Record form (R60) -/

/-- The rows of R78 that fail in a record form itself: word 2, the guard, the markers. -/
def recFails (x : Rec) : List Nat :=
  failIf (decide (bits x.w2 27 0 ≠ 0)) 3 ++ failIf (x.p == 8) 6 ++
  (List.range 4).flatMap fun k =>
    failIf (x.marked k && (decide (bits (x.word k) 31 8 ≠ 0) || decide (160 ≤ bits (x.word k) 7 0))) 13

/-- The uniform register that a marker names. -/
def recMarker (x : Rec) (k : Nat) : Nat := bits (x.word k) 7 0

/-- What fails against the launch and the run. -/
def recDyn (c : Cx) (x : Rec) : List Nat :=
  ((List.range 4).flatMap fun k => failIf (x.marked k && decide (c.l.uregs ≤ recMarker x k)) 13) ++ failIf (decide (24 ≤ c.u.ndone)) 15

/-- Record word k after substitution. -/
def Cx.recWord (c : Cx) (x : Rec) (k : Nat) : Nat :=
  if x.marked k then (c.u.ureg (recMarker x k)).toNat else (x.word k).toNat

/-- A field of a record word. -/
def recField (v hi lo : Nat) : Nat := v / 2 ^ lo % 2 ^ (hi + 1 - lo)

/-- A 57-bit address in record words j and j + 1. -/
def Cx.recAddr (c : Cx) (x : Rec) (j : Nat) : Nat := c.recWord x j + recField (c.recWord x (j + 1)) 24 0 * 2 ^ 32

/-- A source field that admits a uniform register or an inline constant. -/
def recSrcFails (code : BitVec 9) : List Nat :=
  match operandOf code with
  | .ureg _ | .const _ => []
  | _ => [8]
def Cx.recVal (c : Cx) (code : BitVec 9) : Nat := (c.ownVal code false .int none 0).toNat

/-- Uniform registers that a record form reads: its markers and some codes, pairs if `wide`. -/
def recUses (x : Rec) (codes : List (BitVec 9)) (wide : Bool := false) : List RegUse :=
  ((List.range 4).filterMap fun k => if x.marked k then some { code := BitVec.ofNat 9 (0x100 + recMarker x k), mod := 0, regs := 1 } else none) ++
  codes.map fun code => { code := code, mod := 0, regs := if wide then 2 else 1 }

/-- Issue of a record form of seven words on a counter. `codes` are its uniform sources, pairs if `wide`; `mark` a fault of the vector
registers that it reads, `reads` those registers. -/
def State.issueRec (s : State) (x : Rec) (counter : Nat) (codes : List (BitVec 9)) (fails : Cx → List Nat)
    (mark : Cx → Option TrapReq) (eff : Cx → State → Res) (wide : Bool := false)
    (reads : Cx → List RegUse := fun _ => []) : Out :=
  s.issue 7 (fun c => recFails x ++ codes.flatMap recSrcFails ++ recDyn c x ++ codes.flatMap (fun k => srcDyn c false k wide) ++ fails c)
    (fun c => lowerMark (c.markFault (recUses x codes wide) (c.threads x.p) true) (mark c))
    (fun c s =>
      if c.uniHeld (recUses x codes wide) || c.awaitHeld (reads c) || c.u.observing.isSome then .hold
      else if c.full counter then .stall s (.counterStall counter)
      else eff c s)

/-- One of several causes and DETAILs that fail together (log 8). -/
def pickFault (stamp : Nat) : List (Nat × Nat) → Option (Nat × Nat)
  | [] => none
  | [f] => some f
  | f :: rest => some ((f :: rest).getD (Config.whichDetail stamp % (rest.length + 1)) f)

/-! ### Tiles (R297, R298) -/

/-- The column of R298 that an operation finds at issue. -/
inductive TileAnswer where
  | go (t : Tile)
  | stall
  | bad (detail : Nat)
deriving DecidableEq, Repr

def Tile.issue (t : Tile) (role : TileRole) : TileAnswer :=
  match t.defined, role, t.state with
  | false, .define, _ => .go t
  | false, _, _ => .bad 1
  | true, .fill, 0 => .go { t with state := 1, pf := 1 }
  | true, .fill, 1 => .go { t with pf := t.pf + 1 }
  | true, .fill, 2 => if t.rc = 0 then .go { t with state := 1, pf := 1 } else .stall
  | true, .fill, _ => .stall
  | true, .reader, 0 => .bad 2
  | true, .reader, 1 => .stall
  | true, .reader, 2 => .go { t with rc := t.rc + 1 }
  | true, .reader, _ => .bad 3
  | true, .drain, 0 => .bad 2
  | true, .drain, 1 => .stall
  | true, .drain, 2 => if t.rc = 0 then .go { t with state := 3 } else .stall
  | true, .drain, _ => .stall
  | true, .define, 0 => .go t
  | true, .define, 2 => if t.rc = 0 then .go t else .stall
  | true, .define, _ => .stall

/-- Tile k of the issuing group's core. -/
def Cx.tile (c : Cx) (s : State) (k : Nat) : Tile := s.tile c.l.id c.g.block c.g.core k
def Cx.tileUse (c : Cx) (k : Nat) (role : TileRole) : TileUse := ⟨c.l.id, c.g.block, c.g.core, k, role⟩

/-- A tile that an operation is about to use: its number, the role, and the bits that it names in a part, from bit `first`. -/
structure TileWant where
  k : Nat
  role : TileRole
  first : Nat
  bits : Nat
deriving DecidableEq, Repr

/-- The DETAILs of cause 0x10 that a use meets (R299); the region is checked where the row of R298 acts. -/
def Cx.tileFails (c : Cx) (s : State) (w : TileWant) : List Nat :=
  match (c.tile s w.k).issue w.role with
  | .bad d => [d]
  | .stall => []
  | .go t => failIf (decide (t.sz * 512 < w.first + w.bits)) 5

/-- The first tile that stalls. -/
def Cx.tileStalls (c : Cx) (s : State) (ws : List TileWant) : Option (Nat × TileRole) :=
  ws.findSome? fun w => match (c.tile s w.k).issue w.role with
    | .stall => some (w.k, w.role)
    | _ => none

/-- The transitions at issue. -/
def Cx.tileIssue (c : Cx) (s : State) (ws : List TileWant) : State :=
  ws.foldl (fun s w => s.modTile c.l.id c.g.block c.g.core w.k fun t => match t.issue w.role with
    | .go t => t
    | _ => t) s

/-! ### Pool bytes -/

/-- The key of a pool byte of a block's core. -/
def Block.poolKey (b : Block) (core off : Nat) : Nat := 2 ^ 20 * b.corePos core + off
/-- The byte offset of member m's part of a tile. -/
def Tile.part (t : Tile) (m : Nat) : Nat := 64 * t.bs + if t.pm then 64 * t.sz * m else 0

/-- The number in `w` bits of the pool from bit `first`. -/
def State.poolBits (s : State) (launch block core first w : Nat) : Nat :=
  match s.block? launch block with
  | some b =>
    let n := (first % 8 + w + 7) / 8
    leNat ((List.range n).map fun i => SMap.get 0 b.pool (b.poolKey core (first / 8 + i))) / 2 ^ (first % 8) % 2 ^ w
  | none => 0

/-- The mark of a number in the pool, some byte of which is lost (R40; log 52). -/
def State.poolMark (s : State) (launch block core first w : Nat) : Option Mark :=
  match s.block? launch block with
  | some b => if (List.range ((first % 8 + w + 7) / 8)).any fun i => b.struck.contains (b.poolKey core (first / 8 + i)) then
      some { cause := 7, detail := 128, addr := 0 } else none
  | none => none

/-- Lay the bits [first, first + w) of a number, which holds them from bit `first` mod 8, over byte i of those it touches. -/
def laidByte (old : Byte) (first w v i : Nat) : Byte :=
  let sh := first % 8
  let mask := (2 ^ w - 1) * 2 ^ sh / 2 ^ (8 * i) % 256
  let new := v % 2 ^ w * 2 ^ sh / 2 ^ (8 * i) % 256
  BitVec.ofNat 8 ((old.toNat &&& (255 - mask)) ||| new)

/-- Write `w` bits of a block's pool; the bytes written are sound again. -/
def Block.putPool (b : Block) (core first w v : Nat) : Block :=
  { b with
    struck := b.struck.filter fun k => !((List.range ((first % 8 + w + 7) / 8)).any fun i => k == b.poolKey core (first / 8 + i))
    pool := (List.range ((first % 8 + w + 7) / 8)).foldl (fun p i =>
      let k := b.poolKey core (first / 8 + i)
      SMap.set 0 p k (laidByte (SMap.get 0 p k) first w v i)) b.pool }

/-! ### TILEDEF, TILEQ, TILEREL (R301 to R303) -/

def tileOf (x : Ext) : Nat := x.subBits 3 0
def tdBs (x : Ext) : Nat := bits x.w2 27 16
def tdSz (x : Ext) : Nat := bits x.w2 11 0

/-- TILEDEF: NEG and ABS are bits of SZ. -/
def formTiledef (x : Ext) : Form :=
  { own1 := 0x1F, own2 := 0x0FFF0FFF, neg := true, guard := false,
    own := failIf (tdSz x == 0 || decide (3072 < tdSz x) || decide (3071 < tdBs x)) 16 }
def formTileq (x : Ext) : Form := formRead x false true 0xF []
def formTilerel : Form := { own1 := 0xF, guard := false }

/-- Does a defined tile of M members cover a byte of [lo, hi)? -/
def Tile.covers (t : Tile) (m lo hi : Nat) : Bool :=
  t.defined && decide (lo < 64 * (t.bs + t.sz * if t.pm then m else 1)) && decide (64 * t.bs < hi)

/-- TILEDEF (R302). -/
def effTiledef (x : Ext) (c : Cx) (s : State) : Res :=
  let k := tileOf x
  match (c.tile s k).issue .define with
  | .stall => .stall s (.tileStall k .define)
  | .bad d => .fault { cause := 0x10, detail := d, msk := c.threads x.p }
  | .go _ =>
    let lo := 64 * tdBs x
    let hi := 64 * (tdBs x + tdSz x * if x.bit1 4 then c.g.m else 1)
    let share := if c.g.spawned then 0 else c.l.poolShare
    if share < hi || (List.range 16).any fun j => j != k && (c.tile s j).covers c.g.m lo hi then
      .fault { cause := 0x10, detail := 4, msk := c.threads x.p }
    else
      let s := s.modTile c.l.id c.g.block c.g.core k fun _ =>
        { defined := true, pm := x.bit1 4, bs := tdBs x, sz := tdSz x, state := 0, pf := 0, rc := 0 }
      .done (s.modBlock c.l.id c.g.block fun b =>
        { b with
          pool := b.pool.filter fun e => !(decide (b.poolKey c.g.core lo ≤ e.1) && decide (e.1 < b.poolKey c.g.core hi))
          struck := b.struck.filter fun k => !(decide (b.poolKey c.g.core lo ≤ k) && decide (k < b.poolKey c.g.core hi)) })

/-- The value of TILEQ (R303). -/
def Tile.word (t : Tile) : Nat :=
  if t.defined then t.state + 1 + bit t.pm 3 + min t.pf 63 * 2 ^ 4 + min t.rc 63 * 2 ^ 10 + t.sz * 2 ^ 16 else 0

def effTileq (x : Ext) (c : Cx) (s : State) : Res := c.result s x false fun _ => (w32 (c.tile s (tileOf x)).word, 0)

/-- TILEREL (R302): the bytes stay. -/
def effTilerel (x : Ext) (c : Cx) (s : State) : Res :=
  let k := tileOf x
  match (c.tile s k).issue .define with
  | .stall => .stall s (.tileStall k .define)
  | _ => .done (s.modTile c.l.id c.g.block c.g.core k fun _ => Tile.undefined)

/-- TILEDEF (R302). -/
def execTiledef (x : Ext) (s : State) : Out := s.issueMem x.words x (formTiledef x) [] (fun _ => []) (effTiledef x)
/-- TILEQ (R303). -/
def execTileq (x : Ext) (s : State) : Out := s.issueMem x.words x (formTileq x) [] (fun _ => []) (effTileq x)
/-- TILEREL (R302). -/
def execTilerel (x : Ext) (s : State) : Out := s.issueMem x.words x formTilerel [] (fun _ => []) (effTilerel x)

/-- TILE_STALL_RELEASE (R298): the tile has come to a state in which the row no longer stalls. -/
def execTileStallRelease (s : State) : Out :=
  match s.argSub with
  | some (g, u, r) => match u.phase with
    | .tileStall k role => match (s.tile g.launch g.block g.core k).issue role with
      | .stall => notNow "TILE_STALL_RELEASE"
      | _ => .next (s.tick.modSub r fun u => { u with phase := .running })
    | _ => notNow "TILE_STALL_RELEASE"
  | none => notNow "TILE_STALL_RELEASE"

end Machine
end Sys2Proof
end

