-- ==== Sys2Proof/Machine/Copy.lean ====
section
/-! DEFINITION. Copy engine (R304 to R317 13_copy.md): TCOPY, TILEDRN, HCOPY, TFILL, and their completion. -/

namespace Sys2Proof
namespace Machine

/-! ### Types (R310) -/

def copyInts : List DType := [.i4, .n4, .i8, .n8, .i16, .n16, .i32, .n32, .i64, .n64]

/-- Is the pair accepted? -/
def pairOk (ts td : DType) : Bool :=
  ts == td || (ts.isFloat && (td.isFloat || copyInts.contains td || td == .t2 || td == .c8)) ||
  (copyInts.contains ts && (td.isFloat || copyInts.contains td || td == .t2)) ||
  (ts == .t2 && (td.isFloat || copyInts.contains td)) || (ts == .c8 && td.isFloat)

/-- Does the pair take a rounding mode? -/
def pairRounds (ts td : DType) : Bool :=
  ts != td && ((ts.isFloat && td != .c8) || (copyInts.contains ts && td.isFloat) || ts == .c8)

def pairFails (tcode tcode2 rnd : Nat) : List Nat :=
  match DType.ofCode tcode, DType.ofCode tcode2 with
  | some td, some ts => failIf (!pairOk ts td) 4 ++ failIf (decide (6 ≤ rnd) || (!pairRounds ts td && decide (rnd ≠ 0))) 5
  | _, _ => 4 :: failIf (decide (6 ≤ rnd)) 5

/-- One element converted: its bits and the flags. -/
def convert (l : Launch) (ts td : DType) (mode : Rnd) (fzi fzo : Bool) (v : Nat) : Nat × Flags :=
  let f := fmtOf td
  if ts = td then (v, 0)
  else if ts.isFloat then
    let x := unpack (fmtOf ts) v
    if td.isFloat then toFloat f mode fzo (flushIn fzi f x)
    else if td = .c8 then let r := compressU l (flushIn fzi (fmtOf ts) x); ((r.1 + 128) % 256, r.2)
    else let r := fltToInt td mode (flushIn fzi (fmtOf ts) x); (lo r.1 td.width, r.2)
  else if ts = .c8 then toFloat f mode fzo (flushIn fzi f (expandU l ((v + 128) % 256)))
  else
    let i : Int × Flags := if ts = .t2 then ternaryOf v else (intTy ts v, 0)
    if td.isFloat then let r := toFloat f mode fzo (Ex.ofInt i.1); (r.1, r.2 ||| i.2)
    else if td = .t2 then (lo (if i.1 < 0 then -1 else if 0 < i.1 then 1 else 0) 2, i.2)
    else (lo (clampTo td i.1) td.width, i.2)

/-- A narrow element in a register (R197). -/
def widen (t : DType) (v : Nat) : Nat :=
  if t.width < 32 ∧ (t.signed = true ∨ t = .t2 ∨ t = .c8) then lo (intOf true t.width v) 32 else v

/-! ### Elements (R307, R316) -/

/-- Σ i_k x stride_k over dimensions from 1 on. -/
def outerOffset : List (Nat × Int) → Nat → Int
  | [], _ => 0
  | (n, st) :: rest, e => ((e % n : Nat) : Int) * st + outerOffset rest (e / n)

/-- The bit where element e starts at memory. -/
def elementBit (base w : Nat) (dims : List (Nat × Int)) (e : Nat) : Int :=
  match dims with
  | [] => 8 * (base : Int)
  | (n, _) :: rest => 8 * (base : Int) + ((e % n * w : Nat) : Int) + 8 * outerOffset rest (e / n)

def elementCount (dims : List (Nat × Int)) : Nat := dims.foldl (fun n d => n * d.1) 1

/-- bnd of R316: a coordinate, or none for the constant. -/
def boundary (i : Int) (n mode : Nat) : Option Nat :=
  if 0 ≤ i ∧ i < n then some i.toNat
  else match mode with
    | 0 => some (i % (n : Int)).toNat
    | 1 => some (min (max i 0) ((n : Int) - 1)).toNat
    | 2 => none
    | _ => let j := (i % (2 * (n : Int))).toNat
      some (if j < n then j else 2 * n - 1 - j)

/-- One element before translation: its first byte, none where a boundary rule supplies it, and its bit in that byte. -/
def fieldElement (base stride x0 y0 h nx ny tx bx byy w e : Nat) : Option Int :=
  let cols := tx + 2 * h
  match boundary ((x0 : Int) - h + (e % cols : Nat)) nx bx, boundary ((y0 : Int) - h + (e / cols : Nat)) ny byy with
  | some x, some y => some (8 * ((base : Int) + (y * stride : Nat)) + (x * w : Nat))
  | _, _ => none

/-! ### Endpoints (R304) -/

def copyEnd (code : BitVec 9) : Option CopyEnd :=
  let n := code.toNat
  if n ≤ 0xEF then some (.reg n)
  else if 0x1E0 ≤ n ∧ n ≤ 0x1EF then some (.tile (n - 0x1E0) 0)
  else if n = 0x1FE then some .mem
  else none

def CopyEnd.isMem : CopyEnd → Bool
  | .mem => true
  | _ => false
def CopyEnd.reg? : CopyEnd → Option Nat
  | .reg n => some n
  | _ => none
def CopyEnd.tile? : CopyEnd → Option Nat
  | .tile k _ => some k
  | _ => none
def CopyEnd.at (e : CopyEnd) (off : Nat) : CopyEnd :=
  match e with
  | .tile k _ => .tile k off
  | e => e

/-- A register pair or single for one element. -/
def regsPer (t : DType) : Nat := if t.wide then 2 else 1

/-- Members with an active thread (R309). -/
def Cx.actingMembers (c : Cx) (p : BitVec 4) : List Nat :=
  (List.range c.g.m).filter fun m => (c.threads p).any fun t => t / 32 == m
/-- The transfers of an instance. -/
def Cx.transfers (c : Cx) (p : BitVec 4) (pm : Bool) : List Nat := if pm then c.actingMembers p else (c.actingMembers p).take 1

/-! ### Issue (R311, R313) -/

/-- Issue a copy: the faults that its values meet, its tiles, then the operation. `room` is what it stages under ordered
release. -/
def Cx.startCopy (c : Cx) (s : State) (p : BitVec 4) (bad : List (Nat × Nat)) (tiles : List TileWant) (room : Nat)
    (w : CopyWork) : Res :=
  -- an instance with no active thread changes no tile (R309)
  let tiles := if w.xfers.isEmpty then [] else tiles
  match pickFault s.stamp (bad ++ tiles.flatMap fun t => (c.tileFails s t).map fun d => (0x10, d)) with
  | some (cause, d) => .fault { cause := cause, detail := d, msk := c.threads p }
  | none => match c.tileStalls s tiles with
    | some (k, role) => .stall s (.tileStall k role)
    | none =>
      if c.stageFull s room then .hold
      else
        let (e, s) := (c.tileIssue (c.outgoing s) tiles).openEdge c.g.id c.g.horizon
        let (id, s) := s.fresh
        .done (s.newOp { c.opOf s id 2 0 (.copy w) with ends := tiles.map fun t => c.tileUse t.k t.role, edge := e })

/-! ### TCOPY and TILEDRN (R304 to R309, R314) -/

def tdOf (x : Rec) : DType := (DType.ofCode (x.sub % 32)).getD .b32
def tsOf (x : Rec) : DType := (DType.ofCode (x.sub / 32 % 32)).getD .b32
def recPm (x : Rec) : Bool := x.sub.testBit 10

/-- RANK, after substitution. -/
def Cx.rank (c : Cx) (x : Rec) : Nat := recField (c.recWord x 1) 28 25

def tcopyFails (x : Rec) (drain : Bool) (c : Cx) : List Nat :=
  let d := copyEnd x.d
  let a := copyEnd x.a
  let mem := (d.any CopyEnd.isMem) || (a.any CopyEnd.isMem)
  failIf (d.isNone || (drain && !d.any CopyEnd.isMem)) 7 ++
  failIf (a.isNone || (drain && !a.any fun e => e.tile?.isSome)) 8 ++
  failIf (!drain && ((d.any CopyEnd.isMem && a.any CopyEnd.isMem) || (d.any (fun e => e.tile?.isSome) && d == a))) 16 ++
  pairFails (x.sub % 32) (x.sub / 32 % 32) x.rnd ++
  -- a stride that is not used holds the constant 0 (R305)
  failIf ((!mem || decide (3 < c.rank x)) && x.b != 0x1B0) 8 ++
  failIf ((!mem || decide (c.rank x ≠ 3)) && x.c != 0x1B0) 8

/-- Extents of a rank up to 3, with the strides of the memory side. -/
def Cx.copyDims (c : Cx) (x : Rec) : List (Nat × Int) :=
  ([(recField (c.recWord x 2) 15 0 + 1, 0), (recField (c.recWord x 2) 31 16 + 1, intOf true 32 (c.recVal x.b)),
    (recField (c.recWord x 3) 15 0 + 1, intOf true 32 (c.recVal x.c))] : List (Nat × Int)).take (c.rank x)

/-- The values of a register source (R308): lane e mod 32 of the transfer's member, active or not. -/
def Cx.regValues (c : Cx) (n : Nat) (ts : DType) (count m : Nat) : List Nat :=
  (List.range count).map fun e =>
    let r := n + regsPer ts * (e / 32)
    let t := 32 * m + e % 32
    ((c.vread r t).1.toNat + if ts.wide then (c.vread (r + 1) t).1.toNat * 2 ^ 32 else 0) % 2 ^ ts.width

/-- The record errors of R311. -/
def Cx.tcopyBad (c : Cx) (x : Rec) (d a : CopyEnd) : List (Nat × Nat) :=
  let mem := d.isMem || a.isMem
  let rank := c.rank x
  let w := c.recWord x
  let small := decide (rank ≤ 3)
  let count := elementCount (c.copyDims x)
  let width := if a.isMem then (tsOf x).width else (tdOf x).width
  let regBad := fun (e : CopyEnd) (t : DType) => match e.reg? with
    | some n => decide (3 < rank) || (t.wide && n % 2 == 1) ||
        (small && decide (c.l.vregs < n + regsPer t * ((count + 31) / 32)))
    | none => false
  (failIf (rank == 0 || decide (12 < rank) || decide (recField (w 1) 31 29 ≠ 0) || (!mem && decide (recField (w 1) 24 0 ≠ 0)) ||
      (small && (decide (rank < 2) && decide (recField (w 2) 31 16 ≠ 0) || decide (rank < 3) && decide (recField (w 3) 15 0 ≠ 0))) ||
      (if small then !mem && decide (recField (w 3) 31 16 ≠ 0) else decide (recField (w 3) 31 25 ≠ 0)) ||
      (!mem && ((d.reg?.isSome && decide (recField (w 0) 15 0 ≠ 0)) || (a.reg?.isSome && decide (recField (w 0) 31 16 ≠ 0))))) 1 ++
    failIf (regBad d (tdOf x) || regBad a (tsOf x)) 2 ++
    failIf (mem && small && decide (width < 8) && decide ((recField (w 2) 15 0 + 1) * width % 8 ≠ 0)) 5).map fun d => (0x11, d)

/-- Byte offsets of TCOPY and TILEDRN in the part of a tile, for the destination and for the source (R305). -/
def Cx.copyOff (c : Cx) (x : Rec) (d a : CopyEnd) : Nat × Nat :=
  let w := c.recWord x
  if d.isMem || a.isMem then let off := 16 * (if c.rank x ≤ 3 then recField (w 3) 31 16 else 0); (off, off)
  else (16 * recField (w 0) 15 0, 16 * recField (w 0) 31 16)

/-- Elements of a transfer that the encoding fixes; a shape table's are known at the start. -/
def Cx.copyCount (c : Cx) (x : Rec) : Nat := if c.rank x ≤ 3 then elementCount (c.copyDims x) else 0

/-- The tiles of TCOPY and TILEDRN. -/
def Cx.tcopyTiles (c : Cx) (x : Rec) (drain : Bool) (d a : CopyEnd) : List TileWant :=
  (match d.tile? with
    | some k => [{ k := k, role := .fill, first := 8 * (c.copyOff x d a).1, bits := c.copyCount x * (tdOf x).width : TileWant }]
    | none => []) ++ match a.tile? with
    | some k => [{ k := k, role := if drain then .drain else .reader, first := 8 * (c.copyOff x d a).2, bits := c.copyCount x * (tsOf x).width : TileWant }]
    | none => []

/-- What TCOPY and TILEDRN do. -/
def Cx.tcopyWork (c : Cx) (x : Rec) (d a : CopyEnd) : CopyWork :=
  let w := c.recWord x
  let base := if d.isMem || a.isMem then c.recAddr x 0 else 0
  let xfers := c.transfers x.p (recPm x)
  { src := match a.reg? with
      | some n => .vals (if (c.tcopyBad x d a).isEmpty then xfers.map (c.regValues n (tsOf x) (c.copyCount x)) else [])
      | none => a.at (c.copyOff x d a).2
    dst := d.at (c.copyOff x d a).1, ts := tsOf x, td := tdOf x, mode := c.mode x.rnd, fzi := c.fzi, fzo := c.fzo, pm := recPm x,
    xfers := xfers, active := c.threads x.p,
    way := if c.rank x ≤ 3 then .dims base (c.copyDims x) else .table base (w 2 + recField (w 3) 24 0 * 2 ^ 32) (c.rank x),
    moves := none }

/-- TCOPY and TILEDRN. -/
def effTcopy (x : Rec) (drain : Bool) (c : Cx) (s : State) : Res :=
  match copyEnd x.d, copyEnd x.a with
  | some d, some a =>
    c.startCopy s x.p (c.tcopyBad x d a) (c.tcopyTiles x drain d a)
      (if d.isMem then (c.transfers x.p (recPm x)).length * ((c.copyCount x * (tdOf x).width + 7) / 8) else 0) (c.tcopyWork x d a)
  | _, _ => .hold

/-- Registers that hold `count` elements from register n on (R307). -/
def elementUses (n : Nat) (t : DType) (count : Nat) : List RegUse :=
  [{ code := BitVec.ofNat 9 n, mod := 0, regs := regsPer t * ((count + 31) / 32) }]
/-- Marked units that hold elements of some members: the last registers hold count mod 32 of them (R245, R307). -/
def Cx.elementMark (c : Cx) (n : Nat) (t : DType) (count : Nat) (ms : List Nat) : Option TrapReq :=
  let lanes := fun (k : Nat) => ms.flatMap fun m => (List.range k).map fun l => 32 * m + l
  lowerMark (c.markFault (elementUses n t (32 * (count / 32))) (lanes 32) false)
    (if n + regsPer t * (count / 32) < 240 then c.markFault (elementUses (n + regsPer t * (count / 32)) t 1) (lanes (count % 32)) false
    else none)

/-- The registers that TCOPY reads: those of a register source (R308). -/
def Cx.copyUses (c : Cx) (x : Rec) : List RegUse :=
  match copyEnd x.a with
  | some (.reg n) => if 3 < c.rank x then [] else elementUses n (tsOf x) (elementCount (c.copyDims x))
  | _ => []
/-- Marked units of a register source (R245, R308). -/
def Cx.copyMark (c : Cx) (x : Rec) : Option TrapReq :=
  match copyEnd x.a with
  | some (.reg n) =>
    if 3 < c.rank x then none else c.elementMark n (tsOf x) (elementCount (c.copyDims x)) (c.transfers x.p (recPm x))
  | _ => none

/-! ### HCOPY (R315, R316) -/

def hcopyFails (x : Rec) (_ : Cx) : List Nat :=
  failIf (!(copyEnd x.d).any fun e => e.tile?.isSome) 7 ++ failIf (!(copyEnd x.a).any CopyEnd.isMem) 8 ++
  pairFails (x.sub % 32) (x.sub / 32 % 32) x.rnd

def effHcopy (x : Rec) (c : Cx) (s : State) : Res :=
  match copyEnd x.d with
  | some (.tile k _) =>
    let w := c.recWord x
    let h := recField (w 1) 27 25
    let tx := recField (w 3) 7 0 + 1
    let ty := recField (w 3) 15 8 + 1
    let off := 16 * recField (w 3) 31 16
    let origin := c.recVal x.b
    let xfers := c.transfers x.p (recPm x)
    c.startCopy s x.p (failIf (h == 0 || decide (4 < h)) 4 |>.map fun d => (0x11, d))
      [{ k := k, role := .fill, first := 8 * off, bits := (tx + 2 * h) * (ty + 2 * h) * (tdOf x).width }] 0
      { src := .mem, dst := .tile k off, ts := tsOf x, td := tdOf x, mode := c.mode x.rnd, fzi := c.fzi, fzo := c.fzo, pm := recPm x,
        xfers := xfers, active := c.threads x.p,
        way := .field (c.recAddr x 0) (c.recVal x.c) (origin % 2 ^ 16) (origin / 2 ^ 16 % 2 ^ 16) h
          (recField (w 2) 15 0 + 1) (recField (w 2) 31 16 + 1) tx ty (recField (w 1) 29 28) (recField (w 1) 31 30),
        moves := none }
  | _ => .hold

/-! ### TFILL (R317) -/

/-- The tile that D names. -/
def tfillTile (x : Ext) : Option Nat := if 0x1E0 ≤ x.d.toNat ∧ x.d.toNat ≤ 0x1EF then some (x.d.toNat - 0x1E0) else none

def formTfill (x : Ext) : Form :=
  let src := fun (sl : Slot) (wide : Bool) => ({ slot := sl, wide := wide, kinds := ⟨false, true, false, true, false, true⟩, mods := false } : SrcUse)
  let lits := ([Slot.A, .B, .C].filter fun sl => x.code sl == 0x1FF).length
  { literal := true, dest := .own 0x1FF, srcs := [src .A (x.ty == .b64), src .B false, src .C false], own1 := 0x400, negRow := 3,
    ty := some [.b32, .b64],
    own := failIf ((tfillTile x).isNone && !(match operandOf x.d with | .ureg n => n % 2 == 0 | _ => false)) 7 ++
      failIf (x.lit.isSome && decide (lits ≠ 1)) 8 }

def tfillDyn (x : Ext) (c : Cx) : List Nat :=
  match operandOf x.d with
  | .ureg n => failIf (decide (c.l.uregs < n + 2)) 7
  | _ => []

/-- The pair that holds the address of a fill of memory. -/
def tfillUses (x : Ext) : List RegUse := if (tfillTile x).isSome then [] else [{ code := x.d, mod := 0, regs := 2 }]

def effTfill (x : Ext) (c : Cx) (s : State) : Res :=
  if c.full 2 then .stall s (.counterStall 2)
  else
    let pw := x.ty.width / 8
    let off := (c.plain x .B false .int 0).toNat
    let count := (c.plain x .C false .int 0).toNat
    let xfers := c.transfers x.p (x.bit1 10)
    let bad := failIf (decide (off % pw ≠ 0) || decide (count % pw ≠ 0)) 6 |>.map fun d => (0x11, d)
    let work := fun (dst : CopyEnd) (base : Nat) =>
      ({ src := .vals [[(c.plain x .A x.ty.wide .int 0).toNat]], dst := dst, ts := x.ty, td := x.ty, mode := .rne, fzi := false,
         fzo := false, pm := x.bit1 10, xfers := xfers, active := c.threads x.p, way := .dims base [(count / pw, 0)],
         moves := none } : CopyWork)
    match tfillTile x with
    | some k => c.startCopy s x.p bad [{ k := k, role := .fill, first := 8 * off, bits := 8 * count }] 0 (work (.tile k off) 0)
    | none => c.startCopy s x.p bad [] (xfers.length * count) (work .mem (lo ((c.ownVal x.d true .int none 0).toNat + off) 64))

/-- TCOPY (R309). -/
def execTcopy (x : Rec) (s : State) : Out :=
  s.issueRec x 2 [x.b, x.c] (tcopyFails x false) (fun c => c.copyMark x) (effTcopy x false) false fun c => c.copyUses x
/-- TILEDRN (R314). -/
def execTiledrn (x : Rec) (s : State) : Out :=
  s.issueRec x 2 [x.b, x.c] (tcopyFails x true) (fun _ => none) (effTcopy x true)
/-- HCOPY (R315, R316). -/
def execHcopy (x : Rec) (s : State) : Out :=
  s.issueRec x 2 [x.b, x.c] (hcopyFails x) (fun _ => none) (effHcopy x)
/-- TFILL (R317). -/
def execTfill (x : Ext) (s : State) : Out := s.issueMem x.words x (formTfill x) (tfillUses x) (tfillDyn x) (effTfill x)

/-! ### The engine (R312, R313) -/

/-- Read lines for an engine operation of a group: below the L1, its own block's staged bytes over them (R99, R313, R430). -/
def State.engineLines (s : State) (g : Group) (core : Nat) : List Nat → Views × State
  | [] => ([], s)
  | line :: rest =>
    let (b, m, s) := (s.countReq g.launch core (s.fwd line) false).fetchLine core (s.fwd line) (Config.keeps s.stamp line)
    let b := s.stagingOver g.launch g.block core (s.fwd line) (s.stagedOver g.launch g.block (s.fwd line) b)
    let (vs, s) := s.engineLines g core rest
    ((line, b, m) :: vs, s)

/-- Bytes of engine reads with the first mark they meet. -/
def viewBytes (vs : Views) (addrs : List Nat) : List Byte × Option Mark :=
  let tk := addrs.map (takenAt vs)
  (tk.map fun t => t.byte, tk.findSome? fun t => t.mark)

/-- A shape table as bytes: TOFF, extents and strides; none where it breaks its format (R306). -/
def shapeTable (rank : Nat) (b : List Byte) : Option (Nat × List (Nat × Int)) :=
  let dims := (List.range rank).map fun k => (leAt b (16 + 16 * k) 4, if k = 0 then (0 : Int) else intOf true 64 (leAt b (24 + 16 * k) 8))
  if leAt b 2 14 ≠ 0 ∨ leAt b 24 8 ≠ 0 ∨ ((List.range rank).any fun k => decide (leAt b (16 + 16 * k) 4 = 0) ||
      decide (leAt b (20 + 16 * k) 4 ≠ 0)) ∨ 2 ^ 32 < elementCount dims then none
  else some (leAt b 0 2, dims)

/-- The elements of one transfer before translation, with the tile offset of its shape table, or the error it meets: cause,
DETAIL, TRAPADDR. -/
def State.copyElements (s : State) (o : Op) (g : Group) (priv : Bool) (w : CopyWork) (m : Nat) :
    Except (Nat × Nat × Nat) (Nat × List (Option Int)) × State :=
  let width := if w.src.isMem then w.ts.width else w.td.width
  match w.way with
  | .dims base dims => (.ok (0, (List.range (elementCount dims)).map fun e => some (elementBit base width dims e)), s)
  | .field base stride x0 y0 h nx ny tx ty bx byy =>
    (.ok (0, (List.range ((tx + 2 * h) * (ty + 2 * h))).map fun e => fieldElement base stride x0 y0 h nx ny tx bx byy w.ts.width e), s)
  | .table base va rank =>
    if va % 8 ≠ 0 then (.error (0x11, 3, 0), s)
    else
      let who : Who := { core := some o.core, asid := o.asid, priv := priv, rd := true, wr := false }
      match s.reachAll who va (16 + 16 * rank) m with
      | (.error (va, cause, d), _) => (.error (cause, d, va), s)
      | (.ok (addrs, _), seen) =>
        let (vs, s) := (s.learn seen).engineLines g o.core (linesOf addrs)
        match viewBytes vs addrs with
        | (_, some k) => (.error (k.cause, if k.cause = 6 then k.detail else 128, k.addr), s)
        | (b, none) => match shapeTable rank b with
          | none => (.error (0x11, 3, 0), s)
          | some (toff, dims) =>
            let count := elementCount dims
            let mem := w.src.isMem || w.dst.isMem
            let tooWide := fun (e : CopyEnd) (t : DType) => match e with
              | .tile k off => decide ((s.tile g.launch g.block o.core k).sz * 512 < 8 * (off + if mem then 16 * toff else 0) + count * t.width)
              | _ => false
            match pickFault s.stamp (failIf (mem && decide (width < 8) && decide ((dims.headD (1, 0)).1 * width % 8 ≠ 0)) 5 |>.map (fun d => (0x11, d))
                |>.append (failIf (tooWide w.dst w.td || tooWide w.src w.ts) 5 |>.map fun d => (0x10, d))) with
            | some (cause, d) => (.error (cause, d, 0), s)
            | none => (.ok (if mem then 128 * toff else 0, (List.range count).map fun e => some (elementBit base width dims e)), s)

/-- Translate the elements of one transfer. `first` is where the tile side starts, in bits. -/
def State.copyMoves (s : State) (who : Who) (mem : Bool) (width m first : Nat) :
    List (Nat × Option Int) → Except (Nat × Nat × Nat) (List Move × List TlbEntry)
  | [] => .ok ([], [])
  | (e, pos) :: rest =>
    let step : Except (Nat × Nat × Nat) (Move × List TlbEntry) := match mem, pos with
      | true, some b =>
        let shift := (b % 8).toNat
        let va := lo (b / 8) 64
        (match s.reachAll who va ((shift + width + 7) / 8) m with
          | (.error (va, cause, d), _) => .error (cause, d, va)
          | (.ok (addrs, _), seen) => .ok ({ m := m, e := e, addrs := addrs, shift := shift, first := first, fixed := false, res := none }, seen))
      | _, p => .ok ({ m := m, e := e, addrs := [], shift := 0, first := first, fixed := p.isNone, res := none }, [])
    match step with
    | .error f => .error f
    | .ok (mv, seen) => match s.copyMoves who mem width m first rest with
      | .error f => .error f
      | .ok (mvs, seen') => .ok (mv :: mvs, seen ++ seen')

/-- The start of a copy: shape tables, their checks, and the translation of every byte (R312). -/
def State.copyStart (s : State) (o : Op) (g : Group) (priv : Bool) (w : CopyWork) :
    List Nat → Except (Nat × Nat × Nat) (List Move) × State
  | [] => (.ok [], s)
  | m :: rest =>
    let who : Who := { core := some o.core, asid := o.asid, priv := priv, rd := w.src.isMem, wr := w.dst.isMem }
    let width := if w.src.isMem then w.ts.width else w.td.width
    match s.copyElements o g priv w m with
    | (.error f, s) => (.error f, s)
    | (.ok (first, els), s) =>
      match s.copyMoves who (w.src.isMem || w.dst.isMem) width m first (els.zipIdx.map fun k => (k.2, k.1)) with
      | .error f => (.error f, s)
      | .ok (mvs, seen) => match (s.learn seen).copyStart o g priv w rest with
        | (.error f, s) => (.error f, s)
        | (.ok more, s) => (.ok (mvs ++ more), s)

/-- The tile part's first bit for an element of a move. -/
def State.moveBit (s : State) (o : Op) (g : Group) (e : CopyEnd) (mv : Move) (w : Nat) : Nat :=
  match e with
  | .tile k off => 8 * ((s.tile g.launch g.block o.core k).part mv.m + off) + mv.first + mv.e * w
  | _ => 0

/-- Read and convert the elements that `sel` selects, those not read before. -/
def State.copyRead (s : State) (o : Op) (g : Group) (l : Launch) (w : CopyWork) (moves : List Move) (sel : Nat → Bool) : List Move × State :=
  let wanted := fun (i : Nat) (mv : Move) => mv.res.isNone && sel i
  let (vs, s) := if w.src.isMem then
      s.engineLines g o.core (linesOf ((moves.zipIdx.filter fun k => wanted k.2 k.1).flatMap fun k => k.1.addrs))
    else ([], s)
  (moves.zipIdx.map fun (mv, i) =>
    if !wanted i mv then mv
    else if mv.fixed then { mv with res := some (0, 0, none) }
    else
      let (raw, mark) : Nat × Option Mark := match w.src with
        | .mem => let r := viewBytes vs mv.addrs; (leNat r.1 / 2 ^ mv.shift % 2 ^ w.ts.width, r.2)
        | .tile _ _ => (s.poolBits g.launch g.block o.core (s.moveBit o g w.src mv w.ts.width) w.ts.width,
            s.poolMark g.launch g.block o.core (s.moveBit o g w.src mv w.ts.width) w.ts.width)
        | .vals vals =>
          let vs := vals.getD (w.xfers.idxOf mv.m) (vals.headD [])
          (vs.getD (mv.e % vs.length) 0, none)
        | .reg _ => (0, none)
      match mark with
      | some k => { mv with res := some (0, 0, some k) }
      | none => let r := convert l w.ts w.td w.mode w.fzi w.fzo raw; { mv with res := some (r.1, r.2, none) }, s)

/-- Threads that take an element of a move in their registers (R308, R309). -/
def CopyWork.takers (w : CopyWork) (mv : Move) : List Nat :=
  w.active.filter fun t => t % 32 == mv.e % 32 && (!w.pm || t / 32 == mv.m)

/-- Write the register units of read elements that `sel` selects, once each (R105). -/
def State.copyGive (s : State) (o : Op) (w : CopyWork) (moves : List Move) (sel : Nat → Bool) : State :=
  match w.dst with
  | .reg n =>
    let units := moves.flatMap fun mv => match mv.res with
      | some (v, _, _) =>
        let v := widen w.td v
        (w.takers mv).flatMap fun t => (List.range (regsPer w.td)).map fun j =>
          (n + regsPer w.td * (mv.e / 32) + j, t, BitVec.ofNat 32 (v / 2 ^ (32 * j)))
      | none => []
    let units := units.filter fun k => sel (256 * k.1 + k.2.1) && !o.given.contains (256 * k.1 + k.2.1)
    (s.modGroup o.grp fun g => units.foldl (fun g (r, t, v) => g.deliver r t v none) g).modOp o.id fun o =>
      { o with given := (units.map fun k => 256 * k.1 + k.2.1) ++ o.given }
  | _ => s

/-- The bytes of each line that a copy writes, with the worst mark of the elements in it: a higher element, then a higher member,
stands later (R313). -/
def copyLines (w : CopyWork) (moves : List Move) : List (Nat × SMap Byte × Nat) :=
  moves.foldl (fun ls mv => match mv.res with
    | none => ls
    | some (v, _, mark) => mv.addrs.zipIdx.foldl (fun (ls : List (Nat × SMap Byte × Nat)) (pa, i) =>
        let cur := match ls.find? fun k => k.1 == pa / 64 with
          | some k => k.2
          | none => ([], 0)
        let b := laidByte (SMap.get 0 cur.1 (pa % 64)) mv.shift w.td.width v i
        SMap.put ls (pa / 64) (cur.1.put (pa % 64) b, match mark with | some k => max cur.2 (if k.cause = 6 then 2 else 1) | none => cur.2))
      ls) []

/-- The end of a copy's moves: registers, pool or write requests; then its completion, or the wait for its writes. -/
def State.copyEnd (s : State) (o : Op) (g : Group) (ord : Bool) (w : CopyWork) (moves : List Move) : State :=
  let fl := moves.foldl (fun f mv => match mv.res with | some r => f ||| r.2.1 | none => f) (0 : Flags)
  let s := match moves.findSome? fun mv => mv.res.bind fun r => r.2.2 with
    | some k => s.defer o k.cause (if k.cause = 6 then k.detail else 128) k.addr
    | none => s
  let s := (s.copyGive o w moves fun _ => true).modOp o.id fun p => { p with
    stamp := o.stamp
    raises := if fl = 0 then [] else w.active.map fun t => (t, fl)
    kind := .copy { w with moves := some moves } }
  match w.dst with
  | .tile _ _ =>
    (s.modBlock g.launch g.block fun b => moves.foldl (fun b mv => match mv.res with
      | some (v, _, _) => b.putPool o.core (s.moveBit o g w.dst mv w.td.width) w.td.width v
      | none => b) b).complete o.id
  | .mem =>
    let lines := copyLines w moves
    if lines.isEmpty then s.complete o.id
    else
      (lines.foldl (fun s (line, bytes, k) =>
        let (id, s) := s.fresh
        s.send { id := id, core := some o.core, die := dieOf o.core, line := s.fwd line, bytes := bytes, stamp := o.stamp, owners := [o.grp],
                 waiters := [o.id], staged := if ord && !g.spawned then some (g.launch, g.block) else none, failing := false,
                 poison := k == 2, marked := k == 1 } g.launch) s).modOp o.id fun o => { o with left := lines.length }
  | _ => s.complete o.id

/-- An engine operation may touch memory: every write that is its ancestor is performed, and device time has passed the horizon
(R313). -/
def State.edgeClear (s : State) (edge : Nat) : Bool :=
  match s.edges.find? fun e => e.id == edge with
  | some e => e.pend.isEmpty && s.clear e.v
  | none => true

/-- A copy by a shape table, whose size its issue did not know, stages nothing while its block has to stall (R430). -/
def State.copyHolds (s : State) (o : Op) (g : Group) (ord : Bool) (w : CopyWork) (moves : List Move) : Bool :=
  match w.way with
  | .table _ _ _ => ord && !g.spawned && w.dst.isMem &&
      s.stageHolds g.launch g.block (dieOf o.core) ((moves.length * w.td.width + 7) / 8)
  | _ => false

/-- COPY_OPERATION_COMPLETE (R105, R312): an early part of a copy, or the rest and its completion. -/
def execCopyOperationComplete (s : State) : Out :=
  match s.arg with
  | .part id p => match s.op? id with
    | some o => match o.kind, s.group? o.grp with
      | .copy w, some g => match s.launch? g.launch with
        | some l =>
          if o.left = 0 ∧ s.edgeClear o.edge = true then
            let t := s.tick
            -- a started copy has been translated, at the QI of that moment (R287)
            let (start, o, t) : Except (Nat × Nat × Nat) (List Move) × Op × State := match w.moves with
              | some moves => (.ok moves, o, t)
              | none => let r := t.copyStart o g l.priv w w.xfers; (r.1, { o with stamp := s.qi }, r.2)
            (match start with
              | .error (cause, d, va) => .next ((t.defer o cause d va).complete id)
              | .ok moves =>
                if !(moves.all fun mv => mv.addrs.all fun pa => s.pathTo (pa / 64)) || s.copyHolds o g l.ord w moves then
                  notNow "COPY_OPERATION_COMPLETE"
                else match p with
                | some p =>
                  let (moves, t) := t.copyRead o g l w moves (partSel s.stamp p 0)
                  .next ((t.copyGive o w moves (partSel s.stamp p 1)).modOp id fun q => { q with
                    stamp := o.stamp, kind := .copy { w with moves := some moves } })
                | none =>
                  let (moves, t) := t.copyRead o g l w moves fun _ => true
                  .next (t.copyEnd o g l.ord w moves))
          else notNow "COPY_OPERATION_COMPLETE"
        | none => notNow "COPY_OPERATION_COMPLETE"
      | _, _ => notNow "COPY_OPERATION_COMPLETE"
    | none => notNow "COPY_OPERATION_COMPLETE"
  | _ => notNow "COPY_OPERATION_COMPLETE"

end Machine
end Sys2Proof
end

