-- ==== Sys2Proof/Machine/Panel.lean ====
section
/-! DEFINITION. The arithmetic of the matrix array (R353 to R369 16_matrix.md): alignment, the load of a panel, the product, the
drain of a tile, status, and the image of an array (R377). -/

namespace Sys2Proof
namespace Machine

/-! ### Types and alignment (R357, R358) -/

def mxIntA : List DType := [.i8, .n8, .i4, .n4]
def mxFloat : List DType := [.e4m3, .e5m2, .c8, .f16, .bf16]
def mxFloatKind (t : DType) : Bool := mxFloat.contains t

/-- The exact value of a float element; a companded one is expanded. -/
def mxValue (l : Launch) (t : DType) (v : Nat) : Ex :=
  if t = .c8 then expandU l ((v + 128) % 256) else unpack (fmtOf t) v

/-- floor(log2 |x|) of a finite nonzero value. -/
def Ex.exponent : Ex → Option Int
  | .rat _ n d => if n = 0 then none else some (leadExp n d)
  | _ => none

/-- An aligned block. -/
structure Aligned where
  q : List Int
  e : Int
  inexact : Bool
  special : Bool
deriving DecidableEq, Repr

/-- One element in units of 2^e, clamped to w bits, and whether that changed it. -/
def alignOne (w : Nat) (e : Int) : Ex → Int × Bool
  | .rat s n d =>
    if n = 0 then (0, false)
    else
      let (k, ix) := roundGrid s n d e .rne
      let v : Int := if s then -(k : Int) else k
      let c : Int := if v < -(2 ^ (w - 1) : Int) then -(2 ^ (w - 1) : Int) else if 2 ^ (w - 1) - 1 < v then 2 ^ (w - 1) - 1 else v
      (c, ix || decide (c ≠ v))
  | _ => (0, false)

/-- align(block, W) of R358. -/
def alignBlock (w : Nat) (xs : List Ex) : Aligned :=
  let special := xs.any fun x => x.isNan || x.isInf
  match xs.filterMap Ex.exponent with
  | [] => { q := xs.map fun _ => 0, e := 0, inexact := false, special := special }
  | e :: es =>
    let top := es.foldl (fun a b => max a b) e
    let e := top - w + 2
    let qs := xs.map (alignOne w e)
    { q := qs.map fun k => k.1, e := e, inexact := qs.any fun k => k.2, special := special }

/-! ### The panel (R353, R364) -/

/-- Alignment width of a WB or WA code. -/
def alignWidth (code : Nat) : Nat := [8, 12, 16, 24].getD code 8

/-- The form that a load gives the panel: 1 8-bit, 2 16-bit, 3 ternary. -/
def panelForm (t : DType) (wb : Nat) : Nat := if t = .t2 then 3 else if mxFloatKind t && decide (wb ≠ 0) then 2 else 1
/-- NP, columns of a form. -/
def panelColumns (form : Nat) : Nat := match form with | 2 => 256 | 3 => 1024 | _ => 512

/-- Stored pattern as the multiplied integer. -/
def MxArray.q (a : MxArray) (k n : Nat) : Int :=
  let v := a.weights.get 0 (1024 * k + n)
  match a.form with
  | 2 => intOf true 16 v
  | 3 => (ternaryOf v).1
  | _ => intOf (!a.uns.contains (k / 32)) 8 v

/-- What a load finds at an element: its bits, and whether it could not be read. -/
abbrev MxRead := Nat → Nat → Nat × Bool

/-- One block-column of a load. `el i` is row i of the load, `sc` the scale. -/
def MxArray.loadColumn (l : Launch) (ty : DType) (wb : Nat) (bs : Bool) (kb : Nat) (el sc : MxRead) (b n : Nat)
    (r : MxArray × List (Nat × Nat)) : MxArray × List (Nat × Nat) :=
  let reads := (List.range 32).map fun k => el (32 * (b - kb) + k) n
  let bad := (reads.zipIdx.filter fun k => k.1.2).map fun k => (32 * b + k.2, n)
  let vals := reads.map fun k => if k.2 then 0 else k.1
  let key := 1024 * b + n
  let put := fun (m : SMap Nat) (vs : List Nat) => vs.zipIdx.foldl (fun m k => SMap.set 0 m (1024 * (32 * b + k.2) + n) k.1) m
  if mxFloatKind ty then
    let al := alignBlock (alignWidth wb) ((vals.zip reads).map fun k => if k.2.2 then .rat false 0 1 else mxValue l ty k.1)
    ({ r.1 with
        weights := put r.1.weights (al.q.map fun q => lo q (if wb = 0 then 8 else 16))
        exps := SMap.set 0 r.1.exps key al.e
        scales := SMap.set 0x3F80 r.1.scales key 0x3F80
        special := if al.special then key :: r.1.special.filter (· ≠ key) else r.1.special.filter (· ≠ key)
        pstat := r.1.pstat ||| bit al.inexact 0 ||| bit al.special 1 ||| bit (!bad.isEmpty) 3 }, r.2 ++ bad)
  else
    let s := if bs then sc (b - kb) n else (0x3F80, false)
    let bad := bad ++ if s.2 then [(32 * b, n)] else []
    ({ r.1 with
        weights := put r.1.weights (if ty = .t2 then vals else vals.map fun v => lo (intTy ty v) 8)
        exps := SMap.set 0 r.1.exps key 0
        scales := SMap.set 0x3F80 r.1.scales key (if s.2 then 0 else s.1)
        special := r.1.special.filter (· ≠ key)
        pstat := r.1.pstat ||| bit (decide (ty = .t2) && vals.any fun v => decide (v = 2)) 2 ||| bit (!bad.isEmpty) 3 }, r.2 ++ bad)

/-- The load of R364, and the elements that could not be read, in order. -/
def MxArray.load (a : MxArray) (l : Launch) (ty : DType) (wb : Nat) (bs : Bool) (kb kn : Nat) (el sc : MxRead) :
    MxArray × List (Nat × Nat) :=
  let form := panelForm ty wb
  let float := mxFloatKind ty
  let a := if a.form = form ∧ a.float = float ∧ a.wb = wb then a
    else { a with weights := [], uns := [], scales := [], exps := [], special := [], pstat := 0 }
  let blocks := (List.range kn).map fun i => kb + i
  let a : MxArray := { a with
    form := form, float := float, wb := wb
    uns := (a.uns.filter fun b => !blocks.contains b) ++ if ty = .n8 || ty = .n4 then blocks else [] }
  blocks.foldl (fun r b => (List.range (panelColumns form)).foldl (fun r n => MxArray.loadColumn l ty wb bs kb el sc b n r) r) (a, [])

/-! ### Tiles (R355) -/

def tileKey (t row col : Nat) : Nat := 32768 * t + 512 * row + col
def MxArray.mode (a : MxArray) (t : Nat) : Nat := a.modes.get 0 t
def MxArray.cell (a : MxArray) (t row col : Nat) : Word := a.tiles.get 0 (tileKey t row col)
def MxArray.putCell (a : MxArray) (t row col : Nat) (v : Word) : MxArray :=
  { a with tiles := a.tiles.set 0 (tileKey t row col) v }
/-- The integer of an element; an INT48 pair is named by its even tile. -/
def MxArray.cellInt (a : MxArray) (t row col : Nat) : Int :=
  if a.mode t = 1 then intOf true 48 ((a.cell t row col).toNat + (a.cell (t + 1) row col).toNat % 2 ^ 16 * 2 ^ 32)
  else intOf true 32 (a.cell t row col).toNat
def MxArray.putInt (a : MxArray) (t row col : Nat) (v : Int) : MxArray :=
  if a.mode t = 1 then
    (a.putCell t row col (BitVec.ofNat 32 (lo v 32))).putCell (t + 1) row col (BitVec.ofInt 32 (intOf true 16 (lo v 48 / 2 ^ 32)))
  else a.putCell t row col (BitVec.ofNat 32 (lo v 32))
/-- Do two tiles hold the same elements: one tile, or the halves of an INT48 pair (R355)? -/
def MxArray.sharesElements (a : MxArray) (t u : Nat) : Bool := t == u || (a.mode t == 1 && t / 2 == u / 2)
/-- Zero of a tile's mode: every one has all bits zero. The elements of an INT48 tile stand in both halves of its pair. -/
def MxArray.zeroTile (a : MxArray) (t : Nat) : MxArray :=
  { a with
    tiles := a.tiles.filter fun k => !a.sharesElements t (k.1 / 32768)
    tstat := a.tstat.erase t }

/-- MCFG (R362). -/
def MxArray.config (a : MxArray) (modes : Nat) : MxArray :=
  (List.range 4).foldl (fun a t =>
    let m := recField modes (2 * t + 1) (2 * t)
    if a.mode t = m then a else { a.zeroTile t with modes := a.modes.set 0 t m }) a

/-! ### The product (R359, R366) -/

/-- The tile columns of the panel columns that NH selects: panel column, tile, column; none where the table does not accept NH. -/
def MxArray.columns (a : MxArray) (mt nh : Nat) : Option (List (Nat × Nat × Nat)) :=
  let cols := fun (first n t c : Nat) => (List.range n).map fun i => (first + i, t, c + i)
  if a.mode mt = 1 ∧ mt % 2 = 1 then none
  else match a.form, nh with
    | 1, 0 => some (cols 0 512 mt 0)
    | 2, 0 => some (cols 0 256 mt 0)
    | 2, 1 => some (cols 0 256 mt 256)
    | 3, 0 => some (cols 0 512 mt 0)
    | 3, 1 => some (cols 512 512 mt 0)
    | 3, 2 => if mt % 2 = 0 ∧ a.mode mt = a.mode (mt + 1) ∧ a.mode mt ≠ 1 then some (cols 0 512 mt 0 ++ cols 512 512 (mt + 1) 0) else none
    | _, _ => none

/-- One block of one A row: its integers, its scale, and whether it is special. -/
structure ABlock where
  b : Nat
  q : List Int
  scale : Ex
  special : Bool
  inexact : Bool
deriving DecidableEq, Repr

/-- The scale of a panel block-column. -/
def MxArray.sb (a : MxArray) (b n : Nat) : Ex :=
  if a.float then .dyadic false 1 (a.exps.get 0 (1024 * b + n)) else unpack (fmtOf .bf16) (a.scales.get 0x3F80 (1024 * b + n))

/-- The exact block sum. -/
def MxArray.blockSum (a : MxArray) (x : ABlock) (n : Nat) : Int :=
  x.q.zipIdx.foldl (fun s k => s + k.1 * a.q (32 * x.b + k.2) n) 0

/-- Bits of the tile status that floating-point flags set (R369). -/
def mxFlags (fl : Flags) : Nat :=
  bit (fl.getLsbD 0) 0 ||| bit (fl.getLsbD 2) 1 ||| bit (fl.getLsbD 3) 2 ||| bit (fl.getLsbD 4) 3

/-- A block value (FP32 mode): the product of both scales and the sum. -/
def MxArray.blockValue (a : MxArray) (x : ABlock) (n : Nat) : Ex :=
  if x.special || a.special.contains (1024 * x.b + n) then .nan false
  else match mulEx x.scale (a.sb x.b n) with
    | none => .nan false
    | some k => if k.isNan then .nan false else (mulEx k (Ex.ofInt (a.blockSum x n))).getD (.nan false)

/-- Is a block value a NaN that multiplying by its scales made: an infinity times zero (R188)? -/
def MxArray.blockInvalid (a : MxArray) (x : ABlock) (n : Nat) : Bool :=
  !(x.special || a.special.contains (1024 * x.b + n)) && match mulEx x.scale (a.sb x.b n) with
    | none => !x.scale.isNan && !(a.sb x.b n).isNan
    | some k => (mulEx k (Ex.ofInt (a.blockSum x n))).isNone

/-- Add one block's value to one tile element, with the status bits that arise. -/
def MxArray.addBlock (a : MxArray) (x : ABlock) (n t row col : Nat) : MxArray × Nat :=
  if a.mode t = 2 then
    let old := unpack (fmtOf .f32) (a.cell t row col).toNat
    let v := a.blockValue x n
    if old.isNan || v.isNan then
      (a.putCell t row col (BitVec.ofNat 32 (fmtOf .f32).nan), bit (!old.isNan || a.blockInvalid x n) 0)
    else
      let r := fsum [old, v] (fmtOf .f32) .rne false
      (a.putCell t row col (BitVec.ofNat 32 r.1), mxFlags r.2)
  else
    let v := a.cellInt t row col + a.blockSum x n
    let a := a.putInt t row col v
    (a, bit (decide (a.cellInt t row col ≠ v)) 4)

/-- One row of one member: `first` where this MMA has not written the row yet and starts it from zero. -/
def MxArray.mmaRow (a : MxArray) (cols : List (Nat × Nat × Nat)) (blocks : List ABlock) (row : Nat) (first : Bool) : MxArray :=
  cols.foldl (fun a (n, t, c) =>
    let a := if first then (if a.mode t = 2 then a.putCell t row c 0x80000000 else a.putInt t row c 0) else a
    let (a, st) := blocks.foldl (fun (a, st) x => let r := MxArray.addBlock a x n t row c; (r.1, st ||| r.2)) (a, 0)
    let st := st ||| bit (blocks.any (fun x => x.inexact) || a.pstat.testBit 0) 3
    { a with tstat := a.tstat.set 0 t (a.tstat.get 0 t ||| st) }) a

/-- MMA over rows (m, r) in order: `el m r k` is the element of the A row, and whether it could not be read. -/
def MxArray.mma (a : MxArray) (l : Launch) (ty : DType) (wa : Nat) (bsa acc : Bool) (kb kn row0 mstr nrow : Nat) (members : List Nat)
    (cols : List (Nat × Nat × Nat)) (el : Nat → Nat → Nat → Nat × Bool) (sc : Nat → Nat → Nat → Nat) : MxArray :=
  let rows := members.flatMap fun m => (List.range nrow).map fun r => (m, r)
  (rows.foldl (fun (a, done) (m, r) =>
    let row := row0 + m * mstr + r
    let blocks := (List.range kn).map fun i =>
      let vals := (List.range 32).map fun k => el m r (32 * i + k)
      if mxFloatKind ty then
        let al := alignBlock (alignWidth wa) (vals.map fun v => if v.2 then .rat false 0 1 else mxValue l ty v.1)
        ({ b := kb + i, q := al.q, scale := .dyadic false 1 al.e, special := al.special, inexact := al.inexact } : ABlock)
      else { b := kb + i, q := vals.map (fun v => if v.2 then 0 else intTy ty v.1), special := false, inexact := false,
             scale := if bsa then unpack (fmtOf .bf16) (sc m r i) else .rat false 1 1 }
    (MxArray.mmaRow a cols blocks row (!acc && !done.contains row), row :: done)) (a, ([] : List Nat))).1

/-- The elements of an MMA that could not be read, as MXERR names them: 4 x member for the A operand or 1 for the panel, the K index, and
the A row or the panel column (R369, R370). -/
def MxArray.lost (kb kn nrow : Nat) (members : List Nat) (cols : List (Nat × Nat × Nat)) (lostA : Nat → Nat → Nat → Bool)
    (lostW : Nat → Nat → Bool) : List (Nat × Nat × Nat) :=
  (members.flatMap fun m => (List.range nrow).flatMap fun r =>
    ((List.range (32 * kn)).filter (lostA m r)).map fun k => (4 * m, 32 * kb + k, r)) ++
  (List.range (32 * kn)).flatMap fun k => (cols.filter fun c => lostW (32 * kb + k) c.1).map fun c => (1, 32 * kb + k, c.1)

/-- The tiles that a product over some columns writes: both halves of an INT48 pair (R355). -/
def MxArray.written (a : MxArray) (cols : List (Nat × Nat × Nat)) : List Nat :=
  cols.flatMap fun c => if a.mode c.2.1 = 1 then [c.2.1, c.2.1 + 1] else [c.2.1]

/-- MMA where some elements cannot be read: zero stands in their place, and ZREP is set in each tile written (R370). The panel keeps
what it holds. -/
def MxArray.mmaRead (a : MxArray) (l : Launch) (ty : DType) (wa : Nat) (bsa acc : Bool) (kb kn row0 mstr nrow : Nat) (members : List Nat)
    (cols : List (Nat × Nat × Nat)) (el sc : Nat → Nat → Nat → Nat) (lostA : Nat → Nat → Nat → Bool) (lostW : Nat → Nat → Bool) : MxArray :=
  let read := { a with weights := a.weights.filter fun k => !lostW (k.1 / 1024) (k.1 % 1024) }
  let b := { read.mma l ty wa bsa acc kb kn row0 mstr nrow members cols (fun m r k => (el m r k, lostA m r k)) sc with weights := a.weights }
  if (MxArray.lost kb kn nrow members cols lostA lostW).isEmpty then b
  else { b with tstat := (a.written cols).foldl (fun st t => SMap.set 0 st t (SMap.get 0 st t ||| 32)) b.tstat }

/-- The DETAIL of a product that the array finds when it executes it (R366). -/
def MxArray.mmaFails (a : MxArray) (ty : DType) (mt nh : Nat) (bsa : Bool) : List Nat :=
  let float := mxFloatKind ty
  if a.form = 0 then [6]
  else
    failIf ((a.form != 3 && a.float != float) || (a.mode mt != 2 && (float || bsa))) 2 ++ failIf (a.columns mt nh).isNone 3

/-! ### The drain (R368) -/

/-- The types that a drain of a tile of a mode converts from, and those it accepts. -/
def drainType (mode : Nat) : DType := match mode with | 1 => .i64 | 2 => .f32 | _ => .i32
def drainAccepts : List DType := [.i8, .n8, .i16, .n16, .i32, .n32, .i64, .n64, .f16, .bf16, .f32, .f64, .e4m3, .e5m2]

/-- One element as a pattern of the mode's type. -/
def MxArray.drainBits (a : MxArray) (t row col : Nat) : Nat :=
  if a.mode t = 1 then lo (a.cellInt t row col) 64 else (a.cell t row col).toNat

/-- The elements of a range set to zero. -/
def MxArray.zeroRange (a : MxArray) (t row0 nr col0 nc : Nat) : MxArray :=
  (List.range nr).foldl (fun a i => (List.range nc).foldl (fun a j => a.putInt t (row0 + i) (col0 + j) 0) a) a

/-! ### Status (R369) -/

/-- The word that MSTAT reads for SEL 0 to 4. -/
def MxArray.status (a : MxArray) (sel : Nat) : Nat :=
  if sel = 4 then a.form + bit a.float 2 + a.wb * 2 ^ 3 + a.pstat * 2 ^ 5
  else a.tstat.get 0 sel + a.mode sel * 2 ^ 8
def MxArray.clearStatus (a : MxArray) (sel : Nat) : MxArray :=
  if sel = 4 then { a with pstat := 0 } else { a with tstat := a.tstat.erase sel }

/-- Log elements replaced by zero in an MXERR: the first fills an empty log, later ones set MULT. An event is SRC and MEMB as one
field, KIDX and NIDX. -/
def logMx (old : Dword) (seq : Nat) (events : List (Nat × Nat × Nat)) : Dword :=
  match events with
  | [] => old
  | (src, k, n) :: rest =>
    if bitAt old 0 then old ||| 2
    else BitVec.ofNat 64 (1 + bit (!rest.isEmpty) 1 + src * 2 ^ 2 + k * 2 ^ 8 + n * 2 ^ 17 + seq % 2 ^ 16 * 2 ^ 32)

/-! ### The image of an array (R377) -/

def boolByte (v : Nat) : Byte := BitVec.ofNat 8 v

/-- The array area. -/
def MxArray.image (a : MxArray) : List Byte :=
  let words := (List.range 131072).flatMap fun i => leBytes 4 (a.tiles.get 0 i).toNat
  let w := fun k n => a.weights.get 0 (1024 * k + n)
  let panel : List Byte := match a.form with
    | 2 => (List.range 512).flatMap fun k => (List.range 256).flatMap fun n => leBytes 2 (w k n)
    | 3 => (List.range 512).flatMap fun k => (List.range 256).map fun j =>
        boolByte (w k (4 * j) + w k (4 * j + 1) * 4 + w k (4 * j + 2) * 16 + w k (4 * j + 3) * 64)
    | _ => (List.range 512).flatMap fun k => (List.range 512).map fun n => boolByte (w k n)
  let panel := panel ++ List.replicate (262144 - panel.length) 0
  let cols := (List.range 16384).flatMap fun i =>
    let sp := a.float && a.special.contains i
    leBytes 4 ((if a.float then bit sp 31 else a.scales.get 0x3F80 i * 2 ^ 16) + lo (a.exps.get 0 i) 16)
  let tail := leBytes 4 ((List.range 4).foldl (fun v t => v + a.mode t * 4 ^ t) 0) ++ leBytes 4 (a.status 4) ++
    (List.range 4).flatMap (fun t => leBytes 4 (a.status t)) ++ List.replicate 40 0
  words ++ panel ++ cols ++ tail

/-- The array that an area holds. The signedness of each K-block and the count of instructions stand with the block (log 33). -/
def MxArray.ofImage (a : MxArray) (b : Nat → Byte) : MxArray :=
  let word := fun off => (b off).toNat + (b (off + 1)).toNat * 2 ^ 8 + (b (off + 2)).toNat * 2 ^ 16 + (b (off + 3)).toNat * 2 ^ 24
  let modes := word 0xD0000
  let ps := word 0xD0004
  let form := recField ps 1 0
  let float := recField ps 2 2 = 1
  let weight := fun (i : Nat) =>
    let k := i / 1024
    let n := i % 1024
    match form with
    | 0 => 0
    | 2 => if n < 256 then (b (0x80000 + (k * 256 + n) * 2)).toNat + (b (0x80000 + (k * 256 + n) * 2 + 1)).toNat * 256 else 0
    | 3 => (b (0x80000 + k * 256 + n / 4)).toNat / 4 ^ (n % 4) % 4
    | _ => if n < 512 then (b (0x80000 + k * 512 + n)).toNat else 0
  { a with
    tiles := SMap.build 0 (fun i => BitVec.ofNat 32 (word (4 * i))) 0 131072
    modes := SMap.build 0 (fun t => recField modes (2 * t + 1) (2 * t)) 0 4
    tstat := SMap.build 0 (fun t => word (0xD0008 + 4 * t) % 64) 0 4
    form := form, float := float, wb := recField ps 4 3, pstat := recField ps 8 5
    weights := SMap.build 0 weight 0 524288
    scales := if float then [] else SMap.build 0x3F80 (fun i => word (0xC0000 + 4 * i) / 2 ^ 16) 0 16384
    exps := SMap.build 0 (fun i => intOf true 16 (word (0xC0000 + 4 * i))) 0 16384
    special := if float then (List.range 16384).filter fun i => (word (0xC0000 + 4 * i)).testBit 31 else [] }

end Machine
end Sys2Proof
end

