-- ==== Sys2Proof/Machine/Matrix.lean ====
section
/-! DEFINITION. Matrix array and Tarn weight store (R354, R356, R360 to R376 16_matrix.md): the ten instructions, and the events by which
the array and the weight store carry them out. -/

namespace Sys2Proof
namespace Machine

/-! ### The array of a core (R354, R356) -/

/-- Does the group belong to the block that holds its core's array? -/
def Cx.ownsArray (c : Cx) : Bool := c.l.mxu && !c.g.spawned

def State.array (s : State) (launch block core : Nat) : MxArray :=
  match s.block? launch block with
  | some b => b.arrays.get MxArray.empty (b.corePos core)
  | none => MxArray.empty
def State.modArray (s : State) (launch block core : Nat) (f : MxArray → MxArray) : State :=
  s.modBlock launch block fun b => { b with arrays := b.arrays.set MxArray.empty (b.corePos core) (f (b.arrays.get MxArray.empty (b.corePos core))) }

/-- Does the operation stand in the order of R356? -/
def MxWhat.inOrder : MxWhat → Bool
  | .wsWrite _ _ _ | .wsRead _ _ _ => false
  | _ => true

/-- The work of a matrix operation that stands in the order of R356 and has not had its effect yet. -/
def Op.pendingMx (o : Op) : Option MxWork :=
  match o.kind with
  | .matrix w => if w.what.inOrder && decide (w.stage < 2) then some w else none
  | _ => none

/-- The mode of a tile once the MCFGs that have issued at the core have taken effect: what an instruction issued now will find. -/
def State.modeAhead (s : State) (launch block core t : Nat) : Nat :=
  s.ops.foldl (fun m o => if o.core ≠ core then m else match o.pendingMx with
    | some w => (match w.what with
      | .cfg modes => if w.active.isEmpty then m else recField modes (2 * t + 1) (2 * t)
      | _ => m)
    | none => m) ((s.array launch block core).mode t)

/-! ### Issue -/

/-- A matrix operation as it issues. -/
def Cx.mxWork (c : Cx) (p : BitVec 4) (what : MxWhat) : MxWork :=
  { what := what, active := c.threads p, members := c.actingMembers p, stage := 0, rows := [], saddrs := [], lines := [], busy := 0 }

/-- Issue an operation on a counter: the faults that its values meet, its tiles, its outgoing edge. -/
def Cx.startMx (c : Cx) (s : State) (p : BitVec 4) (counter : Nat) (bad : List (Nat × Nat)) (tiles : List TileWant) (room : Nat)
    (what : MxWhat) : Res :=
  let tiles := if (c.threads p).isEmpty then [] else tiles
  match pickFault s.stamp (bad ++ tiles.flatMap fun t => (c.tileFails s t).map fun d => (0x10, d)) with
  | some (cause, d) => .fault { cause := cause, detail := d, msk := c.threads p }
  | none => match c.tileStalls s tiles with
    | some (k, role) => .stall s (.tileStall k role)
    | none =>
      if c.stageFull s room then .hold
      else
        let (e, s) := (c.tileIssue (c.outgoing s) tiles).openEdge c.g.id c.g.horizon
        let (id, s) := s.fresh
        .done (s.newOp { c.opOf s id counter 0 (.matrix (c.mxWork p what)) with ends := tiles.map fun t => c.tileUse t.k t.role, edge := e })

/-- Issue an interlocked matrix instruction: the group waits until the array has executed it. -/
def Cx.waitMx (c : Cx) (s : State) (p : BitVec 4) (bad : List (Nat × Nat)) (what : MxWhat) : Res :=
  match pickFault s.stamp bad with
  | some (cause, d) => .fault { cause := cause, detail := d, msk := c.threads p }
  | none =>
    let (id, s) := s.fresh
    .stall { s with ops := s.ops ++ [c.opOf s id 4 0 (.matrix (c.mxWork p what))] } (.engine id)

def bad13 (l : List Nat) : List (Nat × Nat) := l.map fun d => (0x13, d)
/-- An instruction of the array by a group that does not hold it (R354). -/
def Cx.mxOwner (c : Cx) : List Nat := failIf (!c.ownsArray) 8

/-- Fields of word 0 and word 1 that are zero where the table of R360 gives 0. -/
def zeroField (code : BitVec 9) : List Nat := failIf (decide (code ≠ 0)) 3
def recZero (x : Rec) (mask : Nat) (d a b : Bool) : List Nat :=
  (if d then zeroField x.d else []) ++ (if a then zeroField x.a else []) ++ (if b then zeroField x.b else []) ++ zeroField x.c ++
  (if outside x.sub mask then [3, 4] else [])
def recNoGuard (x : Rec) : List Nat := failIf (decide (x.p ≠ 0)) 3
def recNoRnd (x : Rec) : List Nat := failIf (decide (x.rnd ≠ 0)) 5

/-! ### MCFG and MZERO (R362, R363) -/

def mcfgFails (x : Rec) (_ : Cx) : List Nat := recZero x 0 true true true ++ recNoGuard x ++ recNoRnd x

/-- A mode word is bad: a reserved code, or half a pair in INT48. -/
def modesBad (w : Nat) : Bool :=
  let m := fun t => recField w (2 * t + 1) (2 * t)
  (List.range 4).any (fun t => decide (m t = 3)) || (m 0 == 1) != (m 1 == 1) || (m 2 == 1) != (m 3 == 1)

def effMcfg (x : Rec) (c : Cx) (s : State) : Res :=
  let w := c.recWord x
  c.waitMx s x.p (bad13 (c.mxOwner ++ failIf (decide (256 ≤ w 0) || decide (w 1 ≠ 0) || decide (w 2 ≠ 0) || decide (w 3 ≠ 0) || modesBad (w 0)) 1))
    (.cfg (w 0))

def formMzero (x : Ext) : Form := { own1 := 0xF, guard := false, negRow := 3, own := failIf (x.subBits 3 0 == 0) 16 }
def effMzero (x : Ext) (c : Cx) (s : State) : Res :=
  if c.full 3 then .stall s (.counterStall 3)
  else c.startMx s x.p 3 (bad13 c.mxOwner) [] 0 (.zero (x.subBits 3 0))

/-! ### MLDB and MLDBW (R364) -/

def mxTypeB : List DType := [.i8, .n8, .i4, .n4, .t2] ++ mxFloat
def mldTy (x : Rec) : DType := (DType.ofCode (x.sub % 32)).getD .b32
def mldWb (x : Rec) : Nat := x.sub / 32 % 4
def mldBs (x : Rec) : Bool := x.sub.testBit 7
def typeFails (code : Nat) (ok : List DType) : List Nat :=
  failIf (match DType.ofCode code with | some t => !ok.contains t | none => true) 4

def mldFails (x : Rec) (tarn : Bool) (_ : Cx) : List Nat :=
  recZero x 0xFF true tarn tarn ++ recNoRnd x ++ failIf (!tarn && x.a != 0x1FE) 8 ++
  failIf (!tarn && (if mldBs x then !(match operandOf x.b with | .ureg n => n % 2 == 0 | _ => false) else x.b != 0x1B0)) 8 ++
  typeFails (x.sub % 32) mxTypeB ++
  failIf (mldWb x == 3 || (!mxFloatKind (mldTy x) && mldWb x != 0) || (mxFloatKind (mldTy x) && mldBs x)) 4

def effMld (x : Rec) (tarn : Bool) (c : Cx) (s : State) : Res :=
  let w := c.recWord x
  let kb := recField (w 3) 3 0
  let kn := recField (w 3) 7 4 + 1
  let bs := mldBs x
  c.startMx s x.p 3 (bad13 (c.mxOwner ++ failIf (decide (16 < kb + kn) || decide (256 ≤ w 3) ||
      (if tarn then decide (2 ^ 30 ≤ w 0) || decide (2 ^ 30 ≤ w 2) || (!bs && decide (w 2 ≠ 0)) else decide (2 ^ 25 ≤ w 1))) 1)) [] 0
    (if tarn then .load true (mldTy x) (mldWb x) bs (w 0) (w 1) (w 2) kb kn
     else .load false (mldTy x) (mldWb x) bs (c.recAddr x 0) (w 2) (if bs then (c.ownVal x.b true .int none 0).toNat else 0) kb kn)

/-! ### MMA (R365, R366) -/

def mmaTy (x : Rec) : DType := (DType.ofCode (x.sub % 32)).getD .b32
def mmaMt (x : Rec) : Nat := x.sub / 2 ^ 5 % 4
def mmaNh (x : Rec) : Nat := x.sub / 2 ^ 7 % 4
def mmaAcc (x : Rec) : Bool := x.sub.testBit 9
def mmaBsa (x : Rec) : Bool := x.sub.testBit 10

def mmaFails (x : Rec) (_ : Cx) : List Nat :=
  recZero x 0x7FF true false true ++ recNoRnd x ++
  failIf (!(copyEnd x.a).any fun e => !e.isMem) 8 ++ typeFails (x.sub % 32) (mxIntA ++ mxFloat) ++ failIf (mmaNh x == 3) 16

/-- The A stream of a member as a number (R365): word i in lane i mod 32 of register VA + floor(i / 32). -/
def Cx.aStream (c : Cx) (va words m : Nat) : Nat :=
  (List.range words).foldl (fun a i => a + (c.vread (va + i / 32) (32 * m + i % 32)).1.toNat * 2 ^ (32 * i)) 0

/-- Words of a vector source. -/
def mmaWords (ty : DType) (nrow kn : Nat) : Nat := (nrow * kn * 32 * ty.width + 31) / 32
def Cx.mmaRegs (c : Cx) (x : Rec) : Nat :=
  (mmaWords (mmaTy x) (recField (c.recWord x 1) 5 0 + 1) (recField (c.recWord x 1) 25 22 + 1) + 31) / 32

def effMma (x : Rec) (c : Cx) (s : State) : Res :=
  let w := c.recWord x
  let ty := mmaTy x
  let float := mxFloatKind ty
  let aoff := recField (w 0) 15 0
  let astr := recField (w 0) 31 16
  let nrow := recField (w 1) 5 0 + 1
  let row0 := recField (w 1) 11 6
  let mstr := recField (w 1) 17 12
  let kb := recField (w 1) 21 18
  let kn := recField (w 1) 25 22 + 1
  let wa := recField (w 1) 27 26
  let soff := recField (w 2) 15 0
  let tile := (copyEnd x.a).bind CopyEnd.tile?
  let va := ((copyEnd x.a).bind CopyEnd.reg?).getD 0
  let rowBytes := kn * 32 * ty.width / 8
  let members := c.actingMembers x.p
  let limits := decide (16 < kb + kn) || decide (recField (w 1) 31 28 ≠ 0) || (!float && decide (wa ≠ 0)) ||
    decide (recField (w 2) 31 16 ≠ 0) || decide (w 3 ≠ 0) ||
    (if mmaBsa x then float || tile.isNone else decide (soff ≠ 0)) ||
    (if tile.isSome then decide (16 * astr < rowBytes) else decide (w 0 ≠ 0)) ||
    members.any fun m => decide (63 < row0 + m * mstr + nrow - 1)
  let regs := tile.isNone && decide (c.l.vregs < va + c.mmaRegs x)
  let bad := c.mxOwner ++ failIf limits 1 ++ failIf regs 7
  let wants := match tile with
    | some k => [{ k := k, role := .reader, first := 128 * aoff, bits := 128 * (nrow - 1) * astr + 8 * rowBytes : TileWant }]
    | none => []
  -- the scales of a tile source lie in the part too
  let short := match tile with
    | some k => mmaBsa x && (c.tile s k).defined && decide ((c.tile s k).sz * 64 < 16 * soff + 2 * nrow * kn)
    | none => false
  c.startMx s x.p 3 (bad13 bad ++ if short && !members.isEmpty then [(0x10, 5)] else []) wants 0
    (.mma ty (mmaMt x) (mmaNh x) (mmaAcc x) (mmaBsa x) tile aoff astr nrow row0 mstr kb kn wa soff
      (if tile.isNone && bad.isEmpty then members.map fun m => (m, c.aStream va (mmaWords ty nrow kn) m) else []))

/-- The registers of a vector source, and the marked units of the words it reads (R245, R365). -/
def Cx.mmaCount (c : Cx) (x : Rec) : Nat :=
  mmaWords (mmaTy x) (recField (c.recWord x 1) 5 0 + 1) (recField (c.recWord x 1) 25 22 + 1)
def Cx.mmaUses (c : Cx) (x : Rec) : List RegUse :=
  match copyEnd x.a with
  | some (.reg n) => elementUses n .b32 (c.mmaCount x)
  | _ => []
def Cx.mmaMark (c : Cx) (x : Rec) : Option TrapReq :=
  match copyEnd x.a with
  | some (.reg n) => c.elementMark n .b32 (c.mmaCount x) (c.actingMembers x.p)
  | _ => none

/-! ### MDRN (R368) -/

def mdrTd (x : Rec) : DType := (DType.ofCode (x.sub % 32)).getD .b32
def mdrMt (x : Rec) : Nat := x.sub / 2 ^ 5 % 4

/-- The encoding, and the pair of the tile's mode and TD where the group holds the array. -/
def mdrnFails (x : Rec) (s : State) (c : Cx) : List Nat :=
  let mode := s.modeAhead c.l.id c.g.block c.g.core (mdrMt x)
  recZero x 0xFF false true true ++ failIf (!(copyEnd x.d).any fun e => e.reg?.isNone) 7 ++ typeFails (x.sub % 32) drainAccepts ++
  failIf (decide (6 ≤ x.rnd)) 5 ++
  (if c.ownsArray then
    failIf (!pairRounds (drainType mode) (mdrTd x) && decide (x.rnd ≠ 0)) 5 ++
    failIf (mode == 1 && mdrMt x % 2 == 1) 4
  else [])

def effMdrn (x : Rec) (c : Cx) (s : State) : Res :=
  let w := c.recWord x
  let tile := (copyEnd x.d).bind CopyEnd.tile?
  let row0 := recField (w 3) 5 0
  let nr := recField (w 3) 11 6 + 1
  let col0 := recField (w 3) 20 12
  let nc := recField (w 3) 29 21 + 1
  let size := (mdrTd x).width / 8
  let limits := decide (64 < row0 + nr) || decide (512 < col0 + nc) || decide (recField (w 3) 31 30 ≠ 0) ||
    (if tile.isSome then decide (2 ^ 16 ≤ w 0) || decide (w 1 ≠ 0) else decide (2 ^ 25 ≤ w 1))
  let wants := match tile with
    | some k => [{ k := k, role := .fill, first := 128 * w 0, bits := 8 * ((nr - 1) * w 2 + nc * size) : TileWant }]
    | none => []
  c.startMx s x.p 3 (bad13 (c.mxOwner ++ failIf limits 1)) wants (if tile.isNone then nr * nc * size else 0)
    (.drain (mdrTd x) (c.mode x.rnd) c.fzi c.fzo (mdrMt x) (x.sub.testBit 7) tile (if tile.isSome then 16 * w 0 else c.recAddr x 0)
      (w 2) row0 nr col0 nc)

/-! ### MSTAT (R369) -/

def mstatSel (x : Ext) : Nat := x.subBits 2 0
def formMstat (x : Ext) : Form :=
  { dest := .reg (mstatSel x == 5) true true true, own1 := 0xF, guard := isVec x.d, negRow := 3,
    own := failIf (decide (6 ≤ mstatSel x)) 16 }
def effMstat (x : Ext) (c : Cx) (s : State) : Res :=
  c.waitMx s x.p (bad13 c.mxOwner) (.stat (mstatSel x) (x.bit1 3) x.d x.p)

/-! ### The weight store (R371 to R376) -/

def wsFails (x : Rec) (write : Bool) (_ : Cx) : List Nat :=
  recZero x 0 write (!write) true ++ recNoGuard x ++ recNoRnd x ++
  (if write then failIf (x.a != 0x1FE) 8 else failIf (x.d != 0x1FE) 7)

def effWs (x : Rec) (write : Bool) (c : Cx) (s : State) : Res :=
  let w := c.recWord x
  let addr := c.recAddr x 0
  let ta := w 2
  let len := recField (w 3) 23 0 + 1
  c.startMx s x.p 2 (bad13 (failIf (write && !c.l.wl) 4 ++
      failIf (decide (addr % 64 ≠ 0) || decide (ta % 64 ≠ 0) || decide (2 ^ 30 < ta % 2 ^ 30 + 64 * len)) 5 ++
      failIf (decide (2 ^ 25 ≤ w 1) || decide (2 ^ 30 ≤ ta) || decide (2 ^ 24 ≤ w 3)) 1)) [] (if write then 0 else 64 * len)
    (if write then .wsWrite addr ta len else .wsRead addr ta len)

/-- The bank that refreshes at a device time (R373). -/
def State.bankAt (s : State) (t : Nat) : Option Nat :=
  let ph := (t + 112000 - s.tarnPhase % 112000) % 112000
  if ph % 7000 < 3500 then some (ph / 7000) else none
/-- Clocks until REF of a bank next changes (R376). -/
def State.refChange (s : State) (bank t : Nat) : Nat :=
  let ph := (t + 112000 - s.tarnPhase % 112000 + 112000 - 7000 * bank) % 112000
  if ph < 3500 then 3500 - ph else 112000 - ph

def wsqSel (x : Ext) : Nat := x.subBits 1 0
def formWsqry (x : Ext) : Form :=
  { dest := .reg true true true false, own1 := 3, guard := isVec x.d, negRow := 3,
    srcs := if wsqSel x = 1 then [{ slot := .A, wide := false, kinds := ⟨true, true, true, true, false, false⟩, mods := false }] else [],
    own := failIf (decide (2 ≤ wsqSel x)) 16 }

/-- TARNSCHED (R373). -/
def State.tarnSched (s : State) : Dword := BitVec.ofNat 64 (s.tarnPhase % 2 ^ 17 + 7000 * 2 ^ 32 + 3500 * 2 ^ 48)

def effWsqry (x : Ext) (c : Cx) (s : State) : Res :=
  c.result s x true fun t =>
    if wsqSel x = 0 then (s.tarnSched, 0)
    else
      let bank := (c.plain x .A false .int t).toNat / 2 ^ 26 % 16
      (BitVec.ofNat 64 (bank + bit (decide (s.bankAt s.time = some bank)) 4 + s.refChange bank s.time * 2 ^ 32), 0)

/-! ### Meanings of the instructions -/

/-- MCFG (R362). -/
def execMcfg (x : Rec) (s : State) : Out := s.issueRec x 4 [] (mcfgFails x) (fun _ => none) (effMcfg x)
/-- MLDB (R364); its scale address is a pair. -/
def execMldb (x : Rec) (s : State) : Out :=
  s.issueRec x 3 (if mldBs x then [x.b] else []) (fun c => mldFails x false c) (fun _ => none) (effMld x false) true
/-- MLDBW (R364). -/
def execMldbw (x : Rec) (s : State) : Out := s.issueRec x 3 [] (fun c => mldFails x true c) (fun _ => none) (effMld x true)
/-- MMA (R366). -/
def execMma (x : Rec) (s : State) : Out :=
  s.issueRec x 3 [] (mmaFails x) (fun c => c.mmaMark x) (effMma x) false fun c => c.mmaUses x
/-- MZERO (R363). -/
def execMzero (x : Ext) (s : State) : Out := s.issueMem x.words x (formMzero x) [] (fun _ => []) (effMzero x)
/-- MDRN (R368). -/
def execMdrn (x : Rec) (s : State) : Out := s.issueRec x 3 [] (mdrnFails x s) (fun _ => none) (effMdrn x)
/-- MSTAT (R369). -/
def execMstat (x : Ext) (s : State) : Out := s.issueMem x.words x (formMstat x) [] (fun _ => []) (effMstat x)
/-- WSWR (R375). -/
def execWswr (x : Rec) (s : State) : Out := s.issueRec x 2 [] (wsFails x true) (fun _ => none) (effWs x true)
/-- WSRD (R375). -/
def execWsrd (x : Rec) (s : State) : Out := s.issueRec x 2 [] (wsFails x false) (fun _ => none) (effWs x false)
/-- WSQRY (R376). -/
def execWsqry (x : Ext) (s : State) : Out := s.issueMem x.words x (formWsqry x) [] (fun _ => []) (effWsqry x)

/-! ### The start of an operation (R356, R370) -/

/-- Translate runs of bytes for an engine operation: the rows' addresses, or the first failure. -/
def State.mxRows (s : State) (who : Who) (m : Nat) : List (Nat × Nat) → Except (Nat × Nat × Nat) (List (List Nat) × List TlbEntry)
  | [] => .ok ([], [])
  | (va, n) :: rest => match s.reachAll who (va % 2 ^ 64) n m with
    | (.error (va, cause, d), _) => .error (cause, d, va)
    | (.ok (addrs, _), seen) => match s.mxRows who m rest with
      | .error f => .error f
      | .ok (rows, seen') => .ok (addrs :: rows, seen ++ seen')

/-- The memory side of an operation, as runs of virtual bytes: rows, then scales; and whether it is read. -/
def MxWhat.side : MxWhat → Option (List (Nat × Nat) × List (Nat × Nat) × Bool)
  | .load false ty wb bs base str saddr _ kn =>
    let np := panelColumns (panelForm ty wb)
    some ((List.range (32 * kn)).map (fun i => (base + i * str, np * ty.width / 8)), if bs then [(saddr, 2 * np * kn)] else [], true)
  | .drain td _ _ _ _ _ none base str _ nr _ nc => some ((List.range nr).map (fun i => (base + i * str, nc * td.width / 8)), [], false)
  | .wsWrite addr _ len => some ((List.range len).map (fun i => (addr + 64 * i, 64)), [], true)
  | .wsRead addr _ len => some ((List.range len).map (fun i => (addr + 64 * i, 64)), [], false)
  | _ => none

/-- The first poisoned line among bytes that an operation reads. -/
def State.poisonedIn (s : State) (rows : List (List Nat)) : Option (Nat × Nat × Nat) :=
  (linesOf rows.flatten).findSome? fun line => match markFor line (s.markOf (s.fwd line)) with
    | some k => if k.cause = 6 then some (6, k.detail, k.addr) else none
    | none => none

/-- Start an operation: every byte of its memory side is translated and checked before any element moves. A failure completes it. -/
def State.mxStart (s : State) (o : Op) (w : MxWork) (priv : Bool) : State :=
  let go : MxWork := { w with stage := 1 }
  let set := fun (s : State) (w : MxWork) => s.modOp o.id fun o => { o with stamp := s.qi, kind := .matrix w }
  match w.members, w.what.side with
  | m :: _, some (rows, scales, rd) =>
    let who : Who := { core := some o.core, asid := o.asid, priv := priv, rd := rd, wr := !rd }
    match s.mxRows who m (rows ++ scales) with
    | .error (cause, d, va) => (s.defer o cause d va).complete o.id
    | .ok (addrs, seen) => match (if rd then s.poisonedIn addrs else none) with
      | some (cause, d, va) => (s.defer o cause d va).complete o.id
      | none => set (s.learn seen) { go with rows := addrs.take rows.length, saddrs := (addrs.drop rows.length).flatten }
  | _, _ => set s go

/-- MATRIX_INSTRUCTION_START (R356): the array takes the next instruction of its core in issue order. -/
def execMatrixInstructionStart (s : State) : Out :=
  match s.arg with
  | .num id => match s.op? id with
    | some o => match o.kind, s.group? o.grp with
      | .matrix w, some g =>
        let earlier := s.ops.any fun p => p.core == o.core && decide (p.id < o.id) && p.pendingMx.isSome
        if w.what.inOrder && w.stage == 0 && !earlier && s.edgeClear o.edge then
          .next ((s.tick.modArray g.launch g.block o.core fun a => { a with seq := a.seq + 1 }).mxStart o w
            (match s.launch? g.launch with | some l => l.priv | none => false))
        else notNow "MATRIX_INSTRUCTION_START"
      | _, _ => notNow "MATRIX_INSTRUCTION_START"
    | none => notNow "MATRIX_INSTRUCTION_START"
  | _ => notNow "MATRIX_INSTRUCTION_START"

/-! ### The weight store, line by line (R374, R375) -/

/-- The weight-store lines of an operation, ascending; those past its last address are not accessed. -/
def MxWhat.tarnLines : MxWhat → List Nat
  | .load true ty wb bs base str saddr _ kn =>
    let np := panelColumns (panelForm ty wb)
    let span := fun (a n : Nat) => (List.range ((a % 64 + n + 63) / 64)).map fun i => a / 64 + i
    let all := (List.range (32 * kn)).flatMap (fun i => span (base + i * str) (np * ty.width / 8)) ++
      if bs then span saddr (2 * np * kn) else []
    (sortBy (fun a b => decide (a ≤ b)) (all.foldl (fun ls x => if ls.contains x then ls else x :: ls) [])).filter fun x => decide (x < 2 ^ 24)
  | .wsWrite _ ta len | .wsRead _ ta len => (List.range len).map fun i => ta / 64 + i
  | _ => []

/-- A line of a die's weight store. -/
def State.tarnLine (s : State) (die line : Nat) : List Byte × Bool :=
  ((List.range 64).map fun i => SMap.get 0 s.tarn (2 ^ 30 * die + 64 * line + i), s.tarnFailing.contains (2 ^ 24 * die + line))
def State.putTarn (s : State) (die line : Nat) (b : List Byte) (failing : Bool) : State :=
  let key := 2 ^ 24 * die + line
  { s with
    tarn := b.zipIdx.foldl (fun m (b, i) => SMap.set 0 m (2 ^ 30 * die + 64 * line + i) b) s.tarn
    tarnFailing := if failing then key :: s.tarnFailing.filter (· ≠ key) else s.tarnFailing.filter (· ≠ key)
    tarnReported := s.tarnReported.filter (· ≠ key) }
/-- A line of a weight store is found failing: it is reported once (R39 01_machine.md, R461 21_management.md). -/
def State.foundTarn (s : State) (die line : Nat) : State :=
  let key := 2 ^ 24 * die + line
  if s.tarnFailing.contains key && !s.tarnReported.contains key then
    { s with tarnReported := key :: s.tarnReported }.event 1 die (64 * line)
  else s

/-- A line access of the weight store takes so many clocks from its start (R374). -/
def tarnClocks : Nat := 60

/-- Access the next weight-store line of an operation that has started. -/
def State.tarnAccess (s : State) (o : Op) (g : Group) (w : MxWork) (line : Nat) : State :=
  let die := dieOf o.core
  let i := w.lines.length
  let took := fun (s : State) (b : List Byte) (bad : Bool) =>
    s.modOp o.id fun o => { o with kind := .matrix { w with lines := w.lines ++ [(line, b, bad)], busy := s.time + tarnClocks } }
  match w.what with
  | .wsWrite _ _ _ =>
    let addrs := w.rows.getD i []
    let (vs, s) := s.engineLines g o.core (linesOf addrs)
    let r := viewBytes vs addrs
    let s := s.putTarn die line r.1 r.2.isSome
    let s := match r.2 with
      | some k => s.deferOnce o k.cause (if k.cause = 6 then k.detail else 128) k.addr
      | none => s
    took s [] r.2.isSome
  | _ =>
    let r := s.tarnLine die line
    let s := s.foundTarn die line
    let s := match w.what with
      | .wsRead _ _ _ => if r.2 then s.deferOnce o 7 128 (64 * line) else s
      | _ => s
    took s r.1 r.2

/-- WEIGHT_STORE_LINE_ACCESS (R374): the next line of an operation, after the one before it, outside its bank's refresh window. WSWR and WSRD start with their
first one. -/
def execWeightStoreLineAccess (s : State) : Out :=
  match s.arg with
  | .num id => match s.op? id with
    | some o => match o.kind, s.group? o.grp with
      | .matrix w, some g =>
        if !w.what.inOrder && w.stage == 0 && s.edgeClear o.edge then
          .next (s.tick.mxStart o w (match s.launch? g.launch with | some l => l.priv | none => false))
        else match w.what.tarnLines[w.lines.length]? with
          | some line =>
            if w.stage == 1 && !w.members.isEmpty && decide (w.busy ≤ s.time) && decide (s.bankAt s.time ≠ some (line / 2 ^ 20)) then
              .next (s.tick.tarnAccess o g w line)
            else notNow "WEIGHT_STORE_LINE_ACCESS"
          | none => notNow "WEIGHT_STORE_LINE_ACCESS"
      | _, _ => notNow "WEIGHT_STORE_LINE_ACCESS"
    | none => notNow "WEIGHT_STORE_LINE_ACCESS"
  | _ => notNow "WEIGHT_STORE_LINE_ACCESS"

/-- TARN_REFRESH_WINDOW (R373): the schedule has moved on. -/
def execTarnRefreshWindow (s : State) : Out :=
  if s.refresh ≠ s.bankAt s.time then .next { s.tick with refresh := s.bankAt s.time }
  else notNow "TARN_REFRESH_WINDOW"

/-! ### The effect and the end of an operation (R361) -/

/-- A number in `w` bits of a row of bytes from bit `first`, and whether a byte could not be read. -/
def rowBits (row : List Taken) (first w : Nat) : Nat × Bool :=
  let bs := (row.drop (first / 8)).take ((first % 8 + w + 7) / 8)
  (leNat (bs.map fun t => t.byte) / 2 ^ (first % 8) % 2 ^ w, bs.any fun t => t.mark.isSome)

/-- A byte of the weight store as an operation has read it; past the last address the spec gives none (log 34). -/
def MxWork.tarnByte (w : MxWork) (stamp ta : Nat) : Taken :=
  match w.lines.find? fun k => k.1 == ta / 64 with
  | some (_, b, bad) => { byte := b.getD (ta % 64) 0, mark := if bad then some { cause := 7, detail := 128, addr := ta } else none }
  | none => { byte := Config.freeByte stamp ta, mark := none }

/-- The bytes of a load: rows and scales. -/
def State.loadRows (s : State) (o : Op) (g : Group) (w : MxWork) (tarn : Bool) (ty : DType) (wb : Nat) (bs : Bool) (base str saddr kn : Nat) :
    List (List Taken) × List Taken × State :=
  let np := panelColumns (panelForm ty wb)
  if tarn then
    ((List.range (32 * kn)).map (fun i => (List.range (np * ty.width / 8)).map fun j => w.tarnByte s.stamp (base + i * str + j)),
     if bs then (List.range (2 * np * kn)).map fun j => w.tarnByte s.stamp (saddr + j) else [], s)
  else
    let (vs, s) := s.engineLines g o.core (linesOf (w.rows.flatten ++ w.saddrs))
    (w.rows.map fun r => r.map (takenAt vs), w.saddrs.map (takenAt vs), s)

/-- Write requests of an engine operation, one for each line; or its completion where there is none. `marks` gives a line's mark: 2
poisoned, 1 failing. -/
def State.engineSend (s : State) (o : Op) (g : Group) (ord : Bool) (lines : List (Nat × SMap Byte × Nat)) : State :=
  if lines.isEmpty then s.complete o.id
  else
    (lines.foldl (fun s (line, bytes, k) =>
      let (id, s) := s.fresh
      s.send { id := id, core := some o.core, die := dieOf o.core, line := s.fwd line, bytes := bytes, stamp := o.stamp, owners := [o.grp],
               waiters := [o.id], staged := if ord && !g.spawned then some (g.launch, g.block) else none, failing := false,
               poison := k == 2, marked := k == 1 } g.launch) s).modOp o.id fun o => { o with left := lines.length }

/-- The elements of a drain: row, column, converted bits, flags. -/
def drainElements (a : MxArray) (l : Launch) (td : DType) (mode : Rnd) (fzi fzo : Bool) (mt row0 nr col0 nc : Nat) :
    List (Nat × Nat × Nat × Flags) :=
  (List.range nr).flatMap fun i => (List.range nc).map fun j =>
    let r := convert l (drainType (a.mode mt)) td mode fzi fzo (a.drainBits mt (row0 + i) (col0 + j))
    (i, j, r.1, r.2)

/-- The effect of a matrix operation; the instruction is over for the array afterwards. -/
def State.mxEffect (s : State) (o : Op) (g : Group) (l : Launch) (w : MxWork) : State :=
  let a := s.array g.launch g.block o.core
  let put := fun (s : State) (f : MxArray → MxArray) => s.modArray g.launch g.block o.core f
  let collected := fun (s : State) => s.modOp o.id fun o => { o with kind := .matrix { w with stage := 2, rows := [], saddrs := [], lines := [] } }
  if w.members.isEmpty then s.complete o.id
  else match w.what with
    | .cfg modes => put s fun a => a.config modes
    | .zero mask => (put s fun a => (bitsSet 4 mask).foldl MxArray.zeroTile a).complete o.id
    | .load tarn ty wb bs base str saddr kb kn =>
      let (rows, scs, s) := s.loadRows o g w tarn ty wb bs base str saddr kn
      let np := panelColumns (panelForm ty wb)
      let rows := rows.toArray
      let (a', events) := a.load l ty wb bs kb kn (fun i n => rowBits (rows.getD i []) (n * ty.width) ty.width)
        (fun b n => rowBits (scs.drop (2 * (b * np + n))) 0 16)
      let s := put s fun _ => a'
      ({ s with mxerr := s.mxerr.set 0 o.core (logMx (s.mxerr.get 0 o.core) a.seq (events.map fun e => (if tarn then 3 else 2, e))) } : State).complete o.id
    | .mma ty mt nh acc bsa src aoff astr nrow row0 mstr kb kn wa soff streams =>
      match a.mmaFails ty mt nh bsa, a.columns mt nh with
      | [], some cols =>
        let part := fun (k m : Nat) => (s.tile g.launch g.block o.core k).part m
        let el := fun (m r k : Nat) => match src with
          | some t => s.poolBits g.launch g.block o.core (8 * (part t m + 16 * aoff + 16 * r * astr) + k * ty.width) ty.width
          | none => streams.get 0 m / 2 ^ ((r * kn * 32 + k) * ty.width) % 2 ^ ty.width
        let sc := fun (m r i : Nat) => match src with
          | some t => s.poolBits g.launch g.block o.core (8 * (part t m + 16 * soff + 2 * (r * kn + i))) 16
          | none => 0
        let lostA := fun (m r k : Nat) => Config.lostA s.stamp m r k || match src with
          | some t => (s.poolMark g.launch g.block o.core (8 * (part t m + 16 * aoff + 16 * r * astr) + k * ty.width) ty.width).isSome
          | none => false
        let lostW := Config.lostW s.stamp
        let s := { s with mxerr := s.mxerr.set 0 o.core (logMx (s.mxerr.get 0 o.core) a.seq (MxArray.lost kb kn nrow w.members cols lostA lostW)) }
        (put s fun a => a.mmaRead l ty wa bsa acc kb kn row0 mstr nrow w.members cols el sc lostA lostW).complete o.id
      | ds, _ => (s.defer o 0x13 (pickDetail s.stamp ds) 0).complete o.id
    | .drain td mode fzi fzo mt zr tile base str row0 nr col0 nc =>
      let els := drainElements a l td mode fzi fzo mt row0 nr col0 nc
      let fl := els.foldl (fun f e => f ||| e.2.2.2) (0 : Flags)
      let s := if zr then put s fun a => a.zeroRange mt row0 nr col0 nc else s
      let s := (collected s).modOp o.id fun o => { o with raises := if fl = 0 then [] else w.active.map fun t => (t, fl) }
      (match tile with
        | some k =>
          let first := (s.tile g.launch g.block o.core k).part (w.members.headD 0) + base
          (s.modBlock g.launch g.block fun b => els.foldl (fun b e =>
            b.putPool o.core (8 * (first + e.1 * str + e.2.1 * (td.width / 8))) td.width e.2.2.1) b).complete o.id
        | none =>
          let bytes := els.flatMap fun e => (leBytes (td.width / 8) e.2.2.1).zipIdx.map fun b =>
            ((w.rows.getD e.1 []).getD (e.2.1 * (td.width / 8) + b.2) 0, b.1)
          s.engineSend o g l.ord ((gather bytes).map fun k => (k.1, k.2, 0)))
    | .stat sel clr _ _ =>
      if sel = 5 then { s with mxerr := s.mxerr.erase o.core }
      else if clr then put s fun a => a.clearStatus sel else s
    | .wsWrite _ _ _ => s.complete o.id
    | .wsRead _ _ _ =>
      let lines : List (Nat × SMap Byte × Nat) := (w.rows.zip w.lines).map fun (r, k) =>
        (r.headD 0 / 64, k.2.1.zipIdx.map fun (b : Byte × Nat) => (b.2, b.1), if k.2.2 then 1 else 0)
      (collected s).engineSend o g l.ord (lines.foldl (fun (ls : List (Nat × SMap Byte × Nat)) k => SMap.put ls k.1 k.2) [])

/-- The value of an MSTAT (R369). -/
def State.mxStatus (s : State) (o : Op) (g : Group) (sel : Nat) : Dword :=
  if sel = 5 then s.mxerr.get 0 o.core else w32 ((s.array g.launch g.block o.core).status sel)

/-- The end of an interlocked matrix instruction: its result, and its sub-group goes on past `words` words. -/
def State.mxRelease (s : State) (o : Op) (w : MxWork) (v : Dword) (words : Nat) : State :=
  let s' := s.dropOp o.id
  match s.heldBy o.id with
  | none => s'
  | some r =>
    let s' := s'.modSub r fun u => { u with phase := .running }
    match s'.group? r.grp with
    | none => s'
    | some g => match g.sub? r.sub, s'.launch? g.launch with
      | some u, some l =>
        let c : Cx := { g := g, u := u, l := l, r := r, stamp := s.stamp }
        let s' := match w.what with
          | .stat sel _ d _ => (match operandOf d with
            | .ureg n => if w.members.isEmpty then c.keepUni s' n (sel == 5) else c.writeUni s' n (sel == 5) v 0
            | _ => c.writeLanes s' d (sel == 5) (w.active.map fun t => ⟨t, v, 0⟩))
          | _ => s'
        s'.advance r words
      | _, _ => s'

/-- MATRIX_OPERATION_COMPLETE (R361): a started operation has its effect; an interlocked one lets its group go on, another completes on
its counter, or waits for its writes. -/
def execMatrixOperationComplete (s : State) : Out :=
  match s.arg with
  | .num id => match s.op? id with
    | some o => match o.kind, s.group? o.grp with
      | .matrix w, some g => match s.launch? g.launch with
        | some l =>
          if w.stage == 1 && (w.members.isEmpty || decide (w.lines.length = w.what.tarnLines.length)) && decide (w.busy ≤ s.time) &&
              (w.rows.flatten ++ w.saddrs).all (fun pa => s.pathTo (pa / 64)) then
            let t := s.tick
            match w.what with
            | .cfg _ => .next ((if w.members.isEmpty then t else t.mxEffect o g l w).mxRelease o w 0 7)
            | .stat sel _ _ _ => .next ((if w.members.isEmpty then t else t.mxEffect o g l w).mxRelease o w (s.mxStatus o g sel) 3)
            | _ => .next (t.mxEffect o g l w)
          else notNow "MATRIX_OPERATION_COMPLETE"
        | none => notNow "MATRIX_OPERATION_COMPLETE"
      | _, _ => notNow "MATRIX_OPERATION_COMPLETE"
    | none => notNow "MATRIX_OPERATION_COMPLETE"
  | _ => notNow "MATRIX_OPERATION_COMPLETE"

end Machine
end Sys2Proof
end

