-- ==== Sys2Proof/Machine/Collective.lean ====
section
/-! DEFINITION. Collective engine (R390 to R410 18_collective.md): the member collectives, MHIST, CCOLL with its matching and its
four modes. -/

namespace Sys2Proof
namespace Machine

/-! ### Member collectives (R390 to R396) -/

/-- A source of a member collective: any code but the literal. -/
def memberSrc (sl : Slot) (wide : Bool) : SrcUse := { slot := sl, wide := wide, kinds := notLit }

/-- Does MSUMX merge accumulators? -/
def sumX (x : Ext) : Bool := x.bit1 5

def formMsumx (x : Ext) : Form :=
  if sumX x then { own1 := 0x3FF, own := failIf (x.tcode != 0) 4 }
  else { dest := .reg x.ty.wide true false false, srcs := [memberSrc .A x.ty.wide], own1 := 0x3E0, rnd := .any, ty := some fltTypes,
         neg := true, own := failIf (x.subBits 9 6 != 0) 4 }
def formMmean (x : Ext) : Form :=
  { dest := .reg x.ty.wide true false false, srcs := [memberSrc .A x.ty.wide], rnd := .any, ty := some fltTypes, neg := true }
def formMsprd (x : Ext) : Form :=
  { dest := .reg x.ty.wide true false false, srcs := [memberSrc .A x.ty.wide], own1 := 0x20, rnd := .any, ty := some fltTypes,
    neg := true }
/-- MQNT: with ORD, B is a count and nothing rounds. -/
def formMqnt (x : Ext) : Form :=
  { dest := .reg x.ty.wide true false false, srcs := [memberSrc .A x.ty.wide, memberSrc .B (x.ty.wide && !x.bit1 5)], own1 := 0x20,
    rnd := if x.bit1 5 then .zero else .any, ty := some fltTypes, neg := true }
def formMrank (x : Ext) : Form :=
  { dest := .reg false true false false, srcs := [memberSrc .A x.ty.wide, memberSrc .B x.ty.wide, memberSrc .C false],
    ty := some [.f32, .f64, .i32, .n32], neg := x.ty.isFloat }
def formMhist : Form :=
  { srcs := [atomBase, memberSrc .B false, { slot := .C, wide := false, kinds := uniConst, mods := false }], own2 := 0xFFC, negRow := 3 }

/-- Write the result that `f` gives each lane from its active threads, lowest member first, to every one of them (R390); its flags
reach them all and trap nothing (R392). -/
def Cx.member (c : Cx) (s : State) (x : Ext) (wide : Bool) (f : List Nat → Nat × Flags) : Res :=
  let lanes : List Lane := (c.lanes x.p).flatMap fun (_, ts) =>
    let r := f ts
    ts.map fun t => ⟨t, BitVec.ofNat 64 r.1, r.2⟩
  match operandOf x.d with
  | .vreg n => .done (s.modGroup c.r.grp fun g => (g.putRegs c.r.sub n wide (laneAt lanes)).raise lanes)
  | _ => .done s

/-- The value of a floating-point B for a lane, flushed (R392). -/
def Cx.laneB (c : Cx) (x : Ext) (t : Nat) : Ex := flushIn c.fzi (fmtOf x.ty) (c.flt x .B x.ty t)

/-- MSUMX over values (R393). -/
def msumOf (f : Fmt) (e : FpEnv) (xs : List Ex) : Nat × Flags :=
  if xs.any Ex.isNan then nanres f xs false else fsum xs f e.mode e.fzo

/-- MMEAN (R393). -/
def mmeanOf (f : Fmt) (e : FpEnv) (xs : List Ex) : Nat × Flags :=
  if xs.any Ex.isNan then nanres f xs false
  else if xs.any Ex.isInf then fsum xs f e.mode e.fzo
  else match xs.foldl addRat (.rat false 0 1) with
    | .rat s n d => if n = 0 then fsum xs f e.mode e.fzo else round f e.mode e.fzo (.rat s n (d * xs.length))
    | _ => (f.nan, 0)

/-- MSPRD (R394). -/
def msprdOf (smp : Bool) (f : Fmt) (e : FpEnv) (xs : List Ex) : Nat × Flags :=
  let n := xs.length
  let d := if smp then n - 1 else n
  if xs.any Ex.isNan then nanres f xs false
  else if xs.any Ex.isInf || d == 0 then (f.nan, flagNV)
  else
    let sq := fun x => match x with
      | Ex.rat _ a b => Ex.rat false (a * a) (b * b)
      | y => y
    match xs.foldl addRat (.rat false 0 1), (xs.map sq).foldl addRat (.rat false 0 1) with
    | .rat _ a b, .rat _ p q =>
      -- v = (p / q - a² / (b² n)) / d
      let num := p * (b * b * n) - a * a * q
      if num = 0 then (f.signBit false, 0) else round f e.mode e.fzo (rootEx 2 num (q * (b * b * n) * d) 1200)
    | _, _ => (f.nan, 0)

/-- Values in ascending order, -0 below +0 (R395). -/
def ascending (xs : List Ex) : List Ex := sortBy (fun a b => !belowEx b a) xs

/-- The exact outcome of a quantile (R395): an invalid one, a selected value, or an interpolated one. -/
inductive Quantile where
  | invalid
  | select (y : Ex)
  | between (y : Ex)
deriving DecidableEq, Repr

def quantile (ys : List Ex) (p : Ex) : Quantile :=
  match p with
  | .rat s a b =>
    if (s && a != 0) || decide (b < a) then .invalid
    else
      let h := a * (ys.length - 1)
      let lo := ys.getD (h / b) (.nan false)
      if h % b = 0 then .select lo
      else
        let hi := ys.getD (h / b + 1) (.nan false)
        if eqEx lo hi then .select lo
        else match lo, hi with
          | .inf true, .inf false => .invalid
          | .inf s, _ => .select (.inf s)
          | _, .inf s => .select (.inf s)
          | _, _ => match addRat hi lo.flip with
            | .rat t n d => .between (addRat lo (.rat t (n * (h % b)) (d * b)))
            | _ => .invalid
  | _ => .invalid

/-- MQNT (R395); a selected value is written as it stands. -/
def mqntOf (f : Fmt) (e : FpEnv) (xs : List Ex) (which : Nat ⊕ Ex) : Nat × Flags :=
  if xs.any Ex.isNan then nanres f xs false
  else
    let ys := ascending xs
    match which with
    | .inl k => if ys.length ≤ k then (f.nan, flagNV) else (exactBits f (ys.getD k (.nan false)), 0)
    | .inr p => match quantile ys p with
      | .invalid => (f.nan, flagNV)
      | .select y => (exactBits f y, 0)
      | .between y => if y.isZero then (f.signBit (decide (e.mode = .rdn)), 0) else round f e.mode e.fzo y

/-- KR (R396). -/
def rankKey : Dword := 0x95F619980C4336F7

/-- The rank with `below` values below and `ties` equal to the observation, at a grid index (R396). -/
def rankOf (below ties grid : Nat) : Nat := below + bits (hmix rankKey (BitVec.ofNat 64 grid)) 63 32 % (ties + 1)

/-- MRANK over floating-point values. -/
def mrankFlt (o : Ex) (xs : List Ex) (grid : Nat) : Nat × Flags :=
  let fl := if (o :: xs).any Ex.isSig then flagNV else 0
  if o.isNan then (0xFFFFFFFF, fl)
  else
    let ys := xs.filter fun y => !y.isNan
    (rankOf (ys.filter fun y => ltEx y o).length (ys.filter fun y => eqEx y o).length grid, fl)

/-- The merge (R340) of some accumulators. -/
def mergeAll : List Accum → Accum
  | [] => Accum.clear
  | a :: rest => rest.foldl Accum.merge a

/-- MSUMX (R393): over values, or over accumulators. -/
def effMsumx (x : Ext) (c : Cx) (s : State) : Res :=
  if sumX x then
    let ms := (c.acting x.p).map fun t => t / 32
    let sum := mergeAll (ms.map fun m => c.g.acc m (x.subBits 9 8))
    .done (s.modGroup c.r.grp fun g => ms.foldl (fun g m => g.clearAcc m (x.subBits 7 6) sum) g)
  else c.member s x x.ty.wide fun ts => msumOf (fmtOf x.ty) (c.env x) (ts.map (c.fin x .A))
/-- MMEAN (R393). -/
def effMmean (x : Ext) (c : Cx) (s : State) : Res :=
  c.member s x x.ty.wide fun ts => mmeanOf (fmtOf x.ty) (c.env x) (ts.map (c.fin x .A))
/-- MSPRD (R394). -/
def effMsprd (x : Ext) (c : Cx) (s : State) : Res :=
  c.member s x x.ty.wide fun ts => msprdOf (x.bit1 5) (fmtOf x.ty) (c.env x) (ts.map (c.fin x .A))
/-- MQNT (R395). -/
def effMqnt (x : Ext) (c : Cx) (s : State) : Res :=
  c.member s x x.ty.wide fun ts =>
    mqntOf (fmtOf x.ty) (c.env x) (ts.map (c.fin x .A))
      (if x.bit1 5 then .inl (c.src x .B false .int (ts.headD 0)).toNat else .inr (c.laneB x (ts.headD 0)))
/-- MRANK (R396). -/
def effMrank (x : Ext) (c : Cx) (s : State) : Res :=
  c.member s x false fun ts =>
    let t := ts.headD 0
    let grid := (c.src x .C false .int t).toNat
    if x.ty.isFloat then mrankFlt (c.laneB x t) (ts.map (c.fin x .A)) grid
    else
      let o := intTy x.ty (c.src x .B false .int t).toNat
      let ys := ts.map fun t => intTy x.ty (c.src x .A false .int t).toNat
      (rankOf (ys.filter fun y => decide (y < o)).length (ys.filter fun y => y == o).length grid, 0)

/-- MHIST (R397): one increment for each lane whose rank is below NB; the sub-group waits until all are visible. -/
def effMhist (x : Ext) (c : Cx) (s : State) : Res :=
  let nb := (c.plain x .C false .int 0).toNat
  let wants : List Want := (c.lanes x.p).filterMap fun (t, _) =>
    let r := (c.src x .B false .int t).toNat
    if r < nb then some { thread := t, va := lo ((c.src x .A true .int t).toNat + ofsOf x + 4 * r) 64, member := t / 32 } else none
  match s.translate c (c.who true true) 4 (some (4, 7)) x.p (sortBy (fun a b => decide (a.thread ≤ b.thread)) wants) with
  | .error t => .fault t
  | .ok (gs, seen) =>
    if nb = 0 ∨ 65536 < nb then .fault { cause := 0x15, detail := 2, msk := c.threads x.p }
    else match sortBy (fun (a b : Got) => decide (a.thread % 32 ≤ b.thread % 32)) gs with
    | [] => .done s
    | gs =>
      let reqs : List AtomReq := gs.map fun g =>
        { thread := g.thread, pa := g.addrs.headD 0, width := 4, what := 0, opn := 0, ty := .n32, rnd := .rne, fzi := false, fzo := false,
          b := 1, c := 0, reg := none, msa := g.msa, fl := 0, done := false }
      let s := c.yieldLines (s.learn seen) (linesOf (reqs.map fun r => s.place r.pa))
      let (id, s) := s.fresh
      .stall (s.newOp (c.opOf s id 4 reqs.length (.atom reqs))) (.engine id)

/-- Issue of MQNT and MRANK: A is read in every active thread, B and C only in the first member of each lane (R395, R396). -/
def State.issueLane (s : State) (x : Ext) (f : Form) (eff : Cx → State → Res) : Out :=
  let part := fun (srcs : List SrcUse) => formUses x { f with srcs := srcs }
  s.issue x.words (fun c => formFails x f ++ dynFails c x f)
    (fun c => lowerMark (c.markFault (part (f.srcs.take 1)) (c.threads x.p) false)
      (c.markFault (part (f.srcs.drop 1)) (c.firstMembers x.p) false))
    (fun c s => if c.uniHeld (holdUses x f) || c.awaitHeld (formUses x f) || c.u.observing.isSome then .hold else eff c s)

/-- MSUMX (R393). -/
def execMsumx (x : Ext) (s : State) : Out :=
  let names := if sumX x then [x.subBits 7 6, x.subBits 9 8] else []
  s.issueAcc x.words x (formMsumx x) names (names.drop 1) (some 4) (effMsumx x)
/-- MMEAN (R393). -/
def execMmean (x : Ext) (s : State) : Out := s.issueMem x.words x (formMmean x) [] (fun _ => []) (effMmean x)
/-- MSPRD (R394). -/
def execMsprd (x : Ext) (s : State) : Out := s.issueMem x.words x (formMsprd x) [] (fun _ => []) (effMsprd x)
/-- MQNT (R395). -/
def execMqnt (x : Ext) (s : State) : Out := s.issueLane x (formMqnt x) (effMqnt x)
/-- MRANK (R396). -/
def execMrank (x : Ext) (s : State) : Out := s.issueLane x (formMrank x) (effMrank x)
/-- MHIST (R397). -/
def execMhist (x : Ext) (s : State) : Out :=
  s.issueMem x.words x formMhist [] (fun _ => []) (effMhist x) fun c => c.firstMembers x.p

/-! ### CCOLL: encoding and record (R399 to R401) -/

/-- The endpoint codes; the accumulator is `i` of the record. -/
def ccollEnd (code : BitVec 9) (i : Nat) : Option CcollEnd :=
  let n := code.toNat
  if n ≤ 0xEF then some (.reg n)
  else if n = 0x1FD then some (.acc i)
  else if n = 0x1FE then some .mem
  else none

def CcollEnd.kind : CcollEnd → Nat
  | .reg _ => 0
  | .acc _ => 1
  | .mem => 2

def ccollMode (c : Cx) (x : Rec) : Nat := recField (c.recWord x 0) 1 0
def ccollCount (c : Cx) (x : Rec) : Nat := recField (c.recWord x 1) 19 0 + 1
def ccollLevel (c : Cx) (x : Rec) : Nat := recField (c.recWord x 0) 4 2
def ccollXc (c : Cx) (x : Rec) : Bool := (c.recWord x 0).testBit 5
def ccollTeam (c : Cx) (x : Rec) : Nat := recField (c.recWord x 0) 15 8
def ccollSrc (c : Cx) (x : Rec) : Option CcollEnd := ccollEnd x.a (recField (c.recWord x 1) 21 20)
def ccollDst (c : Cx) (x : Rec) : Option CcollEnd := ccollEnd x.d (recField (c.recWord x 1) 23 22)

/-- The pair that an address field names where its endpoint is memory. -/
def ccollPairs (x : Rec) : List RegUse :=
  (if x.a = 0x1FE then [{ code := x.b, mod := 0, regs := 2 }] else []) ++
  (if x.d = 0x1FE then [{ code := x.c, mod := 0, regs := 2 }] else [])

/-- An address field: an even uniform pair within the declared count, or the constant 0. -/
def ccollAddrFails (c : Cx) (mem : Bool) (code : BitVec 9) : List Nat :=
  if mem then
    match operandOf code with
    | .ureg n => failIf (n % 2 == 1 || decide (c.l.uregs < n + 2)) 8
    | _ => [8]
  else failIf (code != 0x1B0) 8

/-- The rows of R78 that fail; RND belongs to BANDED and QUANT. -/
def ccollFails (x : Rec) (c : Cx) : List Nat :=
  failIf ((ccollEnd x.d 0).isNone) 7 ++ failIf ((ccollEnd x.a 0).isNone) 8 ++
  ccollAddrFails c (x.a == 0x1FE) x.b ++ ccollAddrFails c (x.d == 0x1FE) x.c ++
  (if x.sub.testBit 10 then [3, 4] else []) ++
  failIf ((DType.ofCode (x.sub % 32)).isNone || (DType.ofCode (x.sub / 32 % 32)).isNone) 4 ++
  failIf (decide (6 ≤ x.rnd) || (!(ccollMode c x == 1 || ccollMode c x == 2) && x.rnd != 0)) 5

/-- Does a mode accept the types and endpoints (R400)? -/
def ccollAccepts (mode count : Nat) (ts td : DType) (src dst : CcollEnd) : Bool :=
  let small : List DType := [.f32, .bf16, .f16]
  match mode with
  | 0 => ts == .b32 && td == .b32 && src.kind != 0 && dst.kind != 0 && (count == 1 || (src == .mem && dst == .mem))
  | 1 => small.contains ts && small.contains td && src.kind != 1 && dst.kind != 1
  | 2 => (.f64 :: small).contains ts && (.f64 :: small).contains td && src.kind != 1 && dst.kind != 1
  | _ => (ts == .f32 || ts == .f64) && td == .n32 && src == .mem && dst == .mem

/-- Bytes of one element at memory: an image in EXACT. -/
def ccollBytes (mode : Nat) (t : DType) : Nat := if mode = 0 then 288 else t.width / 8

/-- Passes a register endpoint the declared count? -/
def ccollPast (c : Cx) (e : CcollEnd) (t : DType) (count : Nat) : Bool :=
  match e with
  | .reg n => decide (c.l.vregs < n + regsPer t * ((count + 31) / 32))
  | _ => false
/-- A 64-bit element lies in an even pair (R50 02_encoding.md). -/
def ccollOdd (e : CcollEnd) (t : DType) : Bool :=
  match e with
  | .reg n => t.wide && n % 2 == 1
  | _ => false
def ccollAccBad (c : Cx) (e : CcollEnd) : Bool :=
  match e with
  | .acc i => decide (c.l.acc ≤ i)
  | _ => false

/-- The DETAILs of cause 0x15 at issue (R400, R401, R409). -/
def ccollBad (x : Rec) (c : Cx) (src dst : CcollEnd) : List Nat :=
  let w := c.recWord x
  let mode := ccollMode c x
  let count := ccollCount c x
  failIf (!ccollAccepts mode count (tsOf x) (tdOf x) src dst || decide (recField (w 0) 7 6 ≠ 0) || decide (recField (w 0) 31 28 ≠ 0) ||
      decide (recField (w 1) 31 24 ≠ 0) || (decide (mode < 2) && decide (w 2 ≠ 0)) || (decide (mode ≠ 3) && decide (w 3 ≠ 0)) ||
      ccollAccBad c src || ccollAccBad c dst || ccollOdd src (tsOf x) || ccollOdd dst (tdOf x) ||
      (ccollXc c x && c.l.domain (ccollLevel c x) != some 4)) 6 ++
  failIf (ccollPast c src (tsOf x) count || ccollPast c dst (tdOf x) count) 1 ++
  failIf (ccollXc c x && decide (c.l.nteam ≤ ccollTeam c x)) 8

/-! ### CCOLL: issue (R399, R403) -/

/-- The lowest active thread of a member. -/
def Cx.first (c : Cx) (p : BitVec 4) (m : Nat) : Nat := ((c.threads p).find? fun t => t / 32 == m).getD (32 * m)

/-- Translate an endpoint of `count` elements of `n` bytes for each contributing member. -/
def Cx.ccollReach (c : Cx) (s : State) (p : BitVec 4) (rd wr : Bool) (va n count : Nat) :
    Except TrapReq (List (List Nat) × List TlbEntry) :=
  let ms := c.actingMembers p
  match s.translate c (c.who rd wr) n none p (ms.flatMap fun m =>
      (List.range count).map fun e => { thread := c.first p m, va := lo (va + e * n : Nat) 64, member := m }) with
  | .error t => .error t
  | .ok (gs, seen) => .ok (ms.map fun m => (gs.filter fun g => g.thread / 32 == m).flatMap fun g => g.addrs, seen)

/-- The registers of a register source. -/
def Cx.ccollUses (c : Cx) (x : Rec) : List RegUse :=
  match ccollSrc c x with
  | some (.reg n) => elementUses n (tsOf x) (ccollCount c x)
  | _ => []
/-- Marked units that the register or accumulator source of the instance reads. -/
def Cx.ccollMark (c : Cx) (x : Rec) : Option TrapReq :=
  lowerMark (c.markFault (ccollPairs x) (c.threads x.p) true) <| match ccollSrc c x with
    | some (.reg n) => c.elementMark n (tsOf x) (ccollCount c x) (c.actingMembers x.p)
    | some (.acc i) => c.accMark x.p [i]
    | _ => none

/-- An accumulator as an element of EXACT. -/
def Accum.number (a : Accum) : Nat := leNat a.image

/-- CCOLL: its faults at I, then the operation. -/
def effCcoll (x : Rec) (c : Cx) (s : State) : Res :=
  match ccollSrc c x, ccollDst c x with
  | some src, some dst =>
    let w := c.recWord x
    let mode := ccollMode c x
    let count := ccollCount c x
    let ms := c.actingMembers x.p
    let base := if src = .mem then (c.ownVal x.b true .int none 0).toNat else 0
    let dest := if dst = .mem then (c.ownVal x.c true .int none 0).toNat else 0
    -- a rank histogram has n + 2 words, of which the instance knows its own share (R407)
    let out := if mode = 3 then ms.length + 2 else count
    let names := (match src with | .acc i => [i] | _ => []) ++ match dst with | .acc i => [i] | _ => []
    if c.uniHeld (ccollPairs x) || c.accHeld names then .hold
    else if c.barFails (ccollLevel c x) then .fault { cause := 0x0C, msk := c.threads x.p }
    else
      let from' : Except TrapReq (List (List Nat) × List TlbEntry) :=
        if src = .mem then c.ccollReach s x.p true false base (ccollBytes mode (tsOf x)) count else .ok (ms.map fun _ => [], [])
      let to' : Except TrapReq (List (List Nat) × List TlbEntry) :=
        if dst = .mem then c.ccollReach s x.p false true dest (ccollBytes mode (tdOf x)) out else .ok (ms.map fun _ => [], [])
      match from', to' with
      | .error a, .error b => .fault (if b.thread < a.thread then b else a)
      | .error a, _ => .fault a
      | _, .error b => .fault b
      | .ok (srcs, seen), .ok (dsts, seen') =>
        match pickFault s.stamp ((ccollBad x c src dst).map fun d => (0x15, d)) with
        | some (cause, d) => .fault { cause := cause, detail := d, msk := c.threads x.p }
        | none =>
          if c.stageFull s (if dst = .mem then ms.length * ccollBytes mode (tdOf x) * (if mode = 3 then 258 else count) else 0) then .hold
          else
            let key := ((ccollLevel c x * 2 + bit (ccollXc c x) 0) * 256 + ccollTeam c x) * 4096 + recField (w 0) 27 16
            let kth := c.g.ccolls.get 0 key + 1
            let vals := ms.map fun m => match src with
              | .reg n => c.regValues n (tsOf x) count m
              | .acc i => [(c.g.acc m i).number]
              | .mem => []
            let (e, s) := (c.outgoing (s.learn (seen ++ seen'))).openEdge c.g.id c.g.horizon
            let (id, s) := s.fresh
            let work : CcollWork :=
              { key := key, kth := kth, dom := (c.l.domain (ccollLevel c x)).getD 0, team := if ccollXc c x then some (ccollTeam c x) else none,
                mode := mode, count := count, ts := tsOf x, td := tdOf x, rnd := x.rnd, env := c.mode x.rnd, fzi := c.fzi, fzo := c.fzo, param := w 2,
                oofs := intOf true 32 (w 3), src := src, dst := dst, base := base, dest := dest, members := ms, active := c.threads x.p,
                vals := vals, srcs := srcs, dsts := dsts, dead := decide (c.l.phase ≠ .active), result := none }
            .done ((s.newOp { c.opOf s id 2 0 (.ccoll work) with edge := e }).modGroup c.r.grp fun g => { g with
              ccolls := g.ccolls.set 0 key kth
              accPending := match dst with
                | .acc i => ms.foldl (fun p m => p.put (4 * m + i) id) g.accPending
                | _ => g.accPending })
  | _, _ => .hold

/-- CCOLL (R399). -/
def execCcoll (x : Rec) (s : State) : Out :=
  s.issueRec x 2 [] (ccollFails x) (fun c => c.ccollMark x) (effCcoll x) false fun c => c.ccollUses x

/-! ### Matching (R401, R402) -/

/-- A participant's instance. -/
structure Taker where
  g : Group
  o : Op
  w : CcollWork
deriving DecidableEq, Repr

/-- The instance of a group that has a counting key and place. -/
def State.ccollOf (s : State) (g : Group) (key kth : Nat) : Option Taker :=
  s.ops.findSome? fun o => match o.kind with
    | .ccoll w => if o.grp == g.id && w.key == key && w.kth == kth && !w.dead && w.result.isNone then some ⟨g, o, w⟩ else none
    | _ => none

/-- The participants' matching instances in group order, once every participant with a live thread has issued its own. -/
def State.ccollSet (s : State) (l : Launch) (g : Group) (w : CcollWork) : Option (List Taker) :=
  let unit := if w.dom = 0 then [g] else s.groups.filter (l.sameUnit w.dom g)
  let found := unit.map fun o => (o, s.ccollOf o w.key w.kth)
  if w.dead || !l.allPlaced w.dom ||
      found.any fun k => k.2.isNone && (k.1.subs.any (fun u => k.1.subLive u) || decide (w.kth ≤ k.1.ccolls.get 0 w.key)) then none
  else some (sortBy (fun (a b : Taker) => decide (a.g.block < b.g.block) || (a.g.block == b.g.block && decide (a.g.index ≤ b.g.index)))
    (found.filterMap fun k => k.2))

/-- Do two instances agree (R402)? -/
def CcollWork.agrees (a b : CcollWork) : Bool :=
  a.mode == b.mode && a.count == b.count && a.ts == b.ts && a.td == b.td && a.rnd == b.rnd && a.param == b.param &&
    a.src.kind == b.src.kind && a.dst.kind == b.dst.kind

/-- The team entry that an instance names: NCH and POS (R401). -/
def Launch.team (l : Launch) (w : CcollWork) : Nat × Nat :=
  match w.team with
  | some t => (leAt l.teams (128 * t) 2, leAt l.teams (128 * t + 2) 2)
  | none => (1, 0)
/-- The other chips of the team that an instance names: position and chip number (R401). -/
def Launch.teamChips (l : Launch) (w : CcollWork) : List (Nat × Nat) :=
  match w.team with
  | some t => ((List.range (l.team w).1).filter (· ≠ (l.team w).2)).map fun p => (p, leAt l.teams (128 * t + 64 + 2 * p) 2)
  | none => []

/-! ### Reading the sources (R403, R408, R409) -/

/-- The value that stands in for an element of a poisoned or failing line. -/
def ccollBadValue (mode : Nat) (t : DType) : Nat := if mode = 0 then Accum.failed.number else (fmtOf t).nan

/-- Group a list into runs of n. -/
def chunks (n : Nat) : Nat → List Nat → List (List Nat)
  | 0, _ => []
  | k + 1, l => l.take n :: chunks n k (l.drop n)

/-- Elements read from memory through the engine, with the first mark that they meet. Bytes that an early read took stand as they
were taken (R106). -/
def State.ccollFetch (s : State) (k : Taker) (mode : Nat) (t : DType) (pos : Nat) (addrs : List Nat) (count : Nat) :
    List Nat × Option Mark × State :=
  let tk := k.o.taken
  let n := ccollBytes mode t
  let (vs, s) := s.engineLines k.g k.o.core (linesOf (addrs.zipIdx.filterMap fun (pa, i) => if tk.has (pos + i) then none else some pa))
  let got := addrs.zipIdx.map fun (pa, i) => match tk.find? fun (e : Nat × Taken) => e.1 == pos + i with
    | some e => e.2
    | none => takenAt vs pa
  let els := (chunks n count (List.range got.length)).map fun is => is.map fun i => got.getD i { byte := 0, mark := none }
  (els.map fun b => if b.any fun t => t.mark.isSome then ccollBadValue mode t else leNat (b.map fun t => t.byte),
   got.findSome? fun t => t.mark, s)

/-- The contributions of one instance, in member order, with the mark they met. -/
def State.ccollReadAll (s : State) (k : Taker) : Nat → List (List Nat) → List (List Nat) × Option Mark × State
  | _, [] => ([], none, s)
  | pos, addrs :: rest =>
    let (els, mark, s) := s.ccollFetch k k.w.mode k.w.ts pos addrs k.w.count
    let (more, mark', s) := s.ccollReadAll k (pos + addrs.length) rest
    (els :: more, mark.or mark', s)

def State.ccollValues (s : State) (k : Taker) : List (List Nat) × Option Mark × State :=
  if k.w.src = .mem then s.ccollReadAll k 0 k.w.srcs else (k.w.vals, none, s)

/-- The contributions of every participant in order; a participant whose source met a bad line holds the error (R312). -/
def State.ccollGather (s : State) : List Taker → List (List Nat) × State
  | [] => ([], s)
  | k :: rest =>
    let (vals, mark, s) := s.ccollValues k
    let s := match mark with
      | some m => s.defer k.o m.cause (if m.cause = 6 then m.detail else 128) m.addr
      | none => s
    let (more, s) := s.ccollGather rest
    (vals ++ more, s)

/-! ### The four modes (R404 to R407) -/

/-- EXACT for one element. -/
def exactOf (vals : List Nat) : Nat :=
  let as := vals.map fun v => Accum.ofBytes (leBytes 288 v)
  if as.isEmpty then 0 else (mergeAll as).number

/-- BANDED for one element (R405). -/
def bandedOf (ts td : DType) (mode : Rnd) (fzo : Bool) (vals : List Nat) : Nat × Flags :=
  let f := fmtOf td
  let xs := vals.map (unpack (fmtOf ts))
  if xs.any Ex.isNan then (f.nan, if xs.any Ex.isSig then flagNV else 0)
  else if xs.any (fun x => x.isInf && !x.neg) && xs.any (fun x => x.isInf && x.neg) then (f.nan, flagNV)
  else if xs.any Ex.isInf then (f.inf (xs.any fun x => x.isInf && x.neg), 0)
  else if xs.all Ex.isZero then (f.signBit (xs.all fun x => x.neg), 0)
  else
    let mags := xs.filterMap fun x => match x with
      | .rat _ n d => if n = 0 then none else some (leadExp n d)
      | _ => none
    let u := pow2 (mags.foldl max (mags.headD 0) - 53)
    let qs : List (Int × Bool) := xs.map fun x => match x with
      | .rat s n d => roundInt s (n * u.2) (d * u.1) .rne
      | _ => (0, false)
    let sum := qs.foldl (fun a q => a + q.1) (0 : Int)
    let nx : Flags := if qs.any fun q => q.2 then flagNX else 0
    if sum = 0 then (f.signBit (decide (mode = .rdn)), nx)
    else let r := round f mode fzo (.rat (decide (sum < 0)) (sum.natAbs * u.1) u.2); (r.1, r.2 ||| nx)

/-- A floating-point pattern of a type as a value, flushed where `fzi` asks (R190). -/
def flushed (fzi : Bool) (t : DType) (v : Nat) : Ex := flushIn fzi (fmtOf t) (unpack (fmtOf t) v)

/-- QUANT for one element (R406). -/
def quantOf (ts td : DType) (mode : Rnd) (fzi fzo : Bool) (p : Nat) (vals : List Nat) : Nat × Flags :=
  let f := fmtOf td
  let xs := vals.map (flushed fzi ts)
  match quantile [] (unpack (fmtOf .f32) p) with
  | .invalid => (f.nan, flagNV)
  | _ =>
    if xs.any Ex.isNan then nanres f xs false
    else match quantile (ascending xs) (unpack (fmtOf .f32) p) with
      | .invalid => (f.nan, flagNV)
      | .select y => round f mode fzo y
      | .between y => if y.isZero then (f.signBit (decide (mode = .rdn)), 0) else round f mode fzo y

/-- The rank of one element of RHIST, none where it is skipped (R407). -/
def rhistRank (ts : DType) (fzi : Bool) (g0 e obs : Nat) (vals : List Nat) : Option Nat × Flags :=
  let o := flushed fzi ts obs
  let xs := vals.map (flushed fzi ts)
  if (o :: xs).any Ex.isNan then (none, 0)
  else let r := mrankFlt o xs ((g0 + e) % 2 ^ 32); (some r.1, r.2)

/-- Element e of every contribution. -/
def columnOf (vals : List (List Nat)) (e : Nat) : List Nat := vals.map fun v => v.getD e 0

/-- The result of matched instances, with its flags. -/
def ccollResult (w : CcollWork) (env : Rnd) (fzi fzo : Bool) (vals : List (List Nat)) (obs : List Nat) : List Nat × Flags :=
  let els := List.range w.count
  let both := fun (r : List (Nat × Flags)) => (r.map fun k => k.1, r.foldl (fun f k => f ||| k.2) (0 : Flags))
  match w.mode with
  | 0 => (els.map fun e => exactOf (columnOf vals e), 0)
  | 1 => both (els.map fun e => bandedOf w.ts w.td env fzo (columnOf vals e))
  | 2 => both (els.map fun e => quantOf w.ts w.td env fzi fzo w.param (columnOf vals e))
  | _ =>
    let ranks := els.map fun e => rhistRank w.ts fzi w.param e (obs.getD e 0) (columnOf vals e)
    ((List.range (vals.length + 1)).map (fun j => (ranks.filter fun r => r.1 == some j).length) ++
      [(ranks.filter fun r => r.1.isNone).length], ranks.foldl (fun f r => f ||| r.2) 0)

/-! ### Completion (R403, R408 to R410) -/

/-- An operation ends with an error of cause 0x15 and writes nothing; an accumulator that it was to write is free again. -/
def State.ccollFail (s : State) (k : Taker) (cause detail addr : Nat) : State :=
  ((s.defer k.o cause detail addr).complete k.o.id).modGroup k.g.id fun g => { g with
    accPending := match k.w.dst with
      | .acc i => k.w.members.foldl (fun p m => SMap.erase p (4 * m + i)) g.accPending
      | _ => g.accPending }

/-- The first contributor of an RHIST reads its observations (R407). -/
def State.ccollObs (s : State) (priv : Bool) (k : Taker) : Except (Nat × Nat × Nat) (List Nat × State) :=
  let m := k.w.members.headD 0
  let n := k.w.ts.width / 8
  let who : Who := { core := some k.o.core, asid := k.o.asid, priv := priv, rd := true, wr := false }
  let rec go : Nat → Except (Nat × Nat × Nat) (List Nat × List TlbEntry)
    | 0 => .ok ([], [])
    | e + 1 => match go e with
      | .error f => .error f
      | .ok (l, seen) => match s.reachAll who (lo (k.w.base + k.w.oofs + (e * n : Nat)) 64) n m with
        | (.error (va, cause, d), _) => .error (cause, d, va)
        | (.ok (addrs, _), seen') => .ok (l ++ addrs, seen ++ seen')
  match go k.w.count with
  | .error f => .error f
  | .ok (addrs, seen) =>
    let (els, mark, s) := (s.learn seen).ccollFetch { k with o := { k.o with taken := [] } } 3 k.w.ts 0 addrs k.w.count
    .ok (els, match mark with
      | some m => s.defer k.o m.cause (if m.cause = 6 then m.detail else 128) m.addr
      | none => s)

/-- Put the result into a matched instance. A rank histogram longer than its members could know is translated now; a word that
fails leaves its participant's destination unwritten (R244, R312). -/
def State.ccollPut (s : State) (priv : Bool) (k : Taker) (r : List Nat) (fl : Flags) : State :=
  let who : Who := { core := some k.o.core, asid := k.o.asid, priv := priv, rd := false, wr := true }
  let more : Except (Nat × Nat × Nat) (List (List Nat)) := if k.w.mode = 3 then
      (k.w.members.zip k.w.dsts).foldl (fun acc (m, addrs) => match acc with
        | .error f => .error f
        | .ok done => (((List.range r.length).drop (addrs.length / 4)).foldl (fun (a : Except (Nat × Nat × Nat) (List Nat)) j => match a with
            | .error f => .error f
            | .ok l => match s.reachAll who (lo (k.w.dest + 4 * j : Nat) 64) 4 m with
              | (.error (va, cause, d), _) => .error (cause, d, va)
              | (.ok (more, _), _) => .ok (l ++ more)) (.ok addrs)).map fun l => done ++ [l]) (.ok [])
    else .ok k.w.dsts
  match more with
  | .error (cause, d, va) => s.ccollFail k cause d va
  | .ok dsts => s.modOp k.o.id fun o => { o with
      kind := .ccoll { k.w with result := some r, dsts := dsts }
      raises := if fl = 0 then [] else k.w.active.map fun t => (t, fl) }

/-- The collective acts on its matched instances; `parts` are the contributions of other chips (R402 to R407). -/
def State.ccollMatch (s : State) (l : Launch) (set : List Taker) (pos : Nat) (parts : List TeamPart) : State :=
  match set with
  | [] => s
  | first :: _ =>
    let failAll := fun (s : State) (cause d addr : Nat) => set.foldl (fun s k => s.ccollFail k cause d addr) s
    let before := parts.filter fun p => decide (p.pos < pos)
    let after := parts.filter fun p => decide (pos < p.pos)
    let sent := fun (ps : List TeamPart) => ps.flatMap fun p => p.vals
    if !(set.all fun k => first.w.agrees k.w) || parts.any (fun p => !p.agree) then failAll s 0x15 3 0
    else
      let n := (set.map fun k => k.w.members.length).foldl (· + ·) 0 + (sent parts).length
      if 256 < n then failAll s 0x15 4 0
      else if n = 0 then set.foldl (fun s k => s.modOp k.o.id fun o => { o with kind := .ccoll { k.w with result := some [] } }) s
      else
        -- instances need not agree in FPCR: one of them gives the environment (log 45)
        let by' := (set.getD (Config.choice s.stamp 402 % set.length) first).w
        let obs : Except (Nat × Nat × Nat) (List Nat × State) :=
          if first.w.mode ≠ 3 then .ok ([], s)
          else match before.find? (fun p => !p.vals.isEmpty), set.find? (fun k => !k.w.members.isEmpty) with
            | some p, _ => .ok (p.obs, s)
            | none, some k => s.ccollObs l.priv k
            | none, none => .ok (match after.find? fun p => !p.vals.isEmpty with | some p => p.obs | none => [], s)
        match obs with
        | .error (cause, d, va) => failAll s cause d va
        | .ok (obs, s) =>
          let (own, s) := s.ccollGather set
          let (r, fl) := ccollResult first.w by'.env by'.fzi by'.fzo (sent before ++ own ++ sent after) obs
          set.foldl (fun s k => s.ccollPut l.priv k r fl) s

/-- CCOLL_MATCHED (R402): every participant has issued its matching instance, and the releases before them are over (R408). State.arg
names one of the operations; across chips it brings the contributions of the team's other chips, each over a link that carries (R449), or
ends where one of them cannot be reached (R409). -/
def execCcollMatched (s : State) : Out :=
  let (id, parts, cut) : Nat × List TeamPart × Bool := match s.arg with
    | .num id => (id, [], false)
    | .team id parts => (id, sortBy (fun (a b : TeamPart) => decide (a.pos ≤ b.pos)) parts, false)
    | .pair id 0 => (id, [], true)
    | _ => (0, [], true)
  match s.op? id with
  | some o => match o.kind, s.group? o.grp with
    | .ccoll w, some g => match s.launch? g.launch with
      | some l => match s.ccollSet l g w with
        | some set =>
          let pos := (l.team w).2
          if set.all (fun k => s.edgeClear k.o.edge && k.w.srcs.all fun l => l.all fun pa => s.pathTo (pa / 64)) then
            if cut then
              if (l.teamChips w).any fun k => !s.reachable k.2 then .next (set.foldl (fun s k => s.ccollFail k 0x15 5 0) s.tick) else notNow "CCOLL_MATCHED"
            else if parts.map (fun p => p.pos) = (l.teamChips w).map (fun k => k.1) ∧ ((l.teamChips w).all fun k => s.carries k.2) = true then
              .next (s.tick.ccollMatch l set pos parts)
            else notNow "CCOLL_MATCHED"
          else notNow "CCOLL_MATCHED"
        | none => notNow "CCOLL_MATCHED"
      | none => notNow "CCOLL_MATCHED"
    | _, _ => notNow "CCOLL_MATCHED"
  | none => notNow "CCOLL_MATCHED"

/-- Write the register units of the result that `sel` selects, once each (R105, R403). -/
def State.ccollGive (s : State) (o : Op) (w : CcollWork) (r : List Nat) (sel : Nat → Bool) : State :=
  match w.dst with
  | .reg n =>
    let units := r.zipIdx.flatMap fun (v, e) =>
      (w.active.filter fun t => t % 32 == e % 32).flatMap fun t => (List.range (regsPer w.td)).map fun j =>
        (n + regsPer w.td * (e / 32) + j, t, BitVec.ofNat 32 (widen w.td v / 2 ^ (32 * j)))
    let units := units.filter fun k => sel (256 * k.1 + k.2.1) && !o.given.contains (256 * k.1 + k.2.1)
    (s.modGroup o.grp fun g => units.foldl (fun g (r, t, v) => g.deliver r t v none) g).modOp o.id fun o =>
      { o with given := (units.map fun k => 256 * k.1 + k.2.1) ++ o.given }
  | _ => s

/-- The bytes of each line that an instance writes. -/
def CcollWork.lines (w : CcollWork) (r : List Nat) : List (Nat × SMap Byte × Nat) :=
  let bytes := r.flatMap (leBytes (ccollBytes w.mode w.td))
  (gather (w.dsts.flatMap fun addrs => addrs.zip bytes)).map fun k => (k.1, k.2, 0)

/-- Give an instance its result: registers and accumulators complete at once, memory with its writes. -/
def State.ccollFinish (s : State) (l : Launch) (k : Taker) (r : List Nat) : State :=
  match k.w.dst with
  | .reg _ => (s.ccollGive k.o k.w r fun _ => true).complete k.o.id
  | .mem => s.engineSend k.o k.g l.ord (k.w.lines r)
  | .acc i =>
    (s.modGroup k.g.id fun g =>
      let g : Group := { g with accPending := k.w.members.foldl (fun p m => SMap.erase p (4 * m + i)) g.accPending }
      match r with
      | v :: _ => k.w.members.foldl (fun g m => g.clearAcc m i (Accum.ofBytes (leBytes 288 v))) g
      | [] => g).complete k.o.id

/-- Take some source bytes of an instance early, once its release is over (R106, R313); `sel` chooses by aligned unit (R101). -/
def State.ccollEarly (s : State) (k : Taker) (sel : Nat → Bool) : State :=
  let want := (k.w.srcs.flatten.zipIdx).filter fun (pa, i) => sel (pa / 4) && !k.o.taken.has i
  let (vs, s) := s.engineLines k.g k.o.core (linesOf (want.map fun (e : Nat × Nat) => e.1))
  s.modOp k.o.id fun o => { o with taken := want.foldl (fun m e => m.put e.2 (takenAt vs e.1)) o.taken }

/-- Is the launch no longer running, so that an unmatched CCOLL is cancelled (R410)? -/
def Launch.halting (l : Launch) : Bool :=
  match l.phase with
  | .active => false
  | _ => true

/-- CCOLL_COMPLETE (R105, R408): an early part of an instance's reads or register writes, the rest and its completion, or the
cancellation of an unmatched one (R410). -/
def execCcollComplete (s : State) : Out :=
  match s.arg with
  | .part id p => match s.op? id with
    | some o => match o.kind, s.group? o.grp with
      | .ccoll w, some g => match s.launch? g.launch with
        | some l =>
          let k : Taker := ⟨g, o, w⟩
          (match w.result, p with
            | some r, some p => .next (s.tick.ccollGive o w r (partSel s.stamp p 1))
            | some r, none => if o.left = 0 then .next (s.tick.ccollFinish l k r) else notNow "CCOLL_COMPLETE"
            | none, some p =>
              if w.src = .mem ∧ s.edgeClear o.edge = true then .next (s.tick.ccollEarly k (partSel s.stamp p 0)) else notNow "CCOLL_COMPLETE"
            | none, none =>
              -- across chips it is not matched while a contribution of another one is missing
              if l.halting && ((s.ccollSet l g w).isNone || !(l.teamChips w).isEmpty) then .next (s.tick.ccollFail k 0x15 7 0) else notNow "CCOLL_COMPLETE")
        | none => notNow "CCOLL_COMPLETE"
      | _, _ => notNow "CCOLL_COMPLETE"
    | none => notNow "CCOLL_COMPLETE"
  | _ => notNow "CCOLL_COMPLETE"

end Machine
end Sys2Proof
end

