-- ==== Sys2Proof/Machine/Link.lean ====
section
/-! DEFINITION. Link engine (R434 to R449 20_links.md): RCOPY, RSIGNAL, RATOM and LNKQ, the answers of peers, their operations on this
chip, the links and their degradation. -/

namespace Sys2Proof
namespace Machine

/-! ### Chips and ports (R434 to R436) -/

def State.port (s : State) (k : Nat) : Port := s.ports.getD k Port.down
/-- Rate per direction of a width in GB/s (R435). -/
def widthRate : Nat → Nat
  | 1 => 56
  | 2 => 112
  | 3 => 224
  | _ => 0
/-- The widest width of a number of working lanes (R435). -/
def widthOf (lanes : Nat) : Nat := if 16 ≤ lanes then 3 else if 8 ≤ lanes then 2 else if 4 ≤ lanes then 1 else 0

/-! ### RCOPY (R441, R442, R447) -/

def rcopyFails (x : Rec) (c : Cx) : List Nat :=
  failIf (x.d != 0x1FE) 7 ++ failIf (x.a != 0x1FE) 8 ++ ccollAddrFails c true x.b ++ ccollAddrFails c true x.c ++
  failIf (x.rnd != 0) 5 ++ (if x.sub % 2 ^ 10 = 0 then [] else [3, 4])

/-- Translate one aligned unit at the source and at the destination. -/
def State.rcopyUnit (s : State) (c : Cx) (src dst m : Nat) : Except (Nat × Nat × Nat) (List (Nat × Nat × Nat) × List TlbEntry) :=
  match s.reach { c.who true false with peer := 2 } src m with
  | (.error f, _) => .error f
  | (.ok a, seen) => match s.reach { c.who false true with peer := 1 } dst m with
    | (.error f, _) => .error f
    | (.ok b, seen') => .ok ((List.range 4).map fun i => (a.pa + i, b.chip, b.pa + i), seen ++ seen')

/-- The moves of one transfer from its units' addresses, in the order of R442. -/
def State.rcopyMoves (s : State) (c : Cx) (m : Nat) : List (Nat × Nat) → Except (Nat × Nat × Nat) (List (Nat × Nat × Nat) × List TlbEntry)
  | [] => .ok ([], [])
  | (a, b) :: rest => match s.rcopyUnit c a b m with
    | .error f => .error f
    | .ok (mv, seen) => match s.rcopyMoves c m rest with
      | .error f => .error f
      | .ok (mvs, seen') => .ok (mv ++ mvs, seen ++ seen')

/-- The moves of every transfer, or the first failure with the member it meets. -/
def State.rcopyAll (s : State) (c : Cx) (units : List (Nat × Nat)) :
    List Nat → Except (Nat × Nat × Nat) (List (Nat × Nat × Nat) × List TlbEntry)
  | [] => .ok ([], [])
  | m :: rest => match s.rcopyMoves c m units with
    | .error f => .error f
    | .ok (mvs, seen) => match s.rcopyAll c units rest with
      | .error f => .error f
      | .ok (more, seen') => .ok (mvs ++ more, seen ++ seen')

/-- A remote operation issues on CP: an outgoing edge, then the operation (R248, R442). -/
def Cx.startRemote (c : Cx) (s : State) (w : RemoteWork) (ordered : Bool) : State :=
  let s := c.outgoing s
  let (e, s) := if ordered then s.openEdge c.g.id c.g.horizon else (0, s)
  let (id, s) := s.fresh
  s.newOp { c.opOf s id 2 0 (.remote w) with edge := e }

/-- RCOPY: every byte is translated and checked, then the record. -/
def effRcopy (x : Rec) (c : Cx) (s : State) : Res :=
  let pairs : List RegUse := [{ code := x.b, mod := 0, regs := 2 }, { code := x.c, mod := 0, regs := 2 }]
  if c.uniHeld pairs then .hold
  else
    let w := c.recWord x
    let nb := recField (w 0) 23 0 + 1
    let nr := recField (w 1) 15 0 + 1
    let dst := (c.ownVal x.b true .int none 0).toNat
    let src := (c.ownVal x.c true .int none 0).toNat
    let at' := fun (base stride r : Nat) => lo ((base : Int) + (if nr = 1 then 0 else (r : Int) * intOf true 32 stride)) 64
    let xfers := c.transfers x.p (recPm x)
    let skew := (List.range nr).findSome? fun r =>
      if at' src (w 2) r % 4 ≠ 0 then some (at' src (w 2) r) else if at' dst (w 3) r % 4 ≠ 0 then some (at' dst (w 3) r) else none
    let skew := if nb % 4 ≠ 0 then some (skew.getD src) else skew
    let units := (List.range nr).flatMap fun r => (List.range (nb / 4)).map fun i =>
      (lo ((at' src (w 2) r : Nat) + (4 * i : Nat)) 64, lo ((at' dst (w 3) r : Nat) + (4 * i : Nat)) 64)
    match (if xfers.isEmpty then none else skew), s.rcopyAll c units xfers with
    | some va, _ => .fault { cause := 5, detail := 7, addr := va, msk := c.threads x.p }
    | none, .error (va, cause, d) => .fault { cause := cause, detail := d, addr := va, msk := c.threads x.p }
    | none, .ok (moves, seen) =>
      match pickFault s.stamp ((failIf (decide (recField (w 0) 31 24 ≠ 0) || decide (recField (w 1) 31 16 ≠ 0)) 1 ++
          failIf (decide (2 ^ 32 < nb * nr)) 2).map fun d => (0x16, d)) with
      | some (cause, d) => .fault { cause := cause, detail := d, msk := c.threads x.p }
      | none => .done (c.startRemote (s.learn seen)
          { reg := none, width := 0, issued := s.time, moves := moves, parts := [], error := 0 } true)

/-- RCOPY (R442). -/
def execRcopy (x : Rec) (s : State) : Out :=
  s.issueRec x 2 [] (rcopyFails x)
    (fun c => c.markFault [{ code := x.b, mod := 0, regs := 2 }, { code := x.c, mod := 0, regs := 2 }] (c.threads x.p) true) (effRcopy x)

/-! ### RSIGNAL and RATOM (R441, R443, R444) -/

def formRsignal (x : Ext) : Form := formSignal x
def formRatom (x : Ext) : Form := formAtom x

/-- The peer units of the active threads, in ascending order; a misaligned one reports DETAIL 7. -/
def Cx.peerGot (c : Cx) (s : State) (x : Ext) (rd : Bool) (size : Nat) : List Nat → Except TrapReq (List (Nat × Reach) × List TlbEntry)
  | [] => .ok ([], [])
  | t :: rest =>
    let va := c.atomEa x t
    let fail := fun (va cause d : Nat) => ({ cause := cause, detail := d, addr := va, msk := c.threads x.p, thread := t } : TrapReq)
    match s.reach { c.who rd true with peer := 1 } va (t / 32), decide (va % size ≠ 0) with
    | (.error (_, cause, d), _), true => .error (fail va 5 (if cause = 5 then pickDetail s.stamp [7, d] else 7))
    | (.error (at', cause, d), _), false => .error (fail at' cause d)
    | (.ok _, _), true => .error (fail va 5 7)
    | (.ok r, seen), false => match c.peerGot s x rd size rest with
      | .error t => .error t
      | .ok (gs, seen') => .ok ((t, r) :: gs, seen ++ seen')

/-- The code of a mode. -/
def Rnd.code : Rnd → Nat
  | .rne => 0 | .rtz => 1 | .rup => 2 | .rdn => 3 | .rna => 4

/-- RSIGNAL and RATOM: one message for each active thread, on their way at once. -/
def effPeerUnit (x : Ext) (atom : Bool) (size : Nat) (c : Cx) (s : State) : Res :=
  match c.peerGot s x atom size (c.threads x.p) with
  | .error t => .fault t
  | .ok (gs, seen) =>
    let parts : List RemotePart := gs.map fun (t, r) =>
      let b := c.atomB x (size == 8) t
      { chip := r.chip, thread := t, answer := none
        ask := some (if atom then .atom r.pa size (opnOf x) x.tcode (Rnd.code (c.mode x.rnd)) c.fzi c.fzo b
          else .signal r.pa size (opnOf x == 1) b) }
    match parts with
    | [] => .done (c.outgoing s)
    | _ => .done (c.startRemote (s.learn seen)
        { reg := if atom then destReg x.d else none, width := size, issued := s.time, moves := [], parts := parts, error := 0 } false)

def effRsignal (x : Ext) : Cx → State → Res := effPeerUnit x false (if x.ty.wide then 8 else 4)
def effRatom (x : Ext) : Cx → State → Res := effPeerUnit x true (if atomWide x then 8 else 4)

/-- RSIGNAL (R443). -/
def execRsignal (x : Ext) (s : State) : Out :=
  s.issueM x.words x (formRsignal x) (fun _ => []) (fun _ => 2) (effRsignal x)
/-- RATOM (R444). -/
def execRatom (x : Ext) (s : State) : Out :=
  s.issueM x.words x (formRatom x) (fun _ => []) (fun _ => 2) (effRatom x)

/-! ### LNKQ (R448) -/

def lnkSel (x : Ext) : Nat := x.subBits 2 0
def formLnkq (x : Ext) : Form :=
  let src : List SrcUse := if lnkSel x = 1 ∨ lnkSel x = 2 then
      [{ slot := .A, wide := false, kinds := ⟨true, true, true, true, false, false⟩, mods := false }] else []
  { dest := .reg true true true false, srcs := src, own1 := 7, guard := isVec x.d, own := failIf (decide (4 ≤ lnkSel x)) 4 }

/-- LNKQ.self. -/
def State.linkSelf (s : State) : Nat :=
  s.chip + (s.ports.filter fun p => p.width != 0).length * 2 ^ 16 + (s.hosts.filter fun p => p.width != 0).length * 2 ^ 24

/-- A query's answer; its fields do not overlap. -/
def State.linkWord (s : State) (l : Launch) (sel a : Nat) : Nat :=
  match sel with
  | 0 => s.linkSelf
  | 1 =>
    let p := s.port (a % 16)
    p.width + bit p.next.isSome 3 + (if p.width = 0 then 0xFFF else p.chip) * 2 ^ 4 + p.replays * 2 ^ 32 + p.reductions * 2 ^ 48
  | 2 =>
    let ps := s.linksTo (a % 2 ^ 12)
    bit (!ps.isEmpty) 0 + ps.length * 2 + (ps.map fun p => widthRate p.width).foldl (· + ·) 0 * 2 ^ 32
  | _ => l.remoteErrors % 2 ^ 32 + l.remoteCode * 2 ^ 32

def effLnkq (x : Ext) (c : Cx) (s : State) : Res :=
  c.result s x true fun t => (BitVec.ofNat 64 (s.linkWord c.l (lnkSel x) (c.plain x .A false .int t).toNat), 0)

/-- LNKQ (R448). -/
def execLnkq (x : Ext) (s : State) : Out := s.issueMem x.words x (formLnkq x) [] (fun _ => []) (effLnkq x)

/-! ### The way to the peer and back (R442, R445, R446) -/

/-- Read source bytes of a copy that `sel` selects, those not read before (R106, R313). -/
def State.rcopyRead (s : State) (o : Op) (g : Group) (w : RemoteWork) (sel : Nat → Bool) : State :=
  let want := w.moves.zipIdx.filter fun (_, i) => sel (i / 4) && !o.taken.has i
  let (vs, s) := s.engineLines g o.core (linesOf (want.map fun (k : (Nat × Nat × Nat) × Nat) => k.1.1))
  s.modOp o.id fun o => { o with taken := want.foldl (fun m k => m.put k.2 (takenAt vs k.1.1)) o.taken }

/-- The messages of a copy whose bytes have all been read: one for each chip, a later write of a byte over an earlier one; bytes of a
failing line stay behind, those of a poisoned line mark the lines they reach. -/
def rcopyParts (o : Op) (w : RemoteWork) : List RemotePart :=
  let tk := fun i => o.taken.get { byte := 0, mark := none } i
  let chips := w.moves.foldl (fun l k => if l.contains k.2.1 then l else l ++ [k.2.1]) ([] : List Nat)
  chips.filterMap fun chip =>
    let mine := w.moves.zipIdx.filter fun (k, i) => k.2.1 == chip && !(match (tk i).mark with | some m => m.cause == 7 | none => false)
    let bytes := mine.foldl (fun (m : SMap Byte) (k, i) => m.put k.2.2 (tk i).byte) []
    let bad := linesOf ((mine.filter fun (_, i) => (tk i).mark.isSome).map fun (k, _) => k.2.2)
    if bytes.isEmpty then none else some { chip := chip, thread := 0, ask := some (.write bytes bad), answer := none }

/-- The data of a copy leaves; a poisoned line is the issuer's cause 0x06 (R442). -/
def State.rcopyLeave (s : State) (o : Op) (w : RemoteWork) : State :=
  let marks := o.taken.filterMap fun k => k.2.mark
  let s := match marks.find? fun m => m.cause == 6 with
    | some m => s.defer o m.cause m.detail m.addr
    | none => s
  s.modOp o.id fun p => { p with kind := .remote w }

/-- The value that an answered part gives its thread: zero where the operation ends in error. -/
def RemotePart.value (p : RemotePart) (error : Nat) : Nat × Option Mark :=
  match p.answer with
  | some a => if error ≠ 0 then (0, none) else (a.value, if a.cause = 0 then none else some { cause := a.cause, detail := a.detail, addr := a.addr })
  | none => (0, none)

/-- Write the results of parts that `sel` selects, each unit once; zeros of an error go everywhere (R105, R446). -/
def State.remoteGive (s : State) (o : Op) (w : RemoteWork) (error : Nat) (sel : Nat → Bool) : State :=
  match w.reg with
  | none => s
  | some n =>
    let units := (w.parts.filter fun p => p.answer.isSome).flatMap fun p => (List.range (w.width / 4)).map fun j => (n + j, j, p)
    let units := units.filter fun (r, _, p) => sel (256 * r + p.thread) && (error != 0 || !o.given.contains (256 * r + p.thread))
    (s.modGroup o.grp fun g => units.foldl (fun g (r, j, p) =>
      g.deliver r p.thread (BitVec.ofNat 32 ((p.value error).1 / 2 ^ (32 * j))) (p.value error).2) g).modOp o.id fun o =>
        { o with given := (units.map fun (r, _, p) => 256 * r + p.thread) ++ o.given }

/-- A remote operation completes (R446): results, flags, an error of the launch. -/
def State.remoteEnd (s : State) (o : Op) (launch : Nat) (w : RemoteWork) : State :=
  let s := s.remoteGive o w w.error fun _ => true
  let s := if w.reg.isSome then s else match w.parts.findSome? fun p => p.answer.bind fun a => if a.cause = 0 then none else some a with
    | some a => s.defer o a.cause a.detail a.addr
    | none => s
  let s := if w.error = 0 then s else s.modLaunch launch fun l =>
    { l with remoteErrors := l.remoteErrors + 1, remoteCode := if l.remoteErrors = 0 then w.error else l.remoteCode }
  let raised := w.parts.filterMap fun p => p.answer.bind fun a => if a.flags % 32 = 0 then none else some (p.thread, BitVec.ofNat 5 a.flags)
  (s.modOp o.id fun o => { o with raises := raised }).complete o.id

/-- One part is answered; the operation completes with the last. -/
def State.remoteAnswer (s : State) (o : Op) (launch : Nat) (w : RemoteWork) (i : Nat) (a : PeerAnswer) : State :=
  let w : RemoteWork := { w with
    parts := w.parts.zipIdx.map fun (p, k) => if k = i then { p with answer := some a } else p
    error := if w.error = 0 then a.error else w.error }
  let s := s.modOp o.id fun o => { o with kind := .remote w }
  if w.parts.all fun p => p.answer.isSome then s.remoteEnd o launch w else s

def peerTouches : PeerAsk → List (Nat × Nat)
  | .write bytes _ => bytes.map fun b => (b.1, 1)
  | .signal addr width _ _ => [(addr, width)]
  | .atom addr width _ _ _ _ _ _ => [(addr, width)]

/-- Chip and 4-byte unit of everything that an operation still asks of its peers. -/
def RemoteWork.units (w : RemoteWork) : List (Nat × Nat) :=
  (w.moves.map fun k => (k.2.1, k.2.2 / 4)) ++ (w.parts.filter fun p => p.answer.isNone).flatMap fun p => match p.ask with
    | some a => (peerTouches a).flatMap fun b => [(p.chip, b.1 / 4), (p.chip, (b.1 + b.2 - 1) / 4)]
    | none => []
/-- Has an operation of the same group issued before it a copy to one of its units that has not left yet (R445)? -/
def State.remoteLater (s : State) (o : Op) (w : RemoteWork) : Bool :=
  let units := w.units
  s.ops.any fun p => p.grp == o.grp && decide (p.id < o.id) && match p.kind with
    | .remote v => v.moves.any fun k => units.contains (k.2.1, k.2.2 / 4)
    | _ => false

/-- REMOTE_ACKNOWLEDGEMENT (R446): a peer answers a part of an operation. Before that the data of a copy is read and leaves, and results
may be written early (R105, R106). A copy that moves nothing completes when it leaves. A unit of a peer takes the operations of one group
in their order (R445). -/
def execRemoteAcknowledgement (s : State) : Out :=
  let named : Option Nat := match s.arg with
    | .part id _ => some id
    | .answer id _ _ => some id
    | _ => none
  match named.bind s.op? with
  | some o => match o.kind, s.group? o.grp with
    | .remote w, some g =>
      let isCopy := w.width == 0 && w.parts.isEmpty
      (match s.arg with
        | .part _ p =>
          if isCopy then
            if s.edgeClear o.edge && (w.moves.all fun k => s.pathTo (k.1 / 64)) && (p.isSome || !s.remoteLater o w) then
              match p with
              | some p => .next (s.tick.rcopyRead o g w (partSel s.stamp p 0))
              | none =>
                let s' := s.tick.rcopyRead o g w fun _ => true
                (match s'.op? o.id with
                  | some o =>
                    let w : RemoteWork := { w with
                      moves := []
                      parts := rcopyParts o w
                      error := if o.taken.any fun k => k.2.mark.any fun m => m.cause == 7 then 3 else w.error }
                    let s' := s'.rcopyLeave o w
                    .next (if w.parts.isEmpty then s'.remoteEnd o g.launch w else s')
                  | none => .next s')
            else notNow "REMOTE_ACKNOWLEDGEMENT"
          else match p with
            | some p => .next (s.tick.remoteGive o w w.error (partSel s.stamp p 0))
            | none => notNow "REMOTE_ACKNOWLEDGEMENT"
        | .answer _ i a => match w.parts[i]? with
          | some part =>
            if part.answer.isNone && s.carries part.chip && !s.remoteLater o w && (a.error == 0 || a.error == 2) then .next (s.tick.remoteAnswer o g.launch w i a)
            else notNow "REMOTE_ACKNOWLEDGEMENT"
          | none => notNow "REMOTE_ACKNOWLEDGEMENT"
        | _ => notNow "REMOTE_ACKNOWLEDGEMENT")
    | _, _ => notNow "REMOTE_ACKNOWLEDGEMENT"
  | none => notNow "REMOTE_ACKNOWLEDGEMENT"

/-- 10 ms in clocks (R446). -/
def remoteLimit : Nat := 17500000

/-- Device time since which a chip has been out of reach: when the last link to it went down, 0 where there never was one. -/
def State.lostSince (s : State) (chip : Nat) : Nat :=
  (s.ports.filter fun p => p.chip == chip).foldl (fun t p => max t p.since) 0
/-- Has a chip been out of reach for 10 ms from the issue on (R446; log 47)? -/
def State.expired (s : State) (w : RemoteWork) (chip : Nat) : Bool :=
  !s.reachable chip && decide (max w.issued (s.lostSince chip) + remoteLimit ≤ s.time)

/-- The answer that stands for a chip that could not be reached. -/
def unreachableAnswer : PeerAnswer := ⟨1, 0, 0, 0, 0, 0⟩

/-- The chips of an operation's messages that no answer has come from. -/
def RemoteWork.open' (w : RemoteWork) : List Nat :=
  (w.parts.filter fun p => p.answer.isNone).map (fun p => p.chip) ++ w.moves.map fun k => k.2.1

/-- REMOTE_TIMEOUT (R446): a chip of the operation has been out of reach for 10 ms from its issue on; what has not been delivered there
is dropped. -/
def execRemoteTimeout (s : State) : Out :=
  match s.arg with
  | .num id => match s.op? id with
    | some o => match o.kind, s.group? o.grp with
      | .remote w, some g =>
        if (w.open'.any (s.expired w)) = true then
          let w : RemoteWork := { w with
            error := if w.error = 0 then 1 else w.error
            moves := w.moves.filter fun k => !s.expired w k.2.1
            parts := w.parts.map fun p => if p.answer.isNone && s.expired w p.chip then { p with answer := some unreachableAnswer } else p }
          let t := s.tick.modOp id fun o => { o with kind := .remote w, taken := if w.parts.isEmpty then [] else o.taken }
          .next (if w.open'.isEmpty then t.remoteEnd o g.launch w else t)
        else notNow "REMOTE_TIMEOUT"
      | _, _ => notNow "REMOTE_TIMEOUT"
    | none => notNow "REMOTE_TIMEOUT"
  | _ => notNow "REMOTE_TIMEOUT"

/-! ### Operations of peers (R437, R443 to R446) -/

def peerIsAtom : PeerAsk → Bool
  | .atom _ _ _ _ _ _ _ _ => true
  | _ => false

/-- Does one entry admit the operation (R437)? -/
def Window.admits (w : Window) (q : PeerRequest) : Bool :=
  w.chip == q.chip && (if peerIsAtom q.ask then w.t else w.w) &&
    (peerTouches q.ask).all fun b => decide (w.base ≤ b.1) && decide (b.1 + b.2 ≤ w.base + w.len)

/-- A signal write or an atomic of a peer at its executor, at once: the answer, and the bytes to write. -/
def State.peerCompute (s : State) (ask : PeerAsk) : PeerAnswer × Option (Nat × List Byte) :=
  let unit := fun (addr width : Nat) (f : Nat → Nat × Flags) (old : Bool) =>
    match markFor (s.fwd (addr / 64)) (s.markOf (s.fwd (addr / 64))) with
    | some m => ((⟨0, 0, 0, m.cause, m.detail, m.addr⟩ : PeerAnswer), (none : Option (Nat × List Byte)))
    | none =>
      let was := leNat (s.bytesAt addr width)
      let r := f was
      (⟨0, if old then was else 0, r.2.toNat, 0, 0, 0⟩, some (addr, leBytes width r.1))
  match ask with
  | .write _ _ => (⟨0, 0, 0, 0, 0, 0⟩, none)
  | .signal addr width add v => unit addr width (fun was => (if add then lo ((was : Int) + v) (8 * width) else v, 0)) false
  | .atom addr width op ty rnd fzi fzo v =>
    let r : AtomReq := { thread := 0, pa := addr, width := width, what := 0, opn := op, ty := (DType.ofCode ty).getD .b32,
                         rnd := Rnd.ofCode rnd, fzi := fzi, fzo := fzo, b := v, c := 0, reg := none, msa := false, fl := 0, done := false }
    unit addr width (fun was => (r.compute was).getD (was, 0)) true

/-- Perform the lines that a peer writes; the acknowledgement waits for their visibility (R446). -/
def State.peerWrite (s : State) (id : Nat) (lines : List (Nat × SMap Byte × Bool)) : State :=
  lines.foldl (fun s (line, bytes, poison) =>
    let (w, s) := s.fresh
    (s.merge line 6 bytes poison).publish (s.fwd line) 6 [] [id] w) s

/-- PEER_INBOUND_OPERATION (R437): refused unless one entry of the window table covers it, else performed. Operations that have been
acknowledged are forgotten. -/
def execPeerInboundOperation (s : State) : Out :=
  match s.arg with
  | .peer q =>
    if !s.carries q.chip then notNow "PEER_INBOUND_OPERATION"
    else
      let (id, t) := ({ s with inbound := s.inbound.filter fun k => k.left ≠ 0 } : State).tick.fresh
      let entry := fun (a : PeerAnswer) (left : Nat) => ({ id := id, chip := q.chip, tag := q.tag, answer := a, left := left } : Inbound)
      if !(s.windows.any fun w => w.admits q) then
        .next { t with inbound := t.inbound ++ [entry ⟨2, 0, 0, 0, 0, 0⟩ 0] }
      else match (peerTouches q.ask).find? fun b => (s.home b.1).isNone || (s.home (b.1 + b.2 - 1)).isNone with
        | some b => .fault (.noSuchAddress b.1)
        | none => match q.ask with
          | .write bytes bad =>
            let lines := (gather bytes).map fun k => (k.1, k.2, bad.contains k.1)
            .next (({ t with inbound := t.inbound ++ [entry ⟨0, 0, 0, 0, 0, 0⟩ lines.length] } : State).peerWrite id lines)
          | ask =>
            let (a, w) := s.peerCompute ask
            (match w with
              | some (addr, bytes) =>
                .next (({ t with inbound := t.inbound ++ [entry a 1] } : State).peerWrite id
                  [(addr / 64, bytes.zipIdx.map fun (b : Byte × Nat) => (addr % 64 + b.2, b.1), false)])
              | none =>
                let t := match (peerTouches ask).head? with
                  | some b => t.foundFailing (s.fwd (b.1 / 64))
                  | none => t
                .next { t with inbound := t.inbound ++ [entry a 0] })
  | _ => notNow "PEER_INBOUND_OPERATION"

/-! ### Degradation (R435, R449) -/

/-- Change a link: ports 0 to 15, host links 16 and 17. -/
def State.modPort (s : State) (k : Nat) (f : Port → Port) : State :=
  if k < 16 then { s with ports := s.ports.zipIdx.map fun (p, i) => if i = k then f p else p }
  else { s with hosts := s.hosts.zipIdx.map fun (p, i) => if i + 16 = k then f p else p }
def State.link (s : State) (k : Nat) : Port := if k < 16 then s.port k else s.hosts.getD (k - 16) Port.down
/-- The die that a link belongs to (R435); the host links are on die 4. -/
def linkDie (k : Nat) : Nat := if 8 ≤ k ∧ k < 16 then 5 else 4

/-- A link settles on a width; a narrower one or none is reported (R448, R461). -/
def State.settleLink (s : State) (k w : Nat) : State :=
  let old := (s.link k).width
  let s := s.modPort k fun p => { p with
    width := w
    next := none
    since := s.time
    reductions := if w < p.width then min (p.reductions + 1) 65535 else p.reductions }
  if w = old then s else s.event 6 (linkDie k) k

/-- LINK_FLIT_REPLAY (R435): nothing is lost; the count rises. -/
def execLinkFlitReplay (s : State) : Out :=
  match s.arg with
  | .num k =>
    if (s.link k).width = 0 then notNow "LINK_FLIT_REPLAY"
    else .next (s.tick.modPort k fun p => { p with replays := min (p.replays + 1) 65535 })
  | _ => notNow "LINK_FLIT_REPLAY"

/-- LINK_LANE_LOSS (R449): the lanes that still work; below four the link goes down, else it retrains. -/
def execLinkLaneLoss (s : State) : Out :=
  match s.arg with
  | .pair k lanes =>
    let p := s.link k
    if p.width = 0 ∨ p.next.getD p.width < widthOf lanes then notNow "LINK_LANE_LOSS"
    else if widthOf lanes = 0 then .next (s.tick.settleLink k 0)
    else .next (s.tick.modPort k fun p => { p with next := some (widthOf lanes), since := if p.next.isSome then p.since else s.time })
  | _ => notNow "LINK_LANE_LOSS"

/-- 50 µs, within which a link retrains (R449). -/
def retrainClocks : Nat := 87500

/-- LINK_RETRAIN_COMPLETE (R449): device time does not pass the 50 µs before it (State.limits). -/
def execLinkRetrainComplete (s : State) : Out :=
  match s.arg with
  | .num k => match (s.link k).next with
    | some w => .next (s.tick.settleLink k w)
    | none => notNow "LINK_RETRAIN_COMPLETE"
  | _ => notNow "LINK_RETRAIN_COMPLETE"

/-! ### The host at device memory (R438) -/

/-- HOST_CXL_MEM_ACCESS (R438): a line of regions 0x00 to 0x06 is read, or written under a mask, at its home. A write that the host orders
after its earlier ones waits until those are visible (R107 03_visibility.md). -/
def execHostCxlMemAccess (s : State) : Out :=
  match s.arg with
  | .host q =>
    if 7 ≤ q.line / 2 ^ 38 ∨ s.hostPath = false ∨ (q.write.isSome = true ∧ q.ordered = true ∧ s.clear s.hostHorizon = false) then
      notNow "HOST_CXL_MEM_ACCESS"
    else if (s.home (64 * q.line)).isNone then .fault (.noSuchAddress (64 * q.line))
    else match q.write with
      | none =>
        let m := s.markOf (s.fwd q.line)
        .next { s.tick.foundFailing (s.fwd q.line) with hostData := some (s.lineAt q.line, m.poison ≠ 0 || m.failing) }
      | some bytes =>
        let (id, t) := ({ s with hostHorizon := max s.hostHorizon (s.visTime (s.fwd q.line) 6) } : State).tick.fresh
        .next ((t.merge q.line 6 (bytes.foldl (fun (m : SMap Byte) b => m.put (b.1 % 64) b.2) []) false).publish (s.fwd q.line) 6 [] [] id)
  | _ => notNow "HOST_CXL_MEM_ACCESS"

end Machine
end Sys2Proof
end

