-- ==== Sys2Proof/Machine/Placing.lean ====
section
/-! DEFINITION. Launch dispatcher (R415 to R431 19_dispatch.md): placing blocks, pre-empting and restoring them, the choice by stride,
retirement and ordered release. -/

namespace Sys2Proof
namespace Machine

/-! ### What a launch has spawned, and pre-emption of a launch whole (R336, R427) -/

/-- Spawned groups, bins or children that are not complete. -/
def State.spawnedWork (s : State) (l : Launch) : Bool :=
  (s.slots.any fun x => x.launch == l.id) || (s.bins.any fun b => b.slots.any fun x => x.launch == l.id) ||
  (l.frames.any fun f => f.use == 0) || s.groups.any fun g => g.launch == l.id && g.spawned && !(g.finished && g.frames.isEmpty)

/-- A block is chosen for a pre-emption. -/
def Block.choose (b : Block) : Block :=
  match b.phase with
  | .placed => { b with phase := .saving 0 }
  | _ => b

def State.chooseBlock (s : State) (launch index : Nat) : State := s.modBlock launch index Block.choose

/-- All blocks of a launch. -/
def State.chooseAll (s : State) (launch : Nat) : State :=
  { s with blocks := s.blocks.map fun b => if b.launch = launch then b.choose else b }

/-- A launch is taken whole: it stays so until everything of it is saved. -/
def State.takeWhole (s : State) (launch : Nat) : State :=
  (s.chooseAll launch).modLaunch launch fun l => { l with whole := true }

/-- Is a launch only taken whole (R419, R336)? -/
def State.onlyWhole (s : State) (l : Launch) : Bool := l.conc || s.spawnedWork l

/-- A victim, or its whole launch. -/
def State.preempt (s : State) (l : Launch) (index : Nat) : State :=
  if s.onlyWhole l then s.takeWhole l.id else s.chooseBlock l.id index

/-! ### A save slot (R425) -/

/-- A tile entry; an undefined one reads zero. -/
def Tile.saved (t : Tile) : List Byte :=
  if t.defined then leBytes 4 (1 + bit t.pm 1 + (t.state + 1) * 2 ^ 2 + t.bs * 2 ^ 16) ++ leBytes 4 t.sz ++ zeros 8 else zeros 16

/-- The tile table of the block's i-th core. -/
def Block.tileBytes (b : Block) (i : Nat) : List Byte := parts 16 fun k => (b.tiles.get Tile.undefined (16 * i + k)).saved

/-- The header of a slot. -/
def Block.header (b : Block) (l : Launch) : List Byte :=
  leBytes 8 b.index ++ leBytes 4 l.groupsPerBlock ++ leBytes 4 (b.cores.getD 0 0) ++ leBytes 4 b.cores.length ++
  (parts 3 fun i => leBytes 4 (b.cores.getD (i + 1) 0)) ++ zeros 224

/-- What a slot holds beside the groups' records, by offset. A block of several cores has one array area, for its first core; the
arrays of the others stay with the block (log 33). -/
def Block.slotParts (b : Block) (l : Launch) : List (Nat × List Byte) :=
  [(0, b.header l ++ b.tileBytes 0),
   (l.poolAt, (parts l.maxCores fun i => (List.range l.poolShare).map fun j => b.pool.get 0 (2 ^ 20 * i + j)) ++
     parts (l.maxCores - 1) fun i => b.tileBytes (i + 1))] ++
  (if l.mxu then [(l.arrayAt, (b.arrays.get MxArray.empty 0).image)] else [])

/-- A launch whose saves are not kept (R433, R465). -/
def Launch.discards (l : Launch) : Bool :=
  match l.phase with
  | .restarting => true
  | .ending n => n == 5
  | _ => false

/-- Write what a slot holds beside the records, after the records; then the block's resources are free (R426). -/
def State.saveBlock (s : State) (l : Launch) (b : Block) : State :=
  ((b.slotParts l).foldl (fun (s : State) (p : Nat × List Byte) =>
    match s.launch? l.id with
    | some k => if k.discards then s else s.saveBytes k (dieOf (b.cores.getD 0 0)) [] (l.slotVa b.slot + p.1) (pagesOf p.2.length) p.2
    | none => s) s).modBlock b.launch b.index fun b => { b with phase := .saved, tiles := [], pool := [] }

/-- A saved tile entry: reserved bits clear, and the tile empty or ready where it is defined. -/
def tileEntryOk (b : Bytes) (at' : Nat) : Bool :=
  let w := rdN b at' 4
  decide (w / 2 ^ 5 % 2 ^ 11 = 0) && decide (w / 2 ^ 28 = 0) && decide (rdN b (at' + 4) 4 < 2 ^ 12) && zeroAt b (at' + 8) 8 &&
  (if w % 2 = 0 then decide (w = 0) && decide (rdN b (at' + 4) 4 = 0) else w / 4 % 8 == 1 || w / 4 % 8 == 3)
def tileOfEntry (b : Bytes) (at' : Nat) : Tile :=
  let w := rdN b at' 4
  if w % 2 = 0 then Tile.undefined
  else { defined := true, pm := w.testBit 1, bs := w / 2 ^ 16 % 2 ^ 12, sz := rdN b (at' + 4) 4, state := w / 4 % 8 - 1, pf := 0, rc := 0 }

/-- Offset of the tile table of the block's i-th core. -/
def Launch.tableAt (l : Launch) (i : Nat) : Nat := if i = 0 then 0x100 else l.tablesAt + 256 * (i - 1)

/-- Does a slot keep the layout of R425 for this block? -/
def Block.slotOk (b : Block) (l : Launch) (m : Bytes) : Bool :=
  (((List.range 256).map m) == b.header l) &&
  ((List.range l.maxCores).all fun i => if i < b.cores.length then (List.range 16).all fun k => tileEntryOk m (l.tableAt i + 16 * k)
    else zeroAt m (l.tableAt i) 256 && zeroAt m (l.poolAt + i * l.poolShare) l.poolShare) &&
  (!l.mxu || (decide (rdN m (l.arrayAt + 0xD0000) 4 < 2 ^ 8) && zeroAt m (l.arrayAt + 0xD0018) 40))

/-- The block that a slot stands for, on other cores. -/
def Block.ofSlot (b : Block) (l : Launch) (m : Bytes) (cores : List Nat) (time : Nat) : Block :=
  { b with
    cores := cores
    since := time
    phase := .placed
    tiles := SMap.build Tile.undefined (fun k => tileOfEntry m (l.tableAt (k / 16) + 16 * (k % 16))) 0 (16 * cores.length)
    pool := (List.range cores.length).flatMap fun i =>
      (SMap.build 0 (fun j => m (l.poolAt + i * l.poolShare + j)) 0 l.poolShare).map fun (k : Nat × Byte) => (2 ^ 20 * i + k.1, k.2)
    arrays := if l.mxu then b.arrays.put 0 ((b.arrays.get MxArray.empty 0).ofImage fun i => m (l.arrayAt + i)) else b.arrays }

/-! ### Reaching the boundary and being saved (R138, R140, R431) -/

/-- A spawned group that has finished leaves no record. -/
def Group.toSave (g : Group) : Bool :=
  match g.place with
  | .saved | .gone => false
  | _ => !(g.spawned && g.finished)

/-- Is a pre-emption of a launch whole done? -/
def State.wholeSaved (s : State) (l : Launch) : Bool :=
  (s.blocks.all fun b => b.launch ≠ l.id || !b.resident) && (s.slots.all fun x => x.launch ≠ l.id) &&
  (s.bins.all fun b => b.slots.all fun x => x.launch ≠ l.id) && s.groups.all fun g => g.launch ≠ l.id || !g.spawned || !g.toSave

def State.settleWhole (s : State) (launch : Nat) : State :=
  match s.launch? launch with
  | some l => if l.whole && s.wholeSaved l then s.modLaunch launch fun l => { l with whole := false } else s
  | none => s

/-- The groups of a block as they stand. -/
def State.groupsOf (s : State) (b : Block) : List Group := b.groups.filterMap s.group?

/-- With its last group saved, a block's slot is completed. -/
def State.settleBlock (s : State) (l : Launch) (index : Nat) : State :=
  match s.block? l.id index with
  | some b => if b.resident && (s.groupsOf b).all fun g => decide (g.place = .saved) then s.saveBlock l b else s
  | none => s

/-- A bin whose group has been saved is empty (R336). -/
def State.dropBin (s : State) (grp : Nat) : State := { s with bins := s.bins.filter fun b => b.formed ≠ some grp }

/-- Do the groups that a pre-emption takes together all stand at their boundaries, so that none of them issues a CCOLL that a saved one
would have to match (R410)? -/
def State.together (s : State) (l : Launch) (g : Group) : Bool :=
  s.groups.all fun o => o.launch ≠ l.id || o.spawned || !o.resident || (!l.conc && decide (o.block ≠ g.block)) ||
    ((o.subs.all SubGroup.atBoundary) && o.drained)

/-- The bytes that a save or a restore of a group reaches: its slot, or its continuation reservation. -/
def State.saveArea (s : State) (l : Launch) (g : Group) : Nat × Nat :=
  if g.spawned then (s.recordPlace l g, l.recordSize)
  else (l.slotVa (match s.block? g.launch g.block with | some b => b.slot | none => 0), l.slotSize)

/-- Can the group be saved now? A block all of whose groups have finished retires instead. -/
def State.canSave (s : State) (l : Launch) (g : Group) : Bool :=
  s.mustStop g && g.toSave && (g.subs.all SubGroup.atBoundary) && g.drained &&
  (l.discards || s.areaOpen l (s.saveArea l g).1 (s.saveArea l g).2) && (decide (l.phase ≠ .active) || g.spawned || s.together l g) && (g.spawned || l.discards ||
    match s.block? g.launch g.block with
    | some b => (s.groupsOf b).any fun g => !g.finished
    | none => false)

/-- GROUP_SAVE (R138, R140): the group that State.arg names has stopped at its boundary and its counters have drained. An error that
it still holds traps it first. A launch with spawned work is saved whole. -/
def execGroupSave (s : State) : Out :=
  match s.arg with
  | .num id => match s.group? id with
    | some g => match s.launch? g.launch with
      | some l =>
        if s.canSave l g then
          let t := s.tick
          let t := if decide (l.phase = .active) && s.spawnedWork l && !l.whole then t.takeWhole l.id else t
          match (if l.discards then none else g.saveFault) with
          | some (n, q) => .next (t.saveTrap g n q)
          | none =>
            let t := (t.saveGroup l g .saved (!l.discards)).dropBin id
            .next ((if g.spawned then t else t.settleBlock l g.block).settleWhole l.id)
        else notNow "GROUP_SAVE"
      | none => notNow "GROUP_SAVE"
    | none => notNow "GROUP_SAVE"
  | _ => notNow "GROUP_SAVE"

/-! ### Placing a block for the first time (R420 to R425) -/

/-- A block starts on its cores; its first access follows an incoming edge (R96). -/
def State.startBlock (s : State) (l : Launch) (k : Nat) (spot : Spot) : State :=
  let cores := spot.map fun p => p.1
  let seats := spot.flatMap fun p => p.2.map fun q => (p.1, q)
  let gs : List Group := seats.zipIdx.map fun (p : (Nat × Nat) × Nat) =>
    l.startGroup (s.nextId + p.2) k p.2 p.1.1 p.1.2 l.entry l.allMembers l.allLanes
  let b : Block := { launch := l.id, index := k, cores := cores, slot := s.freeSlot l, since := s.time, phase := .placed,
                     groups := gs.map fun g => g.id, tiles := [], pool := [], arrays := [] }
  let first := cores.headD 0
  let s : State := { s with nextId := s.nextId + gs.length, groups := s.groups ++ gs, blocks := s.blocks ++ [b] }
  let s := s.modLaunch l.id fun l => { l with
    nextBlock := k + 1
    rotor := some first
    clusters := l.clusters.put (l.clusterUnit k) (clusterOf first)
    firstPlaced := match l.firstPlaced with
      | some t => some t
      | none => some s.time }
  gs.foldl (fun (s : State) (g : Group) => s.incoming g.id g.core) s

/-- Slots of the launch that no block holds. -/
def State.slotsLeft (s : State) (l : Launch) : Nat :=
  s.nres l - (s.blocks.filter fun b => b.launch == l.id && match b.phase with
    | .retired | .released => false
    | _ => true).length

/-- Where the launch's next block, or every block of a CONC launch, would go now. -/
def State.nextSpots (s : State) (l : Launch) : Option (List Spot) :=
  if !l.runs || decide (l.nblocks ≤ l.nextBlock) || !s.clear l.after then none
  else if l.conc then
    if s.slotsLeft l < l.nblocks - l.nextBlock then none
    else (s.placeMany (l.nblocks - l.nextBlock) l [] l.nextBlock).map fun r => r.1
  else if s.slotsLeft l = 0 then none
  else (s.findSpot l [] l.nextBlock none).map fun r => [r.1]

/-- Place blocks, from the launch's next one on. -/
def State.startBlocks (s : State) (launch : Nat) (spots : List Spot) : State :=
  spots.foldl (fun (s : State) (spot : Spot) => match s.launch? launch with
    | some l => s.startBlock l l.nextBlock spot
    | none => s) s

/-! ### Restoring a block (R423, R426) -/

/-- A slot breaks its layout: the block's group 0 reports it (R425). -/
def State.slotBroken (s : State) (l : Launch) (b : Block) : State :=
  match b.groups.head?.bind s.group? with
  | some g => s.recordBroken l g
  | none => s.stopLaunch l.id 0x01 b.index 0

/-- Restore a saved block onto cores: its slot, then its groups in order. -/
def State.restoreBlock (s : State) (l : Launch) (b : Block) (spot : Spot) : State :=
  let va := l.slotVa b.slot
  match s.loadBytes l va (pagesOf l.slotSize) l.slotSize with
  | none => (s.consumeBytes l va (pagesOf l.slotSize) l.slotSize).endLaunch l.id 5
  | some bytes =>
    let a := bytes.toArray
    let m : Bytes := fun i => a.getD i 0
    if !b.slotOk l m then s.slotBroken l b
    else
      let cores := spot.map fun p => p.1
      let seats := spot.flatMap fun p => p.2.map fun q => (p.1, q)
      let t := (s.modBlock l.id b.index fun b => b.ofSlot l m cores s.time).modLaunch l.id fun l => { l with rotor := some (cores.headD 0) }
      let r : Restored := (b.groups.zip seats).foldl (fun (r : Restored) (p : Nat × (Nat × Nat)) =>
        match r with
        | .ok t => (match t.group? p.1 with
          | some g => t.restoreGroup l g p.2.1 p.2.2
          | none => .ok t)
        | bad => bad) (.ok t)
      match r with
      | .ok t => t
      | .unreadable => s.endLaunch l.id 5
      | .broken => s.slotBroken l b

/-- Saved blocks of a launch that may be restored, by index. -/
def State.savedBlocks (s : State) (l : Launch) : List Block :=
  sortBy (fun a b => decide (a.index ≤ b.index)) (s.blocks.filter fun b =>
    b.launch == l.id && decide (b.phase = .saved) && s.areaOpen l (l.slotVa b.slot) l.slotSize && (s.groupsOf b).all fun g => s.clear g.horizon)

/-- Spots for several saved blocks together: a CONC launch comes back at once (R419). -/
def State.restoreSpots (s : State) (l : Launch) : List Block → Loads → Option (List (Block × Spot))
  | [], _ => some []
  | b :: rest, loads => match s.findSpot l loads b.index (some b.cores.length) with
    | none => none
    | some (spot, loads) =>
      (s.restoreSpots { l with rotor := some ((spot.map fun p => p.1).headD 0) } rest loads).map fun r => (b, spot) :: r

/-- The restores that are possible now: one block, or all of a CONC launch. -/
def State.restoreNow (s : State) (l : Launch) : Option (List (Block × Spot)) :=
  if !l.runs then none
  else
    let bs := s.savedBlocks l
    if l.conc then
      if bs.isEmpty || bs.length ≠ (s.blocks.filter fun b => b.launch == l.id && decide (b.phase = .saved)).length then none
      else s.restoreSpots l bs []
    else bs.findSome? fun b => (s.findSpot l [] b.index (some b.cores.length)).map fun r => [(b, r.1)]

/-- Restore them in turn; once a slot has failed no further one is read (R465). -/
def State.restoreAll (s : State) (launch : Nat) (l : List (Block × Spot)) : State :=
  l.foldl (fun (s : State) (p : Block × Spot) => match s.launch? launch with
    | some l => if l.runs then s.restoreBlock l p.1 p.2 else s
    | none => s) s

/-! ### Active launches and victims (R424, R427) -/

/-- Active launches by queue. -/
def State.actives (s : State) : List Launch :=
  s.queues.filterMap fun (k : Nat × Queue) => match k.2.launches with
    | id :: _ => s.launch? id
    | [] => none

/-- The machine once what is being saved, and the victims, have gone from their cores. -/
def State.without (s : State) (victims : List (Nat × Nat)) : State :=
  let goes := fun (b : Block) => (match b.phase with
    | .saving _ => true
    | _ => false) || victims.contains (b.launch, b.index)
  let whole := fun (launch : Nat) => match s.launch? launch with
    | some l => l.whole || (s.onlyWhole l && victims.any fun v => v.1 == launch)
    | none => false
  { s with
    blocks := s.blocks.filter fun b => !goes b && !whole b.launch
    groups := s.groups.filter fun g => !whole g.launch && (g.spawned || !(s.blocks.any fun b => b.launch == g.launch && b.index == g.block && goes b)) }

/-- Victims for an urgent launch, in their order: on the eligible cores of its next block, the queue of highest PASS first. -/
def State.victims (s : State) (u : Launch) : List (Nat × Nat) :=
  let el := s.eligible u u.nextBlock
  let pass : Nat → Nat := fun launch => match s.launch? launch with
    | some l => (s.queue l.queue).pass
    | none => 0
  let qn : Nat → Nat := fun launch => match s.launch? launch with
    | some l => l.queue
    | none => 0
  let bs := s.blocks.filter fun b => decide (b.phase = .placed) && (b.cores.any el.contains) && (match s.launch? b.launch with
    | some l => decide (l.phase = .active) && !l.urg
    | none => false)
  (sortBy (fun (a b : Block) =>
    decide (pass b.launch < pass a.launch) || (pass a.launch == pass b.launch && (decide (qn b.launch < qn a.launch) ||
      (qn a.launch == qn b.launch && decide (b.index ≤ a.index))))) bs).map fun b => (b.launch, b.index)

/-- The fewest victims, taken in order, that make room. -/
def State.makeRoom (s : State) (u : Launch) (all : List (Nat × Nat)) : Option (List (Nat × Nat)) :=
  ((List.range (all.length + 1)).find? fun n => ((s.without (all.take n)).nextSpots u).isSome).map all.take

/-- Step 2 of R424 for one urgent launch: place its next block, or start the pre-emptions it needs. -/
def State.urgentOne (s : State) (u : Launch) : Option State :=
  match s.nextSpots u with
  | some spots => some (s.startBlocks u.id spots).updateContention
  | none =>
    if !u.runs || decide (u.nblocks ≤ u.nextBlock) then none
    else match s.makeRoom u (s.victims u) with
      | some [] => none
      | some vs => some (vs.foldl (fun (s : State) (v : Nat × Nat) => match s.launch? v.1 with
          | some l => s.preempt l v.2
          | none => s) s)
      | none => none

def State.urgentStep (s : State) : Option State := (s.actives.filter fun l => l.urg).findSome? s.urgentOne

/-- Actions that step 2 of R424 can take: each places a block in slots of its own, or chooses one for a pre-emption. -/
def State.urgentLimit (s : State) : Nat := 96 * s.cores.length + s.blocks.length

/-- Step 2 of R424 until it has nothing more to do, `n` actions at most. -/
def State.urgentAll (s : State) : Nat → State
  | 0 => s
  | n + 1 => match s.urgentStep with
    | some t => t.urgentAll n
    | none => s

/-! ### The choice by stride (R417) -/

/-- The contending queue of lowest PASS with a placeable next block, with its launch and the places. -/
def State.choice (s : State) : Option (Nat × Launch × List Spot) :=
  let cands := s.queues.filterMap fun (k : Nat × Queue) =>
    if k.2.contending then (match k.2.launches.head?.bind s.launch? with
      | some l => if l.urg then none else (s.nextSpots l).map fun spots => (k.2.pass, k.1, l, spots)
      | none => none)
    else none
  (cands.foldl (fun (best : Option (Nat × Nat × Launch × List Spot)) c => match best with
    | none => some c
    | some b => if c.1 < b.1 then some c else best) none).map fun c => c.2

/-- STR of a launch. -/
def Launch.stride (l : Launch) : Nat := 2 ^ 24 / l.tickets

/-- Step 4 of R424: one choice of R417. -/
def State.strideStep (s : State) : Option State :=
  s.choice.map fun (c : Nat × Launch × List Spot) =>
    let s : State := { s with gvt := (s.queue c.1).pass }
    let s := s.startBlocks c.2.1.id c.2.2
    (s.modQueue c.1 fun q => { q with pass := (q.pass + c.2.2.length * c.2.1.stride) % 2 ^ 64 }).updateContention

/-- DISPATCH_CHOICE (R417, R424): one action of the dispatcher, the first in the order of R424 that it can take. -/
def execDispatchChoice (s : State) : Out :=
  let t := s.tick
  match t.urgentStep with
  | some t => .next t
  | none => match t.actives.findSome? fun l => (t.restoreNow l).map fun r => (l.id, r) with
    | some (id, r) => .next (t.restoreAll id r)
    | none => match t.strideStep with
      | some t => .next t
      | none => notNow "DISPATCH_CHOICE"

/-! ### Retirement (R423, R428) -/

/-- Have all groups of a block finished? -/
def State.blockDone (s : State) (b : Block) : Bool := b.resident && (s.groupsOf b).all fun g => g.finished

/-- A block retires: a group keeps only what its children still need. Under ordered release its staged writes wait. Its cores' dirty
bytes leave, so that the edge of kernel completion has them behind it (R248). -/
def State.retireBlock (s : State) (b : Block) : State :=
  let ord := match s.launch? b.launch with
    | some l => l.ord
    | none => false
  let s := b.cores.foldl State.flush s
  let s : State := { s with groups := s.groups.map fun g => if b.groups.contains g.id then { g with place := .gone } else g }
  if ord then s.modBlock b.launch b.index fun b => { b with phase := .retired, tiles := [], pool := [], arrays := [] }
  else { s with blocks := s.blocks.filter fun o => !(o.launch == b.launch && o.index == b.index) }

/-- Where a block could go on a freed core: that core, or the lowest set of its cluster with it. -/
def State.spotOn (s : State) (l : Launch) (index : Nat) (only : Option Nat) (core : Nat) : Option Spot :=
  let el := s.eligible l index
  if !el.contains core then none
  else
    let ks := match only with
      | some k => [k]
      | none => if l.oneCore then [1] else [2, 3, 4]
    ks.findSome? fun k => ((chooseN k (el.filter fun c => clusterOf c == clusterOf core)).filter fun cs => cs.contains core).findSome?
      fun cs => (s.tryCores l [] cs).map fun r => r.1

/-- Fill a freed core with waiting blocks of its launch, in ascending index, saved ones included. -/
def State.fillCore (s : State) (launch core : Nat) : Nat → State
  | 0 => s
  | n + 1 => match s.launch? launch with
    | none => s
    | some l =>
      if !l.runs || l.conc then s
      else match (s.savedBlocks l).findSome? fun b => (s.spotOn l b.index (some b.cores.length) core).map fun p => (b, p) with
        | some (b, spot) => (s.restoreBlock l b spot).fillCore launch core n
        | none =>
          if l.nextBlock < l.nblocks ∧ 0 < s.slotsLeft l then
            (match s.spotOn l l.nextBlock none core with
              | some spot => (s.startBlock l l.nextBlock spot).fillCore launch core n
              | none => s)
          else s

/-- BLOCK_RETIRE (R423, R424): every block whose groups have finished retires; urgent launches are served first, then each freed core,
ascending, takes waiting blocks of the launches that freed it. -/
def execBlockRetire (s : State) : Out :=
  match s.blocks.filter s.blockDone with
  | [] => notNow "BLOCK_RETIRE"
  | done =>
    let t := done.foldl (fun (s : State) (b : Block) => s.retireBlock b) s.tick
    let t := done.foldl (fun (s : State) (b : Block) => (s.reap b.launch).settleWhole b.launch) t
    let t := t.urgentAll t.urgentLimit
    let freed := sortBy (fun a b => decide (a.1 < b.1) || (a.1 == b.1 && decide (a.2 ≤ b.2)))
      (done.foldl (fun (l : List (Nat × Nat)) (b : Block) => b.cores.foldl (fun l c => if l.contains (c, b.launch) then l else l ++ [(c, b.launch)]) l) [])
    .next (freed.foldl (fun (s : State) (p : Nat × Nat) => s.fillCore p.2 p.1 33) t).updateContention

/-! ### Ordered release (R428 to R430) -/

/-- Perform one staged write or atomic at its home, in the name of a group of its block. -/
def State.releaseOne (s : State) (owner : List Nat) (w : Staged) : State :=
  let (id, s) := s.fresh
  match w.atom with
  | none => ((s.mergeHome w.line w.die w.bytes w.poison).taint w.line w.marked).publish w.line w.die owner [] id
  | some r =>
    match markFor (s.fwd (r.pa / 64)) (s.markOf (s.fwd (r.pa / 64))) with
    | some _ => s.foundFailing (s.fwd (r.pa / 64))
    | none => match r.compute (leNat (s.bytesAt r.pa r.width)) with
      | none => s
      | some (v, _) =>
        (s.merge (r.pa / 64) w.die ((leBytes r.width v).zipIdx.map fun (b : Byte × Nat) => (r.pa % 64 + b.2, b.1)) false).publish
          (s.fwd (r.pa / 64)) w.die owner [] id

/-- Has the block retired, and every lower one of its launch been released (R429)? -/
def State.releasable (s : State) (b : Block) : Bool :=
  decide (b.phase = .retired) &&
    (s.blocks.filter fun o => o.launch == b.launch && decide (o.index < b.index) && decide (o.phase = .released)).length == b.index

/-- BLOCK_RELEASE (R429): the block that State.arg names, as launch and index, has retired and every lower one has been released. -/
def execBlockRelease (s : State) : Out :=
  match s.arg with
  | .pair launch index => match s.block? launch index with
    | some b =>
      if s.releasable b then
        let mine := s.staged.filter fun w => w.launch == launch && w.block == index
        let t := mine.foldl (fun (s : State) (w : Staged) => s.releaseOne (b.groups.take 1) w) s.tick
        .next ({ t with staged := t.staged.filter fun w => !(w.launch == launch && w.block == index) }.modBlock launch index fun b =>
          { b with phase := .released })
      else notNow "BLOCK_RELEASE"
    | none => notNow "BLOCK_RELEASE"
  | _ => notNow "BLOCK_RELEASE"

/-! ### The quantum (R427) -/

/-- The quantum of a core in clocks. -/
def quantum : Nat := 3500000

/-- The block that has been resident longest on a core, the lower index first where several are. -/
def State.longest (s : State) (core : Nat) : Option Block :=
  (s.blocks.filter fun b => decide (b.phase = .placed) && b.cores.contains core && (match s.launch? b.launch with
    | some l => decide (l.phase = .active) && !l.urg
    | none => false)).foldl (fun (best : Option Block) b => match best with
      | none => some b
      | some o => if b.since < o.since then some b else best) none

/-- PREEMPT_QUANTUM (R427): on the core that State.arg names. -/
def execPreemptQuantum (s : State) : Out :=
  match s.arg with
  | .num core => match s.longest core with
    | some b => match s.launch? b.launch with
      | some l =>
        let waits := s.queues.any fun (k : Nat × Queue) => k.2.contending && decide (k.2.pass < (s.queue l.queue).pass) &&
          (match k.2.launches.head?.bind s.launch? with
            | some o => o.runs && s.clear o.after && (s.nextSpots o).isNone
            | none => false)
        if b.since + quantum ≤ s.time ∧ waits = true then .next (s.tick.preempt l b.index)
        else notNow "PREEMPT_QUANTUM"
      | none => notNow "PREEMPT_QUANTUM"
    | none => notNow "PREEMPT_QUANTUM"
  | _ => notNow "PREEMPT_QUANTUM"

end Machine
end Sys2Proof
end

