-- ==== Sys2Proof/Machine/Queues.lean ====
section
/-! DEFINITION. Ends of launches and what the host sees of them (R415, R416, R431 to R433 19_dispatch.md), the loss of cores, channels
and base dies (R12, R41 01_machine.md), and the registers of the adapter (R439, R440 20_links.md). -/

namespace Sys2Proof
namespace Machine

/-! ### When a launch has stopped, and when it is done -/

/-- Operations of a launch that are outstanding. -/
def State.busy (s : State) (l : Launch) : Bool :=
  s.ops.any fun o => match s.group? o.grp with
    | some g => g.launch == l.id
    | none => false

/-- Every group of a launch has been saved or has finished, nothing of it is outstanding, and no release in order is due (R429). -/
def State.launchStopped (s : State) (l : Launch) : Bool :=
  s.wholeSaved l && !s.busy l && s.blocks.all fun b => b.launch ≠ l.id || !s.releasable b

/-- Every access of a launch has been performed, and its visibility time has passed. -/
def State.launchClear (s : State) (l : Launch) : Bool :=
  s.groups.all fun g => g.launch ≠ l.id || (s.clear g.horizon && s.writes.all fun w => !w.owners.contains g.id)

/-- A kernel is complete (R337 14_spawn.md): every block placed, finished and, under ordered release, released; no spawned work; R35. -/
def State.launchDone (s : State) (l : Launch) : Bool :=
  decide (l.nblocks ≤ l.nextBlock) && (s.blocks.all fun b => b.launch ≠ l.id || decide (b.phase = .released)) &&
  !s.spawnedWork l && (s.groups.all fun g => g.launch ≠ l.id || g.finished) && !s.busy l && s.launchClear l

/-- Is there a path to what the launch reports (R449)? -/
def State.reportOpen (s : State) (l : Launch) : Bool := l.complAt == 0 || s.areaOpen l l.complAt 256
def State.signalsOpen (s : State) (l : Launch) : Bool :=
  (l.csigAt == 0 || s.areaOpen l l.csigAt 4) && match l.signal with
    | some (asid, va) => s.hostPath || (match (s.reach { core := none, asid := asid, priv := s.asidPriv asid, rd := false, wr := true } va 0).1 with
      | .ok r => s.pathTo (r.pa / 64)
      | .error (_, cause, _) => decide (cause ≠ 0))
    | none => true

/-! ### Completion records and signals (R415, R416) -/

/-- Word 0 of the completion record. -/
def Launch.statusWord (l : Launch) (status : Nat) : Nat := status + if status = 1 then l.trapCause * 2 ^ 8 else 0

/-- The completion record. A launch that has only trapped has no time of completion. -/
def Launch.completion (l : Launch) (status time : Nat) : List Byte :=
  leBytes 4 (l.statusWord status) ++ leBytes 4 l.restarts ++ leBytes 8 (l.firstPlaced.getD 0) ++
  leBytes 8 (if status = 1 then 0 else time) ++ leBytes 8 (if status = 1 then l.trapBlock else 0) ++
  leBytes 4 (if status = 1 then l.trapGroup else 0) ++ zeros 28 ++ (parts 16 fun k => leBytes 8 (l.counts.get 0 k)) ++ zeros 64

/-- Write the record, where there is one and its bytes can be written: when it is visible, and the machine. -/
def State.writeCompletion (s : State) (l : Launch) (status : Nat) : Nat × State :=
  if l.complAt = 0 then (0, s)
  else match s.engineAddrs l l.complAt 256 false true with
    | .error _ => (0, s)
    | .ok addrs => ((linesOf addrs).foldl (fun v line => max v (s.visTime (s.fwd line) 4)) 0,
        s.writeHome 4 [] (addrs.zip (l.completion status s.time)))

/-- Write the record; the signals wait for its visibility. -/
def State.report (s : State) (l : Launch) (status : Nat) : State :=
  let (v, s) := s.writeCompletion l status
  s.modLaunch l.id fun l => { l with phase := .reporting status v }

/-- SIGNAL.set.b32 by the dispatcher, skipped where the unit cannot be written. -/
def State.signalUnit (s : State) (asid : Nat) (priv : Bool) (va v : Nat) : State :=
  match (s.reachAll { core := none, asid := asid, priv := priv, rd := false, wr := true } va 4 0).1 with
  | .error _ => s
  | .ok (addrs, _) =>
    let line := s.fwd (addrs.headD 0 / 64)
    match markFor line (s.markOf line) with
    | some _ => s.foundFailing line
    | none => s.writeHome 4 [] (addrs.zip (leBytes 4 v))

/-- The signals of a report, and the queue's vector. -/
def State.signalReport (s : State) (l : Launch) (status : Nat) : State :=
  let v := l.statusWord status
  let s := if l.csigAt = 0 then s else s.signalUnit l.asid l.priv l.csigAt v
  let s := match l.signal with
    | some (asid, va) => s.signalUnit asid (s.asidPriv asid) va v
    | none => s
  if (s.queue l.queue).qmsi.getLsbD 0 then s.raiseMsix l.queue else s

/-- A launch leaves its queue; the next one becomes active. -/
def State.closeLaunch (s : State) (l : Launch) : State :=
  let s : State := { s with
    launches := s.launches.filter fun o => o.id ≠ l.id
    groups := s.groups.filter fun g => g.launch ≠ l.id
    blocks := s.blocks.filter fun b => b.launch ≠ l.id
    staged := s.staged.filter fun w => w.launch ≠ l.id }
  let s := s.modQueue l.queue fun q => { q with launches := q.launches.filter (· ≠ l.id) }
  (match (s.queue l.queue).launches with
    | id :: _ => s.modLaunch id fun o => match o.phase with
      | .waiting => { o with phase := .active }
      | _ => o
    | [] => s).updateContention

/-- LAUNCH_TRAP_REPORT (R138, R416): every group of the launch that State.arg names has been saved: the record is written, and once it is
visible the signals follow. -/
def execLaunchTrapReport (s : State) : Out :=
  match s.arg with
  | .num id => match s.launch? id with
    | some l => match l.phase with
      | .stopping =>
        if s.launchStopped l && s.launchClear l && s.reportOpen l then .next (s.tick.report l 1) else notNow "LAUNCH_TRAP_REPORT"
      | .reporting 1 v =>
        if s.clear v && s.signalsOpen l then
          .next ((s.tick.signalReport l 1).modLaunch id fun l => { l with phase := .trapped, trapped := true }).updateContention
        else notNow "LAUNCH_TRAP_REPORT"
      | _ => notNow "LAUNCH_TRAP_REPORT"
    | none => notNow "LAUNCH_TRAP_REPORT"
  | _ => notNow "LAUNCH_TRAP_REPORT"

/-- LAUNCH_COMPLETION (R415, R337): the launch that State.arg names is complete, or has stopped to end: the record is written, and once it
is visible the signals follow and the next launch of its queue becomes active. Status 3 is for a launch that has not trapped (R446). -/
def execLaunchCompletion (s : State) : Out :=
  match s.arg with
  | .num id => match s.launch? id with
    | some l => match l.phase with
      | .active =>
        if s.launchDone l && s.reportOpen l then .next (s.tick.report l (if l.remoteErrors = 0 || l.trapped then 0 else 3))
        else notNow "LAUNCH_COMPLETION"
      | .ending status =>
        if s.launchStopped l && s.launchClear l && s.reportOpen l then .next (s.tick.report l status) else notNow "LAUNCH_COMPLETION"
      | .reporting status v =>
        if status ≠ 1 ∧ s.clear v = true ∧ s.signalsOpen l = true then .next ((s.tick.signalReport l status).closeLaunch l) else notNow "LAUNCH_COMPLETION"
      | _ => notNow "LAUNCH_COMPLETION"
    | none => notNow "LAUNCH_COMPLETION"
  | _ => notNow "LAUNCH_COMPLETION"

/-! ### Loss of a core (R109 03_visibility.md, R336, R432, R433) -/

/-- Does a core hold groups, bins or arriving slots of a launch? -/
def State.coreHolds (s : State) (core : Nat) (l : Launch) : Bool :=
  (s.groups.any fun g => g.launch == l.id && g.resident && g.core == core) ||
  (s.blocks.any fun b => b.launch == l.id && b.resident && b.cores.contains core) ||
  (s.bins.any fun b => b.core == core && b.slots.any fun x => x.launch == l.id) || s.slots.any fun x => x.core == core && x.launch == l.id

/-- A launch that a core held ends with status 2, or starts again. -/
def Launch.lose (l : Launch) : Launch :=
  match l.phase with
  | .active | .stopping => { l with phase := if l.rc then .restarting else .ending 2 }
  | _ => l

/-- What is left of a group that is lost: nothing but its name, for the writes of its that are on their way (R109, R433). -/
def Group.lost (g : Group) : Group :=
  { g with
    place := .gone, live := [], exm := [], frames := [], resv := none, awr := none, deferred := [], uncovered := [], ld := 0, st := 0, cp := 0, mx := 0
    subs := g.subs.map fun u => { u with phase := .finished, boundary := none, monitor := none } }

/-- A core is lost with its groups, its L1, its bins and what its groups had outstanding. -/
def State.loseCore (s : State) (core : Nat) : State :=
  let hit := s.launches.filter fun l => s.coreHolds core l
  let gone := (s.groups.filter fun g => g.resident && g.core == core).map fun g => g.id
  let s : State := { s with
    cores := s.cores.filter (· ≠ core)
    groups := s.groups.map fun g => if gone.contains g.id then g.lost else g
    ops := s.ops.filter fun o => !gone.contains o.grp
    l1 := s.l1.filter fun x => x.core ≠ core
    tlb := s.tlb.filter fun e => e.core ≠ core
    bins := s.bins.filter fun b => b.core ≠ core
    slots := s.slots.filter fun x => x.core ≠ core
    launches := s.launches.map fun l => if hit.any fun h => h.id == l.id then l.lose else l
    blocks := (s.blocks.map fun b => if b.resident && b.cores.contains core then { b with groups := b.groups.filter fun g => !gone.contains g }
      else b).filter fun b => !(b.resident && b.cores.contains core && b.groups.isEmpty) }
  let s := (s.blocks.filter fun b => b.resident && b.cores.contains core).foldl (fun (s : State) (b : Block) => match s.launch? b.launch with
    | some l => s.settleBlock l b.index
    | none => s) s
  (hit.foldl (fun (s : State) (l : Launch) => s.settleWhole l.id) s).event 3 (dieOf core) core

/-- CORE_LOSS (R432, R433): the core that State.arg names. -/
def execCoreLoss (s : State) : Out :=
  match s.arg with
  | .num core => if s.cores.contains core then .next (s.tick.loseCore core).updateContention else notNow "CORE_LOSS"
  | _ => notNow "CORE_LOSS"

/-- Is some die of a launch's die-units without a core of its window? -/
def State.noCore (s : State) (l : Launch) : Bool :=
  l.usedDies.any fun d => !(s.cores.any fun c => l.inWindow c && dieOf c == d)

/-- LAUNCH_RESTART (R433): the launch that State.arg names has stopped, and every operation of it has completed, its writes performed: it is
placed again from block 0, or ends with status 2 where it has no eligible core. -/
def execLaunchRestart (s : State) : Out :=
  match s.arg with
  | .num id => match s.launch? id with
    | some l =>
      if l.phase = .restarting ∧ s.launchStopped l = true ∧ s.launchClear l = true then
        let t : State := { s.tick with
          groups := s.groups.filter fun g => g.launch ≠ id
          blocks := s.blocks.filter fun b => b.launch ≠ id
          staged := s.staged.filter fun w => w.launch ≠ id }
        .next (t.modLaunch id fun l =>
          let l : Launch := { l with rotor := none, clusters := [], nextBlock := 0, whole := false, frames := [] }
          if s.noCore l then { l with phase := .ending 2 } else { l with phase := .active, restarts := l.restarts + 1 }).updateContention
      else notNow "LAUNCH_RESTART"
    | none => notNow "LAUNCH_RESTART"
  | _ => notNow "LAUNCH_RESTART"

/-! ### Loss of a channel and of a base die (R12, R41) -/

/-- HBM_CHANNEL_LOSS (R41): the channel of a near die that State.arg names. Its lines are poisoned from now on (R284). -/
def execHbmChannelLoss (s : State) : Out :=
  match s.arg with
  | .pair die ch =>
    if die < 4 ∧ ch < 64 ∧ s.mapped.contains (64 * die + ch) = false ∧ s.lost.contains (64 * die + ch) = false then
      let t : State := { s.tick with lost := s.lost ++ [64 * die + ch] }
      .next (({ t with guests := t.guests.filter fun g => (t.markOf g.line).poison ≠ 4 } : State).event 4 die ch)
    else notNow "HBM_CHANNEL_LOSS"
  | _ => notNow "HBM_CHANNEL_LOSS"

/-- A base die leaves service: nothing is cached there, and what it was to answer is answered. -/
def State.dropBase (s : State) (d code : Nat) : State :=
  let s : State := { s with dieState := s.dieState.set 0 d code }
  { s with
    guests := s.guests.filter fun g => g.die ≠ d && s.homeDie (64 * g.line) ≠ d
    dirs := s.dirs.filterMap fun (k : Nat × List Nat) => match k.2.filter (· ≠ d) with
      | [] => none
      | ds => some (k.1, ds)
    probes := s.probes.filter fun p => p.die ≠ d
    ops := s.ops.map fun o => match o.kind with
      | .tlbinv mode asid va e todo acks =>
        if todo.contains d then { o with kind := .tlbinv mode asid va e (todo.filter (· ≠ d)) (acks ++ [d]) } else o
      | _ => o }

/-- BASE_DIE_LOSS (R12): the near die that State.arg names, with every core of its compute die. -/
def execBaseDieLoss (s : State) : Out :=
  match s.arg with
  | .num d =>
    if d < 4 ∧ s.dieCode d < 2 then
      let t := (s.tick.dropBase d 3).event 5 d 0
      .next ((t.cores.filter fun c => dieOf c == d).foldl (fun (s : State) (c : Nat) => s.loseCore c) t).updateContention
    else notNow "BASE_DIE_LOSS"
  | _ => notNow "BASE_DIE_LOSS"

/-! ### The adapter's registers (R439, R440) -/

/-- Do the functions of BAR0 work (R454 21_management.md)? -/
def State.up (s : State) : Bool := decide (s.bringup = .done)

/-- Can the host reach the adapter? With both host links down it cannot until the next bring-up (R449). -/
def State.hostReach (s : State) : Bool := s.hostPath || !s.up

/-- A write to a register that `arg` names; before bring-up is complete it changes nothing. -/
def State.hostReg (s : State) (q : Nat) (name : String) (f : State → State) : Out :=
  if 64 ≤ q ∨ s.hostReach = false then notNow name else .next (if s.up then f s.tick else s.tick)

/-- QGO (R440): the queue that State.arg names. -/
def execQgo (s : State) : Out :=
  match s.arg with
  | .num q => s.hostReg q "QGO" fun s =>
      let rec' := (s.queue q).qrec
      let (status, s) := s.enqueue (rec' ++ List.replicate (256 - rec'.length) 0) (some q) none none
      s.modQueue q fun k => { k with
        qstat := BitVec.ofNat 32 (status + (bits k.qstat 15 8 + 1) % 256 * 2 ^ 8) }
  | _ => notNow "QGO"

/-- The active launch of a queue. -/
def State.active? (s : State) (q : Nat) : Option Launch := (s.queue q).launches.head?.bind s.launch?

/-- QCTL_PREEMPT (R427, R440): all blocks of the queue's active launch. -/
def execQctlPreempt (s : State) : Out :=
  match s.arg with
  | .num q => s.hostReg q "QCTL_PREEMPT" fun s => match s.active? q with
      | some l =>
        if l.phase = .active ∧ l.preempt = false then
          ((if s.onlyWhole l then s.takeWhole l.id else s.chooseAll l.id).modLaunch l.id fun l => { l with preempt := true }).updateContention
        else s
      | none => s
  | _ => notNow "QCTL_PREEMPT"

/-- QCTL_WITHDRAW (R427, R440). -/
def execQctlWithdraw (s : State) : Out :=
  match s.arg with
  | .num q => s.hostReg q "QCTL_WITHDRAW" fun s => match s.active? q with
      | some l => if l.preempt then (s.modLaunch l.id fun l => { l with preempt := false }).updateContention else s
      | none => s
  | _ => notNow "QCTL_WITHDRAW"

/-- Is a save record of a group consistent, read as the host left it (R142)? A record that cannot be read is found at the restore. -/
def State.recordSound (s : State) (l : Launch) (g : Group) : Bool :=
  match s.loadBytes l (s.recordPlace l g) 8 l.recordSize with
  | none => true
  | some bytes =>
    let a := bytes.toArray
    g.recordOk l (fun i => a.getD i 0) true

/-- Is every saved record of a launch consistent? -/
def State.resumable (s : State) (l : Launch) : Bool :=
  s.groups.all fun g => g.launch ≠ l.id || decide (g.place ≠ .saved) || s.recordSound l g

/-- QCTL_RESUME (R142, R416, R440): refused where a record is inconsistent, and the host is told; else the launch is active again and is
restored. -/
def execQctlResume (s : State) : Out :=
  match s.arg with
  | .num q => s.hostReg q "QCTL_RESUME" fun s => match s.active? q with
      | some l =>
        if l.phase ≠ .trapped then s
        else if s.resumable l then (s.modLaunch l.id fun l => { l with phase := .active }).updateContention
        else s.modQueue q fun k => { k with refusals := k.refusals + 1 }
      | none => s
  | _ => notNow "QCTL_RESUME"

/-- QCTL_END (R416, R440): a trapped launch ends with status 4. -/
def execQctlEnd (s : State) : Out :=
  match s.arg with
  | .num q => s.hostReg q "QCTL_END" fun s => match s.active? q with
      | some l => if l.phase = .trapped then s.modLaunch l.id fun l => { l with phase := .ending 4 } else s
      | none => s
  | _ => notNow "QCTL_END"

/-- ASTBASE_WRITE (R439). -/
def execAstbaseWrite (s : State) : Out :=
  match s.arg with
  | .value _ _ v => s.hostReg 0 "ASTBASE_WRITE" fun s =>
      if s.launches.isEmpty && decide (bits v 19 0 = 0) && decide (bits v 63 52 = 0) && decide (bits v 51 44 ≤ 6) then { s with astbase := v } else s
  | _ => notNow "ASTBASE_WRITE"

/-- HWBASE_WRITE (R439). -/
def execHwbaseWrite (s : State) : Out :=
  match s.arg with
  | .value _ _ v => s.hostReg 0 "HWBASE_WRITE" fun s =>
      if s.launches.isEmpty && decide (bits v 11 0 = 0) then { s with hwbase := v } else s
  | _ => notNow "HWBASE_WRITE"

/-- HWLEN_WRITE (R439). -/
def execHwlenWrite (s : State) : Out :=
  match s.arg with
  | .value _ _ v => s.hostReg 0 "HWLEN_WRITE" fun s =>
      if s.launches.isEmpty && decide (bits v 11 0 = 0) && decide (v.toNat ≤ 2 ^ 44) then { s with hwlen := v } else s
  | _ => notNow "HWLEN_WRITE"

/-- Registers whose writes are events of their own: offset of BAR0. -/
def ownWrite (off : Nat) : Bool :=
  (decide (0x8 ≤ off) && decide (off < 0x20)) || (decide (0x1000 ≤ off) && decide (off < 0x1004)) ||
  (decide (0x10000 ≤ off) && decide (off < 0x20000) && (decide (off % 0x400 / 4 = 0x40) || decide (off % 0x400 / 4 = 0x42)))

/-- Bytes of a value laid from an offset. -/
def laidIn (m : SMap Byte) (off : Nat) (b : List Byte) : SMap Byte :=
  b.zipIdx.foldl (fun (m : SMap Byte) (k : Byte × Nat) => m.set 0 (off + k.2) k.1) m

/-- Write the bytes of a list from an offset. -/
def putAt (l : List Byte) (n off : Nat) (b : List Byte) : List Byte :=
  (List.range n).map fun i => if off ≤ i ∧ i < off + b.length then b.getD (i - off) 0 else l.getD i 0

/-- A host write of `b` at an offset of BAR0 to a register without behaviour of its own; every other location discards it. -/
def State.barWrite (s : State) (off : Nat) (b : List Byte) : State :=
  let box := s.mailbox
  let laid := fun (base at' v : Nat) => leNat (putAt (leBytes 4 v) 4 (at' - base) b)
  if 0x10000 ≤ off ∧ off < 0x20000 then
    let q := (off - 0x10000) / 0x400
    let r := off % 0x400
    if r + b.length ≤ 0x100 then s.modQueue q fun k => { k with qrec := putAt k.qrec 256 r b }
    else if 0x110 ≤ r ∧ r + b.length ≤ 0x114 then
      s.modQueue q fun k => { k with qmsi := BitVec.ofNat 32 (laid 0x110 r k.qmsi.toNat % 2) }
    else s
  else if 0x1100 ≤ off ∧ off + b.length ≤ 0x1200 then { s with mailbox := { box with arg := laidIn box.arg (off - 0x1100) b } }
  else if 0x100C ≤ off ∧ off + b.length ≤ 0x1010 then { s with mailbox := { box with tail := laid 0x100C off box.tail % 128 } }
  else if 0x1014 ≤ off ∧ off + b.length ≤ 0x1018 then
    let v := laid 0x1014 off box.vec
    { s with mailbox := { box with vec := v % 64 + v / 2 ^ 8 % 2 * 2 ^ 8 } }
  else s

/-- REGISTER_WRITE (R439, R457 21_management.md): a host write of 1 to 8 bytes, naturally aligned, at an offset of BAR0. -/
def execRegisterWrite (s : State) : Out :=
  match s.arg with
  | .value off n v =>
    if (n = 1 ∨ n = 2 ∨ n = 4 ∨ n = 8) ∧ off % n = 0 ∧ off < 2 ^ 20 ∧ ownWrite off = false ∧ s.hostReach = true then
      .next (if s.up then s.tick.barWrite off (leBytes n v.toNat) else s.tick)
    else notNow "REGISTER_WRITE"
  | _ => notNow "REGISTER_WRITE"

/-! ### What a host read of BAR0 returns (R439, R457) -/

/-- QINFO of a queue. -/
def State.qinfo (s : State) (q : Nat) : Nat :=
  (s.queue q).launches.length + 2 ^ 9 * match s.active? q with
    | none => 0
    | some l => if l.phase = .trapped then 3 else if l.preempt then 2 else 1

/-- MSTAT. -/
def State.mstat (s : State) : Nat :=
  bit s.mailbox.running.isSome 0 + bit s.mailbox.ready 1 + s.mailbox.result % 256 * 2 ^ 8 + s.mailbox.done % 65536 * 2 ^ 16

/-- An entry of EVRING. -/
def RingEvent.bytes (e : RingEvent) : List Byte :=
  leBytes 4 (e.type % 256 + e.die % 256 * 2 ^ 8) ++ leBytes 8 e.addr ++ leBytes 4 e.time

/-- A byte of BAR0; reserved and write-only locations read as zero. -/
def State.barByte (s : State) (off : Nat) : Byte :=
  let of := fun (base v : Nat) => BitVec.ofNat 8 (v / 2 ^ (8 * (off - base)))
  if !s.up then (if 0x1200 ≤ off ∧ off < 0x1600 then s.mailbox.resp.get 0 (off - 0x1200)
    else if 0x1004 ≤ off ∧ off < 0x1008 then of 0x1004 s.mstat else 0)
  else if off < 4 then of 0 0x1F900
  else if 0x8 ≤ off ∧ off < 0x10 then of 0x8 s.astbase.toNat
  else if 0x10 ≤ off ∧ off < 0x18 then of 0x10 s.hwbase.toNat
  else if 0x18 ≤ off ∧ off < 0x20 then of 0x18 s.hwlen.toNat
  else if 0x20 ≤ off ∧ off < 0x28 then of 0x20 s.time
  else if 0x1004 ≤ off ∧ off < 0x1008 then of 0x1004 s.mstat
  else if 0x1008 ≤ off ∧ off < 0x100C then of 0x1008 s.mailbox.head
  else if 0x100C ≤ off ∧ off < 0x1010 then of 0x100C s.mailbox.tail
  else if 0x1010 ≤ off ∧ off < 0x1014 then of 0x1010 s.mailbox.drop
  else if 0x1014 ≤ off ∧ off < 0x1018 then of 0x1014 s.mailbox.vec
  else if 0x1200 ≤ off ∧ off < 0x1600 then s.mailbox.resp.get 0 (off - 0x1200)
  else if 0x1800 ≤ off ∧ off < 0x2000 then
    (match s.mailbox.ring.find? fun k => k.1 == (off - 0x1800) / 16 with
      | some e => e.2.bytes.getD (off % 16) 0
      | none => 0)
  else if 0x10000 ≤ off ∧ off < 0x20000 then
    let q := (off - 0x10000) / 0x400
    let r := off % 0x400
    let of := fun (base v : Nat) => BitVec.ofNat 8 (v / 2 ^ (8 * (r - base)))
    if 0x104 ≤ r ∧ r < 0x108 then of 0x104 (s.queue q).qstat.toNat
    else if 0x10C ≤ r ∧ r < 0x110 then of 0x10C (s.qinfo q)
    else if 0x110 ≤ r ∧ r < 0x114 then of 0x110 (s.queue q).qmsi.toNat
    else 0
  else 0

/-- A register of `n` bytes as the host reads it. -/
def State.barRead (s : State) (off n : Nat) : Nat := leNat ((List.range n).map fun i => s.barByte (off + i))

end Machine
end Sys2Proof
end

