-- ==== Sys2Proof/Machine/Management.lean ====
section
/-! DEFINITION. Management controller (R451 to R461 21_management.md): images, bring-up, the governor, the mailbox and its commands, and
taking a die offline (R293 12_translation.md). -/

namespace Sys2Proof
namespace Machine

/-! ### Images (R451 to R453) -/

/-- The vendor's root key, an LMS public key of the one parameter set (R452). -/
def romKey : List Byte := beBytes 4 lmsType ++ beBytes 4 otsType ++ (List.range 48).map Config.romByte

/-- The configuration block of an image: from CFGOFS to the signature (R451). -/
def configBlock (raw : List Byte) : List Byte := (raw.take (raw.length - sigLen)).drop (leAt raw 0xC 4)

/-- The form and the signature of an image (R451, R452). -/
def imageSigned (raw : List Byte) : Bool :=
  let len := raw.length
  leAt raw 0 4 == 0x46394D43 && leAt raw 8 4 == len && len % 64 == 0 && decide (0x40 + sigLen ≤ len) &&
  ((raw.drop 0x10).take 48).all (· == 0) && decide (0x40 ≤ leAt raw 0xC 4) && decide (leAt raw 0xC 4 ≤ len - sigLen) &&
  hssValid romKey (raw.take (len - sigLen)) (raw.drop (len - sigLen))

/-- What a configuration block says; none where a value lies outside its range (R453, R437 20_links.md). -/
def imageOf (raw : List Byte) : Option Image :=
  let v := Config.imageItem (configBlock raw)
  let prefs := (List.range 4).map fun d => (List.range 11).map fun i => v (16 + 16 * d + i)
  let off := (List.range 256).filter fun k => decide (v (256 + k) ≠ 0)
  let chanMap : SMap Nat := (List.range 256).map fun k => (k, v (512 + k))
  let windows := (List.range (v 5)).map fun i =>
    (⟨v (1024 + 8 * i), v (1025 + 8 * i), v (1026 + 8 * i), v (1027 + 8 * i) % 2 == 1, v (1028 + 8 * i) % 2 == 1⟩ : Window)
  if imageSigned raw = true ∧
      v 0 ≤ 4094 ∧ v 1 ≤ 128 ∧ v 2 ≤ 111999 ∧ 400 ≤ v 3 ∧ v 3 ≤ 2800 ∧ 875 ≤ v 4 ∧ v 4 ≤ 1750 ∧ v 4 % 25 = 0 ∧ v 5 ≤ 16 ∧
      (prefs.all fun p => (List.range 11).all p.contains) = true ∧ (chanMap.all fun k => decide (k.2 < 64)) = true ∧
      (off.all fun k => !off.contains (64 * (k / 64) + chanMap.get 0 k)) = true ∧
      (windows.all fun w => decide (w.chip ≤ 4094) && w.base % 65536 == 0 && w.len % 65536 == 0) = true then
    some { bytes := raw, version := leAt raw 4 4, chip := v 0, ig := v 1, prefs := prefs, off := off, chanMap := chanMap, phase := v 2,
           power := v 3, clock := v 4, windows := windows }
  else none

/-- SHA-256 of the signed bytes of an image, where the model has them, and of its configuration block. -/
def Image.digest (i : Image) : List Byte :=
  if i.bytes.isEmpty then leBytes 32 (Config.imageItem [] 6) else sha256 (i.bytes.take (i.bytes.length - sigLen))
def Image.configDigest (i : Image) : List Byte :=
  if i.bytes.isEmpty then leBytes 32 (Config.imageItem [] 7) else sha256 (configBlock i.bytes)

/-! ### Bring-up (R454, R13 01_machine.md) -/

/-- Passing cores of a physical cluster. -/
def passing (t : SelfTest) (d p : Nat) : List Nat := (List.range 4).filter fun c => t.cores.contains (44 * d + 4 * p + c)

/-- Step 3: the physical clusters of a die that are enabled, ascending. -/
def enabledClusters (t : SelfTest) (prefs : List Nat) (d : Nat) : List Nat :=
  let n := fun p => (passing t d p).length
  let full := (prefs.filter fun p => n p == 4).take 10
  let rest := prefs.filter fun p => n p != 4 && n p != 0
  let rest := [3, 2, 1].flatMap fun k => rest.filter fun p => n p == k
  sortBy (fun (a b : Nat) => decide (a ≤ b)) (full ++ rest.take (10 - full.length))

/-- Device cores of a die in service. -/
def enabledCores (t : SelfTest) (prefs : List Nat) (d : Nat) : List Nat :=
  (enabledClusters t prefs d).zipIdx.flatMap fun (p : Nat × Nat) => (passing t d p.1).map fun c => 40 * d + 4 * p.2 + c

/-- A link after training. -/
def trained (width chip : Nat) : Port := { Port.down with width := min width 3, chip := if width = 0 then 0xFFF else chip }

/-- Steps 1 to `n` of R454: everything that the rules set at bring-up; what a later step would set is as nothing has set it. A base die
that has been lost stays lost, a channel that was lost in service is mapped out, and its data are gone (R41). -/
def State.bringUp (s : State) (t : SelfTest) (n : Nat := 8) : State :=
  let i := s.flash
  let dies := (List.range 4).filter fun d => s.dieCode d != 3
  let did := fun (k : Nat) => decide (k ≤ n)
  let gone := fun (line : Nat) => did 4 && (s.markOf line).poison == 4
  { s with
    image := if did 1 then i else s.image
    bringup := if did 8 then .done else .failed (n + 1)
    cores := if did 3 then dies.flatMap fun d => enabledCores t (i.prefs.getD d []) d else []
    dieState := s.dieState.filter fun k => k.2 == 3
    mem := s.mem.filter fun c => !gone (c.1 / 64)
    lineMarks := s.lineMarks.filter fun k => !gone k.1
    mapped := if did 4 then
        sortBy (fun (a b : Nat) => decide (a ≤ b)) ((List.range 384).filter fun k => i.off.contains k || t.channels.contains k || s.lost.contains k)
      else s.mapped
    lost := if did 4 then [] else s.lost
    chanMap := if did 4 then i.chanMap else s.chanMap
    ig := if did 4 then i.ig else s.ig
    chip := if did 5 then i.chip else s.chip
    ports := if did 5 then (List.range 16).map fun k => trained (t.ports.getD k 0) (t.chips.getD k 0xFFF) else List.replicate 16 Port.down
    hosts := if did 5 then (List.range 2).map fun k => trained (t.host.getD k 0) 0xFFF else List.replicate 2 Port.down
    windows := if did 7 then (List.range 16).map fun k => i.windows.getD k Window.none else List.replicate 16 Window.none
    inbound := []
    time := if did 6 then 0 else s.time
    tarnPhase := if did 6 then i.phase else s.tarnPhase
    refresh := none
    clock := i.clock
    sampled := 0
    leaf := if did 6 then s.leaf + 1 else s.leaf
    quotes := 0
    qi := 0
    quarantine := []
    forward := []
    gvt := 0
    queues := s.queues.map fun (k : Nat × Queue) => (k.1, { k.2 with pass := 0, contending := false })
    tlb := []
    l1 := []
    epochs := []
    guests := []
    dirs := []
    visible := []
    probes := []
    hostHorizon := 0
    mailbox := { s.mailbox with ready := did 8 } }

/-- POWER_ON_BRINGUP (R454), with what self-test and training find. A step that fails stops it. -/
def execPowerOnBringup (s : State) : Out :=
  match s.arg, s.bringup with
  | .test t, .waiting => match t.failed with
    | some k => if 1 ≤ k ∧ k ≤ 8 then .next (s.tick.bringUp t (k - 1)) else notNow "POWER_ON_BRINGUP"
    | none => .next (s.tick.bringUp t)
  | _, _ => notNow "POWER_ON_BRINGUP"

/-! ### The governor (R455) -/

/-- 10 µs in clocks. -/
def governorPeriod : Nat := 17500

/-- GOVERNOR_SAMPLE (R455): the power in watts that State.arg gives. The die that the event names is open (R461; log 34). -/
def execGovernorSample (s : State) : Out :=
  match s.arg with
  | .num watts =>
    if s.up && decide (s.sampled + governorPeriod ≤ s.time) then
      let t : State := { s.tick with sampled := s.time }
      if s.image.power < watts then
        .next (({ t with clock := s.clock - 25 } : State).event 7 (Config.freeByte s.stamp 0).toNat (s.clock - 25))
      else .next t
    else notNow "GOVERNOR_SAMPLE"
  | _ => notNow "GOVERNOR_SAMPLE"

/-! ### The doorbell (R458) -/

/-- A doorbell write: discarded while a command runs, while bring-up is not complete, and after a failed bring-up unless it asks for
REPORT. -/
def State.doorbell (s : State) (code : Nat) (start : State → State) : Out :=
  let answers := match s.bringup with
    | .done => true
    | .failed _ => code == 1
    | .waiting => false
  if !s.hostReach then notNow "DOORBELL"
  else if answers && s.mailbox.running.isNone then
    .next (start { s.tick with mailbox := { s.mailbox with
      running := some code
      taken := (List.range 256).map fun i => s.mailbox.arg.get 0 i } })
  else .next s.tick

/-- Every byte of the arguments outside the listed fields is zero (R459). -/
def argsOk (b : List Byte) (fields : List (Nat × Nat)) : Bool :=
  b.zipIdx.all fun (p : Byte × Nat) => p.1 == 0 || fields.any fun f => decide (f.1 ≤ p.2) && decide (p.2 < f.1 + f.2)

/-- Does a run of host physical addresses lie within the host window? -/
def State.inHost (s : State) (a n : Nat) : Bool := decide (s.hwbase.toNat ≤ a) && decide (a + n ≤ s.hwbase.toNat + s.hwlen.toNat)
/-- The device's physical address of a byte of host memory. -/
def State.hostPa (s : State) (a : Nat) : Nat := 8 * 2 ^ 44 + (a - s.hwbase.toNat)

/-- REPORT (R458). -/
def execReport (s : State) : Out := s.doorbell 1 id
/-- QUOTE (R460). -/
def execQuote (s : State) : Out := s.doorbell 2 id
/-- WINDOW (R437 20_links.md). -/
def execWindow (s : State) : Out := s.doorbell 4 id
/-- STAGE (R458). -/
def execStage (s : State) : Out := s.doorbell 5 id
/-- RESET (R458). -/
def execReset (s : State) : Out := s.doorbell 6 id

/-- DOORBELL_UNKNOWN_COMMAND (R458): the code that State.arg gives, in its low byte. -/
def execDoorbellUnknownCommand (s : State) : Out :=
  match s.arg with
  | .num v => if 1 ≤ v % 256 ∧ v % 256 ≤ 6 then notNow "DOORBELL_UNKNOWN_COMMAND" else s.doorbell (v % 256) id
  | _ => notNow "DOORBELL_UNKNOWN_COMMAND"

/-! ### Taking a die offline (R293) -/

/-- The arguments of OFFLINE, where they are in range. -/
def offlineArgs (b : List Byte) : Option Evacuation :=
  let d := leAt b 0 8
  let base := leAt b 8 8
  if argsOk b [(0, 24)] = true ∧ d < 4 ∧ (base / 2 ^ 44 = 5 ∨ base / 2 ^ 44 = 6) ∧ base % 65536 = 0 then
    some { die := d, base := base, len := leAt b 16 8 * 65536, moved := none }
  else none

/-- The die that takes a launch's blocks in place of die d: the next one in service where they fit. -/
def State.substitute (s : State) (l : Launch) (d : Nat) : Option Nat :=
  ([1, 2, 3].map fun i => (d + i) % 4).find? fun e =>
    let cores := s.cores.filter fun c => l.inWindow c && dieOf c == e
    s.dieCode e == 0 && !s.closing e && !cores.isEmpty && s.canHold l cores

/-- A launch leaves a die: its die-units there go to another; one that no longer fits is treated as at the loss of a core. -/
def State.leaveDie (s : State) (l : Launch) (d : Nat) : Launch :=
  if l.dies.contains d then
    match s.substitute l d with
    | some e => { l with dies := l.dies.map fun k => if k = d then e else k, clusters := l.clusters.filter fun k => k.2 / 10 ≠ d }
    | none => if l.usedDies.contains d then l.lose else l
  else l

/-- Step 1 of R293: no block is placed on the die, and every block there is pre-empted. -/
def State.clearDie (s : State) (e : Evacuation) : State :=
  let s : State := { s with offline := some e }
  let on := fun (l : Launch) => (s.blocks.any fun b => b.launch == l.id && b.resident && b.cores.any fun c => dieOf c == e.die) ||
    (s.groups.any fun g => g.launch == l.id && g.resident && dieOf g.core == e.die) ||
    (s.bins.any fun b => dieOf b.core == e.die && b.slots.any fun x => x.launch == l.id) ||
    s.slots.any fun x => dieOf x.core == e.die && x.launch == l.id
  let s := s.launches.foldl (fun (s : State) (l : Launch) =>
    if decide (l.phase = .active) && on l then
      (if s.onlyWhole l then s.takeWhole l.id
       else { s with blocks := s.blocks.map fun b => if b.launch == l.id && b.cores.any (fun c => dieOf c == e.die) then b.choose else b })
    else s) s
  ({ s with
      offline := some { e with was := s.launches.map fun l => (l.id, l.dies) }
      launches := s.launches.map fun l => s.leaveDie l e.die } : State).updateContention

/-- Outcome 2 of R293: blocks are placed on the die again. -/
def State.returnDie (s : State) (e : Evacuation) : State :=
  { s with launches := s.launches.map fun l => match e.was.find? fun k => k.1 == l.id with
      | some k => if k.2 = l.dies then l else { l with dies := k.2, clusters := [] }
      | none => l }

/-- OFFLINE (R293, R458). -/
def execOffline (s : State) : Out :=
  s.doorbell 3 fun s => match offlineArgs s.mailbox.taken with
    | some e => s.clearDie e
    | none => s

/-- Nothing of a program is on the die any more. -/
def State.dieEmpty (s : State) (d : Nat) : Bool :=
  (s.blocks.all fun b => !b.resident || b.cores.all fun c => dieOf c ≠ d) && (s.groups.all fun g => !g.resident || dieOf g.core ≠ d) &&
  (s.bins.all fun b => dieOf b.core ≠ d) && (s.slots.all fun x => dieOf x.core ≠ d) && (s.ops.all fun o => dieOf o.core ≠ d) &&
  s.l1.all fun x => dieOf x.core ≠ d || x.dirty.isEmpty

/-- Does some byte of a run lie at home on the die? A home holds for 4 KiB at least; tables are shorter or aligned. -/
def State.touches (s : State) (d pa n : Nat) : Bool :=
  (List.range (n / 4096 + 1)).any fun i => decide (4096 * i < n) && s.homeDie (pa + 4096 * i) == d

/-- The tables and the leaves under a table, with the virtual address and the ASID's tables by address and size. -/
def State.under (s : State) : (level table va : Nat) → List (Nat × Nat) × List (Nat × Leaf)
  | level, table, va =>
    let es := (List.range (2 ^ levelBits level)).map fun i => (i, s.entryAt (table + 16 * i))
    let es := es.filter fun (e : Nat × (Dword × Dword)) => bitAt e.2.1 0 && !s.entryBad level e.2.1 e.2.2
    let rs : List (List (Nat × Nat) × List (Nat × Leaf)) := es.map fun (e : Nat × (Dword × Dword)) =>
      let w0 := e.2.1
      let w1 := e.2.2
      let addr := bits w0 51 9 * 2 ^ 9
      let va' := va + e.1 * 2 ^ levelShift level
      if bitAt w0 1 then
        ([], [(va', { pa := addr, level := level, pl := bits w1 1 0, psn := bitAt w0 8, msa := bitAt w0 7, mr := bitAt w0 6,
                      prv := bitAt w0 5, ex := bitAt w0 4, wr := bitAt w0 3, rd := bitAt w0 2, mg := bitAt w1 4, chip := bits w1 27 16,
                      frame := addr, slot := table + 16 * e.1 })])
      else match level with
        | 0 => ([], [])
        | k + 1 => s.under k addr va'
    ((table, 2 ^ (levelBits level + 4)) :: rs.flatMap fun r => r.1, rs.flatMap fun r => r.2)

/-- Every valid ASID with what its tables hold, ascending. -/
def State.spaces (s : State) : List (Nat × List (Nat × Nat) × List (Nat × Leaf)) :=
  ((List.range 65536).filter s.asidOk).map fun a => (a, s.under 4 (bits (s.asidEntry a).1 51 15 * 2 ^ 15) 0)

/-- Step 2: a table or the address-space table has a line homed on the die. -/
def State.tablesOn (s : State) (d : Nat) : Bool :=
  s.touches d s.astbase.toNat (2 ^ 20) || s.spaces.any fun a => a.2.1.any fun t => s.touches d t.1 t.2

/-- Do the frames of leaf `a` lie within those of leaf `b`? -/
def Leaf.within (a b : Leaf) : Bool := decide (b.frame ≤ a.frame) && decide (a.frame + a.span ≤ b.frame + b.span)

/-- Step 3: where each leaf with a byte on the die goes, in order, with its ASID and virtual address, and whether its frames are to be moved;
none where they do not fit. Frames that several leaves map are laid out once, as the largest leaf that maps them asks (log 64). -/
def State.layout (s : State) (e : Evacuation) : Option (List (Nat × Nat × Leaf × Nat)) :=
  let leaves := s.spaces.flatMap fun a => (a.2.2.filter fun p => p.2.pl ≠ 3 && s.touches e.die p.2.frame p.2.span).map fun p => (a.1, p.1, p.2)
  let root := fun (k : Leaf) => leaves.foldl (fun (r : Leaf) p => if k.within p.2.2 && decide (r.span < p.2.2.span) then p.2.2 else r) k
  (leaves.foldl (fun (acc : Option (Nat × List (Leaf × Nat) × List (Nat × Nat × Leaf × Nat))) (p : Nat × Nat × Leaf) =>
    match acc with
    | none => none
    | some (pos, laid, out) =>
      let r := root p.2.2
      match laid.find? fun k => k.1.frame == r.frame && k.1.span == r.span with
      | some k => some (pos, laid, out ++ [(p.1, p.2.1, p.2.2, k.2 + (p.2.2.frame - r.frame))])
      | none =>
        let size := 2 ^ levelShift r.level
        let at' := (pos + size - 1) / size * size
        if at' + r.span ≤ e.base + e.len ∧ s.frameOk 2 at' r.span = true then
          some (at' + r.span, laid ++ [(r, at')], out ++ [(p.1, p.2.1, p.2.2, at' + (p.2.2.frame - r.frame))])
        else none) (some (e.base, [], []))).map fun r => r.2.2

/-- Move every page of a layout as MIGR.move would (R290), without the quarantine queue; lines that stand at their destination stay. -/
def State.evacuate (s : State) (l : List (Nat × Nat × Leaf × Nat)) : State :=
  (l.foldl (fun (acc : List Nat × State) (p : Nat × Nat × Leaf × Nat) =>
    let leaf := p.2.2.1
    let moved := (List.range (leaf.span / 64)).all fun i => acc.2.fwd (leaf.frame / 64 + i) == p.2.2.2 / 64 + i
    let s := if moved then acc.2 else acc.2.movePage leaf.frame p.2.2.2 leaf.span
    let (w0, w1) := s.entryAt leaf.slot
    let w0' := BitVec.ofNat 64 (bits w0 63 52 * 2 ^ 52 + bits (BitVec.ofNat 64 p.2.2.2) 51 9 * 2 ^ 9 + bits w0 8 0)
    let w1' := BitVec.ofNat 64 (bits w1 63 5 * 2 ^ 5 + bits w1 3 2 * 2 ^ 2 + 2)
    let s := s.writeLeaf leaf.slot (engineDie leaf.frame p.2.2.2) w0' w1'
    (leaf.frame :: acc.1, { s with tlb := s.tlb.filter fun t => !t.matched 2 p.1 p.2.1 })) ([], s)).2

/-- A bound domain on the die moves to the same place of another (R324 14_spawn.md). -/
def State.rebound (s : State) (d e : Nat) (b : Nat × Nat) : Nat × Nat :=
  let own := s.cores.filter fun c => dieOf c == e
  match b.1 with
  | 0 => if dieOf b.2 = d then (0, if s.cores.contains (40 * e + b.2 % 40) then 40 * e + b.2 % 40 else own.headD (40 * e)) else b
  | 1 =>
    if b.2 / 10 = d then (1, if own.any fun c => clusterOf c == 10 * e + b.2 % 10 then 10 * e + b.2 % 10 else clusterOf (own.headD (40 * e))) else b
  | 2 => if b.2 = d then (2, e) else b
  | _ => b

/-- Groups that were bound to the die are bound to the die that takes its launch's blocks. -/
def State.reboundAll (s : State) (d : Nat) : State :=
  { s with groups := s.groups.map fun g => match (s.launch? g.launch).bind fun l => s.substitute l d with
    | some e => { g with bound := s.rebound d e g.bound }
    | none => g }

/-- The compute die leaves service. -/
def State.fence (s : State) (d : Nat) : State :=
  { s with
    dieState := s.dieState.set 0 d 1
    cores := s.cores.filter fun c => dieOf c ≠ d
    l1 := s.l1.filter fun x => dieOf x.core ≠ d
    tlb := s.tlb.filter fun t => dieOf t.core ≠ d }

/-! ### The end of a command (R458) -/

/-- RESP, result, BUSY: a command has ended. -/
def State.endCommand (s : State) (result : Nat) (resp : List Byte) : State :=
  { s with mailbox := { s.mailbox with
      resp := laidIn s.mailbox.resp 0 resp
      result := result
      running := none
      taken := []
      done := (s.mailbox.done + 1) % 65536 } }

/-- What REPORT returns. -/
def State.reportBytes (s : State) : List Byte :=
  (parts 6 fun d => leBytes 8 (s.queryUnits d)) ++ leBytes 8 s.linkSelf ++ leBytes 4 s.image.version ++
  leBytes 1 (match s.bringup with
    | .failed k => k
    | _ => 0)

/-- Bytes of a quote. -/
def quoteLen : Nat := 7844

/-- The quote (R460). The session key took the leaf of the identity key before the one that is next now. -/
def State.quoteBytes (s : State) (nonce : List Byte) : List Byte :=
  let head := nonce ++ leBytes 4 s.image.version ++ leBytes 2 s.chip ++ zeros 2 ++ leBytes 8 s.time ++ s.image.digest ++ s.image.configDigest
  let leaf := s.leaf - 1
  let session := keyPublic (sessionKey leaf)
  head ++ sha256 head ++ session ++ identitySign leaf session ++ keySign (sessionKey leaf) s.quotes (sha256 head) ++ identityPublic

/-- Result 2, with no effect. -/
def State.badArgument (s : State) : State := s.endCommand 2 []

/-- QUOTE: none while the host cannot be reached. -/
def State.endQuote (s : State) : Option State :=
  let b := s.mailbox.taken
  let a := leAt b 0x20 8
  if argsOk b [(0, 40)] = false ∨ a % 64 ≠ 0 ∨ s.inHost a 8192 = false then some s.badArgument
  else if 1024 ≤ s.quotes then some (s.endCommand 5 [])
  else if s.pathTo (s.hostPa a / 64) = false then none
  else
    let q := s.quoteBytes (b.take 32)
    let s := s.writeHome 4 [] (q.zipIdx.map fun (p : Byte × Nat) => (s.hostPa a + p.2, p.1))
    some ({ s with quotes := s.quotes + 1 }.endCommand 0 (leBytes 4 quoteLen))

/-- WINDOW. -/
def State.endWindow (s : State) : State :=
  let b := s.mailbox.taken
  let e := leAt b 0 4
  let w : Window := ⟨leAt b 4 4, leAt b 8 8, leAt b 0x10 8, (leAt b 0x18 4).testBit 0, (leAt b 0x18 4).testBit 1⟩
  if argsOk b [(0, 0x1C)] = false ∨ 15 < e ∨ 4094 < w.chip ∨ w.base % 65536 ≠ 0 ∨ w.len % 65536 ≠ 0 ∨ 3 < leAt b 0x18 4 then s.badArgument
  else ({ s with windows := s.windows.set e (if w.len = 0 then Window.none else w) } : State).endCommand 0 []

/-- STAGE: none while the host cannot be reached. -/
def State.endStage (s : State) : Option State :=
  let b := s.mailbox.taken
  let a := leAt b 0 8
  let n := leAt b 8 4
  if argsOk b [(0, 12)] = false ∨ a % 64 ≠ 0 ∨ s.inHost a n = false ∨ n % 64 ≠ 0 ∨ 64 * 2 ^ 20 < n then some s.badArgument
  else if s.pathTo (s.hostPa a / 64) = false then none
  else
    let raw := s.bytesAt (s.hostPa a) n
    let addrs := (List.range n).map fun i => s.hostPa a + i
    -- bytes on a poisoned or failing line are not used (R37, R39; log 58)
    if (s.markOfBytes addrs).isSome then some ((s.consume addrs).endCommand 3 [])
    else if leAt raw 8 4 ≠ n then some s.badArgument
    else match imageOf raw with
      | some i => some ({ s with flash := i }.endCommand 0 [])
      | none => some (s.endCommand 3 [])

/-- RESET: refused while a launch is active; else the module waits for bring-up (log 35). -/
def State.endReset (s : State) : State :=
  if argsOk s.mailbox.taken [] = false then s.badArgument
  else if !s.launches.isEmpty then s.endCommand 4 []
  else
    let s := s.endCommand 0 []
    { s with bringup := .waiting, mailbox := { s.mailbox with ready := false } }

/-- OFFLINE: its next step, once it can be taken (R293). -/
def State.endOffline (s : State) : Option State :=
  match s.offline with
  | none => some s.badArgument
  | some e =>
    let finish := fun (s : State) (outcome : Nat) => some (({ s with offline := none } : State).endCommand 0 (leBytes 4 outcome))
    match e.moved with
    | some n =>
      if n ≤ s.qc then
        finish ((({ s with forward := s.forward.filter fun k => s.homeDie (64 * k.1) ≠ e.die } : State).fence e.die).dropBase e.die 2) 0
      else none
    | none =>
      if s.dieEmpty e.die && s.ops.all fun o => match o.kind with
        | .migr _ _ _ _ _ _ => false
        | _ => true then
        if 2 ≤ s.dieCode e.die ∨ s.tablesOn e.die = true then finish (s.returnDie e) 2
        else
        let s := s.reboundAll e.die
        match s.layout e with
          | none => finish (s.fence e.die) 1
          | some l =>
            let s := s.evacuate l
            let n := (s.qi + 1) % 2 ^ 64
            some { s with qi := n, offline := some { e with moved := some n } }
      else none

/-- MAILBOX_COMMAND_END (R458): the running command does what it does, and ends; OFFLINE takes several steps. -/
def execMailboxCommandEnd (s : State) : Out :=
  let t := s.tick
  let go := fun (r : Option State) => match r with
    | some t => Host.Outcome.next t
    | none => notNow "MAILBOX_COMMAND_END"
  match s.mailbox.running with
  | none => notNow "MAILBOX_COMMAND_END"
  | some 1 => .next (if argsOk s.mailbox.taken [] then t.endCommand 0 t.reportBytes else t.badArgument)
  | some 2 => go t.endQuote
  | some 3 => go t.endOffline
  | some 4 => .next t.endWindow
  | some 5 => go t.endStage
  | some 6 => .next t.endReset
  | some _ => .next (t.endCommand 6 [])

end Machine
end Sys2Proof
end

