-- ==== Sys2Proof/Machine/Dispatch.lean ====
section
/-! DEFINITION. One arm per instruction: a direct call of its meaning. -/

namespace Sys2Proof
namespace Machine

/-- The meaning of an instruction. -/
def exec (i : Instr) (s : State) : Host.Outcome State Fault Refusal :=
  match i with
  | .runendFall t => Sys2Proof.Machine.execRunendFall t s
  | .runendBra t => Sys2Proof.Machine.execRunendBra t s
  | .runendBrc t => Sys2Proof.Machine.execRunendBrc t s
  | .runendJmp t => Sys2Proof.Machine.execRunendJmp t s
  | .runendCall t => Sys2Proof.Machine.execRunendCall t s
  | .runendRet t => Sys2Proof.Machine.execRunendRet t s
  | .runendExit t => Sys2Proof.Machine.execRunendExit t s
  | .runendYield t => Sys2Proof.Machine.execRunendYield t s
  | .nop x => Sys2Proof.Machine.execNop x s
  | .nopBase b => Sys2Proof.Machine.execNopBase b s
  | .exmrd x => Sys2Proof.Machine.execExmrd x s
  | .exmwr x => Sys2Proof.Machine.execExmwr x s
  | .mmkrd x => Sys2Proof.Machine.execMmkrd x s
  | .mmkwr x => Sys2Proof.Machine.execMmkwr x s
  | .lprrd x => Sys2Proof.Machine.execLprrd x s
  | .lprwr x => Sys2Proof.Machine.execLprwr x s
  | .pmov x => Sys2Proof.Machine.execPmov x s
  | .pand x => Sys2Proof.Machine.execPand x s
  | .por x => Sys2Proof.Machine.execPor x s
  | .pxor x => Sys2Proof.Machine.execPxor x s
  | .pnot x => Sys2Proof.Machine.execPnot x s
  | .pandn x => Sys2Proof.Machine.execPandn x s
  | .pcnt x => Sys2Proof.Machine.execPcnt x s
  | .pfirst x => Sys2Proof.Machine.execPfirst x s
  | .waitc x => Sys2Proof.Machine.execWaitc x s
  | .bar x => Sys2Proof.Machine.execBar x s
  | .trap x => Sys2Proof.Machine.execTrap x s
  | .srrd x => Sys2Proof.Machine.execSrrd x s
  | .srwr x => Sys2Proof.Machine.execSrwr x s
  | .flgrd x => Sys2Proof.Machine.execFlgrd x s
  | .flgclr x => Sys2Proof.Machine.execFlgclr x s
  | .fpmode x => Sys2Proof.Machine.execFpmode x s
  | .sleep x => Sys2Proof.Machine.execSleep x s
  | .clkrd x => Sys2Proof.Machine.execClkrd x s
  | .idrd x => Sys2Proof.Machine.execIdrd x s
  | .vote x => Sys2Proof.Machine.execVote x s
  | .ballot x => Sys2Proof.Machine.execBallot x s
  | .treduce x => Sys2Proof.Machine.execTreduce x s
  | .tscan x => Sys2Proof.Machine.execTscan x s
  | .iadd x => Sys2Proof.Machine.execIadd x s
  | .iaddBase b => Sys2Proof.Machine.execIaddBase b s
  | .isub x => Sys2Proof.Machine.execIsub x s
  | .isubBase b => Sys2Proof.Machine.execIsubBase b s
  | .iaddc x => Sys2Proof.Machine.execIaddc x s
  | .isubb x => Sys2Proof.Machine.execIsubb x s
  | .iadd3 x => Sys2Proof.Machine.execIadd3 x s
  | .imul x => Sys2Proof.Machine.execImul x s
  | .imulBase b => Sys2Proof.Machine.execImulBase b s
  | .imulh x => Sys2Proof.Machine.execImulh x s
  | .imad x => Sys2Proof.Machine.execImad x s
  | .imadw x => Sys2Proof.Machine.execImadw x s
  | .idiv x => Sys2Proof.Machine.execIdiv x s
  | .irem x => Sys2Proof.Machine.execIrem x s
  | .imin x => Sys2Proof.Machine.execImin x s
  | .iminBase b => Sys2Proof.Machine.execIminBase b s
  | .imax x => Sys2Proof.Machine.execImax x s
  | .imaxBase b => Sys2Proof.Machine.execImaxBase b s
  | .iabs x => Sys2Proof.Machine.execIabs x s
  | .iabsBase b => Sys2Proof.Machine.execIabsBase b s
  | .ineg x => Sys2Proof.Machine.execIneg x s
  | .inegBase b => Sys2Proof.Machine.execInegBase b s
  | .isat x => Sys2Proof.Machine.execIsat x s
  | .and x => Sys2Proof.Machine.execAnd x s
  | .andBase b => Sys2Proof.Machine.execAndBase b s
  | .or x => Sys2Proof.Machine.execOr x s
  | .orBase b => Sys2Proof.Machine.execOrBase b s
  | .xor x => Sys2Proof.Machine.execXor x s
  | .xorBase b => Sys2Proof.Machine.execXorBase b s
  | .andn x => Sys2Proof.Machine.execAndn x s
  | .andnBase b => Sys2Proof.Machine.execAndnBase b s
  | .not x => Sys2Proof.Machine.execNot x s
  | .notBase b => Sys2Proof.Machine.execNotBase b s
  | .shl x => Sys2Proof.Machine.execShl x s
  | .shlBase b => Sys2Proof.Machine.execShlBase b s
  | .shr x => Sys2Proof.Machine.execShr x s
  | .shrBase b => Sys2Proof.Machine.execShrBase b s
  | .sar x => Sys2Proof.Machine.execSar x s
  | .sarBase b => Sys2Proof.Machine.execSarBase b s
  | .rotl x => Sys2Proof.Machine.execRotl x s
  | .rotlBase b => Sys2Proof.Machine.execRotlBase b s
  | .bfx x => Sys2Proof.Machine.execBfx x s
  | .bfi x => Sys2Proof.Machine.execBfi x s
  | .popc x => Sys2Proof.Machine.execPopc x s
  | .popcBase b => Sys2Proof.Machine.execPopcBase b s
  | .clz x => Sys2Proof.Machine.execClz x s
  | .clzBase b => Sys2Proof.Machine.execClzBase b s
  | .ctz x => Sys2Proof.Machine.execCtz x s
  | .ctzBase b => Sys2Proof.Machine.execCtzBase b s
  | .brev x => Sys2Proof.Machine.execBrev x s
  | .brevBase b => Sys2Proof.Machine.execBrevBase b s
  | .isetp x => Sys2Proof.Machine.execIsetp x s
  | .isel x => Sys2Proof.Machine.execIsel x s
  | .mov x => Sys2Proof.Machine.execMov x s
  | .movBase b => Sys2Proof.Machine.execMovBase b s
  | .movi x => Sys2Proof.Machine.execMovi x s
  | .lea x => Sys2Proof.Machine.execLea x s
  | .idot4 x => Sys2Proof.Machine.execIdot4 x s
  | .cvti x => Sys2Proof.Machine.execCvti x s
  | .cvtf x => Sys2Proof.Machine.execCvtf x s
  | .cvtfi x => Sys2Proof.Machine.execCvtfi x s
  | .cvtif x => Sys2Proof.Machine.execCvtif x s
  | .packn x => Sys2Proof.Machine.execPackn x s
  | .unpackn x => Sys2Proof.Machine.execUnpackn x s
  | .qcomp x => Sys2Proof.Machine.execQcomp x s
  | .qexp x => Sys2Proof.Machine.execQexp x s
  | .fadd x => Sys2Proof.Machine.execFadd x s
  | .faddBase b => Sys2Proof.Machine.execFaddBase b s
  | .fsub x => Sys2Proof.Machine.execFsub x s
  | .fsubBase b => Sys2Proof.Machine.execFsubBase b s
  | .fmul x => Sys2Proof.Machine.execFmul x s
  | .fmulBase b => Sys2Proof.Machine.execFmulBase b s
  | .ffma x => Sys2Proof.Machine.execFfma x s
  | .fmin x => Sys2Proof.Machine.execFmin x s
  | .fminBase b => Sys2Proof.Machine.execFminBase b s
  | .fmax x => Sys2Proof.Machine.execFmax x s
  | .fmaxBase b => Sys2Proof.Machine.execFmaxBase b s
  | .fminm x => Sys2Proof.Machine.execFminm x s
  | .fminmBase b => Sys2Proof.Machine.execFminmBase b s
  | .fmaxm x => Sys2Proof.Machine.execFmaxm x s
  | .fmaxmBase b => Sys2Proof.Machine.execFmaxmBase b s
  | .fabs x => Sys2Proof.Machine.execFabs x s
  | .fabsBase b => Sys2Proof.Machine.execFabsBase b s
  | .fneg x => Sys2Proof.Machine.execFneg x s
  | .fnegBase b => Sys2Proof.Machine.execFnegBase b s
  | .fcpsgn x => Sys2Proof.Machine.execFcpsgn x s
  | .fcpsgnBase b => Sys2Proof.Machine.execFcpsgnBase b s
  | .fsetp x => Sys2Proof.Machine.execFsetp x s
  | .fsel x => Sys2Proof.Machine.execFsel x s
  | .fclass x => Sys2Proof.Machine.execFclass x s
  | .fdiv x => Sys2Proof.Machine.execFdiv x s
  | .fsqrt x => Sys2Proof.Machine.execFsqrt x s
  | .fsqrtBase b => Sys2Proof.Machine.execFsqrtBase b s
  | .frcp x => Sys2Proof.Machine.execFrcp x s
  | .frcpBase b => Sys2Proof.Machine.execFrcpBase b s
  | .frsq x => Sys2Proof.Machine.execFrsq x s
  | .frsqBase b => Sys2Proof.Machine.execFrsqBase b s
  | .frint x => Sys2Proof.Machine.execFrint x s
  | .fscale x => Sys2Proof.Machine.execFscale x s
  | .fgexp x => Sys2Proof.Machine.execFgexp x s
  | .fgexpBase b => Sys2Proof.Machine.execFgexpBase b s
  | .fgmant x => Sys2Proof.Machine.execFgmant x s
  | .frem x => Sys2Proof.Machine.execFrem x s
  | .hadd2 x => Sys2Proof.Machine.execHadd2 x s
  | .hadd2Base b => Sys2Proof.Machine.execHadd2Base b s
  | .hmul2 x => Sys2Proof.Machine.execHmul2 x s
  | .hmul2Base b => Sys2Proof.Machine.execHmul2Base b s
  | .hfma2 x => Sys2Proof.Machine.execHfma2 x s
  | .hdot2 x => Sys2Proof.Machine.execHdot2 x s
  | .fexp x => Sys2Proof.Machine.execFexp x s
  | .fexpBase b => Sys2Proof.Machine.execFexpBase b s
  | .fexp2 x => Sys2Proof.Machine.execFexp2 x s
  | .fexp2Base b => Sys2Proof.Machine.execFexp2Base b s
  | .fexpm1 x => Sys2Proof.Machine.execFexpm1 x s
  | .fexpm1Base b => Sys2Proof.Machine.execFexpm1Base b s
  | .flog x => Sys2Proof.Machine.execFlog x s
  | .flogBase b => Sys2Proof.Machine.execFlogBase b s
  | .flog2 x => Sys2Proof.Machine.execFlog2 x s
  | .flog2Base b => Sys2Proof.Machine.execFlog2Base b s
  | .flog1p x => Sys2Proof.Machine.execFlog1p x s
  | .flog1pBase b => Sys2Proof.Machine.execFlog1pBase b s
  | .ferf x => Sys2Proof.Machine.execFerf x s
  | .ferfBase b => Sys2Proof.Machine.execFerfBase b s
  | .ferfc x => Sys2Proof.Machine.execFerfc x s
  | .ferfcBase b => Sys2Proof.Machine.execFerfcBase b s
  | .fsinpi x => Sys2Proof.Machine.execFsinpi x s
  | .fsinpiBase b => Sys2Proof.Machine.execFsinpiBase b s
  | .fcospi x => Sys2Proof.Machine.execFcospi x s
  | .fcospiBase b => Sys2Proof.Machine.execFcospiBase b s
  | .ftanh x => Sys2Proof.Machine.execFtanh x s
  | .ftanhBase b => Sys2Proof.Machine.execFtanhBase b s
  | .fcbrt x => Sys2Proof.Machine.execFcbrt x s
  | .fcbrtBase b => Sys2Proof.Machine.execFcbrtBase b s
  | .rand x => Sys2Proof.Machine.execRand x s
  | .dropm x => Sys2Proof.Machine.execDropm x s
  | .hmix x => Sys2Proof.Machine.execHmix x s
  | .ld x => Sys2Proof.Machine.execLd x s
  | .st x => Sys2Proof.Machine.execSt x s
  | .ldu x => Sys2Proof.Machine.execLdu x s
  | .ldp x => Sys2Proof.Machine.execLdp x s
  | .stp x => Sys2Proof.Machine.execStp x s
  | .pref x => Sys2Proof.Machine.execPref x s
  | .ldna x => Sys2Proof.Machine.execLdna x s
  | .stna x => Sys2Proof.Machine.execStna x s
  | .atom x => Sys2Proof.Machine.execAtom x s
  | .atomcas x => Sys2Proof.Machine.execAtomcas x s
  | .aimg x => Sys2Proof.Machine.execAimg x s
  | .signal x => Sys2Proof.Machine.execSignal x s
  | .observe x => Sys2Proof.Machine.execObserve x s
  | .monitor x => Sys2Proof.Machine.execMonitor x s
  | .mwait x => Sys2Proof.Machine.execMwait x s
  | .tlbinv x => Sys2Proof.Machine.execTlbinv x s
  | .qsyncWait x => Sys2Proof.Machine.execQsyncWait x s
  | .qsyncPut x => Sys2Proof.Machine.execQsyncPut x s
  | .qsyncTake x => Sys2Proof.Machine.execQsyncTake x s
  | .migrMove x => Sys2Proof.Machine.execMigrMove x s
  | .migrScrub x => Sys2Proof.Machine.execMigrScrub x s
  | .pgqry x => Sys2Proof.Machine.execPgqry x s
  | .tcopy x => Sys2Proof.Machine.execTcopy x s
  | .hcopy x => Sys2Proof.Machine.execHcopy x s
  | .tiledef x => Sys2Proof.Machine.execTiledef x s
  | .tileq x => Sys2Proof.Machine.execTileq x s
  | .tilerel x => Sys2Proof.Machine.execTilerel x s
  | .tiledrn x => Sys2Proof.Machine.execTiledrn x s
  | .tfill x => Sys2Proof.Machine.execTfill x s
  | .spawn x => Sys2Proof.Machine.execSpawn x s
  | .await x => Sys2Proof.Machine.execAwait x s
  | .awaitn x => Sys2Proof.Machine.execAwaitn x s
  | .frmrd x => Sys2Proof.Machine.execFrmrd x s
  | .frmwr x => Sys2Proof.Machine.execFrmwr x s
  | .chcnt x => Sys2Proof.Machine.execChcnt x s
  | .launch x => Sys2Proof.Machine.execLaunch x s
  | .xclr x => Sys2Proof.Machine.execXclr x s
  | .xadd x => Sys2Proof.Machine.execXadd x s
  | .xfma x => Sys2Proof.Machine.execXfma x s
  | .xmrg x => Sys2Proof.Machine.execXmrg x s
  | .xrnd x => Sys2Proof.Machine.execXrnd x s
  | .xst x => Sys2Proof.Machine.execXst x s
  | .xld x => Sys2Proof.Machine.execXld x s
  | .xstat x => Sys2Proof.Machine.execXstat x s
  | .mcfg x => Sys2Proof.Machine.execMcfg x s
  | .mldb x => Sys2Proof.Machine.execMldb x s
  | .mldbw x => Sys2Proof.Machine.execMldbw x s
  | .mma x => Sys2Proof.Machine.execMma x s
  | .mzero x => Sys2Proof.Machine.execMzero x s
  | .mdrn x => Sys2Proof.Machine.execMdrn x s
  | .mstat x => Sys2Proof.Machine.execMstat x s
  | .wswr x => Sys2Proof.Machine.execWswr x s
  | .wsrd x => Sys2Proof.Machine.execWsrd x s
  | .wsqry x => Sys2Proof.Machine.execWsqry x s
  | .msplit x => Sys2Proof.Machine.execMsplit x s
  | .rjoin x => Sys2Proof.Machine.execRjoin x s
  | .repack x => Sys2Proof.Machine.execRepack x s
  | .msumx x => Sys2Proof.Machine.execMsumx x s
  | .mmean x => Sys2Proof.Machine.execMmean x s
  | .msprd x => Sys2Proof.Machine.execMsprd x s
  | .mqnt x => Sys2Proof.Machine.execMqnt x s
  | .mrank x => Sys2Proof.Machine.execMrank x s
  | .mhist x => Sys2Proof.Machine.execMhist x s
  | .ccoll x => Sys2Proof.Machine.execCcoll x s
  | .rcopy x => Sys2Proof.Machine.execRcopy x s
  | .rsignal x => Sys2Proof.Machine.execRsignal x s
  | .ratom x => Sys2Proof.Machine.execRatom x s
  | .lnkq x => Sys2Proof.Machine.execLnkq x s
  | .waitcReturn => Sys2Proof.Machine.execWaitcReturn s
  | .counterStallRelease => Sys2Proof.Machine.execCounterStallRelease s
  | .barRelease => Sys2Proof.Machine.execBarRelease s
  | .sleepExpire => Sys2Proof.Machine.execSleepExpire s
  | .loadDataArrival => Sys2Proof.Machine.execLoadDataArrival s
  | .writePerformedAtHome => Sys2Proof.Machine.execWritePerformedAtHome s
  | .guestInvalidationProbe => Sys2Proof.Machine.execGuestInvalidationProbe s
  | .probeAnswer => Sys2Proof.Machine.execProbeAnswer s
  | .directoryEviction => Sys2Proof.Machine.execDirectoryEviction s
  | .visibilityTimeReached => Sys2Proof.Machine.execVisibilityTimeReached s
  | .l1WritebackDeadline => Sys2Proof.Machine.execL1WritebackDeadline s
  | .l1Eviction => Sys2Proof.Machine.execL1Eviction s
  | .atomicAtExecutor => Sys2Proof.Machine.execAtomicAtExecutor s
  | .aimgAtExecutor => Sys2Proof.Machine.execAimgAtExecutor s
  | .signalDepart => Sys2Proof.Machine.execSignalDepart s
  | .signalArriveExecutor => Sys2Proof.Machine.execSignalArriveExecutor s
  | .signalPerform => Sys2Proof.Machine.execSignalPerform s
  | .mwaitWake => Sys2Proof.Machine.execMwaitWake s
  | .mwaitTimeout => Sys2Proof.Machine.execMwaitTimeout s
  | .hostLineTake => Sys2Proof.Machine.execHostLineTake s
  | .tlbinvDieInvalidate => Sys2Proof.Machine.execTlbinvDieInvalidate s
  | .tlbinvAcknowledgement => Sys2Proof.Machine.execTlbinvAcknowledgement s
  | .qsyncWaitComplete => Sys2Proof.Machine.execQsyncWaitComplete s
  | .migrComplete => Sys2Proof.Machine.execMigrComplete s
  | .tileStallRelease => Sys2Proof.Machine.execTileStallRelease s
  | .copyOperationComplete => Sys2Proof.Machine.execCopyOperationComplete s
  | .binSlotArrival => Sys2Proof.Machine.execBinSlotArrival s
  | .binTimerExpire => Sys2Proof.Machine.execBinTimerExpire s
  | .binGroupForm => Sys2Proof.Machine.execBinGroupForm s
  | .spawnedGroupPlacement => Sys2Proof.Machine.execSpawnedGroupPlacement s
  | .childComplete => Sys2Proof.Machine.execChildComplete s
  | .awaitConditionMet => Sys2Proof.Machine.execAwaitConditionMet s
  | .awaitYieldTimeout => Sys2Proof.Machine.execAwaitYieldTimeout s
  | .matrixInstructionStart => Sys2Proof.Machine.execMatrixInstructionStart s
  | .matrixOperationComplete => Sys2Proof.Machine.execMatrixOperationComplete s
  | .tarnRefreshWindow => Sys2Proof.Machine.execTarnRefreshWindow s
  | .weightStoreLineAccess => Sys2Proof.Machine.execWeightStoreLineAccess s
  | .rjoinMerge => Sys2Proof.Machine.execRjoinMerge s
  | .regroupDeadlock => Sys2Proof.Machine.execRegroupDeadlock s
  | .repackExecute => Sys2Proof.Machine.execRepackExecute s
  | .ccollMatched => Sys2Proof.Machine.execCcollMatched s
  | .ccollComplete => Sys2Proof.Machine.execCcollComplete s
  | .peerInboundOperation => Sys2Proof.Machine.execPeerInboundOperation s
  | .remoteAcknowledgement => Sys2Proof.Machine.execRemoteAcknowledgement s
  | .remoteTimeout => Sys2Proof.Machine.execRemoteTimeout s
  | .linkFlitReplay => Sys2Proof.Machine.execLinkFlitReplay s
  | .linkLaneLoss => Sys2Proof.Machine.execLinkLaneLoss s
  | .linkRetrainComplete => Sys2Proof.Machine.execLinkRetrainComplete s
  | .hostCxlMemAccess => Sys2Proof.Machine.execHostCxlMemAccess s
  | .qgo => Sys2Proof.Machine.execQgo s
  | .qctlPreempt => Sys2Proof.Machine.execQctlPreempt s
  | .qctlWithdraw => Sys2Proof.Machine.execQctlWithdraw s
  | .qctlResume => Sys2Proof.Machine.execQctlResume s
  | .qctlEnd => Sys2Proof.Machine.execQctlEnd s
  | .astbaseWrite => Sys2Proof.Machine.execAstbaseWrite s
  | .hwbaseWrite => Sys2Proof.Machine.execHwbaseWrite s
  | .hwlenWrite => Sys2Proof.Machine.execHwlenWrite s
  | .registerWrite => Sys2Proof.Machine.execRegisterWrite s
  | .dispatchChoice => Sys2Proof.Machine.execDispatchChoice s
  | .blockRetire => Sys2Proof.Machine.execBlockRetire s
  | .blockRelease => Sys2Proof.Machine.execBlockRelease s
  | .preemptQuantum => Sys2Proof.Machine.execPreemptQuantum s
  | .groupSave => Sys2Proof.Machine.execGroupSave s
  | .launchTrapReport => Sys2Proof.Machine.execLaunchTrapReport s
  | .launchCompletion => Sys2Proof.Machine.execLaunchCompletion s
  | .coreLoss => Sys2Proof.Machine.execCoreLoss s
  | .launchRestart => Sys2Proof.Machine.execLaunchRestart s
  | .hbmChannelLoss => Sys2Proof.Machine.execHbmChannelLoss s
  | .baseDieLoss => Sys2Proof.Machine.execBaseDieLoss s
  | .powerOnBringup => Sys2Proof.Machine.execPowerOnBringup s
  | .governorSample => Sys2Proof.Machine.execGovernorSample s
  | .report => Sys2Proof.Machine.execReport s
  | .quote => Sys2Proof.Machine.execQuote s
  | .offline => Sys2Proof.Machine.execOffline s
  | .window => Sys2Proof.Machine.execWindow s
  | .stage => Sys2Proof.Machine.execStage s
  | .reset => Sys2Proof.Machine.execReset s
  | .doorbellUnknownCommand => Sys2Proof.Machine.execDoorbellUnknownCommand s
  | .otherCauseWakeEvent => Sys2Proof.Machine.execOtherCauseWakeEvent s
  | .guestCopyEviction => Sys2Proof.Machine.execGuestCopyEviction s
  | .mailboxCommandEnd => Sys2Proof.Machine.execMailboxCommandEnd s

end Machine
end Sys2Proof
end

