-- ==== Sys2Proof/Machine/Issue.lean ====
section
/-! DEFINITION. Issuing what stands at a sub-group's pc: fetch, decode, meaning (R79, R61 02_encoding.md, R133 to R136
04_sequencer.md); and the placing of one instruction where the next fetch finds it. -/

namespace Sys2Proof
namespace Machine

/-- DETAIL of an encoding that the decoder refuses (R78). -/
def decodeDetail : DecodeError → Nat
  | .short => 2
  | .opcode _ => 1
  | .length _ _ => 2
  | .operation _ _ => 4

/-- Position of an instruction in its run; one whose first word has OP 0 is the trailer (R135). -/
def Cx.runpos (c : Cx) (first : Except (Nat × Nat × Nat) Word) : Nat :=
  match first with
  | .ok w => if Sys2Proof.opOf w = 0 then trailerPos else c.u.ndone
  | .error _ => c.u.ndone

/-- What the fetched words ask for: the meaning of the instruction, or the trap of an encoding that is none; a 25th instruction
fails a row of its own (R61). -/
def State.runWords (s : State) (c : Cx) (ws : List Word) : Out :=
  match decode (ws.flatMap wordBytes) with
  | .ok (i, _) => exec i s
  | .error e =>
    let run := failIf (decide (24 ≤ c.u.ndone) && opOf (ws.headD 0) != 0) 15
    .next (s.tick.takeTrap c.g c.r (illegal s.stamp (decodeDetail e :: run)) c.u.pc (c.runpos (.ok (ws.headD 0))) false)

/-- Instructions that read or write the frame area (R321, R328 to R333 14_spawn.md). -/
def usesFrames : Instr → Bool
  | .spawn _ | .frmrd _ | .frmwr _ | .chcnt _ | .runendCall _ | .runendRet _ | .runendExit _ => true
  | _ => false

/-- Does an instruction wait for a path to its launch's frame area (R449 20_links.md)? -/
def State.framesWait (s : State) (c : Cx) (ws : List Word) : Bool :=
  !s.hostPath && !s.framesOpen c.l && match decode (ws.flatMap wordBytes) with
    | .ok (i, _) => usesFrames i
    | .error _ => false

/-- The turn of a sub-group. A failing fetch marks no thread: no guard has been read. Without a path to the code or to the frame area
nothing happens. -/
def State.issueTurn (s : State) (r : SubRef) : Out :=
  let s : State := { s with cur := r }
  match s.issuer with
  | none => .refused .noIssuer
  | some c => match s.fetch c.l c.g.core c.u.pc.toNat with
    | .error (_, 0, _) => .next s.tick
    | .error (va, cause, detail) =>
      let t : TrapReq := { cause := cause, detail := detail, addr := va }
      .next ((s.tick.noteFault t).takeTrap c.g c.r t c.u.pc (c.runpos (s.codeWord c.l c.g.core c.u.pc.toNat)) false)
    | .ok ws => if s.framesWait c ws then .next s.tick else s.runWords c ws

/-- The turn of an event, which has nothing to do with how long what may move has waited. -/
def State.eventTurn (s : State) (i : Instr) (a : EventArg) : Out := exec i { s with arg := a, since := [] }

/-! ### One instruction where the next fetch finds it (log 10) -/

/-- The die-local memory of die 0 in which the probe places its tables and its code, by offset: address-space table, top table, a
table of 64 GiB pages, and the page that maps virtual address 0 on. -/
def probeBase : Nat := 2 ^ 44
def probeTop : Nat := probeBase + 2 ^ 20
def probeNext : Nat := probeBase + 2 ^ 21
def probeFrame : Nat := probeBase + 2 ^ 36
/-- The virtual address of the instruction. -/
def probeEntry : Nat := 4096

/-- Lay bytes from a physical address on. -/
def layBytes (m : List Host.Cell) (pa : Nat) (b : List Byte) : List Host.Cell :=
  b.zipIdx.foldl (fun (m : List Host.Cell) (k : Byte × Nat) => SMap.set 0 m (pa + k.2) k.1) m

/-- The launch record of the probe: one group of one member, every register and accumulator declared. -/
def probeRecord : List Byte :=
  leBytes 8 probeEntry ++ leBytes 4 0 ++ leBytes 4 (1 + 2 ^ 24) ++ leBytes 4 31 ++ zeros 28 ++
  leBytes 4 (1 + 1 * 2 ^ 4 + 240 * 2 ^ 8 + 160 * 2 ^ 16 + 4 * 2 ^ 24) ++ zeros 204

/-- Memory with the tables and the code. -/
def probeMem (m : List Host.Cell) (code : List Byte) : List Host.Cell :=
  let m := layBytes m (probeFrame + probeEntry) code
  -- leaf: valid, readable, writable, executable, 64 GiB, home-die
  let m := layBytes m probeNext (leBytes 8 (0x1F + probeFrame) ++ leBytes 8 (1 + 3 * 4))
  let m := layBytes m probeTop (leBytes 8 (1 + probeNext) ++ zeros 8)
  -- privileged address space 0
  layBytes m probeBase (leBytes 8 (3 + probeTop) ++ zeros 8)

end Machine
end Sys2Proof
end

