-- ==== Sys2Proof/Machine/Schedule.lean ====
section
/-! DEFINITION. What may move next (R131, R132 04_sequencer.md; 95_what_each_step_holds.md): a sub-group that issues, an event of the part,
or an event that the world has sent. Of the enabled ones a free value names the next, within the bounds of the spec (log 1, log 2). -/

namespace Sys2Proof
namespace Machine

/-- An answer that stands: a next state, or a fault. -/
def answers (o : Out) : Bool :=
  match o with
  | .refused _ => false
  | _ => true

/-- An event of the world that has its turn is taken from those it has sent. -/
def State.take (s : State) (t : Turn) : State :=
  match t with
  | .event i a => { s with inputs := s.inputs.erase (i, a) }
  | _ => s

/-- The state in which `t` moves next. -/
def State.giveTurn (s : State) (t : Turn) : State := { s.take t with turn := t }

/-- Can an event move next? -/
def State.enabled (s : State) (e : Instr × EventArg) : Bool :=
  answers ((s.giveTurn (.event e.1 e.2)).eventTurn e.1 e.2)

/-- Every resident sub-group. -/
def State.residents (s : State) : List SubRef :=
  (s.groups.filter fun g => g.resident).flatMap fun g => g.subs.map fun u => { grp := g.id, sub := u.num }

/-- The sub-group that a reference names. -/
def State.subAt? (s : State) (r : SubRef) : Option SubGroup := (s.group? r.grp).bind fun g => g.sub? r.sub

/-- Is a sub-group eligible (R131): may it issue, and does no interlock hold it? One that is held stays as it was. -/
def State.eligibleSub (s : State) (r : SubRef) : Bool :=
  ({ s with cur := r } : State).issuer.isSome && match s.issueTurn r with
    | .next t => t.subAt? r != s.subAt? r
    | o => answers o

/-- The port of an operation code (R15 01_machine.md): 0 I, 1 V, 2 F, 3 M. -/
def portOf (op : Nat) : Nat :=
  let within := fun (lo hi : Nat) => decide (lo ≤ op) && decide (op ≤ hi)
  if within 0x00 0x1A || within 0x28 0x4D then 0
  else if within 0x20 0x23 || within 0x50 0x7A || within 0xD0 0xD4 || op == 0xD7 then 1
  else if within 0x80 0x8E then 2
  else 3

/-- What R132 ranks a sub-group by. -/
structure Standing where
  r : SubRef
  /-- Core and partition. -/
  seat : Nat × Nat
  /-- The port of its next instruction; I where it cannot be fetched. -/
  port : Nat
  yielded : Bool
  /-- State.stamp at its last issue. -/
  issued : Nat
  /-- Its lowest member. -/
  first : Nat
deriving DecidableEq, Repr

def State.standing (s : State) (r : SubRef) : Option Standing :=
  match s.group? r.grp with
  | some g => match g.sub? r.sub, s.launch? g.launch with
    | some u, some l => some
        { r := r, seat := (g.core, g.partition)
          port := match s.codeWord l g.core u.pc.toNat with
            | .ok w => portOf (opOf w)
            | .error _ => 0
          yielded := u.yielded, issued := u.issued, first := ((List.range 8).find? fun m => u.members.getLsbD m).getD 8 }
    | _, _ => none
  | none => none

/-- Does `a` rank before `b` for a port of their partition (R132)? Those that yielded rank last, then the longest wait ranks first; of one
group the lower member does. -/
def Standing.before (a b : Standing) : Bool :=
  a.seat == b.seat && a.port == b.port && ((!a.yielded && b.yielded) || (a.yielded == b.yielded &&
    (decide (a.issued < b.issued) || (a.issued == b.issued && a.r.grp == b.r.grp && decide (a.first < b.first)))))

/-- Sub-groups that a sequencer may choose: for each port of each partition the eligible ones that rank first (R132; log 1). -/
def State.issuers (s : State) : List SubRef :=
  let es := (s.residents.filter s.eligibleSub).filterMap s.standing
  (es.filter fun b => !es.any fun a => a.before b).map fun e => e.r

/-- Events about a sub-group. -/
def subEvents : List Instr :=
  [.waitcReturn, .counterStallRelease, .barRelease, .sleepExpire, .mwaitWake, .mwaitTimeout, .otherCauseWakeEvent, .qsyncWaitComplete,
   .tileStallRelease, .awaitConditionMet]
/-- Events about a number that State.arg gives. -/
def opEvents : List Instr :=
  [.signalDepart, .signalArriveExecutor, .migrComplete, .matrixInstructionStart, .matrixOperationComplete, .weightStoreLineAccess,
   .ccollMatched, .remoteTimeout]
def partEvents : List Instr := [.loadDataArrival, .copyOperationComplete, .ccollComplete, .remoteAcknowledgement]
def groupEvents : List Instr := [.awaitYieldTimeout, .rjoinMerge, .regroupDeadlock, .repackExecute, .groupSave]
def launchEvents : List Instr := [.launchTrapReport, .launchCompletion, .launchRestart]
def plainEvents : List Instr := [.tarnRefreshWindow, .dispatchChoice, .blockRetire, .mailboxCommandEnd]

/-- Events that one operation could concern: its parts, its executors, the dies it reaches. -/
def Op.events (o : Op) (stamp : Nat) : List (Instr × EventArg) :=
  let parts : List (Instr × EventArg) := partEvents.flatMap fun i => [(i, EventArg.part o.id none), (i, EventArg.part o.id (some stamp))]
  let whole : List (Instr × EventArg) := opEvents.map fun i => (i, EventArg.num o.id)
  let executors : List (Instr × EventArg) := (List.range 256).flatMap fun k =>
    [(Instr.atomicAtExecutor, EventArg.pair o.id k), (Instr.aimgAtExecutor, EventArg.pair o.id k), (Instr.signalPerform, EventArg.pair o.id k)]
  let dies : List (Instr × EventArg) := (List.range 6).flatMap fun d =>
    [(Instr.tlbinvDieInvalidate, EventArg.pair o.id d), (Instr.tlbinvAcknowledgement, EventArg.pair o.id d)]
  [parts, whole, [(Instr.ccollMatched, EventArg.pair o.id 0)], executors, dies].flatten

/-- Events about writes, probes, copies of lines and the bins of spawned children. -/
def State.memoryEvents (s : State) : List (Instr × EventArg) :=
  let writes : List (Instr × EventArg) := s.writes.map fun w => (Instr.writePerformedAtHome, EventArg.num w.id)
  let visible : List (Instr × EventArg) := s.visible.map fun w => (Instr.visibilityTimeReached, EventArg.num w.id)
  let probes : List (Instr × EventArg) := s.probes.flatMap fun p =>
    [(Instr.guestInvalidationProbe, EventArg.pair p.id p.die), (Instr.probeAnswer, EventArg.pair p.id p.die)]
  let dirs : List (Instr × EventArg) := s.dirs.map fun (k : Nat × List Nat) => (Instr.directoryEviction, EventArg.num k.1)
  let guests : List (Instr × EventArg) := s.guests.map fun g => (Instr.guestCopyEviction, EventArg.pair g.die g.line)
  let l1 : List (Instr × EventArg) := s.l1.flatMap fun x =>
    [(Instr.l1WritebackDeadline, EventArg.pair x.core x.line), (Instr.l1Eviction, EventArg.pair x.core x.line)]
  let slots : List (Instr × EventArg) := s.slots.map fun x => (Instr.binSlotArrival, EventArg.num x.id)
  let bins : List (Instr × EventArg) := s.bins.flatMap fun b =>
    [(Instr.binTimerExpire, EventArg.num b.id), (Instr.binGroupForm, EventArg.num b.id)]
  [writes, visible, probes, dirs, guests, l1, slots, bins].flatten

/-- Events about groups and their sub-groups. -/
def State.groupsEvents (s : State) : List (Instr × EventArg) :=
  s.groups.flatMap fun g =>
    let subs : List (Instr × EventArg) := g.subs.flatMap fun u => subEvents.map fun i => (i, EventArg.sub { grp := g.id, sub := u.num })
    let whole : List (Instr × EventArg) := groupEvents.map fun i => (i, EventArg.num g.id)
    let places : List (Instr × EventArg) := s.cores.map fun c => (Instr.spawnedGroupPlacement, EventArg.pair g.id c)
    let frames : List (Instr × EventArg) := g.frames.map fun (k : Nat × Nat) => (Instr.childComplete, EventArg.pair g.id k.1)
    [subs, whole, places, frames].flatten

/-- Events about blocks, launches, cores and links, and those that concern the part as a whole. -/
def State.partWideEvents (s : State) : List (Instr × EventArg) :=
  let blocks : List (Instr × EventArg) := s.blocks.map fun b => (Instr.blockRelease, EventArg.pair b.launch b.index)
  let launches : List (Instr × EventArg) := s.launches.flatMap fun l => launchEvents.map fun i => (i, EventArg.num l.id)
  let cores : List (Instr × EventArg) := s.cores.map fun c => (Instr.preemptQuantum, EventArg.num c)
  let links : List (Instr × EventArg) := (List.range 18).map fun k => (Instr.linkRetrainComplete, EventArg.num k)
  let plain : List (Instr × EventArg) := plainEvents.map fun i => (i, EventArg.none)
  [blocks, launches, cores, links, plain].flatten

/-- Every event of the part that some piece of the state could concern. -/
def State.events (s : State) : List (Instr × EventArg) :=
  [s.groupsEvents, s.ops.flatMap fun o => o.events s.stamp, s.memoryEvents, s.partWideEvents].flatten

/-- The events that come from outside: the host, peers, other chips of a collective, the adapter, the physical world. -/
def worldEvents : List Instr :=
  [.hostLineTake, .ccollMatched, .peerInboundOperation, .remoteAcknowledgement, .linkFlitReplay, .linkLaneLoss, .hostCxlMemAccess, .qgo,
   .qctlPreempt, .qctlWithdraw, .qctlResume, .qctlEnd, .astbaseWrite, .hwbaseWrite, .hwlenWrite, .registerWrite, .coreLoss, .hbmChannelLoss,
   .baseDieLoss, .powerOnBringup, .governorSample, .report, .quote, .offline, .window, .stage, .reset, .doorbellUnknownCommand]

/-- The first event of the world that is enabled. -/
def State.input (s : State) : List (Instr × EventArg) :=
  match s.inputs.find? fun e => worldEvents.contains e.1 && s.enabled e with
  | some e => [e]
  | none => []

/-- What may move next. -/
def State.candidates (s : State) : List Turn :=
  (s.issuers.map .issue) ++ (((s.events.filter s.enabled) ++ s.input).map fun e => .event e.1 e.2)

/-- What comes first: an event for which device time waits (State.limits), a write that has become visible (R254), and a release in order
(R429 19_dispatch.md). -/
def State.due (s : State) : Turn → Bool
  | .event .l1WritebackDeadline _ | .event .visibilityTimeReached _ | .event .blockRelease _ => true
  | .event .guestInvalidationProbe (.pair id die) => s.probes.any fun p => p.id == id && p.die == die && decide (p.due ≤ s.time + 1)
  | .event .linkRetrainComplete (.num k) => decide ((s.link k).since + retrainClocks ≤ s.time)
  | _ => false

/-- The candidates with the stamps since which they could move, as `since` has those that could before. -/
def State.aged (s : State) (since : List (Turn × Nat)) : List (Turn × Nat) :=
  s.candidates.map fun t => (t, match since.find? fun k => k.1 == t with
    | some k => k.2
    | none => s.stamp)

/-- Of those that have been passed over for too long, the one that has waited longest. -/
def overdue (stamp : Nat) (l : List (Turn × Nat)) : Option Turn :=
  ((l.filter fun k => decide (k.2 + Config.patience ≤ stamp)).foldl (fun (best : Option (Turn × Nat)) k => match best with
    | some b => if k.2 < b.2 then some k else best
    | none => some k) none).map fun k => k.1

/-- Who moves next: what is due, else what is overdue, else one of the candidates; none where nothing can (log 1). -/
def State.choose (s : State) (l : List (Turn × Nat)) : Turn :=
  let pick := fun (cs : List Turn) => cs.getD (Config.arbiter s.stamp % cs.length) .idle
  match (l.map fun k => k.1).filter s.due with
  | [] => (overdue s.stamp l).getD (pick (l.map fun k => k.1))
  | ds => pick ds

/-! ### Time (R5 00_scope.md) -/

/-- Device times that do not come before the event they wait for: the write-back of a dirty line (R248), the invalidation of a guest copy
(R254), the end of a retraining (R449). -/
def State.limits (s : State) : List Nat :=
  ((s.l1.filter fun x => !x.dirty.isEmpty).map fun x => x.since + writebackClocks) ++
  ((s.probes.filter fun p => !p.answered).map fun p => p.due - 1) ++
  (((s.ports ++ s.hosts).filter fun p => p.next.isSome).map fun p => p.since + retrainClocks)

/-- Device time after a step (log 2). -/
def State.later (s : State) : Nat :=
  max s.time (s.limits.foldl min (s.time + Config.clocks s.stamp + if s.stamp % (Config.pace + 1) = 0 then 1 else 0))

/-! ### Errors of storage (R38 to R40 01_machine.md; log 52) -/

/-- A group loses a unit that it holds. -/
def Group.strike (g : Group) (l : Launch) (kind k : Nat) : Group :=
  let m : Mark := { cause := 7, detail := 128, addr := 0 }
  match kind with
  | 0 => if k / 256 < l.vregs ∧ k % 256 < 32 * g.m then { g with vmarks := g.vmarks.put k m } else g
  | 1 => if k % 256 < l.uregs then g.modSub (k / 256) fun u => { u with umarks := u.umarks.put (k % 256) m } else g
  | _ => if k / 4 < g.m ∧ k % 4 < l.acc then { g with accMarks := g.accMarks.put k m } else g

/-- A register, an accumulator or a pool byte is lost. -/
def State.strikeUnits (s : State) : State :=
  let s := match Config.struckUnit s.stamp with
    | some (kind, id, k) => s.modGroup id fun g => match s.launch? g.launch with
      | some l => if g.resident then g.strike l kind k else g
      | none => g
    | none => s
  match Config.struckPool s.stamp with
  | some (launch, block, k) => s.modBlock launch block fun b =>
      if b.resident ∧ k / 2 ^ 20 < b.cores.length ∧ b.struck.contains k = false then { b with struck := k :: b.struck } else b
  | none => s

/-- A clean copy in an L1, or a guest copy, is lost. -/
def State.strikeCopies (s : State) : State :=
  let lost : LineMark := ⟨0, true, false, true⟩
  match Config.struckCopy s.stamp with
  | some (true, d, n) => { s with guests := s.guests.map fun g => if g.die = d ∧ g.line = n ∧ g.mark.failing = false then { g with mark := lost } else g }
  | some (false, c, n) => { s with l1 := s.l1.map fun x =>
      if x.core = c ∧ x.line = n ∧ x.clean.isSome ∧ x.mark.failing = false then { x with mark := lost } else x }
  | none => s

/-- Lines of memory and of the weight stores, and writes on their way. -/
def State.strikeLines (s : State) : State :=
  { s with
    lineMarks := match Config.struckLine s.stamp with
      | some (n, ecc) =>
        let m := s.lineMarks.get LineMark.none n
        if (s.home (64 * n)).isSome && !m.failing then s.lineMarks.set LineMark.none n { m with failing := true, reported := false, ecc := ecc }
        else s.lineMarks
      | none => s.lineMarks
    tarnFailing := match Config.struckWeight s.stamp with
      | some (d, n) => if d < 4 ∧ n < 2 ^ 24 ∧ s.tarnFailing.contains (2 ^ 24 * d + n) = false then (2 ^ 24 * d + n) :: s.tarnFailing else s.tarnFailing
      | none => s.tarnFailing
    writes := s.writes.map fun w =>
      if Config.struckWrite s.stamp = some w.id ∧ w.staged = none ∧ w.bytes.length < 64 then { w with failing := true } else w }

def State.strike (s : State) : State := s.strikeLines.strikeCopies.strikeUnits

/-- After a step: time has gone on, the world may have sent events and struck storage, and what moves next is chosen; `since` is what the step
began with. -/
def State.proceed (s : State) (since : List (Turn × Nat)) : State :=
  let s : State := { s.strike with time := s.later, arg := .none, inputs := s.inputs ++ Config.world s.stamp }
  let l := s.aged since
  let t := s.choose l
  { s.giveTurn t with since := l.filter fun k => k.1 != t }

/-- The step goes on to what moves next. -/
def proceeds (since : List (Turn × Nat)) (o : Out) : Out :=
  match o with
  | .next s => .next (s.proceed since)
  | .fault f => .fault f
  | .refused r => .refused r

end Machine
end Sys2Proof
end

