-- ==== Sys2Proof/Machine/Step.lean ====
section
/-! DEFINITION. One step of the machine, and the placing of one instruction before it. -/

namespace Sys2Proof
namespace Machine

/-- One step: who has the turn moves, time goes on, and the next turn is chosen. -/
def step (s : State) : Host.Outcome State Fault Refusal :=
  match s.turn with
  | .idle => proceeds s.since (.next s.tick)
  | .event i a => proceeds s.since (s.eventTurn i a)
  | .issue r => proceeds s.since (s.issueTurn r)

/-- The state with one instruction of `nbits` bits `w` where the next step fetches: a launch whose one group stands at it, the memory
that maps it, and that group's turn (log 10). -/
def State.withFetchWord (s : State) (nbits w : Nat) : State :=
  let mem := probeMem s.mem (natBytes 28 (w % 2 ^ nbits))
  let l := { Launch.ofRecord s.nextId probeRecord with
    code := mem, codeAst := BitVec.ofNat 64 probeBase, priv := true, dies := [0], phase := .active, nextBlock := 1, firstPlaced := some s.time }
  let g := l.startGroup (s.nextId + 1) 0 0 0 0 probeEntry l.allMembers l.allLanes
  let b : Block := { launch := s.nextId, index := 0, cores := [0], slot := 0, since := s.time, phase := .placed, groups := [s.nextId + 1],
                     tiles := [], pool := [], arrays := [] }
  { s with
    mem := mem
    astbase := BitVec.ofNat 64 probeBase
    bringup := .done
    ig := 0
    cores := if s.cores.contains 0 then s.cores else 0 :: s.cores
    launches := s.launches ++ [l]
    blocks := s.blocks ++ [b]
    groups := s.groups ++ [g]
    queues := s.queues.put 0 { s.queue 0 with launches := [s.nextId] }
    nextId := s.nextId + 2
    turn := .issue { grp := s.nextId + 1, sub := 0 } }

end Machine
end Sys2Proof
end

