-- ==== Sys2Proof/WellFormed.lean ====
section
/-! DEFINITION. Which terms of Instr stand for words of the opcode map (R44, R45, R76 02_encoding.md): the classes an opcode admits,
and the operation field where one opcode has several entries. What a well-formed instruction may still break (R78) is no matter
of syntax: the machine takes the illegal-instruction trap for it. -/

namespace Sys2Proof

/-- Why a term stands for no words. -/
inductive WfError where
  /-- The event of the part is not encoded. -/
  | event
  /-- The opcode does not admit class L (R76). -/
  | literal
  /-- The opcode admits class L only (R76). -/
  | noLiteral
  /-- SUB[1:0] names another operation of the opcode (R285 12_translation.md). -/
  | operation (sub : Nat)
deriving DecidableEq, Repr

/-- Class E only. -/
def classE (x : Ext) : Option WfError := if x.lit.isSome then some .literal else none
/-- Class L only. -/
def classL (x : Ext) : Option WfError := if x.lit.isNone then some .noLiteral else none
/-- Class E, with operation k. -/
def classESub (k : Nat) (x : Ext) : Option WfError :=
  if x.lit.isSome then some .literal else if bits x.w1 1 0 = k then none else some (.operation (bits x.w1 1 0))

/-- What keeps a term from standing for words; `none` for a well-formed instruction. -/
def Instr.error : Instr → Option WfError
  | .runendFall _ => none
  | .runendBra _ => none
  | .runendBrc _ => none
  | .runendJmp _ => none
  | .runendCall _ => none
  | .runendRet _ => none
  | .runendExit _ => none
  | .runendYield _ => none
  | .nop x => classE x
  | .nopBase _ => none
  | .exmrd x => classE x
  | .exmwr x => classE x
  | .mmkrd x => classE x
  | .mmkwr x => classE x
  | .lprrd x => classE x
  | .lprwr x => classE x
  | .pmov x => classE x
  | .pand x => classE x
  | .por x => classE x
  | .pxor x => classE x
  | .pnot x => classE x
  | .pandn x => classE x
  | .pcnt x => classE x
  | .pfirst x => classE x
  | .waitc x => classE x
  | .bar x => classE x
  | .trap x => classE x
  | .srrd x => classE x
  | .srwr x => classE x
  | .flgrd x => classE x
  | .flgclr x => classE x
  | .fpmode x => classE x
  | .sleep x => classE x
  | .clkrd x => classE x
  | .idrd x => classE x
  | .vote x => classE x
  | .ballot x => classE x
  | .treduce x => classE x
  | .tscan x => classE x
  | .iadd _ => none
  | .iaddBase _ => none
  | .isub _ => none
  | .isubBase _ => none
  | .iaddc x => classE x
  | .isubb x => classE x
  | .iadd3 _ => none
  | .imul _ => none
  | .imulBase _ => none
  | .imulh _ => none
  | .imad _ => none
  | .imadw _ => none
  | .idiv _ => none
  | .irem _ => none
  | .imin _ => none
  | .iminBase _ => none
  | .imax _ => none
  | .imaxBase _ => none
  | .iabs x => classE x
  | .iabsBase _ => none
  | .ineg x => classE x
  | .inegBase _ => none
  | .isat x => classE x
  | .and _ => none
  | .andBase _ => none
  | .or _ => none
  | .orBase _ => none
  | .xor _ => none
  | .xorBase _ => none
  | .andn _ => none
  | .andnBase _ => none
  | .not x => classE x
  | .notBase _ => none
  | .shl _ => none
  | .shlBase _ => none
  | .shr _ => none
  | .shrBase _ => none
  | .sar _ => none
  | .sarBase _ => none
  | .rotl _ => none
  | .rotlBase _ => none
  | .bfx _ => none
  | .bfi _ => none
  | .popc x => classE x
  | .popcBase _ => none
  | .clz x => classE x
  | .clzBase _ => none
  | .ctz x => classE x
  | .ctzBase _ => none
  | .brev x => classE x
  | .brevBase _ => none
  | .isetp _ => none
  | .isel x => classE x
  | .mov x => classE x
  | .movBase _ => none
  | .movi x => classL x
  | .lea _ => none
  | .idot4 x => classE x
  | .cvti x => classE x
  | .cvtf x => classE x
  | .cvtfi x => classE x
  | .cvtif x => classE x
  | .packn x => classE x
  | .unpackn x => classE x
  | .qcomp x => classE x
  | .qexp x => classE x
  | .fadd _ => none
  | .faddBase _ => none
  | .fsub _ => none
  | .fsubBase _ => none
  | .fmul _ => none
  | .fmulBase _ => none
  | .ffma _ => none
  | .fmin _ => none
  | .fminBase _ => none
  | .fmax _ => none
  | .fmaxBase _ => none
  | .fminm _ => none
  | .fminmBase _ => none
  | .fmaxm _ => none
  | .fmaxmBase _ => none
  | .fabs x => classE x
  | .fabsBase _ => none
  | .fneg x => classE x
  | .fnegBase _ => none
  | .fcpsgn x => classE x
  | .fcpsgnBase _ => none
  | .fsetp _ => none
  | .fsel x => classE x
  | .fclass x => classE x
  | .fdiv _ => none
  | .fsqrt x => classE x
  | .fsqrtBase _ => none
  | .frcp x => classE x
  | .frcpBase _ => none
  | .frsq x => classE x
  | .frsqBase _ => none
  | .frint x => classE x
  | .fscale x => classE x
  | .fgexp x => classE x
  | .fgexpBase _ => none
  | .fgmant x => classE x
  | .frem _ => none
  | .hadd2 _ => none
  | .hadd2Base _ => none
  | .hmul2 _ => none
  | .hmul2Base _ => none
  | .hfma2 _ => none
  | .hdot2 _ => none
  | .fexp x => classE x
  | .fexpBase _ => none
  | .fexp2 x => classE x
  | .fexp2Base _ => none
  | .fexpm1 x => classE x
  | .fexpm1Base _ => none
  | .flog x => classE x
  | .flogBase _ => none
  | .flog2 x => classE x
  | .flog2Base _ => none
  | .flog1p x => classE x
  | .flog1pBase _ => none
  | .ferf x => classE x
  | .ferfBase _ => none
  | .ferfc x => classE x
  | .ferfcBase _ => none
  | .fsinpi x => classE x
  | .fsinpiBase _ => none
  | .fcospi x => classE x
  | .fcospiBase _ => none
  | .ftanh x => classE x
  | .ftanhBase _ => none
  | .fcbrt x => classE x
  | .fcbrtBase _ => none
  | .rand x => classE x
  | .dropm x => classE x
  | .hmix x => classE x
  | .ld _ => none
  | .st _ => none
  | .ldu _ => none
  | .ldp _ => none
  | .stp _ => none
  | .pref _ => none
  | .ldna _ => none
  | .stna _ => none
  | .atom _ => none
  | .atomcas _ => none
  | .aimg x => classE x
  | .signal _ => none
  | .observe x => classE x
  | .monitor x => classE x
  | .mwait x => classE x
  | .tlbinv x => classE x
  | .qsyncWait x => classESub 0 x
  | .qsyncPut x => classESub 1 x
  | .qsyncTake x => classESub 2 x
  | .migrMove x => classESub 0 x
  | .migrScrub x => classESub 1 x
  | .pgqry x => classE x
  | .tcopy _ => none
  | .hcopy _ => none
  | .tiledef x => classE x
  | .tileq x => classE x
  | .tilerel x => classE x
  | .tiledrn _ => none
  | .tfill _ => none
  | .spawn x => classE x
  | .await x => classE x
  | .awaitn x => classE x
  | .frmrd x => classE x
  | .frmwr x => classE x
  | .chcnt x => classE x
  | .launch x => classE x
  | .xclr x => classE x
  | .xadd x => classE x
  | .xfma x => classE x
  | .xmrg x => classE x
  | .xrnd x => classE x
  | .xst _ => none
  | .xld _ => none
  | .xstat x => classE x
  | .mcfg _ => none
  | .mldb _ => none
  | .mldbw _ => none
  | .mma _ => none
  | .mzero x => classE x
  | .mdrn _ => none
  | .mstat x => classE x
  | .wswr _ => none
  | .wsrd _ => none
  | .wsqry x => classE x
  | .msplit x => classE x
  | .rjoin x => classE x
  | .repack x => classE x
  | .msumx x => classE x
  | .mmean x => classE x
  | .msprd x => classE x
  | .mqnt x => classE x
  | .mrank x => classE x
  | .mhist x => classE x
  | .ccoll _ => none
  | .rcopy _ => none
  | .rsignal _ => none
  | .ratom _ => none
  | .lnkq x => classE x
  | .waitcReturn => some .event
  | .counterStallRelease => some .event
  | .barRelease => some .event
  | .sleepExpire => some .event
  | .loadDataArrival => some .event
  | .writePerformedAtHome => some .event
  | .guestInvalidationProbe => some .event
  | .probeAnswer => some .event
  | .directoryEviction => some .event
  | .visibilityTimeReached => some .event
  | .l1WritebackDeadline => some .event
  | .l1Eviction => some .event
  | .atomicAtExecutor => some .event
  | .aimgAtExecutor => some .event
  | .signalDepart => some .event
  | .signalArriveExecutor => some .event
  | .signalPerform => some .event
  | .mwaitWake => some .event
  | .mwaitTimeout => some .event
  | .hostLineTake => some .event
  | .tlbinvDieInvalidate => some .event
  | .tlbinvAcknowledgement => some .event
  | .qsyncWaitComplete => some .event
  | .migrComplete => some .event
  | .tileStallRelease => some .event
  | .copyOperationComplete => some .event
  | .binSlotArrival => some .event
  | .binTimerExpire => some .event
  | .binGroupForm => some .event
  | .spawnedGroupPlacement => some .event
  | .childComplete => some .event
  | .awaitConditionMet => some .event
  | .awaitYieldTimeout => some .event
  | .matrixInstructionStart => some .event
  | .matrixOperationComplete => some .event
  | .tarnRefreshWindow => some .event
  | .weightStoreLineAccess => some .event
  | .rjoinMerge => some .event
  | .regroupDeadlock => some .event
  | .repackExecute => some .event
  | .ccollMatched => some .event
  | .ccollComplete => some .event
  | .peerInboundOperation => some .event
  | .remoteAcknowledgement => some .event
  | .remoteTimeout => some .event
  | .linkFlitReplay => some .event
  | .linkLaneLoss => some .event
  | .linkRetrainComplete => some .event
  | .hostCxlMemAccess => some .event
  | .qgo => some .event
  | .qctlPreempt => some .event
  | .qctlWithdraw => some .event
  | .qctlResume => some .event
  | .qctlEnd => some .event
  | .astbaseWrite => some .event
  | .hwbaseWrite => some .event
  | .hwlenWrite => some .event
  | .registerWrite => some .event
  | .dispatchChoice => some .event
  | .blockRetire => some .event
  | .blockRelease => some .event
  | .preemptQuantum => some .event
  | .groupSave => some .event
  | .launchTrapReport => some .event
  | .launchCompletion => some .event
  | .coreLoss => some .event
  | .launchRestart => some .event
  | .hbmChannelLoss => some .event
  | .baseDieLoss => some .event
  | .powerOnBringup => some .event
  | .governorSample => some .event
  | .report => some .event
  | .quote => some .event
  | .offline => some .event
  | .window => some .event
  | .stage => some .event
  | .reset => some .event
  | .doorbellUnknownCommand => some .event
  | .otherCauseWakeEvent => some .event
  | .guestCopyEviction => some .event
  | .mailboxCommandEnd => some .event

/-- A well-formed instruction: one that the opcode map encodes. -/
def Instr.wf (i : Instr) : Bool := i.error.isNone

end Sys2Proof
end

