-- ==== Sys2Proof/Safety.lean ====
section
/-! DEFINITION. The terms of the statements: who can move, when an instruction executes normally, and what it then leaves, the state it
does not touch included. -/

namespace Sys2Proof
namespace Machine

/-! ### What has the turn can move -/

/-- Whoever has the turn can move: a sub-group that may issue (R131 04_sequencer.md), or an event whose condition the state meets. -/
def State.TurnStands (s : State) : Prop :=
  match s.turn with
  | .idle => True
  | .issue r => (({ s with cur := r } : State).issuer).isSome = true
  | .event i a => answers (s.eventTurn i a) = true

/-! ### Reading the state -/

/-- A sub-group by its group's number and its own. -/
def State.sub? (s : State) (r : SubRef) : Option SubGroup := (s.group? r.grp).bind fun g => g.sub? r.sub

/-! ### When an instruction executes normally -/

/-- The sub-group in `c` issues; the encoding breaks no row of R78, by itself or against the launch and the run; no unit that it reads, in
the threads `who`, is marked (R245); no load still holds a register that it names (R67), and none is still to write one that a trailer has awaited (R73). -/
structure Ready (s : State) (c : Cx) (x : Ext) (f : Form) (who : List Nat := c.threads x.p) : Prop where
  issuer : s.issuer = some c
  encoding : formFails x f = []
  launch : dynFails c x f = []
  marks : c.markFault (formUses x f) who (f.dest.isUni x.d || !f.guard) = none
  free : c.uniHeld (holdUses x f) = false
  awaits : c.awaitHeld (formUses x f) = false

/-! ### What an instruction that computes a value leaves -/

/-- Threads that the results of an instruction reach: its active threads; with a uniform destination every thread of the sub-group
with MMK and EXM set, whose flags take the one result's (R53, R197). -/
def Cx.reach (c : Cx) (x : Ext) : List Nat := if isUni x.d then c.unguarded else c.threads x.p

/-- The value of a thread, or the one value. -/
def forThread {α : Type} (x : Ext) (f : Nat → α) (t : Nat) : α := if isUni x.d then f 0 else f t

/-- Some result raised an exception that TE enables (R137 04_sequencer.md). -/
def Cx.trapsOn (c : Cx) (x : Ext) (f : Nat → Dword × Flags) : Bool :=
  (c.reach x).any fun t => decide ((forThread x f t).2 &&& c.te ≠ 0)

/-- The issuing group and sub-group after an instruction with results `f` in D, pairs if `wide`: the window entry (R64), the registers
(R53, R65), the flags (R113), and that all the rest is as it was. -/
structure ComputedIn (c : Cx) (x : Ext) (words : Nat) (wide : Bool) (f : Nat → Dword × Flags) (g : Group) (u : SubGroup) :
    Prop where
  pc : u.pc = c.u.pc + BitVec.ofNat 64 (4 * words)
  done : u.ndone = c.u.ndone + 1
  phase : u.phase = if c.trapsOn x f then .trapped else .running
  window : ∃ e : WinEntry, u.window = (e :: c.u.window).take 8 ∧ e.wide = wide ∧ e.uni = isUni x.d ∧
    ∀ t, t < 32 * c.g.m → e.vals.get 0 t =
      if isUni x.d then (f 0).1
      else if c.active x.p t then (f t).1
      else match operandOf x.d with
        | .vreg n => BitVec.ofNat 64 ((c.g.vcur n t).toNat + if wide then (c.g.vcur (n + 1) t).toNat * 2 ^ 32 else 0)
        | _ => 0
  vectors : ∀ r t, t < 32 * c.g.m → g.vcur r t =
    match operandOf x.d with
    | .vreg n =>
      if c.active x.p t && r == n then BitVec.ofNat 32 (bits (f t).1 31 0)
      else if c.active x.p t && wide && r == n + 1 then BitVec.ofNat 32 (bits (f t).1 63 32)
      else c.g.vcur r t
    | _ => c.g.vcur r t
  uniforms : ∀ r, u.ureg r =
    match operandOf x.d with
    | .ureg n =>
      if r = n then BitVec.ofNat 32 (bits (f 0).1 31 0)
      else if wide && r == n + 1 then BitVec.ofNat 32 (bits (f 0).1 63 32)
      else c.u.ureg r
    | _ => c.u.ureg r
  flags : ∀ t, g.fpsr.get 0 t = c.g.fpsr.get 0 t ||| if t ∈ c.reach x then (forThread x f t).2 else 0
  keptGroup : g = { c.g with vregs := g.vregs, stale := g.stale, awaited := g.awaited, vmarks := g.vmarks, fpsr := g.fpsr, subs := g.subs,
                             trap := g.trap, trapFlags := g.trapFlags }
  keptSub : u = { c.u with pc := u.pc, ndone := u.ndone, phase := u.phase, yielded := false, issued := c.stamp + 1, window := u.window,
                           uregs := u.uregs, umarks := u.umarks, hist := u.hist }
  keptSubs : ∀ n, n ≠ c.r.sub → g.sub? n = c.g.sub? n
  keptTrap : c.trapsOn x f = false → g.trap = c.g.trap ∧ g.trapFlags = c.g.trapFlags

/-- The whole state after it: memory, caches, queues and every other group as they were. -/
structure Computed (s t : State) (c : Cx) (x : Ext) (words : Nat) (wide : Bool) (f : Nat → Dword × Flags) : Prop where
  rest : t = { s with groups := t.groups, launches := t.launches, stamp := s.stamp + 1 }
  launches : c.trapsOn x f = false → t.launches = s.launches
  others : ∀ id, id ≠ c.r.grp → t.group? id = s.group? id
  group : ∃ g u, t.group? c.r.grp = some g ∧ g.sub? c.r.sub = some u ∧ ComputedIn c x words wide f g u

/-- An instruction completes with these results. -/
def Computes (s : State) (i : Instr) (c : Cx) (x : Ext) (words : Nat) (wide : Bool) (f : Nat → Dword × Flags) : Prop :=
  ∃ t, exec i s = .next t ∧ Computed s t c x words wide f

/-! ### What an instruction that judges each thread leaves -/

/-- The issuing group and sub-group after an instruction that writes predicate k (R27, R67): the predicate in its active threads, the
flags, and that all the rest is as it was; p0 is never written. -/
structure JudgedIn (c : Cx) (x : Ext) (words k : Nat) (f : Nat → Bool × Flags) (g : Group) (u : SubGroup) : Prop where
  pc : u.pc = c.u.pc + BitVec.ofNat 64 (4 * words)
  done : u.ndone = c.u.ndone + 1
  phase : u.phase = if (c.threads x.p).any fun t => decide ((f t).2 &&& c.te ≠ 0) then .trapped else .running
  preds : ∀ t j, j < 16 → g.predBit t j = if c.active x.p t && j == k && k != 0 then (f t).1 else c.g.predBit t j
  flags : ∀ t, g.fpsr.get 0 t = c.g.fpsr.get 0 t ||| if c.active x.p t then (f t).2 else 0
  keptGroup : g = { c.g with preds := g.preds, fpsr := g.fpsr, subs := g.subs, trap := g.trap, trapFlags := g.trapFlags }
  keptSub : u = { c.u with pc := u.pc, ndone := u.ndone, phase := u.phase, yielded := false, issued := c.stamp + 1 }
  keptSubs : ∀ n, n ≠ c.r.sub → g.sub? n = c.g.sub? n
  keptTrap : ((c.threads x.p).any fun t => decide ((f t).2 &&& c.te ≠ 0)) = false → g.trap = c.g.trap ∧ g.trapFlags = c.g.trapFlags

/-- An instruction completes with these judgements. -/
def Judges (s : State) (i : Instr) (c : Cx) (x : Ext) (words k : Nat) (f : Nat → Bool × Flags) : Prop :=
  ∃ t, exec i s = .next t ∧ t = { s with groups := t.groups, launches := t.launches, stamp := s.stamp + 1 } ∧
    (((c.threads x.p).any fun t => decide ((f t).2 &&& c.te ≠ 0)) = false → t.launches = s.launches) ∧
    (∀ id, id ≠ c.r.grp → t.group? id = s.group? id) ∧
    ∃ g u, t.group? c.r.grp = some g ∧ g.sub? c.r.sub = some u ∧ JudgedIn c x words k f g u

/-! ### What an instruction that only changes its group leaves -/

/-- An instruction completes and leaves its group as `g` and itself as `u`; everything outside the group is as it was, and so are the
group's other sub-groups. -/
def Leaves (s : State) (i : Instr) (c : Cx) (words : Nat) (P : Group → SubGroup → Prop) : Prop :=
  ∃ t, exec i s = .next t ∧ t = { s with groups := t.groups, stamp := s.stamp + 1 } ∧
    (∀ id, id ≠ c.r.grp → t.group? id = s.group? id) ∧
    ∃ g u, t.group? c.r.grp = some g ∧ g.sub? c.r.sub = some u ∧
      u.pc = c.u.pc + BitVec.ofNat 64 (4 * words) ∧ u.ndone = c.u.ndone + 1 ∧ u.yielded = false ∧
      (∀ n, n ≠ c.r.sub → g.sub? n = c.g.sub? n) ∧ P g u

/-! ### Numbers -/

/-- `r` is the w-bit pattern of an integer modulo 2^w (R163 06_integer.md: lo). -/
def Wraps (w : Nat) (v : Int) (r : Dword) : Prop := r.toNat < 2 ^ w ∧ ((r.toNat : Int) - v) % ((2 ^ w : Nat) : Int) = 0

/-- The least and the greatest value of an integer type (R163). -/
def leastOf (t : DType) : Int := if t.signed then -((2 ^ (t.width - 1) : Nat) : Int) else 0
def greatestOf (t : DType) : Int := if t.signed then ((2 ^ (t.width - 1) : Nat) : Int) - 1 else ((2 ^ t.width : Nat) : Int) - 1

/-- An integer brought into the range of a type (R163: clamp). -/
def clampInto (t : DType) (v : Int) : Int := if v < leastOf t then leastOf t else if greatestOf t < v then greatestOf t else v

/-- A result of w bits given bit by bit. -/
def BitsOf (w : Nat) (b : Nat → Bool) (r : Dword) : Prop := ∀ i, r.getLsbD i = (decide (i < w) && b i)

/-! ### Instructions that compute without flags -/

/-- An extended form and the base form that stands for it complete with the same results, free of flags, in every thread as `P`
describes them. -/
def ComputesInt (s : State) (i : Instr) (c : Cx) (x : Ext) (words : Nat) (wide : Bool) (P : Nat → Dword → Prop) : Prop :=
  ∃ f : Nat → Dword, Computes s i c x words wide (fun t => (f t, 0)) ∧ ∀ t, P t (f t)

/-- The extended form of an instruction, of 3 or 5 words (R44). -/
def AsExt (k : Ext → Instr) (x : Ext) (i : Instr) (words : Nat) : Prop := i = k x ∧ words = x.words
/-- The same, or the base form of one source that stands for it (R48). -/
def AsOne (k : Ext → Instr) (kb : Base → Instr) (x : Ext) (i : Instr) (words : Nat) : Prop :=
  AsExt k x i words ∨ ∃ b : Base, x = b.one ∧ i = kb b ∧ words = 1
/-- The same, or the base form of two sources that stands for it (R48). -/
def AsTwo (k : Ext → Instr) (kb : Base → Instr) (x : Ext) (i : Instr) (words : Nat) : Prop :=
  AsExt k x i words ∨ ∃ b : Base, x = b.two ∧ i = kb b ∧ words = 1

/-! ### Rounding (R189 07_formats.md) -/

/-- `k` is num / den, in units of 2^q, rounded to an integer in a mode; `neg` is its sign. -/
def RoundsTo (mode : Rnd) (neg : Bool) (num den : Nat) (q : Int) (k : Nat) : Prop :=
  let n := num * (pow2 q).2
  let d := den * (pow2 q).1
  match mode with
  | .rne => 2 * (k * d) ≤ 2 * n + d ∧ 2 * n ≤ 2 * (k * d) + d ∧
      (2 * (k * d) = 2 * n + d ∨ 2 * n = 2 * (k * d) + d → k % 2 = 0)
  | .rna => 2 * (k * d) ≤ 2 * n + d ∧ 2 * n < 2 * (k * d) + d
  | .rtz => k * d ≤ n ∧ n < k * d + d
  | .rup => if neg then k * d ≤ n ∧ n < k * d + d else n ≤ k * d ∧ k * d < n + d
  | .rdn => if neg then n ≤ k * d ∧ k * d < n + d else k * d ≤ n ∧ n < k * d + d

/-- 2^g ≤ num / den < 2^(g + 1). -/
def Leads (num den : Nat) (g : Int) : Prop :=
  den * (pow2 g).1 ≤ num * (pow2 g).2 ∧ num * (pow2 g).2 < 2 * (den * (pow2 g).1)

/-- Bits of a format that stand for sign `s` and magnitude num / den (R181). -/
def Stands (f : Fmt) (b : Nat) (s : Bool) (num den : Nat) : Prop :=
  b < 2 ^ f.width ∧ ∃ n d, unpack f b = .rat s n d ∧ n * den = num * d

/-- num / den in units of 2^q is the integer k. -/
def IsExactly (num den : Nat) (q : Int) (k : Nat) : Prop := num * (pow2 q).2 = k * (den * (pow2 q).1)

/-- The largest finite magnitude of a format, as an integer in units of a power of 2 (R180). -/
def topUnits (f : Fmt) : Nat := if f.e4m3 then 2 ^ (f.t + 1) - 2 else 2 ^ (f.t + 1) - 1
def topExp (f : Fmt) : Int := if f.e4m3 then 5 else (f.bias : Int) - f.t

/-- Bits and flags of a result that reads as an exact value. -/
def Reads (f : Fmt) (r : Nat × Flags) (v : Ex) (fl : Flags) : Prop :=
  r.2 = fl ∧ match v with
    | .nan _ => r.1 = f.nan
    | .inf s => r.1 = f.inf s
    | .rat s n d => Stands f r.1 s n d

/-- A conversion to a format of a source that has raised `fl` (R193). -/
def ConvertsTo (f : Fmt) (mode : Rnd) (fzo : Bool) (v : Ex) (fl : Flags) (r : Nat × Flags) : Prop :=
  (∀ sig, v = .nan sig → r = (f.nan, (if sig then flagNV else 0) ||| fl)) ∧
  (∀ s, v = .inf s → r = (f.inf s, (if f.e4m3 then flagNV else 0) ||| fl)) ∧
  (∀ s n d, v = .rat s n d → r = ((round f mode fzo v).1, (round f mode fzo v).2 ||| fl))

/-- Sign and magnitude as an integer. -/
def signedNum (s : Bool) (n : Nat) : Int := if s then -(n : Int) else n

/-- What a floating-point value becomes in an integer type or in ternary (R194, R195 07_formats.md): `gives n fl` is to hold of the integer
and its flags. -/
def IntegerOf (ty : DType) (mode : Rnd) (v : Ex) (gives : Int → Flags → Prop) : Prop :=
  (∀ sig, v = .nan sig → gives 0 flagNV) ∧
  (∀ p, v = .inf p → if ty = .t2 then gives (if p then -1 else 1) flagNX else gives (if p then leastOf ty else greatestOf ty) flagNV) ∧
  ∀ p n d, v = .rat p n d → 0 < d → ∃ k, RoundsTo mode p n d 0 k ∧
    let i := signedNum p k
    (ty = .t2 → gives i.sign (if signedNum p n = i.sign * d then 0 else flagNX)) ∧
    (ty ≠ .t2 → i < leastOf ty → gives (leastOf ty) flagNV) ∧ (ty ≠ .t2 → greatestOf ty < i → gives (greatestOf ty) flagNV) ∧
    (ty ≠ .t2 → leastOf ty ≤ i → i ≤ greatestOf ty → gives i (if k * d = n then 0 else flagNX))

/-- `u` is the place of the companded code nearest to a value, the lowest of the nearest (R185, R187 07_formats.md); `fl` are its flags. -/
def CompressesTo (l : Launch) (v : Ex) (u : Nat) (fl : Flags) : Prop :=
  u < 256 ∧ (v.isNan = true → u = 128 ∧ fl = flagNV) ∧
  (∀ p, v = .inf p → fl = flagNV ∧ ∀ o, o < 256 → (if p then ltEx (expandU l o) (expandU l u) else ltEx (expandU l u) (expandU l o)) = false ∧
    (o < u → eqEx (expandU l o) (expandU l u) = false)) ∧
  (v.isNan = false → v.isInf = false →
    let a := distEx (expandU l u) v
    fl = (if a.1 = 0 then 0 else flagNX) ∧ ∀ o, o < 256 → let b := distEx (expandU l o) v
      leMag a.1 a.2 b.1 b.2 = true ∧ (o < u → ltMag a.1 a.2 b.1 b.2 = true))

/-- What a copy makes of the bits `v` of an element of one type in another (R310 13_copy.md; R193 to R196 07_formats.md): the formats of floating
point by one rounding, an integer exactly where the type holds it and clamped where it does not, ternary by sign, a code by the launch's table. -/
def Converted (l : Launch) (ts td : DType) (mode : Rnd) (fzi fzo : Bool) (v : Nat) (r : Nat × Flags) : Prop :=
  let f := fmtOf td
  let x := unpack (fmtOf ts) v
  let n : Int := if ts = .t2 then (if v = 1 then 1 else if v = 3 then -1 else 0) else intTy ts v
  let nv := if ts = .t2 ∧ v = 2 then flagNV else 0
  let is := fun (n : Int) => r.1 < 2 ^ td.width ∧ ((r.1 : Int) - n) % ((2 ^ td.width : Nat) : Int) = 0
  if ts = td then r = (v, 0)
  else if ts.isFloat = true then
    (td.isFloat = true → ConvertsTo f mode fzo (flushIn fzi f x) 0 r) ∧
    (td = .c8 → ∃ u, CompressesTo l (flushIn fzi (fmtOf ts) x) u r.2 ∧ r.1 = (u + 128) % 256) ∧
    (td.isFloat = false → td ≠ .c8 → IntegerOf td mode (flushIn fzi (fmtOf ts) x) fun n fl => is n ∧ r.2 = fl)
  else if ts = .c8 then ConvertsTo f mode fzo (flushIn fzi f (expandU l ((v + 128) % 256))) 0 r
  else
    (td.isFloat = true → ConvertsTo f mode fzo (Ex.ofInt n) nv r) ∧
    (td.isFloat = false → td = .t2 → is n.sign ∧ r.2 = nv) ∧ (td.isFloat = false → td ≠ .t2 → is (clampInto td n) ∧ r.2 = nv)

/-- Bits of a format that stand for a value that is no NaN. -/
def BitsFor (f : Fmt) (v : Ex) (b : Nat) : Prop := (∀ p, v = .inf p → b = f.inf p) ∧ ∀ p n d, v = .rat p n d → Stands f b p n d

/-- The smaller, or the larger (`max`), of two values (R211 08_float.md): where one is a NaN the other (`number`) or a NaN, -0 below +0. -/
def Extremum (f : Fmt) (number max : Bool) (a b : Ex) (r : Nat × Flags) : Prop :=
  (a.isNan = true → b.isNan = true → r = nanres f [a, b] false) ∧
  (a.isNan = true → b.isNan = false → if number then BitsFor f b r.1 ∧ r.2 = (if a.isSig then flagNV else 0) else r = nanres f [a, b] false) ∧
  (a.isNan = false → b.isNan = true → if number then BitsFor f a r.1 ∧ r.2 = (if b.isSig then flagNV else 0) else r = nanres f [a, b] false) ∧
  (a.isNan = false → b.isNan = false → r.2 = 0 ∧ (BitsFor f a r.1 ∨ BitsFor f b r.1) ∧
    (ltEx a b = true → BitsFor f (if max then b else a) r.1) ∧ (ltEx b a = true → BitsFor f (if max then a else b) r.1) ∧
    (a.isZero = true → b.isZero = true → Stands f r.1 (if max then a.neg && b.neg else a.neg || b.neg) 0 1))

/-- The rank of MAXIDX (R264 11_atomics.md): integers by their type's order; every floating-point NaN below all else, -0 below +0. -/
def Outranked (ty : DType) (a b : Nat) : Prop :=
  if ty.isFloat = true then
    let p := unpack (fmtOf ty) (a % 2 ^ ty.width)
    let q := unpack (fmtOf ty) (b % 2 ^ ty.width)
    q.isNan = false ∧ (p.isNan = true ∨ ltEx p q = true ∨ p.isZero = true ∧ q.isZero = true ∧ p.neg = true ∧ q.neg = false)
  else intTy ty a < intTy ty b

/-- The quantile at `p` of values in ascending order, none a NaN (R395 18_collective.md): `picks y r` says that r is the value y selected; one
between two finite values is rounded once, and its zero is +0, or -0 under .rdn. -/
def QuantileOf (f : Fmt) (mode : Rnd) (fzo : Bool) (ys : List Ex) (p : Ex) (picks : Ex → Nat × Flags → Prop) (r : Nat × Flags) : Prop :=
  (p.isNan = true ∨ p.isInf = true → r = (f.nan, flagNV)) ∧
  ∀ sg a b, p = .rat sg a b → 0 < b →
    (b < a ∨ sg = true ∧ a ≠ 0 → r = (f.nan, flagNV)) ∧
    (a ≤ b → ¬(sg = true ∧ a ≠ 0) →
      let h := a * (ys.length - 1)
      (∀ y, ys[h / b]? = some y → h % b = 0 → picks y r) ∧
      ∀ y z, ys[h / b]? = some y → ys[h / b + 1]? = some z → h % b ≠ 0 →
        (eqEx y z = true → picks y r) ∧
        (y = .inf true → z = .inf false → r = (f.nan, flagNV)) ∧ (y = .inf true → z.isInf = false → r = (f.inf true, 0)) ∧
        (y.isInf = false → z = .inf false → r = (f.inf false, 0)) ∧
        ∀ sy ny dy sz nz dz, y = .rat sy ny dy → z = .rat sz nz dz → eqEx y z = false →
          let v := signedNum sy ny * (dz * (b - h % b) : Nat) + signedNum sz nz * (dy * (h % b) : Nat)
          (v = 0 → r = (f.signBit (decide (mode = .rdn)), 0)) ∧
          (v ≠ 0 → r = round f mode fzo (.rat (decide (v < 0)) v.natAbs (dy * dz * b))))

/-- `ys` are the values `xs`, none a NaN, in ascending order, -0 below +0. -/
def Ascends (xs ys : List Ex) : Prop :=
  ys.Perm xs ∧ ys.Pairwise fun a b => ltEx b a = false ∧ (a.isZero = true → b.isZero = true → b.neg = true → a.neg = true)

/-- The rank of an observation with `below` values below it and `ties` equal to it, at a grid index (R396 18_collective.md; hmix of R227). -/
def drawnRank (below ties grid : Nat) : Nat :=
  below + (hmix 0x95F619980C4336F7 (BitVec.ofNat 64 grid)).toNat / 2 ^ 32 % (ties + 1)

/-- The exact sum of finite terms, as a numerator and a denominator. -/
def exactSum : List Ex → Int × Nat
  | [] => (0, 1)
  | .rat s n d :: l => (signedNum s n * (exactSum l).2 + (exactSum l).1 * d, d * (exactSum l).2)
  | _ :: l => exactSum l

/-- Node `i` at a level of the tree over `leaf` (R154 05_router.md): the lower of its two children is the left operand of `f`, one child alone
passes unchanged, and the flags are those of the nodes evaluated. -/
def treeNode (f : Nat → Nat → Nat × Flags) (leaf : Nat → Option Nat) : Nat → Nat → Option (Nat × Flags)
  | 0, i => (leaf i).map fun v => (v, 0)
  | level + 1, i => match treeNode f leaf level (2 * i), treeNode f leaf level (2 * i + 1) with
    | some a, some b => let r := f a.1 b.1; some (r.1, a.2 ||| b.2 ||| r.2)
    | some a, none => some a
    | none, b => b

/-! ### The instructions of ports V, I and F -/

/-- The words, the extended form and what the encoding admits, of each instruction that executes on port V, I or F and has no effect
outside its group (R29 01_machine.md); none for any other. -/
def portForm : Instr → Option (Nat × Ext × Form)
  | .nop x => some (x.words, x, { guard := false })
  | .exmrd x => some (x.words, x, formExmrd x)
  | .exmwr x => some (x.words, x, formExmwr x)
  | .mmkrd x => some (x.words, x, formRead x false true 0 [])
  | .mmkwr x => some (x.words, x, formMmkwr x)
  | .lprrd x => some (x.words, x, formRead x false true 0 [])
  | .lprwr x => some (x.words, x, formLprwr x)
  | .pmov x => some (x.words, x, formPmov x)
  | .pand x => some (x.words, x, formPred x (paMask ||| pbMask))
  | .por x => some (x.words, x, formPred x (paMask ||| pbMask))
  | .pxor x => some (x.words, x, formPred x (paMask ||| pbMask))
  | .pnot x => some (x.words, x, formPred x paMask)
  | .pandn x => some (x.words, x, formPred x (paMask ||| pbMask))
  | .pcnt x => some (x.words, x, { own1 := paMask, dest := .reg false true false true })
  | .pfirst x => some (x.words, x, formPred x paMask)
  | .trap x => some (x.words, x, formTrap)
  | .srrd x => some (x.words, x, formSrrd x)
  | .srwr x => some (x.words, x, formSrwr x)
  | .flgrd x => some (x.words, x, formRead x false true 0 [])
  | .flgclr x => some (x.words, x, { own1 := 0x1F })
  | .fpmode x => some (x.words, x, formFpmode x)
  | .clkrd x => some (x.words, x, formRead x true true 0 [])
  | .idrd x => some (x.words, x, formRead x false true 0xF [])
  | .vote x => some (x.words, x, formVote x)
  | .ballot x => some (x.words, x, formBallot)
  | .treduce x => some (x.words, x, formTree x 0x1E0)
  | .tscan x => some (x.words, x, formTree x 0x3E0)
  | .iadd x => some (x.words, x, formAddSub x)
  | .iaddBase b => some (1, b.two, formAddSub b.two)
  | .isub x => some (x.words, x, formAddSub x)
  | .isubBase b => some (1, b.two, formAddSub b.two)
  | .iaddc x => some (x.words, x, formCarry x)
  | .isubb x => some (x.words, x, formCarry x)
  | .iadd3 x => some (x.words, x, formIadd3 x)
  | .imul x => some (x.words, x, formMul x)
  | .imulBase b => some (1, b.two, formMul b.two)
  | .imulh x => some (x.words, x, formMul x)
  | .imad x => some (x.words, x, formImad x)
  | .imadw x => some (x.words, x, formImadw x)
  | .idiv x => some (x.words, x, formMul x)
  | .irem x => some (x.words, x, formMul x)
  | .imin x => some (x.words, x, formMul x)
  | .iminBase b => some (1, b.two, formMul b.two)
  | .imax x => some (x.words, x, formMul x)
  | .imaxBase b => some (1, b.two, formMul b.two)
  | .iabs x => some (x.words, x, formSign x)
  | .iabsBase b => some (1, b.one, formSign b.one)
  | .ineg x => some (x.words, x, formSign x)
  | .inegBase b => some (1, b.one, formSign b.one)
  | .isat x => some (x.words, x, formIsat x)
  | .and x => some (x.words, x, formBits2 x)
  | .andBase b => some (1, b.two, formBits2 b.two)
  | .or x => some (x.words, x, formBits2 x)
  | .orBase b => some (1, b.two, formBits2 b.two)
  | .xor x => some (x.words, x, formBits2 x)
  | .xorBase b => some (1, b.two, formBits2 b.two)
  | .andn x => some (x.words, x, formBits2 x)
  | .andnBase b => some (1, b.two, formBits2 b.two)
  | .not x => some (x.words, x, formBits1 x)
  | .notBase b => some (1, b.one, formBits1 b.one)
  | .shl x => some (x.words, x, formShift x)
  | .shlBase b => some (1, b.two, formShift b.two)
  | .shr x => some (x.words, x, formShift x)
  | .shrBase b => some (1, b.two, formShift b.two)
  | .sar x => some (x.words, x, formShift x)
  | .sarBase b => some (1, b.two, formShift b.two)
  | .rotl x => some (x.words, x, formShift x)
  | .rotlBase b => some (1, b.two, formShift b.two)
  | .bfx x => some (x.words, x, formBfx x)
  | .bfi x => some (x.words, x, formBfi x)
  | .popc x => some (x.words, x, formCount x)
  | .popcBase b => some (1, b.one, formCount b.one)
  | .clz x => some (x.words, x, formCount x)
  | .clzBase b => some (1, b.one, formCount b.one)
  | .ctz x => some (x.words, x, formCount x)
  | .ctzBase b => some (1, b.one, formCount b.one)
  | .brev x => some (x.words, x, formBits1 x)
  | .brevBase b => some (1, b.one, formBits1 b.one)
  | .isetp x => some (x.words, x, formIsetp x)
  | .isel x => some (x.words, x, formIsel x)
  | .mov x => some (x.words, x, formBits1 x)
  | .movBase b => some (1, b.one, formBits1 b.one)
  | .movi x => some (x.words, x, formMovi x)
  | .lea x => some (x.words, x, formLea x)
  | .idot4 x => some (x.words, x, formIdot4 x)
  | .cvti x => some (x.words, x, formCvti x)
  | .cvtf x => some (x.words, x, formCvtf x)
  | .cvtfi x => some (x.words, x, formCvtfi x)
  | .cvtif x => some (x.words, x, formCvtif x)
  | .unpackn x => some (x.words, x, formUnpackn x)
  | .qcomp x => some (x.words, x, formQcomp x)
  | .qexp x => some (x.words, x, formQexp x)
  | .fadd x => some (x.words, x, formArith x)
  | .faddBase b => some (1, b.two, formArith b.two)
  | .fsub x => some (x.words, x, formArith x)
  | .fsubBase b => some (1, b.two, formArith b.two)
  | .fmul x => some (x.words, x, formArith x)
  | .fmulBase b => some (1, b.two, formArith b.two)
  | .ffma x => some (x.words, x, formFfma x)
  | .fmin x => some (x.words, x, formMinMax x)
  | .fminBase b => some (1, b.two, formMinMax b.two)
  | .fmax x => some (x.words, x, formMinMax x)
  | .fmaxBase b => some (1, b.two, formMinMax b.two)
  | .fminm x => some (x.words, x, formMinMax x)
  | .fminmBase b => some (1, b.two, formMinMax b.two)
  | .fmaxm x => some (x.words, x, formMinMax x)
  | .fmaxmBase b => some (1, b.two, formMinMax b.two)
  | .fabs x => some (x.words, x, formFsign x)
  | .fabsBase b => some (1, b.one, formFsign b.one)
  | .fneg x => some (x.words, x, formFsign x)
  | .fnegBase b => some (1, b.one, formFsign b.one)
  | .fcpsgn x => some (x.words, x, formFcpsgn x)
  | .fcpsgnBase b => some (1, b.two, formFcpsgn b.two)
  | .fsetp x => some (x.words, x, formFsetp x)
  | .fsel x => some (x.words, x, formFsel x)
  | .fclass x => some (x.words, x, formFclass x)
  | .fdiv x => some (x.words, x, formFdiv x)
  | .fsqrt x => some (x.words, x, formRound1 x)
  | .fsqrtBase b => some (1, b.one, formRound1 b.one)
  | .frcp x => some (x.words, x, formRound1 x)
  | .frcpBase b => some (1, b.one, formRound1 b.one)
  | .frsq x => some (x.words, x, formRound1 x)
  | .frsqBase b => some (1, b.one, formRound1 b.one)
  | .frint x => some (x.words, x, formFrint x)
  | .fscale x => some (x.words, x, formFscale x)
  | .fgexp x => some (x.words, x, formFgexp x)
  | .fgexpBase b => some (1, b.one, formFgexp b.one)
  | .fgmant x => some (x.words, x, formFgmant x)
  | .frem x => some (x.words, x, formFrem x)
  | .hadd2 x => some (x.words, x, formHalf2 x)
  | .hadd2Base b => some (1, b.two, formHalf2 b.two)
  | .hmul2 x => some (x.words, x, formHalf2 x)
  | .hmul2Base b => some (1, b.two, formHalf2 b.two)
  | .hfma2 x => some (x.words, x, formHfma2 x)
  | .hdot2 x => some (x.words, x, formHdot2 x)
  | .fexp x => some (x.words, x, formFn x)
  | .fexpBase b => some (1, b.one, formFn b.one)
  | .fexp2 x => some (x.words, x, formFn x)
  | .fexp2Base b => some (1, b.one, formFn b.one)
  | .fexpm1 x => some (x.words, x, formFn x)
  | .fexpm1Base b => some (1, b.one, formFn b.one)
  | .flog x => some (x.words, x, formFn x)
  | .flogBase b => some (1, b.one, formFn b.one)
  | .flog2 x => some (x.words, x, formFn x)
  | .flog2Base b => some (1, b.one, formFn b.one)
  | .flog1p x => some (x.words, x, formFn x)
  | .flog1pBase b => some (1, b.one, formFn b.one)
  | .ferf x => some (x.words, x, formFn x)
  | .ferfBase b => some (1, b.one, formFn b.one)
  | .ferfc x => some (x.words, x, formFn x)
  | .ferfcBase b => some (1, b.one, formFn b.one)
  | .fsinpi x => some (x.words, x, formFn x)
  | .fsinpiBase b => some (1, b.one, formFn b.one)
  | .fcospi x => some (x.words, x, formFn x)
  | .fcospiBase b => some (1, b.one, formFn b.one)
  | .ftanh x => some (x.words, x, formFn x)
  | .ftanhBase b => some (1, b.one, formFn b.one)
  | .fcbrt x => some (x.words, x, formFn x)
  | .fcbrtBase b => some (1, b.one, formFn b.one)
  | .rand x => some (x.words, x, formRand x)
  | .dropm x => some (x.words, x, formDropm x)
  | .hmix x => some (x.words, x, formHmix x)
  | _ => none

/-- What an instruction of these ports may change of its group and its sub-group: registers, predicates, masks, flags, the registers
of the sequencer, what a trap writes, and its place in the run. -/
structure PortFrame (c : Cx) (words : Nat) (g : Group) (u : SubGroup) : Prop where
  pc : u.pc = c.u.pc + BitVec.ofNat 64 (4 * words)
  done : u.ndone = c.u.ndone + 1
  keptGroup : g = { c.g with vregs := g.vregs, stale := g.stale, awaited := g.awaited, vmarks := g.vmarks, preds := g.preds, exm := g.exm,
                             fpsr := g.fpsr, subs := g.subs, trap := g.trap, trapFlags := g.trapFlags }
  keptSub : u = { c.u with pc := u.pc, ndone := u.ndone, phase := u.phase, yielded := false, issued := u.issued, window := u.window, uregs := u.uregs,
                           umarks := u.umarks, hist := u.hist, mmk := u.mmk, lpr := u.lpr, fpcr := u.fpcr }
  keptSubs : ∀ n, n ≠ c.r.sub → g.sub? n = c.g.sub? n
  live : u.phase = .running ∨ u.phase = .trapped
  keptTrap : u.phase = .running → g.trap = c.g.trap ∧ g.trapFlags = c.g.trapFlags

/-! ### What a trailer leaves -/

/-- A trailer transfers: its sub-group issues, it breaks no row of R69, it names no undeclared register (R462), and no MHIST of the
run has met a bad line (R397 18_collective.md). -/
structure Ends (s : State) (c : Cx) (t : Trailer) (k : TrailerUse) : Prop where
  issuer : s.issuer = some c
  encoding : trailerBad t k = false
  declared : trailerUndeclared t k c = false
  quiet : ∀ d ∈ c.g.deferred, d.counter = 4 → d.ready = false

/-- What an MSPLIT of the run makes of a set of members (R383 17_regroup.md): every member apart, or two sets by its mask, of which
neither is empty. -/
def Cx.pieces (c : Cx) (ms : BitVec 8) : List (BitVec 8) :=
  match c.u.boundary with
  | some (.split none) => ((List.range 8).filter fun m => ms.getLsbD m).map fun m => BitVec.ofNat 8 (2 ^ m)
  | some (.split (some k)) => if ms &&& k = 0 ∨ ms &&& ~~~k = 0 then [ms] else [ms &&& k, ms &&& ~~~k]
  | _ => [ms]

/-- What a part waits for at the boundary (R63): BAR, SLEEP of at least a clock, AWAIT, an MWAIT that no recorded event ends. -/
def Cx.waitsFor (c : Cx) (time : Nat) (monitor : Option Monitor) : Phase :=
  match c.u.boundary, monitor with
  | some (.bar level), _ => .bar level
  | some (.sleep n), _ => if n = 0 then .running else .sleep (time + n)
  | some (.await n act), _ => .await time n act
  | some (.mwait timeout dest), some m => if m.wakes = [] then .mwait (if timeout = 0 then none else some (time + timeout)) dest else .running
  | _, _ => .running

/-- The reason that an MWAIT which ends at once reports (R272 11_atomics.md): 5 without a monitor, else the earliest event's. -/
def Cx.reason (c : Cx) (monitor : Option Monitor) : Option (Option Nat × Nat) :=
  match c.u.boundary, monitor with
  | some (.mwait _ dest), none => some (dest, 5)
  | some (.mwait _ dest), some m => m.wakes.head?.map fun r => (dest, r)
  | _, _ => none

/-- One part of the sub-group after its trailer, at a pc: it starts a run; it waits as its last instruction asked, or has finished if
no thread of it is live; its registers are as they were. -/
def PartAt (time : Nat) (c : Cx) (yielded : Bool) (g0 : Group) (frame : Option Nat) (alone : Bool) (ms : BitVec 8) (pc : Dword)
    (g : Group) : Prop :=
  let monitor := if alone || ms.getLsbD c.u.lowest then c.u.monitor else none
  ∃ u ∈ g.subs, u.members = ms ∧ u.pc = pc ∧ u.mmk &&& ms = c.u.mmk &&& ms ∧
    u = { c.u with num := u.num, members := ms, mmk := u.mmk, pc := pc, ndone := 0, window := [], phase := u.phase, boundary := none,
                   yielded := yielded, passed := false, monitor := u.monitor, uregs := u.uregs, umarks := u.umarks, cfrm := u.cfrm,
                   issued := c.stamp + 1 } ∧
    if g0.subLive u then
      u.phase = c.waitsFor time monitor ∧ u.cfrm = frame ∧
      match c.reason monitor with
      | none => u.monitor = monitor ∧ u.uregs = c.u.uregs ∧ u.umarks = c.u.umarks
      | some (dest, r) => u.monitor = none ∧ (∀ n, u.ureg n = if dest = some n then BitVec.ofNat 32 r else c.u.ureg n) ∧
          ∀ n, dest = some n → u.umarks.has n = false
    else u.phase = .finished ∧ u.cfrm = none ∧ u.monitor = monitor ∧ u.uregs = c.u.uregs ∧ u.umarks = c.u.umarks

/-- The group after a trailer that leaves its members at these places, from the group `g0` in which its own effect ended: the parts,
numbered by their lowest members (R380), the other sub-groups, and awaited registers, which read as their current contents (R73). SUBG of a
trap that stands names its sub-group by the new number (R135). -/
structure Parted (time : Nat) (c : Cx) (t : Trailer) (yielded : Bool) (g0 : Group) (frame : Option Nat)
    (places : List (BitVec 8 × Dword)) (g : Group) : Prop where
  parts : ∀ p ∈ places, PartAt time c yielded g0 frame (places.length == 1) p.1 p.2 g
  others : ∀ o ∈ c.g.subs, o.num ≠ c.r.sub → ∃ u ∈ g.subs, u = { o with num := u.num }
  count : g.subs.length = (c.g.subs.filter fun o => decide (o.num ≠ c.r.sub)).length + places.length
  order : ∀ u ∈ g.subs, ∀ v ∈ g.subs, u.num < v.num → u.lowest ≤ v.lowest
  awaited : ∀ r ∈ t.awaited, ∀ v ∈ g.stale.get [] r, ∀ th, th < 32 * g.m → c.u.members.getLsbD (th / 32) = true →
    SMap.get 0 v th = g.vcur r th
  trap : g.trap = { g0.trap with info := g.trap.info } ∧ ((∀ o ∈ c.g.subs, o.phase ≠ .trapped) → g.trap = g0.trap) ∧
    ((∃ o ∈ c.g.subs, o.num ≠ c.r.sub ∧ o.phase = .trapped ∧ o.num = bits g0.trap.info 26 24) →
      ∃ u ∈ g.subs, u.phase = .trapped ∧ bits g.trap.info 26 24 = u.num % 8)
  kept : g = { g0 with stale := g.stale, awaited := g.awaited, trap := g.trap, subs := g.subs }

/-- The places of the members after a trailer, an MSPLIT of the run taken into account. -/
def Cx.placesOf (c : Cx) (l : List (BitVec 8 × Dword)) : List (BitVec 8 × Dword) :=
  l.flatMap fun p => (c.pieces p.1).map fun ms => (ms, p.2)

/-- A trailer that only transfers: nothing outside the group changes. -/
def Transfers (s : State) (i : Instr) (c : Cx) (t : Trailer) (yielded : Bool) (l : List (BitVec 8 × Dword)) : Prop :=
  ∃ k g, exec i s = .next k ∧ k = { s with groups := k.groups, stamp := s.stamp + 1 } ∧
    (∀ id, id ≠ c.r.grp → k.group? id = s.group? id) ∧ k.group? c.r.grp = some g ∧
    Parted s.time c t yielded c.g c.u.cfrm (c.placesOf l) g

/-! ### Loads -/

/-- The byte at a physical address as a load of a core finds it: dirty in the L1; else as the L1 keeps it from a fill of the reader's epoch or
later, unless the load is LDNA; else in the newest of the core's writes on their way; else in the guest copy of its die, or at its home (R99
03_visibility.md, R247 to R252 10_loadstore.md). -/
def State.loadedByte (s : State) (core epoch : Nat) (na : Bool) (pa : Nat) : Byte :=
  let below : Byte := match s.writes.reverse.find? fun w => w.core == some core && w.line == pa / 64 && w.bytes.has (pa % 64) with
    | some w => w.bytes.get 0 (pa % 64)
    | none => match s.guests.find? fun g => g.die == dieOf core && g.line == pa / 64 with
      | some g => if s.homeDie (64 * (pa / 64)) = dieOf core then s.byteAt pa else g.bytes.getD (pa % 64) 0
      | none => s.byteAt pa
  match s.l1? core (pa / 64) with
  | some x => if x.dirty.has (pa % 64) then x.dirty.get 0 (pa % 64)
    else if na then below else match x.cleanAt epoch with
      | some b => b.getD (pa % 64) 0
      | none => below
  | none => below

/-! ### What an instruction that starts an operation leaves -/

/-- The sub-group issues on port M (R29 01_machine.md): it is ready, the entry's own checks against the launch pass, no OBSERVE of it is
outstanding (R269 11_atomics.md), and its counter, if it uses one (0 LD, 1 ST, 2 CP, 3 MX), stands below 63 (R33). -/
structure ReadyM (s : State) (c : Cx) (x : Ext) (f : Form) (own : List Nat) (k : Nat) (who : List Nat := c.threads x.p) : Prop where
  ready : Ready s c x f who
  own : own = []
  observing : c.u.observing = none
  room : k < 4 → c.g.counter k < 63

/-- The issuing group and sub-group behind an instruction that has changed no register: at most its counters, and its own place, interlocks
and waits. -/
structure PassedIn (c : Cx) (words : Nat) (g : Group) (u : SubGroup) : Prop where
  pc : u.pc = c.u.pc + BitVec.ofNat 64 (4 * words)
  done : u.ndone = c.u.ndone + 1
  phase : u.phase = .running
  keptGroup : g = { c.g with ld := g.ld, st := g.st, cp := g.cp, mx := g.mx, accPending := g.accPending, accMarks := g.accMarks, subs := g.subs }
  keptSub : u = { c.u with pc := u.pc, ndone := u.ndone, phase := u.phase, yielded := false, issued := c.stamp + 1, upending := u.upending,
                           ulate := u.ulate, umarks := u.umarks, observing := u.observing, monitor := u.monitor, boundary := u.boundary,
                           barAt := u.barAt, barFrame := u.barFrame }
  keptSubs : ∀ n, n ≠ c.r.sub → g.sub? n = c.g.sub? n

/-- An instruction of port M completes and leaves its group like this; memory is as it was, and so is every other group. -/
def Passes (s : State) (i : Instr) (c : Cx) (words : Nat) (P : State → Group → SubGroup → Prop) : Prop :=
  ∃ t g u, exec i s = .next t ∧ t.mem = s.mem ∧ t.forward = s.forward ∧ (∀ id, id ≠ c.r.grp → t.group? id = s.group? id) ∧
    t.group? c.r.grp = some g ∧ g.sub? c.r.sub = some u ∧ PassedIn c words g u ∧ P t g u

/-- It starts one operation, which counts on its counter (R30). -/
def Starts (s : State) (i : Instr) (c : Cx) (words k : Nat) (P : State → SubGroup → Op → Prop) : Prop :=
  Passes s i c words fun t g u => ∃ o, t.ops.length = s.ops.length + 1 ∧ t.ops.getLast? = some o ∧ o.grp = c.g.id ∧ o.sub = c.r.sub ∧
    o.counter = k ∧ (∀ j, g.counter j = c.g.counter j + if j = k ∧ k < 4 then 1 else 0) ∧ P t u o

/-- It starts none. -/
def Idles (s : State) (i : Instr) (c : Cx) (words : Nat) (P : State → SubGroup → Prop) : Prop :=
  Passes s i c words fun t g u => t.ops.length = s.ops.length ∧ (∀ j, g.counter j = c.g.counter j) ∧ P t u

/-- The fault of an instruction, before any effect but that a failing line of a page table is reported (R39). Cause 0 is no fault: a walk waits
for a path to its table (R449 20_links.md). -/
def Faults (s : State) (i : Instr) (c : Cx) (t : TrapReq) : Prop :=
  (t.cause = 0 → exec i s = .next s.tick) ∧
  (t.cause ≠ 0 → exec i s = .next ((s.tick.noteFault t).takeTrap c.g c.r t c.u.pc c.u.ndone false))

/-- The same for an instruction of an engine (R285, R322, R383): `more` are register operands that its form does not name. -/
structure ReadyMem (s : State) (c : Cx) (x : Ext) (f : Form) (more : List RegUse) (own : List Nat) (who : List Nat := c.threads x.p) : Prop where
  issuer : s.issuer = some c
  encoding : formFails x f = []
  launch : dynFails c x f = []
  own : own = []
  marks : c.markFault (formUses x f ++ more) who (f.dest.isUni x.d || !f.guard) = none
  free : c.uniHeld (holdUses x f ++ more) = false
  awaits : c.awaitHeld (formUses x f ++ more) = false
  observing : c.u.observing = none

/-- An instruction holds its sub-group in a phase, before anything of it has taken place (R33, R74, R131); registers and memory stay. -/
def Holds (s : State) (i : Instr) (c : Cx) (p : Phase) : Prop :=
  ∃ t g, exec i s = .next t ∧ t.mem = s.mem ∧ t.forward = s.forward ∧ (∀ id, id ≠ c.r.grp → t.group? id = s.group? id) ∧
    t.group? c.r.grp = some g ∧
    g.sub? c.r.sub = some { c.u with phase := p, issued := if p.issues then c.stamp + 1 else c.u.issued } ∧ g = { c.g with subs := g.subs } ∧
    ∀ n, n ≠ c.r.sub → g.sub? n = c.g.sub? n

/-- An event about one sub-group comes about and leaves the group and the sub-group like this; memory stays, and so does every other group's
everything but the epoch it compares its L1 fills with (R249). -/
def Turns (s : State) (i : Instr) (r : SubRef) (P : State → Group → SubGroup → Prop) : Prop :=
  ∃ t g u, exec i s = .next t ∧ t.mem = s.mem ∧ t.ops = s.ops ∧ t.group? r.grp = some g ∧ g.sub? r.sub = some u ∧ P t g u ∧
    ∀ id, id ≠ r.grp → ∀ o, s.group? id = some o → ∃ o', t.group? id = some o' ∧ o' = { o with gepoch := o'.gepoch }

/-- An instruction writes `f` into D in its active threads, or once into a uniform D, and makes no window entry (R64); of its group it changes
nothing else, and of the rest what `P` says. -/
def Answers (s : State) (i : Instr) (c : Cx) (words : Nat) (d : BitVec 9) (p : BitVec 4) (wide : Bool) (f : Nat → Dword)
    (P : State → Prop) : Prop :=
  ∃ t g u, exec i s = .next t ∧ (∀ id, id ≠ c.r.grp → t.group? id = s.group? id) ∧ t.group? c.r.grp = some g ∧ g.sub? c.r.sub = some u ∧
    g = { c.g with vregs := g.vregs, stale := g.stale, awaited := g.awaited, vmarks := g.vmarks, subs := g.subs } ∧
    u = { c.u with pc := c.u.pc + BitVec.ofNat 64 (4 * words), ndone := c.u.ndone + 1, yielded := false, issued := c.stamp + 1,
                   uregs := u.uregs, umarks := u.umarks, hist := u.hist } ∧
    (∀ n, n ≠ c.r.sub → g.sub? n = c.g.sub? n) ∧
    (∀ r th, th < 32 * c.g.m → g.vcur r th = match operandOf d with
      | .vreg n => if c.active p th && r == n then BitVec.ofNat 32 (bits (f th) 31 0)
        else if c.active p th && wide && r == n + 1 then BitVec.ofNat 32 (bits (f th) 63 32) else c.g.vcur r th
      | _ => c.g.vcur r th) ∧
    (∀ r, u.ureg r = match operandOf d with
      | .ureg n => if r = n then BitVec.ofNat 32 (bits (f 0) 31 0) else if wide && r == n + 1 then BitVec.ofNat 32 (bits (f 0) 63 32)
        else c.u.ureg r
      | _ => c.u.ureg r) ∧ P t

/-- The same for a record form (R60): `codes` are its uniform sources (pairs if `wide`), `own` and `mark` its entry's checks, `k` its counter,
`reads` the vector registers that its operation reads at issue. -/
structure ReadyRec (s : State) (c : Cx) (x : Rec) (codes : List (BitVec 9)) (own : List Nat) (mark : Option TrapReq) (k : Nat)
    (wide : Bool := false) (reads : List RegUse := []) : Prop where
  issuer : s.issuer = some c
  encoding : recFails x ++ codes.flatMap recSrcFails = []
  launch : recDyn c x ++ codes.flatMap (fun code => srcDyn c false code wide) = []
  own : own = []
  marks : c.markFault (recUses x codes wide) (c.threads x.p) true = none
  mark : mark = none
  free : c.uniHeld (recUses x codes wide) = false
  awaits : c.awaitHeld reads = false
  observing : c.u.observing = none
  room : c.g.counter k < 63

/-! ### What an engine instruction leaves -/

/-- An instruction completes: its sub-group goes on, and the registers, masks and flags of its group are as they were. -/
def GoesOn (s : State) (i : Instr) (c : Cx) (words : Nat) (P : State → Group → Prop) : Prop :=
  ∃ t g u, exec i s = .next t ∧ t.group? c.r.grp = some g ∧ g.sub? c.r.sub = some u ∧ u.pc = c.u.pc + BitVec.ofNat 64 (4 * words) ∧
    u.ndone = c.u.ndone + 1 ∧ u.phase = .running ∧ u.uregs = c.u.uregs ∧ u.mmk = c.u.mmk ∧ u.fpcr = c.u.fpcr ∧ u.lpr = c.u.lpr ∧
    u.cfrm = c.u.cfrm ∧ g.vregs = c.g.vregs ∧ g.preds = c.g.preds ∧ g.exm = c.g.exm ∧ g.live = c.g.live ∧ g.fpsr = c.g.fpsr ∧
    g.trap = c.g.trap ∧ (∀ k, g.counter k = c.g.counter k) ∧ P t g

/-- The finished groups of a launch hold nothing of its frame area any more (R319 14_spawn.md). -/
def State.Reaped (s : State) (launch : Nat) : Prop :=
  ∀ g ∈ s.groups, g.launch = launch → g.finished = true → g.place ≠ .formed → g.resv = none ∧ g.awr = none ∧
    ∀ l, s.launch? launch = some l → ∀ f ∈ l.frames, f.grp = g.id → f.use ≠ 3

/-! ### What an accumulator instruction leaves -/

/-- An instruction that names accumulators issues (R344, R350 15_accumulator.md): `names` exist and no XLD still loads one, no mark on those it
reads; on port M `port` is its counter. -/
structure ReadyAcc (s : State) (c : Cx) (x : Ext) (f : Form) (names reads : List Nat) (port : Option Nat) : Prop where
  issuer : s.issuer = some c
  encoding : formFails x f = []
  launch : dynFails c x f = []
  own : accFails c names = []
  marks : c.markFault (formUses x f) (c.threads x.p) false = none
  accMarks : c.accMark x.p reads = none
  free : c.uniHeld (holdUses x f) = false
  awaits : c.awaitHeld (formUses x f) = false
  loaded : c.accHeld names = false
  observing : port ≠ none → c.u.observing = none
  room : ∀ k, port = some k → c.g.counter k < 63

/-- An instruction leaves accumulator i of member m as `A m i` and adds the flags `fl` of each active thread; an enabled one of them traps after
it (R137 04_sequencer.md). -/
def Accumulates (s : State) (i : Instr) (c : Cx) (words : Nat) (p : BitVec 4) (A : Nat → Nat → Accum) (fl : Nat → Flags) : Prop :=
  let traps := (c.threads p).any fun t => decide (fl t &&& c.te ≠ 0)
  ∃ t g u, exec i s = .next t ∧ t.mem = s.mem ∧ t.ops = s.ops ∧ (∀ id, id ≠ c.r.grp → t.group? id = s.group? id) ∧
    t.group? c.r.grp = some g ∧ g.sub? c.r.sub = some u ∧
    u = { c.u with pc := c.u.pc + BitVec.ofNat 64 (4 * words), ndone := c.u.ndone + 1, phase := if traps then .trapped else .running,
                   yielded := false, issued := c.stamp + 1 } ∧
    g = { c.g with accs := g.accs, accMarks := g.accMarks, fpsr := g.fpsr, subs := g.subs, trap := g.trap, trapFlags := g.trapFlags } ∧
    (traps = false → g.trap = c.g.trap ∧ g.trapFlags = c.g.trapFlags) ∧ (∀ n, n ≠ c.r.sub → g.sub? n = c.g.sub? n) ∧
    (∀ m i, i < 4 → g.acc m i = A m i) ∧ ∀ t, g.fpsr.get 0 t = c.g.fpsr.get 0 t ||| if t ∈ c.threads p then fl t else 0

/-! ### What a member collective leaves -/

/-- A member collective writes into the register pair or register D of every active thread the one result of its lane, with the flags of it and no
trap (R390, R392 18_collective.md); nothing else of its group changes, and nothing outside it. -/
def Collects (s : State) (i : Instr) (c : Cx) (x : Ext) (wide : Bool) (f : Nat → Nat × Flags) : Prop :=
  ∃ t g u, exec i s = .next t ∧ t = { s with groups := t.groups, stamp := s.stamp + 1 } ∧ (∀ id, id ≠ c.r.grp → t.group? id = s.group? id) ∧
    t.group? c.r.grp = some g ∧ g.sub? c.r.sub = some u ∧
    g = { c.g with vregs := g.vregs, stale := g.stale, awaited := g.awaited, vmarks := g.vmarks, fpsr := g.fpsr, subs := g.subs } ∧
    u = { c.u with pc := c.u.pc + BitVec.ofNat 64 (4 * x.words), ndone := c.u.ndone + 1, yielded := false, issued := c.stamp + 1,
                   hist := u.hist } ∧
    (∀ n, n ≠ c.r.sub → g.sub? n = c.g.sub? n) ∧
    (∀ r th, th < 32 * c.g.m → g.vcur r th = match operandOf x.d with
      | .vreg n => if c.active x.p th && r == n then BitVec.ofNat 32 (f (th % 32)).1
        else if c.active x.p th && wide && r == n + 1 then BitVec.ofNat 32 ((f (th % 32)).1 / 2 ^ 32) else c.g.vcur r th
      | _ => c.g.vcur r th) ∧
    ∀ th, g.fpsr.get 0 th = c.g.fpsr.get 0 th ||| if c.active x.p th then (f (th % 32)).2 else 0

end Machine
end Sys2Proof
end

