-- ==== Sys2Proof/Certificates/Slice0/Obligations.lean ====
section
/-! DEFINITION. The statements about the model. -/

open Sys2Proof Sys2Proof.Machine

/-! ### Encoding -/

/-- Decoding the bytes of a well-formed instruction gives it back, with every operand at every value the encoding admits, and leaves
what follows it (R44 to R49, R60, R69, R76 02_encoding.md). -/
def Obligations.DecodeOfEncodeIsTheInstruction : Prop :=
  ∀ (i : Instr) (rest : List Byte), i.wf = true → decode (encodeBytes i ++ rest) = .ok (i, rest)

/-- Bytes that decode are the encoding of a well-formed instruction and what follows it: no bit of an instruction word is dropped, and
no two words stand for one instruction. -/
def Obligations.DecodedBytesAreTheEncoding : Prop :=
  ∀ (b rest : List Byte) (i : Instr), decode b = .ok (i, rest) → i.wf = true ∧ encodeBytes i ++ rest = b

/-- The major opcodes of R77: every encoding with one of them is turned away as an unassigned opcode, whatever its other bits. -/
def Obligations.UnassignedOpcodesDoNotDecode : Prop :=
  ∀ (b : List Byte) (op : Nat), opOf (wordAt b 0) = op → 4 * wordsOf (wordAt b 0) ≤ b.length →
    (0x1B ≤ op ∧ op ≤ 0x1F ∨ 0x24 ≤ op ∧ op ≤ 0x27 ∨ op = 0x4E ∨ op = 0x4F ∨ 0x57 ≤ op ∧ op ≤ 0x5F ∨
      0x7B ≤ op ∧ op ≤ 0x7F ∨ op = 0x8F ∨ 0x98 ≤ op ∧ op ≤ 0xA7 ∨ 0xAF ≤ op ∧ op ≤ 0xB7 ∨ 0xBC ≤ op ∧ op ≤ 0xBF ∨
      op = 0xC7 ∨ op = 0xCF ∨ op = 0xE2 ∨ op = 0xE3 ∨ op = 0xE7 ∨ op = 0xEF ∨ 0xF4 ≤ op) →
    decode b = .error (.opcode op)

/-- The words that the spec works out bit by bit: the run of 02_encoding.md, the IADDC pair and the LEA of 06_integer.md, the FPMODE
of 04_sequencer.md, the NOP of R75. -/
def Obligations.WordsWorkedOutInTheSpec : Prop :=
  decode ([0x58C14020, 0x0181000C, 0x00081000].flatMap wordBytes) =
      .ok (.ffma { d := 0x00A, a := 0x002, p := 0, w1 := 0x0181000C, w2 := 0x00081000, lit := none }, []) ∧
    decode ([0x58017A00, 0x0280000C, 0x00000000].flatMap wordBytes) =
      .ok (.fadd { d := 0x00B, a := 0x1A0, p := 0, w1 := 0x0280000C, w2 := 0, lit := none }, []) ∧
    decode ([0x0A053E44].flatMap wordBytes) = .ok (.iaddBase { d := 0x14, a := 0xF9, m := 0x04 }, []) ∧
    decode ([0x4012400C, 0x0A0B1400, 0x00000000].flatMap wordBytes) =
      .ok (.runendBrc { cond := 1, pred := 2, xf := 0, naw := 3, low := 0, w1 := 0x0A0B1400, w2 := 0 }, []) ∧
    decode ([0x4A814020, 0x03008009, 0x00000000].flatMap wordBytes) =
      .ok (.iaddc { d := 0x00A, a := 0x002, p := 0, w1 := 0x03008009, w2 := 0, lit := none }, []) ∧
    decode ([0x52C15040, 0x016E8048, 0x00000000].flatMap wordBytes) =
      .ok (.lea { d := 0x00A, a := 0x104, p := 0, w1 := 0x016E8048, w2 := 0, lit := none }, []) ∧
    decode ([0x45C00000, 0x00E00040, 0x00000000].flatMap wordBytes) =
      .ok (.fpmode { d := 0, a := 0, p := 0, w1 := 0x00E00040, w2 := 0, lit := none }, []) ∧
    decode ([0x00400000].flatMap wordBytes) = .ok (.nopBase { d := 0, a := 0, m := 0 }, [])

/-! ### The step -/

/-- A step (R79, R131 04_sequencer.md, R78 02_encoding.md): a sub-group that may issue runs the instruction that its fetched words decode
to, and the machine goes on: device time advances by a free value, not beyond an event that it waits for (R248, R254, R449), the event's
argument is cleared, the world may send events and strike storage or a write on its way (R38 to R40 01_machine.md), which marks what is
lost, and the next turn is chosen; nothing else changes. An event runs with what it concerns. Words that decode to nothing, or that cannot
be fetched, make the sub-group take its trap at them; the pc stays. Without a path to its code or to the frame area that it uses it waits
(R449 20_links.md). It rests on the model's readings: logs 1, 2, 10, 18, 52, 53 and 56. -/
def Obligations.StepRunsTheDecodedInstruction : Prop :=
  (∀ (s : State) (r : SubRef) (c : Cx) (ws : List Word) (i : Instr) (rest : List Byte), s.turn = .issue r →
     ({ s with cur := r } : State).issuer = some c → ({ s with cur := r } : State).fetch c.l c.g.core c.u.pc.toNat = .ok ws →
     decode (ws.flatMap wordBytes) = .ok (i, rest) →
     (({ s with cur := r } : State).framesWait c ws = false → step s = (match exec i { s with cur := r } with
       | .next t => .next (t.proceed s.since)
       | .fault e => .fault e
       | .refused e => .refused e)) ∧
     (({ s with cur := r } : State).framesWait c ws = true → step s = .next (State.proceed ({ s with cur := r } : State).tick s.since)) ∧
     ∀ t : State, let k := t.proceed s.since
       k = { t with time := k.time, arg := .none, turn := k.turn, inputs := k.inputs, since := k.since, lineMarks := k.lineMarks,
                    tarnFailing := k.tarnFailing, writes := k.writes, guests := k.guests, l1 := k.l1, groups := k.groups, blocks := k.blocks } ∧
       t.time ≤ k.time ∧ (∀ n ∈ t.limits, k.time ≤ max t.time n) ∧
       (∀ n, let m := k.lineMarks.get LineMark.none n
         let was := t.lineMarks.get LineMark.none n
         m = was ∨ was.failing = false ∧ m = { was with failing := true, reported := false, ecc := m.ecc }) ∧
       (∀ n, n ∈ t.tarnFailing → n ∈ k.tarnFailing) ∧
       (∀ w : HomeWrite, w ∈ k.writes → ∃ o ∈ t.writes, w = { o with failing := w.failing } ∧ (o.failing = true → w.failing = true)) ∧
       (∀ x ∈ k.guests, ∃ o ∈ t.guests, x = { o with mark := x.mark }) ∧ (∀ x ∈ k.l1, ∃ o ∈ t.l1, x = { o with mark := x.mark }) ∧
       (∀ id g, t.group? id = some g → ∃ g', k.group? id = some g' ∧
         g' = { g with vmarks := g'.vmarks, accMarks := g'.accMarks, subs := g'.subs } ∧
         ∀ n u, g.sub? n = some u → ∃ u', g'.sub? n = some u' ∧ u' = { u with umarks := u'.umarks }) ∧
       ∀ id n b, t.block? id n = some b → ∃ b', k.block? id n = some b' ∧ b' = { b with struck := b'.struck }) ∧
  (∀ (s : State) (i : Instr) (a : EventArg), s.turn = .event i a →
     step s = (match exec i { s with arg := a, since := [] } with
       | .next t => .next (t.proceed s.since)
       | .fault e => .fault e
       | .refused e => .refused e)) ∧
  (∀ (s : State) (r : SubRef) (c : Cx), s.turn = .issue r → ({ s with cur := r } : State).issuer = some c →
     (∀ ws e, ({ s with cur := r } : State).fetch c.l c.g.core c.u.pc.toNat = .ok ws → decode (ws.flatMap wordBytes) = .error e →
       ∃ t : TrapReq, t.cause = 0x01 ∧ t.addr = 0 ∧ t.msk = [] ∧ ∃ n,
         step s = .next (State.proceed (({ s with cur := r } : State).tick.takeTrap c.g c.r t c.u.pc n false) s.since)) ∧
     (∀ va cause detail, ({ s with cur := r } : State).fetch c.l c.g.core c.u.pc.toNat = .error (va, cause, detail) →
       (cause = 0 → step s = .next (State.proceed ({ s with cur := r } : State).tick s.since)) ∧
       (cause ≠ 0 → ∃ t : TrapReq, t.cause = cause ∧ t.detail = detail ∧ t.addr = va ∧ t.msk = [] ∧ ∃ n, step s = .next (State.proceed
         ((({ s with cur := r } : State).tick.noteFault t).takeTrap c.g c.r t c.u.pc n false) s.since))))

/-- The invariant: what has the turn can move. Every step keeps it. The turn is the model's own (log 1). -/
def Obligations.TurnStandsAfterEveryStep : Prop :=
  ∀ s t : State, s.TurnStands → step s = .next t → t.TurnStands

/-- A machine whose turn stands never refuses a step: it goes on, or the world outside has asked for an address that the map
reserves.
It rests on the model's readings: logs 1, 52, 56 and 57. -/
def Obligations.StepIsNeverRefused : Prop :=
  ∀ s : State, s.TurnStands → (∃ t, step s = .next t) ∨ ∃ a, step s = .fault (.noSuchAddress a)

/-- The invariant: memory keeps its canonical form, addresses strictly rising and no byte listed that reads as an unlisted one does (log 5). Every
step keeps it. -/
def Obligations.MemoryKeepsItsForm : Prop :=
  ∀ s t : State, Memory.wf s.mem = true → step s = .next t → Memory.wf t.mem = true

/-- Reset (R454 21_management.md): no launch, group or queue entry exists, memory holds nothing, device time is 0, the trap registers
do not exist before a group does, and the first thing to move is bring-up, whose turn stands: the invariant of TurnStandsAfterEveryStep holds. What
the spec gives no value for is logs 5 to 7. -/
def Obligations.ResetLeavesNothingRunning : Prop :=
  (State.reset.launches = [] ∧ State.reset.groups = [] ∧ State.reset.blocks = [] ∧ State.reset.ops = [] ∧ State.reset.time = 0 ∧
     State.reset.mem = [] ∧ State.reset.astbase = 0 ∧ State.reset.bringup = .waiting ∧
     Memory.wf State.reset.mem = true ∧ ∃ a, State.reset.turn = .event .powerOnBringup a) ∧
  (State.reset.TurnStands)

/-! ### Traps -/

/-- What a trap records (R135 04_sequencer.md): the fields of TRAPINFO, TRAPPC, TRAPADDR, the marked threads in TRAPMSK, and that the
sub-group stops. Every trap replaces all of them. -/
def Obligations.TrapWritesItsRegisters : Prop :=
  ∀ (s : State) (g : Group) (u : SubGroup) (r : SubRef) (t : TrapReq) (pc : Dword) (n : Nat) (resume : Bool),
    s.group? r.grp = some g → g.sub? r.sub = some u → t.cause < 2 ^ 8 → t.detail < 2 ^ 8 → n < 32 → r.sub < 8 → t.code < 2 ^ 32 →
    t.addr < 2 ^ 64 → ∃ g' u', (s.takeTrap g r t pc n resume).group? r.grp = some g' ∧ g'.sub? r.sub = some u' ∧
      u' = { u with phase := .trapped } ∧ g'.trapFlags = t.raised ∧ g'.trap.pc = pc ∧ g'.trap.addr.toNat = t.addr ∧
      bits g'.trap.info 7 0 = t.cause ∧ bits g'.trap.info 15 8 = t.detail ∧ bits g'.trap.info 20 16 = n ∧
      g'.trap.info.getLsbD 21 = resume ∧ bits g'.trap.info 23 22 = 0 ∧ bits g'.trap.info 26 24 = r.sub ∧
      bits g'.trap.info 31 27 = 0 ∧ bits g'.trap.info 63 32 = t.code ∧
      ∀ b, b < 64 → (g'.trap.msk0.getLsbD b = t.msk.contains b ∧ g'.trap.msk1.getLsbD b = t.msk.contains (64 + b) ∧
        g'.trap.msk2.getLsbD b = t.msk.contains (128 + b) ∧ g'.trap.msk3.getLsbD b = t.msk.contains (192 + b))

/-- A trap changes nothing else: memory, every other group, every other sub-group, and of its own group only the registers of R135,
the trap flags and the sub-group's phase. It stops the launch (R138): the launch waits for its groups to stop, its completion record will name the
trap (R416), and no sub-group of it starts a run any more. Launches that have stopped before keep what they report.
It rests on the model's readings: log 30. -/
def Obligations.TrapFrame : Prop :=
  (∀ (s : State) (g : Group) (r : SubRef) (t : TrapReq) (pc : Dword) (n : Nat) (resume : Bool), s.group? r.grp = some g →
     let k := s.takeTrap g r t pc n resume
     k = { s with groups := k.groups, launches := k.launches } ∧ (∀ a, k.byteAt a = s.byteAt a) ∧
       (∀ id, id ≠ r.grp → k.group? id = s.group? id) ∧
       ∃ g', k.group? r.grp = some g' ∧ g' = { g with trap := g'.trap, trapFlags := g'.trapFlags, subs := g'.subs } ∧
         ∀ m, m ≠ r.sub → g'.sub? m = g.sub? m) ∧
  (∀ (s : State) (g : Group) (l : Launch) (r : SubRef) (t : TrapReq) (pc : Dword) (n : Nat) (resume : Bool),
     s.launch? g.launch = some l →
     (s.takeTrap g r t pc n resume).launch? g.launch = some (if l.phase = .active then
       { l with phase := .stopping, trapCause := t.cause, trapBlock := if g.spawned then 0 else g.block, trapGroup := g.index } else l) ∧
     (l.phase = .active → ∀ (o : Group) (u : SubGroup), o.launch = g.launch → u.ndone = 0 →
       (s.takeTrap g r t pc n resume).canIssue o u = false))

/-- A fault has no effect (R133): whatever the instruction, where its encoding is none (R78) or its effect is a fault, the next state
is the one before it with the trap taken at it; registers, window, flags, counters and memory stay, and the resume point is the
instruction. A failing line of a page table is reported (R39 01_machine.md). So an encoding of ports V, I and F that breaks a row of R78 raises the illegal-instruction trap with the DETAIL of a failing row,
whatever its guard.
It rests on the model's readings: logs 8 and 54. -/
def Obligations.FaultHasNoEffect : Prop :=
  (∀ (s : State) (c : Cx) (words : Nat) (fails : Cx → List Nat) (mark : Cx → Option TrapReq) (eff : Cx → State → Res) (t : TrapReq),
     s.issuer = some c →
     (fails c ≠ [] → ∃ d, d ∈ fails c ∧ s.issue words fails mark eff =
       .next (s.tick.takeTrap c.g c.r { cause := 0x01, detail := d } c.u.pc c.u.ndone false)) ∧
     (fails c = [] → mark c = none → eff c s.tick = .fault t → t.cause ≠ 0 →
       s.issue words fails mark eff = .next ((s.tick.noteFault t).takeTrap c.g c.r t c.u.pc c.u.ndone false))) ∧
  (∀ (s : State) (t : TrapReq), let k := s.noteFault t
     k.groups = s.groups ∧ (∀ a, k.byteAt a = s.byteAt a) ∧ k.launches = s.launches ∧ (t.cause ≠ 0x07 → k = s)) ∧
  (∀ (s : State) (i : Instr) (c : Cx) (words : Nat) (x : Ext) (f : Form), portForm i = some (words, x, f) → s.issuer = some c →
     formFails x f ++ dynFails c x f ≠ [] →
     ∃ d, d ∈ formFails x f ++ dynFails c x f ∧
       exec i s = .next (s.tick.takeTrap c.g c.r { cause := 0x01, detail := d } c.u.pc c.u.ndone false))

/-- Every instruction of ports V, I and F that is ready completes: its sub-group stands behind it, memory and every other group are as
they were, and of its own group only what PortFrame names changes. -/
def Obligations.PortInstructionsComplete : Prop :=
  ∀ (s : State) (i : Instr) (c : Cx) (words : Nat) (x : Ext) (f : Form), portForm i = some (words, x, f) → Ready s c x f →
    ∃ t g u, exec i s = .next t ∧ t = { s with groups := t.groups, launches := t.launches, stamp := s.stamp + 1 } ∧
      (∀ a, t.byteAt a = s.byteAt a) ∧ (∀ id, id ≠ c.r.grp → t.group? id = s.group? id) ∧
      t.group? c.r.grp = some g ∧ g.sub? c.r.sub = some u ∧ PortFrame c words g u ∧
      (u.phase = .running → t.launches = s.launches)

/-! ### Integers -/

/-- IADD, ISUB and IADD3 (R164 06_integer.md): the sum or difference wrapped to the type, or with SAT brought into its range. IADDC and ISUBB
(R165): the sum with the carry in is the result and 2^w for a carry out; the difference with the borrow in is the result less 2^w for a borrow out.
The carry in is predicate CI under CIN, the carry out goes to predicate CO. -/
def Obligations.SumsAndCarries : Prop :=
  (∀ (s : State) (c : Cx) (x : Ext) (i : Instr) (words : Nat),
     (AsTwo .iadd .iaddBase x i words → Ready s c x (formAddSub x) → ComputesInt s i c x words x.ty.wide fun t r =>
       let v := c.intA x t + c.intB x t
       Wraps x.ty.width (if x.bit1 5 then clampInto x.ty v else v) r) ∧
     (AsTwo .isub .isubBase x i words → Ready s c x (formAddSub x) → ComputesInt s i c x words x.ty.wide fun t r =>
       let v := c.intA x t - c.intB x t
       Wraps x.ty.width (if x.bit1 5 then clampInto x.ty v else v) r) ∧
     (AsExt .iadd3 x i words → Ready s c x (formIadd3 x) → ComputesInt s i c x words x.ty.wide fun t r =>
       Wraps x.ty.width (c.intA x t + c.intB x t + c.intC x t) r)) ∧
  (∀ (s : State) (c : Cx) (x : Ext), Ready s c x (formCarry x) →
     let cin := fun t : Nat => if x.bit1 14 && c.g.predBit t (bits x.w1 22 19) then (1 : Int) else 0
     let ends := fun (i : Instr) (P : Nat → Dword → Bool → Prop) => ∃ (f : Nat → Dword) (out : Nat → Bool) (k : State),
       exec i s = .next (k.modGroup c.r.grp fun g => g.putPred (bits x.w1 18 15) ((c.threads x.p).map fun t => (t, out t))) ∧
       Computed s k c x x.words x.ty.wide (fun t => (f t, 0)) ∧ ∀ t, (f t).toNat < 2 ^ x.ty.width ∧ P t (f t) (out t)
     (ends (.iaddc x) fun t r o => c.intA x t + c.intB x t + cin t = r.toNat + if o then (2 ^ x.ty.width : Nat) else 0) ∧
     ends (.isubb x) fun t r o => c.intA x t - c.intB x t - cin t = r.toNat - if o then ((2 ^ x.ty.width : Nat) : Int) else 0)

/-- IMUL, IMULH, IMAD, IMADW (R166 06_integer.md): the low and the high half of the product, and the product plus C. IDIV and IREM (R167): the
quotient toward zero and the remainder with the sign of the dividend; a divisor of zero gives all ones and the dividend; the one overflow gives the
least value and 0. -/
def Obligations.ProductsAndQuotients : Prop :=
  (∀ (s : State) (c : Cx) (x : Ext) (i : Instr) (words : Nat),
     (AsTwo .imul .imulBase x i words → Ready s c x (formMul x) → ComputesInt s i c x words x.ty.wide fun t r =>
       Wraps x.ty.width (c.intA x t * c.intB x t) r) ∧
     (AsExt .imulh x i words → Ready s c x (formMul x) → ComputesInt s i c x words x.ty.wide fun t r =>
       ∃ hi lo : Int, c.intA x t * c.intB x t = hi * (2 ^ x.ty.width : Nat) + lo ∧ 0 ≤ lo ∧ lo < (2 ^ x.ty.width : Nat) ∧
         Wraps x.ty.width hi r) ∧
     (AsExt .imad x i words → Ready s c x (formImad x) → ComputesInt s i c x words x.ty.wide fun t r =>
       Wraps x.ty.width (c.intA x t * c.intB x t + c.intC x t) r) ∧
     (AsExt .imadw x i words → Ready s c x (formImadw x) → ComputesInt s i c x words true fun t r =>
       Wraps 64 (c.intA x t * c.intB x t + (c.src x .C true .int t).toNat) r)) ∧
  (∀ (s : State) (c : Cx) (x : Ext), Ready s c x (formMul x) →
     (ComputesInt s (.idiv x) c x x.words x.ty.wide fun t r =>
       (c.intB x t = 0 → Wraps x.ty.width (-1) r) ∧
       (x.ty.signed = true → c.intA x t = leastOf x.ty → c.intB x t = -1 → Wraps x.ty.width (leastOf x.ty) r) ∧
       (c.intB x t ≠ 0 → ∃ q m : Int, c.intA x t = q * c.intB x t + m ∧ m.natAbs < (c.intB x t).natAbs ∧ 0 ≤ c.intA x t * m ∧
         Wraps x.ty.width q r)) ∧
     ComputesInt s (.irem x) c x x.words x.ty.wide fun t r =>
       (c.intB x t = 0 → Wraps x.ty.width (c.intA x t) r) ∧
       (c.intB x t ≠ 0 → ∃ q m : Int, c.intA x t = q * c.intB x t + m ∧ m.natAbs < (c.intB x t).natAbs ∧ 0 ≤ c.intA x t * m ∧
         Wraps x.ty.width m r))

/-- IMIN, IMAX, IABS, INEG, ISAT (R168, R169 06_integer.md). -/
def Obligations.IntegerSelectionsAndSigns : Prop :=
  ∀ (s : State) (c : Cx) (x : Ext) (i : Instr) (words : Nat),
    (AsTwo .imin .iminBase x i words → Ready s c x (formMul x) → ComputesInt s i c x words x.ty.wide fun t r =>
      ∃ v, (v = c.intA x t ∨ v = c.intB x t) ∧ v ≤ c.intA x t ∧ v ≤ c.intB x t ∧ Wraps x.ty.width v r) ∧
    (AsTwo .imax .imaxBase x i words → Ready s c x (formMul x) → ComputesInt s i c x words x.ty.wide fun t r =>
      ∃ v, (v = c.intA x t ∨ v = c.intB x t) ∧ c.intA x t ≤ v ∧ c.intB x t ≤ v ∧ Wraps x.ty.width v r) ∧
    (AsOne .iabs .iabsBase x i words → Ready s c x (formSign x) → ComputesInt s i c x words x.ty.wide fun t r =>
      ∃ v, (v = c.intA x t ∨ v = -c.intA x t) ∧ 0 ≤ v ∧ Wraps x.ty.width (if x.bit1 5 then clampInto x.ty v else v) r) ∧
    (AsOne .ineg .inegBase x i words → Ready s c x (formSign x) → ComputesInt s i c x words x.ty.wide fun t r =>
      let v := -c.intA x t
      Wraps x.ty.width (if x.bit1 5 then clampInto x.ty v else v) r) ∧
    (AsExt .isat x i words → Ready s c x (formIsat x) → ComputesInt s i c x words x.ty.wide fun t r =>
      Wraps x.ty.width (clampInto x.ty2 (c.intA x t)) r)

/-- AND, OR, XOR, ANDN, NOT, BREV, MOV, MOVI, ISEL (R170, R173, R175, R176 06_integer.md), bit by bit. SHL, SHR, SAR, ROTL (R171), bit by bit;
an amount of the width or more shifts every bit out, and a rotation takes it modulo the width. -/
def Obligations.BitsAndShifts : Prop :=
  (∀ (s : State) (c : Cx) (x : Ext) (i : Instr) (words : Nat),
     let a := fun t => c.src x .A x.ty.wide .int t
     let b := fun t => c.src x .B x.ty.wide .int t
     let w := x.ty.width
     (AsTwo .and .andBase x i words → Ready s c x (formBits2 x) → ComputesInt s i c x words x.ty.wide fun t r =>
       BitsOf w (fun k => (a t).getLsbD k && (b t).getLsbD k) r) ∧
     (AsTwo .or .orBase x i words → Ready s c x (formBits2 x) → ComputesInt s i c x words x.ty.wide fun t r =>
       BitsOf w (fun k => (a t).getLsbD k || (b t).getLsbD k) r) ∧
     (AsTwo .xor .xorBase x i words → Ready s c x (formBits2 x) → ComputesInt s i c x words x.ty.wide fun t r =>
       BitsOf w (fun k => (a t).getLsbD k != (b t).getLsbD k) r) ∧
     (AsTwo .andn .andnBase x i words → Ready s c x (formBits2 x) → ComputesInt s i c x words x.ty.wide fun t r =>
       BitsOf w (fun k => (a t).getLsbD k && !(b t).getLsbD k) r) ∧
     (AsOne .not .notBase x i words → Ready s c x (formBits1 x) → ComputesInt s i c x words x.ty.wide fun t r =>
       BitsOf w (fun k => !(a t).getLsbD k) r) ∧
     (AsOne .brev .brevBase x i words → Ready s c x (formBits1 x) → ComputesInt s i c x words x.ty.wide fun t r =>
       BitsOf w (fun k => (a t).getLsbD (w - 1 - k)) r) ∧
     (AsOne .mov .movBase x i words → Ready s c x (formBits1 x) → ComputesInt s i c x words x.ty.wide fun t r =>
       BitsOf w (fun k => (a t).getLsbD k) r) ∧
     (AsExt .movi x i words → Ready s c x (formMovi x) → ComputesInt s i c x words x.ty.wide fun _ r =>
       ∀ v, x.lit = some v → BitsOf w (fun k => v.getLsbD k) r) ∧
     (AsExt .isel x i words → Ready s c x (formIsel x) → ComputesInt s i c x words x.ty.wide fun t r =>
       BitsOf w (fun k => if c.g.predBit t (bits x.w1 17 14) = !x.bit1 18 then (a t).getLsbD k else (b t).getLsbD k) r)) ∧
  (∀ (s : State) (c : Cx) (x : Ext) (i : Instr) (words : Nat), Ready s c x (formShift x) →
     let a := fun t => c.src x .A x.ty.wide .int t
     let n := fun t => (c.src x .B false .int t).toNat
     let w := x.ty.width
     (AsTwo .shl .shlBase x i words → ComputesInt s i c x words x.ty.wide fun t r =>
       BitsOf w (fun k => decide (n t ≤ k) && (a t).getLsbD (k - n t)) r) ∧
     (AsTwo .shr .shrBase x i words → ComputesInt s i c x words x.ty.wide fun t r =>
       BitsOf w (fun k => decide (k + n t < w) && (a t).getLsbD (k + n t)) r) ∧
     (AsTwo .sar .sarBase x i words → ComputesInt s i c x words x.ty.wide fun t r =>
       BitsOf w (fun k => (a t).getLsbD (min (k + n t) (w - 1))) r) ∧
     (AsTwo .rotl .rotlBase x i words → ComputesInt s i c x words x.ty.wide fun t r =>
       BitsOf w (fun k => (a t).getLsbD ((k + w - n t % w) % w)) r))

/-- BFX, BFI, POPC, CLZ, CTZ (R172, R173 06_integer.md): the field from POS of the length that fits below the width, extended by its
highest bit for a signed type, or laid over B; and the counts. -/
def Obligations.FieldsAndCounts : Prop :=
  ∀ (s : State) (c : Cx) (x : Ext) (i : Instr) (words : Nat),
    let a := fun t => c.src x .A x.ty.wide .int t
    let w := x.ty.width
    let pos := fun (d : Dword) => bits d 7 0
    let len := fun (d : Dword) => if w ≤ pos d then 0 else min (bits d 15 8) (w - pos d)
    (AsExt .bfx x i words → Ready s c x (formBfx x) → ComputesInt s i c x words x.ty.wide fun t r =>
      let d := c.src x .B false .int t
      BitsOf w (fun k => if k < len d then (a t).getLsbD (pos d + k)
        else x.ty.signed && decide (len d ≠ 0) && (a t).getLsbD (pos d + len d - 1)) r) ∧
    (AsExt .bfi x i words → Ready s c x (formBfi x) → ComputesInt s i c x words x.ty.wide fun t r =>
      let d := c.src x .C false .int t
      BitsOf w (fun k => if pos d ≤ k ∧ k < pos d + len d then (a t).getLsbD (k - pos d)
        else (c.src x .B x.ty.wide .int t).getLsbD k) r) ∧
    (AsOne .popc .popcBase x i words → Ready s c x (formCount x) → ComputesInt s i c x words false fun t r =>
      r.toNat = ((List.range w).filter fun k => (a t).getLsbD k).length) ∧
    (AsOne .clz .clzBase x i words → Ready s c x (formCount x) → ComputesInt s i c x words false fun t r =>
      r.toNat ≤ w ∧ (∀ k, k < r.toNat → (a t).getLsbD (w - 1 - k) = false) ∧
        (r.toNat < w → (a t).getLsbD (w - 1 - r.toNat) = true)) ∧
    (AsOne .ctz .ctzBase x i words → Ready s c x (formCount x) → ComputesInt s i c x words false fun t r =>
      r.toNat ≤ w ∧ (∀ k, k < r.toNat → (a t).getLsbD k = false) ∧ (r.toNat < w → (a t).getLsbD r.toNat = true))

/-- LEA, IDOT4, CVTI (R177 to R179 06_integer.md): base plus scaled index plus offset; the sum of the products of packed elements and C,
saturated under SAT; a value brought into a type and extended to its register. -/
def Obligations.AddressesDotProductsAndWidths : Prop :=
  ∀ (s : State) (c : Cx) (x : Ext),
    (Ready s c x (formLea x) → ComputesInt s (.lea x) c x x.words true fun t r =>
      Wraps 64 ((c.src x .A true .int t).toNat + intTy x.ty (c.src x .B false .int t).toNat * (2 ^ x.subBits 7 5 : Nat) +
        (BitVec.ofNat 32 (c.src x .C false .int t).toNat).toInt) r) ∧
    (Ready s c x (formIdot4 x) → ComputesInt s (.idot4 x) c x x.words false fun t r =>
      let e := fun (ty : DType) (sl : Slot) (j : Nat) =>
        intTy ty ((c.src x sl false .int t).toNat / 2 ^ (x.ty.width * j) % 2 ^ x.ty.width)
      let v := ((List.range (32 / x.ty.width)).map fun j => e x.ty .A j * e x.ty2 .B j).sum +
        (BitVec.ofNat 32 (c.src x .C false .int t).toNat).toInt
      Wraps 32 (if x.bit1 10 then clampInto .i32 v else v) r) ∧
    (Ready s c x (formCvti x) → ComputesInt s (.cvti x) c x x.words x.ty.wide fun t r =>
      let v := intTy x.ty2 (c.src x .A x.ty2.wide .int t).toNat
      ∃ n : Int, leastOf x.ty ≤ n ∧ n ≤ greatestOf x.ty ∧ Wraps (if x.ty.wide then 64 else 32) n r ∧
        if x.bit1 10 then n = clampInto x.ty v else (n - v) % ((2 ^ x.ty.width : Nat) : Int) = 0)

/-! ### Floating point -/

/-- The one rounding of the machine (R189 07_formats.md): to t + 1 significant bits in the mode, to infinity or the largest value above
the format, on the grid of the subnormals below its smallest normal, with the flags of each case; FZO flushes a subnormal result. -/
def Obligations.RoundingOfExactValues : Prop :=
  ∀ (ty : DType) (mode : Rnd) (fzo : Bool), ty.isFloat = true →
    let f := fmtOf ty
    (∀ sig, round f mode fzo (.nan sig) = (f.nan, 0)) ∧ (∀ s, round f mode fzo (.inf s) = (f.inf s, 0)) ∧
    (∀ s d, 0 < d → (round f mode fzo (.rat s 0 d)).2 = 0 ∧ Stands f (round f mode fzo (.rat s 0 d)).1 s 0 1) ∧
    ∀ s n d, 0 < n → 0 < d → ∃ g k, Leads n d g ∧ RoundsTo mode s n d (g - f.t) k ∧
      let r := (round f mode fzo (.rat s n d)).1
      let fl := (round f mode fzo (.rat s n d)).2
      let u := pow2 (g - f.t)
      let v := pow2 (f.emin - f.t)
      let above := topUnits f * (pow2 (topExp f)).1 * u.2 < k * u.1 * (pow2 (topExp f)).2
      let tiny := k * u.1 * (pow2 f.emin).2 < (pow2 f.emin).1 * u.2
      (above → fl = flagOF ||| flagNX ∧ r = if f.e4m3 = true ∨ mode = .rne ∨ mode = .rna ∨ mode = .rup ∧ s = false ∨ mode = .rdn ∧ s = true
        then f.inf s else f.largest s) ∧
      (¬above → tiny → ∃ j, RoundsTo mode s n d (f.emin - f.t) j ∧
        (fzo = true ∧ 0 < j ∧ j < 2 ^ f.t → r = f.signBit s ∧ fl = flagUF ||| flagNX) ∧
        (¬(fzo = true ∧ 0 < j ∧ j < 2 ^ f.t) → Stands f r s (j * v.1) v.2 ∧ (IsExactly n d (f.emin - f.t) j → fl = 0) ∧
          (¬IsExactly n d (f.emin - f.t) j → fl = flagUF ||| flagNX))) ∧
      (¬above → ¬tiny → Stands f r s (k * u.1) u.2 ∧ (IsExactly n d (g - f.t) k → fl = 0) ∧
        (¬IsExactly n d (g - f.t) k → fl = flagNX))

/-- The helper fsum of R206 (08_float.md) over any number of terms: the one rounding of the exact sum of finite terms, the rules of a zero
sum, an infinity among the terms, and NaN with NV for infinities of both signs. FADD, FSUB, FMUL, FFMA and their packed forms (R209, R220, R221 08_float.md), by
the helpers nanres and fsum of R206: one rounding of the exact result, in FFMA and HDOT2 too. -/
def Obligations.FloatingPointArithmetic : Prop :=
  (∀ (f : Fmt) (mode : Rnd) (fzo : Bool),
     (∀ l : List Ex, (.inf false ∈ l → .inf true ∈ l → fsum l f mode fzo = (f.nan, flagNV)) ∧
       ∀ s, .inf s ∈ l → .inf (!s) ∉ l → fsum l f mode fzo = (f.inf s, 0)) ∧
     (∀ s n d, fsum [.rat s n d] f mode fzo = round f mode fzo (.rat s n d)) ∧
     ∀ l : List Ex, 2 ≤ l.length → (∀ a ∈ l, ∃ s n d, a = .rat s n d ∧ 0 < d) →
       let v := exactSum l
       (v.1 ≠ 0 → fsum l f mode fzo = round f mode fzo (.rat (decide (v.1 < 0)) v.1.natAbs v.2)) ∧
       (v.1 = 0 → fsum l f mode fzo = (f.signBit (l.all Ex.neg || mode = .rdn), 0))) ∧
  (∀ (s : State) (c : Cx) (x : Ext) (i : Instr) (words : Nat),
     let f := fmtOf x.ty
     let md := c.mode x.rnd
     let ends := fun (wide : Bool) (P : Nat → Nat × Flags → Prop) =>
       ∃ r : Nat → Nat × Flags, Computes s i c x words wide (fun t => (BitVec.ofNat 64 (r t).1, (r t).2)) ∧ ∀ t, P t (r t)
     let anyNan := fun (l : List Ex) => l.any Ex.isNan = true
     let sum := fun (f : Fmt) (a b : Ex) (r : Nat × Flags) =>
       (anyNan [a, b] → r = nanres f [a, b] false) ∧ (¬anyNan [a, b] → r = fsum [a, b] f md c.fzo)
     let product := fun (f : Fmt) (a b : Ex) (r : Nat × Flags) =>
       (anyNan [a, b] → r = nanres f [a, b] false) ∧ (¬anyNan [a, b] → infZero a b = true → r = (f.nan, flagNV)) ∧
       ∀ p, mulEx a b = some p → r = fsum [p] f md c.fzo
     let fused := fun (f : Fmt) (a b k : Ex) (r : Nat × Flags) =>
       (anyNan [a, b, k] → r = nanres f [a, b, k] (infZero a b)) ∧
       (¬anyNan [a, b, k] → infZero a b = true → r = (f.nan, flagNV)) ∧
       ∀ p, ¬anyNan [k] → mulEx a b = some p → r = fsum [p, k] f md c.fzo
     let packed := fun (P : (Slot → Ex) → Nat × Flags → Prop) (t : Nat) (r : Nat × Flags) =>
       ∃ r0 r1 : Nat × Flags, r = (r0.1 + r1.1 * 2 ^ 16, r0.2 ||| r1.2) ∧ P (fun k => c.half x k x.ty f t 0) r0 ∧
         P (fun k => c.half x k x.ty f t 1) r1
     (AsTwo .fadd .faddBase x i words → Ready s c x (formArith x) → ends x.ty.wide fun t => sum f (c.fin x .A t) (c.fin x .B t)) ∧
     (AsTwo .fsub .fsubBase x i words → Ready s c x (formArith x) → ends x.ty.wide fun t => sum f (c.fin x .A t) (c.fin x .B t).flip) ∧
     (AsTwo .fmul .fmulBase x i words → Ready s c x (formArith x) → ends x.ty.wide fun t => product f (c.fin x .A t) (c.fin x .B t)) ∧
     (AsExt .ffma x i words → Ready s c x (formFfma x) → ends x.ty.wide fun t => fused f (c.fin x .A t) (c.fin x .B t) (c.fin x .C t)) ∧
     (AsTwo .hadd2 .hadd2Base x i words → Ready s c x (formHalf2 x) → ends false (packed fun v => sum f (v .A) (v .B))) ∧
     (AsTwo .hmul2 .hmul2Base x i words → Ready s c x (formHalf2 x) → ends false (packed fun v => product f (v .A) (v .B))) ∧
     (AsExt .hfma2 x i words → Ready s c x (formHfma2 x) → ends false (packed fun v => fused f (v .A) (v .B) (v .C))) ∧
     (AsExt .hdot2 x i words → Ready s c x (formHdot2 x) → ends false fun t r =>
       let g := fmtOf .f32
       let a := fun j => c.half x .A x.ty2 g t j
       let b := fun j => c.half x .B x.ty2 g t j
       let k := flushIn c.fzi g (c.flt x .C .f32 t)
       (anyNan [a 0, a 1, b 0, b 1, k] → r = nanres g [a 0, a 1, b 0, b 1, k] (infZero (a 0) (b 0) || infZero (a 1) (b 1))) ∧
       (¬anyNan [a 0, a 1, b 0, b 1, k] → infZero (a 0) (b 0) = true ∨ infZero (a 1) (b 1) = true → r = (g.nan, flagNV)) ∧
       ∀ p q, ¬anyNan [k] → mulEx (a 0) (b 0) = some p → mulEx (a 1) (b 1) = some q → r = fsum [p, q, k] g md c.fzo))

/-- FDIV, FSQRT, FRCP, FRSQ (R210 08_float.md): correctly rounded, with the special cases of the table. A root that is no multiple of
2^-p is rounded as a value between the two multiples around it, with p beyond every bit that a rounding of the format sees: each value
of the format and each midpoint of two of them is a multiple of 2^-p, its least subnormal being 2^(emin - t). -/
def Obligations.DivisionAndRoots : Prop :=
  (∀ ty : DType, ty.isFloat = true → (fmtOf ty).t + 2 ≤ (fmtOf ty).emin + (fmtOf ty).fine) ∧
  ∀ (s : State) (c : Cx) (x : Ext) (i : Instr) (words : Nat),
    let f := fmtOf x.ty
    let rd := round f (c.mode x.rnd) c.fzo
    let ends := fun (P : Nat → Nat × Flags → Prop) =>
      ∃ r : Nat → Nat × Flags, Computes s i c x words x.ty.wide (fun t => (BitVec.ofNat 64 (r t).1, (r t).2)) ∧ ∀ t, P t (r t)
    let nv := (f.nan, flagNV)
    let root := fun (n d : Nat) (r : Nat × Flags) =>
      ∃ m, (m ^ 2 * d = n * 4 ^ f.fine ∧ r = rd (.rat false m (2 ^ f.fine))) ∨
        (m ^ 2 * d < n * 4 ^ f.fine ∧ n * 4 ^ f.fine < (m + 1) ^ 2 * d ∧ r = rd (.rat false (2 * m + 1) (2 ^ (f.fine + 1))))
    (AsExt .fdiv x i words → Ready s c x (formFdiv x) → ends fun t r =>
      let a := c.fin x .A t
      let b := c.fin x .B t
      (a.isNan = true ∨ b.isNan = true → r = nanres f [a, b] false) ∧
      (∀ p q, a = .inf p → b = .inf q → r = nv) ∧
      (∀ p q n d, a = .inf p → b = .rat q n d → r = (f.inf (p != q), 0)) ∧
      (∀ p q n d, a = .rat p n d → b = .inf q → r = (f.signBit (p != q), 0)) ∧
      ∀ p q n d m e, a = .rat p n d → b = .rat q m e →
        (m = 0 → n = 0 → r = nv) ∧ (m = 0 → n ≠ 0 → r = (f.inf (p != q), flagDZ)) ∧ (m ≠ 0 → n = 0 → r = (f.signBit (p != q), 0)) ∧
        (m ≠ 0 → n ≠ 0 → r = rd (.rat (p != q) (n * e) (d * m)))) ∧
    (AsOne .fsqrt .fsqrtBase x i words → Ready s c x (formRound1 x) → ends fun t r =>
      let a := c.fin x .A t
      (a.isNan = true → r = nanres f [a] false) ∧ (a = .inf false → r = (f.inf false, 0)) ∧ (a = .inf true → r = nv) ∧
      (∀ p d, a = .rat p 0 d → r = (f.signBit p, 0)) ∧
      ∀ p n d, a = .rat p n d → n ≠ 0 → 0 < d → (p = true → r = nv) ∧ (p = false → root n d r)) ∧
    (AsOne .frcp .frcpBase x i words → Ready s c x (formRound1 x) → ends fun t r =>
      let a := c.fin x .A t
      (a.isNan = true → r = nanres f [a] false) ∧ (∀ p, a = .inf p → r = (f.signBit p, 0)) ∧
      (∀ p d, a = .rat p 0 d → r = (f.inf p, flagDZ)) ∧ ∀ p n d, a = .rat p n d → n ≠ 0 → r = rd (.rat p d n)) ∧
    (AsOne .frsq .frsqBase x i words → Ready s c x (formRound1 x) → ends fun t r =>
      let a := c.fin x .A t
      (a.isNan = true → r = nanres f [a] false) ∧ (a = .inf false → r = (f.signBit false, 0)) ∧ (a = .inf true → r = nv) ∧
      (∀ p d, a = .rat p 0 d → r = (f.inf p, flagDZ)) ∧
      ∀ p n d, a = .rat p n d → n ≠ 0 → 0 < d → (p = true → r = nv) ∧ (p = false → root d n r))

/-- FMIN, FMAX, FMINM, FMAXM (R211 08_float.md): FMIN and FMAX return the number where one input is a NaN, FMINM and FMAXM the NaN; -0 stands
below +0; nothing is rounded, and NV is the only flag. FABS, FNEG, FCPSGN, FSEL, FCLASS (R212 to R214): they act on bits, NaNs too, and raise no
flag. -/
def Obligations.MinimaSignsAndClasses : Prop :=
  (∀ (s : State) (c : Cx) (x : Ext) (i : Instr) (words : Nat), Ready s c x (formMinMax x) →
     let f := fmtOf x.ty
     let ends := fun (number max : Bool) =>
       ∃ r : Nat → Nat × Flags, Computes s i c x words x.ty.wide (fun t => (BitVec.ofNat 64 (r t).1, (r t).2)) ∧
         ∀ t, Extremum f number max (c.fin x .A t) (c.fin x .B t) (r t)
     (AsTwo .fmin .fminBase x i words → ends true false) ∧ (AsTwo .fmax .fmaxBase x i words → ends true true) ∧
     (AsTwo .fminm .fminmBase x i words → ends false false) ∧ (AsTwo .fmaxm .fmaxmBase x i words → ends false true)) ∧
  (∀ (s : State) (c : Cx) (x : Ext) (i : Instr) (words : Nat),
     let a := fun t => c.src x .A x.ty.wide (.flt x.ty) t
     let b := fun t => c.src x .B x.ty.wide (.flt x.ty) t
     let w := x.ty.width
     let signed := fun (sign : Nat → Bool) (t : Nat) (r : Dword) => BitsOf w (fun k => if k = w - 1 then sign t else (a t).getLsbD k) r
     (AsOne .fabs .fabsBase x i words → Ready s c x (formFsign x) → ComputesInt s i c x words x.ty.wide (signed fun _ => false)) ∧
     (AsOne .fneg .fnegBase x i words → Ready s c x (formFsign x) → ComputesInt s i c x words x.ty.wide
       (signed fun t => !(a t).getLsbD (w - 1))) ∧
     (AsTwo .fcpsgn .fcpsgnBase x i words → Ready s c x (formFcpsgn x) → ComputesInt s i c x words x.ty.wide
       (signed fun t => (b t).getLsbD (w - 1))) ∧
     (AsExt .fsel x i words → Ready s c x (formFsel x) → ComputesInt s i c x words x.ty.wide fun t r =>
       BitsOf w (fun k => if c.g.predBit t (bits x.w1 17 14) = !x.bit1 18 then (a t).getLsbD k else (b t).getLsbD k) r) ∧
     (AsExt .fclass x i words → Ready s c x (formFclass x) → ComputesInt s i c x words false fun t r =>
       let f := fmtOf x.ty
       let v := c.fltBits x .A x.ty t
       let sign := v / 2 ^ (w - 1) % 2
       let e := v / 2 ^ f.t % 2 ^ f.eb
       let frac := v % 2 ^ f.t
       ∃ k, r.toNat = 2 ^ k ∧
         (e = 2 ^ f.eb - 1 → frac ≠ 0 → k = frac / 2 ^ (f.t - 1)) ∧
         (e = 2 ^ f.eb - 1 → frac = 0 → k = if sign = 1 then 2 else 9) ∧
         (0 < e → e < 2 ^ f.eb - 1 → k = if sign = 1 then 3 else 8) ∧
         (e = 0 → frac ≠ 0 → k = if sign = 1 then 4 else 7) ∧
         (e = 0 → frac = 0 → k = if sign = 1 then 5 else 6)))

/-- FRINT, FSCALE, FGEXP, FGMANT, FREM (R216 to R219 08_float.md) on finite values, and on the values that pass or that give NaN. -/
def Obligations.IntegralScaleExponentRemainder : Prop :=
  ∀ (s : State) (c : Cx) (x : Ext) (i : Instr) (words : Nat),
    let f := fmtOf x.ty
    let md := c.mode x.rnd
    let ends := fun (P : Nat → Nat × Flags → Prop) =>
      ∃ r : Nat → Nat × Flags, Computes s i c x words x.ty.wide (fun t => (BitVec.ofNat 64 (r t).1, (r t).2)) ∧ ∀ t, P t (r t)
    (AsExt .frint x i words → Ready s c x (formFrint x) → ends fun t r =>
      let a := c.fin x .A t
      (a.isNan = true → r = nanres f [a] false) ∧ (∀ p, a = .inf p → r = (f.inf p, 0)) ∧
      ∀ p n d, a = .rat p n d → 0 < d → ∃ k, RoundsTo md p n d 0 k ∧ Stands f r.1 p k 1 ∧
        r.2 = if x.bit1 5 && decide (k * d ≠ n) then flagNX else 0) ∧
    (AsExt .fscale x i words → Ready s c x (formFscale x) → ends fun t r =>
      let a := c.flt x .A x.ty t
      let n := (BitVec.ofNat 32 (c.src x .B false .int t).toNat).toInt
      (a.isNan = true → r = nanres f [a] false) ∧ (∀ p, a = .inf p → r = (f.inf p, 0)) ∧
      ∀ p m d, a = .rat p m d →
        let v := Ex.rat p (m * (pow2 n).1) (d * (pow2 n).2)
        (m = 0 → r = (f.signBit p, 0)) ∧
        (m ≠ 0 → c.fzi = true → subnormalIn f 1 1 v = true → r = (f.signBit p, 0)) ∧
        (m ≠ 0 → c.fzi = false ∨ subnormalIn f 1 1 v = false → r = round f md c.fzo v)) ∧
    (AsOne .fgexp .fgexpBase x i words → Ready s c x (formFgexp x) → ends fun t r =>
      let a := c.fin x .A t
      (a.isNan = true → r = nanres f [a] false) ∧ (∀ p, a = .inf p → r = (f.inf false, 0)) ∧
      (∀ p d, a = .rat p 0 d → r = (f.inf true, flagDZ)) ∧
      ∀ p n d, a = .rat p n d → n ≠ 0 → 0 < d → ∃ g, Leads n d g ∧ r.2 = 0 ∧ Stands f r.1 (decide (g < 0)) g.natAbs 1) ∧
    (AsExt .fgmant x i words → Ready s c x (formFgmant x) → ends fun t r =>
      let a := c.fin x .A t
      (a.isNan = true → r = nanres f [a] false) ∧ (∀ p, a = .inf p → r = (f.nan, flagNV)) ∧
      (∀ p d, a = .rat p 0 d → r = (f.signBit p, 0)) ∧
      ∀ p n d, a = .rat p n d → n ≠ 0 → 0 < d → ∃ g, Leads n d g ∧ r.2 = 0 ∧
        Stands f r.1 p (n * (pow2 g).2) (d * (pow2 g).1 * if x.bit1 5 then 2 else 1)) ∧
    (AsExt .frem x i words → Ready s c x (formFrem x) → ends fun t r =>
      let a := c.fin x .A t
      let b := c.fin x .B t
      (a.isNan = true ∨ b.isNan = true → r = nanres f [a, b] false) ∧
      (∀ p, a = .inf p → b.isNan = false → r = (f.nan, flagNV)) ∧
      (∀ p n d q, a = .rat p n d → b = .inf q → r = round f .rne c.fzo (.rat p n d)) ∧
      (∀ p n d q e, a = .rat p n d → b = .rat q 0 e → r = (f.nan, flagNV)) ∧
      ∀ p n d q m e, a = .rat p n d → b = .rat q m e → m ≠ 0 → 0 < d → 0 < e →
        ∃ k, RoundsTo (if x.bit1 5 then .rtz else .rne) false (n * e) (m * d) 0 k ∧
          let rest : Int := (n * e : Nat) - (k * (m * d) : Nat)
          (rest = 0 → r = (f.signBit p, 0)) ∧
          (rest ≠ 0 → r = round f .rne c.fzo (.rat (p != decide (rest < 0)) rest.natAbs (d * e))))

/-- CVTF, CVTFI, CVTIF (R193 to R198 07_formats.md): one rounding from the exact, scaled source; the ranges and flags of R194 and R195. -/
def Obligations.Conversions : Prop :=
  ∀ (s : State) (c : Cx) (x : Ext),
    let f := fmtOf x.ty
    let md := c.mode x.rnd
    let ends := fun (i : Instr) (P : Nat → Nat × Flags → Prop) =>
      ∃ r : Nat → Nat × Flags, Computes s i c x x.words x.ty.wide (fun t => (BitVec.ofNat 64 (r t).1, (r t).2)) ∧ ∀ t, P t (r t)
    (Ready s c x (formCvtf x) → ends (.cvtf x) fun t r =>
      let v := scaled c.fzi f (c.flt x .A x.ty2 t) (c.scale x t)
      ConvertsTo f md c.fzo v.1 v.2 r) ∧
    (Ready s c x (formCvtif x) → ends (.cvtif x) fun t r =>
      let v := scaled c.fzi f (Ex.ofInt (intTy x.ty2 (c.src x .A x.ty2.wide .int t).toNat)) (c.scale x t)
      ConvertsTo f md c.fzo v.1 v.2 r) ∧
    (Ready s c x (formCvtfi x) → ends (.cvtfi x) fun t r =>
      let v := flushIn c.fzi (fmtOf x.ty2) (c.flt x .A x.ty2 t)
      IntegerOf x.ty md v fun n fl => Wraps (if x.ty.wide then 64 else 32) n (BitVec.ofNat 64 r.1) ∧ r.2 = fl)

/-- PACKN, UNPACKN, QCOMP, QEXP (R185, R187, R199, R200 07_formats.md): one element of a packed word, from an integer or from a float, the
others as they were; NEG and ABS of UNPACKN on the element's sign; the line through BASE and STEP; the nearest code, the lowest of the nearest. HMIX and RAND (R227 to R229 09_function.md): the mixing function, and what RAND
draws from it: the high half, all of it, or a value of 24 or 53 bits over 2^24 or 2^53, which lies below 1 (or above 0 with OPEN). -/
def Obligations.PackedElementsAndMixing : Prop :=
  (∀ (s : State) (c : Cx) (x : Ext),
     let f := fmtOf x.ty
     let md := c.mode x.rnd
     let j := bits x.w1 17 14
     let ends := fun (i : Instr) (wide : Bool) (P : Nat → Nat × Flags → Prop) =>
       ∃ r : Nat → Nat × Flags, Computes s i c x x.words wide (fun t => (BitVec.ofNat 64 (r t).1, (r t).2)) ∧ ∀ t, P t (r t)
     (s.issuer = some c → formFails x (formPackn x) = [] → dynFails c x (formPackn x) = [] →
       c.markFault ({ code := x.d, mod := 0, regs := 1 } :: formUses x (formPackn x)) (c.threads x.p) ((formPackn x).dest.isUni x.d) = none →
       c.uniHeld (holdUses x (formPackn x)) = false → c.awaitHeld ({ code := x.d, mod := 0, regs := 1 } :: formUses x (formPackn x)) = false →
       ends (.packn x) false fun t r =>
         let w := x.ty.width
         let fromInt := x.ty2 = .i32 ∨ x.ty2 = .n32
         let n := intTy x.ty2 (c.src x .A false .int t).toNat
         ∃ e : Dword, e.toNat < 2 ^ w ∧
           BitsOf 32 (fun k => if w * j ≤ k ∧ k < w * j + w then e.getLsbD (k - w * j) else (c.ownVal x.d false .int none t).getLsbD k)
             (BitVec.ofNat 64 r.1) ∧
           (fromInt → x.ty ≠ .t2 → Wraps w (clampInto x.ty n) e ∧ r.2 = 0) ∧ (fromInt → x.ty = .t2 → Wraps w n.sign e ∧ r.2 = 0) ∧
           (¬fromInt → let v := scaled c.fzi (if x.ty.isFloat then f else fmtOf x.ty2) (c.flt x .A x.ty2 t) (c.scale x t)
             (x.ty.isFloat = true → ConvertsTo f md c.fzo v.1 v.2 (e.toNat, r.2)) ∧
             (x.ty = .c8 → ∃ u fl, CompressesTo c.l v.1 u fl ∧ e.toNat = (u + 128) % 256 ∧ r.2 = fl ||| v.2) ∧
             (x.ty.isFloat = false → x.ty ≠ .c8 → IntegerOf x.ty md v.1 fun n fl => Wraps w n e ∧ r.2 = fl ||| v.2))) ∧
     (Ready s c x (formUnpackn x) → ends (.unpackn x) x.ty.wide fun t r =>
       let w := x.ty2.width
       let e := (c.src x .A false (if x.ty2.isFloat then .flt x.ty2 else .int) t).toNat / 2 ^ (w * j) % 2 ^ w
       let n : Int := if x.ty2 = .t2 then (if e = 1 then 1 else if e = 3 then -1 else 0) else intTy x.ty2 e
       let nv := if x.ty2 = .t2 ∧ e = 2 then flagNV else 0
       (x.ty = .i32 → Wraps 32 n (BitVec.ofNat 64 r.1) ∧ r.2 = nv) ∧
       (x.ty ≠ .i32 → ∃ a : Ex, (x.ty2.isFloat = true → ∃ e', a = unpack (fmtOf x.ty2) e' ∧ e' < 2 ^ w ∧ ∀ k, k < w →
           e'.testBit k = if k = w - 1 then (!x.abs && e.testBit k) != x.neg else e.testBit k) ∧
         (x.ty2 = .c8 → a = expandU c.l ((e + 128) % 256)) ∧ (x.ty2.isFloat = false → x.ty2 ≠ .c8 → a = Ex.ofInt n) ∧
         let v := scaled c.fzi f a (c.scale x t)
         ConvertsTo f md c.fzo v.1 (v.2 ||| nv) r)) ∧
     (Ready s c x (formQexp x) → ends (.qexp x) x.ty.wide fun t r =>
       let u := ((c.src x .A false .int t).toNat % 256 + 128) % 256
       let cell := c.l.cpnd.get 0 (u / 16)
       ∀ p n d q m e, unpack (fmtOf .bf16) (bits cell 31 16) = .rat p n d → unpack (fmtOf .bf16) (bits cell 15 0) = .rat q m e →
         let num := signedNum p n * e + (u % 16 : Nat) * signedNum q m * d
         r = round f md c.fzo (flushIn c.fzi f (if u % 16 = 0 then .rat p n d else .rat (decide (num < 0)) num.natAbs (d * e)))) ∧
     (Ready s c x (formQcomp x) → ends (.qcomp x) false fun t r =>
       let v := scaled c.fzi (fmtOf x.ty2) (c.flt x .A x.ty2 t) (c.scale x t)
       ∃ (u : Nat) (fl : Flags), CompressesTo c.l v.1 u fl ∧ Wraps 32 ((u : Int) - 128) (BitVec.ofNat 64 r.1) ∧ r.2 = fl ||| v.2)) ∧
  (∀ (s : State) (c : Cx) (x : Ext),
     let mix := fun (k v : Dword) =>
       let z := (v ^^^ k) + 0x6A09E667F3BCC909
       let z := (z ^^^ (z >>> 32)) * 0xBB67AE8584CAA73B
       let z := (z ^^^ (z >>> 29)) * 0x3C6EF372FE94F82B
       z ^^^ (z >>> 32)
     (Ready s c x (formHmix x) → ComputesInt s (.hmix x) c x x.words x.ty.wide fun t r =>
       r.toNat = (mix (c.src x .B true .int t) (c.src x .A x.ty.wide .int t)).toNat % 2 ^ x.ty.width) ∧
     (Ready s c x (formRand x) → ComputesInt s (.rand x) c x x.words x.ty.wide fun t r =>
       let m := if isUni x.d then 0 else t / 32
       let k := c.src x .B true .int t
       let h := (mix (if x.bit1 6 then k ^^^ BitVec.ofNat 64 (m * 2 ^ 56) else k) (c.src x .A true .int t)).toNat
       let o := if x.bit1 5 then 1 else 0
       (x.ty = .n32 → r.toNat = h / 2 ^ 32) ∧ (x.ty = .b64 → r.toNat = h) ∧
       (x.ty = .f32 → Stands (fmtOf .f32) r.toNat false (h / 2 ^ 40 + o) (2 ^ 24)) ∧
       (x.ty = .f64 → Stands (fmtOf .f64) r.toNat false (h / 2 ^ 11 + o) (2 ^ 53))))

/-- The twelve functions at a NaN, at the infinities and zeros, and where R226 (09_function.md) gives the result for every mode; the results
that R225 has as rational numbers: powers of 2, their logarithms, roots, sines and cosines at multiples of 1/2.
It rests on the model's readings: log 13. -/
def Obligations.FunctionsAtTheListedInputs : Prop :=
  let zero := fun (p : Bool) => Ex.rat p 0 1
  let whole := fun (p : Bool) (n : Nat) => Ex.rat p n 1
  let bad := (Ex.nan false, flagNV)
  let rows : List ((Ext → Instr) × (Base → Instr) × (Ex × Flags) × (Ex × Flags) × (Ex × Flags) × (Ex × Flags)) :=
    [(.fexp, .fexpBase, (zero false, 0), (whole false 1, 0), (whole false 1, 0), (.inf false, 0)),
     (.fexp2, .fexp2Base, (zero false, 0), (whole false 1, 0), (whole false 1, 0), (.inf false, 0)),
     (.fexpm1, .fexpm1Base, (whole true 1, 0), (zero true, 0), (zero false, 0), (.inf false, 0)),
     (.flog, .flogBase, bad, (.inf true, flagDZ), (.inf true, flagDZ), (.inf false, 0)),
     (.flog2, .flog2Base, bad, (.inf true, flagDZ), (.inf true, flagDZ), (.inf false, 0)),
     (.flog1p, .flog1pBase, bad, (zero true, 0), (zero false, 0), (.inf false, 0)),
     (.ferf, .ferfBase, (whole true 1, 0), (zero true, 0), (zero false, 0), (whole false 1, 0)),
     (.ferfc, .ferfcBase, (whole false 2, 0), (whole false 1, 0), (whole false 1, 0), (zero false, 0)),
     (.fsinpi, .fsinpiBase, bad, (zero true, 0), (zero false, 0), bad),
     (.fcospi, .fcospiBase, bad, (whole false 1, 0), (whole false 1, 0), bad),
     (.ftanh, .ftanhBase, (whole true 1, 0), (zero true, 0), (zero false, 0), (whole false 1, 0)),
     (.fcbrt, .fcbrtBase, (.inf true, 0), (zero true, 0), (zero false, 0), (.inf false, 0))]
  ∀ (s : State) (c : Cx) (x : Ext) (i : Instr) (words : Nat), Ready s c x (formFn x) →
    let f := fmtOf x.ty
    let ends := fun (P : Ex → Nat × Flags → Prop) =>
      ∃ r : Nat → Nat × Flags, Computes s i c x words x.ty.wide (fun t => (BitVec.ofNat 64 (r t).1, (r t).2)) ∧ ∀ t, P (c.fin x .A t) (r t)
    (∀ k ∈ rows, AsOne k.1 k.2.1 x i words → ends fun a r =>
      (a.isNan = true → r = nanres f [a] false) ∧ (a = .inf true → Reads f r k.2.2.1.1 k.2.2.1.2) ∧
      (∀ d, a = .rat true 0 d → Reads f r k.2.2.2.1.1 k.2.2.2.1.2) ∧ (∀ d, a = .rat false 0 d → Reads f r k.2.2.2.2.1.1 k.2.2.2.2.1.2) ∧
      (a = .inf false → Reads f r k.2.2.2.2.2.1 k.2.2.2.2.2.2)) ∧
    (AsOne .flog .flogBase x i words ∨ AsOne .flog2 .flog2Base x i words → ends fun a r =>
      (∀ n d, a = .rat true n d → n ≠ 0 → r = (f.nan, flagNV)) ∧ (∀ n, a = .rat false n n → n ≠ 0 → Reads f r (zero false) 0)) ∧
    (AsOne .flog1p .flog1pBase x i words → ends fun a r =>
      (∀ n d, a = .rat true n d → d < n → r = (f.nan, flagNV)) ∧ (∀ n, a = .rat true n n → n ≠ 0 → r = (f.inf true, flagDZ))) ∧
    (AsOne .fsinpi .fsinpiBase x i words → ends fun a r =>
      ∀ p n d, a = .rat p (n * d) d → n ≠ 0 → 0 < d → Reads f r (zero p) 0) ∧
    (AsOne .fcospi .fcospiBase x i words → ends fun a r =>
      ∀ p n d, a = .rat p ((2 * n + 1) * d) (2 * d) → 0 < d → Reads f r (zero false) 0) ∧
    (AsOne .fexp2 .fexp2Base x i words → ends fun a r => ∀ p k d, a = .rat p (k * d) d → 0 < d → 0 < k → k ≤ 1200 →
      let v := pow2 (if p then -(k : Int) else k)
      r = round f (c.mode x.rnd) c.fzo (.rat false v.1 v.2)) ∧
    (AsOne .flog2 .flog2Base x i words → ends fun a r => ∀ n d (e : Int), a = .rat false n d → 0 < n → 0 < d → e ≠ 0 →
      n * (pow2 e).2 = d * (pow2 e).1 → Stands f r.1 (decide (e < 0)) e.natAbs 1 ∧ r.2 = 0) ∧
    (AsOne .fcbrt .fcbrtBase x i words → ends fun a r => ∀ p n d, a = .rat p n d → 0 < n → 0 < d → ∃ m,
      (m ^ 3 * d = n * 8 ^ f.fine ∧ r = round f (c.mode x.rnd) c.fzo (.rat p m (2 ^ f.fine))) ∨
      (m ^ 3 * d < n * 8 ^ f.fine ∧ n * 8 ^ f.fine < (m + 1) ^ 3 * d ∧ r = round f (c.mode x.rnd) c.fzo (.rat p (2 * m + 1) (2 ^ (f.fine + 1))))) ∧
    (AsOne .fsinpi .fsinpiBase x i words → ends fun a r => ∀ p k d, a = .rat p ((2 * k + 1) * d) (2 * d) → 0 < d →
      Reads f r (whole (p != decide (k % 2 = 1)) 1) 0) ∧
    (AsOne .fcospi .fcospiBase x i words → ends fun a r => ∀ p k d, a = .rat p (k * d) d → 0 < k → 0 < d →
      Reads f r (whole (decide (k % 2 = 1)) 1) 0)

/-! ### Predicates, masks, system registers -/

/-- ISETP, FSETP, DROPM, PMOV to a predicate, PAND, POR, PXOR, PNOT, PANDN, PFIRST, VOTE (R120 04_sequencer.md, R152 05_router.md, R174
06_integer.md, R215 08_float.md, R230 09_function.md): the predicate of every active thread. -/
def Obligations.PredicateResults : Prop :=
  ∀ (s : State) (c : Cx) (x : Ext),
    let ends := fun (i : Instr) (k : Nat) (P : Nat → Bool → Flags → Prop) =>
      ∃ v : Nat → Bool × Flags, Judges s i c x x.words k v ∧ ∀ t, P t (v t).1 (v t).2
    let plain := fun (i : Instr) (f : Nat → Bool) => ends i (bits x.w1 31 28) fun t b fl => b = f t ∧ fl = 0
    let pa := fun t => c.g.predBit t (bits x.w1 27 24)
    let pb := fun t => c.g.predBit t (bits x.w1 23 20)
    let with' := fun (t : Nat) (r : Bool) =>
      let q := c.g.predBit t (bits x.w1 17 14)
      match x.subBits 9 8 with
      | 0 => r | 1 => r && q | 2 => r || q | _ => r != q
    let mates := fun (t o : Nat) => o / 32 = t / 32 ∧ o % 32 / c.width = t % 32 / c.width ∧ c.active x.p o = true
    (Ready s c x (formIsetp x) → ends (.isetp x) (x.d.toNat % 16) fun t b fl => fl = 0 ∧
      let u := c.intA x t
      let v := c.intB x t
      b = with' t (match x.subBits 7 5 with
        | 0 => decide (u = v) | 1 => decide (u ≠ v) | 2 => decide (u < v) | 3 => decide (u ≤ v) | 4 => decide (v < u) | _ => decide (v ≤ u))) ∧
    (Ready s c x (formFsetp x) → ends (.fsetp x) (x.d.toNat % 16) fun t b fl =>
      let u := c.fin x .A t
      let v := c.fin x .B t
      let un := u.isNan || v.isNan
      let cnd := x.subBits 7 5
      b = with' t (match cnd with
        | 0 => !un && !ltEx u v && !ltEx v u | 1 => un || ltEx u v || ltEx v u | 2 => !un && ltEx u v | 3 => !un && !ltEx v u
        | 4 => !un && ltEx v u | 5 => !un && !ltEx u v | 6 => !un | _ => un) ∧
      fl = if (u.isSig || v.isSig || (un && decide (2 ≤ cnd) && decide (cnd ≤ 5) && !x.bit1 10)) = true then flagNV else 0) ∧
    (Ready s c x (formDropm x) → ends (.dropm x) (x.d.toNat % 16) fun t b fl => fl = 0 ∧
      let k := c.src x .B true .int t
      let h := hmix (if x.bit1 6 then k ^^^ BitVec.ofNat 64 (t / 32 * 2 ^ 56) else k) (c.src x .A true .int t)
      b = decide (h.toNat / 2 ^ 48 < min (c.src x .C false .int t).toNat 65536)) ∧
    (Ready s c x (formPmov x) → x.sub = 0 → plain (.pmov x) pa) ∧
    (Ready s c x (formPmov x) → x.sub = 1 → plain (.pmov x) fun t => decide (c.plain x .A false .int t ≠ 0)) ∧
    (Ready s c x (formPmov x) → x.sub = 3 → plain (.pmov x) fun t => (c.plain x .A false .int t).getLsbD (t % 32)) ∧
    (Ready s c x (formPred x (paMask ||| pbMask)) → plain (.pand x) (fun t => pa t && pb t) ∧ plain (.por x) (fun t => pa t || pb t) ∧
      plain (.pxor x) (fun t => pa t != pb t) ∧ plain (.pandn x) fun t => pa t && !pb t) ∧
    (Ready s c x (formPred x paMask) → plain (.pnot x) (fun t => !pa t) ∧
      ends (.pfirst x) (bits x.w1 31 28) fun t b fl => fl = 0 ∧
        (b = true ↔ mates t t ∧ pa t = true ∧ ∀ o, o < t → mates t o → pa o = false)) ∧
    (Ready s c x (formVote x) → ends (.vote x) (bits x.w1 31 28) fun t b fl => fl = 0 ∧
      let any := ∃ o, mates t o ∧ pa o = true
      let all := ∀ o, mates t o → pa o = true
      (x.subBits 1 0 = 0 → (b = true ↔ any)) ∧ (x.subBits 1 0 = 1 → (b = true ↔ all)) ∧ (x.subBits 1 0 = 2 → (b = true ↔ ¬any ∨ all)))

/-- EXMRD, MMKRD, LPRRD, SRRD, FLGRD, CLKRD, IDRD, PMOV to a register, PCNT, BALLOT (R118, R120, R123, R124, R126, R127 04_sequencer.md,
R152 05_router.md): what the masks, the registers and the positions of a thread read as. EXMWR, MMKWR, LPRWR, SRWR, FLGCLR (R119, R123, R124 04_sequencer.md): each writes the masks or the register that it names, once or in
each active thread, and no other part of the group. -/
def Obligations.GroupStateReadAndWritten : Prop :=
  (∀ (s : State) (c : Cx) (x : Ext),
     let uni := isUni x.d
     let reads := fun (i : Instr) (wide : Bool) (f : Nat → Dword) => Computes s i c x x.words wide fun t => (f t, 0)
     let w := fun (v : Word) => BitVec.ofNat 64 v.toNat
     let mates := fun (t o : Nat) => o / 32 = t / 32 ∧ o % 32 / c.width = t % 32 / c.width ∧ c.active x.p o = true ∧
       c.g.predBit o (bits x.w1 27 24) = true
     (Ready s c x (formExmrd x) → reads (.exmrd x) false fun t => w (c.g.exmOf (if uni then x.subBits 2 0 else t / 32))) ∧
     (Ready s c x (formRead x false true 0 []) →
       reads (.mmkrd x) false (fun _ => BitVec.ofNat 64 (c.u.mmk &&& c.u.members).toNat) ∧
       reads (.lprrd x) false (fun _ => BitVec.ofNat 64 (2 * 2 ^ c.u.lpr.toNat)) ∧
       ComputesInt s (.flgrd x) c x x.words false fun t r =>
         if uni then ∀ b, r.getLsbD b = true ↔ ∃ o, o ∈ c.liveThreads ∧ c.u.mmk.getLsbD (o / 32) = true ∧ (c.g.fpsr.get 0 o).getLsbD b = true
         else r = BitVec.ofNat 64 (c.g.fpsr.get 0 t).toNat) ∧
     (Ready s c x (formSrrd x) →
       let n := x.subBits 7 0
       (n = 0 → reads (.srrd x) false fun _ => w c.u.fpcr) ∧
       (n = 1 → reads (.srrd x) false fun t => BitVec.ofNat 64 (c.g.fpsr.get 0 t).toNat) ∧
       (n = 2 → ComputesInt s (.srrd x) c x x.words false fun _ r => r.toNat = dieOf c.g.core % 2 ^ 32) ∧
       (n = 3 → reads (.srrd x) true fun _ => c.g.trap.info) ∧ (n = 4 → reads (.srrd x) true fun _ => c.g.trap.pc) ∧
       (n = 5 → reads (.srrd x) true fun _ => c.g.trap.addr) ∧ (n = 6 → reads (.srrd x) true fun _ => c.g.trap.msk0) ∧
       (n = 7 → reads (.srrd x) true fun _ => c.g.trap.msk1) ∧ (n = 8 → reads (.srrd x) true fun _ => c.g.trap.msk2) ∧
       (n = 9 → reads (.srrd x) true fun _ => c.g.trap.msk3) ∧ (n = 10 → reads (.srrd x) true fun _ => s.mxerr.get 0 c.g.core) ∧
       (n = 11 → ComputesInt s (.srrd x) c x x.words true fun _ r =>
         bits r 16 0 = s.tarnPhase % 2 ^ 17 ∧ bits r 31 17 = 0 ∧ bits r 47 32 = 7000 ∧ bits r 63 48 = 3500) ∧
       (16 ≤ n → reads (.srrd x) false fun _ => w (c.l.cpnd.get 0 (n - 16)))) ∧
     (Ready s c x (formRead x true true 0 []) → reads (.clkrd x) true fun _ => BitVec.ofNat 64 s.time) ∧
     (Ready s c x (formRead x false true 0xF []) →
       let l := x.subBits 2 0
       ComputesInt s (.idrd x) c x x.words false fun t r =>
         (c.l.nlev ≤ l → r = if x.bit1 3 then 1 else 0) ∧
         (l < c.l.nlev → c.g.spawned = false → x.bit1 3 = true → r.toNat = (c.l.extent l) % 2 ^ 32) ∧
         (l < c.l.nlev → c.l.domain l = some 0 → uni = true → x.bit1 3 = false → r = 0) ∧
         (l < c.l.nlev → c.l.domain l = some 0 → uni = false → x.bit1 3 = false → r.toNat = c.l.indexAt l (t % 32) % 2 ^ 32) ∧
         (l < c.l.nlev → c.g.spawned = false → x.bit1 3 = false →
           (c.l.domain l = some 1 → r.toNat = c.l.indexAt l c.g.index % 2 ^ 32) ∧
           (c.l.domain l = some 2 → r.toNat = c.l.indexAt l (c.g.block % c.l.prod 2) % 2 ^ 32) ∧
           (c.l.domain l = some 3 → r.toNat = c.l.indexAt l (c.g.block / c.l.prod 2 % c.l.prod 3) % 2 ^ 32) ∧
           (c.l.domain l = some 4 → r.toNat = c.l.indexAt l (c.g.block / (c.l.prod 2 * c.l.prod 3)) % 2 ^ 32)) ∧
         (l < c.l.nlev → c.g.spawned = true → c.l.domain l = some 0 → x.bit1 3 = true → r.toNat = (c.l.extent l) % 2 ^ 32) ∧
         (l < c.l.nlev → c.g.spawned = true → c.l.domain l ≠ some 0 → r = if x.bit1 3 then 1 else 0)) ∧
     (Ready s c x (formPmov x) → x.sub = 2 → reads (.pmov x) false fun t => if c.g.predBit t (bits x.w1 27 24) then 1 else 0) ∧
     (Ready s c x { own1 := 0x0F000000, dest := .reg false true false true } →
       (ComputesInt s (.pcnt x) c x x.words false fun t r => ∃ l : List Nat, l.Nodup ∧ (∀ o, o ∈ l ↔ mates t o) ∧ r.toNat = l.length) ∧
       ComputesInt s (.ballot x) c x x.words false fun t r => ∀ k, r.getLsbD k = true ↔ k < 32 ∧ mates t (t / 32 * 32 + k))) ∧
  (∀ (s : State) (c : Cx) (x : Ext),
     let place := fun (u : SubGroup) => { c.u with pc := u.pc, ndone := u.ndone, yielded := false, issued := c.stamp + 1 }
     let opc := x.subBits 1 0
     let v := (c.plain x .A false .int 0)
     (Ready s c x (formExmwr x) → Leaves s (.exmwr x) c x.words fun g u =>
       g = { c.g with subs := g.subs, exm := g.exm } ∧ u = place u ∧ ∀ m l, l < 32 →
         let w := if x.bit1 2 then (c.g.predOf m (bits x.w1 27 24)).getLsbD l else v.getLsbD l
         let old := (c.g.exmOf m).getLsbD l
         let live := (c.g.liveOf m).getLsbD l
         (g.exmOf m).getLsbD l = if m ∈ c.masked then (match opc with
           | 0 => w && live | 1 => old && w && live | _ => (old || w) && live) else old) ∧
     (Ready s c x (formMmkwr x) → Leaves s (.mmkwr x) c x.words fun g u =>
       g = { c.g with subs := g.subs } ∧ u = { place u with mmk := u.mmk } ∧ ∀ m, m < 8 →
         u.mmk.getLsbD m = if m ∈ c.members then (match opc with
           | 0 => v.getLsbD m | 1 => c.u.mmk.getLsbD m && v.getLsbD m | _ => c.u.mmk.getLsbD m || v.getLsbD m) else c.u.mmk.getLsbD m) ∧
     (Ready s c x (formLprwr x) → Leaves s (.lprwr x) c x.words fun g u =>
       g = { c.g with subs := g.subs } ∧ u = { place u with lpr := u.lpr } ∧ u.lpr.toNat = x.subBits 2 0) ∧
     (Ready s c x (formSrwr x) → x.subBits 7 0 = 0 → Leaves s (.srwr x) c x.words fun g u =>
       g = { c.g with subs := g.subs } ∧ u = { place u with fpcr := u.fpcr } ∧ ∀ b,
         u.fpcr.getLsbD b = (decide (b < 10) && v.getLsbD b && !(decide (5 ≤ b) && decide (b < 8) && decide (4 < bits v 7 5)))) ∧
     (Ready s c x (formSrwr x) → x.subBits 7 0 = 1 → Leaves s (.srwr x) c x.words fun g u =>
       g = { c.g with subs := g.subs, fpsr := g.fpsr } ∧ u = place u ∧ ∀ t,
         (g.fpsr.get 0 t).toNat = if c.active x.p t then (c.plain x .A false .int t).toNat % 32 else (c.g.fpsr.get 0 t).toNat) ∧
     (Ready s c x { own1 := 0x1F } → Leaves s (.flgclr x) c x.words fun g u =>
       g = { c.g with subs := g.subs, fpsr := g.fpsr } ∧ u = place u ∧ ∀ t b,
         (g.fpsr.get 0 t).getLsbD b = if c.active x.p t then (c.g.fpsr.get 0 t).getLsbD b && !x.w1.getLsbD b else (c.g.fpsr.get 0 t).getLsbD b))

/-- NOP (R75 02_encoding.md): the word 0x0040_0000, and the class E encoding with every field zero; it has no effect, produces no window
entry and counts towards the instructions of its run. Any other encoding of the opcode is illegal (R78). -/
def Obligations.NopHasNoEffect : Prop :=
  decode ([0x00400000].flatMap wordBytes) = .ok (.nopBase { d := 0, a := 0, m := 0 }, []) ∧
    decode ([0x40400000, 0, 0].flatMap wordBytes) = .ok (.nop { d := 0, a := 0, p := 0, w1 := 0, w2 := 0, lit := none }, []) ∧
    ∀ (s : State) (c : Cx), s.issuer = some c → c.u.ndone < 24 →
      let passes := fun (i : Instr) (words : Nat) => Leaves s i c words fun g u => g = { c.g with subs := g.subs } ∧
        u = { c.u with pc := u.pc, ndone := u.ndone, yielded := false, issued := c.stamp + 1 }
      let traps := fun (i : Instr) => ∃ d, exec i s =
        .next (s.tick.takeTrap c.g c.r { cause := 0x01, detail := d } c.u.pc c.u.ndone false)
      (∀ b : Base, if b = { d := 0, a := 0, m := 0 } then passes (.nopBase b) 1 else traps (.nopBase b)) ∧
      ∀ x : Ext, if x = { d := 0, a := 0, p := 0, w1 := 0, w2 := 0, lit := none } then passes (.nop x) 3 else traps (.nop x)

/-- FPMODE (R125 04_sequencer.md) replaces the bits of FPCR that FMSK names by those of FVAL, once for the issuing sub-group, and changes
nothing else; its reserved bits, its guard and the three encodings that the rule names trap. -/
def Obligations.FpmodeReplacesFields : Prop :=
  decode ([0x45C00000, 0x00E00040, 0].flatMap wordBytes) =
      .ok (.fpmode { d := 0, a := 0, p := 0, w1 := 0x00E00040, w2 := 0, lit := none }, []) ∧
    ∀ (s : State) (c : Cx) (x : Ext), s.issuer = some c →
      let msk := bits x.w1 25 16
      let val := bits x.w1 9 0
      (Ready s c x (formFpmode x) → Leaves s (.fpmode x) c x.words fun g u => g = { c.g with subs := g.subs } ∧
        u = { c.u with pc := u.pc, ndone := u.ndone, yielded := false, issued := c.stamp + 1, fpcr := u.fpcr } ∧
        ∀ b, u.fpcr.getLsbD b = (decide (b < 10) && if msk.testBit b then val.testBit b else c.u.fpcr.getLsbD b)) ∧
      (val ||| msk ≠ msk ∨ (msk / 32 % 8 ≠ 0 ∧ msk / 32 % 8 ≠ 7) ∨ (msk / 32 % 8 = 7 ∧ 4 < val / 32 % 8) ∨
        bits x.w1 31 26 ≠ 0 ∨ bits x.w1 15 10 ≠ 0 ∨ x.p ≠ 0 →
        ∃ d, exec (.fpmode x) s = .next (s.tick.takeTrap c.g c.r { cause := 0x01, detail := d } c.u.pc c.u.ndone false))

/-- TRAP (R130 04_sequencer.md): with an active thread, the TRAP cause with CODE and the active threads, and the next instruction as the
resume point; with none, no effect; its reserved bits are illegal. -/
def Obligations.TrapInstruction : Prop :=
  decode ([0x44800000, 0x12340000, 0].flatMap wordBytes) =
      .ok (.trap { d := 0, a := 0, p := 0, w1 := 0x12340000, w2 := 0, lit := none }, []) ∧
  ∀ (s : State) (c : Cx) (x : Ext), s.issuer = some c →
    (Ready s c x formTrap → c.threads x.p = [] → Leaves s (.trap x) c x.words fun g u => g = { c.g with subs := g.subs } ∧
      u = { c.u with pc := u.pc, ndone := u.ndone, yielded := false, issued := c.stamp + 1 }) ∧
    (Ready s c x formTrap → c.threads x.p ≠ [] → ∃ t g u, exec (.trap x) s = .next t ∧ (∀ a, t.byteAt a = s.byteAt a) ∧
      t.group? c.r.grp = some g ∧ g.sub? c.r.sub = some u ∧ u.pc = c.u.pc + BitVec.ofNat 64 (4 * x.words) ∧ u.phase = .trapped ∧
      g.trap.pc = c.u.pc ∧ bits g.trap.info 7 0 = 0x0B ∧ bits g.trap.info 63 32 = bits x.w1 31 16 ∧
      ∀ b, b < 64 → (g.trap.msk0.getLsbD b = c.active x.p b ∧ g.trap.msk1.getLsbD b = c.active x.p (64 + b) ∧
        g.trap.msk2.getLsbD b = c.active x.p (128 + b) ∧ g.trap.msk3.getLsbD b = c.active x.p (192 + b))) ∧
    (bits x.w1 15 0 ≠ 0 →
      ∃ d, exec (.trap x) s = .next (s.tick.takeTrap c.g c.r { cause := 0x01, detail := d } c.u.pc c.u.ndone false))

/-- TREDUCE and TSCAN (R153 to R155 05_router.md): over the active threads of the tile, up to the thread's own position in an inclusive scan
and below it in an exclusive one; the empty value where there is none. The floating-point operations go up the tree of R154, whose nodes
are FADD in the instruction's mode, FMIN or FMAX, with the flags of the nodes evaluated. -/
def Obligations.TileReductionsAndScans : Prop :=
  ∀ (s : State) (c : Cx) (x : Ext),
    let a := fun t => c.src x .A x.ty.wide .int t
    let w := x.ty.width
    let result := fun (t : Nat) (l : List Nat) (r : Dword) =>
      match x.subBits 8 5 with
      | 0 => Wraps w (l.map fun o => intTy x.ty (a o).toNat).sum r
      | 1 => if l = [] then Wraps w (greatestOf x.ty) r
        else ∃ o ∈ l, Wraps w (intTy x.ty (a o).toNat) r ∧ ∀ p ∈ l, intTy x.ty (a o).toNat ≤ intTy x.ty (a p).toNat
      | 2 => if l = [] then Wraps w (leastOf x.ty) r
        else ∃ o ∈ l, Wraps w (intTy x.ty (a o).toNat) r ∧ ∀ p ∈ l, intTy x.ty (a p).toNat ≤ intTy x.ty (a o).toNat
      | 3 => BitsOf w (fun k => l.all fun o => (a o).getLsbD k) r
      | 4 => BitsOf w (fun k => l.any fun o => (a o).getLsbD k) r
      | 5 => BitsOf w (fun k => l.foldl (fun b o => b != (a o).getLsbD k) false) r
      | _ => t = t
    let tile := fun (t : Nat) (upto : Nat) =>
      ((List.range upto).map fun q => t - t % c.width + q).filter fun o => c.active x.p o
    (Ready s c x (formTree x 0x1E0) → x.subBits 8 5 < 6 → ComputesInt s (.treduce x) c x x.words x.ty.wide fun t r =>
      c.active x.p t = true → result t (tile t c.width) r) ∧
    (Ready s c x (formTree x 0x3E0) → x.subBits 8 5 < 6 → ComputesInt s (.tscan x) c x x.words x.ty.wide fun t r =>
      c.active x.p t = true → result t (tile t (t % c.width + if x.bit1 9 then 0 else 1)) r) ∧
    let f := fmtOf x.ty
    let node := fun (u v : Nat) =>
      let a := flushIn c.fzi f (unpack f u)
      let b := flushIn c.fzi f (unpack f v)
      match x.subBits 8 5 with
      | 6 => if a.isNan || b.isNan then nanres f [a, b] false else fsum [a, b] f (c.mode x.rnd) c.fzo
      | 7 => minMaxOf true false f (c.env x) a b
      | _ => minMaxOf true true f (c.env x) a b
    let root := fun (t upto : Nat) => (treeNode node (fun q => if q < upto ∧ c.active x.p (t - t % c.width + q) = true
      then some (c.src x .A x.ty.wide (.flt x.ty) (t - t % c.width + q)).toNat else none) (c.u.lpr.toNat + 1) 0).getD
        (if x.subBits 8 5 = 6 then 0 else f.inf (x.subBits 8 5 == 8), 0)
    let ends := fun (i : Instr) (upto : Nat → Nat) => ∃ r : Nat → Nat × Flags,
      Computes s i c x x.words x.ty.wide (fun t => (BitVec.ofNat 64 (r t).1, (r t).2)) ∧ ∀ t, c.active x.p t = true → r t = root t (upto t)
    (Ready s c x (formTree x 0x1E0) → 6 ≤ x.subBits 8 5 → ends (.treduce x) fun _ => c.width) ∧
    (Ready s c x (formTree x 0x3E0) → 6 ≤ x.subBits 8 5 → ends (.tscan x) fun t => t % c.width + if x.bit1 9 then 0 else 1)

/-! ### Trailers -/

/-- RUNEND.FALL, YIELD, BRA, BRC and JMP (R62, R70, R71, R73 02_encoding.md): where the members stand after the trailer. BRC judges each
member with MMK set over its lanes with EXM set; members that disagree part. A JMP address that is misaligned or above bit 56
traps. -/
def Obligations.TrailersTransfer : Prop :=
  ∀ (s : State) (c : Cx) (t : Trailer),
    let all := c.u.members
    let next := c.u.pc + 12
    (Ends s c t {} → Transfers s (.runendFall t) c t false [(all, next)] ∧ Transfers s (.runendYield t) c t true [(all, next)]) ∧
    (Ends s c t { target := true } → ∃ dest : Dword, Wraps 64 ((c.u.pc.toNat / 64 * 64 : Nat) + 64 * t.target) dest ∧
      Transfers s (.runendBra t) c t false [(all, dest)]) ∧
    (Ends s c t { cond := true, pred := true, target := true } →
      let lane := fun m l => l < 32 ∧ c.u.mmk.getLsbD m = true ∧ (c.g.exmOf m).getLsbD l = true
      let holds := fun m => match t.cond.toNat with
        | 1 => ∃ l, lane m l ∧ c.g.predBit (32 * m + l) t.pred.toNat = true
        | 2 => ∀ l, lane m l → c.g.predBit (32 * m + l) t.pred.toNat = true
        | _ => ∀ l, lane m l → c.g.predBit (32 * m + l) t.pred.toNat = false
      ∃ dest : Dword, Wraps 64 ((c.u.pc.toNat / 64 * 64 : Nat) + 64 * t.target) dest ∧
        ((∀ m ∈ c.members, ¬holds m) → Transfers s (.runendBrc t) c t false [(all, next)]) ∧
        (c.members ≠ [] → (∀ m ∈ c.members, holds m) → Transfers s (.runendBrc t) c t false [(all, dest)]) ∧
        ((∃ m ∈ c.members, holds m) → (∃ m ∈ c.members, ¬holds m) → ∃ yes no : BitVec 8,
          (∀ m, m < 8 → (yes.getLsbD m = true ↔ m ∈ c.members ∧ holds m) ∧
            no.getLsbD m = (all.getLsbD m && !yes.getLsbD m)) ∧
          Transfers s (.runendBrc t) c t false [(yes, dest), (no, next)])) ∧
    (Ends s c t { jump := true } →
      let n := t.xf.toNat
      let a := (c.u.ureg n).toNat + (c.u.ureg (n + 1)).toNat * 2 ^ 32
      let traps := fun (cause : Nat) => exec (.runendJmp t) s =
        .next (s.tick.takeTrap c.g c.r { cause := cause, addr := a, msk := c.threads 0 } c.u.pc 24 false)
      c.u.upending.has n = false → c.u.upending.has (n + 1) = false → c.u.umarks.has n = false → c.u.umarks.has (n + 1) = false →
      (2 ^ 57 ≤ a → traps 3) ∧ (a < 2 ^ 57 → a % 64 ≠ 0 → traps 2) ∧
      (a < 2 ^ 57 → a % 64 = 0 → Transfers s (.runendJmp t) c t false [(all, BitVec.ofNat 64 a)]))

/-- RUNEND.CALL (R70, R319, R333 14_spawn.md): a run of blocks is allocated, its header takes the return address and the previous frame,
and the members stand at the target. RET goes back to that address and frees the frame; a header on a poisoned or failing line faults. EXIT (R72)
ends every live thread of a member with MMK set whose PRED is true, whatever its EXM bit, and a sub-group that finishes gives up every frame it
holds (R381 17_regroup.md). A misaligned next word, no run of blocks, and RET without a frame trap.
It rests on the model's readings: logs 26 and 41. -/
def Obligations.CallReturnAndExit : Prop :=
  ∀ (s : State) (c : Cx) (t : Trailer),
    let all := c.u.members
    let next := c.u.pc + 12
    let blocks := 1 + 32 * c.g.m * t.xf.toNat
    let traps := fun (i : Instr) (cause addr : Nat) =>
      exec i s = .next (s.tick.takeTrap c.g c.r { cause := cause, addr := addr, msk := c.threads 0 } c.u.pc 24 false)
    let header := fun (n : Nat) (wr : Bool) => s.tick.engineAddrs c.l (c.l.frameBase + 64 * n) 16 (!wr) wr
    -- call frames that the sub-group gives up: those that no other sub-group holds too (R381)
    let without := fun (P : Nat → Bool) => { c.l with frames := c.l.frames.filter fun f => !(P f.start && !s.tick.sharesFrame c.l c.g c.u.num f.start) }
    (Ends s c t { frame := true, target := true } →
      (next.toNat % 64 ≠ 0 → traps (.runendCall t) 2 next.toNat) ∧
      (next.toNat % 64 = 0 → (∀ g ∈ s.groups, g.launch = c.l.id → g.finished = false) →
        (c.l.alloc blocks c.g.id 3 = none → traps (.runendCall t) 8 0) ∧
        (∀ n l, c.l.alloc blocks c.g.id 3 = some (n, l) → ∃ k g, exec (.runendCall t) s = .next k ∧ k.group? c.r.grp = some g ∧
          k.launch? c.l.id = some l ∧ g.vregs = c.g.vregs ∧ g.preds = c.g.preds ∧ g.exm = c.g.exm ∧ g.live = c.g.live ∧
          (∃ dest : Dword, Wraps 64 ((c.u.pc.toNat / 64 * 64 : Nat) + 64 * t.target) dest ∧ ∀ ms ∈ c.pieces all, ∃ u ∈ g.subs,
            u.members = ms ∧ u.pc = dest ∧ u.cfrm = some n ∧ u.ndone = 0 ∧ u.window = [] ∧ u.boundary = none ∧ u.fpcr = c.u.fpcr) ∧
          match header n true with
          | .error _ => ∀ a, k.byteAt a = s.byteAt a
          | .ok addrs => (∀ a, s.place a ∉ addrs.map s.place → k.byteAt a = s.byteAt a) ∧
            ((addrs.map s.place).Nodup → addrs.map k.byteAt = leBytes 8 next.toNat ++ leBytes 8 (c.u.cfrm.getD 0xFFFFFFFF))))) ∧
    (Ends s c t {} → (c.u.cfrm = none → traps (.runendRet t) 9 0) ∧
      ∀ n addrs, c.u.cfrm = some n → header n false = .ok addrs →
        let b := addrs.map s.byteAt
        let a := leNat (b.take 8)
        let prev := leNat ((b.drop 8).take 4)
        (∀ m, s.tick.markOfBytes addrs = some m →
          let tr : TrapReq := { cause := m.cause, detail := m.detail, addr := m.addr, msk := c.threads 0 }
          exec (.runendRet t) s = .next ((s.tick.noteFault tr).takeTrap c.g c.r tr c.u.pc 24 false)) ∧
        (s.tick.markOfBytes addrs = none → 2 ^ 57 ≤ a → traps (.runendRet t) 3 a) ∧
        (s.tick.markOfBytes addrs = none → a < 2 ^ 57 → a % 64 ≠ 0 → traps (.runendRet t) 2 a) ∧
        (s.tick.markOfBytes addrs = none → a < 2 ^ 57 → a % 64 = 0 → ∃ k g, exec (.runendRet t) s = .next k ∧
          k = { s with groups := k.groups, launches := k.launches, stamp := s.stamp + 1 } ∧
          (∀ id, id ≠ c.r.grp → k.group? id = s.group? id) ∧ k.group? c.r.grp = some g ∧
          k.launch? c.g.launch = some (without fun n => c.u.cfrm == some n) ∧
          Parted s.time c t false c.g (if prev = 0xFFFFFFFF then none else some prev) (c.placesOf [(all, BitVec.ofNat 64 a)]) g)) ∧
    (Ends s c t { pred := true } →
      ∃ k g0 g, exec (.runendExit t) s = .next k ∧ k = { s with groups := k.groups, launches := k.launches, stamp := s.stamp + 1 } ∧
        (∀ id, id ≠ c.r.grp → k.group? id = s.group? id) ∧ k.group? c.r.grp = some g ∧
        g0 = { c.g with live := g0.live, exm := g0.exm, exits := g0.exits } ∧
        (∀ m l, l < 32 →
          let ends := m ∈ c.masked ∧ (c.g.liveOf m).getLsbD l = true ∧ c.g.predBit (32 * m + l) t.pred.toNat = true
          ((g0.liveOf m).getLsbD l = true ↔ (c.g.liveOf m).getLsbD l = true ∧ ¬ends) ∧
          ((g0.exmOf m).getLsbD l = true ↔ (c.g.exmOf m).getLsbD l = true ∧ ¬ends)) ∧
        (g0.subLive c.u = true → k.launches = s.launches ∧ Parted s.time c t false g0 c.u.cfrm (c.placesOf [(all, next)]) g) ∧
        (g0.subLive c.u = false → k.launch? c.g.launch = some (without fun n => (s.tick.framesOf c.l c.u).contains n) ∧ Parted s.time c t false g0 none (c.placesOf [(all, next)]) g))

/-! ### Memory -/

/-- LD, LDNA, LDP, LDU, PREF and LOAD_DATA_ARRIVAL (R233 to R245 10_loadstore.md): the address of each active thread; a load whose accesses
translate starts one operation with the physical addresses of each, and one that does not faults; PREF leaves registers and memory as they
are. When the data arrive, each destination register, of every thread or the one uniform register of an LDU, takes the bytes that the core finds,
of memory where nothing of the lines is cached or on its way, little-endian, a narrow value extended by its type; all other units stay, and the
counter falls.
It rests on the model's readings: logs 3, 24 and 36. -/
def Obligations.LoadsReadMemory : Prop :=
  ∀ (s : State),
    (∀ (c : Cx) (x : Ext),
      let align := if memW x = 0 then none else some (memSize x, 5)
      let get := fun (l : List Want) => s.tick.translate c (c.who true false) (memSize x) align x.p l
      let at' := fun (strided : Bool) (t : Nat) => ({ thread := t, va := c.ea x strided t, member := memMember x t } : Want)
      -- the operation, or the fault
      let loads := fun (i : Instr) (l : List Want) (na : Bool) (uni : Option Nat) (threads : Nat → List Nat) (reg : Nat) =>
        (∀ t, get l = .error t → Faults s i c t) ∧
        ∀ gs seen, get l = .ok (gs, seen) → s.tick.atomHeld c.g.id (linesOf ((gs.flatMap fun g => g.addrs).map s.place)) = false →
          Starts s i c x.words 0 fun t _ o => t = { s with groups := t.groups, ops := t.ops, tlb := t.tlb, launches := t.launches, stamp := s.stamp + 1, nextId := s.nextId + 1 } ∧
            (∀ id l, s.launch? id = some l → ∃ l', t.launch? id = some l' ∧ l' = { l with counts := l'.counts }) ∧
            o.kind = .load (gs.map fun g => { threads := threads g.thread, reg := reg, addrs := g.addrs, signed := x.ty.signed,
                                              widened := decide (memW x ≠ 0) }) c.g.gepoch na uni
      (∀ (strided : Bool) (t : Nat), (c.ea x strided t : Int) < 2 ^ 64 ∧
        ((c.ea x strided t : Int) - ((c.src x .A true .int t).toNat +
          (if x.bit1 10 then (BitVec.ofNat 32 (c.src x .B false .int t).toNat).toInt else (c.src x .B false .int t).toNat % 2 ^ 32) *
            2 ^ memSC x + if strided then ((t / 32 * (c.plain x .C false .int t).toNat : Nat) : Int)
              else (BitVec.ofNat 32 (c.plain x .C false .int t).toNat).toInt)) % 2 ^ 64 = 0) ∧
      (ReadyM s c x (formLoad x false) (memDyn x c) 0 →
        loads (.ld x) ((c.threads x.p).map (at' false)) false none (fun t => [t]) x.d.toNat ∧
        loads (.ldna x) ((c.threads x.p).map (at' false)) true none (fun t => [t]) x.d.toNat ∧
        loads (.ldp x) ((c.threads x.p).map (at' true)) false none (fun t => [t]) x.d.toNat) ∧
      (ReadyM s c x (formLoad x true) (memDyn x c) 0 (c.firstMembers x.p) →
        (∀ n, operandOf x.d = .ureg n →
          loads (.ldu x) [{ thread := 0, va := c.ea x false 0, member := if 8 ≤ memSrc x then memSrc x - 8 else 0 }] false (some n) (fun _ => []) n) ∧
        (isUni x.d = false → ∃ l : List Nat, (l.Pairwise fun a b => a < b) ∧
          (∀ t, t ∈ l ↔ t ∈ c.threads x.p ∧ ∀ o ∈ c.threads x.p, o % 32 = t % 32 → t ≤ o) ∧
          loads (.ldu x) (l.map (at' false)) false none (fun t => (c.threads x.p).filter fun o => o % 32 == t % 32) x.d.toNat)) ∧
      (ReadyM s c x (formPref x) (memDyn x c) 4 → Idles s (.pref x) c x.words fun _ _ => True)) ∧
    (∀ (id : Nat) (o : Op) (g : Group) (accs : List Access) (epoch : Nat) (na : Bool), s.arg = .part id none → s.op? id = some o →
      s.group? o.grp = some g → o.kind = .load accs epoch na none → accs.all s.hasPath = true → o.taken = [] → o.given = [] →
      s.l1 = [] → s.writes = [] → s.staged = [] → s.guests = [] → (∀ a ∈ accs, a.addrs.length ∈ [1, 2, 4, 8, 16]) →
      accs.Pairwise (fun a b => ∀ t ∈ a.threads, t ∉ b.threads) →
      ∃ t g', exec .loadDataArrival s = .next t ∧ t.mem = s.mem ∧ t.op? id = none ∧ t.group? o.grp = some g' ∧
        g'.counter o.counter = g.counter o.counter - 1 ∧
        (∀ a ∈ accs, ∀ th ∈ a.threads, ∀ j, j < (a.addrs.length + 3) / 4 → ∀ b, b < 32 →
          let byte := fun i => s.byteAt (a.addrs.getD i 0)
          (g'.vcur (a.reg + j) th).getLsbD b = if 4 * j + b / 8 < a.addrs.length then (byte (4 * j + b / 8)).getLsbD (b % 8)
            else a.signed && (byte (a.addrs.length - 1)).getLsbD 7) ∧
        ∀ r th, (∀ a ∈ accs, th ∉ a.threads ∨ r < a.reg ∨ a.reg + (a.addrs.length + 3) / 4 ≤ r) → g'.vcur r th = g.vcur r th) ∧
    ∀ (id : Nat) (o : Op) (g : Group) (accs : List Access) (epoch : Nat) (na : Bool) (uni : Option Nat), s.arg = .part id none → s.op? id = some o →
      s.group? o.grp = some g → o.kind = .load accs epoch na uni → accs.all s.hasPath = true → o.taken = [] → o.given = [] →
      s.forward = [] → s.staged = [] → (∀ w ∈ s.writes, w.staged = none) → (∀ y ∈ s.guests, y.bytes.length = 64) →
      (∀ y ∈ s.l1, ∀ b, y.clean = some b → b.length = 64) → (s.l1.filter fun y => y.core == g.core).length + 16 * accs.length ≤ 4096 →
      (∀ a ∈ accs, a.addrs.length ∈ [1, 2, 4, 8, 16]) → accs.Pairwise (fun a b => ∀ t ∈ a.threads, t ∉ b.threads) →
      -- each destination register takes the bytes that the core finds, whatever its caches and its writes on their way hold
      let value := fun (a : Access) (j b : Nat) => let byte := fun i => s.loadedByte g.core epoch na (a.addrs.getD i 0)
        if 4 * j + b / 8 < a.addrs.length then (byte (4 * j + b / 8)).getLsbD (b % 8) else a.signed && (byte (a.addrs.length - 1)).getLsbD 7
      ∃ t g', exec .loadDataArrival s = .next t ∧ t.mem = s.mem ∧ t.op? id = none ∧ t.group? o.grp = some g' ∧
        (uni = none → (∀ a ∈ accs, ∀ th ∈ a.threads, ∀ j, j < (a.addrs.length + 3) / 4 → ∀ b, b < 32 →
            (g'.vcur (a.reg + j) th).getLsbD b = value a j b) ∧
          ∀ r th, (∀ a ∈ accs, th ∉ a.threads ∨ r < a.reg ∨ a.reg + (a.addrs.length + 3) / 4 ≤ r) → g'.vcur r th = g.vcur r th) ∧
        ∀ n a, uni = some n → accs = [a] → (∀ r th, g'.vcur r th = g.vcur r th) ∧ ∀ k u, g.sub? k = some u → ∃ u', g'.sub? k = some u' ∧
          ∀ r, (a.reg ≤ r ∧ r < a.reg + (a.addrs.length + 3) / 4 ∧ u.upending.get 0 r = id + 1 →
              u'.upending.has r = false ∧ ∀ b, b < 32 → (u'.ureg r).getLsbD b = value a (r - a.reg) b) ∧
            (¬(a.reg ≤ r ∧ r < a.reg + (a.addrs.length + 3) / 4 ∧ u.upending.get 0 r = id + 1) → u'.ureg r = u.ureg r)

/-- ST, STNA, STP (R240, R241, R247, R250 10_loadstore.md): a store whose accesses translate puts the bytes of each active thread, the highest
thread's where several write one, into the L1 or on their way home, and starts one operation on the ST counter; with no active thread it does
nothing. WRITE_PERFORMED_AT_HOME puts exactly the bytes of a request into memory, or tells its operations where the request is damaged (R39
01_machine.md); VISIBILITY_TIME_REACHED counts its store down; write-backs send the dirty bytes of a line, 2,048 clocks after the store at the latest. Guest copies (R252, R253 10_loadstore.md) and lines that the host takes (R107, R273 11_atomics.md): an invalidation, an eviction of a copy
and of a directory entry drop copies and never change memory; an answer takes the die off the directory once it holds no line of the region;
a host write leaves no copy of its line in the device and puts its 64 bytes into memory, where the map has the line at all; one that the host
orders after its earlier writes waits for them.
It rests on the model's readings: logs 9, 22, 23 and 52. -/
def Obligations.StoresReachMemory : Prop :=
  (∀ (s : State),
     (∀ (c : Cx) (x : Ext), ReadyM s c x (formStore x) (memDyn x c) 1 →
       let align := if memW x = 0 then none else some (memSize x, 5)
       let stores := fun (i : Instr) (strided na : Bool) =>
         let got := s.tick.translate c (c.who false true) (memSize x) align x.p
           ((c.threads x.p).map fun t => { thread := t, va := c.ea x strided t, member := memMember x t })
         (∀ t, got = .error t → Faults s i c t) ∧
         ∀ gs seen, got = .ok (gs, seen) →
           let pairs := gs.flatMap fun g => (g.addrs.map s.place).zip (c.storeData x g.thread)
           let last := fun (pa : Nat) => (pairs.reverse.find? fun p => p.1 == pa).map fun p => p.2
           s.tick.atomHeld c.g.id (pairs.map fun p => p.1 / 64) = false → c.stageFull s.tick (gs.length * memSize x) = false →
           (pairs = [] → Idles s i c x.words fun _ _ => True) ∧
           (pairs ≠ [] → Starts s i c x.words 1 fun t _ o => o.kind = .store ∧
             ∀ pa b, last pa = some b →
               let sent := ∃ w ∈ t.writes, w.core = some c.g.core ∧ w.line = pa / 64 ∧ w.bytes.get 0 (pa % 64) = b ∧
                 o.id ∈ w.waiters ∧ w.staged = if c.stages then some (c.l.id, c.g.block) else none
               -- a line may leave the L1 again for another of the store
               if na || c.stages then sent
               else sent ∨ ∃ l, t.l1? c.g.core (pa / 64) = some l ∧ l.dirty.get 0 (pa % 64) = b ∧ o.id ∈ l.waiters ∧ c.g.id ∈ l.owners)
       stores (.st x) false false ∧ stores (.stna x) false true ∧ stores (.stp x) true false ∧
       ∀ t i, i < memSize x →
         let byte := fun (v : Word) => BitVec.ofNat 8 (v.toNat / 2 ^ (8 * (i % 4)))
         (c.storeData x t).length = memSize x ∧
         (∀ n, operandOf x.d = .vreg n → (c.storeData x t).getD i 0 = byte (c.vread (n + i / 4) t).1) ∧
         ∀ n, operandOf x.d = .ureg n → (c.storeData x t).getD i 0 = byte (c.u.ureg (n + i / 4))) ∧
     (∀ (id : Nat) (w : HomeWrite), s.arg = .num id → (s.writes.find? fun w => w.id == id) = some w → s.firstOfLine w = true →
       s.pathTo w.line = true →
       ∃ t, exec .writePerformedAtHome s = .next t ∧ t.writes = (s.writes.filter fun o => o.id ≠ id) ∧ t.l1 = s.l1 ∧ t.ops = s.ops ∧
         (∀ p, w.staged = none → w.failing = false → SMap.get 0 t.mem p =
           match w.bytes.reverse.find? fun k => 64 * w.line + k.1 == p with
           | some k => k.2
           | none => SMap.get 0 s.mem p) ∧
         (w.staged = none → ∃ v : Visible, t.visible = s.visible ++ [v] ∧ v.id = id ∧ v.waiters = w.waiters ∧ s.time ≤ v.time) ∧
         (w.staged ≠ none ∨ w.failing = true → t.mem = s.mem) ∧
         (w.staged = none → w.failing = true → ∀ op ∈ w.waiters, ∀ o g, s.op? op = some o → s.group? o.grp = some g →
           ∃ g', t.group? o.grp = some g' ∧ ∃ d ∈ g'.deferred, d.op = o.id)) ∧
     (∀ (id op : Nat) (v : Visible) (o : Op) (g : Group), s.arg = .num id → (s.visible.find? fun v => v.id == id) = some v → v.time ≤ s.time →
       (∀ p ∈ s.probes, p.id = id → p.answered = true) → v.waiters = [op] → s.op? op = some o → s.group? o.grp = some g →
       ∃ t, exec .visibilityTimeReached s = .next t ∧ t.mem = s.mem ∧ t.visible = (s.visible.filter fun o => o.id ≠ id) ∧
         (1 < o.left → t.op? op = some { o with left := o.left - 1 } ∧ t.groups = s.groups) ∧
         (o.left ≤ 1 → t.op? op = none ∧ ∃ g', t.group? o.grp = some g' ∧ g'.counter o.counter = g.counter o.counter - 1 ∧
           g'.vregs = g.vregs)) ∧
     (∀ (core line : Nat) (l : L1Line), s.arg = .pair core line → s.l1? core line = some l →
       let sent := fun (t : State) => ∃ w, t.writes = s.writes ++ [w] ∧ w.core = some core ∧ w.line = line ∧ w.bytes = l.dirty ∧
         w.waiters = l.waiters ∧ w.staged = none
       (l.dirty ≠ [] → l.since + 2048 ≤ s.time → ∃ t, exec .l1WritebackDeadline s = .next t ∧ t.mem = s.mem ∧ t.groups = s.groups ∧ sent t ∧
         ∀ y, t.l1? core line = some y → y.dirty = []) ∧
       ∃ t, exec .l1Eviction s = .next t ∧ t.mem = s.mem ∧ t.groups = s.groups ∧ t.l1? core line = none ∧
         if l.dirty = [] then t.writes = s.writes else sent t)) ∧
  (∀ (s : State),
     (∀ (id die : Nat) (p : Probe), s.arg = .pair id die → (s.probes.find? fun p => p.id == id && p.die == die && !p.answered) = some p →
       ∃ t, exec .guestInvalidationProbe s = .next t ∧
         t = { s with guests := t.guests, probes := t.probes, stamp := s.stamp + 1 } ∧
         (∀ g, g ∈ t.guests ↔ g ∈ s.guests ∧ ¬(g.die = die ∧ g.line = p.line)) ∧
         ∀ q ∈ t.probes, q.id = id → q.die = die → q.answered = true) ∧
     (∀ (id die : Nat) (p : Probe), s.arg = .pair id die → (s.probes.find? fun p => p.id == id && p.die == die && p.answered) = some p →
       ∃ t, exec .probeAnswer s = .next t ∧ t = { s with dirs := t.dirs, probes := t.probes, stamp := s.stamp + 1 } ∧
         (∀ q, q ∈ t.probes ↔ q ∈ s.probes ∧ ¬(q.id = id ∧ q.die = die)) ∧
         ((∃ g ∈ s.guests, g.die = die ∧ g.line / 8 = p.line / 8) → t.dirs = s.dirs) ∧
         ((∀ g ∈ s.guests, g.die = die → g.line / 8 ≠ p.line / 8) →
           ∀ line d, d ∈ t.dirOf line ↔ d ∈ s.dirOf line ∧ ¬(line / 8 = p.line / 8 ∧ d = die))) ∧
     (∀ region, s.arg = .num region → s.dirs.has region = true → ∃ t, exec .directoryEviction s = .next t ∧
       t = { s with guests := t.guests, dirs := t.dirs, stamp := s.stamp + 1 } ∧
       (∀ g, g ∈ t.guests ↔ g ∈ s.guests ∧ g.line / 8 ≠ region) ∧
       ∀ line, t.dirOf line = if line / 8 = region then [] else s.dirOf line) ∧
     (∀ die line, s.arg = .pair die line → (∃ g ∈ s.guests, g.die = die ∧ g.line = line) → ∃ t, exec .guestCopyEviction s = .next t ∧
       t = { s with guests := t.guests, stamp := s.stamp + 1 } ∧
       ∀ g, g ∈ t.guests ↔ g ∈ s.guests ∧ ¬(g.die = die ∧ g.line = line)) ∧
     ∀ (line : Nat) (data : List Byte) (ordered : Bool), s.arg = .bytes line data ordered → line / 2 ^ 38 = 8 → data.length = 64 →
       (ordered = true → s.clear s.hostHorizon = false → ∃ e, exec .hostLineTake s = .refused e) ∧
       (ordered = false ∨ s.clear s.hostHorizon = true → s.home (64 * line) = none → exec .hostLineTake s = .fault (.noSuchAddress (64 * line))) ∧
       (ordered = false ∨ s.clear s.hostHorizon = true → s.home (64 * line) ≠ none → ∃ t, exec .hostLineTake s = .next t ∧ t.forward = s.forward ∧ (∀ g ∈ t.guests, g.line ≠ s.fwd line) ∧
         ∀ p, SMap.get 0 t.mem p = if p / 64 = s.fwd line then data.getD (p % 64) 0 else SMap.get 0 s.mem p))

/-- What an executor writes (R262 to R265, R267 11_atomics.md), for operands within the access width: sums and differences wrap, the
signed and unsigned extrema, the bitwise operations, the exchange, the floating-point sum and extrema with their flags, the MAXIDX winner in
whole, the compare-and-swap, SIGNAL; an OBSERVE and a failed compare write nothing. ATOM, ATOMCAS, SIGNAL, OBSERVE, MONITOR (R257 to R270 11_atomics.md) start their accesses at the executors of the translated addresses; the
executor's events perform each access once, on the bytes of its own unit and no other, keep the old value for the destination, write nothing on a
marked line; a SIGNAL departs once the writes before it are performed and is held to its time; the arrival gives the old values to the registers
and the flags to their threads, and ends the wait of an OBSERVE.
It rests on the model's readings: log 14. -/
def Obligations.AtomicsAtTheirExecutors : Prop :=
  (∀ (r : AtomReq) (old : Nat), r.width = 4 ∨ r.width = 8 → old < 2 ^ (8 * r.width) → r.b < 2 ^ (8 * r.width) →
     let w := 8 * r.width
     let gives := fun (P : Nat → Prop) => ∃ v, r.compute old = some (v, 0) ∧ v < 2 ^ w ∧ P v
     let rank := fun (v : Nat) => intTy r.ty v
     (r.what = 0 → (r.opn = 0 → gives fun v => v = (old + r.b) % 2 ^ w) ∧
       (r.opn = 1 → gives fun v => (v + r.b) % 2 ^ w = old) ∧
       (r.opn = 2 ∨ r.opn = 4 → gives fun v => (v = old ∨ v = r.b) ∧ rank v ≤ rank old ∧ rank v ≤ rank r.b) ∧
       (r.opn = 3 ∨ r.opn = 5 → gives fun v => (v = old ∨ v = r.b) ∧ rank old ≤ rank v ∧ rank r.b ≤ rank v) ∧
       (r.opn = 6 → gives fun v => ∀ k, v.testBit k = (old.testBit k && r.b.testBit k)) ∧
       (r.opn = 7 → gives fun v => ∀ k, v.testBit k = (old.testBit k || r.b.testBit k)) ∧
       (r.opn = 8 → gives fun v => ∀ k, v.testBit k = (old.testBit k != r.b.testBit k)) ∧
       (r.opn = 9 → gives fun v => v = r.b) ∧
       (r.ty.isFloat = true → r.ty.width = w →
         let f := fmtOf r.ty
         let a := flushIn r.fzi f (unpack f old)
         let b := flushIn r.fzi f (unpack f r.b)
         (r.opn = 10 → r.compute old = some (if a.isNan || b.isNan then nanres f [a, b] false else fsum [a, b] f r.rnd r.fzo)) ∧
         (r.opn = 11 → ∃ p, r.compute old = some p ∧ Extremum f true false a b p) ∧
         (r.opn = 12 → ∃ p, r.compute old = some p ∧ Extremum f true true a b p)) ∧
       (r.opn = 13 → r.width = 8 → r.ty ∈ [.f16, .bf16, .f32, .i32, .n32] → gives fun v =>
         let a := old / 2 ^ 32
         let b := r.b / 2 ^ 32
         (v = old ∨ v = r.b) ∧ (Outranked r.ty a b → v = r.b) ∧ (Outranked r.ty b a → v = old) ∧
         (¬Outranked r.ty a b → ¬Outranked r.ty b a →
           v = if r.b % 2 ^ 32 < old % 2 ^ 32 ∨ r.b % 2 ^ 32 = old % 2 ^ 32 ∧ r.b < old then r.b else old))) ∧
     (r.what = 1 → if old = r.b then r.compute old = some (r.c, 0) else r.compute old = none) ∧
     (r.what = 2 → gives fun v => v = if r.opn = 0 then r.b else (old + r.b) % 2 ^ w) ∧
     (r.what = 3 → r.compute old = none)) ∧
  (∀ (s : State),
     (∀ (c : Cx) (x : Ext),
       let dest := destReg x.d
       let want := (c.threads x.p).map fun t => ({ thread := t, va := c.atomEa x t, member := t / 32 } : Want)
       let got := fun (rd wr : Bool) (size : Nat) => s.tick.translate c (c.who rd wr) size (some (size, 7)) x.p want
       let size := if x.ty.wide then 8 else 4
       -- one access for each active thread, with its operands
       let asks := fun (reqs : List AtomReq) (gs : List Got) (what size : Nat) (reg : Option Nat) => reqs.length = gs.length ∧
         ∀ (i : Nat) (g : Got) (r : AtomReq), gs[i]? = some g → reqs[i]? = some r → r.thread = g.thread ∧ r.pa = g.addrs.headD 0 ∧ r.width = size ∧ r.what = what ∧
           r.reg = reg ∧ r.done = false ∧ r.msa = g.msa
       (∀ t, c.atomEa x t < 2 ^ 64 ∧
         ((c.atomEa x t : Int) - ((c.src x .A true .int t).toNat + (BitVec.ofNat 10 (bits x.w2 11 2)).toInt)) % 2 ^ 64 = 0) ∧
       (ReadyM s c x (formAtom x) [] (if dest.isSome then 0 else 1) →
         let n := if atomWide x then 8 else 4
         (∀ t, got true true n = .error t → Faults s (.atom x) c t) ∧
         ∀ gs seen, got true true n = .ok (gs, seen) →
           (gs = [] → dest = none → Idles s (.atom x) c x.words fun _ _ => True) ∧
           (gs ≠ [] ∨ dest ≠ none → c.stageFull s.tick (if dest.isNone then n * gs.length else 0) = false →
             Starts s (.atom x) c x.words (if dest.isSome then 0 else 1) fun _ _ o => ∃ reqs, o.kind = .atom reqs ∧ asks reqs gs 0 n dest ∧
               ∀ r ∈ reqs, r.opn = x.subBits 8 5 ∧ r.ty = x.ty ∧ r.rnd = c.mode x.rnd ∧ r.fzi = c.fzi ∧ r.fzo = c.fzo ∧
                 r.b = (c.src x .B (n == 8) (if x.ty.isFloat && r.opn != 13 then .flt x.ty else .int) r.thread).toNat)) ∧
       (ReadyM s c x (formAtomcas x) [] 0 →
         (∀ t, got true true size = .error t → Faults s (.atomcas x) c t) ∧
         ∀ gs seen, got true true size = .ok (gs, seen) → dest ≠ none → c.stageFull s.tick 0 = false →
           Starts s (.atomcas x) c x.words 0 fun _ _ o => ∃ reqs, o.kind = .atom reqs ∧ asks reqs gs 1 size dest ∧
             ∀ r ∈ reqs, r.b = (c.src x .B x.ty.wide .int r.thread).toNat ∧ r.c = (c.plain x .C x.ty.wide .int r.thread).toNat) ∧
       (ReadyM s c x (formSignal x) [] 1 →
         (∀ t, got false true size = .error t → Faults s (.signal x) c t) ∧
         ∀ gs seen, got false true size = .ok (gs, seen) →
           (gs = [] → Idles s (.signal x) c x.words fun _ _ => True) ∧
           (gs ≠ [] → Starts s (.signal x) c x.words 1 fun t _ o => ∃ reqs e, o.kind = .signal reqs e 0 0 ∧ asks reqs gs 2 size none ∧
             (∀ r ∈ reqs, r.opn = x.subBits 8 5 ∧ r.b = (c.src x .B x.ty.wide .int r.thread).toNat) ∧
             ∃ k ∈ t.edges, k.id = e ∧ k.grp = c.g.id ∧ k.v = c.g.horizon)) ∧
       (ReadyM s c x (formObserve x) [] 0 →
         (∀ t, got true false size = .error t → Faults s (.observe x) c t) ∧
         ∀ gs seen, got true false size = .ok (gs, seen) → Starts s (.observe x) c x.words 0 fun _ u o =>
           u.observing = some o.id ∧ ∃ reqs, o.kind = .atom reqs ∧ asks reqs gs 3 size dest) ∧
       (ReadyM s c x (formMonitor x) [] 4 →
         (c.threads x.p = [] → Idles s (.monitor x) c x.words fun _ _ => True) ∧
         (∀ t, c.threads x.p ≠ [] → got true false 4 = .error t → Faults s (.monitor x) c t) ∧
         ∀ g gs seen, got true false 4 = .ok (g :: gs, seen) → Passes s (.monitor x) c x.words fun t _ u => ∃ o m,
           t.ops.getLast? = some o ∧ o.kind = .monitor (g.addrs.headD 0) g.msa ∧ u.monitor = some m ∧ m.addr = some (g.addrs.headD 0) ∧
             m.pending = true ∧ m.order = o.id ∧ m.wakes = [])) ∧
     (∀ (id i : Nat) (o : Op) (reqs : List AtomReq) (r : AtomReq), s.arg = .pair id i → s.op? id = some o → reqs[i]? = some r →
       s.atomReady o i r = true → r.width = 4 ∨ r.width = 8 → r.pa % r.width = 0 → s.staged = [] →
       (∀ g l, s.group? o.grp = some g → s.launch? g.launch = some l → l.ord = false) →
       let bad := (s.markOf (s.fwd (r.pa / 64))).poison ≠ 0 ∨ (s.markOf (s.fwd (r.pa / 64))).failing = true
       let old := (List.range r.width).map fun j => s.byteAt (r.pa + j)
       let performs := fun (e : Instr) => ∃ t, exec e s = .next t ∧ t.forward = s.forward ∧
         (bad → t.mem = s.mem) ∧
         (¬bad → (r.reg ≠ none → ∃ p, t.op? id = some p ∧ ∀ j, j < r.width → (p.taken.get { byte := 0, mark := none } (512 * i + j)).byte = old.getD j 0) ∧
           match r.compute (leNat old) with
           | none => t.mem = s.mem
           | some (v, fl) => (r.reg ≠ none → ∃ p, t.op? id = some p ∧ p.reqs[i]? = some { r with done := true, fl := fl }) ∧
             ∀ p, SMap.get 0 t.mem p = if s.place r.pa ≤ p ∧ p < s.place r.pa + r.width then (leBytes r.width v).getD (p - s.place r.pa) 0 else SMap.get 0 s.mem p)
       (o.kind = .atom reqs → performs .atomicAtExecutor) ∧
       (∀ e v, o.kind = .signal reqs e 2 v → s.clear v = true → performs .signalPerform)) ∧
     (∀ (id : Nat) (o : Op) (reqs : List AtomReq) (e v : Nat), s.arg = .num id → s.op? id = some o →
       (∀ k, o.kind = .signal reqs e 0 v → (s.edges.find? fun k => k.id == e) = some k → k.pend = [] →
         ∃ t, exec .signalDepart s = .next t ∧ t = { s with edges := t.edges, ops := t.ops, stamp := s.stamp + 1 } ∧
           ∃ h, k.v ≤ h ∧ (∀ g, s.group? o.grp = some g → g.horizon ≤ h) ∧ t.op? id = some { o with kind := .signal reqs e 1 h }) ∧
       (o.kind = .signal reqs e 1 v → ∃ t, exec .signalArriveExecutor s = .next t ∧ t = { s with ops := t.ops, stamp := s.stamp + 1 } ∧
         t.op? id = some { o with kind := .signal reqs e 2 v })) ∧
     ∀ (id : Nat) (o : Op) (g : Group) (reqs : List AtomReq), s.arg = .part id none → s.op? id = some o → s.group? o.grp = some g →
       o.kind = .atom reqs → (∀ r ∈ reqs, r.done = true ∧ r.reg ≠ none ∧ (r.width = 4 ∨ r.width = 8)) → o.given = [] →
       (∀ i r, reqs[i]? = some r → ∀ j, j < r.width → o.taken.has (512 * i + j) = true) → reqs.Pairwise (fun a b => a.thread ≠ b.thread) →
       ∃ t g', exec .loadDataArrival s = .next t ∧ t.mem = s.mem ∧ t.op? id = none ∧ t.group? o.grp = some g' ∧
         (∀ u ∈ g'.subs, u.observing ≠ some o.id) ∧ (∀ r ∈ reqs, g'.fpsr.get 0 r.thread = g.fpsr.get 0 r.thread ||| r.fl) ∧
         g'.counter o.counter = g.counter o.counter - 1 ∧
         ∀ i r n, reqs[i]? = some r → r.reg = some n → ∀ b, b < r.width →
           (g'.vcur (n + b / 4) r.thread).toNat / 2 ^ (8 * (b % 4)) % 2 ^ 8 = (o.taken.get { byte := 0, mark := none } (512 * i + b)).byte.toNat)

/-! ### Waits -/

/-- WAITC, BAR, SLEEP, MWAIT, AWAIT, AWAITN, MSPLIT (R63, R74 02_encoding.md, R128, R129 04_sequencer.md, R272 11_atomics.md, R329 14_spawn.md,
R383 17_regroup.md): WAITC holds its sub-group at once; the others arm what the boundary after the trailer does. A BAR of a level that this launch
cannot meet traps.
It rests on the model's readings: log 17. -/
def Obligations.WaitsAreArmed : Prop :=
  ∀ (s : State) (c : Cx) (x : Ext),
    let arms := fun (i : Instr) (b : Boundary) => Passes s i c x.words fun t g u => t.ops.length = s.ops.length ∧
      (∀ j, g.counter j = c.g.counter j) ∧ u.boundary = some b
    let n := (c.plain x .A false .int 0).toNat
    (Ready s c x formWaitc → Holds s (.waitc x) c (.waitc (bits x.w1 23 18) (bits x.w1 17 12) (bits x.w1 11 6) (bits x.w1 5 0))) ∧
    (Ready s c x (formOnce false 7 []) → s.notLast c = [] →
      let level := x.subBits 2 0
      let meets := ∃ d, c.l.domain level = some d ∧ (d = 0 ∨ c.g.spawned = false ∧ (d = 1 ∨ c.l.conc = true))
      (meets → arms (.bar x) (.bar level)) ∧ (¬meets → Faults s (.bar x) c { cause := 0x0C, msk := c.threads 0 })) ∧
    (Ready s c x (formOnce true 0 []) → s.notLast c = [] → arms (.sleep x) (.sleep n)) ∧
    (ReadyM s c x formMwait (s.notLast c) 4 →
      (∀ d, operandOf x.d = .ureg d → arms (.mwait x) (.mwait n (some d))) ∧ (isUni x.d = false → arms (.mwait x) (.mwait n none))) ∧
    (ReadyMem s c x formAwait [] (s.notLast c) → arms (.await x) (.await 0 (c.threads x.p))) ∧
    (ReadyMem s c x formAwaitn [] (s.notLast c) → arms (.awaitn x) (.await n (c.threads x.p))) ∧
    (ReadyMem s c x (formMsplit x) [] (s.notLast c) →
      arms (.msplit x) (.split (if x.bit1 0 then some (BitVec.ofNat 8 n) else none)))

/-- The ends of waits: WAITC_RETURN (R34, R74), COUNTER_STALL_RELEASE (R33), BAR_RELEASE (R128), SLEEP_EXPIRE (R129), MWAIT_WAKE, MWAIT_TIMEOUT and
OTHER_CAUSE_WAKE_EVENT (R271, R272), AWAIT_CONDITION_MET (R329, R330, R335): under what conditions each comes about and what it leaves.
It rests on the model's readings: log 39. -/
def Obligations.WaitsEnd : Prop :=
  ∀ (s : State) (r : SubRef) (g : Group) (u : SubGroup), s.arg = .sub r → s.group? r.grp = some g → g.sub? r.sub = some u →
    (∀ ld st cp mx, u.phase = .waitc ld st cp mx → g.ld ≤ ld → g.st ≤ st → g.cp ≤ cp → g.mx ≤ mx →
      ((2 ∈ g.uncovered ∨ 3 ∈ g.uncovered) → s.clear g.horizon = true) →
      ((∀ d ∈ g.deferred, d.ready = true → 4 ≤ d.counter) → Turns s .waitcReturn r fun _ g' u' =>
        u' = { u with phase := .running, pc := u.pc + 12, ndone := u.ndone + 1, yielded := false } ∧
        g' = { g with uncovered := [], gepoch := g'.gepoch, subs := g'.subs }) ∧
      ∀ d, (g.deferred.find? fun d => d.ready && decide (d.counter < 4)) = some d → d.cause < 2 ^ 8 →
        Turns s .waitcReturn r fun _ g' u' => u' = { u with phase := .trapped } ∧ bits g'.trap.info 7 0 = d.cause ∧ g'.trap.pc = u.pc ∧
          ∀ e ∈ g'.deferred, e.op ≠ d.op) ∧
    (∀ k, u.phase = .counterStall k → g.counter k ≤ 62 → Turns s .counterStallRelease r fun t _ u' =>
      u' = { u with phase := .running } ∧ t = { s with groups := t.groups, stamp := s.stamp + 1 }) ∧
    (∀ wake, u.phase = .sleep wake → wake ≤ s.time → Turns s .sleepExpire r fun t _ u' =>
      u' = { u with phase := .running } ∧ t = { s with groups := t.groups, stamp := s.stamp + 1 }) ∧
    (∀ until' dest m, u.phase = .mwait until' dest → u.monitor = some m →
      let ends := fun (i : Instr) (reason : Nat) => Turns s i r fun t _ u' => t = { s with groups := t.groups, stamp := s.stamp + 1 } ∧
        u' = { u with phase := .running, monitor := none, uregs := u'.uregs, umarks := u'.umarks } ∧
        ∀ n, u'.ureg n = (if dest = some n then BitVec.ofNat 32 reason else u.ureg n) ∧
          u'.umarks.has n = (decide (dest ≠ some n) && u.umarks.has n)
      (∀ reason rest, m.wakes = reason :: rest → ends .mwaitWake reason) ∧
      ∀ d, until' = some d → d ≤ s.time → m.wakes = [] → ends .mwaitTimeout 3) ∧
    (∀ m, u.monitor = some m → m.pending = false → Turns s .otherCauseWakeEvent r fun t _ u' =>
      u' = { u with monitor := some { m with wakes := m.wakes ++ [4] } } ∧ t = { s with groups := t.groups, stamp := s.stamp + 1 }) ∧
    (∀ l level dom, s.launch? g.launch = some l → u.phase = .bar level → l.domain level = some dom →
      let unit := if dom = 0 then [g] else s.groups.filter fun o => l.sameUnit dom g o && o.subs.any fun v => o.subLive v
      l.allPlaced dom = true → (∀ o ∈ unit, (dom = 0 ∨ o.resident = true) ∧ l.arrived dom o = true) →
      s.quietFor (unit.map fun o => o.id) = true →
      ∃ t, exec .barRelease s = .next t ∧ t.mem = s.mem ∧ t.ops = s.ops ∧ ∀ o ∈ unit, ∃ o' ∈ t.groups,
        o' = { o with gepoch := o'.gepoch, horizon := o'.horizon,
                      subs := o.subs.map fun v => if l.atBar dom v then { v with phase := .running } else v } ∧
        (dom ≠ 0 → ∀ p ∈ unit, p.horizon ≤ o'.horizon)) ∧
    ∀ l since n act, s.launch? g.launch = some l → u.phase = .await since n act → s.framesOpen l = true →
      let met := ∀ t ∈ act, s.outstanding l g.awr t ≤ n
      let mark := s.awaitMark l g act
      (g.awrBad = true → g.resident = true → Turns s .awaitConditionMet r fun _ g' u' =>
        u' = { u with phase := .trapped } ∧ bits g'.trap.info 7 0 = 0x12 ∧ bits g'.trap.info 15 8 = 3) ∧
      -- a failing or poisoned line of the await record
      (∀ m, g.awrBad = false → g.resident = true → mark = some m → m.cause < 2 ^ 8 → Turns s .awaitConditionMet r fun _ g' u' =>
        u' = { u with phase := .trapped } ∧ bits g'.trap.info 7 0 = m.cause ∧ bits g'.trap.info 15 8 = m.detail % 2 ^ 8) ∧
      (g.awrBad = false →
        (g.place = .yielded → met ∨ mark ≠ none → ∃ t g', exec .awaitConditionMet s = .next t ∧ t.mem = s.mem ∧ t.group? r.grp = some g' ∧
          g' = { g with place := .ready, rank := g'.rank }) ∧
        (g.place = .slot → met → mark = none → s.clear (g.reportHorizon act) = true →
          ∃ t g' u', exec .awaitConditionMet s = .next t ∧ t.group? r.grp = some g' ∧ g'.sub? r.sub = some u' ∧ u'.phase = .running ∧
            u'.pc = u.pc ∧ g'.vregs = g.vregs ∧ g.horizon ≤ g'.horizon ∧ ∀ t ∈ act, g.reports.get 0 t ≤ g'.horizon))

/-! ### Translation -/

/-- The walk (R279 to R284 12_translation.md) and the checks of an access (R244 10_loadstore.md): an invalid entry, a leaf with its member's
frame, a pointer, read as its core's group reads it (R99 03_visibility.md), a marked line (R39, R284) and one to which there is no path (R449); the DETAIL of each permission that a page does not give. TLBINV, QSYNC, MIGR, PGQRY (R285 to R294 12_translation.md): unprivileged they trap before any effect; privileged, TLBINV and QSYNC.wait hold
their sub-group until the dies have dropped what they name and answered, and until QC has come to the number that QSYNC.wait took; put and take
work on the quarantine queue; MIGR starts an operation on the CP counter, and its end moves a page without changing a value, or clears a
frame, and gives its status; PGQRY reads translations, lines, units and the queue.
It rests on the model's readings: logs 12, 21, 40 and 44. -/
def Obligations.TranslationAndItsInstructions : Prop :=
  (∀ (s : State),
     (∀ (core : Option Nat) (asid va member level table : Nat) (seen : List TlbEntry),
       (∀ e ∈ s.tlb, core = some e.core → e.asid = asid → e.level = level → e.va ≠ va / 2 ^ levelShift level) →
       let slot := table + 16 * (va / 2 ^ levelShift level % 2 ^ levelBits level)
       let walked := (s.walkFrom core asid va member level table seen).1
       let entry := s.entryFor core slot
       let w0 := entry.1
       let addr := bits w0 51 9 * 2 ^ 9
       let line := s.fwd (slot / 64)
       let mark := s.markOf line
       -- the entry's bytes, with the writes of the core's own group that are no longer or not yet at its home (R99)
       (∀ j, j < 16 → slot % 16 = 0 → (entry.1.toNat + entry.2.toNat * 2 ^ 64) / 2 ^ (8 * j) % 2 ^ 8 =
         let off := slot % 64 + j
         let below := fun (k : Nat) => match s.writes.reverse.find? fun w => w.core == some k && w.line == line && w.staged.isNone && w.bytes.has off with
           | some w => w.bytes.get 0 off
           | none => s.byteAt (slot + j)
         (match core with
           | none => s.byteAt (slot + j)
           | some k => match s.l1? k line with
             | some y => if y.dirty.has off then y.dirty.get 0 off else below k
             | none => below k).toNat) ∧
       (s.pathTo line = false → walked = .fails 0 0) ∧
       (s.pathTo line = true → mark.poison ≠ 0 → walked = .fails 6 mark.poison line) ∧
       (s.pathTo line = true → mark.poison = 0 → mark.failing = true → walked = .fails 7 0 line) ∧
       (s.pathTo line = true → mark.poison = 0 → mark.failing = false →
         (w0.getLsbD 0 = false → walked = .fails 5 1) ∧
         (w0.getLsbD 0 = true → s.entryBad level w0 entry.2 = true → walked = .fails 5 8) ∧
         (w0.getLsbD 0 = true → s.entryBad level w0 entry.2 = false → w0.getLsbD 1 = true → ∃ l, walked = .leaf l ∧
           l.pa = addr + (if w0.getLsbD 6 then member * 2 ^ levelShift level else 0) + va % 2 ^ levelShift level ∧ l.level = level ∧
           l.rd = w0.getLsbD 2 ∧ l.wr = w0.getLsbD 3 ∧ l.ex = w0.getLsbD 4 ∧ l.prv = w0.getLsbD 5 ∧ l.msa = w0.getLsbD 7 ∧
           l.psn = w0.getLsbD 8) ∧
         (∀ k, w0.getLsbD 0 = true → s.entryBad level w0 entry.2 = false → w0.getLsbD 1 = false → level = k + 1 →
           walked = (s.walkFrom core asid va member k addr []).1))) ∧
     ∀ (w : Who) (va member : Nat) (l : Leaf), w.peer = 0 →
       let reached := (s.reach w va member).1
       (2 ^ 57 ≤ va → reached = .error (va, 5, 4)) ∧
       (∀ cause detail line, va < 2 ^ 57 → (s.walk w.core w.asid va member).1 = .fails cause detail line →
         reached = .error (if cause = 7 then 64 * line else va, cause, detail)) ∧
       (va < 2 ^ 57 → (s.walk w.core w.asid va member).1 = .leaf l → l.pl ≠ 3 →
         let rd := w.rd && !l.rd
         let wr := w.wr && !l.wr
         let pr := l.prv && !w.priv
         (rd = true → wr = false → pr = false → reached = .error (va, 5, 2)) ∧ (rd = false → wr = true → pr = false → reached = .error (va, 5, 3)) ∧
         (rd = false → wr = false → pr = true → reached = .error (va, 5, 6)) ∧
         (rd = false → wr = false → pr = false → reached = if l.psn then .error (va, 6, 1) else .ok { pa := l.pa, msa := l.msa, chip := l.chip }))) ∧
  (∀ (s : State),
     (∀ (c : Cx) (x : Ext),
       let a := (c.plain x .A true .int 0).toNat
       let d64 := fun (n : Nat) => BitVec.ofNat 64 n
       let traps := fun (i : Instr) => Faults s i c { cause := 4, msk := c.threads x.p }
       (ReadyMem s c x (formTlbinv x) [] [] →
         (c.l.priv = false → traps (.tlbinv x)) ∧
         (c.l.priv = true → ∃ id, Holds s (.tlbinv x) c (.engine id) ∧ ∀ t, exec (.tlbinv x) s = .next t → ∃ o m b v e, t.ops.getLast? = some o ∧
           o.id = id ∧ o.grp = c.g.id ∧ o.kind = .tlbinv m b v e s.basesUp [] ∧ m = x.subBits 1 0 ∧
           (m ≠ 0 → b = (c.plain x .A false .int 0).toNat % 2 ^ 16) ∧ (m = 2 → v = (c.plain x .B true .int 0).toNat))) ∧
       (ReadyMem s c x (formQsync x) [] [] →
         (c.l.priv = false → traps (.qsyncWait x) ∧ traps (.qsyncPut x) ∧ traps (.qsyncTake x)) ∧
         (c.l.priv = true →
           (∃ id, Holds s (.qsyncWait x) c (.engine id) ∧ ∀ t, exec (.qsyncWait x) s = .next t → t.qi = (s.qi + 1) % 2 ^ 64 ∧
             ∃ o, t.ops.getLast? = some o ∧ o.id = id ∧ o.kind = .qsync t.qi x.d) ∧
           (let sz := (c.plain x .B false .int 0).toNat
            let page := 2 ^ ([16, 21, 30, 36].getD sz 0)
            let puts := fun (status : Nat) (queue : List (Nat × Nat × Nat)) (qi : Nat) =>
              Answers s (.qsyncPut x) c x.words x.d x.p false (fun _ => d64 status) fun t =>
                t.mem = s.mem ∧ t.quarantine = queue ∧ t.qi = qi
            (3 < sz ∨ a % page ≠ 0 → puts 2 s.quarantine s.qi) ∧
            (sz ≤ 3 → a % page = 0 → 4096 ≤ s.quarantine.length → puts 1 s.quarantine s.qi) ∧
            (sz ≤ 3 → a % page = 0 → s.quarantine.length < 4096 →
              puts 0 (s.quarantine ++ [(a, sz, (s.qi + 1) % 2 ^ 64)]) ((s.qi + 1) % 2 ^ 64))) ∧
           (let takes := fun (v : Nat) (queue : List (Nat × Nat × Nat)) =>
              Answers s (.qsyncTake x) c x.words x.d x.p true (fun _ => d64 v) fun t => t.mem = s.mem ∧ t.quarantine = queue
            (s.quarantine = [] → takes 0 []) ∧
            ∀ f sz n rest, s.quarantine = (f, sz, n) :: rest → (n ≤ s.qc → takes (f + sz) rest) ∧ (s.qc < n → takes 0 s.quarantine)))) ∧
       (∀ move, ReadyMem s c x (formMigr x) [] [] →
         let i := if move then Instr.migrMove x else .migrScrub x
         (c.l.priv = false → traps i) ∧
         (c.l.priv = true → 63 ≤ c.g.cp → Holds s i c (.counterStall 2)) ∧
         (c.l.priv = true → c.g.cp < 63 → Starts s i c x.words 2 fun _ _ o => ∃ sel, o.kind = .migr move sel (c.plain x .B true .int 0).toNat
           (c.plain x .C move .int 0).toNat (match operandOf x.d with | .ureg n => some n | _ => none) none ∧
           (move = true → sel = (c.plain x .A false .int 0).toNat))) ∧
       (ReadyMem s c x (formPgqry x) [] [] →
         let threads := if isUni x.d then [0] else c.threads x.p
         let sel := fun (t : Nat) => (c.plain x .A false .int t).toNat
         let loc := fun (t : Nat) => (c.plain x .B true .int t).toNat
         let reads := fun (P : Nat → Nat → Prop) => ∃ f : Nat → Nat, Answers s (.pgqry x) c x.words x.d x.p true (fun t => d64 (f t)) (fun t => t.mem = s.mem) ∧
           ∀ t, P t (f t)
         -- an A outside its range is an illegal instruction, which ranks above the privilege (R134)
         let inRange := ∀ t ∈ threads, sel t ≤ match x.subBits 1 0 with | 2 => 5 | 3 => 3 | _ => 2 ^ 32
         (¬inRange → Faults s (.pgqry x) c { cause := 1, detail := 16 }) ∧
         (c.l.priv = false → inRange → traps (.pgqry x)) ∧
         (c.l.priv = true → inRange →
           (x.subBits 1 0 = 0 → reads fun t v =>
             2 ^ 57 ≤ loc t ∧ v = 0 ∨ loc t < 2 ^ 57 ∧
               match (s.tick.walk (some c.g.core) (sel t % 2 ^ 16) (loc t) (if isUni x.d then 0 else t / 32)).1 with
               | .fails _ _ _ => v = 0
               | .leaf l => l.level < 4 → l.pl < 4 → v / 2 ^ 63 % 2 = 1 ∧ v / 2 ^ 61 % 4 = l.level ∧ v / 2 ^ 59 % 4 = l.pl ∧ v.testBit 58 = l.psn ∧
                 v.testBit 57 = l.msa ∧ v.testBit 56 = l.mr ∧ v.testBit 55 = l.prv ∧ v.testBit 54 = l.ex ∧ v.testBit 53 = l.wr ∧
                 v.testBit 52 = l.rd ∧ v % 2 ^ 52 = l.pa % 2 ^ 52) ∧
           (x.subBits 1 0 = 1 → reads fun t v =>
             (s.home (loc t) = none → v = 0) ∧ ∀ d o, s.home (loc t) = some (d, o) → d < 8 →
               let m := s.markOf (s.fwd (loc t / 64))
               v < 2 ^ 12 ∧ v % 2 ^ 3 = d ∧ v / 2 ^ 3 % 2 ^ 6 = (if d < 4 then sliceOf o else 0) % 2 ^ 6 ∧ v.testBit 9 = decide (m.poison ≠ 0) ∧
                 v.testBit 10 = m.failing ∧ v.testBit 11 = decide (2 ≤ s.dieCode d)) ∧
           (x.subBits 1 0 = 2 → reads fun t v =>
             let d := sel t
             let serves := s.dieCode d < 2
             let up := 64 - (s.mapped.filter fun k => k / 64 == d).length - (s.lost.filter fun k => k / 64 == d).length
             (4 ≤ d → v = s.dieCode d * 2 ^ 24 + if serves then (512 - 8 * (s.mapped.filter fun k => k / 64 == d).length) * 2 ^ 32 else 0) ∧
             (d < 4 → v = (s.cores.filter fun k => dieOf k == d).length +
               ((List.range 10).filter fun j => s.cores.any fun k => dieOf k == d && clusterOf k == 10 * d + j).length * 2 ^ 8 +
               s.dieCode d * 2 ^ 24 + if serves then up * 2 ^ 16 + 2 * up * 2 ^ 32 else 0)) ∧
           (x.subBits 1 0 = 3 → reads fun t v => (sel t = 0 → v = s.qi) ∧ (sel t = 1 → v = s.qc ∧ v ≤ s.qi) ∧
             (sel t = 2 → v = s.quarantine.length) ∧ (sel t = 3 → v ≤ s.quarantine.length))))) ∧
     (∀ (id die : Nat) (o : Op) (mode asid va e : Nat) (todo acks : List Nat), s.arg = .pair id die → s.op? id = some o →
       o.kind = .tlbinv mode asid va e todo acks →
       (die ∈ todo → (∀ k ∈ s.edges, k.id = e → k.pend = []) → ∃ t, exec .tlbinvDieInvalidate s = .next t ∧
         t = { s with tlb := t.tlb, ops := t.ops, stamp := s.stamp + 1 } ∧
         (∀ k, k ∈ t.tlb ↔ k ∈ s.tlb ∧ ¬(dieOf k.core = die ∧ k.matched mode asid va = true)) ∧
         t.op? id = some { o with kind := .tlbinv mode asid va e (todo.filter (· ≠ die)) (acks ++ [die]) }) ∧
       (die ∈ acks → (todo ≠ [] ∨ ∃ k ∈ acks, k ≠ die) → ∃ t, exec .tlbinvAcknowledgement s = .next t ∧
         t = { s with ops := t.ops, stamp := s.stamp + 1 } ∧
         t.op? id = some { o with kind := .tlbinv mode asid va e todo (acks.filter (· ≠ die)) }) ∧
       ∀ r g u, die ∈ acks → todo = [] → (∀ k ∈ acks, k = die) → s.heldBy id = some r → r.grp = o.grp → s.group? r.grp = some g →
         g.sub? r.sub = some u → ∃ t g', exec .tlbinvAcknowledgement s = .next t ∧ t.mem = s.mem ∧ t.op? id = none ∧
           t.group? r.grp = some g' ∧ g' = { g with subs := g'.subs } ∧
           g'.sub? r.sub = some { u with phase := .running, pc := u.pc + 12, ndone := u.ndone + 1, yielded := false }) ∧
     (∀ (r : SubRef) (g : Group) (u : SubGroup) (id n : Nat) (d : BitVec 9) (o : Op), s.arg = .sub r → s.group? r.grp = some g →
       g.sub? r.sub = some u → u.phase = .engine id → s.op? id = some o → o.kind = .qsync n d → n ≤ s.qc →
       ∃ t g' u', exec .qsyncWaitComplete s = .next t ∧ t.mem = s.mem ∧ t.op? id = none ∧ t.group? r.grp = some g' ∧ g'.sub? r.sub = some u' ∧
         u'.phase = .running ∧ u'.pc = u.pc + 12 ∧ u'.ndone = u.ndone + 1 ∧
         ∀ k, operandOf d = .ureg k → u'.ureg k = BitVec.ofNat 32 n ∧ u'.ureg (k + 1) = BitVec.ofNat 32 (bits (BitVec.ofNat 64 n) 63 32)) ∧
     ∀ (id : Nat) (o : Op) (g : Group) (move : Bool) (a b dst : Nat) (reg : Option Nat) (leaf : Option MovingLeaf), s.arg = .num id → s.op? id = some o →
       s.group? o.grp = some g → o.counter = 2 → o.kind = .migr move a b dst reg leaf →
       -- it completes with a status
       let ends := fun (P : Nat → State → Prop) => ∃ t g' status, exec .migrComplete s = .next t ∧ t.op? id = none ∧ t.group? o.grp = some g' ∧
         g'.cp = g.cp - 1 ∧ P status t ∧
         ∀ n u, reg = some n → u ∈ g.subs → u.ulate.get 0 n = id + 1 → ∃ u' ∈ g'.subs, u'.num = u.num ∧
           u'.ureg n = BitVec.ofNat 32 status ∧ u'.ulate.has n = false
       (move = false →
         let size := 2 ^ [16, 21, 30, 36].getD dst 0
         let inside := dst ≤ 3 ∧ b % size = 0 ∧ b < 2 ^ 52 ∧ s.home b ≠ none ∧ s.home (b + size - 1) ≠ none
         (¬inside → ends fun status t => status = 7 ∧ t.mem = s.mem) ∧
         (inside → s.forward = [] → ends fun status t => status = 0 ∧ ∀ p, SMap.get 0 t.mem p = if b ≤ p ∧ p < b + size then 0 else SMap.get 0 s.mem p)) ∧
       let pl := a / 2 ^ 16 % 4
       (move = true → leaf = none → s.migrLeaf (a % 2 ^ 16) b = none → ends fun status t => status = 1 ∧ t.mem = s.mem) ∧
       (∀ l, move = true → leaf = none → s.migrLeaf (a % 2 ^ 16) b = some l →
         (s.migrRefuses l pl dst ≠ [] → ends fun status t => status ∈ s.migrRefuses l pl dst ∧ t.mem = s.mem) ∧
         (s.migrRefuses l pl dst = [] → s.forward = [] → ∃ t, exec .migrComplete s = .next t ∧
           t.op? id = some { o with kind := .migr move a b dst reg (some { slot := l.slot, w0 := (s.entryAt l.slot).1, w1 := (s.entryAt l.slot).2 }) } ∧
           (∀ p, p < l.slot ∨ l.slot + 16 ≤ p → SMap.get 0 t.mem p = SMap.get 0 s.mem p) ∧
           (t.byteAt (l.slot + 8)).getLsbD 4 = true)) ∧
       -- the end of a move goes by the leaf that its start read (R290), whatever software has put there since
       ∀ l, move = true → leaf = some l → s.forward = [] → dst % 64 = 0 → (dst + l.span ≤ l.frame ∨ l.frame + l.span ≤ dst) →
         (l.slot + 16 ≤ l.frame ∨ l.frame + l.span ≤ l.slot) → (l.slot + 16 ≤ dst ∨ dst + l.span ≤ l.slot) →
         ends fun status t => status ∈ [0, 4, 6] ∧
           ((∀ j, j < l.span → (s.markOf ((l.frame + j) / 64)).poison = 0) → l.frame % 2 ^ levelShift l.level = 0 →
             s.quarantine.length + (if l.mr then 8 else 1) ≤ 4096 → status = 0) ∧
           (t.entryAt l.slot).1 = BitVec.ofNat 64 (bits l.w0 63 52 * 2 ^ 52 + dst / 2 ^ 9 % 2 ^ 43 * 2 ^ 9 + bits l.w0 8 0) ∧
           (t.entryAt l.slot).2 = BitVec.ofNat 64 (bits l.w1 63 5 * 2 ^ 5 + bits l.w1 3 2 * 2 ^ 2 + pl) ∧
           ∀ j, j < l.span → t.byteAt (l.frame + j) = s.byteAt (l.frame + j) ∧ t.place (l.frame + j) = dst + j)

/-! ### Tiles and copies -/

/-- TILEDEF, TILEREL, TILEQ and what an operation finds in a tile's entry (R298, R299, R302, R303 13_copy.md): a busy tile holds the instruction; a
range that passes the block's share or overlaps another tile faults; else the entry is empty and its bytes are zero; TILEREL leaves it undefined;
TILEQ reads it. -/
def Obligations.TilesAndTheirStates : Prop :=
  (∀ t : Tile, t.defined = true →
    (t.state = 0 → t.issue .fill = .go { t with state := 1, pf := 1 } ∧ t.issue .reader = .bad 2 ∧ t.issue .drain = .bad 2 ∧ t.issue .define = .go t) ∧
    (t.state = 1 → t.issue .fill = .go { t with pf := t.pf + 1 } ∧ t.issue .reader = .stall ∧ t.issue .drain = .stall ∧ t.issue .define = .stall) ∧
    (t.state = 2 → t.issue .reader = .go { t with rc := t.rc + 1 } ∧
      t.issue .fill = (if t.rc = 0 then .go { t with state := 1, pf := 1 } else .stall) ∧
      t.issue .drain = (if t.rc = 0 then .go { t with state := 3 } else .stall) ∧ t.issue .define = if t.rc = 0 then .go t else .stall) ∧
    (t.state = 3 → t.issue .fill = .stall ∧ t.issue .reader = .bad 3 ∧ t.issue .drain = .stall ∧ t.issue .define = .stall) ∧
    (1 < t.pf → t.finish .fill = { t with pf := t.pf - 1 }) ∧ (t.pf = 1 → t.finish .fill = { t with pf := 0, state := 2 }) ∧
    t.finish .reader = { t with rc := t.rc - 1 } ∧ t.finish .drain = { t with state := 0 }) ∧
  ∀ (s : State),
    (∀ (c : Cx) (x : Ext),
      let k := x.subBits 3 0
      let now := fun (t : State) (j : Nat) => t.tile c.l.id c.g.block c.g.core j
      let busy := (now s k).issue .define = .stall
      let bs := bits x.w2 27 16
      let sz := bits x.w2 11 0
      let pm := x.bit1 4
      let hi := 64 * (bs + sz * if pm then c.g.m else 1)
      let fits := hi ≤ (if c.g.spawned then 0 else c.l.poolShare) ∧ ∀ j, j < 16 → j ≠ k → (now s j).defined = true →
        64 * ((now s j).bs + (now s j).sz * if (now s j).pm then c.g.m else 1) ≤ 64 * bs ∨ hi ≤ 64 * (now s j).bs
      (ReadyMem s c x (formTiledef x) [] [] → (busy → Holds s (.tiledef x) c (.tileStall k .define)) ∧
        (¬busy → ¬fits → Faults s (.tiledef x) c { cause := 0x10, detail := 4, msk := c.threads x.p }) ∧
        (∀ b, ¬busy → fits → s.block? c.l.id c.g.block = some b → c.g.core ∈ b.cores → Passes s (.tiledef x) c x.words fun t _ _ =>
          now t k = { defined := true, pm := pm, bs := bs, sz := sz, state := 0, pf := 0, rc := 0 } ∧
          (∀ j, j < 16 → j ≠ k → now t j = now s j) ∧
          ∃ b', t.block? c.l.id c.g.block = some b' ∧ b'.cores = b.cores ∧
            (∀ off, 64 * bs ≤ off → off < hi → SMap.get 0 b'.pool (b'.poolKey c.g.core off) = 0) ∧
            ∀ k, k < b.poolKey c.g.core (64 * bs) ∨ b.poolKey c.g.core hi ≤ k → SMap.get 0 b'.pool k = SMap.get 0 b.pool k)) ∧
      (ReadyMem s c x formTilerel [] [] → (busy → Holds s (.tilerel x) c (.tileStall k .define)) ∧
        (¬busy → Passes s (.tilerel x) c x.words fun t _ _ => now t k = Tile.undefined ∧ ∀ j, j < 16 → j ≠ k → now t j = now s j)) ∧
      (ReadyMem s c x (formTileq x) [] [] → Computes s (.tileq x) c x x.words false fun _ =>
        (BitVec.ofNat 64 ((if (now s k).defined then (now s k).state + 1 + (if (now s k).pm then 8 else 0) + min (now s k).pf 63 * 2 ^ 4 +
          min (now s k).rc 63 * 2 ^ 10 + (now s k).sz * 2 ^ 16 else 0) % 2 ^ 32), 0))) ∧
    ∀ (r : SubRef) (g : Group) (u : SubGroup) (k : Nat) (role : TileRole), s.arg = .sub r → s.group? r.grp = some g → g.sub? r.sub = some u →
      u.phase = .tileStall k role → (s.tile g.launch g.block g.core k).issue role ≠ .stall →
      Turns s .tileStallRelease r fun t _ u' => u' = { u with phase := .running } ∧ t = { s with groups := t.groups, stamp := s.stamp + 1 }

/-- TCOPY, TILEDRN, HCOPY, TFILL and COPY_OPERATION_COMPLETE (R304 to R317 13_copy.md): a record or tile error faults before any effect; a busy
tile holds the instruction; else one operation starts on the CP counter and its tiles change as R298 says. Where an element lies: row-major with
its strides, by a shape table, or at a field's boundary. The operation translates every byte, or ends with an error; its end converts each element
and puts it into registers, a tile or the homes of its bytes.
It rests on the model's readings: log 32. -/
def Obligations.CopiesMoveElements : Prop :=
  -- the place of the element with the indices `ix` (R307)
  (∀ (base w : Nat) (dims : List (Nat × Int)) (ix : List Nat), dims ≠ [] → ix.length = dims.length →
     (∀ p ∈ dims.zip ix, p.2 < p.1.1) → let e := (dims.zip ix).foldr (fun p e => p.2 + p.1.1 * e) 0
     e < elementCount dims ∧
       elementBit base w dims e = 8 * base + ix.headD 0 * w + 8 * ((dims.zip ix).tail.map fun p => (p.2 : Int) * p.1.2).sum) ∧
  -- a coordinate at the boundary of a field (R316)
  (∀ (i : Int) (n : Nat), 0 < n → (0 ≤ i → i < n → ∀ mode, boundary i n mode = some i.toNat) ∧
     (¬(0 ≤ i ∧ i < n) → (∃ j, boundary i n 0 = some j ∧ j < n ∧ ((j : Int) - i) % n = 0) ∧
       boundary i n 1 = some (if i < 0 then 0 else n - 1) ∧ boundary i n 2 = none ∧
       ∃ j, boundary i n 3 = some j ∧ j < n ∧ (((j : Int) - i) % (2 * n) = 0 ∨ ((j : Int) + i + 1) % (2 * n) = 0))) ∧
  (∀ base stride x0 y0 h nx ny tx bx byy w e : Nat,
     let x := boundary ((x0 : Int) - h + (e % (tx + 2 * h) : Nat)) nx bx
     let y := boundary ((y0 : Int) - h + (e / (tx + 2 * h) : Nat)) ny byy
     fieldElement base stride x0 y0 h nx ny tx bx byy w e =
       x.bind fun x => y.map fun y => 8 * ((base : Int) + (y * stride : Nat)) + (x * w : Nat)) ∧
  -- a shape table (R306)
  (∀ (rank : Nat) (b : List Byte), b.length = 16 + 16 * rank → 0 < rank →
     let at' := fun (j n : Nat) => leNat ((b.drop j).take n)
     let sound := at' 2 14 = 0 ∧ at' 24 8 = 0 ∧ ∀ k, k < rank → at' (16 + 16 * k) 4 ≠ 0 ∧ at' (20 + 16 * k) 4 = 0
     (¬sound → shapeTable rank b = none) ∧
     ∀ dims, dims.length = rank → (∀ k, k < rank → dims.getD k (0, 0) = (at' (16 + 16 * k) 4, if k = 0 then (0 : Int) else intOf true 64 (at' (24 + 16 * k) 8))) →
       sound → shapeTable rank b = if elementCount dims ≤ 2 ^ 32 then some (at' 0 2, dims) else none) ∧
  (∀ (l : Launch) (ts td : DType) (mode : Rnd) (fzi fzo : Bool) (v : Nat), pairOk ts td = true → v < 2 ^ ts.width →
     Converted l ts td mode fzi fzo v (convert l ts td mode fzi fzo v)) ∧
  (∀ (t : DType) (v : Nat), v < 2 ^ t.width → t.width ≤ 32 → widen t v < 2 ^ 32 ∧
     ∀ k, k < 32 → (widen t v).testBit k = if k < t.width then v.testBit k else (t.signed || t == .t2 || t == .c8) && v.testBit (t.width - 1)) ∧
  ∀ (s : State),
    (∀ (c : Cx) (i : Instr) (words : Nat) (p : BitVec 4) (bad : List (Nat × Nat)) (tiles : List TileWant) (room : Nat) (w : CopyWork),
      -- the four instructions, ready to issue, with their errors, their tiles and their work
      (∃ x d a, i = .tcopy x ∧ ReadyRec s c x [x.b, x.c] (tcopyFails x false c) (c.copyMark x) 2 false (c.copyUses x) ∧ words = 7 ∧ p = x.p ∧
        copyEnd x.d = some d ∧ copyEnd x.a = some a ∧ bad = c.tcopyBad x d a ∧ tiles = c.tcopyTiles x false d a ∧ w = c.tcopyWork x d a ∧
        room = if d.isMem then w.xfers.length * ((c.copyCount x * w.td.width + 7) / 8) else 0) ∨
      (∃ x d a, i = .tiledrn x ∧ ReadyRec s c x [x.b, x.c] (tcopyFails x true c) none 2 ∧ words = 7 ∧ p = x.p ∧
        copyEnd x.d = some d ∧ copyEnd x.a = some a ∧ bad = c.tcopyBad x d a ∧ tiles = c.tcopyTiles x true d a ∧ w = c.tcopyWork x d a ∧
        room = if d.isMem then w.xfers.length * ((c.copyCount x * w.td.width + 7) / 8) else 0) ∨
      (∃ x k off, i = .hcopy x ∧ ReadyRec s c x [x.b, x.c] (hcopyFails x c) none 2 ∧ words = 7 ∧ p = x.p ∧ room = 0 ∧
        copyEnd x.d = some (.tile k off) ∧
        let r := c.recWord x
        let h := recField (r 1) 27 25
        let tx := recField (r 3) 7 0 + 1
        let ty := recField (r 3) 15 8 + 1
        let toff := 16 * recField (r 3) 31 16
        bad = (if h = 0 ∨ 4 < h then [(0x11, 4)] else []) ∧
        tiles = [{ k := k, role := .fill, first := 8 * toff, bits := (tx + 2 * h) * (ty + 2 * h) * (tdOf x).width }] ∧
        w = { src := .mem, dst := .tile k toff, ts := tsOf x, td := tdOf x, mode := c.mode x.rnd, fzi := c.fzi, fzo := c.fzo, pm := recPm x,
              xfers := c.transfers x.p (recPm x), active := c.threads x.p,
              way := .field (c.recAddr x 0) (c.recVal x.c) (c.recVal x.b % 2 ^ 16) (c.recVal x.b / 2 ^ 16 % 2 ^ 16) h
                (recField (r 2) 15 0 + 1) (recField (r 2) 31 16 + 1) tx ty (recField (r 1) 29 28) (recField (r 1) 31 30),
              moves := none }) ∨
      (∃ x, i = .tfill x ∧ ReadyMem s c x (formTfill x) (tfillUses x) (tfillDyn x c) ∧ c.g.cp < 63 ∧ words = x.words ∧ p = x.p ∧
        let n := x.ty.width / 8
        let off := (c.plain x .B false .int 0).toNat
        let count := (c.plain x .C false .int 0).toNat
        let v := (c.plain x .A x.ty.wide .int 0).toNat
        let fills := fun (dst : CopyEnd) (base : Nat) =>
          w = { src := .vals [[v]], dst := dst, ts := x.ty, td := x.ty, mode := .rne, fzi := false, fzo := false, pm := x.bit1 10,
                xfers := c.transfers x.p (x.bit1 10), active := c.threads x.p, way := .dims base [(count / n, 0)], moves := none }
        bad = (if off % n ≠ 0 ∨ count % n ≠ 0 then [(0x11, 6)] else []) ∧
        ((∃ k, tfillTile x = some k ∧ tiles = [{ k := k, role := .fill, first := 8 * off, bits := 8 * count }] ∧ room = 0 ∧ fills (.tile k off) 0) ∨
          (tfillTile x = none ∧ tiles = [] ∧ room = w.xfers.length * count ∧
            fills .mem (((c.ownVal x.d true .int none 0).toNat + off) % 2 ^ 64)))) →
      -- an instance without an active thread touches no tile (R309)
      let used := if w.xfers = [] then [] else tiles
      let fails := bad ++ used.flatMap fun t => (c.tileFails s t).map fun d => (0x10, d)
      (fails ≠ [] → ∃ f ∈ fails, Faults s i c { cause := f.1, detail := f.2, msk := c.threads p }) ∧
      (∀ k role, fails = [] → c.tileStalls s used = some (k, role) → Holds s i c (.tileStall k role)) ∧
      (fails = [] → c.tileStalls s used = none → c.stageFull s.tick room = false → (used.Pairwise fun a b => a.k ≠ b.k) →
        Starts s i c words 2 fun t _ o => o.kind = .copy w ∧ o.left = 0 ∧ o.ends = used.map (fun t => c.tileUse t.k t.role) ∧
          ∀ k ∈ used, (c.tile s k.k).issue k.role = .go (c.tile t k.k))) ∧
    ∀ (id : Nat) (o : Op) (g : Group) (l : Launch) (w : CopyWork), s.arg = .part id none → s.op? id = some o →
      s.group? o.grp = some g → s.launch? g.launch = some l → o.kind = .copy w → o.left = 0 → s.edgeClear o.edge = true →
      let mem := w.src = .mem ∨ w.dst = .mem
      let width := if w.src = .mem then w.ts.width else w.td.width
      let start := match w.moves with
        | some moves => (Except.ok moves, s.tick)
        | none => s.tick.copyStart o g l.priv w w.xfers
      let quiet := s.writes = [] ∧ s.staged = [] ∧ s.guests = []
      -- an error at its start ends it, and waits for a covering WAITC
      (∀ cause detail va, start.1 = .error (cause, detail, va) → ∃ t g', exec .copyOperationComplete s = .next t ∧ t.mem = s.mem ∧
        t.op? id = none ∧ t.group? o.grp = some g' ∧ g'.vregs = g.vregs ∧ g'.counter o.counter = g.counter o.counter - 1 ∧
        ∃ d ∈ g'.deferred, d.op = id ∧ d.ready = true ∧ d.counter = o.counter ∧ d.cause = cause ∧ d.detail = detail ∧ d.addr = va) ∧
      ∀ moves, start.1 = .ok moves →
        -- the elements of each transfer, in order, and where each of them lies
        (w.moves = none → w.xfers.Nodup → ∃ count : Nat → Nat,
          (moves.map fun mv => (mv.m, mv.e)) = (w.xfers.flatMap fun m => (List.range (count m)).map fun e => (m, e)) ∧
          (∀ m ∈ w.xfers, (∀ base dims, w.way = .dims base dims → count m = elementCount dims) ∧
            ∀ base stride x0 y0 h nx ny tx ty bx byy, w.way = .field base stride x0 y0 h nx ny tx ty bx byy →
              count m = (tx + 2 * h) * (ty + 2 * h)) ∧
          ∀ mv ∈ moves, mv.res = none ∧
            let reads := fun (rd wr : Bool) (va n : Nat) (addrs : List Nat) => ∃ (s' : State) (msa : Bool) (seen : List TlbEntry),
              s'.mem = s.mem ∧ s'.astbase = s.astbase ∧ s'.forward = s.forward ∧ s'.l1 = s.l1 ∧ s'.writes = s.writes ∧
              s'.reachAll { core := some o.core, asid := o.asid, priv := l.priv, rd := rd, wr := wr } va n mv.m = (.ok (addrs, msa), seen)
            let lies := fun (pos : Option Int) (first : Nat) => mv.first = first ∧ mv.fixed = pos.isNone ∧
              (¬mem ∨ pos = none → mv.addrs = [] ∧ mv.shift = 0) ∧
              ∀ b, mem → pos = some b → mv.shift = (b % 8).toNat ∧
                reads (w.src = .mem) (w.dst = .mem) ((b / 8 % 2 ^ 64).toNat) ((mv.shift + width + 7) / 8) mv.addrs
            match w.way with
            | .dims base dims => lies (some (elementBit base width dims mv.e)) 0
            | .field base stride x0 y0 h nx ny tx _ bx byy => lies (fieldElement base stride x0 y0 h nx ny tx bx byy w.ts.width mv.e) 0
            | .table base va rank => va % 8 = 0 ∧ ∃ b toff dims, shapeTable rank b = some (toff, dims) ∧ count mv.m = elementCount dims ∧
                (quiet → ∃ addrs, reads true false va (16 + 16 * rank) addrs ∧ b = addrs.map s.byteAt) ∧
                lies (some (elementBit base width dims mv.e)) (if mem then 128 * toff else 0)) ∧
        -- what each element becomes
        let tileBit := fun (e : CopyEnd) (mv : Move) (n : Nat) => match e with
          | .tile k off =>
            let t := s.tile g.launch g.block o.core k
            8 * (64 * t.bs + (if t.pm then 64 * t.sz * mv.m else 0) + off) + mv.first + mv.e * n
          | _ => 0
        let raw := fun (mv : Move) => match w.src with
          | .mem => leNat (mv.addrs.map s.byteAt) / 2 ^ mv.shift % 2 ^ w.ts.width
          | .tile _ _ => s.poolBits g.launch g.block o.core (tileBit w.src mv w.ts.width) w.ts.width
          | .vals vals => let v := vals.getD (w.xfers.idxOf mv.m) (vals.headD []); v.getD (mv.e % v.length) 0
          | .reg _ => 0
        let value := fun (mv : Move) => if mv.fixed then (0, 0) else convert l w.ts w.td w.mode w.fzi w.fzo (raw mv)
        let fl := moves.foldl (fun f mv => f ||| (value mv).2) (0 : Flags)
        (∀ mv ∈ moves, mv.res = none ∧ ∀ pa ∈ mv.addrs, s.pathTo (pa / 64) = true) → s.copyHolds o g l.ord w moves = false → o.given = [] →
        (w.src = .mem → quiet ∧ ∀ mv ∈ moves, ∀ pa ∈ mv.addrs, (s.markOf (s.fwd (pa / 64))).poison = 0 ∧ (s.markOf (s.fwd (pa / 64))).failing = false) →
        (∀ b, s.block? g.launch g.block = some b → b.struck = []) →
        let completes := fun (P : State → Group → Prop) => ∃ t g', exec .copyOperationComplete s = .next t ∧ t.mem = s.mem ∧ t.op? id = none ∧
          t.group? o.grp = some g' ∧ g'.counter o.counter = g.counter o.counter - 1 ∧
          (∀ th, g'.fpsr.get 0 th = g.fpsr.get 0 th ||| if th ∈ w.active then fl else 0) ∧
          (∀ u b, o.ends = [u] → s.block? u.launch u.block = some b → u.core ∈ b.cores →
            t.tile u.launch u.block u.core u.tile = (s.tile u.launch u.block u.core u.tile).finish u.role) ∧ P t g'
        (∀ n, w.dst = .reg n → (moves.Pairwise fun a b => a.e ≠ b.e ∨ (w.pm = true ∧ a.m ≠ b.m)) → completes fun _ g' =>
          ∀ mv ∈ moves, ∀ th ∈ w.active, th % 32 = mv.e % 32 → (w.pm = true → th / 32 = mv.m) →
            if w.td.wide then g'.vcur (n + 2 * (mv.e / 32)) th = BitVec.ofNat 32 (value mv).1 ∧
              g'.vcur (n + 2 * (mv.e / 32) + 1) th = BitVec.ofNat 32 ((value mv).1 / 2 ^ 32)
            else g'.vcur (n + mv.e / 32) th = BitVec.ofNat 32 (widen w.td (value mv).1)) ∧
        (∀ k off b, w.dst = .tile k off → s.block? g.launch g.block = some b →
          (moves.Pairwise fun x y => tileBit w.dst x w.td.width + w.td.width ≤ tileBit w.dst y w.td.width ∨
            tileBit w.dst y w.td.width + w.td.width ≤ tileBit w.dst x w.td.width) → completes fun t g' => g'.vregs = g.vregs ∧
          ∀ mv ∈ moves, t.poolBits g.launch g.block o.core (tileBit w.dst mv w.td.width) w.td.width = (value mv).1 % 2 ^ w.td.width) ∧
        (w.dst = .mem → moves = [] → completes fun _ g' => g'.vregs = g.vregs) ∧
        (w.dst = .mem → moves ≠ [] →
          let pa := fun (mv : Move) (i : Nat) => mv.addrs.getD ((mv.shift + i) / 8) 0
          (∀ mv ∈ moves, mv.shift < 8 ∧ mv.addrs.length = (mv.shift + w.td.width + 7) / 8 ∧ mv.addrs.Nodup) →
          (moves.Pairwise fun a b => ∀ i j, i < w.td.width → j < w.td.width → pa a i = pa b j → (a.shift + i) % 8 ≠ (b.shift + j) % 8) →
          ∃ t p, exec .copyOperationComplete s = .next t ∧ t.mem = s.mem ∧ t.op? id = some p ∧ 0 < p.left ∧
            p.raises = (if fl = 0 then [] else w.active.map fun th => (th, fl)) ∧
            ∀ mv ∈ moves, ∀ i, i < w.td.width → ∃ q ∈ t.writes, q.line = s.fwd (pa mv i / 64) ∧ id ∈ q.waiters ∧
              (q.bytes.get 0 (pa mv i % 64)).getLsbD ((mv.shift + i) % 8) = (value mv).1.testBit i)

/-! ### Spawning -/

/-- FRMRD, FRMWR, CHCNT and LAUNCH (R331, R332, R334 14_spawn.md, R413 19_dispatch.md), and how an engine writes (R464 12_translation.md): the
words of a thread's spawn frame, its depth, its parent and the spill part of its call frame; a write without a frame faults, as does a read of a
poisoned or failing line (R39 01_machine.md, R284 12_translation.md); the counts of children and free blocks; LAUNCH answers with the status of
the record once what its group wrote before is visible, and waits for a path to it.
It rests on the model's readings: log 43. -/
def Obligations.FramesCountsAndLaunches : Prop :=
  ∀ (s : State),
    (∀ (l : Launch) (die : Nat) (owners : List Nat) (va : Nat) (b : List Byte),
      let t := s.engineWrite l die owners va b
      (∀ e, s.engineAddrs l va b.length false true = .error e → t = s) ∧
      ∀ addrs, s.engineAddrs l va b.length false true = .ok addrs → t.forward = s.forward ∧
        (∀ p, (∀ a ∈ addrs, s.place a ≠ p) → SMap.get 0 t.mem p = SMap.get 0 s.mem p) ∧
        ((addrs.map s.place).Nodup → ∀ (i a : Nat), addrs[i]? = some a → t.byteAt a = b.getD i 0)) ∧
    (∀ (l : Launch) (msk : List Nat) (ts : List (Nat × Nat)),
      let marked := fun (va : Nat) => ∃ addrs, s.engineAddrs l va 1 true false = .ok addrs ∧
        ∃ pa ∈ addrs, (s.markOf (s.fwd (pa / 64))).poison ≠ 0 ∨ (s.markOf (s.fwd (pa / 64))).failing = true
      (s.frameFault l msk ts = none ↔ ∀ p ∈ ts, ¬marked p.2) ∧
      ∀ t, s.frameFault l msk ts = some t → ∃ p ∈ ts, marked p.2 ∧ t.thread = p.1 ∧ t.msk = msk ∧ (t.cause = 6 ∨ t.cause = 7)) ∧
    ∀ (c : Cx) (x : Ext),
      let sel := x.subBits 3 0
      let threads := c.threads x.p
      let word := fun (k off : Nat) (P : Nat → Prop) =>
        ∀ a, s.tick.engineAddrs c.l (c.l.frameBase + 64 * k + off) 4 true false = .ok a → P (leNat (a.map s.byteAt))
      -- the blocks that an instruction reads, by thread; a marked one of them faults
      let own := fun (off : Nat) => threads.filterMap fun th => (c.g.frames.find? fun e => e.1 == th).map fun e => (th, c.l.frameBase + 64 * e.2 + off)
      let reads := if sel = 13 then [] else own (if sel = 12 then 0xC else if sel = 14 then 8 else 0x10 + 4 * sel)
      (∀ t, ReadyMem s c x (formFrmrd x) [] [] → s.tick.frameFault c.l threads reads = some t → Faults s (.frmrd x) c t) ∧
      (ReadyMem s c x (formFrmrd x) [] [] → s.tick.frameFault c.l threads reads = none → ∃ f : Nat → Dword,
        Answers s (.frmrd x) c x.words x.d x.p (sel == 13) f (fun t => t.mem = s.mem) ∧ ∀ th,
          (sel = 13 → (c.u.cfrm = none → f th = 0) ∧
            ∀ k r, c.u.cfrm = some k → (c.l.frames.find? fun r => r.start == k) = some r →
              f th = BitVec.ofNat 64 (c.l.frameBase + 64 * k + 64 + th * ((r.len - 1) / (32 * c.g.m)) * 64)) ∧
          (sel ≠ 13 → (c.g.frames.find? fun e => e.1 == th) = none → f th = 0) ∧
          ∀ e, sel ≠ 13 → (c.g.frames.find? fun e => e.1 == th) = some e →
            (sel < 12 → word e.2 (0x10 + 4 * sel) fun w => (f th).toNat = w) ∧ (sel = 12 → word e.2 0xC fun w => (f th).toNat = w / 2 ^ 5 % 2 ^ 16) ∧
            (sel = 14 → word e.2 8 fun w => (f th).toNat = w / 2 ^ 24)) ∧
      (ReadyMem s c x (formFrmwr x) [] [] →
        ((∃ th ∈ threads, c.g.frames.has th = false) → ∃ th ∈ threads, c.g.frames.has th = false ∧
          Faults s (.frmwr x) c { cause := 0x12, detail := 2, msk := threads, thread := th }) ∧
        ((∀ th ∈ threads, c.g.frames.has th = true) → GoesOn s (.frmwr x) c x.words fun t _ => t.ops = s.ops ∧
          t.mem = (threads.foldl (fun t th => t.engineWrite c.l (dieOf c.g.core) [] (c.l.frameBase + 64 * c.g.frames.get 0 th + (0x10 + 4 * sel))
            (leBytes 4 (c.plain x .A false .int th).toNat)) s.tick).mem)) ∧
      let counts := match c.g.awr with
        | some k => if x.subBits 1 0 < 2 then threads.map fun th => (th, c.l.frameBase + 64 * k + 512 * x.subBits 1 0 + 2 * th) else []
        | none => []
      (∀ t, ReadyMem s c x (formChcnt x) [] [] → (s.tick.reap c.l.id).frameFault c.l threads counts = some t → Faults s (.chcnt x) c t) ∧
      (ReadyMem s c x (formChcnt x) [] [] → s.Reaped c.l.id → (s.tick.reap c.l.id).frameFault c.l threads counts = none → ∃ f : Nat → Dword,
        Answers s (.chcnt x) c x.words x.d x.p false f (fun t => t.mem = s.mem) ∧ ∀ th,
          (x.subBits 1 0 ≤ 1 → c.g.awr = none → f th = 0) ∧
          (∀ k a, x.subBits 1 0 ≤ 1 → c.g.awr = some k →
            s.tick.engineAddrs c.l (c.l.frameBase + 64 * k + (if x.subBits 1 0 = 0 then 0 else 512) + 2 * th) 2 true false = .ok a →
            (f th).toNat = leNat (a.map s.byteAt)) ∧
          (x.subBits 1 0 = 2 → (f th).toNat = (c.l.frameSize / 64 - c.l.frames.foldl (fun n r => n + r.len) 0) % 2 ^ 32)) ∧
      (ReadyMem s c x (formLaunch x) [] [] →
        let a := (c.plain x .A true .int 0).toNat
        let unit := match operandOf x.b with
          | .ureg _ => some (c.plain x .B true .int 0).toNat
          | _ => none
        let sent := c.outgoing s.tick
        (∀ t, c.launchCheck s.tick a 256 64 true = .error t → Faults s (.launch x) c t) ∧
        ∀ addrs, c.launchCheck s.tick a 256 64 true = .ok addrs →
          (∀ b t, unit = some b → c.launchCheck s.tick b 4 4 false = .error t → Faults s (.launch x) c t) ∧
          ((∀ b, unit = some b → ∃ k, c.launchCheck s.tick b 4 4 false = .ok k) →
            (sent.quietFor [c.g.id] = false → Holds s (.launch x) c .running) ∧
            (∀ m, sent.quietFor [c.g.id] = true → sent.markOfBytes addrs = some m →
              Faults s (.launch x) c { cause := m.cause, detail := m.detail, addr := m.addr, msk := c.threads 0 }) ∧
            let l := Launch.ofRecord 0 (addrs.map s.byteAt)
            let path := (∀ pa ∈ addrs, s.pathTo (pa / 64) = true) ∧ sent.areaOpen l l.cpndAt (if l.cpndAt = 0 then 0 else 64) = true ∧
              sent.areaOpen l l.teamAt (if l.teamAt = 0 then 0 else 128 * l.nteam) = true
            (sent.quietFor [c.g.id] = true → sent.markOfBytes addrs = none → ¬path → exec (.launch x) s = .next s.tick) ∧
            (sent.quietFor [c.g.id] = true → sent.markOfBytes addrs = none → path → ∃ status, status ≤ 12 ∧
              Answers s (.launch x) c x.words x.d x.p false (fun _ => BitVec.ofNat 64 status) fun t => t.mem = s.mem ∧
                (status ≠ 0 → t.launches.length = s.launches.length) ∧
                (status = 0 → t.launches.length = s.launches.length + 1 ∧ ∃ n, t.launches.getLast? = some n ∧ n.record = addrs.map s.byteAt ∧
                  n.signal = unit.map (fun b => (c.l.asid, b)) ∧ n.nextBlock = 0 ∧ (n.phase = .active ∨ n.phase = .waiting)))))

/-- SPAWN (R321 to R324 14_spawn.md): its children by lane, entry and die; a bad entry, or a frame area without room, faults; else each child has a
frame in one slot on its way to its bin, with a reservation where it is to open one, and its parent counts one child more.
It rests on the model's readings: log 42. -/
def Obligations.SpawnMakesChildren : Prop :=
  (∀ cs : List Child, (∀ k ∈ cs, ∃ ks ∈ spawnSlots cs, k ∈ ks) ∧ ∀ ks ∈ spawnSlots cs, ks ≠ [] ∧ ∀ a ∈ ks, a ∈ cs ∧
    ∀ b ∈ cs, (b ∈ ks ↔ b.thread % 32 = a.thread % 32 ∧ b.entry = a.entry ∧ b.target = a.target)) ∧
  (∀ (entry awr thread dom depth : Nat) (args : List Word),
    let b := frameBytes entry awr thread dom depth args
    b.length = 64 ∧ (entry < 2 ^ 64 → leAt b 0 8 = entry) ∧
      (awr < 2 ^ 24 → thread < 256 → leAt b 8 4 = awr + thread * 2 ^ 24) ∧
      (thread < 256 → dom < 4 → leAt b 0xC 4 = thread / 32 + dom * 2 ^ 3 + min depth 65535 * 2 ^ 5) ∧
      ∀ k, k < 12 → leAt b (0x10 + 4 * k) 4 = (args.getD k 0).toNat) ∧
  (∀ (s : State) (core d : Nat), s.spawnTarget core 0 d = ((0, core), core) ∧ s.spawnTarget core 1 d = ((1, clusterOf core), core) ∧
    s.spawnTarget core 2 d = ((2, dieOf core), core) ∧ (s.spawnTarget core 3 d).1 = (2, d) ∧
    (40 * d + core % 40 ∈ s.cores → (s.spawnTarget core 3 d).2 = 40 * d + core % 40) ∧
    ∀ k, 40 * d + core % 40 ∉ s.cores → (s.cores.find? fun k => dieOf k == d) = some k → (s.spawnTarget core 3 d).2 = k) ∧
  ∀ (s : State) (c : Cx) (x : Ext),
    let dom := x.subBits 5 4
    let na := x.subBits 3 0
    let threads := c.threads x.p
    let entry := fun (th : Nat) => (c.plain x .A true .int th).toNat
    let cs := c.children x
    let opens := s.tick.wouldOpen (s.tick.slotsOf c x)
    let l := ((s.tick.reap c.l.id).launch? c.l.id).getD c.l
    ReadyMem s c x (formSpawn x) (spawnUses x) (if na ≠ 0 ∧ c.l.vregs < x.b.toNat + na then [8] else []) → c.liveThreads ≠ [] →
      (∀ g ∈ s.groups, g.id = c.g.id → g = c.g) →
      -- .dev names the near die by C modulo the launch's dies
      cs = threads.map (fun th =>
        (⟨th, entry th, if dom = 3 then c.l.dies.getD ((c.plain x .C false .int th).toNat % c.l.dies.length) 0 else 0⟩ : Child)) ∧
      (threads = [] → GoesOn s (.spawn x) c x.words fun t _ => t.mem = s.mem ∧ t.slots = s.slots ∧ t.bins = s.bins) ∧
      ((∃ th ∈ threads, entry th % 64 ≠ 0 ∨ 2 ^ 57 ≤ entry th) → ∃ th ∈ threads, (entry th % 64 ≠ 0 ∨ 2 ^ 57 ≤ entry th) ∧
        Faults s (.spawn x) c { cause := 0x12, detail := 1, msk := threads, thread := th }) ∧
      (threads ≠ [] → (∀ th ∈ threads, entry th % 64 = 0 ∧ entry th < 2 ^ 57) → l.allocAll c.g.id (c.spawnNeed x opens) = none →
        Faults s (.spawn x) c { cause := 0x08, msk := threads }) ∧
      let fault := (s.tick.reap c.l.id).frameFault c.l threads (c.spawnReads threads)
      (∀ r t, threads ≠ [] → (∀ th ∈ threads, entry th % 64 = 0 ∧ entry th < 2 ^ 57) → l.allocAll c.g.id (c.spawnNeed x opens) = some r →
        fault = some t → Faults s (.spawn x) c t) ∧
      ∀ runs l', threads ≠ [] → (∀ th ∈ threads, entry th % 64 = 0 ∧ entry th < 2 ^ 57) →
        l.allocAll c.g.id (c.spawnNeed x opens) = some (runs, l') → fault = none →
        (∀ th ∈ threads, (s.tick.reap c.l.id).outstanding c.l c.g.awr th < 65535) →
        let awr := c.g.awr.getD (runs.headD 0)
        GoesOn s (.spawn x) c x.words fun t g => g.awr = some awr ∧ t.bins = s.bins ∧
          (∃ k, t.launch? c.l.id = some k ∧ k.frames = l'.frames) ∧
          (∃ new, t.slots = s.slots ++ new ∧ new.length = (spawnSlots cs).length ∧
            ∀ (i : Nat) (ks : List Child) (y : SpawnSlot), (spawnSlots cs)[i]? = some ks → new[i]? = some y →
              y.launch = c.l.id ∧ y.waits = none ∧ (∃ e ∈ t.edges, e.id = y.edge ∧ e.grp = c.g.id ∧ c.g.horizon ≤ e.v) ∧
              (∀ m, m < 8 → y.k.getLsbD m = ks.any fun k => k.thread / 32 == m) ∧
              y.resv.isSome = opens.getD i false ∧
              (∀ k ∈ ks, y.entry = k.entry ∧ (y.bound, y.core) = s.spawnTarget c.g.core dom k.target ∧ y.frames.has (k.thread / 32) = true ∧
                SMap.get 0 y.frames (k.thread / 32) ∈ runs)) ∧
          ∀ th, threads = [th] → c.g.awr.isSome = true →
            let s0 := s.tick.reap c.l.id
            let s1 := s0.engineWrite l' (dieOf c.g.core) [] (l'.blockAddr (runs.headD 0))
              (frameBytes (entry th) awr th dom (s0.depth l' c.g th + 1) (c.spawnArgs x th))
            t.mem = (s1.engineWrite l' (dieOf c.g.core) [] (l'.blockAddr awr + 2 * th) (leBytes 2 (s1.outstanding l' (some awr) th + 1))).mem

/-- What becomes of children (R325 to R330, R335 14_spawn.md): a slot joins the collecting bin of its key, opens one, or forces the oldest; a bin
launches in time and forms a group of its children in their lanes; the group starts on a core of its domain that has room; a completed thread frees
its frame and is reported to its parent's group; a group whose sub-groups have all waited 1,024 clocks for children that are still out gives up its
slot.
It rests on the model's readings: logs 28, 29, 41, 58 and 61. -/
def Obligations.ChildrenRunAndReport : Prop :=
  ∀ (s : State),
    (∀ (id : Nat) (x : SpawnSlot), s.arg = .num id → (s.slots.find? fun x => x.id == id) = some x →
      (s.slots.find? fun y => y.core == x.core && y.batch == x.batch) = some x → (∀ k, x.waits = some k → ∀ b ∈ s.bins, b.id ≠ k) →
      let own := s.bins.filter fun b => b.core == x.core
      let mine := own.find? fun b => !b.launching && b.key == some x.key
      let lands := fun (P : State → Prop) => ∃ t, exec .binSlotArrival s = .next t ∧ t.mem = s.mem ∧ P t
      (∀ b, mine = some b → lands fun t => t.slots = s.slots.filter (fun y => decide (y.id ≠ id)) ∧ t.bins = s.bins.map fun o =>
        if o.id = b.id then { o with slots := o.slots ++ [{ x with resv := none }], launching := o.launching || decide (32 ≤ o.slots.length + 1) }
        else o) ∧
      (∀ k, mine = none → own.length < 32 → x.resv = some k → lands fun t => t.slots = s.slots.filter (fun y => decide (y.id ≠ id)) ∧
        ∃ n, t.bins = s.bins ++ [{ id := n, core := x.core, slots := [{ x with resv := none }], since := s.time, launching := false,
                                   resv := some k, formed := none }]) ∧
      (mine = none → 32 ≤ own.length → (∃ b ∈ own, b.launching = false) → lands fun t => ∃ b ∈ own, b.launching = false ∧
        (∀ o ∈ own, o.launching = false → b.since ≤ o.since) ∧
        t.bins = s.bins.map (fun o => if o.id = b.id then { o with launching := true } else o) ∧
        t.slots = s.slots.map fun y => if y.id = id then { y with waits := some b.id } else y)) ∧
    (∀ (id : Nat) (b : Bin) (x : SpawnSlot) (l : Launch), s.arg = .num id → b.slots.head? = some x → s.launch? x.launch = some l →
      ((s.bins.find? fun b => b.id == id && !b.launching) = some b → b.since + l.bint ≤ s.time →
        ∃ t, exec .binTimerExpire s = .next t ∧ t = { s with bins := t.bins, stamp := s.stamp + 1 } ∧
          t.bins = s.bins.map fun o => if o.id = id then { o with launching := true } else o) ∧
      ((s.bins.find? fun b => b.id == id && b.launching && b.formed.isNone) = some b →
        (∀ y ∈ b.slots, ∀ e ∈ s.edges, e.id = y.edge → e.pend = [] ∧ s.clear e.v = true) → s.clear 0 = true →
        ∃ t g u, exec .binGroupForm s = .next t ∧ t.mem = s.mem ∧ t.groups = s.groups ++ [g] ∧
          t.bins = s.bins.map (fun o => if o.id = id then { o with formed := some g.id } else o) ∧
          g.launch = l.id ∧ g.place = .formed ∧ g.spawned = true ∧ g.resv = b.resv ∧ g.bound = x.bound ∧ g.m = l.m ∧ g.subs = [u] ∧
          u.pc = BitVec.ofNat 64 x.entry ∧ u.mmk = x.k ∧ u.fpcr = BitVec.ofNat 32 l.fpcr ∧ u.lpr = 4 ∧
          (∀ m, m < l.m → g.liveOf m = (if x.k.getLsbD m then BitVec.ofNat 32 (2 ^ b.slots.length - 1) else 0) ∧ g.exmOf m = g.liveOf m) ∧
          (∀ r th, g.vcur r th = 0) ∧ (∀ th, g.fpsr.get 0 th = 0) ∧
          ∀ n, u.ureg n = if 2 ≤ l.uregs ∧ n = 0 then BitVec.ofNat 32 (l.argp % 2 ^ 32)
            else if 2 ≤ l.uregs ∧ n = 1 then BitVec.ofNat 32 (l.argp / 2 ^ 32) else 0)) ∧
    (∀ (id core : Nat) (g : Group) (l : Launch) (p : Nat), s.arg = .pair id core → s.group? id = some g → s.launch? g.launch = some l →
      g.wantsPlace = true → l.runs = true → core ∈ s.homesOf g → (∀ o ∈ s.groups, o.id ≠ id → o.wantsPlace = false) →
      s.clear g.horizon = true → s.roomFor l core = some p → s.framesOpen l = true → (g.place ≠ .formed → s.areaOpen l (s.recordPlace l g) l.recordSize = true) →
      let marks := if g.unissued = true then s.frameMarks l g else []
      let lands := fun (P : State → Group → Prop) => ∃ t g', exec .spawnedGroupPlacement s = .next t ∧ t.mem = s.mem ∧ t.group? id = some g' ∧
        (∀ b ∈ t.bins, b.formed ≠ some id) ∧ P t g'
      (g.place = .formed → marks = [] → g.frameBad = [] → lands fun _ g' =>
        g' = { g with place := .slot, core := core, partition := p, gepoch := g'.gepoch }) ∧
      -- a frame on a marked line, else one that broke the layout, traps at the first instruction
      (∀ u th m rest, g.place = .formed → marks = (th, m) :: rest → m.cause < 2 ^ 8 → g.sub? 0 = some u → lands fun _ g' => g'.place = .slot ∧
        bits g'.trap.info 7 0 = m.cause ∧ bits g'.trap.info 15 8 = m.detail % 2 ^ 8 ∧ g'.trap.pc = u.pc ∧
        ∃ u', g'.sub? 0 = some u' ∧ u'.phase = .trapped) ∧
      (∀ u, g.place = .formed → marks = [] → g.frameBad ≠ [] → g.sub? 0 = some u → lands fun _ g' => g'.place = .slot ∧ g'.core = core ∧ g'.partition = p ∧
        bits g'.trap.info 7 0 = 0x12 ∧ bits g'.trap.info 15 8 = 3 ∧ g'.trap.pc = u.pc ∧ ∃ u', g'.sub? 0 = some u' ∧ u'.phase = .trapped) ∧
      (g.place ≠ .formed → s.loadBytes l (s.recordPlace l g) 8 l.recordSize = none → ∃ t k, exec .spawnedGroupPlacement s = .next t ∧
        t.mem = s.mem ∧ t.launch? l.id = some k ∧ k.phase = .ending 5) ∧
      (∀ bytes, g.place ≠ .formed → s.loadBytes l (s.recordPlace l g) 8 l.recordSize = some bytes →
        g.recordOk l (fun i => bytes.getD i 0) false = false → ∃ t g', exec .spawnedGroupPlacement s = .next t ∧ t.group? id = some g' ∧
          bits g'.trap.info 7 0 = 0x01 ∧ bits g'.trap.info 15 8 = 13 ∧ g'.reason = 1) ∧
      ∀ bytes, g.place ≠ .formed → marks = [] → g.frameBad = [] → s.loadBytes l (s.recordPlace l g) 8 l.recordSize = some bytes →
        g.recordOk l (fun i => bytes.getD i 0) false = true → lands fun _ g' => g'.place = .slot ∧ g'.core = core ∧ g'.partition = p ∧
          g'.ld = 0 ∧ g'.st = 0 ∧ g'.cp = 0 ∧ g'.mx = 0 ∧ (∀ m, m < l.m → g'.exmOf m = BitVec.ofNat 32 (leAt bytes (0x50 + 4 * m) 4)) ∧
          ∀ m i lane, m < l.m → i < l.vregs → i < l.nvec → lane < 32 →
            g'.vcur i (32 * m + lane) = BitVec.ofNat 32 (leAt bytes (0x5B00 + ((m * l.nvec + i) * 32 + lane) * 4) 4)) ∧
    (∀ (id th : Nat) (g : Group) (l : Launch) (e : Nat × Nat), s.arg = .pair id th → s.group? id = some g → s.launch? g.launch = some l →
      (g.frames.find? fun k => k.1 == th) = some e → g.place ≠ .formed → s.threadDone l g th = true → s.framesOpen l = true →
      let parent := s.frameWord l e.2 8 4
      let awr := parent % 2 ^ 24
      let pt := parent / 2 ^ 24
      let n := s.outstanding l (some awr) pt
      let s1 := if n = 0 then s else s.setCount l (dieOf g.core) awr pt 0 (n - 1)
      ∃ t g', exec .childComplete s = .next t ∧ t.group? id = some g' ∧ g'.frames = SMap.erase g.frames th ∧
        t.mem = (s1.setCount l (dieOf g.core) awr pt 512 ((s1.unreported l (some awr) pt + 1) % 65536)).mem ∧
        ∀ o ∈ s.groups, o.launch = l.id → o.awr = some awr → ∃ o' ∈ t.groups, o'.id = o.id ∧
          SMap.get 0 o'.reports pt = max (SMap.get 0 o.reports pt) g.horizon ∧ (o'.awrBad = true ↔ o.awrBad = true ∨ n = 0)) ∧
    ∀ (id : Nat) (g : Group) (l : Launch), s.arg = .num id → s.group? id = some g → s.launch? g.launch = some l → g.resident = true →
      (∀ u ∈ g.subs, u.phase = .finished ∨ ∃ since n act, u.phase = .await since n act ∧ since + 1024 ≤ s.time ∧ ∃ t ∈ act, n < s.outstanding l g.awr t) →
      s.framesOpen l = true → s.areaOpen l (s.recordPlace l g) l.recordSize = true →
      (∃ u ∈ g.subs, u.phase ≠ .finished) → g.ld = 0 → g.st = 0 → g.cp = 0 → g.mx = 0 → (g.spawned = true → g.resv ≠ none) →
      g.saveFault = none → ∃ t g', exec .awaitYieldTimeout s = .next t ∧ t.group? id = some g' ∧ g'.place = .yielded ∧
        (∀ u ∈ g'.subs, ∀ m, u.monitor = some m → m.addr = none) ∧ t.mem = (s.writeRecord l { g with subs := g.subs.map SubGroup.endWaits } (s.reason g)).mem

/-! ### Exact accumulators -/

/-- The exact accumulator (R339 to R343 15_accumulator.md): taking an addend adds it exactly and counts it; merging adds two; rounding it once;
its image reads back. XCLR, XADD, XFMA, XMRG, XRND, XSTAT (R345 to R348 15_accumulator.md): one accumulator in each member that has an active thread is cleared, takes
the addends or exact products of its active threads, or a second accumulator; the rounded sum or the state of it is read into D. -/
def Obligations.ExactAccumulators : Prop :=
  ((∀ (x : Accum) (a : Ex),
     let y := x.take a
     (x.count ≠ BitVec.allOnes 64 → y.count = x.count + 1) ∧ (x.count = BitVec.allOnes 64 → y.count = x.count ∧ y.iv = true) ∧
     (∀ sig, a = .nan sig → y.mag = x.mag ∧ y.qn = true ∧ (sig = true → y.iv = true)) ∧
     (∀ s, a = .inf s → y.mag = x.mag ∧ (s = false → y.pi = true ∧ y.ni = x.ni) ∧ (s = true → y.ni = true ∧ y.pi = x.pi)) ∧
     (∀ s n d, a = .rat s n d → 0 < d → d ∣ n * 2 ^ 1074 → y.pi = x.pi ∧ y.ni = x.ni ∧ y.qn = x.qn ∧
       (y.nz = true ↔ x.nz = true ∧ s = true ∧ n = 0) ∧ (y.mag.toInt - x.mag.toInt - signedNum s (n * 2 ^ 1074 / d)) % 2 ^ 2176 = 0)) ∧
   (∀ x y : Accum,
     let z := x.merge y
     let n := x.count.toNat + y.count.toNat
     (z.mag.toInt - x.mag.toInt - y.mag.toInt) % 2 ^ 2176 = 0 ∧ z.pi = (x.pi || y.pi) ∧ z.ni = (x.ni || y.ni) ∧ z.qn = (x.qn || y.qn) ∧
       z.nz = (x.nz && y.nz) ∧ z.count.toNat = min n (2 ^ 64 - 1) ∧ (z.iv = true ↔ x.iv = true ∨ y.iv = true ∨ 2 ^ 64 ≤ n)) ∧
   (∀ (x : Accum) (f : Fmt) (mode : Rnd) (fzo : Bool),
     let r := x.xround f mode fzo
     let bad := x.iv = true ∨ x.pi = true ∧ x.ni = true
     let finite := x.iv = false ∧ x.pi = false ∧ x.ni = false ∧ x.qn = false
     (bad → r = (f.nan, flagNV)) ∧ (¬bad → x.qn = true → r = (f.nan, 0)) ∧
     (¬bad → x.qn = false → x.pi = true → r = (f.inf false, 0)) ∧ (¬bad → x.qn = false → x.ni = true → r = (f.inf true, 0)) ∧
     (finite → x.mag.toInt ≠ 0 → r = round f mode fzo (.rat (decide (x.mag.toInt < 0)) x.mag.toInt.natAbs (2 ^ 1074))) ∧
     (finite → x.mag.toInt = 0 → (x.count = 0 → r = (f.signBit false, 0)) ∧ (x.count ≠ 0 → x.nz = true → r = (f.signBit true, 0)) ∧
       (x.count = 1 → x.nz = false → r = (f.signBit false, 0)) ∧
       (1 < x.count.toNat → x.nz = false → r = (f.signBit (decide (mode = .rdn)), 0)))) ∧
   ∀ x : Accum, x.image.length = 288 ∧ leAt x.image 0 272 = x.mag.toNat ∧ leAt x.image 0x110 8 = x.count.toNat ∧
     leAt x.image 0x11C 4 = crc32c (x.image.take 0x11C) ∧
     ((x.iv = true ∨ x.mag.toInt.natAbs ≤ x.count.toNat * 2 ^ 2098) → (x.count = 0 → x.nz = true) → Accum.ofImage x.image = some x)) ∧
  (∀ (s : State) (c : Cx) (x : Ext),
     let xa := x.subBits 6 5
     let xb := x.subBits 8 7
     let f := fmtOf x.ty
     let of := fun (m : Nat) => (c.threads x.p).filter fun t => t / 32 == m
     (ReadyAcc s c x formXclr [xa] [] none →
       Accumulates s (.xclr x) c x.words x.p (fun m i => if i = xa ∧ of m ≠ [] then Accum.clear else c.g.acc m i) fun _ => 0) ∧
     (ReadyAcc s c x (formXadd x) [xa] [xa] none →
       Accumulates s (.xadd x) c x.words x.p
         (fun m i => if i = xa then (of m).foldl (fun a t => a.take (c.fin x .A t)) (c.g.acc m i) else c.g.acc m i)
         fun t => if (c.fin x .A t).isSig then flagNV else 0) ∧
     (ReadyAcc s c x (formXfma x) [xa] [xa] none →
       let n := if x.ty.width ≤ 16 then 32 / x.ty.width else 1
       -- addend, whether it sets IV by itself, flags
       let product := fun (t j : Nat) =>
         let a := c.xelement x .A t j
         let b := c.xelement x .B t j
         if a.isNan || b.isNan then (Ex.nan (a.isSig || b.isSig), false, if a.isSig || b.isSig then flagNV else 0)
         else match mulEx a b with
           | none => (Ex.nan false, true, flagNV)
           | some p => if x.ty = .f64 then (unpack f (round f (c.mode x.rnd) c.fzo p).1, false, (round f (c.mode x.rnd) c.fzo p).2) else (p, false, 0)
       Accumulates s (.xfma x) c x.words x.p
         (fun m i => if i = xa then (of m).foldl (fun a t => (List.range n).foldl (fun a j =>
           ({ a with iv := a.iv || (product t j).2.1 } : Accum).take (product t j).1) a) (c.g.acc m i) else c.g.acc m i)
         fun t => (List.range n).foldl (fun fl j => fl ||| (product t j).2.2) 0) ∧
     (ReadyAcc s c x formXmrg [xa, xb] [xa, xb] none →
       Accumulates s (.xmrg x) c x.words x.p
         (fun m i => if i = xa ∧ of m ≠ [] then (c.g.acc m xa).merge (c.g.acc m xb) else c.g.acc m i) fun _ => 0) ∧
     (ReadyAcc s c x (formXrnd x) [xa] [xa] none → ∃ r : Nat → Dword × Flags, Computes s (.xrnd x) c x x.words x.ty.wide r ∧
       ∀ t ∈ c.threads x.p, r t = (BitVec.ofNat 64 ((c.g.acc (t / 32) xa).xround f (c.mode x.rnd) c.fzo).1,
         ((c.g.acc (t / 32) xa).xround f (c.mode x.rnd) c.fzo).2)) ∧
     (ReadyAcc s c x (formXstat x) [xa] [xa] none → ∃ r : Nat → Dword, Computes s (.xstat x) c x x.words (x.bit1 7) (fun t => (r t, 0)) ∧
       ∀ t ∈ c.threads x.p,
         let a := c.g.acc (t / 32) xa
         if x.bit1 7 then r t = a.count
         else BitsOf 7 (fun k => [a.pi, a.ni, a.qn, a.iv, a.nz, a.mag.msb, decide (a.mag = 0)].getD k false) (r t)))

/-- XST, XLD and AIMG (R349, R350 15_accumulator.md, R266 11_atomics.md): images of the acting members at the addresses of their lowest active
threads are stored, loaded, or merged into memory by an executor, which merges all 288 bytes at once. -/
def Obligations.AccumulatorImagesInMemory : Prop :=
  ∀ (s : State),
    (∀ (c : Cx) (x : Ext),
      let xa := x.subBits 6 5
      (ReadyAcc s c x (formXmem x) [xa] [xa] (some 1) →
        (∀ t, c.accGot s.tick x false true = .error t → Faults s (.xst x) c t) ∧
        ∀ gs seen, c.accGot s.tick x false true = .ok (gs, seen) →
          let pairs := gs.flatMap fun g => (g.addrs.map s.place).zip (c.g.acc (g.thread / 32) xa).image
          let last := fun (pa : Nat) => (pairs.reverse.find? fun p => p.1 == pa).map fun p => p.2
          s.tick.atomHeld c.g.id (pairs.map fun p => p.1 / 64) = false → c.stageFull s.tick (gs.length * 288) = false →
          (gs = [] → Idles s (.xst x) c x.words fun _ _ => True) ∧
          (gs ≠ [] → Starts s (.xst x) c x.words 1 fun t _ o => o.kind = .store ∧
            ∀ pa b, last pa = some b →
              let sent := ∃ w ∈ t.writes, w.core = some c.g.core ∧ w.line = pa / 64 ∧ w.bytes.get 0 (pa % 64) = b ∧ o.id ∈ w.waiters
              if c.stages then sent
              else sent ∨ ∃ l, t.l1? c.g.core (pa / 64) = some l ∧ l.dirty.get 0 (pa % 64) = b ∧ o.id ∈ l.waiters ∧ c.g.id ∈ l.owners)) ∧
      (ReadyAcc s c x (formXmem x) [xa] [] (some 0) →
        (∀ t, c.accGot s.tick x true false = .error t → Faults s (.xld x) c t) ∧
        ∀ gs seen, c.accGot s.tick x true false = .ok (gs, seen) → s.tick.atomHeld c.g.id (linesOf ((gs.flatMap fun g => g.addrs).map s.place)) = false →
          Starts s (.xld x) c x.words 0 fun _ _ o => o.kind = .xld (gs.map fun g =>
            { threads := [], reg := 4 * (g.thread / 32) + xa, addrs := g.addrs, signed := false, widened := false }) c.g.gepoch) ∧
      (ReadyAcc s c x formAimg [x.subBits 1 0] [x.subBits 1 0] (some 1) →
        let want := (c.acting x.p).map fun t => ({ thread := t, va := c.atomEa x t, member := t / 32 } : Want)
        let get := fun (l : List Want) => s.tick.translate c (c.who true true) 288 (some (32, 7)) x.p l
        let crosses := fun (w : Want) => 4096 < w.va % 4096 + 288
        ((∀ w ∈ want, ¬crosses w) → ∀ t, get want = .error t → Faults s (.aimg x) c t) ∧
        (∀ w rest r, want = w :: rest → crosses w → get [w] = .ok r →
          Faults s (.aimg x) c { cause := 5, detail := 7, addr := w.va, msk := c.threads x.p, thread := w.thread }) ∧
        ∀ gs seen, (∀ w ∈ want, ¬crosses w) → get want = .ok (gs, seen) →
          (gs = [] → Idles s (.aimg x) c x.words fun _ _ => True) ∧
          (gs ≠ [] → Starts s (.aimg x) c x.words 1 fun _ _ o => o.kind = .aimg (gs.map fun g =>
            { member := g.thread / 32, pa := g.addrs.headD 0, msa := g.msa, acc := c.g.acc (g.thread / 32) (x.subBits 1 0), done := false })))) ∧
    (∀ (id i : Nat) (o : Op) (reqs : List AimgReq) (r : AimgReq), s.arg = .pair id i → s.op? id = some o → o.kind = .aimg reqs →
      reqs[i]? = some r → s.aimgReady o reqs i r = true →
      let addrs := (List.range 288).map fun j => r.pa + j
      (∀ a ∈ addrs, (s.markOf (s.fwd (a / 64))).poison = 0 ∧ (s.markOf (s.fwd (a / 64))).failing = false) → (addrs.map s.place).Nodup →
      let new := ((Accum.ofBytes (addrs.map s.byteAt)).merge r.acc).image
      ∃ t p, exec .aimgAtExecutor s = .next t ∧ t.forward = s.forward ∧ t.op? id = some p ∧ p.kind = .aimg (reqs.set i { r with done := true }) ∧
        (∀ q, q ∉ addrs.map s.place → SMap.get 0 t.mem q = SMap.get 0 s.mem q) ∧ ∀ j, j < 288 → t.byteAt (r.pa + j) = new.getD j 0) ∧
    ∀ (id : Nat) (o : Op) (g : Group) (accs : List Access) (epoch : Nat), s.arg = .part id none → s.op? id = some o →
      s.group? o.grp = some g → o.kind = .xld accs epoch → accs.all s.hasPath = true → o.taken = [] → s.l1 = [] → s.writes = [] → s.staged = [] →
      s.guests = [] → (∀ a ∈ accs, a.addrs.length = 288 ∧ a.widened = false) → accs.Pairwise (fun a b => a.reg ≠ b.reg) →
      ∃ t g', exec .loadDataArrival s = .next t ∧ t.mem = s.mem ∧ t.op? id = none ∧ t.group? o.grp = some g' ∧
        g'.counter o.counter = g.counter o.counter - 1 ∧ g'.vregs = g.vregs ∧
        (∀ k, (∀ a ∈ accs, a.reg ≠ k) → g'.accs.get Accum.clear k = g.accs.get Accum.clear k) ∧
        ∀ a ∈ accs, g'.accPending.has a.reg = false ∧
          ((∀ pa ∈ a.addrs, (s.markOf (s.fwd (pa / 64))).poison = 0 ∧ (s.markOf (s.fwd (pa / 64))).failing = false) →
            g'.accs.get Accum.clear a.reg = Accum.ofBytes (a.addrs.map s.byteAt)) ∧
          ((∃ pa ∈ a.addrs, (s.markOf (s.fwd (pa / 64))).poison ≠ 0) → g'.accMarks.has a.reg = true ∧
            g'.accs.get Accum.clear a.reg = g.accs.get Accum.clear a.reg)

/-! ### Matrix array and weight store -/

/-- MCFG, MLDB, MLDBW, MMA, MZERO, MDRN, MSTAT, WSWR, WSRD, WSQRY (R354, R356, R360 to R376 16_matrix.md): a record or tile error faults before any
effect; a busy tile holds the instruction; MCFG and MSTAT hold their sub-group for the array; the others start one operation, MX for the array and
CP for the weight store; WSQRY reads the refresh schedule.
It rests on the model's readings: log 37. -/
def Obligations.MatrixInstructionsStart : Prop :=
  ∀ (s : State),
    (∀ (c : Cx) (i : Instr) (words counter : Nat) (p : BitVec 4) (bad : List (Nat × Nat)) (tiles : List TileWant) (room : Nat) (what : MxWhat),
      let held := c.l.mxu = true ∧ c.g.spawned = false
      let owner : List (Nat × Nat) := if held then [] else [(0x13, 8)]
      let limits := fun (b : Bool) => if b then [((0x13 : Nat), (1 : Nat))] else []
      (∃ x, i = .mzero x ∧ ReadyMem s c x (formMzero x) [] [] ∧ c.g.mx < 63 ∧ words = x.words ∧ counter = 3 ∧ p = x.p ∧ bad = owner ∧
        tiles = [] ∧ room = 0 ∧ what = .zero (x.subBits 3 0)) ∨
      (∃ x, i = .mldb x ∧ ReadyRec s c x (if x.sub.testBit 7 then [x.b] else []) (mldFails x false c) none 3 true ∧ words = 7 ∧
        counter = 3 ∧ p = x.p ∧ tiles = [] ∧ room = 0 ∧
        let w := c.recWord x
        let kb := recField (w 3) 3 0
        let kn := recField (w 3) 7 4 + 1
        bad = owner ++ limits (decide (16 < kb + kn) || decide (256 ≤ w 3) || decide (2 ^ 25 ≤ w 1)) ∧
        what = .load false (mldTy x) (x.sub / 32 % 4) (x.sub.testBit 7) (w 0 + w 1 % 2 ^ 25 * 2 ^ 32) (w 2)
          (if x.sub.testBit 7 then (c.ownVal x.b true .int none 0).toNat else 0) kb kn) ∨
      (∃ x, i = .mldbw x ∧ ReadyRec s c x [] (mldFails x true c) none 3 ∧ words = 7 ∧ counter = 3 ∧ p = x.p ∧ tiles = [] ∧ room = 0 ∧
        let w := c.recWord x
        let kb := recField (w 3) 3 0
        let kn := recField (w 3) 7 4 + 1
        bad = owner ++ limits (decide (16 < kb + kn) || decide (256 ≤ w 3) || (decide (2 ^ 30 ≤ w 0) || decide (2 ^ 30 ≤ w 2) ||
          (!x.sub.testBit 7 && decide (w 2 ≠ 0)))) ∧
        what = .load true (mldTy x) (x.sub / 32 % 4) (x.sub.testBit 7) (w 0) (w 1) (w 2) kb kn) ∨
      (∃ x, i = .mma x ∧ ReadyRec s c x [] (mmaFails x c) (c.mmaMark x) 3 false (c.mmaUses x) ∧ words = 7 ∧ counter = 3 ∧ p = x.p ∧ room = 0 ∧
        let w := c.recWord x
        let ty := mmaTy x
        let nrow := recField (w 1) 5 0 + 1
        let row0 := recField (w 1) 11 6
        let mstr := recField (w 1) 17 12
        let kb := recField (w 1) 21 18
        let kn := recField (w 1) 25 22 + 1
        let bytes := kn * 32 * ty.width / 8
        let tooFar := fun (tile vec : Bool) => decide (16 < kb + kn) || decide (recField (w 1) 31 28 ≠ 0) ||
          (!mxFloatKind ty && decide (recField (w 1) 27 26 ≠ 0)) || decide (recField (w 2) 31 16 ≠ 0) || decide (w 3 ≠ 0) ||
          (if x.sub.testBit 10 then mxFloatKind ty || vec else decide (recField (w 2) 15 0 ≠ 0)) ||
          (if tile then decide (16 * recField (w 0) 31 16 < bytes) else decide (w 0 ≠ 0)) ||
          (c.actingMembers p).any fun m => decide (63 < row0 + m * mstr + nrow - 1)
        let work := fun (src : Option Nat) (streams : SMap Nat) => what = .mma ty (x.sub / 2 ^ 5 % 4) (x.sub / 2 ^ 7 % 4) (x.sub.testBit 9)
          (x.sub.testBit 10) src (recField (w 0) 15 0) (recField (w 0) 31 16) nrow row0 mstr kb kn (recField (w 1) 27 26) (recField (w 2) 15 0) streams
        (∃ k off, copyEnd x.a = some (.tile k off) ∧
          tiles = [{ k := k, role := .reader, first := 128 * recField (w 0) 15 0,
                     bits := 128 * (nrow - 1) * recField (w 0) 31 16 + 8 * bytes }] ∧
          bad = owner ++ limits (tooFar true false) ++ (if (x.sub.testBit 10 && (c.tile s k).defined &&
            decide ((c.tile s k).sz * 64 < 16 * recField (w 2) 15 0 + 2 * nrow * kn) && !(c.actingMembers p).isEmpty) then [(0x10, 5)] else []) ∧
          work (some k) []) ∨
        (∃ n, copyEnd x.a = some (.reg n) ∧ tiles = [] ∧
          bad = owner ++ limits (tooFar false true) ++ (if c.l.vregs < n + c.mmaRegs x then [(0x13, 7)] else []) ∧
          work none (if bad = [] then (c.actingMembers p).map fun m => (m, c.aStream n (mmaWords ty nrow kn) m) else []))) ∨
      (∃ x, i = .mdrn x ∧ ReadyRec s c x [] (mdrnFails x s c) none 3 ∧ words = 7 ∧ counter = 3 ∧ p = x.p ∧
        let w := c.recWord x
        let row0 := recField (w 3) 5 0
        let nr := recField (w 3) 11 6 + 1
        let col0 := recField (w 3) 20 12
        let nc := recField (w 3) 29 21 + 1
        let size := (mdrTd x).width / 8
        let tooFar := decide (64 < row0 + nr) || decide (512 < col0 + nc) || decide (recField (w 3) 31 30 ≠ 0)
        let work := fun (tile : Option Nat) (base : Nat) => what = .drain (mdrTd x) (c.mode x.rnd) c.fzi c.fzo (x.sub / 2 ^ 5 % 4) (x.sub.testBit 7)
          tile base (w 2) row0 nr col0 nc
        (∃ k off, copyEnd x.d = some (.tile k off) ∧ room = 0 ∧ bad = owner ++ limits (tooFar || (decide (2 ^ 16 ≤ w 0) || decide (w 1 ≠ 0))) ∧
          tiles = [{ k := k, role := .fill, first := 128 * w 0, bits := 8 * ((nr - 1) * w 2 + nc * size) }] ∧ work (some k) (16 * w 0)) ∨
        (copyEnd x.d = some .mem ∧ room = nr * nc * size ∧ bad = owner ++ limits (tooFar || decide (2 ^ 25 ≤ w 1)) ∧ tiles = [] ∧
          work none (w 0 + w 1 % 2 ^ 25 * 2 ^ 32))) ∨
      (∃ x write, i = (if write then Instr.wswr x else .wsrd x) ∧ ReadyRec s c x [] (wsFails x write c) none 2 ∧ words = 7 ∧ counter = 2 ∧ p = x.p ∧
        tiles = [] ∧
        let w := c.recWord x
        let addr := w 0 + w 1 % 2 ^ 25 * 2 ^ 32
        let len := w 3 % 2 ^ 24 + 1
        room = (if write then 0 else 64 * len) ∧
        bad = (if write = true ∧ c.l.wl = false then [(0x13, 4)] else []) ++
          (if addr % 64 ≠ 0 ∨ w 2 % 64 ≠ 0 ∨ 2 ^ 30 < w 2 % 2 ^ 30 + 64 * len then [(0x13, 5)] else []) ++
          limits (decide (2 ^ 25 ≤ w 1) || decide (2 ^ 30 ≤ w 2) || decide (2 ^ 24 ≤ w 3)) ∧
        what = if write then .wsWrite addr (w 2) len else .wsRead addr (w 2) len) →
      let used := if c.threads p = [] then [] else tiles
      let fails := bad ++ used.flatMap fun t => (c.tileFails s t).map fun d => (0x10, d)
      (fails ≠ [] → ∃ f ∈ fails, Faults s i c { cause := f.1, detail := f.2, msk := c.threads p }) ∧
      (∀ k role, fails = [] → c.tileStalls s used = some (k, role) → Holds s i c (.tileStall k role)) ∧
      (fails = [] → c.tileStalls s used = none → c.stageFull s.tick room = false →
        Starts s i c words counter fun t _ o => o.left = 0 ∧ o.ends = used.map (fun t => c.tileUse t.k t.role) ∧
          (∃ e ∈ t.edges, e.id = o.edge ∧ e.grp = c.g.id ∧ e.v = c.g.horizon) ∧
          o.kind = .matrix { what := what, active := c.threads p, members := c.actingMembers p, stage := 0, rows := [], saddrs := [], lines := [], busy := 0 } ∧
          ∀ k ∈ used, (c.tile s k.k).issue k.role = .go (c.tile t k.k))) ∧
    ∀ (c : Cx) (i : Instr) (p : BitVec 4) (bad : List (Nat × Nat)) (what : MxWhat),
      let owner : List (Nat × Nat) := if c.l.mxu = true ∧ c.g.spawned = false then [] else [(0x13, 8)]
      ((∃ x, i = .mcfg x ∧ ReadyRec s c x [] (mcfgFails x c) none 4 ∧ p = x.p ∧ what = .cfg (c.recWord x 0) ∧
          let mode := fun (t : Nat) => c.recWord x 0 / 4 ^ t % 4
          let wrong := 256 ≤ c.recWord x 0 ∨ c.recWord x 1 ≠ 0 ∨ c.recWord x 2 ≠ 0 ∨ c.recWord x 3 ≠ 0 ∨
            (∃ t, t < 4 ∧ mode t = 3) ∨ ¬(mode 0 = 1 ↔ mode 1 = 1) ∨ ¬(mode 2 = 1 ↔ mode 3 = 1)
          (wrong → bad = owner ++ [(0x13, 1)]) ∧ (¬wrong → bad = owner)) ∨
        (∃ x, i = .mstat x ∧ ReadyMem s c x (formMstat x) [] [] ∧ p = x.p ∧ bad = owner ∧ what = .stat (x.subBits 2 0) (x.bit1 3) x.d x.p) →
        (bad ≠ [] → ∃ f ∈ bad, Faults s i c { cause := f.1, detail := f.2, msk := c.threads p }) ∧
        (bad = [] → ∃ t g o, exec i s = .next t ∧ t.mem = s.mem ∧ t.ops = s.ops ++ [o] ∧ (∀ id, id ≠ c.r.grp → t.group? id = s.group? id) ∧
          t.group? c.r.grp = some g ∧ g = { c.g with subs := g.subs } ∧ g.sub? c.r.sub = some { c.u with phase := .engine o.id, issued := c.stamp + 1 } ∧
          (∀ n, n ≠ c.r.sub → g.sub? n = c.g.sub? n) ∧ o.grp = c.g.id ∧ o.counter = 4 ∧
          o.kind = .matrix { what := what, active := c.threads p, members := c.actingMembers p, stage := 0, rows := [], saddrs := [], lines := [], busy := 0 })) ∧
      ∀ x, ReadyMem s c x (formWsqry x) [] [] → ∃ f : Nat → Dword, Computes s (.wsqry x) c x x.words true (fun t => (f t, 0)) ∧ ∀ t,
        (x.subBits 1 0 = 0 → (f t).toNat = s.tarnPhase % 2 ^ 17 + 7000 * 2 ^ 32 + 3500 * 2 ^ 48) ∧
        (x.subBits 1 0 = 1 →
          let bank := (c.plain x .A false .int t).toNat / 2 ^ 26 % 16
          let since := (s.time + 112000 - s.tarnPhase % 112000 + 112000 - 7000 * bank) % 112000
          (f t).toNat = bank + (if since < 3500 then 16 else 0) + (if since < 3500 then 3500 - since else 112000 - since) * 2 ^ 32)

/-- Alignment, the panel and its load, the product, the status and the tiles of the array (R355, R357 to R359, R362 to R364, R366, R369, R370
16_matrix.md; R188 07_formats.md): the unit of a block, each element rounded to it and clamped, and when the block is inexact; what a load leaves of
the panel; an integer tile takes the exact block sum, a floating-point tile one rounding; the product of all rows; what is lost is zero and logged.
It rests on the model's readings: log 37. -/
def Obligations.MatrixArithmetic : Prop :=
  (∀ (w : Nat) (xs : List Ex), 0 < w → (∀ s n d, Ex.rat s n d ∈ xs → 0 < d) →
    let al := alignBlock w xs
    al.q.length = xs.length ∧ (al.special = true ↔ ∃ x ∈ xs, x.isNan = true ∨ x.isInf = true) ∧
    ((∀ s n d, Ex.rat s n d ∈ xs → n = 0) → al.e = 0 ∧ ∀ q ∈ al.q, q = 0) ∧
    (∀ s n d g, Ex.rat s n d ∈ xs → 0 < n → Leads n d g → (∀ s' n' d' g', Ex.rat s' n' d' ∈ xs → 0 < n' → Leads n' d' g' → g' ≤ g) →
      al.e = g - w + 2) ∧
    (∀ (i : Nat) (x : Ex) (q : Int), xs[i]? = some x → al.q[i]? = some q → (x.isNan = true ∨ x.isInf = true → q = 0) ∧
      ∀ s n d, x = .rat s n d → ∃ k, RoundsTo .rne s n d al.e k ∧ q = max (-(2 ^ (w - 1) : Int)) (min (signedNum s k) (2 ^ (w - 1) - 1))) ∧
    (al.inexact = true ↔ ∃ (i : Nat) (s : Bool) (n d : Nat) (q : Int), xs[i]? = some (.rat s n d) ∧ al.q[i]? = some q ∧
      ¬(IsExactly n d al.e q.natAbs ∧ (0 < q → s = false) ∧ (q < 0 → s = true)))) ∧
  (∀ (old : Dword) (seq : Nat) (events : List (Nat × Nat × Nat)), (events = [] → logMx old seq events = old) ∧
    ∀ src k n, events.head? = some (src, k, n) → src < 2 ^ 6 → k < 2 ^ 9 → n < 2 ^ 11 →
      let r := logMx old seq events
      (bitAt old 0 = true → r = old ||| 2) ∧
      (bitAt old 0 = false → bits r 0 0 = 1 ∧ bits r 1 1 = (if events.length = 1 then 0 else 1) ∧ bits r 7 2 = src ∧ bits r 16 8 = k ∧
        bits r 27 17 = n ∧ bits r 31 28 = 0 ∧ bits r 47 32 = seq % 2 ^ 16 ∧ bits r 63 48 = 0)) ∧
  ∀ (a : MxArray),
    -- the load of a panel
    (∀ (l : Launch) (ty : DType) (wb : Nat) (bs : Bool) (kb kn : Nat) (el sc : MxRead), ty ∈ mxTypeB → wb < 3 →
      (mxFloatKind ty = false → wb = 0) → (mxFloatKind ty = true → bs = false) → kb + kn ≤ 16 → (∀ i n, (el i n).1 < 2 ^ ty.width) →
      let r := a.load l ty wb bs kb kn el sc
      let form := if ty = .t2 then 3 else if mxFloatKind ty = true ∧ wb ≠ 0 then 2 else 1
      let np := if form = 1 then 512 else if form = 2 then 256 else 1024
      let keeps := a.form = form ∧ a.float = mxFloatKind ty ∧ a.wb = wb
      let loads := fun (b n : Nat) => kb ≤ b ∧ b < kb + kn ∧ n < np
      let at' := fun (b n j : Nat) => el (32 * (b - kb) + j) n
      let al := fun (b n : Nat) => alignBlock ([8, 12, 16].getD wb 0)
        ((List.range 32).map fun j => if (at' b n j).2 then Ex.rat false 0 1 else mxValue l ty (at' b n j).1)
      r.1 = { a with form := form, float := mxFloatKind ty, wb := wb, weights := r.1.weights, uns := r.1.uns, scales := r.1.scales,
                     exps := r.1.exps, special := r.1.special, pstat := r.1.pstat } ∧
      (∀ b n, b < 16 → n < np → ¬loads b n →
        (keeps → (∀ j, j < 32 → r.1.q (32 * b + j) n = a.q (32 * b + j) n) ∧ r.1.sb b n = a.sb b n ∧
          (1024 * b + n ∈ r.1.special ↔ 1024 * b + n ∈ a.special)) ∧
        (¬keeps → (∀ j, j < 32 → r.1.q (32 * b + j) n = 0) ∧ (∃ p, 0 < p ∧ r.1.sb b n = .rat false p p) ∧ 1024 * b + n ∉ r.1.special)) ∧
      (∀ b n, loads b n →
        (mxFloatKind ty = true → (∀ j, j < 32 → (al b n).q[j]? = some (r.1.q (32 * b + j) n)) ∧
          (∃ p q, 0 < q ∧ r.1.sb b n = .rat false p q ∧ IsExactly p q (al b n).e 1) ∧
          (1024 * b + n ∈ r.1.special ↔ (al b n).special = true)) ∧
        (mxFloatKind ty = false → (∀ j, j < 32 → r.1.q (32 * b + j) n = (if (at' b n j).2 then 0
            else if ty = .t2 then (if (at' b n j).1 = 1 then 1 else if (at' b n j).1 = 3 then -1 else 0) else intTy ty (at' b n j).1)) ∧
          r.1.sb b n = unpack (fmtOf .bf16) (if bs then (if (sc (b - kb) n).2 then 0 else (sc (b - kb) n).1) else 0x3F80) ∧
          1024 * b + n ∉ r.1.special)) ∧
      (∀ k, r.1.pstat.testBit k = true ↔ (keeps ∧ a.pstat.testBit k = true) ∨ ∃ b n, loads b n ∧
        (k = 0 ∧ mxFloatKind ty = true ∧ (al b n).inexact = true ∨ k = 1 ∧ mxFloatKind ty = true ∧ (al b n).special = true ∨
         k = 2 ∧ ty = .t2 ∧ (∃ j, j < 32 ∧ at' b n j = (2, false)) ∨
         k = 3 ∧ ((∃ j, j < 32 ∧ (at' b n j).2 = true) ∨ bs = true ∧ (sc (b - kb) n).2 = true))) ∧
      ∀ e, e ∈ r.2 ↔ ∃ b n, loads b n ∧
        ((∃ j, j < 32 ∧ (at' b n j).2 = true ∧ e = (32 * b + j, n)) ∨ bs = true ∧ (sc (b - kb) n).2 = true ∧ e = (32 * b, n))) ∧
    -- the product of one block
    (∀ (x : ABlock) (n : Nat), a.blockSum x n = ((List.range x.q.length).map fun k => x.q.getD k 0 * a.q (32 * x.b + k) n).sum) ∧
    (∀ (x : ABlock) (n : Nat),
      let v := a.blockValue x n
      let sb := a.sb x.b n
      let neg := (x.scale.neg != sb.neg) != decide (a.blockSum x n < 0)
      let special := x.special = true ∨ 1024 * x.b + n ∈ a.special
      (special ∨ x.scale.isNan = true ∨ sb.isNan = true → v.isNan = true) ∧
      (¬special → ∀ s1 n1 d1 s2 n2 d2, x.scale = .rat s1 n1 d1 → sb = .rat s2 n2 d2 → 0 < d1 → 0 < d2 →
        ∃ p d, 0 < d ∧ v = .rat neg p d ∧ p * (d1 * d2) = n1 * n2 * (a.blockSum x n).natAbs * d) ∧
      (¬special → x.scale.isNan = false → sb.isNan = false → x.scale.isInf = true ∨ sb.isInf = true →
        if x.scale.isZero = true ∨ sb.isZero = true ∨ a.blockSum x n = 0 then v.isNan = true else v = .inf neg)) ∧
    (∀ (x : ABlock) (n t row col : Nat), row < 64 → col < 512 →
      let r := a.addBlock x n t row col
      (r.1 = { a with tiles := r.1.tiles }) ∧
      (∀ k, k ≠ tileKey t row col → k ≠ tileKey (t + 1) row col → SMap.get 0 r.1.tiles k = SMap.get 0 a.tiles k) ∧
      (a.mode t ≠ 1 → SMap.get 0 r.1.tiles (tileKey (t + 1) row col) = SMap.get 0 a.tiles (tileKey (t + 1) row col)) ∧
      (a.mode t ≠ 2 →
        let w := if a.mode t = 1 then 48 else 32
        let v := a.cellInt t row col + a.blockSum x n
        let new := r.1.cellInt t row col
        (-(2 ^ (w - 1) : Int) ≤ new) ∧ new < 2 ^ (w - 1) ∧ (new - v) % 2 ^ w = 0 ∧ r.2 = if new = v then 0 else 16) ∧
      (a.mode t = 2 →
        let old := unpack (fmtOf .f32) (a.cell t row col).toNat
        let v := a.blockValue x n
        let sb := a.sb x.b n
        let invalid := x.special = false ∧ 1024 * x.b + n ∉ a.special ∧ x.scale.isNan = false ∧ sb.isNan = false ∧
          (x.scale.isInf = true ∨ sb.isInf = true) ∧ (x.scale.isZero = true ∨ sb.isZero = true ∨ a.blockSum x n = 0)
        let sum := fsum [old, v] (fmtOf .f32) .rne false
        (old.isNan = true ∨ v.isNan = true → (r.1.cell t row col).toNat = (fmtOf .f32).nan % 2 ^ 32 ∧
          (old.isNan = false ∨ invalid → r.2 = 1) ∧ (old.isNan = true → ¬invalid → r.2 = 0)) ∧
        (old.isNan = false → v.isNan = false → (r.1.cell t row col).toNat = sum.1 % 2 ^ 32 ∧ r.2 < 16 ∧
          ∀ k, k < 4 → r.2.testBit k = sum.2.getLsbD ([0, 2, 3, 4].getD k 0)))) ∧
    -- the columns that a product selects, and the products that do not run
    (∀ mt nh,
      (a.columns mt nh ≠ none ↔ ¬(a.mode mt = 1 ∧ mt % 2 = 1) ∧ (a.form = 1 ∧ nh = 0 ∨ a.form = 2 ∧ nh < 2 ∨ a.form = 3 ∧ nh < 2 ∨
        a.form = 3 ∧ nh = 2 ∧ mt % 2 = 0 ∧ a.mode mt = a.mode (mt + 1) ∧ a.mode mt ≠ 1)) ∧
      (∀ cols, a.columns mt nh = some cols → ∀ n t c, (n, t, c) ∈ cols ↔
        (a.form = 1 ∧ n < 512 ∧ t = mt ∧ c = n ∨ a.form = 2 ∧ n < 256 ∧ t = mt ∧ c = 256 * nh + n ∨
          a.form = 3 ∧ nh < 2 ∧ 512 * nh ≤ n ∧ n < 512 * nh + 512 ∧ t = mt ∧ c = n - 512 * nh ∨
          a.form = 3 ∧ nh = 2 ∧ n < 1024 ∧ t = mt + n / 512 ∧ c = n % 512)) ∧
      ∀ ty bsa d, d ∈ a.mmaFails ty mt nh bsa ↔ if a.form = 0 then d = 6 else
        d = 2 ∧ (a.form ≠ 3 ∧ a.float ≠ mxFloatKind ty ∨ a.mode mt ≠ 2 ∧ (mxFloatKind ty = true ∨ bsa = true)) ∨ d = 3 ∧ a.columns mt nh = none) ∧
    -- a whole product
    (∀ (l : Launch) (ty : DType) (mt nh wa : Nat) (bsa acc : Bool) (kb kn row0 mstr nrow : Nat) (members : List Nat)
      (cols : List (Nat × Nat × Nat)) (el sc : Nat → Nat → Nat → Nat) (lostA : Nat → Nat → Nat → Bool) (lostW : Nat → Nat → Bool),
      a.columns mt nh = some cols → wa < 4 → 0 < kn → (∀ m ∈ members, row0 + m * mstr + nrow ≤ 64) →
      let r := a.mmaRead l ty wa bsa acc kb kn row0 mstr nrow members cols el sc lostA lostW
      let lost := MxArray.lost kb kn nrow members cols lostA lostW
      -- what is lost of the panel counts as zero
      let z : MxArray := { a with weights := a.weights.filter fun k => !lostW (k.1 / 1024) (k.1 % 1024) }
      let block := fun (m i j : Nat) =>
        let v := (List.range 32).map fun k => (el m i (32 * j + k), lostA m i (32 * j + k))
        let al := alignBlock ([8, 12, 16, 24].getD wa 0) (v.map fun k => if k.2 then Ex.rat false 0 1 else mxValue l ty k.1)
        if mxFloatKind ty then ({ b := kb + j, q := al.q, scale := .dyadic false 1 al.e, special := al.special, inexact := al.inexact } : ABlock)
        else { b := kb + j, q := v.map fun k => if k.2 then 0 else intTy ty k.1, special := false, inexact := false,
               scale := if bsa then unpack (fmtOf .bf16) (sc m i j) else .rat false 1 1 }
      -- the blocks that a tile row takes, in order, and what an element of it becomes
      let into := fun (row : Nat) => ((members.flatMap fun m => (List.range nrow).map fun i => (m, i)).filter fun k =>
        decide (row0 + k.1 * mstr + k.2 = row)).flatMap fun k => (List.range kn).map fun j => block k.1 k.2 j
      let sums := fun (n t row c : Nat) => (into row).foldl (fun (p : MxArray × Nat) x =>
          let k := p.1.addBlock x n t row c
          (k.1, p.2 ||| k.2))
        (if acc then z else if a.mode t = 2 then z.putCell t row c 0x80000000 else z.putInt t row c 0, 0)
      r = { a with tiles := r.tiles, tstat := r.tstat } ∧
      (∀ n t c row, (n, t, c) ∈ cols → row < 64 → into row ≠ [] → r.cell t row c = (sums n t row c).1.cell t row c ∧
        (a.mode t = 1 → r.cell (t + 1) row c = (sums n t row c).1.cell (t + 1) row c)) ∧
      (∀ t c row, row < 64 → c < 512 → into row = [] ∨ (∀ n u, (n, u, c) ∈ cols → u ≠ t ∧ (a.mode u = 1 → t ≠ u + 1)) →
        r.cell t row c = a.cell t row c) ∧
      (∀ t k, (r.tstat.get 0 t).testBit k = true ↔ (a.tstat.get 0 t).testBit k = true ∨
        (∃ n c row, (n, t, c) ∈ cols ∧ into row ≠ [] ∧ ((sums n t row c).2.testBit k = true ∨
          k = 3 ∧ (a.pstat.testBit 0 = true ∨ ∃ x ∈ into row, x.inexact = true))) ∨
        k = 5 ∧ lost ≠ [] ∧ ∃ n u c, (n, u, c) ∈ cols ∧ (t = u ∨ a.mode u = 1 ∧ t = u + 1)) ∧
      ∀ e, e ∈ lost ↔
        (∃ m ∈ members, ∃ i k, i < nrow ∧ k < 32 * kn ∧ lostA m i k = true ∧ e = (4 * m, 32 * kb + k, i)) ∨
        ∃ c ∈ cols, ∃ k, k < 32 * kn ∧ lostW (32 * kb + k) c.1 = true ∧ e = (1, 32 * kb + k, c.1)) ∧
    -- the tiles
    (∀ (t row col u : Nat), row < 64 → col < 512 →
      (a.zeroTile t).cell u row col = (if u = t ∨ a.mode t = 1 ∧ u / 2 = t / 2 then 0 else a.cell u row col) ∧
      (a.zeroTile t).tstat.get 0 u = (if u = t then 0 else a.tstat.get 0 u) ∧
      (a.clearStatus t).tstat.get 0 u = if u = t ∧ t ≠ 4 then 0 else a.tstat.get 0 u) ∧
    (∀ (t row0 nr col0 nc row col u : Nat), row < 64 → col < 512 → row0 + nr ≤ 64 → col0 + nc ≤ 512 →
      (a.zeroRange t row0 nr col0 nc).cell u row col =
        if (u = t ∨ a.mode t = 1 ∧ u = t + 1) ∧ row0 ≤ row ∧ row < row0 + nr ∧ col0 ≤ col ∧ col < col0 + nc then 0 else a.cell u row col) ∧
    ∀ (modes u row col : Nat), u < 4 → row < 64 → col < 512 →
      (a.config modes).mode u = modes / 4 ^ u % 4 ∧
      (a.config modes).tstat.get 0 u = (if a.mode u = modes / 4 ^ u % 4 then a.tstat.get 0 u else 0) ∧
      ((∀ t, t < 4 → a.mode t ≠ modes / 4 ^ t % 4 → u ≠ t ∧ (a.mode t = 1 → u / 2 ≠ t / 2)) → (a.config modes).cell u row col = a.cell u row col) ∧
      ((∃ t, t < 4 ∧ a.mode t ≠ modes / 4 ^ t % 4 ∧ (u = t ∨ a.mode t = 1 ∧ u / 2 = t / 2)) → (a.config modes).cell u row col = 0)

/-- MATRIX_INSTRUCTION_START, WEIGHT_STORE_LINE_ACCESS, MATRIX_OPERATION_COMPLETE, TARN_REFRESH_WINDOW (R356, R361 to R376 16_matrix.md): the array takes
the oldest operation of its core, translating all its rows first; the weight store is accessed line by line in ascending order, 60 clocks each, outside
the refresh window of a bank; each operation then has its effect on the array, registers, a tile, memory or the weight store.
It rests on the model's readings: log 37. -/
def Obligations.MatrixOperationsTakeEffect : Prop :=
  ∀ (s : State),
    (s.refresh ≠ s.bankAt s.time → ∃ t, exec .tarnRefreshWindow s = .next t ∧ t = { s with refresh := s.bankAt s.time, stamp := s.stamp + 1 }) ∧
    (∀ k, s.bankAt s.time = some k ↔ k < 16 ∧ (s.time + 112000 - s.tarnPhase % 112000 + 112000 - 7000 * k) % 112000 < 3500) ∧
    (∀ (what : MxWhat) (line : Nat),
      (what.tarnLines.Pairwise fun a b => a < b) ∧
      (∀ addr ta len, what = .wsWrite addr ta len ∨ what = .wsRead addr ta len → (line ∈ what.tarnLines ↔ ta / 64 ≤ line ∧ line < ta / 64 + len)) ∧
      ∀ ty wb bs base str saddr kb kn, what = .load true ty wb bs base str saddr kb kn → 0 < kn → ty ∈ mxTypeB →
        let np := panelColumns (panelForm ty wb)
        (line ∈ what.tarnLines ↔ line < 2 ^ 24 ∧ ((∃ i j, i < 32 * kn ∧ j < np * ty.width / 8 ∧ (base + i * str + j) / 64 = line) ∨
          bs = true ∧ ∃ j, j < 2 * np * kn ∧ (saddr + j) / 64 = line))) ∧
    ∀ (id : Nat) (o : Op) (w : MxWork) (g : Group) (l : Launch) (b : Block), s.arg = .num id → s.op? id = some o → o.kind = .matrix w →
      s.group? o.grp = some g → s.launch? g.launch = some l → s.block? g.launch g.block = some b →
      let a := s.array g.launch g.block o.core
      let who := fun (rd : Bool) => ({ core := some o.core, asid := o.asid, priv := l.priv, rd := rd, wr := !rd } : Who)
      let quiet := s.writes = [] ∧ s.staged = [] ∧ s.guests = []
      let poison := fun (pa : Nat) => (s.markOf (s.fwd (pa / 64))).poison
      let failing := fun (pa : Nat) => (s.markOf (s.fwd (pa / 64))).failing
      -- its start, as the event `e`
      let starts := fun (e : Instr) =>
        (w.members = [] ∨ w.what.side = none →
          ∃ t, exec e s = .next t ∧ t.mem = s.mem ∧ t.op? id = some { o with stamp := s.qi, kind := .matrix { w with stage := 1 } }) ∧
        ∀ m ms rows scales rd, w.members = m :: ms → w.what.side = some (rows, scales, rd) →
          let fails := fun (P : Nat → Nat → Nat → Prop) => ∃ t g', exec e s = .next t ∧ t.mem = s.mem ∧ t.op? id = none ∧
            t.group? o.grp = some g' ∧ g'.counter o.counter = g.counter o.counter - 1 ∧ g'.vregs = g.vregs ∧
            t.array g.launch g.block o.core = { a with seq := (t.array g.launch g.block o.core).seq } ∧
            ∃ k ∈ g'.deferred, k.op = id ∧ k.ready = true ∧ k.counter = o.counter ∧ P k.cause k.detail k.addr
          (∀ cause d va, s.tick.mxRows (who rd) m (rows ++ scales) = .error (cause, d, va) →
            fails fun k e va' => k = cause ∧ e = d ∧ va' = va) ∧
          ∀ addrs seen, s.tick.mxRows (who rd) m (rows ++ scales) = .ok (addrs, seen) →
            (addrs.length = rows.length + scales.length ∧ ∀ (i va n : Nat) (row : List Nat), (rows ++ scales)[i]? = some (va, n) →
              addrs[i]? = some row → ∃ msa found, s.tick.reachAll (who rd) (va % 2 ^ 64) n m = (.ok (row, msa), found)) ∧
            (rd = true → (∃ pa ∈ addrs.flatten, poison pa ≠ 0) → fails fun k e va =>
              k = 6 ∧ ∃ pa ∈ addrs.flatten, poison pa ≠ 0 ∧ e = 128 + poison pa ∧ va = 64 * (pa / 64)) ∧
            ((rd = true → ∀ pa ∈ addrs.flatten, poison pa = 0) → ∃ t, exec e s = .next t ∧ t.mem = s.mem ∧ t.op? id =
              some { o with stamp := s.qi,
                            kind := .matrix { w with stage := 1, rows := addrs.take rows.length, saddrs := (addrs.drop rows.length).flatten } })
      (w.stage = 0 → w.what.inOrder = true → (∀ p ∈ s.ops, p.core = o.core → p.id < id → p.pendingMx = none) → s.edgeClear o.edge = true →
        starts .matrixInstructionStart ∧ ∀ t, exec .matrixInstructionStart s = .next t → t.array g.launch g.block o.core = { a with seq := a.seq + 1 }) ∧
      (w.stage = 0 → w.what.inOrder = false → s.edgeClear o.edge = true → starts .weightStoreLineAccess) ∧
      (∀ line, w.stage = 1 → w.members ≠ [] → w.what.tarnLines[w.lines.length]? = some line → w.busy ≤ s.time →
        s.bankAt s.time ≠ some (line / 2 ^ 20) →
        let key := 2 ^ 30 * dieOf o.core + 64 * line
        let lost := 2 ^ 24 * dieOf o.core + line
        let done := fun (t : State) (bytes : List Byte) (bad : Bool) =>
          t.op? id = some { o with kind := .matrix { w with lines := w.lines ++ [(line, bytes, bad)], busy := s.time + 60 } }
        let reports := fun (t : State) (addr : Nat) => (∀ k ∈ g.deferred, k.op ≠ id) → ∃ g', t.group? o.grp = some g' ∧
          ∃ k ∈ g'.deferred, k.op = id ∧ k.counter = o.counter ∧ k.cause = 7 ∧ k.detail = 128 ∧ k.addr = addr
        (∀ addr ta len row, w.what = .wsWrite addr ta len → w.rows[w.lines.length]? = some row → row.length = 64 → quiet →
          (∀ pa ∈ row, pa / 64 = row.headD 0 / 64 ∧ poison pa = 0) →
          ∃ t, exec .weightStoreLineAccess s = .next t ∧ t.mem = s.mem ∧ done t [] (failing (row.headD 0)) ∧
            (∀ i, i < 64 → SMap.get 0 t.tarn (key + i) = s.byteAt (row.getD i 0)) ∧
            (∀ k, k < key ∨ key + 64 ≤ k → SMap.get 0 t.tarn k = SMap.get 0 s.tarn k) ∧
            (lost ∈ t.tarnFailing ↔ failing (row.headD 0) = true) ∧ (∀ k, k ≠ lost → (k ∈ t.tarnFailing ↔ k ∈ s.tarnFailing)) ∧
            (failing (row.headD 0) = true → reports t (64 * (row.headD 0 / 64)))) ∧
        ((∀ addr ta len, w.what ≠ .wsWrite addr ta len) → ∃ t bytes bad, exec .weightStoreLineAccess s = .next t ∧ t.mem = s.mem ∧
          t.tarn = s.tarn ∧ t.tarnFailing = s.tarnFailing ∧ bytes.length = 64 ∧ (∀ i, i < 64 → bytes.getD i 0 = SMap.get 0 s.tarn (key + i)) ∧
          (bad = true ↔ lost ∈ s.tarnFailing) ∧ done t bytes bad ∧
          ∀ addr ta len, w.what = .wsRead addr ta len → bad = true → reports t (64 * line))) ∧
      (w.stage = 1 → (w.members = [] ∨ w.lines.length = w.what.tarnLines.length) → w.busy ≤ s.time →
        (∀ pa ∈ w.rows.flatten ++ w.saddrs, s.pathTo (pa / 64) = true) →
        let ends := fun (P : State → Group → Prop) => ∃ t g', exec .matrixOperationComplete s = .next t ∧ t.op? id = none ∧ t.mem = s.mem ∧
          t.group? o.grp = some g' ∧ P t g'
        let counts := fun (g' : Group) => g'.counter o.counter = g.counter o.counter - 1
        let array := fun (t : State) => t.array g.launch g.block o.core
        (w.members = [] → (∀ modes, w.what ≠ .cfg modes) → (∀ sel clr d p, w.what ≠ .stat sel clr d p) →
          ends fun t g' => counts g' ∧ array t = a ∧ t.tarn = s.tarn ∧ t.writes = s.writes) ∧
        (∀ r u, s.heldBy id = some r → r.grp = o.grp → g.sub? r.sub = some u →
          let goes := fun (words : Nat) (uregs : SMap Word → Prop) (g' : Group) => ∃ u', g'.sub? r.sub = some u' ∧ u'.phase = .running ∧
            u'.pc = u.pc + BitVec.ofNat 64 (4 * words) ∧ u'.ndone = u.ndone + 1 ∧ uregs u'.uregs
          (∀ modes, w.what = .cfg modes → ends fun t g' => goes 7 (fun v => v = u.uregs) g' ∧ g'.vregs = g.vregs ∧
            array t = if w.members = [] then a else a.config modes) ∧
          ∀ sel clr d p, w.what = .stat sel clr d p → sel ≤ 5 →
            let lo := if sel = 5 then BitVec.ofNat 32 (bits (s.mxerr.get 0 o.core) 31 0) else BitVec.ofNat 32 (a.status sel)
            let hi := BitVec.ofNat 32 (bits (s.mxerr.get 0 o.core) 63 32)
            let cleared := fun (t : State) => if sel = 5 then t.mxerr.get 0 o.core = 0 ∧ array t = a
              else array t = (if clr then a.clearStatus sel else a) ∧ t.mxerr = s.mxerr
            (w.members = [] → ends fun t g' => array t = a ∧ t.mxerr = s.mxerr ∧ goes 3 (fun v => ∀ r, v.get 0 r = u.uregs.get 0 r) g' ∧
              ∀ r th, g'.vcur r th = g.vcur r th) ∧
            (w.members ≠ [] → ∀ n, operandOf d = .ureg n → ends fun t g' => cleared t ∧ (∀ r th, g'.vcur r th = g.vcur r th) ∧
              goes 3 (fun v => ∀ r, v.get 0 r = if r = n then lo else if sel = 5 ∧ r = n + 1 then hi else u.uregs.get 0 r) g') ∧
            (w.members ≠ [] → ∀ n, operandOf d = .vreg n → (∀ th ∈ w.active, th < 32 * g.m) → ends fun t g' => cleared t ∧
              goes 3 (fun v => v = u.uregs) g' ∧ ∀ r th, th < 32 * g.m → g'.vcur r th = if th ∈ w.active ∧ r = n then lo
                else if th ∈ w.active ∧ sel = 5 ∧ r = n + 1 then hi else g.vcur r th)) ∧
        (w.members ≠ [] →
          (∀ mask, w.what = .zero mask → ends fun t g' => counts g' ∧
            array t = ((List.range 4).filter fun i => mask.testBit i).foldl MxArray.zeroTile a) ∧
          (∀ tarn ty wb bs base str saddr kb kn, w.what = .load tarn ty wb bs base str saddr kb kn → ty ∈ mxTypeB → (tarn = false → quiet) →
            let np := panelColumns (panelForm ty wb)
            -- the bytes that a byte of the weight store has been read as, and whether it was lost
            let got := fun (ta : Nat) => (w.lines.find? fun k => k.1 == ta / 64).map fun k => (k.2.1.getD (ta % 64) 0, k.2.2)
            let bad := fun (own : List Nat) => own.any fun pa => failing pa || decide (poison pa ≠ 0)
            ∃ el sc, (ends fun t g' => counts g' ∧ array t = (a.load l ty wb bs kb kn el sc).1 ∧
                t.mxerr.get 0 o.core = logMx (s.mxerr.get 0 o.core) a.seq ((a.load l ty wb bs kb kn el sc).2.map fun e => (if tarn then 3 else 2, e))) ∧
              (tarn = false →
                (∀ i row n, w.rows[i]? = some row → i < 32 * kn → (n + 1) * ty.width ≤ 8 * row.length →
                  let own := (row.drop (n * ty.width / 8)).take ((ty.width + 7) / 8)
                  el i n = (leNat (own.map s.byteAt) / 2 ^ (n * ty.width % 8) % 2 ^ ty.width, bad own)) ∧
                ∀ b n, let own := (w.saddrs.drop (2 * (b * np + n))).take 2
                  sc b n = (leNat (own.map s.byteAt) % 2 ^ 16, bad own)) ∧
              (tarn = true →
                (∀ (i n : Nat) (own : List (Byte × Bool)), i < 32 * kn → n < np → ((List.range ((ty.width + 7) / 8)).map fun j => got (base + i * str + n * ty.width / 8 + j)) = own.map some →
                  el i n = (leNat (own.map fun k => k.1) / 2 ^ (n * ty.width % 8) % 2 ^ ty.width, own.any fun k => k.2)) ∧
                ∀ (b n : Nat) (own : List (Byte × Bool)), bs = true → b < kn → n < np → ([0, 1].map fun j => got (saddr + 2 * (b * np + n) + j)) = own.map some →
                  sc b n = (leNat (own.map fun k => k.1) % 2 ^ 16, own.any fun k => k.2))) ∧
          (∀ ty mt nh acc bsa src aoff astr nrow row0 mstr kb kn wa soff streams,
            w.what = .mma ty mt nh acc bsa src aoff astr nrow row0 mstr kb kn wa soff streams →
            (a.mmaFails ty mt nh bsa ≠ [] → ends fun t g' => array t = a ∧ counts g' ∧
              ∃ k ∈ g'.deferred, k.op = id ∧ k.ready = true ∧ k.counter = o.counter ∧ k.cause = 0x13 ∧ k.detail ∈ a.mmaFails ty mt nh bsa) ∧
            ∀ cols, a.mmaFails ty mt nh bsa = [] → a.columns mt nh = some cols →
              -- an A element and an A scale: of the registers, or of a member's part of the tile
              let part := fun (k m : Nat) => let t := s.tile g.launch g.block o.core k; 64 * t.bs + if t.pm then 64 * t.sz * m else 0
              let place := fun (k m r j : Nat) => 8 * (part k m + 16 * aoff + 16 * r * astr) + j * ty.width
              let el := fun (m r j : Nat) => match src with
                | none => streams.get 0 m / 2 ^ ((r * kn * 32 + j) * ty.width) % 2 ^ ty.width
                | some k => s.poolBits g.launch g.block o.core (place k m r j) ty.width
              let sc := fun (m r i : Nat) => match src with
                | none => 0
                | some k => s.poolBits g.launch g.block o.core (8 * (part k m + 16 * soff + 2 * (r * kn + i))) 16
              ∃ lostA lostW, (ends fun t g' => counts g' ∧
                  array t = a.mmaRead l ty wa bsa acc kb kn row0 mstr nrow w.members cols el sc lostA lostW ∧
                  t.mxerr.get 0 o.core = logMx (s.mxerr.get 0 o.core) a.seq (MxArray.lost kb kn nrow w.members cols lostA lostW)) ∧
                ∀ k m r j, src = some k → (s.poolMark g.launch g.block o.core (place k m r j) ty.width).isSome = true → lostA m r j = true) ∧
          (∀ td mode fzi fzo mt zr tile base str row0 nr col0 nc, w.what = .drain td mode fzi fzo mt zr tile base str row0 nr col0 nc →
            0 < nr → 0 < nc → 8 ∣ td.width →
            let size := td.width / 8
            let value := fun (i j : Nat) => convert l (drainType (a.mode mt)) td mode fzi fzo (a.drainBits mt (row0 + i) (col0 + j))
            let flag := fun (k : Nat) => ∃ i j, i < nr ∧ j < nc ∧ (value i j).2.getLsbD k = true
            let left := if zr then a.zeroRange mt row0 nr col0 nc else a
            (∀ k, tile = some k → nr ≤ 1 ∨ nc * size ≤ str → ends fun t g' => counts g' ∧ array t = left ∧
              (∀ th k, (g'.fpsr.get 0 th).getLsbD k = true ↔ (g.fpsr.get 0 th).getLsbD k = true ∨ th ∈ w.active ∧ flag k) ∧
              ∀ i j, i < nr → j < nc →
                let d := s.tile g.launch g.block o.core k
                let part := 64 * d.bs + if d.pm then 64 * d.sz * w.members.headD 0 else 0
                t.poolBits g.launch g.block o.core (8 * (part + base + i * str + j * size)) td.width = (value i j).1 % 2 ^ td.width) ∧
            (tile = none → w.rows.length = nr → (∀ row ∈ w.rows, row.length = nc * size) → w.rows.flatten.Nodup →
              ∃ t p, exec .matrixOperationComplete s = .next t ∧ t.mem = s.mem ∧ t.op? id = some p ∧ 0 < p.left ∧ array t = left ∧
                (∀ th k, (∃ fl, (th, fl) ∈ p.raises ∧ fl.getLsbD k = true) ↔ th ∈ w.active ∧ flag k) ∧
                ∀ i j k row, i < nr → j < nc → k < size → w.rows[i]? = some row →
                  let pa := row.getD (j * size + k) 0
                  ∃ q ∈ t.writes, q.line = s.fwd (pa / 64) ∧ id ∈ q.waiters ∧ (q.bytes.get 0 (pa % 64)).toNat = (value i j).1 / 2 ^ (8 * k) % 2 ^ 8)) ∧
          (∀ addr ta len, w.what = .wsWrite addr ta len → ends fun t g' => t.tarn = s.tarn ∧ counts g') ∧
          ∀ addr ta len, w.what = .wsRead addr ta len → w.rows.length = w.lines.length → w.lines ≠ [] →
            (w.rows.map fun row => row.headD 0 / 64).Nodup → ∃ t p, exec .matrixOperationComplete s = .next t ∧ t.mem = s.mem ∧ t.tarn = s.tarn ∧
              t.op? id = some p ∧ p.left = w.lines.length ∧ ∀ (i : Nat) (row : List Nat) (line : Nat) (bytes : List Byte) (bad : Bool),
                w.rows[i]? = some row → w.lines[i]? = some (line, bytes, bad) → bytes.length = 64 →
                ∃ q ∈ t.writes, q.line = s.fwd (row.headD 0 / 64) ∧ id ∈ q.waiters ∧ (∀ j, j < 64 → q.bytes.get 0 j = bytes.getD j 0) ∧
                  q.marked = bad ∧ q.poison = false))

/-! ### Regrouping -/

/-- RJOIN, REPACK, RJOIN_MERGE, REGROUP_DEADLOCK, REPACK_EXECUTE (R384 to R388 17_regroup.md): a whole group passes an RJOIN, a sub-group is held
until all are, and then those at each address are one; frames that differ and joins beside barriers trap, as do repacks apart or beside barriers; a
repack puts the threads of a block, by their masks, into the lanes of its groups with all their registers, and writes where each came from.
It rests on the model's readings: logs 30 and 31. -/
def Obligations.RegroupingOfThreads : Prop :=
  ∀ (s : State),
    (∀ (c : Cx) (x : Ext),
      let passes := fun (i : Instr) => Passes s i c x.words fun t _ _ => t.ops = s.ops
      (ReadyMem s c x formRjoin [] (joinPlaced c) →
        (c.u.passed = true ∨ c.g.subs.length ≤ 1 → passes (.rjoin x)) ∧
        (c.u.passed = false → 1 < c.g.subs.length → Holds s (.rjoin x) c .heldJoin)) ∧
      (ReadyMem s c x formRepack [] (joinPlaced c) →
        (c.u.cfrm ≠ none → Faults s (.repack x) c { cause := 0x14, detail := 2, msk := c.threads 0 }) ∧
        (c.u.cfrm = none → c.u.passed = true → passes (.repack x)) ∧
        (c.u.cfrm = none → c.u.passed = false → Holds s (.repack x) c (.heldRepack (destReg x.d))))) ∧
    ∀ (id : Nat) (g : Group), s.arg = .num id → s.group? id = some g → g.resident = true →
      (g.subs.Pairwise fun u v => u.lowest ≠ v.lowest ∧ u.num ≠ v.num) →
      -- some sub-groups of a group trap with one cause, those at BARs back at them
      let trapped := fun (t : State) (o : Group) (us : SubGroup → Prop) (cause detail : Nat) => ∃ g', t.group? o.id = some g' ∧
        bits g'.trap.info 7 0 = cause ∧ bits g'.trap.info 15 8 = detail ∧
        ∀ u ∈ o.subs, us u → ∃ u', g'.sub? u.num = some u' ∧ u'.phase = .trapped ∧
          ∀ level p n w, u.phase = .bar level → u.barAt = some (p, n, w) → u'.pc = BitVec.ofNat 64 p ∧ u'.ndone = n
      let trapsAll := fun (i : Instr) (us : SubGroup → Prop) (cause detail : Nat) => ∃ t, exec i s = .next t ∧ t.mem = s.mem ∧
        trapped t g us cause detail
      let held := fun (u : SubGroup) => u ∈ g.subs ∧ u.phase = .heldJoin
      let apart := fun (p : Dword) => ∃ u v, held u ∧ held v ∧ u.pc = p ∧ v.pc = p ∧ u.cfrm ≠ v.cfrm
      ((∀ u ∈ g.subs, u.phase = .heldJoin ∧ u.observing = none ∧ g.subLive u = true ∨ u.phase = .finished ∧ g.subLive u = false) →
        (∃ u, held u) →
        ((∃ p, apart p) → ∃ p, apart p ∧ trapsAll .rjoinMerge (fun u => u.phase = .heldJoin ∧ u.pc = p) 0x12 4) ∧
        ((∀ p, ¬apart p) → ∃ t g', exec .rjoinMerge s = .next t ∧ t = { s with groups := t.groups, stamp := s.stamp + 1 } ∧
          t.group? id = some g' ∧ g' = { g with subs := g'.subs } ∧ (∀ u, held u → ∃ n ∈ g'.subs, n.pc = u.pc) ∧
          (g'.subs.Pairwise fun n k => n.pc ≠ k.pc ∧ n.num < k.num ∧ n.lowest < k.lowest) ∧
          ∀ n ∈ g'.subs,
            let here := fun (v : SubGroup) => held v ∧ v.pc = n.pc
            let joins := fun (v : SubGroup) => here v ∨ v ∈ g.subs ∧ v.phase = .finished ∧ ∃ w, here w ∧ ∀ o, held o → w.lowest ≤ o.lowest
            n.phase = .running ∧ n.ndone = 0 ∧ n.window = [] ∧ n.passed = true ∧
            (∀ m, m < 8 → (n.members.getLsbD m = true ↔ ∃ v, joins v ∧ v.members.getLsbD m = true)) ∧
            (∀ m, m < 8 → (n.mmk.getLsbD m = true ↔ ∃ v, joins v ∧ v.members.getLsbD m = true ∧ v.mmk.getLsbD m = true)) ∧
            ((∃ v w, joins v ∧ joins w ∧ v.num ≠ w.num) → n.monitor = none) ∧
            ∃ v, here v ∧ (∀ o, here o → v.lowest ≤ o.lowest) ∧ n.uregs = v.uregs ∧ n.fpcr = v.fpcr ∧ n.lpr = v.lpr ∧ n.cfrm = v.cfrm)) ∧
      ((∀ u ∈ g.subs, u.phase = .finished ∨ u.phase = .heldJoin ∨ (∃ l, u.phase = .bar l) ∨ ∃ d, u.phase = .heldRepack d) →
        (∃ u ∈ g.subs, u.phase = .heldJoin) → (∃ u ∈ g.subs, u.phase ≠ .finished ∧ u.phase ≠ .heldJoin) →
        trapsAll .regroupDeadlock (fun u => u.phase ≠ .finished) 0x14 3) ∧
      ∀ (l : Launch) (pc : Dword) (d : Option Nat), s.launch? g.launch = some l →
        let ps := s.repackers g
        let slots := repackSlots ps
        (g.spawned = true → ps = [g]) ∧
        (g.spawned = false → (ps.Pairwise fun a b => a.index ≤ b.index) ∧
          ∀ o, o ∈ ps ↔ o ∈ s.groups ∧ o.launch = g.launch ∧ o.block = g.block ∧ o.spawned = false) ∧
        (slots.Pairwise fun a b => a.k < b.k ∨ a.k = b.k ∧ (a.part < b.part ∨ a.part = b.part ∧ a.lane < b.lane)) ∧
        (∀ k : RepackSlot, k ∈ slots ↔ k.lane < 32 ∧ k.k ≠ 0 ∧ ∃ o, ps[k.part]? = some o ∧
          k.k = ofBits ((List.range o.m).filter fun m => o.mmkOf m && (o.exmOf m).getLsbD k.lane)) ∧
        ((ps.map fun o => o.id).Nodup → (∀ o ∈ ps, o.resident = true ∧ o.subs.Pairwise fun u v => u.lowest ≠ v.lowest ∧ u.num ≠ v.num) →
          -- not all at one REPACK
          ((∀ o ∈ ps, ∀ u ∈ o.subs, o.subLive u = true ∧ ((∃ e, u.phase = .heldRepack e) ∨ ∃ n, u.phase = .bar n ∧ l.domain n = some 1) ∨
              o.subLive u = false ∧ u.phase = .finished) →
            let at' := fun (u : SubGroup) => ∃ o ∈ ps, u ∈ o.subs ∧ ∃ e, u.phase = .heldRepack e
            (∃ u, at' u) → ((∃ u v, at' u ∧ at' v ∧ u.pc ≠ v.pc) ∨ ∃ o ∈ ps, ∃ u ∈ o.subs, ∃ n, u.phase = .bar n) →
            ∃ t, exec .repackExecute s = .next t ∧ t.mem = s.mem ∧
              ∀ o ∈ ps, (∃ u ∈ o.subs, o.subLive u = true) → trapped t o (fun u => o.subLive u = true) 0x14 1) ∧
          -- all at the REPACK at `pc`, whose destination is `d`
          ((∀ o ∈ ps, o.ld = 0 ∧ o.st = 0 ∧ o.cp = 0 ∧ o.mx = 0 ∧ o.stale = [] ∧
              ∀ u ∈ o.subs, o.subLive u = true ∧ u.phase = .heldRepack d ∧ u.pc = pc ∨ o.subLive u = false ∧ u.phase = .finished) →
            (∃ o ∈ ps, ∃ u ∈ o.subs, o.subLive u = true) → s.quietFor (ps.map fun o => o.id) = true →
            ∃ t, exec .repackExecute s = .next t ∧ t.mem = s.mem ∧ t.ops = s.ops ∧
              ∀ (j : Nat) (o : Group), ps[j]? = some o → ∃ g', t.group? o.id = some g' ∧
                let mine := (slots.drop (32 * j)).take 32
                (∀ m i, m < o.m → i < 32 → (g'.liveOf m).getLsbD i = (match mine[i]? with | some k => k.k.testBit m | none => false) ∧
                  g'.exmOf m = g'.liveOf m) ∧
                (∀ o' ∈ ps, o'.horizon ≤ g'.horizon) ∧ g'.subs.length = min o.subs.length 1 ∧ g'.accs = o.accs ∧
                (∀ u ∈ g'.subs, u.num = 0 ∧ u.pc = pc ∧ u.ndone = 0 ∧ u.passed = true ∧ u.monitor = none ∧
                  (mine = [] → u.phase = .finished) ∧ (mine ≠ [] → u.phase = .running) ∧
                  (∀ m, m < 8 → u.members.getLsbD m = decide (m < o.m) ∧ (u.mmk.getLsbD m = true ↔ ∃ k ∈ mine, k.k.testBit m = true)) ∧
                  ∀ v ∈ o.subs, o.subLive v = true → (∀ w ∈ o.subs, o.subLive w = true → v.lowest ≤ w.lowest) →
                    u.uregs = v.uregs ∧ u.fpcr = v.fpcr ∧ u.lpr = v.lpr) ∧
                ∀ (i m : Nat) (k : RepackSlot) (p : Group), mine[i]? = some k → ps[k.part]? = some p → m < o.m →
                  (∀ r, r < 240 → g'.vcur r (32 * m + i) = if d = some r ∧ k.k.testBit m = true then
                    BitVec.ofNat 32 (p.index % 256 * 256 + k.lane) else p.vcur r (32 * m + k.lane)) ∧
                  (∀ n, 0 < n → n < 16 → g'.predBit (32 * m + i) n = (p.predOf m n).getLsbD k.lane) ∧
                  g'.fpsr.get 0 (32 * m + i) = p.fpsr.get 0 (32 * m + k.lane)))

/-! ### Collectives -/

/-- MSUMX, MMEAN, MSPRD, MQNT, MRANK, MHIST (R390 to R397 18_collective.md): in each lane with an active thread, the correctly rounded sum, mean, spread
or quantile of its active values, or the rank of an observation among them; MSUMX also merges accumulators; MHIST increments one counter for each
lane.
It rests on the model's readings: log 45. -/
def Obligations.MemberCollectives : Prop :=
  ∀ (s : State) (c : Cx) (x : Ext),
    let f := fmtOf x.ty
    let md := c.mode x.rnd
    let lane := fun (l : Nat) => (c.threads x.p).filter fun t => t % 32 == l
    let vals := fun (l : Nat) => (lane l).map (c.fin x .A)
    let first := fun (l : Nat) => (lane l).headD 0
    let noNan := fun (l : Nat) => (vals l).any Ex.isNan = false
    let ends := fun (i : Instr) (wide : Bool) (P : Nat → Nat × Flags → Prop) =>
      ∃ r : Nat → Nat × Flags, Collects s i c x wide r ∧ ∀ l, l < 32 → lane l ≠ [] → P l (r l)
    let nans := fun (l : Nat) (r : Nat × Flags) => (vals l).any Ex.isNan = true → r = nanres f (vals l) false
    let finite := fun (l : Nat) => ∀ y ∈ vals l, ∃ sg n d, y = .rat sg n d ∧ 0 < d
    -- no active thread reads a marked unit as A; of B and C only the first member of a lane reads
    let readable := fun (fm : Form) => c.markFault (formUses x { fm with srcs := fm.srcs.take 1 }) (c.threads x.p) false = none
    (x.bit1 5 = false → ReadyAcc s c x (formMsumx x) [] [] (some 4) →
      ends (.msumx x) x.ty.wide fun l r => nans l r ∧ (noNan l → r = fsum (vals l) f md c.fzo)) ∧
    (x.bit1 5 = true → ReadyAcc s c x (formMsumx x) [x.subBits 7 6, x.subBits 9 8] [x.subBits 9 8] (some 4) →
      let ms := (List.range 8).filter fun m => (c.threads x.p).any fun t => t / 32 == m
      let own := fun (m : Nat) => c.g.acc m (x.subBits 9 8)
      Accumulates s (.msumx x) c x.words x.p (fun m i => if i = x.subBits 7 6 ∧ m ∈ ms
        then (ms.drop 1).foldl (fun a k => a.merge (own k)) (own (ms.headD 0)) else c.g.acc m i) fun _ => 0) ∧
    (ReadyMem s c x (formMmean x) [] [] → ends (.mmean x) x.ty.wide fun l r => nans l r ∧
      (noNan l → (vals l).any Ex.isInf = true → r = fsum (vals l) f md c.fzo) ∧
      (finite l → let v := exactSum (vals l)
        (v.1 = 0 → r = fsum (vals l) f md c.fzo) ∧
        (v.1 ≠ 0 → r = round f md c.fzo (.rat (decide (v.1 < 0)) v.1.natAbs (v.2 * (vals l).length))))) ∧
    (ReadyMem s c x (formMsprd x) [] [] → ends (.msprd x) x.ty.wide fun l r => nans l r ∧
      let div := if x.bit1 5 then (vals l).length - 1 else (vals l).length
      (noNan l → (vals l).any Ex.isInf = true ∨ div = 0 → r = (f.nan, flagNV)) ∧
      -- (s2 - s1² / n) / d, exact; a root that is no multiple of 2^-1200 is rounded as a value between the two multiples around it
      (finite l → 0 < div →
        let s1 := exactSum (vals l)
        let s2 := exactSum ((vals l).map fun y => match y with | .rat _ n d => .rat false (n * n) (d * d) | y => y)
        let num : Int := s2.1 * (s1.2 * s1.2 * (vals l).length : Nat) - s1.1 * s1.1 * s2.2
        let den := s2.2 * (s1.2 * s1.2 * (vals l).length) * div
        (num = 0 → r = (f.signBit false, 0)) ∧
        (num ≠ 0 → ∃ m, (m ^ 2 * den = num.toNat * 4 ^ 1200 ∧ r = round f md c.fzo (.rat false m (2 ^ 1200))) ∨
          (m ^ 2 * den < num.toNat * 4 ^ 1200 ∧ num.toNat * 4 ^ 1200 < (m + 1) ^ 2 * den ∧
            r = round f md c.fzo (.rat false (2 * m + 1) (2 ^ 1201)))))) ∧
    (ReadyMem s c x (formMqnt x) [] [] (c.firstMembers x.p) → readable (formMqnt x) → ends (.mqnt x) x.ty.wide fun l r => nans l r ∧ (noNan l →
      let ys := ascending (vals l)
      let k := (c.src x .B false .int (first l)).toNat
      let p := flushIn c.fzi f (c.flt x .B x.ty (first l))
      let picks := fun (y : Ex) (r : Nat × Flags) => BitsFor f y r.1 ∧ r.2 = 0
      Ascends (vals l) ys ∧ (x.bit1 5 = true → ys.length ≤ k → r = (f.nan, flagNV)) ∧
      (∀ y, x.bit1 5 = true → ys[k]? = some y → picks y r) ∧
      (x.bit1 5 = false → QuantileOf f md c.fzo ys p picks r))) ∧
    (ReadyMem s c x (formMrank x) [] [] (c.firstMembers x.p) → readable (formMrank x) → ends (.mrank x) false fun l r =>
      let grid := (c.src x .C false .int (first l)).toNat
      (x.ty.isFloat = false →
        let o := intTy x.ty (c.src x .B false .int (first l)).toNat
        let ys := (lane l).map fun t => intTy x.ty (c.src x .A false .int t).toNat
        r = (drawnRank (ys.filter fun y => decide (y < o)).length (ys.filter fun y => decide (y = o)).length grid, 0)) ∧
      (x.ty.isFloat = true →
        let o := flushIn c.fzi f (c.flt x .B x.ty (first l))
        let ys := (vals l).filter fun y => !y.isNan
        r.2 = (if (o :: vals l).any Ex.isSig then flagNV else 0) ∧ (o.isNan = true → r.1 = 0xFFFFFFFF) ∧
        (o.isNan = false → r.1 = drawnRank (ys.filter fun y => ltEx y o).length (ys.filter fun y => eqEx y o).length grid))) ∧
    (ReadyMem s c x formMhist [] [] (c.firstMembers x.p) →
      let nb := (c.plain x .C false .int 0).toNat
      let rank := fun (t : Nat) => (c.src x .B false .int t).toNat
      let addr := fun (t : Nat) => lo ((c.src x .A true .int t).toNat + ofsOf x + 4 * rank t) 64
      (∀ l : List Nat, (l.Pairwise fun a b => a < b) → (∀ t, t ∈ l ↔ t ∈ c.threads x.p ∧ t = first (t % 32) ∧ rank t < nb) →
        let got := s.tick.translate c (c.who true true) 4 (some (4, 7)) x.p (l.map fun t => { thread := t, va := addr t, member := t / 32 })
        (∀ t, got = .error t → Faults s (.mhist x) c t) ∧
        ∀ gs seen, got = .ok (gs, seen) →
          (nb = 0 ∨ 65536 < nb → Faults s (.mhist x) c { cause := 0x15, detail := 2, msk := c.threads x.p }) ∧
          (0 < nb → nb ≤ 65536 → gs = [] → Idles s (.mhist x) c x.words fun _ _ => True) ∧
          (0 < nb → nb ≤ 65536 → gs ≠ [] → ∃ t g o reqs, exec (.mhist x) s = .next t ∧ t.mem = s.mem ∧ t.ops.getLast? = some o ∧
            t.group? c.r.grp = some g ∧ g.sub? c.r.sub = some { c.u with phase := .engine o.id, issued := c.stamp + 1 } ∧ o.kind = .atom reqs ∧ o.counter = 4 ∧
            (∀ r ∈ reqs, r.width = 4 ∧ r.what = 0 ∧ r.opn = 0 ∧ r.b = 1 ∧ r.reg = none) ∧
            ∀ pa, (∃ r ∈ reqs, r.pa = pa) ↔ ∃ k ∈ gs, k.addrs.headD 0 = pa)))

/-- CCOLL, CCOLL_MATCHED, CCOLL_COMPLETE (R399 to R410 18_collective.md): an instance takes its operands and waits on the CP counter; matched instances
that do not agree fail, as do more than 256 contributions and a team whose chip cannot be reached; else the contributions in order give one result, by
the four modes, to every one of them, which its completion delivers; an instance of a launch that no longer runs is cancelled.
It rests on the model's readings: logs 45 and 46. -/
def Obligations.CollectivesAcrossGroups : Prop :=
  -- the four modes
  (∀ (w : CcollWork) (env : Rnd) (fzi fzo : Bool) (vals : List (List Nat)) (obs : List Nat), vals ≠ [] →
    let res := ccollResult w env fzi fzo vals obs
    let f := fmtOf w.td
    let raw := fun (e : Nat) => vals.map fun v => v.getD e 0
    let taken := fun (v : Nat) => let y := unpack (fmtOf w.ts) v; flushIn fzi (fmtOf w.ts) y
    let each := fun (P : Nat → Nat × Flags → Prop) => ∃ els : List (Nat × Flags), els.length = w.count ∧ res.1 = els.map (fun k => k.1) ∧
      (∀ k, res.2.getLsbD k = true ↔ ∃ r ∈ els, r.2.getLsbD k = true) ∧ ∀ e r, els[e]? = some r → P e r
    (w.mode = 0 → res.2 = 0 ∧ res.1.length = w.count ∧ ∀ e r, res.1[e]? = some r →
      let images := (raw e).map fun v => Accum.ofBytes (leBytes 288 v)
      r = leNat ((images.drop 1).foldl Accum.merge (images.headD Accum.clear)).image) ∧
    (w.mode = 1 → each fun e r =>
      let xs := (raw e).map (unpack (fmtOf w.ts))
      (xs.any Ex.isNan = true → r = (f.nan, if xs.any Ex.isSig then flagNV else 0)) ∧
      (xs.any Ex.isNan = false → .inf false ∈ xs → .inf true ∈ xs → r = (f.nan, flagNV)) ∧
      (∀ sg, xs.any Ex.isNan = false → .inf sg ∈ xs → .inf (!sg) ∉ xs → r = (f.inf sg, 0)) ∧
      (xs.all Ex.isZero = true → r = (f.signBit (xs.all Ex.neg), 0)) ∧
      ((∀ y ∈ xs, ∃ sg n d, y = .rat sg n d ∧ 0 < d) → xs.all Ex.isZero = false → ∃ (top : Int) (qs : List Int),
        (∃ sg n d, Ex.rat sg n d ∈ xs ∧ 0 < n ∧ Leads n d top) ∧ (∀ sg n d g, Ex.rat sg n d ∈ xs → 0 < n → Leads n d g → g ≤ top) ∧
        qs.length = xs.length ∧
        (∀ (i : Nat) (sg : Bool) (n d : Nat) (q : Int), xs[i]? = some (.rat sg n d) → qs[i]? = some q →
          ∃ k, RoundsTo .rne sg n d (top - 53) k ∧ q = signedNum sg k) ∧
        let u := pow2 (top - 53)
        let nx := ∃ (i : Nat) (sg : Bool) (n d : Nat) (q : Int), xs[i]? = some (.rat sg n d) ∧ qs[i]? = some q ∧ ¬IsExactly n d (top - 53) q.natAbs
        let sum := if qs.sum = 0 then (f.signBit (decide (env = .rdn)), 0) else round f env fzo (.rat (decide (qs.sum < 0)) (qs.sum.natAbs * u.1) u.2)
        r.1 = sum.1 ∧ (nx → r.2 = sum.2 ||| flagNX) ∧ (¬nx → r.2 = sum.2))) ∧
    (w.mode = 2 → each fun e r =>
      let xs := (raw e).map taken
      let p := unpack (fmtOf .f32) w.param
      let outside := p.isNan = true ∨ p.isInf = true ∨ ∃ sg a b, p = .rat sg a b ∧ (b < a ∨ sg = true ∧ a ≠ 0)
      (outside → r = (f.nan, flagNV)) ∧ (¬outside → xs.any Ex.isNan = true → r = nanres f xs false) ∧
      (¬outside → xs.any Ex.isNan = false → ∃ ys, Ascends xs ys ∧ QuantileOf f env fzo ys p (fun y r => r = round f env fzo y) r)) ∧
    (w.mode = 3 →
      let rank := fun (e : Nat) =>
        let o := taken (obs.getD e 0)
        let xs := (raw e).map taken
        if (o :: xs).any Ex.isNan then none
        else some (drawnRank (xs.filter fun y => ltEx y o).length (xs.filter fun y => eqEx y o).length ((w.param + e) % 2 ^ 32))
      res.2 = 0 ∧ res.1.length = vals.length + 2 ∧
        (∀ j, j ≤ vals.length → res.1[j]? = some ((List.range w.count).filter fun e => decide (rank e = some j)).length) ∧
        res.1[vals.length + 1]? = some ((List.range w.count).filter fun e => decide (rank e = none)).length)) ∧
  ∀ (s : State),
    -- issue
    (∀ (c : Cx) (x : Rec) (src dst : CcollEnd), ReadyRec s c x [] (ccollFails x c) (c.ccollMark x) 2 false (c.ccollUses x) →
      ccollSrc c x = some src → ccollDst c x = some dst → c.uniHeld (ccollPairs x) = false →
      c.accHeld ((match src with | .acc i => [i] | _ => []) ++ match dst with | .acc i => [i] | _ => []) = false →
      let w := c.recWord x
      let level := recField (w 0) 4 2
      let mode := w 0 % 4
      let count := w 1 % 2 ^ 20 + 1
      let ms := c.actingMembers x.p
      let bad := ccollBad x c src dst
      let base := (c.ownVal x.b true .int none 0).toNat
      let dest := (c.ownVal x.c true .int none 0).toNat
      let cannot := c.l.domain level = none ∨ (c.l.domain level = some 1 ∧ c.g.spawned = true) ∨
        ∃ d, c.l.domain level = some (d + 2) ∧ (c.g.spawned = true ∨ c.l.conc = false)
      let size := fun (t : DType) => if mode = 0 then 288 else t.width / 8
      -- the elements of a memory endpoint, translated for each contributing member
      let reach := fun (rd wr : Bool) (va n count : Nat) => s.tick.translate c (c.who rd wr) n none x.p (ms.flatMap fun m =>
        (List.range count).map fun e => { thread := c.first x.p m, va := lo (va + e * n : Nat) 64, member := m })
      let reads := if src = .mem then reach true false base (size (tsOf x)) count else .ok ([], [])
      let writes := if dst = .mem then reach false true dest (size (tdOf x)) (if mode = 3 then ms.length + 2 else count) else .ok ([], [])
      let places := fun (gs : List Got) => ms.map fun m => (gs.filter fun g => g.thread / 32 == m).flatMap fun g => g.addrs
      (cannot → Faults s (.ccoll x) c { cause := 0x0C, msk := c.threads x.p }) ∧
      (¬cannot → ((∃ f, reads = .error f) ∨ ∃ f, writes = .error f) → ∃ f, (reads = .error f ∨ writes = .error f) ∧ Faults s (.ccoll x) c f) ∧
      ∀ gs seen gs' seen', ¬cannot → reads = .ok (gs, seen) → writes = .ok (gs', seen') →
        (bad ≠ [] → ∃ d ∈ bad, Faults s (.ccoll x) c { cause := 0x15, detail := d, msk := c.threads x.p }) ∧
        (bad = [] → c.stageFull s.tick (if dst = .mem then ms.length * size (tdOf x) * (if mode = 3 then 258 else count) else 0) = false →
          ∃ t g u o k, exec (.ccoll x) s = .next t ∧ t.mem = s.mem ∧ t.ops.length = s.ops.length + 1 ∧
          t.ops.getLast? = some o ∧ o.grp = c.g.id ∧ o.counter = 2 ∧ o.kind = .ccoll k ∧ t.group? c.r.grp = some g ∧ g.sub? c.r.sub = some u ∧
          u.pc = c.u.pc + 28 ∧ u.ndone = c.u.ndone + 1 ∧ u.uregs = c.u.uregs ∧ g.vregs = c.g.vregs ∧ g.accs = c.g.accs ∧ g.cp = c.g.cp + 1 ∧
          k.key = ((level * 2 + if (w 0).testBit 5 then 1 else 0) * 256 + recField (w 0) 15 8) * 4096 + recField (w 0) 27 16 ∧
          k.kth = c.g.ccolls.get 0 k.key + 1 ∧ g.ccolls.get 0 k.key = k.kth ∧ k.mode = mode ∧ k.count = count ∧ k.ts = tsOf x ∧
          k.td = tdOf x ∧ k.param = w 2 ∧ k.src = src ∧ k.dst = dst ∧ k.members = ms ∧ k.active = c.threads x.p ∧ k.result = none ∧
          c.l.domain level = some k.dom ∧ k.team = (if (w 0).testBit 5 then some (recField (w 0) 15 8) else none) ∧
          k.env = c.mode x.rnd ∧ k.fzi = c.fzi ∧ k.fzo = c.fzo ∧ k.oofs = intOf true 32 (w 3) ∧
          (src = .mem → k.base = base ∧ k.srcs = places gs) ∧ (src ≠ .mem → k.srcs.flatten = []) ∧
          (dst = .mem → k.dest = dest ∧ k.dsts = places gs') ∧
          (∀ n, src = .reg n → k.vals = ms.map fun m => c.regValues n (tsOf x) k.count m) ∧
          (∀ i, src = .acc i → k.vals = ms.map fun m => [leNat (c.g.acc m i).image]) ∧
          ∀ i, dst = .acc i → ∀ m ∈ ms, g.accPending.get 0 (4 * m + i) = o.id)) ∧
    ∀ (id : Nat) (o : Op) (w : CcollWork) (g : Group) (l : Launch), s.op? id = some o → o.kind = .ccoll w → s.group? o.grp = some g →
      s.launch? g.launch = some l →
      let poor := fun (pa : Nat) => (s.markOf (s.fwd (pa / 64))).failing || decide ((s.markOf (s.fwd (pa / 64))).poison ≠ 0)
      let reports := fun (t : State) (grp op cause detail : Nat) => ∃ g', t.group? grp = some g' ∧
        ∃ d ∈ g'.deferred, d.op = op ∧ d.counter = 2 ∧ d.cause = cause ∧ (cause = 0x15 → d.detail = detail ∧ d.ready = true)
      -- the matching: the instances in group order, all counted alike
      (∀ set, s.ccollSet l g w = some set →
        (set.Pairwise fun a b => a.g.block < b.g.block ∨ a.g.block = b.g.block ∧ a.g.index ≤ b.g.index) ∧
        (∀ k ∈ set, k.o ∈ s.ops ∧ k.o.grp = k.g.id ∧ k.o.kind = .ccoll k.w ∧ k.w.key = w.key ∧ k.w.kth = w.kth ∧
          (w.dom = 0 → k.g = g) ∧ (w.dom ≠ 0 → k.g ∈ s.groups ∧ l.sameUnit w.dom g k.g = true)) ∧
        (w.dom ≠ 0 → ∀ p ∈ s.groups, l.sameUnit w.dom g p = true → (∃ u ∈ p.subs, p.subLive u = true) → ∃ k ∈ set, k.g = p)) ∧
      (∀ set, s.ccollSet l g w = some set → (set.map fun k => k.o.id).Nodup →
        (∀ k ∈ set, s.edgeClear k.o.edge = true ∧ s.op? k.o.id = some k.o ∧ s.group? k.o.grp = some k.g ∧ k.o.counter = 2 ∧
          ∀ pa ∈ k.w.srcs.flatten, s.pathTo (pa / 64) = true) →
        let failsAll := fun (detail : Nat) => ∃ t, exec .ccollMatched s = .next t ∧ t.mem = s.mem ∧ ∀ k ∈ set, t.op? k.o.id = none ∧
          reports t k.o.grp k.o.id 0x15 detail
        (s.arg = .pair id 0 → (∃ p ∈ l.teamChips w, s.reachable p.2 = false) → failsAll 5) ∧
        ∀ parts : List TeamPart, (s.arg = .num id ∧ parts = [] ∨ s.arg = .team id parts ∧ parts.Pairwise fun a b => a.pos < b.pos) →
          (parts.map fun p => p.pos) = (l.teamChips w).map (fun k => k.1) → (∀ k ∈ l.teamChips w, s.carries k.2 = true) →
          let pos := (l.team w).2
          let n := (set.map fun k => k.w.members.length).sum + (parts.flatMap fun p => p.vals).length
          ∀ first, set.head? = some first →
            ((∃ k ∈ set, first.w.agrees k.w = false) ∨ (∃ p ∈ parts, p.agree = false) → failsAll 3) ∧
            ((∀ k ∈ set, first.w.agrees k.w = true) → (∀ p ∈ parts, p.agree = true) →
              (256 < n → failsAll 4) ∧
              (n = 0 → ∃ t, exec .ccollMatched s = .next t ∧ t.mem = s.mem ∧ ∀ k ∈ set, ∃ p, t.op? k.o.id = some p ∧
                p.kind = .ccoll { k.w with result := some [] }) ∧
              (0 < n → n ≤ 256 →
                (∀ k ∈ set, k.w.src = .mem → s.writes = [] ∧ s.staged = [] ∧ s.guests = [] ∧ k.o.taken = []) →
                let size := if first.w.mode = 0 then 288 else first.w.ts.width / 8
                let element := fun (addrs : List Nat) (e : Nat) =>
                  let own := (addrs.drop (e * size)).take size
                  if own.any poor then (if first.w.mode = 0 then leNat Accum.failed.image else (fmtOf first.w.ts).nan) else leNat (own.map s.byteAt)
                let own := set.flatMap fun k => if k.w.src = .mem then k.w.srcs.map fun addrs => (List.range k.w.count).map (element addrs)
                  else k.w.vals
                let before := parts.filter fun p => decide (p.pos < pos)
                let after := parts.filter fun p => decide (pos < p.pos)
                let vals := (before.flatMap fun p => p.vals) ++ own ++ after.flatMap fun p => p.vals
                let ends := fun (obs : List Nat) => ∃ t, ∃ e ∈ set,
                  let res := ccollResult first.w e.w.env e.w.fzi e.w.fzo vals obs
                  exec .ccollMatched s = .next t ∧ t.mem = s.mem ∧ ∀ k ∈ set,
                    (k.w.src = .mem → k.w.srcs.flatten.any poor = true → reports t k.o.grp k.o.id 6 0 ∨ reports t k.o.grp k.o.id 7 0) ∧
                    let given := fun (dsts : List (List Nat)) => ∃ p, t.op? k.o.id = some p ∧
                      p.kind = .ccoll { k.w with result := some res.1, dsts := dsts } ∧
                      p.raises = (if res.2 = 0 then [] else k.w.active.map fun t => (t, res.2))
                    (first.w.mode ≠ 3 → given k.w.dsts) ∧
                    -- a rank histogram has more words than the members of one instance can tell at its issue
                    (first.w.mode = 3 → k.w.dsts.length = k.w.members.length → (∀ addrs ∈ k.w.dsts, 4 ∣ addrs.length) →
                      let short := ∃ addrs ∈ k.w.dsts, addrs.length < 4 * (vals.length + 2)
                      (¬short → given k.w.dsts) ∧
                      (short → (∃ dsts, given dsts ∧ dsts.length = k.w.dsts.length ∧ ∀ (i : Nat) (d addrs : List Nat), dsts[i]? = some d →
                          k.w.dsts[i]? = some addrs → d.take addrs.length = addrs ∧ 4 * (vals.length + 2) ≤ d.length) ∨
                        t.op? k.o.id = none ∧ ∃ g', t.group? k.o.grp = some g' ∧ ∃ d ∈ g'.deferred, d.op = k.o.id ∧ d.ready = true))
                (first.w.mode ≠ 3 → ends []) ∧
                (∀ p, first.w.mode = 3 → before.find? (fun p => !p.vals.isEmpty) = some p → ends p.obs) ∧
                ∀ k, first.w.mode = 3 → before.find? (fun p => !p.vals.isEmpty) = none → set.find? (fun k => !k.w.members.isEmpty) = some k →
                  let who : Who := { core := some k.o.core, asid := k.o.asid, priv := l.priv, rd := true, wr := false }
                  let seen := fun (e : Nat) => (s.tick.reachAll who (lo (k.w.base + k.w.oofs + (e * (k.w.ts.width / 8) : Nat)) 64)
                    (k.w.ts.width / 8) (k.w.members.headD 0)).1
                  ((∃ e f, e < k.w.count ∧ seen e = .error f) → ∃ t e va cause d, exec .ccollMatched s = .next t ∧ t.mem = s.mem ∧ e < k.w.count ∧
                    seen e = .error (va, cause, d) ∧ ∀ k ∈ set, t.op? k.o.id = none ∧ reports t k.o.grp k.o.id cause d) ∧
                  ∀ at' : Nat → List Nat, (∀ e, e < k.w.count → ∃ msa, seen e = .ok (at' e, msa)) →
                    (∀ e, e < k.w.count → (at' e).length = k.w.ts.width / 8) → s.writes = [] → s.staged = [] → s.guests = [] →
                    ends ((List.range k.w.count).map fun e => element (at' e) 0)))) ∧
      -- completion
      (∀ r, s.arg = .part id none → w.result = some r → o.left = 0 →
        let ends := fun (P : Group → Prop) => ∃ t g', exec .ccollComplete s = .next t ∧ t.mem = s.mem ∧ t.op? id = none ∧
          t.group? o.grp = some g' ∧ g'.counter o.counter = g.counter o.counter - 1 ∧
          (∀ th k, (g'.fpsr.get 0 th).getLsbD k = true ↔ (g.fpsr.get 0 th).getLsbD k = true ∨ ∃ fl, (th, fl) ∈ o.raises ∧ fl.getLsbD k = true) ∧ P g'
        (∀ n, w.dst = .reg n → o.given = [] → ends fun g' => ∀ (e : Nat) (v th : Nat), r[e]? = some v → th ∈ w.active → th % 32 = e % 32 →
          if w.td.wide then g'.vcur (n + 2 * (e / 32)) th = BitVec.ofNat 32 v ∧ g'.vcur (n + 2 * (e / 32) + 1) th = BitVec.ofNat 32 (v / 2 ^ 32)
          else g'.vcur (n + e / 32) th = BitVec.ofNat 32 (widen w.td v)) ∧
        (∀ i, w.dst = .acc i → i < 4 → ends fun g' => g'.vregs = g.vregs ∧ (∀ m ∈ w.members, g'.accPending.has (4 * m + i) = false ∧
          ∀ v, r.head? = some v → g'.acc m i = Accum.ofBytes (leBytes 288 v)) ∧
          ∀ m j, j < 4 → j ≠ i ∨ m ∉ w.members ∨ r = [] → g'.acc m j = g.acc m j) ∧
        (w.dst = .mem → w.dsts.flatten = [] ∨ r = [] → ends fun g' => g'.vregs = g.vregs) ∧
        (w.dst = .mem → w.dsts.flatten ≠ [] → r ≠ [] →
          let size := if w.mode = 0 then 288 else w.td.width / 8
          let byte := fun (j : Nat) => r.getD (j / size) 0 / 2 ^ (8 * (j % size)) % 2 ^ 8
          0 < size → (∀ addrs ∈ w.dsts, addrs.length = size * r.length) →
          -- where destinations coincide, they take the same byte
          (∀ a ∈ w.dsts, ∀ b ∈ w.dsts, ∀ (i j pa : Nat), a[i]? = some pa → b[j]? = some pa → byte i = byte j) →
          ∃ t p, exec .ccollComplete s = .next t ∧ t.mem = s.mem ∧ t.op? id = some p ∧ 0 < p.left ∧
            ∀ addrs ∈ w.dsts, ∀ (j pa : Nat), addrs[j]? = some pa → ∃ q ∈ t.writes, q.line = s.fwd (pa / 64) ∧ id ∈ q.waiters ∧
              (q.bytes.get 0 (pa % 64)).toNat = byte j)) ∧
      (s.arg = .part id none → w.result = none → l.phase ≠ .active → s.ccollSet l g w = none ∨ l.teamChips w ≠ [] →
        ∃ t, exec .ccollComplete s = .next t ∧ t.mem = s.mem ∧ t.op? id = none ∧ (o.counter = 2 → reports t o.grp id 0x15 7))

/-! ### Links to other chips -/

/-- RCOPY, RSIGNAL, RATOM and LNKQ (R441 to R444, R448 20_links.md): a remote operation translates every unit at issue and counts on the CP
counter; RCOPY moves unit by unit in the order of R442, RSIGNAL and RATOM send one message for each active thread; LNKQ reads links and errors.
It rests on the model's readings: log 46. -/
def Obligations.RemoteOperationsIssue : Prop :=
  ∀ (s : State) (c : Cx),
    (∀ x : Rec, ReadyRec s c x [] (rcopyFails x c)
        (c.markFault [{ code := x.b, mod := 0, regs := 2 }, { code := x.c, mod := 0, regs := 2 }] (c.threads x.p) true) 2 →
      c.uniHeld [{ code := x.b, mod := 0, regs := 2 }, { code := x.c, mod := 0, regs := 2 }] = false →
      let w := fun k => c.recWord x k
      let n := w 0 % 2 ^ 24 + 1
      let rows := w 1 % 2 ^ 16 + 1
      let dst := (c.ownVal x.b true .int none 0).toNat
      let src := (c.ownVal x.c true .int none 0).toNat
      let row := fun (base stride r : Nat) => ((base : Int) + if rows = 1 then 0 else (r : Int) * (BitVec.ofNat 32 stride).toInt) % 2 ^ 64
      let ms := c.transfers x.p (recPm x)
      let from' := fun (r i m : Nat) => (s.tick.reach { c.who true false with peer := 2 } ((row src (w 2) r + 4 * i) % 2 ^ 64).toNat m).1
      let to' := fun (r i m : Nat) => (s.tick.reach { c.who false true with peer := 1 } ((row dst (w 3) r + 4 * i) % 2 ^ 64).toNat m).1
      let skewed := n % 4 ≠ 0 ∨ ∃ r, r < rows ∧ (row src (w 2) r % 4 ≠ 0 ∨ row dst (w 3) r % 4 ≠ 0)
      (ms ≠ [] → skewed → ∃ va, Faults s (.rcopy x) c { cause := 5, detail := 7, addr := va, msk := c.threads x.p }) ∧
      let fails := fun (f : Nat × Nat × Nat) => ∃ m ∈ ms, ∃ r i, r < rows ∧ i < n / 4 ∧ (from' r i m = .error f ∨ to' r i m = .error f)
      (¬skewed → (∃ f, fails f) → ∃ va f d, fails (va, f, d) ∧
        Faults s (.rcopy x) c { cause := f, detail := d, addr := va, msk := c.threads x.p }) ∧
      ((ms = [] ∨ ¬skewed) →
        (∀ m ∈ ms, ∀ r, r < rows → ∀ i, i < n / 4 → (∃ a, from' r i m = .ok a) ∧ ∃ b, to' r i m = .ok b) →
        (w 0 / 2 ^ 24 % 2 ^ 8 ≠ 0 ∨ w 1 / 2 ^ 16 % 2 ^ 16 ≠ 0 → n * rows ≤ 2 ^ 32 →
          Faults s (.rcopy x) c { cause := 0x16, detail := 1, msk := c.threads x.p }) ∧
        (w 0 / 2 ^ 24 % 2 ^ 8 = 0 → w 1 / 2 ^ 16 % 2 ^ 16 = 0 → 2 ^ 32 < n * rows →
          Faults s (.rcopy x) c { cause := 0x16, detail := 2, msk := c.threads x.p }) ∧
        (w 0 / 2 ^ 24 % 2 ^ 8 = 0 → w 1 / 2 ^ 16 % 2 ^ 16 = 0 → n * rows ≤ 2 ^ 32 →
          Starts s (.rcopy x) c 7 2 fun t _ o => ∃ k, o.kind = .remote k ∧ k.reg = none ∧ k.width = 0 ∧ k.issued = s.time ∧ k.parts = [] ∧
            k.error = 0 ∧ (∃ e ∈ t.edges, e.id = o.edge ∧ e.grp = c.g.id ∧ e.v = c.g.horizon) ∧
            k.moves.length = ms.length * rows * (n / 4) * 4 ∧
            ∀ j m r i b p q, ms[j]? = some m → r < rows → i < n / 4 → b < 4 → from' r i m = .ok p → to' r i m = .ok q →
              k.moves[((j * rows + r) * (n / 4) + i) * 4 + b]? = some (p.pa + b, q.chip, q.pa + b)))) ∧
    (∀ (x : Ext) (atom : Bool), ReadyM s c x (if atom then formRatom x else formRsignal x) [] 2 →
      let i := if atom then Instr.ratom x else .rsignal x
      let size := if (if atom then atomWide x else x.ty.wide) then 8 else 4
      let ea := fun (t : Nat) => c.atomEa x t
      let to' := fun (t : Nat) => (s.tick.reach { c.who atom true with peer := 1 } (ea t) (t / 32)).1
      let b := fun (t : Nat) => (c.src x .B (size == 8) (if x.ty.isFloat && x.subBits 8 5 != 13 then .flt x.ty else .int) t).toNat
      (∀ t, ea t < 2 ^ 64 ∧ ((ea t : Int) - ((c.src x .A true .int t).toNat + (BitVec.ofNat 10 (bits x.w2 11 2)).toInt)) % 2 ^ 64 = 0) ∧
      (∀ (k t : Nat), (c.threads x.p)[k]? = some t →
        (∀ j v, j < k → (c.threads x.p)[j]? = some v → ea v % size = 0 ∧ ∃ r, to' v = .ok r) →
        (∀ r, ea t % size ≠ 0 → to' t = .ok r → Faults s i c { cause := 5, detail := 7, addr := ea t, msk := c.threads x.p, thread := t }) ∧
        (∀ va f d, ea t % size ≠ 0 → to' t = .error (va, f, d) → ∃ e, (e = 7 ∨ f = 5 ∧ e = d) ∧
          Faults s i c { cause := 5, detail := e, addr := ea t, msk := c.threads x.p, thread := t }) ∧
        ∀ va f d, ea t % size = 0 → to' t = .error (va, f, d) →
          Faults s i c { cause := f, detail := d, addr := va, msk := c.threads x.p, thread := t }) ∧
      ((∀ t ∈ c.threads x.p, ea t % size = 0 ∧ ∃ r, to' t = .ok r) →
        (c.threads x.p = [] → Idles s i c x.words fun _ _ => True) ∧
        (c.threads x.p ≠ [] → Starts s i c x.words 2 fun _ _ o => ∃ k, o.kind = .remote k ∧ k.width = size ∧ k.moves = [] ∧ k.error = 0 ∧
          k.issued = s.time ∧ k.reg = (if atom then destReg x.d else none) ∧ k.parts.map (fun p => p.thread) = c.threads x.p ∧
          ∀ p ∈ k.parts, ∃ r, to' p.thread = .ok r ∧ p.chip = r.chip ∧ p.answer = none ∧
            p.ask = some (if atom then .atom r.pa size (x.subBits 8 5) x.tcode
                (match c.mode x.rnd with | .rne => 0 | .rtz => 1 | .rup => 2 | .rdn => 3 | .rna => 4) c.fzi c.fzo (b p.thread)
              else .signal r.pa size (x.subBits 8 5 == 1) (b p.thread))))) ∧
    ∀ x : Ext, ReadyMem s c x (formLnkq x) [] [] → ∃ f : Nat → Nat, Computes s (.lnkq x) c x x.words true (fun t => (BitVec.ofNat 64 (f t), 0)) ∧
      ∀ t, let a := (c.plain x .A false .int t).toNat
        let up := s.ports.filter fun p => decide (p.width ≠ 0)
        (x.subBits 2 0 = 0 → f t = s.chip + up.length * 2 ^ 16 + (s.hosts.filter fun p => decide (p.width ≠ 0)).length * 2 ^ 24) ∧
        (∀ p, x.subBits 2 0 = 1 → s.ports[a % 16]? = some p →
          f t = p.width + (if p.next = none then 0 else 8) + (if p.width = 0 then 0xFFF else p.chip) * 2 ^ 4 + p.replays * 2 ^ 32 +
            p.reductions * 2 ^ 48) ∧
        (x.subBits 2 0 = 2 → let to' := up.filter fun p => decide (p.chip = a % 2 ^ 12)
          f t = (if to' = [] then 0 else 1) + to'.length * 2 + (to'.map fun p => if p.width = 1 then 56 else if p.width = 2 then 112
            else if p.width = 3 then 224 else 0).sum * 2 ^ 32) ∧
        (x.subBits 2 0 = 3 → f t = c.l.remoteErrors % 2 ^ 32 + c.l.remoteCode * 2 ^ 32)

/-- REMOTE_ACKNOWLEDGEMENT, REMOTE_TIMEOUT, PEER_INBOUND_OPERATION, LINK_FLIT_REPLAY, LINK_LANE_LOSS, LINK_RETRAIN_COMPLETE and
HOST_CXL_MEM_ACCESS (R435, R437, R438, R446, R449 20_links.md): the last answer completes an operation; a chip out of reach for 10 ms ends it with error
1 and zeros; a peer writes only inside a window that admits it; a link changes alone.
It rests on the model's readings: logs 46, 47 and 56. -/
def Obligations.LinksCarryOperations : Prop :=
  ∀ (s : State),
    (∀ (id : Nat) (o : Op) (w : RemoteWork) (g : Group) (l : Launch), s.op? id = some o → o.kind = .remote w → s.group? o.grp = some g →
      s.launch? g.launch = some l →
      let waits := fun (chip : Nat) => (∃ p ∈ w.parts, p.answer = none ∧ p.chip = chip) ∨ ∃ k ∈ w.moves, k.2.1 = chip
      -- out of reach for 10 ms from the issue on
      let gone := fun (chip : Nat) => s.reachable chip = false ∧ w.issued + 17500000 ≤ s.time ∧
        ∀ p ∈ s.ports, p.chip = chip → p.since + 17500000 ≤ s.time
      -- the operation is over: it counts no more, and its launch counts an error
      let closed := fun (t : State) (g' : Group) (err : Nat) => t.mem = s.mem ∧ t.op? id = none ∧ t.group? o.grp = some g' ∧
        g'.counter o.counter = g.counter o.counter - 1 ∧ ∃ l', t.launch? g.launch = some l' ∧
          l'.remoteErrors = l.remoteErrors + (if err = 0 then 0 else 1) ∧
          l'.remoteCode = if err ≠ 0 ∧ l.remoteErrors = 0 then err else l.remoteCode
      -- a copy of the group issued before it goes to one of its units and has not left
      (s.remoteLater o w = true ↔ ∃ p ∈ s.ops, p.grp = o.grp ∧ p.id < o.id ∧ ∃ v, p.kind = .remote v ∧ ∃ k ∈ v.moves, (k.2.1, k.2.2 / 4) ∈ w.units) ∧
      -- a copy is read and leaves: one message for each chip, without the bytes of failing lines
      (s.arg = .part id none → w.width = 0 → w.parts = [] → w.reg = none → o.taken = [] → s.edgeClear o.edge = true → s.remoteLater o w = false →
        (∀ k ∈ w.moves, s.pathTo (k.1 / 64) = true) → s.writes = [] → s.staged = [] → s.guests = [] →
        let poison := fun (pa : Nat) => (s.markOf (s.fwd (pa / 64))).poison ≠ 0
        let withheld := fun (pa : Nat) => (s.markOf (s.fwd (pa / 64))).poison = 0 ∧ (s.markOf (s.fwd (pa / 64))).failing = true
        let sent := fun (k : Nat × Nat × Nat) => k ∈ w.moves ∧ ¬withheld k.1
        let err := fun (e : Nat) => ((∃ k ∈ w.moves, withheld k.1) → e = 3) ∧ ((∀ k ∈ w.moves, ¬withheld k.1) → e = w.error)
        let reports := fun (g' : Group) => (∃ k ∈ w.moves, poison k.1) → ∃ d ∈ g'.deferred, d.op = id ∧ d.counter = o.counter ∧ d.cause = 6
        ((∀ k, ¬sent k) → ∃ t g' e, exec .remoteAcknowledgement s = .next t ∧ closed t g' e ∧ err e ∧ reports g') ∧
        ((∃ k, sent k) → ∃ t g' p e ps, exec .remoteAcknowledgement s = .next t ∧ t.mem = s.mem ∧ t.op? id = some p ∧ t.group? o.grp = some g' ∧
          reports g' ∧ err e ∧ p.kind = .remote { w with moves := [], parts := ps, error := e } ∧ (ps.Pairwise fun a b => a.chip ≠ b.chip) ∧
          (∀ k, sent k → ∃ q ∈ ps, q.chip = k.2.1) ∧
          ∀ q ∈ ps, q.answer = none ∧ ∃ bytes bad, q.ask = some (.write bytes bad) ∧
            (∀ d, (∃ b ∈ bytes, b.1 = d) ↔ ∃ k, sent k ∧ k.2.1 = q.chip ∧ k.2.2 = d) ∧
            (∀ (i : Nat) (k : Nat × Nat × Nat), w.moves[i]? = some k → sent k → k.2.1 = q.chip →
              (∀ j k', i < j → w.moves[j]? = some k' → k'.2 = k.2 → ¬sent k') → (k.2.2, s.byteAt k.1) ∈ bytes) ∧
            ∀ line, line ∈ bad ↔ ∃ k, sent k ∧ k.2.1 = q.chip ∧ poison k.1 ∧ k.2.2 / 64 = line)) ∧
      (∀ (i : Nat) (p : RemotePart) (a : PeerAnswer), s.arg = .answer id i a → w.parts[i]? = some p → p.answer = none → s.carries p.chip = true →
        s.remoteLater o w = false → a.error = 0 ∨ a.error = 2 →
        let err := if w.error = 0 then a.error else w.error
        let ps := w.parts.zipIdx.map fun k => if k.2 = i then { k.1 with answer := some a } else k.1
        ((∃ q ∈ ps, q.answer = none) → ∃ t, exec .remoteAcknowledgement s = .next t ∧ t = { s with ops := t.ops, stamp := s.stamp + 1 } ∧
          t.op? id = some { o with kind := .remote { w with parts := ps, error := err } }) ∧
        ((∀ q ∈ ps, q.answer ≠ none) → ∃ t g', exec .remoteAcknowledgement s = .next t ∧ closed t g' err ∧
          ∀ n, w.reg = some n → o.given = [] → (w.parts.Pairwise fun a b => a.thread ≠ b.thread) →
            ∀ q ∈ ps, ∀ v, q.answer = some v → ∀ j, j < w.width / 4 →
              g'.vcur (n + j) q.thread = BitVec.ofNat 32 ((if err = 0 then v.value else 0) / 2 ^ (32 * j)))) ∧
      (s.arg = .num id → (∃ chip, waits chip ∧ gone chip) →
        let err := if w.error = 0 then 1 else w.error
        ((∃ chip, waits chip ∧ ¬gone chip) → ∃ t ps moves, exec .remoteTimeout s = .next t ∧ t = { s with ops := t.ops, stamp := s.stamp + 1 } ∧
          (∃ p, t.op? id = some p ∧ p.kind = .remote { w with error := err, parts := ps, moves := moves }) ∧
          (moves.Sublist w.moves ∧ ∀ k ∈ w.moves, k ∈ moves ↔ ¬gone k.2.1) ∧
          ps.map (fun p => (p.chip, p.thread, p.ask)) = w.parts.map (fun p => (p.chip, p.thread, p.ask)) ∧
          ∀ (p q : RemotePart) (j : Nat), w.parts[j]? = some p → ps[j]? = some q →
            (p.answer ≠ none ∨ ¬gone p.chip → q = p) ∧ (p.answer = none → gone p.chip → q.answer ≠ none)) ∧
        ((∀ chip, waits chip → gone chip) → ∃ t g', exec .remoteTimeout s = .next t ∧ closed t g' err ∧
          ∀ n, w.reg = some n → ∀ p ∈ w.parts, ∀ j, j < w.width / 4 → g'.vcur (n + j) p.thread = 0))) ∧
    (∀ q : PeerRequest, s.arg = .peer q → s.carries q.chip = true →
      let touched := match q.ask with
        | .write bytes _ => bytes.map fun b => (b.1, 1)
        | .signal addr width _ _ => [(addr, width)]
        | .atom addr width _ _ _ _ _ _ => [(addr, width)]
      let isAtom := match q.ask with | .atom _ _ _ _ _ _ _ _ => true | _ => false
      let admitted := ∃ k ∈ s.windows, k.chip = q.chip ∧ (if isAtom then k.t else k.w) = true ∧
        ∀ b ∈ touched, k.base ≤ b.1 ∧ b.1 + b.2 ≤ k.base + k.len
      (¬admitted → ∃ t k, exec .peerInboundOperation s = .next t ∧ t.mem = s.mem ∧ t.inbound.getLast? = some k ∧ k.chip = q.chip ∧ k.tag = q.tag ∧
        k.answer.error = 2 ∧ k.left = 0) ∧
      (admitted → (∀ b ∈ touched, (s.home b.1).isSome = true ∧ (s.home (b.1 + b.2 - 1)).isSome = true) →
        (∀ bytes bad, q.ask = .write bytes bad → (bytes.Pairwise fun a b => s.place a.1 ≠ s.place b.1) →
          ∃ t, exec .peerInboundOperation s = .next t ∧ t.forward = s.forward ∧ (∀ b ∈ bytes, SMap.get 0 t.mem (s.place b.1) = b.2) ∧
            (∀ b ∈ bytes, b.1 / 64 ∈ bad → (t.markOf (s.fwd (b.1 / 64))).poison ≠ 0) ∧
            (∀ a, (∀ b ∈ bytes, s.place b.1 ≠ a) → SMap.get 0 t.mem a = SMap.get 0 s.mem a) ∧
            ∃ k ∈ t.inbound, k.chip = q.chip ∧ k.tag = q.tag ∧ k.answer.error = 0) ∧
        ∀ addr width, touched = [(addr, width)] → (∀ bytes bad, q.ask ≠ .write bytes bad) → width = 4 ∨ width = 8 → addr % width = 0 →
          (s.markOf (s.fwd (addr / 64))).poison = 0 → (s.markOf (s.fwd (addr / 64))).failing = false →
          let was := leNat ((List.range width).map fun j => s.byteAt (addr + j))
          ∃ t, exec .peerInboundOperation s = .next t ∧ t.forward = s.forward ∧
            (∀ a, ¬(s.place addr ≤ a ∧ a < s.place addr + width) → SMap.get 0 t.mem a = SMap.get 0 s.mem a) ∧
            ∃ k ∈ t.inbound, k.chip = q.chip ∧ k.tag = q.tag ∧ k.answer.error = 0 ∧ (isAtom = true → k.answer.value = was) ∧
              ∀ a sum v, q.ask = .signal a width sum v → ∀ b, b < width →
                (SMap.get 0 t.mem (s.place addr + b)).toNat = ((if sum then was + v else v) : Nat) / 2 ^ (8 * b) % 2 ^ 8)) ∧
    (∀ k : Nat, let p := s.link k
      -- one link changes, and no other
      let one := fun (i : Instr) (P : State → Port → Prop) => ∃ t, exec i s = .next t ∧ t.mem = s.mem ∧ t.groups = s.groups ∧ t.ops = s.ops ∧
        (∀ j, j ≠ k → t.link j = s.link j) ∧ P t (t.link k)
      let settles := fun (i : Instr) (width : Nat) => one i fun t p' =>
        p' = { p with width := width, next := none, since := s.time, reductions := if width < p.width then min (p.reductions + 1) 65535 else p.reductions } ∧
        (width = p.width → t.mailbox = s.mailbox) ∧
        (width ≠ p.width → (s.mailbox.head + 1) % 128 ≠ s.mailbox.tail → t.mailbox.head = (s.mailbox.head + 1) % 128 ∧
          ∃ e, t.mailbox.ring.find? (fun r => r.1 == s.mailbox.head) = some (s.mailbox.head, e) ∧ e.type = 6 ∧ e.addr = k ∧
            e.die = if 8 ≤ k ∧ k < 16 then 5 else 4)
      (s.arg = .num k → p.width ≠ 0 → one .linkFlitReplay fun _ p' => p' = { p with replays := min (p.replays + 1) 65535 }) ∧
      (∀ lanes, s.arg = .pair k lanes → p.width ≠ 0 →
        (lanes < 4 → settles .linkLaneLoss 0) ∧
        ∀ width, (width = 1 ∧ 4 ≤ lanes ∧ lanes < 8 ∨ width = 2 ∧ 8 ≤ lanes ∧ lanes < 16 ∨ width = 3 ∧ 16 ≤ lanes) → width ≤ p.next.getD p.width →
          one .linkLaneLoss fun t p' => t.mailbox = s.mailbox ∧
            p' = { p with next := some width, since := if p.next.isSome then p.since else s.time }) ∧
      ∀ width, s.arg = .num k → p.next = some width → settles .linkRetrainComplete width) ∧
    ∀ q, s.arg = .host q → q.line / 2 ^ 38 < 7 → (∃ p ∈ s.hosts, p.width ≠ 0 ∧ p.next = none) → (s.home (64 * q.line)).isSome = true →
      (q.write = none → ∃ t, exec .hostCxlMemAccess s = .next t ∧ t.mem = s.mem ∧ t.hostData = some ((List.range 64).map fun i => s.byteAt (64 * q.line + i),
        decide ((s.markOf (s.fwd q.line)).poison ≠ 0) || (s.markOf (s.fwd q.line)).failing)) ∧
      ∀ bytes, q.write = some bytes → (q.ordered = true → s.clear s.hostHorizon = true) → (∀ b ∈ bytes, b.1 < 64) → (bytes.Pairwise fun a b => a.1 ≠ b.1) →
        ∃ t, exec .hostCxlMemAccess s = .next t ∧ t.forward = s.forward ∧ (∀ b ∈ bytes, SMap.get 0 t.mem (64 * s.fwd q.line + b.1) = b.2) ∧
          ∀ a, (∀ b ∈ bytes, 64 * s.fwd q.line + b.1 ≠ a) → SMap.get 0 t.mem a = SMap.get 0 s.mem a

/-! ### Launches, queues and the host -/

/-- QGO, QCTL_PREEMPT, QCTL_WITHDRAW, QCTL_RESUME, QCTL_END, ASTBASE_WRITE, HWBASE_WRITE, HWLEN_WRITE and REGISTER_WRITE (R413, R416, R427
19_dispatch.md, R439, R440 20_links.md, R457 21_management.md): with both host links down none reaches the adapter; before bring-up is complete a write changes
nothing; QGO enqueues the queue block's record and answers in QSTAT; the others change the field they name. That a pre-empted or trapped launch with
unplaced blocks goes on contending, and that a launch with spawned work is taken whole, is the model's reading of R417 and R336 (log 48); what makes a
record unfit for a resumption, and how the refusal is reported, is the model's (logs 27 and 49).
It rests on the model's readings: logs 27, 48, 49 and 51. -/
def Obligations.HostWritesRegisters : Prop :=
  ∀ (s : State),
    let reached := (∃ p ∈ s.hosts, p.width ≠ 0 ∧ p.next = none) ∨ s.up = false
    (∀ q : Nat, s.arg = .num q → q < 64 →
      (¬reached → exec .qgo s = .refused (.notEnabled "QGO") ∧ exec .qctlPreempt s = .refused (.notEnabled "QCTL_PREEMPT") ∧
        exec .qctlWithdraw s = .refused (.notEnabled "QCTL_WITHDRAW") ∧ exec .qctlResume s = .refused (.notEnabled "QCTL_RESUME") ∧
        exec .qctlEnd s = .refused (.notEnabled "QCTL_END")) ∧
      (s.up = false → exec .qgo s = .next s.tick ∧ exec .qctlPreempt s = .next s.tick ∧ exec .qctlWithdraw s = .next s.tick ∧
        exec .qctlResume s = .next s.tick ∧ exec .qctlEnd s = .next s.tick) ∧
      (s.up = true → reached →
        let k := s.queue q
        let record := k.qrec ++ List.replicate (256 - k.qrec.length) 0
        (∃ t status, exec .qgo s = .next t ∧ t.mem = s.mem ∧ t.groups = s.groups ∧ t.blocks = s.blocks ∧ status ≤ 12 ∧
          (t.queue q).qstat.toNat = status + (k.qstat.toNat / 2 ^ 8 % 2 ^ 8 + 1) % 256 * 2 ^ 8 ∧
          (leAt record 0 8 % 64 ≠ 0 ∨ leAt record 0xC 4 / 2 ^ 24 ≠ 1 ∨ leAt record 8 4 / 2 ^ 16 % 64 ≠ q → status = 1) ∧
          (s.tick.asidOk (leAt record 8 2) = false → status ≠ 0) ∧ (256 ≤ k.launches.length → status ≠ 0) ∧
          (status ≠ 0 → t.launches = s.launches ∧ (t.queue q).launches = k.launches) ∧
          (status = 0 → ∃ n, t.launches = s.launches ++ [n] ∧ (t.queue q).launches = k.launches ++ [n.id] ∧ n.record = record ∧ n.queue = q ∧
            n.signal = none ∧ n.after = s.hostHorizon ∧ n.codeAst = s.astbase ∧ n.nextBlock = 0 ∧ n.preempt = false ∧ n.restarts = 0 ∧
            n.phase = if k.launches = [] then .active else .waiting)) ∧
        (k.launches = [] → exec .qctlPreempt s = .next s.tick ∧ exec .qctlWithdraw s = .next s.tick ∧ exec .qctlResume s = .next s.tick ∧
          exec .qctlEnd s = .next s.tick) ∧
        ∀ (l : Launch) (rest : List Nat), k.launches = l.id :: rest → s.launch? l.id = some l →
          -- the launch changes, and no other
          let becomes := fun (i : Instr) (l' : Launch) => ∃ t, exec i s = .next t ∧ t.mem = s.mem ∧ t.groups = s.groups ∧
            t.blocks = s.blocks ∧ t.launch? l.id = some l' ∧ ∀ id, id ≠ l.id → t.launch? id = s.launch? id
          (l.phase = .active → l.preempt = false → ∃ t l', exec .qctlPreempt s = .next t ∧ t.mem = s.mem ∧ t.groups = s.groups ∧
            t.blocks = (s.blocks.map fun b => if b.launch = l.id ∧ b.phase = .placed then { b with phase := .saving 0 } else b) ∧
            t.launch? l.id = some l' ∧ l' = { l with preempt := true, whole := l.whole || l.conc || s.spawnedWork l } ∧
            (t.queue q).contending = decide (l.nextBlock < l.nblocks)) ∧
          (l.phase ≠ .active ∨ l.preempt = true → exec .qctlPreempt s = .next s.tick) ∧
          (l.preempt = true → becomes .qctlWithdraw { l with preempt := false }) ∧
          (l.preempt = false → exec .qctlWithdraw s = .next s.tick) ∧
          (let sound := ∀ g ∈ s.groups, g.launch = l.id → g.place = .saved → s.tick.recordSound l g = true
           (l.phase = .trapped → sound → becomes .qctlResume { l with phase := .active }) ∧
           (l.phase = .trapped → ¬sound → ∃ t, exec .qctlResume s = .next t ∧ t = { s with stamp := s.stamp + 1, queues := t.queues } ∧
             t.queue q = { k with refusals := k.refusals + 1 } ∧ ∀ r, r ≠ q → t.queue r = s.queue r) ∧
           (l.phase ≠ .trapped → exec .qctlResume s = .next s.tick)) ∧
          (l.phase = .trapped → becomes .qctlEnd { l with phase := .ending 4 }) ∧
          (l.phase ≠ .trapped → exec .qctlEnd s = .next s.tick))) ∧
    ∀ (off n : Nat) (v : Dword), s.arg = .value off n v →
      let idle := s.launches = []
      (s.up = false → exec .astbaseWrite s = .next s.tick ∧ exec .hwbaseWrite s = .next s.tick ∧ exec .hwlenWrite s = .next s.tick) ∧
      (¬reached → exec .astbaseWrite s = .refused (.notEnabled "ASTBASE_WRITE") ∧ exec .hwbaseWrite s = .refused (.notEnabled "HWBASE_WRITE") ∧
        exec .hwlenWrite s = .refused (.notEnabled "HWLEN_WRITE") ∧ exec .registerWrite s = .refused (.notEnabled "REGISTER_WRITE")) ∧
      (s.up = true → reached →
        exec .astbaseWrite s = .next { s.tick with astbase := if idle ∧ v.toNat % 2 ^ 20 = 0 ∧ v.toNat / 2 ^ 52 = 0 ∧ v.toNat / 2 ^ 44 ≤ 6 then v
          else s.astbase } ∧
        exec .hwbaseWrite s = .next { s.tick with hwbase := if idle ∧ v.toNat % 2 ^ 12 = 0 then v else s.hwbase } ∧
        exec .hwlenWrite s = .next { s.tick with hwlen := if idle ∧ v.toNat % 2 ^ 12 = 0 ∧ v.toNat ≤ 2 ^ 44 then v else s.hwlen }) ∧
      (n = 1 ∨ n = 2 ∨ n = 4 ∨ n = 8 → off % n = 0 → off < 2 ^ 20 → ownWrite off = false →
        (s.up = false → exec .registerWrite s = .next s.tick) ∧
        (s.up = true → reached → ∃ t, exec .registerWrite s = .next t ∧ t = { s with queues := t.queues, mailbox := t.mailbox, stamp := s.stamp + 1 } ∧
          let byte := fun (i : Nat) => (leBytes n v.toNat).getD i 0
          (∀ q r, off = 0x10000 + 0x400 * q + r → q < 64 → r + n ≤ 0x100 → t.mailbox = s.mailbox ∧ (∀ k, k ≠ q → t.queue k = s.queue k) ∧
            ∀ i, i < 256 → (t.queue q).qrec.getD i 0 = if r ≤ i ∧ i < r + n then byte (i - r) else (s.queue q).qrec.getD i 0) ∧
          (∀ q, off = 0x10000 + 0x400 * q + 0x110 → q < 64 → n = 4 → t.mailbox = s.mailbox ∧
            (t.queue q).qmsi = BitVec.ofNat 32 (v.toNat % 2)) ∧
          (∀ r, off = 0x1100 + r → r + n ≤ 0x100 → t.queues = s.queues ∧ ∀ i,
            SMap.get 0 t.mailbox.arg i = if r ≤ i ∧ i < r + n then byte (i - r) else SMap.get 0 s.mailbox.arg i) ∧
          (off = 0x100C → n = 4 → t.queues = s.queues ∧ t.mailbox = { s.mailbox with tail := v.toNat % 128 }) ∧
          (off = 0x1014 → n = 4 → t.queues = s.queues ∧
            t.mailbox = { s.mailbox with vec := v.toNat % 64 + v.toNat / 2 ^ 8 % 2 * 2 ^ 8 }) ∧
          (0x1800 ≤ off → off < 0x10000 → t.queues = s.queues ∧ t.mailbox = s.mailbox)))

/-- LAUNCH_TRAP_REPORT, LAUNCH_COMPLETION, LAUNCH_RESTART, CORE_LOSS, HBM_CHANNEL_LOSS and BASE_DIE_LOSS (R12, R41 01_machine.md, R337 14_spawn.md,
R415, R416, R431 to R433 19_dispatch.md, R446, R449 20_links.md): once a launch has stopped or is done, and what it reports can be reached, the completion
record, then the signal once the record is visible, then the next launch of the queue; a lost core takes its groups, their operations and its L1 with it,
and a lost channel or base die what is homed there.
It rests on the model's readings: logs 50 and 63. -/
def Obligations.LaunchesEnd : Prop :=
  ∀ (s : State),
    (∀ (id : Nat) (l : Launch), s.arg = .num id → s.launch? id = some l →
      -- the record that an event writes
      let reports := fun (i : Instr) (status : Nat) => ∃ t l', exec i s = .next t ∧ t.forward = s.forward ∧ t.launch? id = some l' ∧
        (∃ v, l' = { l with phase := .reporting status v }) ∧ (l.complAt = 0 → t.mem = s.mem) ∧
        ∀ addrs, l.complAt ≠ 0 → s.tick.engineAddrs l l.complAt 256 false true = .ok addrs → (addrs.map s.place).Nodup →
          let field := fun (off n : Nat) => leNat (((addrs.drop off).take n).map t.byteAt)
          (∀ p, (∀ a ∈ addrs, s.place a ≠ p) → SMap.get 0 t.mem p = SMap.get 0 s.mem p) ∧
          field 0 4 = (status + if status = 1 then l.trapCause * 2 ^ 8 else 0) % 2 ^ 32 ∧ field 4 4 = l.restarts % 2 ^ 32 ∧
          field 8 8 = l.firstPlaced.getD 0 % 2 ^ 64 ∧ field 16 8 = (if status = 1 then 0 else s.time) % 2 ^ 64 ∧
          field 24 8 = (if status = 1 then l.trapBlock else 0) % 2 ^ 64 ∧ field 32 4 = (if status = 1 then l.trapGroup else 0) % 2 ^ 32 ∧
          ∀ k, k < 16 → field (64 + 8 * k) 8 = l.counts.get 0 k % 2 ^ 64
      let stopped := s.launchStopped l = true ∧ s.launchClear l = true
      ((∃ p ∈ s.hosts, p.width ≠ 0 ∧ p.next = none) → s.reportOpen l = true ∧ s.signalsOpen l = true) ∧
      (s.launchStopped l = true ↔
        (∀ b ∈ s.blocks, b.launch = id → b.phase = .saved ∨ b.phase = .retired ∨ b.phase = .released) ∧
        (∀ b ∈ s.blocks, b.launch = id → s.releasable b = false) ∧ (∀ x ∈ s.slots, x.launch ≠ id) ∧ (∀ k ∈ s.bins, ∀ x ∈ k.slots, x.launch ≠ id) ∧
        (∀ g ∈ s.groups, g.launch = id → g.spawned = true → g.place = .saved ∨ g.place = .gone ∨ g.finished = true) ∧
        ∀ o ∈ s.ops, ∀ g, s.group? o.grp = some g → g.launch ≠ id) ∧
      (s.launchClear l = true ↔ ∀ g ∈ s.groups, g.launch = id → s.clear g.horizon = true ∧ ∀ w ∈ s.writes, g.id ∉ w.owners) ∧
      (l.phase = .stopping → stopped → s.reportOpen l = true → reports .launchTrapReport 1) ∧
      (∀ status, l.phase = .ending status → stopped → s.reportOpen l = true → reports .launchCompletion status) ∧
      (l.phase = .active → s.launchDone l = true → s.reportOpen l = true →
        reports .launchCompletion (if l.remoteErrors = 0 ∨ l.trapped = true then 0 else 3)) ∧
      (s.launchDone l = true ↔ l.nblocks ≤ l.nextBlock ∧ (∀ b ∈ s.blocks, b.launch = id → b.phase = .released) ∧ s.spawnedWork l = false ∧
        (∀ g ∈ s.groups, g.launch = id → g.finished = true) ∧ s.busy l = false ∧ s.launchClear l = true) ∧
      (∀ status v, l.phase = .reporting status v → s.clear v = true → s.signalsOpen l = true →
        let signals := fun (t : State) =>
          (l.csigAt = 0 → l.signal = none → t.mem = s.mem) ∧
          ∀ addrs seen, l.csigAt ≠ 0 → l.signal = none →
            s.tick.reachAll { core := none, asid := l.asid, priv := l.priv, rd := false, wr := true } l.csigAt 4 0 = (.ok addrs, seen) →
            (addrs.1.map s.place).Nodup → (∀ a ∈ addrs.1, (s.markOf (s.fwd (a / 64))).poison = 0 ∧ (s.markOf (s.fwd (a / 64))).failing = false) →
            leNat (addrs.1.map t.byteAt) = (status + if status = 1 then l.trapCause * 2 ^ 8 else 0) % 2 ^ 32
        (status = 1 → ∃ t, exec .launchTrapReport s = .next t ∧ signals t ∧ t.launch? id = some { l with phase := .trapped, trapped := true }) ∧
        (status ≠ 1 → ∃ t, exec .launchCompletion s = .next t ∧ signals t ∧ t.launch? id = none ∧ (∀ g ∈ t.groups, g.launch ≠ id) ∧
          (∀ b ∈ t.blocks, b.launch ≠ id) ∧ (t.queue l.queue).launches = (s.queue l.queue).launches.filter (fun n => decide (n ≠ id)) ∧
          ∀ n rest o, (s.queue l.queue).launches.filter (fun n => decide (n ≠ id)) = n :: rest → s.launch? n = some o → o.phase = .waiting →
            t.launch? n = some { o with phase := .active })) ∧
      (l.phase = .restarting → stopped → ∃ t l', exec .launchRestart s = .next t ∧ t.mem = s.mem ∧
        t.groups = s.groups.filter (fun g => decide (g.launch ≠ id)) ∧ t.blocks = s.blocks.filter (fun b => decide (b.launch ≠ id)) ∧
        (∀ w ∈ t.staged, w.launch ≠ id) ∧ t.launch? id = some l' ∧
        l' = { l with rotor := none, clusters := [], nextBlock := 0, whole := false, frames := [], phase := l'.phase, restarts := l'.restarts } ∧
        (s.noCore l = false → l'.phase = .active ∧ l'.restarts = l.restarts + 1) ∧ (s.noCore l = true → l'.phase = .ending 2))) ∧
    (let lost := fun (t : State) (l : Launch) => ∃ l', t.launch? l.id = some l' ∧
        (l.rc = true → l'.phase = .restarting) ∧ (l.rc = false → l'.phase = .ending 2 ∨ l'.phase = .ending 5)
     (∀ core, s.arg = .num core → core ∈ s.cores → ∃ t, exec .coreLoss s = .next t ∧ t.cores = s.cores.filter (fun c => decide (c ≠ core)) ∧
        (∀ g ∈ t.groups, g.resident = true → g.core ≠ core) ∧ (∀ x ∈ t.l1, x.core ≠ core) ∧ (∀ b ∈ t.bins, b.core ≠ core) ∧
        (∀ x ∈ t.slots, x.core ≠ core) ∧ (∀ g ∈ s.groups, g.resident = true → g.core = core → ∀ o ∈ t.ops, o.grp ≠ g.id) ∧
        (∀ l, s.launch? l.id = some l → s.coreHolds core l = false → t.launch? l.id = some l) ∧
        ∀ l, s.launch? l.id = some l → s.coreHolds core l = true → l.phase = .active ∨ l.phase = .stopping → lost t l) ∧
     (∀ die ch, s.arg = .pair die ch → die < 4 → ch < 64 → 64 * die + ch ∉ s.mapped → 64 * die + ch ∉ s.lost →
        ∃ t, exec .hbmChannelLoss s = .next t ∧ t.mem = s.mem ∧ t.groups = s.groups ∧ t.lost = s.lost ++ [64 * die + ch] ∧
          (∀ g ∈ t.guests, g ∈ s.guests ∧ (t.markOf g.line).poison ≠ 4) ∧
          -- its lines are poisoned from now on, and no other line changes
          ∀ line d o, s.home (64 * line) = some (d, o) → s.dieCode d < 2 →
            (d = die → s.channel d o = ch → (t.markOf line).poison = 4) ∧ (d ≠ die ∨ s.channel d o ≠ ch → t.markOf line = s.markOf line)) ∧
     ∀ d, s.arg = .num d → d < 4 → s.dieCode d < 2 → ∃ t, exec .baseDieLoss s = .next t ∧ t.dieCode d = 3 ∧
        t.cores = s.cores.filter (fun c => decide (dieOf c ≠ d)) ∧ (∀ g ∈ t.guests, g.die ≠ d) ∧
        (∀ o ∈ t.ops, ∀ mode asid va e todo acks, o.kind = .tlbinv mode asid va e todo acks → d ∉ todo) ∧
        ∀ l core, (s.groups.map fun g => g.id).Nodup → s.launch? l.id = some l → core ∈ s.cores → dieOf core = d → s.coreHolds core l = true → l.phase = .active → lost t l)

/-- DISPATCH_CHOICE, BLOCK_RETIRE, BLOCK_RELEASE, PREEMPT_QUANTUM and GROUP_SAVE (R140, R141 04_sequencer.md, R246 10_loadstore.md, R414, R417, R422
to R429, R465 19_dispatch.md): the contending queue of lowest PASS places its next block and pays its stride; finished blocks leave; staged writes are
released in index order; a group that stopped at its boundary is saved, its record laid out as R141 gives and written page by page.
It rests on the model's readings: logs 48, 49 and 63. -/
def Obligations.BlocksComeAndGo : Prop :=
  ∀ (s : State),
    (let a := s.tick
     (∀ g ∈ s.groups, g.id < s.nextId) → (s.queues.map fun k => k.1).Nodup → a.urgentStep = none → (∀ l ∈ a.actives, a.restoreNow l = none) →
     -- the candidates of R417
     let can := fun (q : Nat) (k : Queue) (l : Launch) (spots : List Spot) => (q, k) ∈ s.queues ∧ k.contending = true ∧
       (∃ rest, k.launches = l.id :: rest) ∧ s.launch? l.id = some l ∧ l.urg = false ∧ a.nextSpots l = some spots
     ∀ q k l spots, can q k l spots → (∀ q' k' l' spots', can q' k' l' spots' → q' ≠ q → k.pass < k'.pass) →
       ∃ t, exec .dispatchChoice s = .next t ∧ t.mem = s.mem ∧ t.gvt = k.pass ∧
         (t.queue q).pass = (k.pass + spots.length * (2 ^ 24 / l.tickets)) % 2 ^ 64 ∧ t.blocks.length = s.blocks.length + spots.length ∧
         ∀ spot, spots = [spot] → ∃ b l', t.blocks = s.blocks ++ [b] ∧ b.launch = l.id ∧ b.index = l.nextBlock ∧ b.phase = .placed ∧
           b.cores = spot.map (fun p => p.1) ∧ b.slot = s.freeSlot l ∧ b.since = s.time ∧ t.launch? l.id = some l' ∧ l'.nextBlock = l.nextBlock + 1 ∧
           (l.conc = false → ∀ c ∈ b.cores, c ∈ s.cores ∧ l.inWindow c = true ∧ dieOf c = l.dieOfBlock b.index) ∧
           b.groups.length = (spot.map fun p => p.2.length).sum ∧
           ∀ i id, b.groups[i]? = some id → ∃ g u, t.group? id = some g ∧ g.index = i ∧ g.block = b.index ∧ g.launch = l.id ∧ g.m = l.m ∧
             g.place = .slot ∧ g.core ∈ b.cores ∧ g.subs = [u] ∧ u.pc = BitVec.ofNat 64 l.entry ∧ u.phase = .running ∧
             u.fpcr = BitVec.ofNat 32 l.fpcr ∧
             (∀ r, u.ureg r = if 2 ≤ l.uregs ∧ r = 0 then BitVec.ofNat 32 l.argp else if 2 ≤ l.uregs ∧ r = 1 then BitVec.ofNat 32 (l.argp / 2 ^ 32)
               else 0) ∧ ∀ r th, g.vcur r th = 0) ∧
    ((∃ b ∈ s.blocks, s.blockDone b = true) → (∀ l ∈ s.launches, l.nblocks ≤ l.nextBlock) → (∀ b ∈ s.blocks, b.phase ≠ .saved) →
      ∃ t, exec .blockRetire s = .next t ∧ t.mem = s.mem ∧ ∀ b ∈ s.blocks,
        let done := fun (b : Block) => s.blockDone b = true
        (done b → (∀ l, s.launch? b.launch = some l → l.ord = false) → ∀ o ∈ t.blocks, ¬(o.launch = b.launch ∧ o.index = b.index)) ∧
        (done b → ∀ l, s.launch? b.launch = some l → l.ord = true → { b with phase := .retired, tiles := [], pool := [], arrays := [] } ∈ t.blocks) ∧
        (done b → ∀ n ∈ b.groups, ∀ g, t.group? n = some g → g.place = .gone) ∧
        ((∀ o ∈ s.blocks, done o → ¬(o.launch = b.launch ∧ o.index = b.index)) → b ∈ t.blocks)) ∧
    (∀ launch index b, s.arg = .pair launch index → s.block? launch index = some b → b.phase = .retired →
      (s.blocks.filter fun o => o.launch == launch && decide (o.index < index) && decide (o.phase = .released)).length = index →
      let mine := s.staged.filter fun w => w.launch == launch && w.block == index
      ∃ t, exec .blockRelease s = .next t ∧ t.block? launch index = some { b with phase := .released } ∧
        t.staged = s.staged.filter (fun w => !(w.launch == launch && w.block == index)) ∧ t.forward = s.forward ∧
        ((∀ w ∈ mine, w.atom = none) → (mine.Pairwise fun a b => a.line ≠ b.line) → (∀ w ∈ mine, ∀ k ∈ w.bytes, k.1 < 64) →
          (∀ w ∈ mine, (w.bytes.map fun k => k.1).Nodup → ∀ k ∈ w.bytes, SMap.get 0 t.mem (64 * w.line + k.1) = k.2) ∧
          (∀ w ∈ mine, w.poison = true → (SMap.get LineMark.none t.lineMarks w.line).poison = 2) ∧
          ∀ p, (∀ w ∈ mine, ∀ k ∈ w.bytes, 64 * w.line + k.1 ≠ p) → SMap.get 0 t.mem p = SMap.get 0 s.mem p) ∧
        -- an atomic is computed at the release
        ∀ w r v old, mine = [w] → w.atom = some r → r.pa % 64 + r.width ≤ 64 → r.compute (leNat (s.bytesAt r.pa r.width)) = some (v, old) →
          (s.markOf (s.fwd (r.pa / 64))).poison = 0 → (s.markOf (s.fwd (r.pa / 64))).failing = false →
          leNat (t.bytesAt r.pa r.width) = v % 2 ^ (8 * r.width)) ∧
    (∀ core b l, s.arg = .num core → s.longest core = some b → s.launch? b.launch = some l → b.since + 3500000 ≤ s.time →
      (∃ q k o, (q, k) ∈ s.queues ∧ k.contending = true ∧ k.pass < (s.queue l.queue).pass ∧ (∃ rest, k.launches = o.id :: rest) ∧
        s.launch? o.id = some o ∧ o.runs = true ∧ s.clear o.after = true ∧ s.nextSpots o = none) →
      let whole := l.conc || s.spawnedWork l
      ∃ t, exec .preemptQuantum s = .next t ∧ t.mem = s.mem ∧ t.groups = s.groups ∧
        t.blocks = s.blocks.map fun o => if o.launch = b.launch ∧ (whole = true ∨ o.index = b.index) ∧ o.phase = .placed then { o with phase := .saving 0 }
          else o) ∧
    (∀ id g l, s.arg = .num id → s.group? id = some g → s.launch? g.launch = some l → s.canSave l g = true →
      -- a launch with spawned work is taken whole
      let a : State := { s.tick with
        blocks := if l.phase = .active ∧ s.spawnedWork l = true ∧ l.whole = false then
            s.blocks.map fun b => if b.launch = l.id ∧ b.phase = .placed then { b with phase := .saving 0 } else b
          else s.blocks
        launches := if l.phase = .active ∧ s.spawnedWork l = true ∧ l.whole = false then
            s.launches.map fun o => if o.id = l.id then { o with whole := true } else o
          else s.launches }
      (∀ n q, l.discards = false → g.saveFault = some (n, q) → exec .groupSave s = .next (a.saveTrap g n q)) ∧
      (l.discards = true ∨ g.saveFault = none →
        let reason := if g.trapped = true then 1 else match l.phase with | .stopping | .ending _ => 2 | _ => 0
        ∃ t g', exec .groupSave s = .next t ∧ t.group? id = some g' ∧ g'.place = .saved ∧ g'.reason = reason ∧
          g'.subs.length = g.subs.length ∧ (∀ u ∈ g'.subs, ∀ m, u.monitor = some m → m.addr = none) ∧ g'.vregs = g.vregs ∧ g'.preds = g.preds ∧
          g'.exm = g.exm ∧ g'.live = g.live ∧ g'.fpsr = g.fpsr ∧ g'.accs = g.accs ∧ g'.trap = g.trap ∧
          (∀ o ∈ t.ops, o.grp = id → ∀ at' m, o.kind ≠ .monitor at' m) ∧ (l.discards = true → t.mem = s.mem) ∧
          -- the record goes to the group's place in the slot, or to its continuation
          (l.discards = false → (g.spawned = true ∨ ∃ b n k, s.block? g.launch g.block = some b ∧ n ∈ b.groups ∧ n ≠ id ∧ s.group? n = some k ∧
              k.place ≠ .saved) →
            let va := if g.spawned = true then l.frameBase + 64 * g.resv.getD 0
              else l.saveAt + (match s.block? g.launch g.block with | some b => b.slot | none => 0) * l.slotSize + 0x200 +
                g.index * ((l.recordSize + 255) / 256 * 256)
            let f := if g.place = .slot then a.flush g.core else a
            t.mem = (f.saveBytes l (dieOf g.core) [id] va 8 (({ g with subs := g.subs.map SubGroup.endWaits } : Group).record l reason)).mem))) ∧
    -- what R141 lays out
    (∀ (g : Group) (l : Launch) (reason : Nat), g.m = l.m → l.m ≤ 8 → g.subs.length ≤ 8 → (∀ t, (SMap.get 0 g.fpsr t).toNat < 32) →
      let b := g.record l reason
      let f := leAt b
      let n' := (l.vregs + 7) / 8 * 8
      let vend := 0x5B00 + 128 * l.m * n'
      b.length = vend + 288 * l.m * l.acc ∧ l.recordSize = b.length ∧
      f 0 4 = 1 ∧ f 4 4 = (l.m + g.subs.length * 2 ^ 4 + reason * 2 ^ 8) % 2 ^ 32 ∧ f 8 4 = (n' + l.uregs * 2 ^ 8 + l.acc * 2 ^ 16) % 2 ^ 32 ∧
      f 0xC 4 = g.awr.getD 0xFFFFFF % 2 ^ 32 ∧ f 0x10 8 = g.trap.info.toNat ∧ f 0x18 8 = g.trap.pc.toNat ∧ f 0x20 8 = g.trap.addr.toNat ∧
      f 0x28 8 = g.trap.msk0.toNat ∧ f 0x30 8 = g.trap.msk1.toNat ∧ f 0x38 8 = g.trap.msk2.toNat ∧ f 0x40 8 = g.trap.msk3.toNat ∧ f 0x48 8 = 0 ∧
      (∀ m, m < 8 → f (0x50 + 4 * m) 4 = (g.exmOf m).toNat ∧ f (0x70 + 4 * m) 4 = (g.liveOf m).toNat ∧
        ∀ k, 1 ≤ k → k ≤ 15 → f (0x100 + ((k - 1) * 8 + m) * 4) 4 = if m < l.m then (g.predOf m k).toNat else 0) ∧
      f 0x90 112 = 0 ∧ f 0x2E0 32 = 0 ∧
      (∀ t, t < 256 → f (0x300 + t) 1 = (SMap.get 0 g.fpsr t).toNat ∧ f (0x400 + t) 1 = (SMap.get 0 g.trapFlags t).toNat % 256) ∧
      (∀ j, j < 8 →
        (g.sub? j = none → f (0x500 + 64 * j) 64 = 0 ∧ ∀ i, i < 160 → f (0x700 + 640 * j + 4 * i) 4 = 0) ∧
        ∀ u, g.sub? j = some u → u.ndone ≤ 24 → u.window.length ≤ 8 →
          f (0x500 + 64 * j) 8 = u.pc.toNat ∧
          f (0x508 + 64 * j) 4 = u.members.toNat + (u.mmk &&& u.members).toNat * 2 ^ 8 + u.ndone * 2 ^ 16 + u.window.length * 2 ^ 24 ∧
          (∀ k e, u.window[k]? = some e → (f (0x50C + 64 * j) 4).testBit k = e.wide ∧ (f (0x50C + 64 * j) 4).testBit (8 + k) = e.uni) ∧
          (∀ k, u.window.length ≤ k → k < 8 → (f (0x50C + 64 * j) 4).testBit k = false ∧ (f (0x50C + 64 * j) 4).testBit (8 + k) = false) ∧
          (f (0x50C + 64 * j) 4 / 2 ^ 16 % 2 ^ 4 = match u.phase with | .bar _ => 1 | .await _ _ _ => 2 | _ => 0) ∧
          (∀ level, u.phase = .bar level → level < 8 → f (0x50C + 64 * j) 4 / 2 ^ 20 = level) ∧
          f (0x510 + 64 * j) 4 = u.fpcr.toNat ∧ f (0x514 + 64 * j) 4 = u.lpr.toNat ∧ f (0x518 + 64 * j) 4 = u.cfrm.getD 0xFFFFFFFF % 2 ^ 32 ∧
          f (0x51C + 64 * j) 4 = (if u.monitor = none then 0 else 1) ∧ f (0x520 + 64 * j) 32 = 0 ∧
          ∀ i, i < 160 → f (0x700 + 640 * j + 4 * i) 4 = if u.umarks.has i = true then 0 else (u.ureg i).toNat) ∧
      (∀ m k lane, m < 8 → k < 8 → lane < 32 → f (0x1B00 + ((8 * m + k) * 32 + lane) * 8) 8 =
        match (g.subs.find? fun u => u.members.getLsbD m).bind fun u => u.window[k]? with
        | some e => (SMap.get 0 e.vals (32 * m + lane)).toNat
        | none => 0) ∧
      (∀ m i lane, m < l.m → i < n' → lane < 32 → f (0x5B00 + ((m * n' + i) * 32 + lane) * 4) 4 =
        if g.vmarks.has (256 * i + 32 * m + lane) = true then 0 else (g.vcur i (32 * m + lane)).toNat) ∧
      ∀ m i, m < l.m → i < l.acc → (b.drop (vend + (m * l.acc + i) * 288)).take 288 =
        (if g.accMarks.has (4 * m + i) = true then Accum.clear else g.acc m i).image) ∧
    -- a page of a save area is written whole, or the launch ends with status 5
    ∀ (l : Launch) (die : Nat) (owners : List Nat) (va fuel : Nat) (b : List Byte), b ≠ [] →
      let k := min b.length (65536 - va % 65536)
      let t := s.saveBytes l die owners va (fuel + 1) b
      (∀ e, s.engineAddrs l va k false true = .error e → t = s.endLaunch l.id 5) ∧
      ∀ addrs, s.engineAddrs l va k false true = .ok addrs → ∃ u : State,
        (t = u.saveBytes l die owners (va + k) fuel (b.drop k)) ∧ u.forward = s.forward ∧
        ((addrs.map s.place).Nodup → ∀ p ∈ addrs.zip (b.take k), u.byteAt p.1 = p.2) ∧
        ∀ p, (∀ a ∈ addrs, s.place a ≠ p) → SMap.get 0 u.mem p = SMap.get 0 s.mem p

/-- POWER_ON_BRINGUP, GOVERNOR_SAMPLE, REPORT, QUOTE, WINDOW, STAGE, RESET, OFFLINE, DOORBELL_UNKNOWN_COMMAND and MAILBOX_COMMAND_END (R293
12_translation.md, R437, R449 20_links.md, R453 to R460 21_management.md): what bring-up leaves, whole or stopped at a step, when the governor lowers the clock, what a
doorbell starts, and with what result each command ends.
It rests on the model's readings: logs 6, 15, 16, 35, 46, 51, 58 and 64. -/
def Obligations.ManagementController : Prop :=
  ∀ (s : State),
    (∀ x : SelfTest, s.arg = .test x → s.bringup = .waiting →
      -- a step that fails stops it: the steps before it have been taken, no later one
      (∀ k, x.failed = some k → 1 ≤ k → k ≤ 8 → ∃ t, exec .powerOnBringup s = .next t ∧ t.bringup = .failed k ∧ t.mailbox.ready = false ∧ t.up = false ∧
        t.image = (if 1 < k then s.flash else s.image) ∧ (k ≤ 3 → t.cores = []) ∧ t.chip = (if 5 < k then s.flash.chip else s.chip) ∧
        (k ≤ 5 → (∀ p ∈ t.ports, p.width = 0) ∧ ∀ p ∈ t.hosts, p.width = 0) ∧ t.time = (if 6 < k then 0 else s.time) ∧
        t.tarnPhase = (if 6 < k then s.flash.phase else s.tarnPhase) ∧ (k ≤ 4 → t.mem = s.mem) ∧ (k ≤ 7 → ∀ w ∈ t.windows, w = Window.none)) ∧
      (x.failed = none → ∃ t, exec .powerOnBringup s = .next t ∧ t.bringup = .done ∧
        -- a channel that was lost is mapped out, and its bytes are gone
        (∀ p, SMap.get 0 t.mem p = if (s.markOf (p / 64)).poison = 4 then 0 else SMap.get 0 s.mem p) ∧ t.lost = [] ∧
        (∀ k, k < 384 → (k ∈ t.mapped ↔ k ∈ s.flash.off ∨ k ∈ x.channels ∨ k ∈ s.lost)) ∧ t.image = s.flash ∧ t.time = 0 ∧ t.gvt = 0 ∧ t.qi = 0 ∧
        t.quarantine = [] ∧ t.ig = s.flash.ig ∧ t.chip = s.flash.chip ∧ t.tarnPhase = s.flash.phase ∧ t.clock = s.flash.clock ∧
        t.mailbox.ready = true ∧ t.astbase = s.astbase ∧ (∀ q, (t.queue q).contending = false) ∧
        (∀ i w, i < 16 → s.flash.windows[i]? = some w → t.windows[i]? = some w) ∧
        -- a die whose cores all pass has its first ten preferred clusters in service, and no die has more
        ((∀ d, d < 4 → ∀ k, k < 44 → 44 * d + k ∈ x.cores) →
          (∀ d, d < 4 → (s.flash.prefs.getD d []).length = 11 ∧ ∀ p ∈ s.flash.prefs.getD d [], p < 11) →
          t.cores = (List.range 4).flatMap fun d => if s.dieCode d = 3 then [] else (List.range 40).map fun k => 40 * d + k))) ∧
    (∀ watts, s.arg = .num watts → s.up = true → s.sampled + 17500 ≤ s.time →
      (watts ≤ s.image.power → exec .governorSample s = .next { s.tick with sampled := s.time }) ∧
      (s.image.power < watts → ∃ t, exec .governorSample s = .next t ∧ t.clock = s.clock - 25 ∧ t.sampled = s.time ∧ t.mem = s.mem ∧
        t.launches = s.launches)) ∧
    (let reached := (∃ p ∈ s.hosts, p.width ≠ 0 ∧ p.next = none) ∨ s.bringup ≠ .done
     let answers := fun (code : Nat) => s.mailbox.running = none ∧ (s.bringup = .done ∨ code = 1 ∧ ∃ k, s.bringup = .failed k)
     let taken := (List.range 256).map fun i => SMap.get 0 s.mailbox.arg i
     let starts := fun (i : Instr) (code : Nat) =>
       (reached → answers code → exec i s = .next { s.tick with mailbox := { s.mailbox with running := some code, taken := taken } }) ∧
       (reached → ¬answers code → exec i s = .next s.tick) ∧ (¬reached → exec i s = .refused (.notEnabled "DOORBELL"))
     starts .report 1 ∧ starts .quote 2 ∧ starts .window 4 ∧ starts .stage 5 ∧ starts .reset 6 ∧
     (∀ v, s.arg = .num v → v % 256 = 0 ∨ 6 < v % 256 → starts .doorbellUnknownCommand (v % 256)) ∧
     (offlineArgs taken = none → starts .offline 3) ∧ (reached → ¬answers 3 → exec .offline s = .next s.tick) ∧
     ∀ e, reached → answers 3 → offlineArgs taken = some e → ∃ t, exec .offline s = .next t ∧ t.mem = s.mem ∧ t.groups = s.groups ∧
       t.offline = some { e with was := s.launches.map fun l => (l.id, l.dies) } ∧
       t.mailbox = { s.mailbox with running := some 3, taken := taken } ∧ (∀ c, dieOf c = e.die → ∀ l k, c ∉ t.eligible l k) ∧
       ∀ b ∈ t.blocks, ∀ l, s.launch? b.launch = some l → l.phase = .active → b.resident = true → (∃ c ∈ b.cores, dieOf c = e.die) →
         b.phase ≠ .placed) ∧
    ∀ code, s.mailbox.running = some code →
      let b := s.mailbox.taken
      let zero := fun (used : Nat) => ∀ i, used ≤ i → i < b.length → b.getD i 0 = 0
      let ends := fun (result : Nat) (P : State → Prop) => ∃ t, exec .mailboxCommandEnd s = .next t ∧ t.launches = s.launches ∧
        t.mailbox.running = none ∧ t.mailbox.result = result ∧ t.mailbox.done = (s.mailbox.done + 1) % 65536 ∧ P t
      let same := fun (t : State) => t.mem = s.mem ∧ t.groups = s.groups ∧ t.bringup = s.bringup ∧ t.flash = s.flash ∧ t.windows = s.windows
      let resp := fun (t : State) (off n : Nat) => leNat ((List.range n).map fun i => SMap.get 0 t.mailbox.resp (off + i))
      let host := fun (a n : Nat) => s.hwbase.toNat ≤ a ∧ a + n ≤ s.hwbase.toNat + s.hwlen.toNat
      (code = 1 → (¬zero 0 → ends 2 same) ∧
        (zero 0 → ends 0 fun t => same t ∧ resp t 0x38 4 = s.image.version % 2 ^ 32 ∧ resp t 0x30 8 = s.linkSelf % 2 ^ 64 ∧
          (∀ k, s.bringup = .failed k → resp t 0x3C 1 = k % 2 ^ 8) ∧ ∀ d, d < 6 → resp t (8 * d) 8 = s.queryUnits d % 2 ^ 64)) ∧
      (code = 2 → let a := leAt b 0x20 8
        (¬zero 0x28 ∨ a % 64 ≠ 0 ∨ ¬host a 8192 → ends 2 same) ∧
        (b.length = 256 → zero 0x28 → a % 64 = 0 → host a 8192 →
          (1024 ≤ s.quotes → ends 5 same) ∧
          (s.quotes < 1024 → s.pathTo (s.hostPa a / 64) = false → exec .mailboxCommandEnd s = .refused (.notEnabled "MAILBOX_COMMAND_END")) ∧
          (s.quotes < 1024 → s.pathTo (s.hostPa a / 64) = true →
            let at' := fun (i : Nat) => s.place (s.hostPa a + i)
            ((List.range 7844).map at').Nodup → ends 0 fun t => t.quotes = s.quotes + 1 ∧ resp t 0 4 = 7844 ∧
              (∀ i, i < 32 → SMap.get 0 t.mem (at' i) = b.getD i 0) ∧
              (let part := fun (off n : Nat) => (List.range n).map fun i => SMap.get 0 t.mem (at' (off + i))
               leNat (part 0x20 4) = s.image.version % 2 ^ 32 ∧ leNat (part 0x24 2) = s.chip % 2 ^ 16 ∧ leNat (part 0x26 2) = 0 ∧
               leNat (part 0x28 8) = s.time % 2 ^ 64 ∧
               (s.image.bytes ≠ [] → part 0x30 32 = sha256 (s.image.bytes.take (s.image.bytes.length - sigLen)) ∧
                 part 0x50 32 = sha256 (configBlock s.image.bytes)) ∧
               part 0x70 32 = sha256 (part 0 0x70) ∧ part 0x90 56 = keyPublic (sessionKey (s.leaf - 1)) ∧
               part 0xC8 5076 = identitySign (s.leaf - 1) (part 0x90 56) ∧ part 0x149C 2508 = keySign (sessionKey (s.leaf - 1)) s.quotes (part 0x70 32) ∧
               part 0x1E68 60 = identityPublic) ∧
              ∀ p, (∀ i, i < 7844 → at' i ≠ p) → SMap.get 0 t.mem p = SMap.get 0 s.mem p))) ∧
      (code = 4 → let e := leAt b 0 4
        let w : Window := ⟨leAt b 4 4, leAt b 8 8, leAt b 0x10 8, (leAt b 0x18 4).testBit 0, (leAt b 0x18 4).testBit 1⟩
        let ok := zero 0x1C ∧ e ≤ 15 ∧ w.chip ≤ 4094 ∧ w.base % 65536 = 0 ∧ w.len % 65536 = 0 ∧ leAt b 0x18 4 ≤ 3
        (¬ok → ends 2 same) ∧ (ok → ends 0 fun t => t.mem = s.mem ∧ t.bringup = s.bringup ∧
          t.windows = s.windows.set e (if w.len = 0 then Window.none else w))) ∧
      (code = 5 → let a := leAt b 0 8
        let n := leAt b 8 4
        let raw := (List.range n).map fun i => s.byteAt (s.hostPa a + i)
        (¬zero 12 ∨ a % 64 ≠ 0 ∨ ¬host a n ∨ n % 64 ≠ 0 ∨ 64 * 2 ^ 20 < n → ends 2 same) ∧
        (zero 12 → a % 64 = 0 → host a n → n % 64 = 0 → n ≤ 64 * 2 ^ 20 → s.pathTo (s.hostPa a / 64) = true →
          let clean := ∀ i, i < n → ∀ line, line = s.fwd ((s.hostPa a + i) / 64) → (s.markOf line).poison = 0 ∧ (s.markOf line).failing = false
          (¬clean → ends 3 same) ∧ (clean → leAt raw 8 4 ≠ n → ends 2 same) ∧ (clean → leAt raw 8 4 = n → imageOf raw = none → ends 3 same) ∧
          ∀ i, clean → leAt raw 8 4 = n → imageOf raw = some i → ends 0 fun t => t.flash = i ∧ t.mem = s.mem ∧ t.image = s.image ∧ t.windows = s.windows)) ∧
      (code = 6 → (¬zero 0 → ends 2 same) ∧ (zero 0 → s.launches ≠ [] → ends 4 same) ∧
        (zero 0 → s.launches = [] → ends 0 fun t => t.bringup = .waiting ∧ t.mailbox.ready = false ∧ t.mem = s.mem ∧ t.flash = s.flash)) ∧
      (code = 0 ∨ 6 < code → ends 6 same) ∧
      (code = 3 → (s.offline = none → ends 2 same) ∧
        ∀ e, s.offline = some e →
          (∀ n, e.moved = some n → n ≤ s.qc → ends 0 fun t => t.mem = s.mem ∧ t.offline = none ∧ t.dieCode e.die = 2 ∧ resp t 0 4 = 0 ∧
            t.cores = s.cores.filter fun c => decide (dieOf c ≠ e.die)) ∧
          (∀ n, e.moved = some n → s.qc < n → exec .mailboxCommandEnd s = .refused (.notEnabled "MAILBOX_COMMAND_END")) ∧
          (e.moved = none → s.dieEmpty e.die = true → (∀ o ∈ s.ops, ∀ a b c d r f, o.kind ≠ .migr a b c d r f) →
            let outcome := fun (n : Nat) (P : State → Prop) => ∃ t, exec .mailboxCommandEnd s = .next t ∧ t.mem = s.mem ∧ t.offline = none ∧
              t.mailbox.running = none ∧ t.mailbox.result = 0 ∧ resp t 0 4 = n ∧ P t
            let stays := 2 ≤ s.dieCode e.die ∨ s.tablesOn e.die = true
            (stays → outcome 2 fun t => t.cores = s.cores ∧
              ∀ l l', s.launch? l.id = some l → t.launch? l.id = some l' → (∀ k ∈ e.was, k.1 ≠ l.id) → l' = l) ∧
            (¬stays → (s.tick.reboundAll e.die).layout e = none → outcome 1 fun t => t.dieCode e.die = 1 ∧
              t.cores = s.cores.filter fun c => decide (dieOf c ≠ e.die)) ∧
            ∀ moves, ¬stays → (s.tick.reboundAll e.die).layout e = some moves → ∃ t, exec .mailboxCommandEnd s = .next t ∧
              t.mailbox.running = some 3 ∧ t.qi = (s.qi + 1) % 2 ^ 64 ∧ t.offline = some { e with moved := some t.qi }))
end

