-- ==== Sys2Proof/Laws/Groups.lean ====
section
/-! SUPPORT. Finding groups, sub-groups and launches after a change of one of them, and what retiring an instruction and taking a trap
do to them. -/

namespace Sys2Proof
namespace Machine

theorem find?_map_of_key {α : Type} (l : List α) (key : α → Nat) (f : α → α) (k : Nat) (h : ∀ a, key (f a) = key a) :
    (l.map f).find? (fun a => key a == k) = (l.find? fun a => key a == k).map f := by
  induction l with
  | nil => rfl
  | cons a l ih =>
    simp only [List.map_cons, List.find?_cons, h]
    cases key a == k <;> simp [ih]

theorem key_of_find? {α : Type} (l : List α) (key : α → Nat) (k : Nat) (a : α) (h : (l.find? fun a => key a == k) = some a) :
    key a = k := by
  have := List.find?_some h
  simpa using this

/-- Changing one group leaves every other, and changes that one. -/
theorem group?_modGroup (s : State) (id j : Nat) (f : Group → Group) (h : ∀ g, (f g).id = g.id) :
    (s.modGroup id f).group? j = if j = id then (s.group? j).map f else s.group? j := by
  unfold State.modGroup State.group?
  simp only
  rw [find?_map_of_key s.groups (fun g => g.id) (fun g => if g.id = id then f g else g) j (by intro a; split <;> simp [h])]
  cases hf : s.groups.find? (fun g => g.id == j) with
  | none => simp
  | some g =>
    have := key_of_find? s.groups (fun g => g.id) j g hf
    by_cases hj : j = id <;> simp [hj, this]

theorem group?_modGroup_self (s : State) (id : Nat) (f : Group → Group) (g : Group) (h : ∀ g, (f g).id = g.id)
    (hg : s.group? id = some g) : (s.modGroup id f).group? id = some (f g) := by
  rw [group?_modGroup s id id f h]; simp [hg]

theorem group?_modGroup_other (s : State) (id j : Nat) (f : Group → Group) (h : ∀ g, (f g).id = g.id) (hj : j ≠ id) :
    (s.modGroup id f).group? j = s.group? j := by
  rw [group?_modGroup s id j f h]; simp [hj]

/-- Changing one sub-group leaves every other, and changes that one. -/
theorem sub?_modSub (g : Group) (n k : Nat) (f : SubGroup → SubGroup) (h : ∀ u, (f u).num = u.num) :
    (g.modSub n f).sub? k = if k = n then (g.sub? k).map f else g.sub? k := by
  unfold Group.modSub Group.sub?
  simp only
  rw [find?_map_of_key g.subs (fun u => u.num) (fun u => if u.num = n then f u else u) k (by intro a; split <;> simp [h])]
  cases hf : g.subs.find? (fun u => u.num == k) with
  | none => simp
  | some u =>
    have := key_of_find? g.subs (fun u => u.num) k u hf
    by_cases hk : k = n <;> simp [hk, this]

theorem sub?_modSub_self (g : Group) (n : Nat) (f : SubGroup → SubGroup) (u : SubGroup) (h : ∀ u, (f u).num = u.num)
    (hu : g.sub? n = some u) : (g.modSub n f).sub? n = some (f u) := by
  rw [sub?_modSub g n n f h]; simp [hu]

theorem sub?_modSub_other (g : Group) (n k : Nat) (f : SubGroup → SubGroup) (h : ∀ u, (f u).num = u.num) (hk : k ≠ n) :
    (g.modSub n f).sub? k = g.sub? k := by
  rw [sub?_modSub g n k f h]; simp [hk]

@[simp] theorem modSub_id (g : Group) (n : Nat) (f : SubGroup → SubGroup) : (g.modSub n f).id = g.id := rfl

/-- What State.issuer answers stands in the state, and may issue. -/
theorem issuer_some (s : State) (c : Cx) (h : s.issuer = some c) :
    s.group? c.r.grp = some c.g ∧ c.g.sub? c.r.sub = some c.u ∧ s.launch? c.g.launch = some c.l ∧ c.r = s.cur ∧
      c.stamp = s.stamp ∧ s.canIssue c.g c.u = true := by
  unfold State.issuer at h
  split at h
  · cases h
  · next g hg =>
    split at h
    · cases h
    · next u hu =>
      split at h
      · cases h
      · next l hl =>
        split at h
        · next hc => cases h; exact ⟨hg, hu, hl, rfl, rfl, hc⟩
        · cases h

theorem issuer_running (s : State) (c : Cx) (h : s.issuer = some c) : c.u.phase = .running := by
  have := (issuer_some s c h).2.2.2.2.2
  simp only [State.canIssue, Bool.and_eq_true, decide_eq_true_eq] at this
  exact this.1.1.2

theorem issuer_grp (s : State) (c : Cx) (h : s.issuer = some c) : c.g.id = c.r.grp :=
  key_of_find? s.groups (fun g => g.id) c.r.grp c.g (issuer_some s c h).1

theorem issuer_num (s : State) (c : Cx) (h : s.issuer = some c) : c.u.num = c.r.sub :=
  key_of_find? c.g.subs (fun u => u.num) c.r.sub c.u (issuer_some s c h).2.1

end Machine
end Sys2Proof
end

