-- ==== Sys2Proof/Laws/SMap.lean ====
section
/-! SUPPORT. What the sparse container answers: reading after each update, and the canonical form each update keeps. -/

namespace Sys2Proof
namespace SMap

variable {α : Type}

@[simp] theorem get_nil (d : α) (k : Nat) : get d ([] : SMap α) k = d := rfl

/-- Reading after an unconditional write. -/
theorem get_put (d : α) (m : SMap α) (k j : Nat) (v : α) : get d (put m k v) j = if j = k then v else get d m j := by
  induction m with
  | nil => simp only [put, get]; by_cases h : k = j <;> simp [h, eq_comm]
  | cons p m ih =>
    obtain ⟨k', v'⟩ := p
    simp only [put]
    split
    · simp only [get]; by_cases h : k = j <;> simp [h, eq_comm]
    · split
      · next h => simp only [get, ← h]; by_cases h : k = j <;> simp [h, eq_comm]
      · simp only [get, ih]
        by_cases h : k' = j
        · subst h; simp_all [eq_comm]
        · simp [h]

/-- Every listed key lies at `lo` or above. -/
theorem get_of_lt [DecidableEq α] (d : α) (m : SMap α) (lo k : Nat) (h : wfFrom d lo m = true) (hk : k < lo) :
    get d m k = d := by
  induction m generalizing lo with
  | nil => rfl
  | cons p m ih =>
    obtain ⟨k', v'⟩ := p
    simp only [wfFrom, Bool.and_eq_true, decide_eq_true_eq] at h
    simp only [get]
    rw [if_neg (by omega)]
    exact ih (k' + 1) h.2 (by omega)

/-- Reading after an erasure. -/
theorem get_erase (d : α) (m : SMap α) (k j : Nat) : get d (erase m k) j = if j = k then d else get d m j := by
  induction m with
  | nil => simp [erase, get]
  | cons p m ih =>
    obtain ⟨k', v'⟩ := p
    simp only [erase]
    split
    · next hk => 
      rw [ih]
      by_cases hj : j = k
      · simp [hj]
      · simp only [if_neg hj, get]; rw [if_neg (by omega)]
    · next hk =>
      simp only [get, ih]
      by_cases hj : k' = j
      · subst hj; simp [hk]
      · simp [hj]

/-- Reading after a write. -/
theorem get_set [DecidableEq α] (d : α) (m : SMap α) (k j : Nat) (v : α) :
    get d (set d m k v) j = if j = k then v else get d m j := by
  unfold set
  split
  · next hv => rw [get_erase, hv]
  · exact get_put d m k j v

/-- What a map built by a function answers. -/
theorem get_build [DecidableEq α] (d : α) (f : Nat → α) (k n j : Nat) :
    get d (build d f k n) j = if k ≤ j ∧ j < k + n then f j else d := by
  induction n generalizing k with
  | zero => simp [build] <;> omega
  | succ n ih =>
    simp only [build]
    split
    · next h =>
      rw [ih]
      by_cases hj : j = k
      · subst hj; simp [h]
      · congr 1; simp only [eq_iff_iff]; omega
    · simp only [get, ih]
      by_cases hj : k = j
      · subst hj; simp
      · simp only [if_neg hj]; congr 1; simp only [eq_iff_iff]; omega

/-! ### The canonical form -/

theorem wfFrom_mono [DecidableEq α] (d : α) (m : SMap α) (lo lo' : Nat) (h : wfFrom d lo m = true) (hl : lo' ≤ lo) :
    wfFrom d lo' m = true := by
  cases m with
  | nil => rfl
  | cons p m =>
    simp only [wfFrom, Bool.and_eq_true, decide_eq_true_eq] at h ⊢
    exact ⟨⟨by omega, h.1.2⟩, h.2⟩

theorem wfFrom_put [DecidableEq α] (d : α) (m : SMap α) (lo k : Nat) (v : α) (h : wfFrom d lo m = true) (hk : lo ≤ k)
    (hv : v ≠ d) : wfFrom d lo (put m k v) = true := by
  induction m generalizing lo with
  | nil => simp [put, wfFrom, hk, hv]
  | cons p m ih =>
    obtain ⟨k', v'⟩ := p
    simp only [wfFrom, Bool.and_eq_true, decide_eq_true_eq] at h
    simp only [put]
    split
    · simp only [wfFrom, Bool.and_eq_true, decide_eq_true_eq]; exact ⟨⟨hk, hv⟩, ⟨by omega, h.1.2⟩, h.2⟩
    · split
      · simp only [wfFrom, Bool.and_eq_true, decide_eq_true_eq]
        subst_vars; exact ⟨⟨hk, hv⟩, h.2⟩
      · simp only [wfFrom, Bool.and_eq_true, decide_eq_true_eq]
        exact ⟨h.1, ih _ h.2 (by omega)⟩

theorem wfFrom_erase [DecidableEq α] (d : α) (m : SMap α) (lo k : Nat) (h : wfFrom d lo m = true) :
    wfFrom d lo (erase m k) = true := by
  induction m generalizing lo with
  | nil => rfl
  | cons p m ih =>
    obtain ⟨k', v'⟩ := p
    simp only [wfFrom, Bool.and_eq_true, decide_eq_true_eq] at h
    simp only [erase]
    split
    · exact ih lo (wfFrom_mono d m (k' + 1) lo h.2 (by omega))
    · simp only [wfFrom, Bool.and_eq_true, decide_eq_true_eq]; exact ⟨h.1, ih _ h.2⟩

/-- A write keeps the canonical form. -/
theorem wf_set [DecidableEq α] (d : α) (m : SMap α) (k : Nat) (v : α) (h : wf d m = true) : wf d (set d m k v) = true := by
  unfold set
  split
  · exact wfFrom_erase d m 0 k h
  · next hv => exact wfFrom_put d m 0 k v h (by omega) hv

theorem wfFrom_build [DecidableEq α] (d : α) (f : Nat → α) (lo k n : Nat) (h : lo ≤ k) : wfFrom d lo (build d f k n) = true := by
  induction n generalizing k lo with
  | zero => rfl
  | succ n ih =>
    simp only [build]
    split
    · exact ih lo (k + 1) (by omega)
    · next hv => simp only [wfFrom, Bool.and_eq_true, decide_eq_true_eq]; exact ⟨⟨h, hv⟩, ih (k + 1) (k + 1) (by omega)⟩

/-- A built map is canonical. -/
theorem wf_build [DecidableEq α] (d : α) (f : Nat → α) (k n : Nat) : wf d (build d f k n) = true :=
  wfFrom_build d f 0 k n (by omega)

end SMap
end Sys2Proof
end

