-- ==== Sys2Proof/Laws/Results.lean ====
section
/-! SUPPORT. What writing results does: one lemma for each shared operation of Machine/Operands.lean, and the lemma that every
instruction computing a value for each thread goes through (issueAlu_computed). -/

namespace Sys2Proof
namespace Machine

/-! ### Vector registers -/

/-- A sub-group list after at most a note of the old contents in one sub-group. -/
structure SubsNoted (g g' : Group) (n : Nat) : Prop where
  other : ∀ k, k ≠ n → g'.sub? k = g.sub? k
  own : ∀ u, g.sub? n = some u → ∃ h, g'.sub? n = some { u with hist := h }

theorem SubsNoted.refl (g : Group) (n : Nat) : SubsNoted g g n := ⟨fun _ _ => rfl, fun u h => ⟨u.hist, h⟩⟩

theorem SubsNoted.trans {a b c : Group} {n : Nat} (h : SubsNoted a b n) (h' : SubsNoted b c n) : SubsNoted a c n where
  other k hk := (h'.other k hk).trans (h.other k hk)
  own u hu := by
    obtain ⟨x, hx⟩ := h.own u hu
    obtain ⟨y, hy⟩ := h'.own _ hx
    exact ⟨y, hy⟩

/-- Writing some threads' units of one register: those threads read the new value, all else reads as before. -/
theorem putVec_spec (g : Group) (n r : Nat) (f : Nat → Option Word) :
    (∃ v s w m b, g.putVec n r f = { g with vregs := v, stale := s, awaited := w, vmarks := m, subs := b }) ∧
      (∀ q t, t < 32 * g.m → (g.putVec n r f).vcur q t = if q = r then (f t).getD (g.vcur r t) else g.vcur q t) ∧
      SubsNoted g (g.putVec n r f) n := by
  have key : ∀ (g' : Group), g'.vregs = g.vregs.set [] r (SMap.build 0 (fun t => match f t with
      | some v => v
      | none => SMap.get 0 (g.vregs.get [] r) t) 0 (32 * g.m)) →
      ∀ q t, t < 32 * g.m → g'.vcur q t = if q = r then (f t).getD (g.vcur r t) else g.vcur q t := by
    intro g' h q t ht
    simp only [Group.vcur, h, SMap.get_set]
    split
    · next hq =>
      subst hq
      rw [SMap.get_build]
      simp only [Nat.zero_le, Nat.zero_add, ht, and_self, if_true]
      cases f t <;> rfl
    · rfl
  unfold Group.putVec
  simp only
  split
  · exact ⟨⟨_, _, _, _, _, rfl⟩, key _ rfl, ⟨fun _ _ => rfl, fun u h => ⟨u.hist, h⟩⟩⟩
  · refine ⟨⟨_, _, _, _, _, rfl⟩, key _ rfl, ⟨fun k hk => ?_, fun u hu => ?_⟩⟩
    · exact (sub?_modSub_other _ n k _ (by intro _; rfl) hk).trans rfl
    · exact ⟨_, sub?_modSub_self _ n _ u (by intro _; rfl) hu⟩

/-- Writing a single register or a pair. -/
theorem putRegs_spec (g : Group) (n r : Nat) (wide : Bool) (f : Nat → Option Dword) :
    (∃ v s w m b, g.putRegs n r wide f = { g with vregs := v, stale := s, awaited := w, vmarks := m, subs := b }) ∧
      (∀ q t, t < 32 * g.m → (g.putRegs n r wide f).vcur q t =
        if q = r then ((f t).map fun v => BitVec.ofNat 32 (bits v 31 0)).getD (g.vcur r t)
        else if wide = true ∧ q = r + 1 then ((f t).map fun v => BitVec.ofNat 32 (bits v 63 32)).getD (g.vcur (r + 1) t)
        else g.vcur q t) ∧
      SubsNoted g (g.putRegs n r wide f) n := by
  unfold Group.putRegs
  simp only
  obtain ⟨⟨v, s, w, m, b, h1⟩, h2, h3⟩ := putVec_spec g n r fun t => (f t).map fun v => BitVec.ofNat 32 (bits v 31 0)
  cases wide
  · refine ⟨⟨v, s, w, m, b, by simpa using h1⟩, fun q t ht => ?_, by simpa using h3⟩
    simp only [Bool.false_eq_true, if_false, false_and]
    exact h2 q t ht
  · simp only [if_true, true_and]
    generalize hg : g.putVec n r (fun t => (f t).map fun v => BitVec.ofNat 32 (bits v 31 0)) = g1 at h1 h2 h3
    obtain ⟨⟨v', s', w', m', b', h1'⟩, h2', h3'⟩ := putVec_spec g1 n (r + 1) fun t => (f t).map fun v => BitVec.ofNat 32 (bits v 63 32)
    refine ⟨⟨v', s', w', m', b', by rw [h1', h1]⟩, fun q t ht => ?_, h3.trans h3'⟩
    have hm : g1.m = g.m := by rw [h1]
    rw [h2' q t (by rw [hm]; exact ht)]
    by_cases hq : q = r + 1
    · subst hq
      simp only [if_true]
      rw [if_neg (by omega), h2 (r + 1) t ht, if_neg (by omega)]
    · simp only [hq, if_false]
      exact h2 q t ht

/-! ### Flags -/

theorem foldl_or_get (ts : List Nat) (fl : Nat → Flags) (v : Nat → Dword) (m : SMap Flags) (t : Nat) (hn : ts.Nodup) :
    ((ts.map fun t => (⟨t, v t, fl t⟩ : Lane)).foldl (fun m k => m.set 0 k.t (m.get 0 k.t ||| k.fl)) m).get 0 t =
      m.get 0 t ||| if t ∈ ts then fl t else 0 := by
  induction ts generalizing m with
  | nil => simp
  | cons a ts ih =>
    rw [List.nodup_cons] at hn
    simp only [List.map_cons, List.foldl_cons]
    rw [ih _ hn.2, SMap.get_set]
    by_cases h : t = a
    · subst h; simp [hn.1]
    · simp [h]

/-- Flags that threads raise are added to their FPSR. -/
theorem raise_spec (g : Group) (ts : List Nat) (fl : Nat → Flags) (v : Nat → Dword) (hn : ts.Nodup) :
    ∃ F, g.raise (ts.map fun t => (⟨t, v t, fl t⟩ : Lane)) = { g with fpsr := F } ∧
      ∀ t, F.get 0 t = g.fpsr.get 0 t ||| if t ∈ ts then fl t else 0 := by
  unfold Group.raise
  split
  · next h =>
    refine ⟨g.fpsr, rfl, fun t => ?_⟩
    split
    · next ht =>
      have h0 : fl t = 0 := by
        simp only [List.all_eq_true, List.mem_map, forall_exists_index, and_imp, forall_apply_eq_imp_iff₂,
          decide_eq_true_eq] at h
        exact h t ht
      simp [h0]
    · simp
  · exact ⟨_, rfl, fun t => foldl_or_get ts fl v g.fpsr t hn⟩

theorem threads_nodup (c : Cx) (p : BitVec 4) : (c.threads p).Nodup := List.nodup_range.filter _

theorem mem_threads (c : Cx) (p : BitVec 4) (t : Nat) : t ∈ c.threads p ↔ t < 32 * c.g.m ∧ c.active p t = true := by
  simp [Cx.threads]

theorem active_lt (c : Cx) (p : BitVec 4) (t : Nat) (h : c.active p t = true) : t < 32 * c.g.m := by
  unfold Cx.active at h
  simp only [Bool.and_eq_true, decide_eq_true_eq] at h
  omega

theorem laneAt_map (ts : List Nat) (v : Nat → Dword) (fl : Nat → Flags) (t : Nat) :
    laneAt (ts.map fun t => (⟨t, v t, fl t⟩ : Lane)) t = if t ∈ ts then some (v t) else none := by
  unfold laneAt
  induction ts with
  | nil => simp
  | cons a ts ih =>
    simp only [List.map_cons, List.find?_cons]
    by_cases h : a = t
    · subst h; simp
    · have : (a == t) = false := by simpa using h
      rw [this]; simp only [ih, List.mem_cons]
      by_cases h' : t ∈ ts <;> simp [h', Ne.symm h]

/-! ### One result or one per thread -/

/-- The results as lanes. -/
def Cx.lanesOf (c : Cx) (x : Ext) (f : Nat → Dword × Flags) : List Lane :=
  (c.reach x).map fun t => ⟨t, (forThread x f t).1, (forThread x f t).2⟩

/-- The group and sub-group after the results are written, before the instruction retires. -/
structure WrittenIn (c : Cx) (x : Ext) (wide : Bool) (f : Nat → Dword × Flags) (g : Group) (u : SubGroup) : Prop where
  window : ∃ e : WinEntry, u.window = (e :: c.u.window).take 8 ∧ e.wide = wide ∧ e.uni = isUni x.d ∧
    ∀ t, t < 32 * c.g.m → e.vals.get 0 t =
      if isUni x.d then (f 0).1
      else if c.active x.p t then (f t).1
      else match operandOf x.d with
        | .vreg n => BitVec.ofNat 64 ((c.g.vcur n t).toNat + if wide then (c.g.vcur (n + 1) t).toNat * 2 ^ 32 else 0)
        | _ => 0
  vectors : ∀ r t, t < 32 * c.g.m → g.vcur r t =
    match operandOf x.d with
    | .vreg n =>
      if c.active x.p t && r == n then BitVec.ofNat 32 (bits (f t).1 31 0)
      else if c.active x.p t && wide && r == n + 1 then BitVec.ofNat 32 (bits (f t).1 63 32)
      else c.g.vcur r t
    | _ => c.g.vcur r t
  uniforms : ∀ r, u.ureg r =
    match operandOf x.d with
    | .ureg n =>
      if r = n then BitVec.ofNat 32 (bits (f 0).1 31 0)
      else if wide && r == n + 1 then BitVec.ofNat 32 (bits (f 0).1 63 32)
      else c.u.ureg r
    | _ => c.u.ureg r
  flags : ∀ t, g.fpsr.get 0 t = c.g.fpsr.get 0 t ||| if t ∈ c.reach x then (forThread x f t).2 else 0
  keptGroup : g = { c.g with vregs := g.vregs, stale := g.stale, awaited := g.awaited, vmarks := g.vmarks, fpsr := g.fpsr, subs := g.subs }
  keptSub : u = { c.u with window := u.window, uregs := u.uregs, umarks := u.umarks, hist := u.hist }
  keptSubs : ∀ n, n ≠ c.r.sub → g.sub? n = c.g.sub? n

theorem isUni_of_ureg {d : BitVec 9} {n : Nat} (h : operandOf d = .ureg n) : isUni d = true := by simp [isUni, h]
theorem isUni_of_vreg {d : BitVec 9} {n : Nat} (h : operandOf d = .vreg n) : isUni d = false := by simp [isUni, h]
theorem isUni_of_lit {d : BitVec 9} (h : operandOf d = .lit) : isUni d = false := by simp [isUni, h]

theorem putUregs_spec (u : SubGroup) (n : Nat) (wide : Bool) (v : Dword) :
    (∃ r m, u.putUregs n wide v = { u with uregs := r, umarks := m }) ∧
      ∀ k, (u.putUregs n wide v).ureg k =
        if k = n then BitVec.ofNat 32 (bits v 31 0)
        else if wide && k == n + 1 then BitVec.ofNat 32 (bits v 63 32) else u.ureg k := by
  unfold SubGroup.putUregs SubGroup.putU SubGroup.ureg
  cases wide
  · refine ⟨⟨_, _, rfl⟩, fun k => ?_⟩
    simp [SMap.get_set]
  · refine ⟨⟨_, _, rfl⟩, fun k => ?_⟩
    simp only [if_true, SMap.get_set, Bool.true_and, beq_iff_eq]
    by_cases h : k = n + 1
    · subst h; simp
    · simp [h]

/-- Writing one result for each thread. -/
theorem writeLanes_spec (c : Cx) (s : State) (x : Ext) (wide : Bool) (f : Nat → Dword × Flags)
    (_hg : s.group? c.r.grp = some c.g) (hu : c.g.sub? c.r.sub = some c.u)
    (hd : (∃ n, operandOf x.d = .vreg n) ∨ operandOf x.d = .lit) :
    ∃ F : Group → Group, (∀ g, (F g).id = g.id) ∧ c.writeLanes s x.d wide (c.lanesOf x f) = s.modGroup c.r.grp F ∧
      ∃ u, (F c.g).sub? c.r.sub = some u ∧ WrittenIn c x wide f (F c.g) u := by
  have hl : ∀ n, isUni x.d = n → n = false → c.lanesOf x f = (c.threads x.p).map fun t => (⟨t, (f t).1, (f t).2⟩ : Lane) := by
    intro n h h'
    subst h'
    simp [Cx.lanesOf, Cx.reach, forThread, h]
  rcases hd with ⟨n, hd⟩ | hd
  · have hn := isUni_of_vreg hd
    have hlanes := hl _ hn rfl
    have hat : ∀ t, laneAt (c.lanesOf x f) t = if t ∈ c.threads x.p then some (f t).1 else none := by
      intro t; rw [hlanes]; exact laneAt_map _ _ _ t
    obtain ⟨⟨v, st, w, mk, b, h1⟩, h2, h3⟩ := putRegs_spec c.g c.r.sub n wide (laneAt (c.lanesOf x f))
    obtain ⟨F, h4, h5⟩ := raise_spec (c.g.putRegs c.r.sub n wide (laneAt (c.lanesOf x f))) (c.threads x.p)
      (fun t => (f t).2) (fun t => (f t).1) (threads_nodup c x.p)
    obtain ⟨hist, h6⟩ := h3.own c.u hu
    refine ⟨fun g => ((g.putRegs c.r.sub n wide (laneAt (c.lanesOf x f))).raise (c.lanesOf x f)).modSub c.r.sub fun u => u.push
      ⟨wide, false, SMap.build 0 (fun t => match laneAt (c.lanesOf x f) t with
        | some v => v
        | none => BitVec.ofNat 64 ((c.g.vcur n t).toNat + if wide then (c.g.vcur (n + 1) t).toNat * 2 ^ 32 else 0)) 0 (32 * c.g.m)⟩,
      ?_, ?_, ?_⟩
    · intro g
      obtain ⟨⟨v, st, w, mk, b, h1⟩, -, -⟩ := putRegs_spec g c.r.sub n wide (laneAt (c.lanesOf x f))
      obtain ⟨F, h4, -⟩ := raise_spec (g.putRegs c.r.sub n wide (laneAt (c.lanesOf x f))) (c.threads x.p)
        (fun t => (f t).2) (fun t => (f t).1) (threads_nodup c x.p)
      show (Group.raise _ (c.lanesOf x f)).id = g.id
      rw [hlanes] at h4 ⊢; rw [h4]; show (Group.putRegs _ _ _ _ _).id = _; rw [← hlanes, h1]
    · unfold Cx.writeLanes; rw [hd] <;> rfl
    · simp only []
      rw [show (c.g.putRegs c.r.sub n wide (laneAt (c.lanesOf x f))).raise (c.lanesOf x f) = _ from
        (congrArg _ hlanes).trans h4]
      refine ⟨_, sub?_modSub_self _ c.r.sub _ { c.u with hist := hist } (by intro _; rfl) h6, ?_⟩
      refine ⟨⟨_, rfl, rfl, hn.symm, fun t ht => ?_⟩, fun r t ht => ?_, fun r => ?_, fun t => ?_, ?_, rfl, fun k hk => ?_⟩
      · rw [SMap.get_build]
        simp only [Nat.zero_le, Nat.zero_add, ht, and_self, if_true, hn, Bool.false_eq_true, if_false, hat, mem_threads,
          true_and, hd]
        by_cases ha : c.active x.p t = true <;> simp [ha]
      · show (c.g.putRegs c.r.sub n wide (laneAt (c.lanesOf x f))).vcur r t = _
        rw [h2 r t ht, hat]
        simp only [mem_threads, ht, true_and, hd]
        by_cases ha : c.active x.p t = true <;> by_cases hr : r = n <;> by_cases hr' : r = n + 1 <;> cases wide <;>
          simp_all
      · show c.u.ureg r = _
        simp only [hd]
      · show F.get 0 t = _
        rw [h5]
        have : (c.g.putRegs c.r.sub n wide (laneAt (c.lanesOf x f))).fpsr = c.g.fpsr := by rw [h1]
        rw [this]
        simp [Cx.reach, forThread, hn]
      · show Group.modSub _ _ _ = _
        unfold Group.modSub
        rw [h1]
      · rw [sub?_modSub_other _ c.r.sub k _ (by intro _; rfl) hk]
        exact h3.other k hk
  · have hn := isUni_of_lit hd
    have hlanes := hl _ hn rfl
    have hat : ∀ t, laneAt (c.lanesOf x f) t = if t ∈ c.threads x.p then some (f t).1 else none := by
      intro t; rw [hlanes]; exact laneAt_map _ _ _ t
    obtain ⟨F, h4, h5⟩ := raise_spec c.g (c.threads x.p) (fun t => (f t).2) (fun t => (f t).1) (threads_nodup c x.p)
    refine ⟨fun g => (g.raise (c.lanesOf x f)).modSub c.r.sub fun u => u.push
      { wide := wide, uni := false, vals := SMap.build 0 (fun t => (laneAt (c.lanesOf x f) t).getD 0) 0 (32 * c.g.m) }, ?_, ?_, ?_⟩
    · intro g
      obtain ⟨F, h4, -⟩ := raise_spec g (c.threads x.p) (fun t => (f t).2) (fun t => (f t).1) (threads_nodup c x.p)
      show (Group.raise _ (c.lanesOf x f)).id = g.id
      rw [hlanes, h4]
    · unfold Cx.writeLanes; rw [hd]
    · simp only []
      rw [show c.g.raise (c.lanesOf x f) = _ from (congrArg _ hlanes).trans h4]
      refine ⟨_, sub?_modSub_self _ c.r.sub _ c.u (by intro _; rfl) hu, ?_⟩
      refine ⟨⟨_, rfl, rfl, hn.symm, fun t ht => ?_⟩, fun r t ht => ?_, fun r => ?_, fun t => ?_, rfl, rfl, fun k hk => ?_⟩
      · rw [SMap.get_build]
        simp only [Nat.zero_le, Nat.zero_add, ht, and_self, if_true, hn, Bool.false_eq_true, if_false, hat, mem_threads,
          true_and, hd]
        by_cases ha : c.active x.p t = true <;> simp [ha]
      · show c.g.vcur r t = _
        simp only [hd]
      · show c.u.ureg r = _
        simp only [hd]
      · show F.get 0 t = _
        rw [h5]; simp [Cx.reach, forThread, hn]
      · exact (sub?_modSub_other _ c.r.sub k _ (by intro _; rfl) hk).trans rfl

/-- Writing the one result of a uniform destination. -/
theorem writeUni_spec (c : Cx) (s : State) (x : Ext) (wide : Bool) (f : Nat → Dword × Flags) (n : Nat)
    (hu : c.g.sub? c.r.sub = some c.u) (hd : operandOf x.d = .ureg n) :
    ∃ F : Group → Group, (∀ g, (F g).id = g.id) ∧ c.writeUni s n wide (f 0).1 (f 0).2 = s.modGroup c.r.grp F ∧
      ∃ u, (F c.g).sub? c.r.sub = some u ∧ WrittenIn c x wide f (F c.g) u := by
  have hn := isUni_of_ureg hd
  obtain ⟨F, h4, h5⟩ := raise_spec c.g c.unguarded (fun _ => (f 0).2) (fun _ => (f 0).1) (threads_nodup c 0)
  obtain ⟨⟨r, m, h6⟩, h7⟩ := putUregs_spec c.u n wide (f 0).1
  refine ⟨fun g => (g.raise (c.unguarded.map fun t => ⟨t, (f 0).1, (f 0).2⟩)).modSub c.r.sub fun u => (u.putUregs n wide (f 0).1).push
    { wide := wide, uni := true, vals := SMap.build 0 (fun _ => (f 0).1) 0 (32 * c.g.m) }, ?_, ?_, ?_⟩
  · intro g
    obtain ⟨F, h4, -⟩ := raise_spec g c.unguarded (fun _ => (f 0).2) (fun _ => (f 0).1) (threads_nodup c 0)
    show (Group.raise _ _).id = g.id
    rw [h4]
  · rfl
  · simp only []
    rw [h4]
    refine ⟨_, sub?_modSub_self _ c.r.sub _ c.u (fun u => ?_) hu, ?_⟩
    · obtain ⟨⟨r, m, h6⟩, -⟩ := putUregs_spec u n wide (f 0).1
      show (SubGroup.putUregs _ _ _ _).num = u.num
      rw [h6]
    refine ⟨⟨{ wide := wide, uni := true, vals := SMap.build 0 (fun _ => (f 0).1) 0 (32 * c.g.m) }, ?_, rfl, hn.symm, fun t ht => ?_⟩,
      fun r t ht => ?_, fun r => ?_, fun t => ?_, rfl, ?_, fun k hk => ?_⟩
    · show (_ :: (c.u.putUregs n wide (f 0).1).window).take 8 = _
      rw [h6]
    · rw [SMap.get_build]
      simp only [Nat.zero_le, Nat.zero_add, ht, and_self, if_true, hn]
    · show c.g.vcur r t = _
      simp only [hd]
    · show (c.u.putUregs n wide (f 0).1).ureg r = _
      simp only [hd]; exact h7 r
    · show F.get 0 t = _
      rw [h5]; simp [Cx.reach, forThread, hn]
    · show SubGroup.push (c.u.putUregs n wide (f 0).1) _ = _
      rw [h6]; rfl
    · refine (sub?_modSub_other _ c.r.sub k _ (fun u => ?_) hk).trans rfl
      obtain ⟨⟨r, m, h6⟩, -⟩ := putUregs_spec u n wide (f 0).1
      show (SubGroup.putUregs _ _ _ _).num = u.num
      rw [h6]

/-- Does a result trap? -/
theorem fpTrap_none (c : Cx) (x : Ext) (f : Nat → Dword × Flags) :
    (fpTrap c.te (c.lanesOf x f) = none ↔ c.trapsOn x f = false) := by
  unfold fpTrap Cx.trapsOn Cx.lanesOf
  simp only [List.filter_map, List.isEmpty_map, Function.comp_def]
  split
  · next h =>
    simp only [true_iff]
    rw [List.any_eq_false]
    intro t ht
    simp only [List.isEmpty_iff, List.filter_eq_nil_iff] at h
    simpa using h t ht
  · next h =>
    simp only [reduceCtorEq, false_iff, Bool.not_eq_false]
    rw [List.isEmpty_iff, List.filter_eq_nil_iff, Classical.not_forall] at h
    obtain ⟨t, h⟩ := h
    rw [Classical.not_imp] at h
    rw [List.any_eq_true]
    exact ⟨t, h.1, by simpa using h.2⟩

/-- Every result goes through one of the two: one change of the issuing group, then the trap of R137 if there is one. -/
theorem result_spec (c : Cx) (s : State) (x : Ext) (wide : Bool) (f : Nat → Dword × Flags)
    (hg : s.group? c.r.grp = some c.g) (hu : c.g.sub? c.r.sub = some c.u)
    (hd : ((∃ n, operandOf x.d = .vreg n) ∨ (∃ n, operandOf x.d = .ureg n)) ∨ operandOf x.d = .lit) :
    ∃ F : Group → Group, (∀ g, (F g).id = g.id) ∧
      c.result s x wide f = resOf (s.modGroup c.r.grp F) (fpTrap c.te (c.lanesOf x f)) ∧
      ∃ u, (F c.g).sub? c.r.sub = some u ∧ WrittenIn c x wide f (F c.g) u := by
  have other : (∃ n, operandOf x.d = .vreg n) ∨ operandOf x.d = .lit → ∃ F : Group → Group, (∀ g, (F g).id = g.id) ∧
      c.result s x wide f = resOf (s.modGroup c.r.grp F) (fpTrap c.te (c.lanesOf x f)) ∧
      ∃ u, (F c.g).sub? c.r.sub = some u ∧ WrittenIn c x wide f (F c.g) u := by
    intro hd
    obtain ⟨F, h1, h2, h3⟩ := writeLanes_spec c s x wide f hg hu hd
    refine ⟨F, h1, ?_, h3⟩
    have hn : isUni x.d = false := by
      rcases hd with ⟨n, hd⟩ | hd
      · exact isUni_of_vreg hd
      · exact isUni_of_lit hd
    have hl : c.lanesOf x f = (c.threads x.p).map fun t => (⟨t, (f t).1, (f t).2⟩ : Lane) := by
      simp [Cx.lanesOf, Cx.reach, forThread, hn]
    rw [← h2, hl]
    unfold Cx.result
    rcases hd with ⟨n, hd⟩ | hd <;> rw [hd]
  rcases hd with (hd | ⟨n, hd⟩) | hd
  · exact other (Or.inl hd)
  · obtain ⟨F, h1, h2, h3⟩ := writeUni_spec c s x wide f n hu hd
    refine ⟨F, h1, ?_, h3⟩
    have hl : c.lanesOf x f = c.unguarded.map fun t => (⟨t, (f 0).1, (f 0).2⟩ : Lane) := by
      simp [Cx.lanesOf, Cx.reach, forThread, isUni_of_ureg hd]
    rw [← h2, hl]
    unfold Cx.result
    rw [hd]
  · exact other (Or.inr hd)

/-! ### Issuing -/

/-- A destination that the encoding admits is a vector register, a uniform register or the window alone. -/
theorem dest_of_encoding (x : Ext) (f : Form) (h : formFails x f = []) {w v u n : Bool} (hd : f.dest = .reg w v u n) :
    ((∃ n, operandOf x.d = .vreg n) ∨ (∃ n, operandOf x.d = .ureg n)) ∨ operandOf x.d = .lit := by
  unfold formFails at h
  simp only [List.append_eq_nil_iff, hd] at h
  have h7 := h.1.1.1.1.1.1.2
  revert h7
  cases operandOf x.d <;> simp

/-- An instruction that is ready runs its effect. -/
theorem issueExt_ready (s : State) (c : Cx) (words : Nat) (x : Ext) (f : Form) (dyn : Cx → List Nat) (eff : Cx → State → Res)
    (who : Cx → List Nat) (h : Ready s c x f (who c)) (hdyn : dyn c = []) :
    s.issueExt words x f dyn eff who = .next (finish s.tick c words none (eff c s.tick)) := by
  unfold State.issueExt State.issue
  simp only [h.issuer, h.encoding, h.launch, hdyn, h.marks, h.free, h.awaits, Bool.or_false, List.append_nil, Bool.false_eq_true, if_false]

theorem stopLaunch_group? (s : State) (l a b i j : Nat) : (s.stopLaunch l a b i).group? j = s.group? j := rfl

/-- A trap changes groups and launches only. -/
theorem takeTrap_rest (k s : State) (st : Nat) (g : Group) (r : SubRef) (t : TrapReq) (pc : Dword) (n : Nat) (b : Bool)
    (h : k = { s with groups := k.groups, stamp := st }) :
    k.takeTrap g r t pc n b =
      { s with groups := (k.takeTrap g r t pc n b).groups, launches := (k.takeTrap g r t pc n b).launches, stamp := st } := by
  have : ∀ k : State, k.takeTrap g r t pc n b =
      { k with groups := (k.takeTrap g r t pc n b).groups, launches := (k.takeTrap g r t pc n b).launches } := fun _ => rfl
  rw [this k]
  generalize (k.takeTrap g r t pc n b).groups = G
  generalize (k.takeTrap g r t pc n b).launches = L
  rw [h]

/-- The lemma that every instruction computing a value for each thread goes through. -/
theorem issueAlu_computed (s : State) (c : Cx) (words : Nat) (x : Ext) (fm : Form) (eff : Cx → State → Res) (wide : Bool)
    (f : Nat → Dword × Flags) (h : Ready s c x fm) {w v u n : Bool} (hd : fm.dest = .reg w v u n)
    (he : eff c s.tick = c.result s.tick x wide f) :
    ∃ t, s.issueAlu words x fm eff = .next t ∧ Computed s t c x words wide f := by
  obtain ⟨hg, hu, -⟩ := issuer_some s c h.issuer
  have hg' : s.tick.group? c.r.grp = some c.g := hg
  obtain ⟨F, hid, hres, u, hsub, hw⟩ := result_spec c s.tick x wide f hg' hu (dest_of_encoding x fm h.encoding hd)
  refine ⟨_, issueExt_ready s c words x fm _ eff _ h rfl, ?_⟩
  rw [he, hres]
  -- the group and the sub-group once the instruction has retired
  have hst : c.stamp = s.stamp := (issuer_some s c h.issuer).2.2.2.2.1
  have hret : ∀ k : State, k.stamp = s.stamp + 1 → k.group? c.r.grp = some (F c.g) → (k.retire c.r words).group? c.r.grp = some ((F c.g).modSub c.r.sub
      fun u => { u with pc := u.pc + BitVec.ofNat 64 (4 * words), ndone := u.ndone + 1, yielded := false, issued := s.stamp + 1 }) := by
    intro k hs hk
    rw [← hs]
    exact group?_modGroup_self k c.r.grp _ (F c.g) (by intro _; rfl) hk
  have h1 : (s.tick.modGroup c.r.grp F).group? c.r.grp = some (F c.g) := group?_modGroup_self _ _ F _ hid hg'
  have h2 := hret _ rfl h1
  have h3 : ((F c.g).modSub c.r.sub fun u =>
        { u with pc := u.pc + BitVec.ofNat 64 (4 * words), ndone := u.ndone + 1, yielded := false, issued := s.stamp + 1 }).sub? c.r.sub =
      some { u with pc := u.pc + BitVec.ofNat 64 (4 * words), ndone := u.ndone + 1, yielded := false, issued := s.stamp + 1 } :=
    sub?_modSub_self _ _ _ u (by intro _; rfl) hsub
  have ho : ∀ id, id ≠ c.r.grp → ((s.tick.modGroup c.r.grp F).retire c.r words).group? id = s.group? id := by
    intro id hne
    refine (group?_modGroup_other _ c.r.grp id _ (by intro _; rfl) hne).trans ?_
    exact group?_modGroup_other s.tick c.r.grp id F hid hne
  have hrun := issuer_running s c h.issuer
  cases hft : fpTrap c.te (c.lanesOf x f) with
  | none =>
    have hno := (fpTrap_none c x f).1 hft
    refine ⟨rfl, fun _ => rfl, ho, _, _, h2, h3, ?_⟩
    constructor
    · show u.pc + _ = _; rw [hw.keptSub]
    · show u.ndone + 1 = _; rw [hw.keptSub]
    · show u.phase = _; rw [hw.keptSub, hno]; exact hrun
    · exact hw.window
    · exact hw.vectors
    · exact hw.uniforms
    · exact hw.flags
    · show Group.modSub _ _ _ = _; unfold Group.modSub; rw [hw.keptGroup]
    · show SubGroup.mk _ _ _ _ _ _ _ _ _ _ _ _ _ _ _ _ _ _ _ _ _ _ _ = _; rw [hw.keptSub, hst]
    · intro k hk
      exact (sub?_modSub_other _ c.r.sub k _ (by intro _; rfl) hk).trans (hw.keptSubs k hk)
    · intro _
      refine ⟨?_, ?_⟩
      · show (F c.g).trap = _; rw [hw.keptGroup]
      · show (F c.g).trapFlags = _; rw [hw.keptGroup]
  | some tr =>
    have hyes : c.trapsOn x f = true := by
      cases hb : c.trapsOn x f with
      | true => rfl
      | false => rw [(fpTrap_none c x f).2 hb] at hft; cases hft
    simp only [resOf, finish]
    have hk : (s.tick.modGroup c.r.grp F).retire c.r words =
        { s with groups := ((s.tick.modGroup c.r.grp F).retire c.r words).groups, stamp := s.stamp + 1 } := rfl
    generalize (s.tick.modGroup c.r.grp F).retire c.r words = k at hk h2 ho
    refine ⟨takeTrap_rest k s (s.stamp + 1) _ _ _ _ _ _ hk, fun hf => (Bool.noConfusion (hyes.symm.trans hf)), fun id hne => ?_, ?_⟩
    · refine Eq.trans ?_ (ho id hne)
      exact group?_modGroup_other _ c.r.grp id _ (by intro _; rfl) hne
    · refine ⟨_, _, group?_modGroup_self _ c.r.grp _ _ (by intro _; rfl) h2,
        sub?_modSub_self _ c.r.sub _ _ (by intro _; rfl) h3, ?_⟩
      constructor
      · show u.pc + _ = _; rw [hw.keptSub]
      · show u.ndone + 1 = _; rw [hw.keptSub]
      · rw [hyes]; rfl
      · exact hw.window
      · exact hw.vectors
      · exact hw.uniforms
      · exact hw.flags
      · show Group.modSub _ _ _ = _; unfold Group.modSub; rw [hw.keptGroup]
      · show SubGroup.mk _ _ _ _ _ _ _ _ _ _ _ _ _ _ _ _ _ _ _ _ _ _ _ = _; rw [hw.keptSub, hst]
      · intro k hk
        refine (sub?_modSub_other _ c.r.sub k _ (by intro _; rfl) hk).trans ?_
        exact (sub?_modSub_other _ c.r.sub k _ (by intro _; rfl) hk).trans (hw.keptSubs k hk)
      · intro hf; rw [hyes] at hf; cases hf

/-! ### Predicates -/

theorem predKey (m m' k j : Nat) (hk : k < 16) (hj : j < 16) : 16 * m + k = 16 * m' + j ↔ m = m' ∧ k = j := by omega

theorem bit_or (w : Word) (i j : Nat) (hi : i < 32) :
    (w ||| BitVec.ofNat 32 (2 ^ i)).getLsbD j = (w.getLsbD j || decide (j = i)) := by
  rw [BitVec.getLsbD_or]
  congr 1
  rw [BitVec.getLsbD_ofNat, Nat.testBit_two_pow]
  by_cases h : i = j
  · subst h; simp [hi]
  · simp [h, Ne.symm h]

theorem bit_clear (w : Word) (i j : Nat) (hi : i < 32) (hj : j < 32) :
    (w &&& ~~~(BitVec.ofNat 32 (2 ^ i))).getLsbD j = (w.getLsbD j && !decide (j = i)) := by
  rw [BitVec.getLsbD_and, BitVec.getLsbD_not, BitVec.getLsbD_ofNat, Nat.testBit_two_pow]
  by_cases h : i = j
  · subst h; simp [hi]
  · simp [h, Ne.symm h, hj]

theorem putPred_fold (k : Nat) (l : List (Nat × Bool)) (p : SMap Word) (hk : k < 16) (hn : (l.map fun v => v.1).Nodup)
    (t j : Nat) (hj : j < 16) :
    ((l.foldl (fun p (tv : Nat × Bool) =>
      p.set 0 (16 * (tv.1 / 32) + k)
        (if tv.2 then p.get 0 (16 * (tv.1 / 32) + k) ||| BitVec.ofNat 32 (2 ^ (tv.1 % 32))
         else p.get 0 (16 * (tv.1 / 32) + k) &&& ~~~(BitVec.ofNat 32 (2 ^ (tv.1 % 32))))) p).get 0 (16 * (t / 32) + j)).getLsbD (t % 32) =
      if j = k then ((l.find? fun v => v.1 == t).map fun v => v.2).getD ((p.get 0 (16 * (t / 32) + j)).getLsbD (t % 32))
      else (p.get 0 (16 * (t / 32) + j)).getLsbD (t % 32) := by
  induction l generalizing p with
  | nil => simp
  | cons a l ih =>
    obtain ⟨u, b⟩ := a
    rw [List.map_cons, List.nodup_cons] at hn
    rw [List.foldl_cons, ih _ hn.2]
    simp only [SMap.get_set, predKey _ _ _ _ hj hk]
    by_cases hjk : j = k
    · subst hjk
      simp only [if_true, and_true, List.find?_cons]
      by_cases hu : u = t
      · subst hu
        have : (l.find? fun v => v.1 == u) = none := by
          rw [List.find?_eq_none]
          intro v hv
          have : v.1 ≠ u := fun h => hn.1 (List.mem_map.2 ⟨v, hv, h⟩)
          simpa using this
        simp only [this, Option.map_none, Option.getD_none, beq_self_eq_true, Option.map_some, Option.getD_some, if_true]
        have hm : u % 32 < 32 := Nat.mod_lt _ (by decide)
        cases b
        · simp only [Bool.false_eq_true, if_false]; rw [bit_clear _ _ _ hm hm]; simp
        · simp only [if_true]; rw [bit_or _ _ _ hm]; simp
      · have hne : (u == t) = false := by simpa using hu
        simp only [hne]
        congr 1
        by_cases hm : t / 32 = u / 32
        · simp only [hm, if_true]
          have hm' : u % 32 < 32 := Nat.mod_lt _ (by decide)
          have hm'' : t % 32 < 32 := Nat.mod_lt _ (by decide)
          have : t % 32 ≠ u % 32 := by omega
          cases b
          · simp only [Bool.false_eq_true, if_false]; rw [bit_clear _ _ _ hm' hm'']; simp [this]
          · simp only [if_true]; rw [bit_or _ _ _ hm']; simp [this]
        · simp [hm]
    · simp [hjk]

/-- Writing a predicate in some threads: those threads' bits of it, and nothing else. -/
theorem putPred_spec (g : Group) (k : Nat) (l : List (Nat × Bool)) (hk : k < 16) (hn : (l.map fun v => v.1).Nodup) :
    (∃ p, g.putPred k l = { g with preds := p }) ∧ ∀ t j, j < 16 → (g.putPred k l).predBit t j =
      if j = k ∧ k ≠ 0 then ((l.find? fun v => v.1 == t).map fun v => v.2).getD (g.predBit t j) else g.predBit t j := by
  unfold Group.putPred
  by_cases h0 : k = 0
  · simp only [h0, if_true, ne_eq, not_true_eq_false, and_false, if_false, implies_true, and_true]
    exact ⟨g.preds, rfl⟩
  · simp only [h0, if_false, ne_eq, not_false_eq_true, and_true]
    refine ⟨⟨_, rfl⟩, fun t j hj => ?_⟩
    unfold Group.predBit Group.predOf
    by_cases hj0 : j = 0
    · subst hj0
      simp only [if_true]
      rw [if_neg (by omega)]
    · simp only [hj0, if_false]
      exact putPred_fold k l g.preds hk hn t j hj

theorem find_map_fst {α β : Type} (ts : List Nat) (v : Nat → α) (g : Nat × α → β) (t : Nat) :
    (((ts.map fun t => (t, v t)).find? fun p => p.1 == t).map g) = if t ∈ ts then some (g (t, v t)) else none := by
  induction ts with
  | nil => simp
  | cons a ts ih =>
    simp only [List.map_cons, List.find?_cons]
    by_cases h : a = t
    · subst h; simp
    · have : (a == t) = false := by simpa using h
      rw [this]; simp only [ih, List.mem_cons]
      by_cases h' : t ∈ ts <;> simp [h', Ne.symm h]

/-- Judgements go through one change of the issuing group, then the trap of R137 if there is one. -/
theorem predResult_spec (c : Cx) (s : State) (p : BitVec 4) (k : Nat) (f : Nat → Bool × Flags) (hk : k < 16) :
    ∃ F : Group → Group, ∃ tr : Option TrapReq,
      c.predResult s k p f = resOf (s.modGroup c.r.grp F) tr ∧
      (tr = none ↔ ((c.threads p).any fun t => decide ((f t).2 &&& c.te ≠ 0)) = false) ∧
      (∀ g, ∃ P m, F g = { g with preds := P, fpsr := m }) ∧
      (∀ t j, j < 16 → (F c.g).predBit t j = if c.active p t && j == k && k != 0 then (f t).1 else c.g.predBit t j) ∧
      (∀ t, (F c.g).fpsr.get 0 t = c.g.fpsr.get 0 t ||| if c.active p t then (f t).2 else 0) := by
  have hl : ((c.threads p).map fun t => (t, f t)).map (fun r => (⟨r.1, 0, r.2.2⟩ : Lane)) =
      (c.threads p).map fun t => (⟨t, 0, (f t).2⟩ : Lane) := by simp [Function.comp_def]
  have hp : ((c.threads p).map fun t => (t, f t)).map (fun r => (r.1, r.2.1)) =
      (c.threads p).map fun t => (t, (f t).1) := by simp [Function.comp_def]
  have hnd : (((c.threads p).map fun t => (t, (f t).1)).map fun v => v.1).Nodup := by
    simpa [Function.comp_def] using threads_nodup c p
  have hF : ∀ g : Group, ∃ P m, (g.putPred k ((c.threads p).map fun t => (t, (f t).1))).raise
      ((c.threads p).map fun t => (⟨t, 0, (f t).2⟩ : Lane)) = { g with preds := P, fpsr := m } ∧
      (g.putPred k ((c.threads p).map fun t => (t, (f t).1))) = { g with preds := P } ∧
      ∀ t, m.get 0 t = g.fpsr.get 0 t ||| if t ∈ c.threads p then (f t).2 else 0 := by
    intro g
    obtain ⟨⟨P, h1⟩, -⟩ := putPred_spec g k _ hk hnd
    obtain ⟨m, h3, h4⟩ := raise_spec (g.putPred k ((c.threads p).map fun t => (t, (f t).1))) (c.threads p) (fun t => (f t).2)
      (fun _ => 0) (threads_nodup c p)
    refine ⟨P, m, by rw [h3, h1], h1, fun t => ?_⟩
    rw [h4, h1]
  refine ⟨fun g => (g.putPred k ((c.threads p).map fun t => (t, (f t).1))).raise
    ((c.threads p).map fun t => (⟨t, 0, (f t).2⟩ : Lane)), fpTrap c.te ((c.threads p).map fun t => (⟨t, 0, (f t).2⟩ : Lane)),
    ?_, ?_, fun g => ?_, fun t j hj => ?_, fun t => ?_⟩
  · unfold Cx.predResult
    simp only [hl, hp]
  · unfold fpTrap
    simp only [List.filter_map, List.isEmpty_map, Function.comp_def]
    split
    · next h =>
      simp only [true_iff]
      rw [List.any_eq_false]
      intro t ht
      simp only [List.isEmpty_iff, List.filter_eq_nil_iff] at h
      simpa using h t ht
    · next h =>
      simp only [reduceCtorEq, false_iff, Bool.not_eq_false]
      rw [List.isEmpty_iff, List.filter_eq_nil_iff, Classical.not_forall] at h
      obtain ⟨t, h⟩ := h
      rw [Classical.not_imp] at h
      rw [List.any_eq_true]
      exact ⟨t, h.1, by simpa using h.2⟩
  · obtain ⟨P, m, h, -⟩ := hF g
    exact ⟨P, m, h⟩
  · obtain ⟨P, m, h, h', -⟩ := hF c.g
    have h2 := (putPred_spec c.g k _ hk hnd).2 t j hj
    rw [h'] at h2
    simp only [h]
    refine Eq.trans (Eq.trans rfl h2) ?_
    rw [find_map_fst]
    by_cases hm : t ∈ c.threads p
    · have ha := ((mem_threads c p t).1 hm).2
      by_cases hjk : j = k <;> by_cases h0 : k = 0 <;> simp [hm, ha, hjk, h0]
    · have ha : c.active p t = false := by
        cases hb : c.active p t with
        | false => rfl
        | true => exact absurd ((mem_threads c p t).2 ⟨active_lt c p t hb, hb⟩) hm
      simp [hm, ha]
  · obtain ⟨P, m, h, -, hm⟩ := hF c.g
    simp only [h, hm]
    congr 1
    by_cases hb : c.active p t = true
    · simp [hb, (mem_threads c p t).2 ⟨active_lt c p t hb, hb⟩]
    · have : t ∉ c.threads p := fun hm => hb ((mem_threads c p t).1 hm).2
      simp [hb, this]

/-- The lemma that every instruction writing a predicate goes through. -/
theorem issueAlu_judged (s : State) (c : Cx) (words : Nat) (x : Ext) (fm : Form) (eff : Cx → State → Res) (k : Nat)
    (f : Nat → Bool × Flags) (h : Ready s c x fm) (hk : k < 16) (he : eff c s.tick = c.predResult s.tick k x.p f) (i : Instr)
    (hi : exec i s = s.issueAlu words x fm eff) : Judges s i c x words k f := by
  obtain ⟨hg, hu, -⟩ := issuer_some s c h.issuer
  have hg' : s.tick.group? c.r.grp = some c.g := hg
  have hst : c.stamp = s.stamp := (issuer_some s c h.issuer).2.2.2.2.1
  obtain ⟨F, tr, hres, htrap, hF, hpreds, hflags⟩ := predResult_spec c s.tick x.p k f hk
  have hid : ∀ g, (F g).id = g.id := fun g => by obtain ⟨p, m, h1⟩ := hF g; rw [h1]
  obtain ⟨P, m, hF1⟩ := hF c.g
  have hsub : (F c.g).sub? c.r.sub = some c.u := by rw [hF1]; exact hu
  refine ⟨_, hi.trans (issueExt_ready s c words x fm _ eff _ h rfl), ?_⟩
  rw [he, hres, show finish s.tick c words none (resOf (s.tick.modGroup c.r.grp F) tr) = Option.elim tr
    ((s.tick.modGroup c.r.grp F).retire c.r words)
    (fun t => ((s.tick.modGroup c.r.grp F).retire c.r words).takeTrap c.g c.r t c.u.pc c.u.ndone true) by cases tr <;> rfl]
  have h1 : (s.tick.modGroup c.r.grp F).group? c.r.grp = some (F c.g) := group?_modGroup_self _ _ F _ hid hg'
  have h2 : ((s.tick.modGroup c.r.grp F).retire c.r words).group? c.r.grp = some ((F c.g).modSub c.r.sub
      fun u => { u with pc := u.pc + BitVec.ofNat 64 (4 * words), ndone := u.ndone + 1, yielded := false, issued := s.stamp + 1 }) :=
    group?_modGroup_self _ c.r.grp _ (F c.g) (by intro _; rfl) h1
  have h3 : ((F c.g).modSub c.r.sub fun u =>
        { u with pc := u.pc + BitVec.ofNat 64 (4 * words), ndone := u.ndone + 1, yielded := false, issued := s.stamp + 1 }).sub? c.r.sub =
      some { c.u with pc := c.u.pc + BitVec.ofNat 64 (4 * words), ndone := c.u.ndone + 1, yielded := false, issued := s.stamp + 1 } :=
    sub?_modSub_self _ _ _ c.u (by intro _; rfl) hsub
  have ho : ∀ id, id ≠ c.r.grp → ((s.tick.modGroup c.r.grp F).retire c.r words).group? id = s.group? id := by
    intro id hne
    refine (group?_modGroup_other _ c.r.grp id _ (by intro _; rfl) hne).trans ?_
    exact group?_modGroup_other s.tick c.r.grp id F hid hne
  have hrun := issuer_running s c h.issuer
  have hrest : (s.tick.modGroup c.r.grp F).retire c.r words =
      { s with groups := ((s.tick.modGroup c.r.grp F).retire c.r words).groups, stamp := s.stamp + 1 } := rfl
  have hlaunch : ((s.tick.modGroup c.r.grp F).retire c.r words).launches = s.launches := rfl
  have hkeep : ∀ n, n ≠ c.r.sub → (F c.g).sub? n = c.g.sub? n := by intro n _; rw [hF1]; rfl
  have htr : (F c.g).trap = c.g.trap ∧ (F c.g).trapFlags = c.g.trapFlags := by rw [hF1]; exact ⟨rfl, rfl⟩
  clear hres he hid hsub h1
  generalize (s.tick.modGroup c.r.grp F).retire c.r words = k' at *
  clear hF
  cases tr with
  | none =>
    have hno := htrap.1 rfl
    simp only [Option.elim_none]
    refine ⟨by rw [hlaunch]; exact hrest, fun _ => hlaunch, ho, _, _, h2, h3, ?_⟩
    constructor
    · rfl
    · rfl
    · show c.u.phase = _; rw [hno]; exact hrun
    · exact hpreds
    · exact hflags
    · show Group.modSub _ _ _ = _; unfold Group.modSub; rw [hF1]
    · rw [hst]
    · intro k hk
      exact (sub?_modSub_other _ c.r.sub k _ (by intro _; rfl) hk).trans (hkeep k hk)
    · intro _; exact htr
  | some tr =>
    have hyes : ((c.threads x.p).any fun t => decide ((f t).2 &&& c.te ≠ 0)) = true := by
      cases hb : (c.threads x.p).any fun t => decide ((f t).2 &&& c.te ≠ 0) with
      | true => rfl
      | false => exact absurd (htrap.2 hb) (by simp)
    simp only [Option.elim_some]
    refine ⟨takeTrap_rest k' s (s.stamp + 1) _ _ _ _ _ _ hrest, fun hf => (Bool.noConfusion (hyes.symm.trans hf)),
      fun id hne => ?_, ?_⟩
    · refine Eq.trans ?_ (ho id hne)
      exact group?_modGroup_other _ c.r.grp id _ (by intro _; rfl) hne
    · refine ⟨_, _, group?_modGroup_self _ c.r.grp _ _ (by intro _; rfl) h2,
        sub?_modSub_self _ c.r.sub _ _ (by intro _; rfl) h3, ?_⟩
      constructor
      · rfl
      · rfl
      · rw [hyes]; rfl
      · exact hpreds
      · exact hflags
      · show Group.modSub _ _ _ = _; unfold Group.modSub; rw [hF1]
      · rw [hst]
      · intro k hk
        refine (sub?_modSub_other _ c.r.sub k _ (by intro _; rfl) hk).trans ?_
        exact (sub?_modSub_other _ c.r.sub k _ (by intro _; rfl) hk).trans (hkeep k hk)
      · intro hf; exact Bool.noConfusion (hyes.symm.trans hf)

end Machine
end Sys2Proof
end

