-- ==== Sys2Proof/Laws/Integer.lean ====
section
/-! SUPPORT. From the effect of an integer instruction to what its statement says: patterns of integers, widths of operands, bits. -/

namespace Sys2Proof
namespace Machine

/-- An instruction that computes flag-free values completes with them. -/
theorem computesInt_of (s : State) (i : Instr) (c : Cx) (x : Ext) (fm : Form) (eff : Cx → State → Res) (words : Nat) (wide : Bool)
    (P : Nat → Dword → Prop) (v : Nat → Dword) (hr : Ready s c x fm) {w ve un ni : Bool} (hd : fm.dest = .reg w ve un ni)
    (hi : exec i s = s.issueAlu words x fm eff) (he : eff c s.tick = c.result s.tick x wide fun t => (v t, 0))
    (hv : ∀ t, P t (v t)) : ComputesInt s i c x words wide P := by
  obtain ⟨t, h1, h2⟩ := issueAlu_computed s c words x fm eff wide _ hr hd he
  exact ⟨v, ⟨t, hi.trans h1, h2⟩, hv⟩

/-! ### Patterns -/

theorem two_pow_pos (w : Nat) : 0 < 2 ^ w := Nat.two_pow_pos w

theorem pat_toNat (w : Nat) (hw : w ≤ 64) (v : Int) : ((pat w v).toNat : Int) = v % ((2 ^ w : Nat) : Int) := by
  have h0 : (0 : Int) ≤ v % ((2 ^ w : Nat) : Int) := Int.emod_nonneg _ (by have := two_pow_pos w; omega)
  have h1 : v % ((2 ^ w : Nat) : Int) < ((2 ^ w : Nat) : Int) := Int.emod_lt_of_pos _ (by have := two_pow_pos w; omega)
  have h2 : (2 : Nat) ^ w ≤ 2 ^ 64 := Nat.pow_le_pow_right (by decide) hw
  unfold pat lo
  rw [BitVec.toNat_ofNat, Nat.mod_eq_of_lt (by omega)]
  omega

/-- A pattern stands for its integer. -/
theorem wraps_pat (w : Nat) (hw : w ≤ 64) (v : Int) : Wraps w v (pat w v) := by
  have h := pat_toNat w hw v
  have h1 : v % ((2 ^ w : Nat) : Int) < ((2 ^ w : Nat) : Int) := Int.emod_lt_of_pos _ (by have := two_pow_pos w; omega)
  refine ⟨by omega, ?_⟩
  rw [h]
  simp [Int.sub_emod]

theorem width_le (t : DType) : t.width ≤ 64 := by cases t <;> decide
theorem width_pos (t : DType) : 0 < t.width := by cases t <;> decide

theorem minOf_eq (t : DType) : minOf t = leastOf t := by cases t <;> decide
theorem maxOf_eq (t : DType) : maxOf t = greatestOf t := by cases t <;> decide
theorem clampTo_eq (t : DType) (v : Int) : clampTo t v = clampInto t v := by
  unfold clampTo clampInto; rw [minOf_eq, maxOf_eq]

theorem wraps_intResult (t : DType) (b : Bool) (v : Int) : Wraps t.width (if b then clampInto t v else v) (intResult t b v) := by
  unfold intResult; rw [clampTo_eq]; exact wraps_pat _ (width_le t) _

/-! ### Base forms (R48 02_encoding.md) -/

theorem one_words (b : Base) : b.one.words = 3 := rfl

end Machine
end Sys2Proof
end

