-- ==== Sys2Proof/Laws/State.lean ====
section
/-! SUPPORT. The fields of the state after each of its updates, for simp: the field that an update changes, and the others as they were. -/

namespace Sys2Proof
namespace Machine

/-! ### State.tick -/

@[simp] theorem tick_stamp (s : State) : s.tick.stamp = s.stamp + 1 := rfl
@[simp] theorem tick_mem (s : State) : s.tick.mem = s.mem := rfl
@[simp] theorem tick_lineMarks (s : State) : s.tick.lineMarks = s.lineMarks := rfl
@[simp] theorem tick_l1 (s : State) : s.tick.l1 = s.l1 := rfl
@[simp] theorem tick_epochs (s : State) : s.tick.epochs = s.epochs := rfl
@[simp] theorem tick_guests (s : State) : s.tick.guests = s.guests := rfl
@[simp] theorem tick_dirs (s : State) : s.tick.dirs = s.dirs := rfl
@[simp] theorem tick_writes (s : State) : s.tick.writes = s.writes := rfl
@[simp] theorem tick_staged (s : State) : s.tick.staged = s.staged := rfl
@[simp] theorem tick_edges (s : State) : s.tick.edges = s.edges := rfl
@[simp] theorem tick_forward (s : State) : s.tick.forward = s.forward := rfl
@[simp] theorem tick_visible (s : State) : s.tick.visible = s.visible := rfl
@[simp] theorem tick_probes (s : State) : s.tick.probes = s.probes := rfl
@[simp] theorem tick_tlb (s : State) : s.tick.tlb = s.tlb := rfl
@[simp] theorem tick_ops (s : State) : s.tick.ops = s.ops := rfl
@[simp] theorem tick_groups (s : State) : s.tick.groups = s.groups := rfl
@[simp] theorem tick_blocks (s : State) : s.tick.blocks = s.blocks := rfl
@[simp] theorem tick_launches (s : State) : s.tick.launches = s.launches := rfl
@[simp] theorem tick_slots (s : State) : s.tick.slots = s.slots := rfl
@[simp] theorem tick_bins (s : State) : s.tick.bins = s.bins := rfl
@[simp] theorem tick_queues (s : State) : s.tick.queues = s.queues := rfl
@[simp] theorem tick_gvt (s : State) : s.tick.gvt = s.gvt := rfl
@[simp] theorem tick_qi (s : State) : s.tick.qi = s.qi := rfl
@[simp] theorem tick_quarantine (s : State) : s.tick.quarantine = s.quarantine := rfl
@[simp] theorem tick_astbase (s : State) : s.tick.astbase = s.astbase := rfl
@[simp] theorem tick_hwbase (s : State) : s.tick.hwbase = s.hwbase := rfl
@[simp] theorem tick_hwlen (s : State) : s.tick.hwlen = s.hwlen := rfl
@[simp] theorem tick_ig (s : State) : s.tick.ig = s.ig := rfl
@[simp] theorem tick_cores (s : State) : s.tick.cores = s.cores := rfl
@[simp] theorem tick_dieState (s : State) : s.tick.dieState = s.dieState := rfl
@[simp] theorem tick_mapped (s : State) : s.tick.mapped = s.mapped := rfl
@[simp] theorem tick_lost (s : State) : s.tick.lost = s.lost := rfl
@[simp] theorem tick_chanMap (s : State) : s.tick.chanMap = s.chanMap := rfl
@[simp] theorem tick_mxerr (s : State) : s.tick.mxerr = s.mxerr := rfl
@[simp] theorem tick_tarnPhase (s : State) : s.tick.tarnPhase = s.tarnPhase := rfl
@[simp] theorem tick_refresh (s : State) : s.tick.refresh = s.refresh := rfl
@[simp] theorem tick_tarn (s : State) : s.tick.tarn = s.tarn := rfl
@[simp] theorem tick_tarnFailing (s : State) : s.tick.tarnFailing = s.tarnFailing := rfl
@[simp] theorem tick_tarnReported (s : State) : s.tick.tarnReported = s.tarnReported := rfl
@[simp] theorem tick_chip (s : State) : s.tick.chip = s.chip := rfl
@[simp] theorem tick_ports (s : State) : s.tick.ports = s.ports := rfl
@[simp] theorem tick_hosts (s : State) : s.tick.hosts = s.hosts := rfl
@[simp] theorem tick_windows (s : State) : s.tick.windows = s.windows := rfl
@[simp] theorem tick_inbound (s : State) : s.tick.inbound = s.inbound := rfl
@[simp] theorem tick_hostData (s : State) : s.tick.hostData = s.hostData := rfl
@[simp] theorem tick_hostHorizon (s : State) : s.tick.hostHorizon = s.hostHorizon := rfl
@[simp] theorem tick_msix (s : State) : s.tick.msix = s.msix := rfl
@[simp] theorem tick_mailbox (s : State) : s.tick.mailbox = s.mailbox := rfl
@[simp] theorem tick_flash (s : State) : s.tick.flash = s.flash := rfl
@[simp] theorem tick_image (s : State) : s.tick.image = s.image := rfl
@[simp] theorem tick_bringup (s : State) : s.tick.bringup = s.bringup := rfl
@[simp] theorem tick_offline (s : State) : s.tick.offline = s.offline := rfl
@[simp] theorem tick_clock (s : State) : s.tick.clock = s.clock := rfl
@[simp] theorem tick_sampled (s : State) : s.tick.sampled = s.sampled := rfl
@[simp] theorem tick_leaf (s : State) : s.tick.leaf = s.leaf := rfl
@[simp] theorem tick_quotes (s : State) : s.tick.quotes = s.quotes := rfl
@[simp] theorem tick_time (s : State) : s.tick.time = s.time := rfl
@[simp] theorem tick_turn (s : State) : s.tick.turn = s.turn := rfl
@[simp] theorem tick_cur (s : State) : s.tick.cur = s.cur := rfl
@[simp] theorem tick_arg (s : State) : s.tick.arg = s.arg := rfl
@[simp] theorem tick_inputs (s : State) : s.tick.inputs = s.inputs := rfl
@[simp] theorem tick_since (s : State) : s.tick.since = s.since := rfl
@[simp] theorem tick_nextId (s : State) : s.tick.nextId = s.nextId := rfl

/-! ### State.fresh -/

@[simp] theorem fresh_nextId (s : State) : s.fresh.2.nextId = s.nextId + 1 := rfl
@[simp] theorem fresh_mem (s : State) : s.fresh.2.mem = s.mem := rfl
@[simp] theorem fresh_lineMarks (s : State) : s.fresh.2.lineMarks = s.lineMarks := rfl
@[simp] theorem fresh_l1 (s : State) : s.fresh.2.l1 = s.l1 := rfl
@[simp] theorem fresh_epochs (s : State) : s.fresh.2.epochs = s.epochs := rfl
@[simp] theorem fresh_guests (s : State) : s.fresh.2.guests = s.guests := rfl
@[simp] theorem fresh_dirs (s : State) : s.fresh.2.dirs = s.dirs := rfl
@[simp] theorem fresh_writes (s : State) : s.fresh.2.writes = s.writes := rfl
@[simp] theorem fresh_staged (s : State) : s.fresh.2.staged = s.staged := rfl
@[simp] theorem fresh_edges (s : State) : s.fresh.2.edges = s.edges := rfl
@[simp] theorem fresh_forward (s : State) : s.fresh.2.forward = s.forward := rfl
@[simp] theorem fresh_visible (s : State) : s.fresh.2.visible = s.visible := rfl
@[simp] theorem fresh_probes (s : State) : s.fresh.2.probes = s.probes := rfl
@[simp] theorem fresh_tlb (s : State) : s.fresh.2.tlb = s.tlb := rfl
@[simp] theorem fresh_ops (s : State) : s.fresh.2.ops = s.ops := rfl
@[simp] theorem fresh_groups (s : State) : s.fresh.2.groups = s.groups := rfl
@[simp] theorem fresh_blocks (s : State) : s.fresh.2.blocks = s.blocks := rfl
@[simp] theorem fresh_launches (s : State) : s.fresh.2.launches = s.launches := rfl
@[simp] theorem fresh_slots (s : State) : s.fresh.2.slots = s.slots := rfl
@[simp] theorem fresh_bins (s : State) : s.fresh.2.bins = s.bins := rfl
@[simp] theorem fresh_queues (s : State) : s.fresh.2.queues = s.queues := rfl
@[simp] theorem fresh_gvt (s : State) : s.fresh.2.gvt = s.gvt := rfl
@[simp] theorem fresh_qi (s : State) : s.fresh.2.qi = s.qi := rfl
@[simp] theorem fresh_quarantine (s : State) : s.fresh.2.quarantine = s.quarantine := rfl
@[simp] theorem fresh_astbase (s : State) : s.fresh.2.astbase = s.astbase := rfl
@[simp] theorem fresh_hwbase (s : State) : s.fresh.2.hwbase = s.hwbase := rfl
@[simp] theorem fresh_hwlen (s : State) : s.fresh.2.hwlen = s.hwlen := rfl
@[simp] theorem fresh_ig (s : State) : s.fresh.2.ig = s.ig := rfl
@[simp] theorem fresh_cores (s : State) : s.fresh.2.cores = s.cores := rfl
@[simp] theorem fresh_dieState (s : State) : s.fresh.2.dieState = s.dieState := rfl
@[simp] theorem fresh_mapped (s : State) : s.fresh.2.mapped = s.mapped := rfl
@[simp] theorem fresh_lost (s : State) : s.fresh.2.lost = s.lost := rfl
@[simp] theorem fresh_chanMap (s : State) : s.fresh.2.chanMap = s.chanMap := rfl
@[simp] theorem fresh_mxerr (s : State) : s.fresh.2.mxerr = s.mxerr := rfl
@[simp] theorem fresh_tarnPhase (s : State) : s.fresh.2.tarnPhase = s.tarnPhase := rfl
@[simp] theorem fresh_refresh (s : State) : s.fresh.2.refresh = s.refresh := rfl
@[simp] theorem fresh_tarn (s : State) : s.fresh.2.tarn = s.tarn := rfl
@[simp] theorem fresh_tarnFailing (s : State) : s.fresh.2.tarnFailing = s.tarnFailing := rfl
@[simp] theorem fresh_tarnReported (s : State) : s.fresh.2.tarnReported = s.tarnReported := rfl
@[simp] theorem fresh_chip (s : State) : s.fresh.2.chip = s.chip := rfl
@[simp] theorem fresh_ports (s : State) : s.fresh.2.ports = s.ports := rfl
@[simp] theorem fresh_hosts (s : State) : s.fresh.2.hosts = s.hosts := rfl
@[simp] theorem fresh_windows (s : State) : s.fresh.2.windows = s.windows := rfl
@[simp] theorem fresh_inbound (s : State) : s.fresh.2.inbound = s.inbound := rfl
@[simp] theorem fresh_hostData (s : State) : s.fresh.2.hostData = s.hostData := rfl
@[simp] theorem fresh_hostHorizon (s : State) : s.fresh.2.hostHorizon = s.hostHorizon := rfl
@[simp] theorem fresh_msix (s : State) : s.fresh.2.msix = s.msix := rfl
@[simp] theorem fresh_mailbox (s : State) : s.fresh.2.mailbox = s.mailbox := rfl
@[simp] theorem fresh_flash (s : State) : s.fresh.2.flash = s.flash := rfl
@[simp] theorem fresh_image (s : State) : s.fresh.2.image = s.image := rfl
@[simp] theorem fresh_bringup (s : State) : s.fresh.2.bringup = s.bringup := rfl
@[simp] theorem fresh_offline (s : State) : s.fresh.2.offline = s.offline := rfl
@[simp] theorem fresh_clock (s : State) : s.fresh.2.clock = s.clock := rfl
@[simp] theorem fresh_sampled (s : State) : s.fresh.2.sampled = s.sampled := rfl
@[simp] theorem fresh_leaf (s : State) : s.fresh.2.leaf = s.leaf := rfl
@[simp] theorem fresh_quotes (s : State) : s.fresh.2.quotes = s.quotes := rfl
@[simp] theorem fresh_time (s : State) : s.fresh.2.time = s.time := rfl
@[simp] theorem fresh_turn (s : State) : s.fresh.2.turn = s.turn := rfl
@[simp] theorem fresh_cur (s : State) : s.fresh.2.cur = s.cur := rfl
@[simp] theorem fresh_arg (s : State) : s.fresh.2.arg = s.arg := rfl
@[simp] theorem fresh_inputs (s : State) : s.fresh.2.inputs = s.inputs := rfl
@[simp] theorem fresh_since (s : State) : s.fresh.2.since = s.since := rfl
@[simp] theorem fresh_stamp (s : State) : s.fresh.2.stamp = s.stamp := rfl

/-! ### State.modGroup -/

@[simp] theorem modGroup_groups (s : State) (id : Nat) (f : Group → Group) : (s.modGroup id f).groups = s.groups.map fun g => if g.id = id then f g else g := rfl
@[simp] theorem modGroup_mem (s : State) (id : Nat) (f : Group → Group) : (s.modGroup id f).mem = s.mem := rfl
@[simp] theorem modGroup_lineMarks (s : State) (id : Nat) (f : Group → Group) : (s.modGroup id f).lineMarks = s.lineMarks := rfl
@[simp] theorem modGroup_l1 (s : State) (id : Nat) (f : Group → Group) : (s.modGroup id f).l1 = s.l1 := rfl
@[simp] theorem modGroup_epochs (s : State) (id : Nat) (f : Group → Group) : (s.modGroup id f).epochs = s.epochs := rfl
@[simp] theorem modGroup_guests (s : State) (id : Nat) (f : Group → Group) : (s.modGroup id f).guests = s.guests := rfl
@[simp] theorem modGroup_dirs (s : State) (id : Nat) (f : Group → Group) : (s.modGroup id f).dirs = s.dirs := rfl
@[simp] theorem modGroup_writes (s : State) (id : Nat) (f : Group → Group) : (s.modGroup id f).writes = s.writes := rfl
@[simp] theorem modGroup_staged (s : State) (id : Nat) (f : Group → Group) : (s.modGroup id f).staged = s.staged := rfl
@[simp] theorem modGroup_edges (s : State) (id : Nat) (f : Group → Group) : (s.modGroup id f).edges = s.edges := rfl
@[simp] theorem modGroup_forward (s : State) (id : Nat) (f : Group → Group) : (s.modGroup id f).forward = s.forward := rfl
@[simp] theorem modGroup_visible (s : State) (id : Nat) (f : Group → Group) : (s.modGroup id f).visible = s.visible := rfl
@[simp] theorem modGroup_probes (s : State) (id : Nat) (f : Group → Group) : (s.modGroup id f).probes = s.probes := rfl
@[simp] theorem modGroup_tlb (s : State) (id : Nat) (f : Group → Group) : (s.modGroup id f).tlb = s.tlb := rfl
@[simp] theorem modGroup_ops (s : State) (id : Nat) (f : Group → Group) : (s.modGroup id f).ops = s.ops := rfl
@[simp] theorem modGroup_blocks (s : State) (id : Nat) (f : Group → Group) : (s.modGroup id f).blocks = s.blocks := rfl
@[simp] theorem modGroup_launches (s : State) (id : Nat) (f : Group → Group) : (s.modGroup id f).launches = s.launches := rfl
@[simp] theorem modGroup_slots (s : State) (id : Nat) (f : Group → Group) : (s.modGroup id f).slots = s.slots := rfl
@[simp] theorem modGroup_bins (s : State) (id : Nat) (f : Group → Group) : (s.modGroup id f).bins = s.bins := rfl
@[simp] theorem modGroup_queues (s : State) (id : Nat) (f : Group → Group) : (s.modGroup id f).queues = s.queues := rfl
@[simp] theorem modGroup_gvt (s : State) (id : Nat) (f : Group → Group) : (s.modGroup id f).gvt = s.gvt := rfl
@[simp] theorem modGroup_qi (s : State) (id : Nat) (f : Group → Group) : (s.modGroup id f).qi = s.qi := rfl
@[simp] theorem modGroup_quarantine (s : State) (id : Nat) (f : Group → Group) : (s.modGroup id f).quarantine = s.quarantine := rfl
@[simp] theorem modGroup_astbase (s : State) (id : Nat) (f : Group → Group) : (s.modGroup id f).astbase = s.astbase := rfl
@[simp] theorem modGroup_hwbase (s : State) (id : Nat) (f : Group → Group) : (s.modGroup id f).hwbase = s.hwbase := rfl
@[simp] theorem modGroup_hwlen (s : State) (id : Nat) (f : Group → Group) : (s.modGroup id f).hwlen = s.hwlen := rfl
@[simp] theorem modGroup_ig (s : State) (id : Nat) (f : Group → Group) : (s.modGroup id f).ig = s.ig := rfl
@[simp] theorem modGroup_cores (s : State) (id : Nat) (f : Group → Group) : (s.modGroup id f).cores = s.cores := rfl
@[simp] theorem modGroup_dieState (s : State) (id : Nat) (f : Group → Group) : (s.modGroup id f).dieState = s.dieState := rfl
@[simp] theorem modGroup_mapped (s : State) (id : Nat) (f : Group → Group) : (s.modGroup id f).mapped = s.mapped := rfl
@[simp] theorem modGroup_lost (s : State) (id : Nat) (f : Group → Group) : (s.modGroup id f).lost = s.lost := rfl
@[simp] theorem modGroup_chanMap (s : State) (id : Nat) (f : Group → Group) : (s.modGroup id f).chanMap = s.chanMap := rfl
@[simp] theorem modGroup_mxerr (s : State) (id : Nat) (f : Group → Group) : (s.modGroup id f).mxerr = s.mxerr := rfl
@[simp] theorem modGroup_tarnPhase (s : State) (id : Nat) (f : Group → Group) : (s.modGroup id f).tarnPhase = s.tarnPhase := rfl
@[simp] theorem modGroup_refresh (s : State) (id : Nat) (f : Group → Group) : (s.modGroup id f).refresh = s.refresh := rfl
@[simp] theorem modGroup_tarn (s : State) (id : Nat) (f : Group → Group) : (s.modGroup id f).tarn = s.tarn := rfl
@[simp] theorem modGroup_tarnFailing (s : State) (id : Nat) (f : Group → Group) : (s.modGroup id f).tarnFailing = s.tarnFailing := rfl
@[simp] theorem modGroup_tarnReported (s : State) (id : Nat) (f : Group → Group) : (s.modGroup id f).tarnReported = s.tarnReported := rfl
@[simp] theorem modGroup_chip (s : State) (id : Nat) (f : Group → Group) : (s.modGroup id f).chip = s.chip := rfl
@[simp] theorem modGroup_ports (s : State) (id : Nat) (f : Group → Group) : (s.modGroup id f).ports = s.ports := rfl
@[simp] theorem modGroup_hosts (s : State) (id : Nat) (f : Group → Group) : (s.modGroup id f).hosts = s.hosts := rfl
@[simp] theorem modGroup_windows (s : State) (id : Nat) (f : Group → Group) : (s.modGroup id f).windows = s.windows := rfl
@[simp] theorem modGroup_inbound (s : State) (id : Nat) (f : Group → Group) : (s.modGroup id f).inbound = s.inbound := rfl
@[simp] theorem modGroup_hostData (s : State) (id : Nat) (f : Group → Group) : (s.modGroup id f).hostData = s.hostData := rfl
@[simp] theorem modGroup_hostHorizon (s : State) (id : Nat) (f : Group → Group) : (s.modGroup id f).hostHorizon = s.hostHorizon := rfl
@[simp] theorem modGroup_msix (s : State) (id : Nat) (f : Group → Group) : (s.modGroup id f).msix = s.msix := rfl
@[simp] theorem modGroup_mailbox (s : State) (id : Nat) (f : Group → Group) : (s.modGroup id f).mailbox = s.mailbox := rfl
@[simp] theorem modGroup_flash (s : State) (id : Nat) (f : Group → Group) : (s.modGroup id f).flash = s.flash := rfl
@[simp] theorem modGroup_image (s : State) (id : Nat) (f : Group → Group) : (s.modGroup id f).image = s.image := rfl
@[simp] theorem modGroup_bringup (s : State) (id : Nat) (f : Group → Group) : (s.modGroup id f).bringup = s.bringup := rfl
@[simp] theorem modGroup_offline (s : State) (id : Nat) (f : Group → Group) : (s.modGroup id f).offline = s.offline := rfl
@[simp] theorem modGroup_clock (s : State) (id : Nat) (f : Group → Group) : (s.modGroup id f).clock = s.clock := rfl
@[simp] theorem modGroup_sampled (s : State) (id : Nat) (f : Group → Group) : (s.modGroup id f).sampled = s.sampled := rfl
@[simp] theorem modGroup_leaf (s : State) (id : Nat) (f : Group → Group) : (s.modGroup id f).leaf = s.leaf := rfl
@[simp] theorem modGroup_quotes (s : State) (id : Nat) (f : Group → Group) : (s.modGroup id f).quotes = s.quotes := rfl
@[simp] theorem modGroup_time (s : State) (id : Nat) (f : Group → Group) : (s.modGroup id f).time = s.time := rfl
@[simp] theorem modGroup_turn (s : State) (id : Nat) (f : Group → Group) : (s.modGroup id f).turn = s.turn := rfl
@[simp] theorem modGroup_cur (s : State) (id : Nat) (f : Group → Group) : (s.modGroup id f).cur = s.cur := rfl
@[simp] theorem modGroup_arg (s : State) (id : Nat) (f : Group → Group) : (s.modGroup id f).arg = s.arg := rfl
@[simp] theorem modGroup_inputs (s : State) (id : Nat) (f : Group → Group) : (s.modGroup id f).inputs = s.inputs := rfl
@[simp] theorem modGroup_since (s : State) (id : Nat) (f : Group → Group) : (s.modGroup id f).since = s.since := rfl
@[simp] theorem modGroup_stamp (s : State) (id : Nat) (f : Group → Group) : (s.modGroup id f).stamp = s.stamp := rfl
@[simp] theorem modGroup_nextId (s : State) (id : Nat) (f : Group → Group) : (s.modGroup id f).nextId = s.nextId := rfl

/-! ### State.modLaunch -/

@[simp] theorem modLaunch_launches (s : State) (id : Nat) (f : Launch → Launch) : (s.modLaunch id f).launches = s.launches.map fun l => if l.id = id then f l else l := rfl
@[simp] theorem modLaunch_mem (s : State) (id : Nat) (f : Launch → Launch) : (s.modLaunch id f).mem = s.mem := rfl
@[simp] theorem modLaunch_lineMarks (s : State) (id : Nat) (f : Launch → Launch) : (s.modLaunch id f).lineMarks = s.lineMarks := rfl
@[simp] theorem modLaunch_l1 (s : State) (id : Nat) (f : Launch → Launch) : (s.modLaunch id f).l1 = s.l1 := rfl
@[simp] theorem modLaunch_epochs (s : State) (id : Nat) (f : Launch → Launch) : (s.modLaunch id f).epochs = s.epochs := rfl
@[simp] theorem modLaunch_guests (s : State) (id : Nat) (f : Launch → Launch) : (s.modLaunch id f).guests = s.guests := rfl
@[simp] theorem modLaunch_dirs (s : State) (id : Nat) (f : Launch → Launch) : (s.modLaunch id f).dirs = s.dirs := rfl
@[simp] theorem modLaunch_writes (s : State) (id : Nat) (f : Launch → Launch) : (s.modLaunch id f).writes = s.writes := rfl
@[simp] theorem modLaunch_staged (s : State) (id : Nat) (f : Launch → Launch) : (s.modLaunch id f).staged = s.staged := rfl
@[simp] theorem modLaunch_edges (s : State) (id : Nat) (f : Launch → Launch) : (s.modLaunch id f).edges = s.edges := rfl
@[simp] theorem modLaunch_forward (s : State) (id : Nat) (f : Launch → Launch) : (s.modLaunch id f).forward = s.forward := rfl
@[simp] theorem modLaunch_visible (s : State) (id : Nat) (f : Launch → Launch) : (s.modLaunch id f).visible = s.visible := rfl
@[simp] theorem modLaunch_probes (s : State) (id : Nat) (f : Launch → Launch) : (s.modLaunch id f).probes = s.probes := rfl
@[simp] theorem modLaunch_tlb (s : State) (id : Nat) (f : Launch → Launch) : (s.modLaunch id f).tlb = s.tlb := rfl
@[simp] theorem modLaunch_ops (s : State) (id : Nat) (f : Launch → Launch) : (s.modLaunch id f).ops = s.ops := rfl
@[simp] theorem modLaunch_groups (s : State) (id : Nat) (f : Launch → Launch) : (s.modLaunch id f).groups = s.groups := rfl
@[simp] theorem modLaunch_blocks (s : State) (id : Nat) (f : Launch → Launch) : (s.modLaunch id f).blocks = s.blocks := rfl
@[simp] theorem modLaunch_slots (s : State) (id : Nat) (f : Launch → Launch) : (s.modLaunch id f).slots = s.slots := rfl
@[simp] theorem modLaunch_bins (s : State) (id : Nat) (f : Launch → Launch) : (s.modLaunch id f).bins = s.bins := rfl
@[simp] theorem modLaunch_queues (s : State) (id : Nat) (f : Launch → Launch) : (s.modLaunch id f).queues = s.queues := rfl
@[simp] theorem modLaunch_gvt (s : State) (id : Nat) (f : Launch → Launch) : (s.modLaunch id f).gvt = s.gvt := rfl
@[simp] theorem modLaunch_qi (s : State) (id : Nat) (f : Launch → Launch) : (s.modLaunch id f).qi = s.qi := rfl
@[simp] theorem modLaunch_quarantine (s : State) (id : Nat) (f : Launch → Launch) : (s.modLaunch id f).quarantine = s.quarantine := rfl
@[simp] theorem modLaunch_astbase (s : State) (id : Nat) (f : Launch → Launch) : (s.modLaunch id f).astbase = s.astbase := rfl
@[simp] theorem modLaunch_hwbase (s : State) (id : Nat) (f : Launch → Launch) : (s.modLaunch id f).hwbase = s.hwbase := rfl
@[simp] theorem modLaunch_hwlen (s : State) (id : Nat) (f : Launch → Launch) : (s.modLaunch id f).hwlen = s.hwlen := rfl
@[simp] theorem modLaunch_ig (s : State) (id : Nat) (f : Launch → Launch) : (s.modLaunch id f).ig = s.ig := rfl
@[simp] theorem modLaunch_cores (s : State) (id : Nat) (f : Launch → Launch) : (s.modLaunch id f).cores = s.cores := rfl
@[simp] theorem modLaunch_dieState (s : State) (id : Nat) (f : Launch → Launch) : (s.modLaunch id f).dieState = s.dieState := rfl
@[simp] theorem modLaunch_mapped (s : State) (id : Nat) (f : Launch → Launch) : (s.modLaunch id f).mapped = s.mapped := rfl
@[simp] theorem modLaunch_lost (s : State) (id : Nat) (f : Launch → Launch) : (s.modLaunch id f).lost = s.lost := rfl
@[simp] theorem modLaunch_chanMap (s : State) (id : Nat) (f : Launch → Launch) : (s.modLaunch id f).chanMap = s.chanMap := rfl
@[simp] theorem modLaunch_mxerr (s : State) (id : Nat) (f : Launch → Launch) : (s.modLaunch id f).mxerr = s.mxerr := rfl
@[simp] theorem modLaunch_tarnPhase (s : State) (id : Nat) (f : Launch → Launch) : (s.modLaunch id f).tarnPhase = s.tarnPhase := rfl
@[simp] theorem modLaunch_refresh (s : State) (id : Nat) (f : Launch → Launch) : (s.modLaunch id f).refresh = s.refresh := rfl
@[simp] theorem modLaunch_tarn (s : State) (id : Nat) (f : Launch → Launch) : (s.modLaunch id f).tarn = s.tarn := rfl
@[simp] theorem modLaunch_tarnFailing (s : State) (id : Nat) (f : Launch → Launch) : (s.modLaunch id f).tarnFailing = s.tarnFailing := rfl
@[simp] theorem modLaunch_tarnReported (s : State) (id : Nat) (f : Launch → Launch) : (s.modLaunch id f).tarnReported = s.tarnReported := rfl
@[simp] theorem modLaunch_chip (s : State) (id : Nat) (f : Launch → Launch) : (s.modLaunch id f).chip = s.chip := rfl
@[simp] theorem modLaunch_ports (s : State) (id : Nat) (f : Launch → Launch) : (s.modLaunch id f).ports = s.ports := rfl
@[simp] theorem modLaunch_hosts (s : State) (id : Nat) (f : Launch → Launch) : (s.modLaunch id f).hosts = s.hosts := rfl
@[simp] theorem modLaunch_windows (s : State) (id : Nat) (f : Launch → Launch) : (s.modLaunch id f).windows = s.windows := rfl
@[simp] theorem modLaunch_inbound (s : State) (id : Nat) (f : Launch → Launch) : (s.modLaunch id f).inbound = s.inbound := rfl
@[simp] theorem modLaunch_hostData (s : State) (id : Nat) (f : Launch → Launch) : (s.modLaunch id f).hostData = s.hostData := rfl
@[simp] theorem modLaunch_hostHorizon (s : State) (id : Nat) (f : Launch → Launch) : (s.modLaunch id f).hostHorizon = s.hostHorizon := rfl
@[simp] theorem modLaunch_msix (s : State) (id : Nat) (f : Launch → Launch) : (s.modLaunch id f).msix = s.msix := rfl
@[simp] theorem modLaunch_mailbox (s : State) (id : Nat) (f : Launch → Launch) : (s.modLaunch id f).mailbox = s.mailbox := rfl
@[simp] theorem modLaunch_flash (s : State) (id : Nat) (f : Launch → Launch) : (s.modLaunch id f).flash = s.flash := rfl
@[simp] theorem modLaunch_image (s : State) (id : Nat) (f : Launch → Launch) : (s.modLaunch id f).image = s.image := rfl
@[simp] theorem modLaunch_bringup (s : State) (id : Nat) (f : Launch → Launch) : (s.modLaunch id f).bringup = s.bringup := rfl
@[simp] theorem modLaunch_offline (s : State) (id : Nat) (f : Launch → Launch) : (s.modLaunch id f).offline = s.offline := rfl
@[simp] theorem modLaunch_clock (s : State) (id : Nat) (f : Launch → Launch) : (s.modLaunch id f).clock = s.clock := rfl
@[simp] theorem modLaunch_sampled (s : State) (id : Nat) (f : Launch → Launch) : (s.modLaunch id f).sampled = s.sampled := rfl
@[simp] theorem modLaunch_leaf (s : State) (id : Nat) (f : Launch → Launch) : (s.modLaunch id f).leaf = s.leaf := rfl
@[simp] theorem modLaunch_quotes (s : State) (id : Nat) (f : Launch → Launch) : (s.modLaunch id f).quotes = s.quotes := rfl
@[simp] theorem modLaunch_time (s : State) (id : Nat) (f : Launch → Launch) : (s.modLaunch id f).time = s.time := rfl
@[simp] theorem modLaunch_turn (s : State) (id : Nat) (f : Launch → Launch) : (s.modLaunch id f).turn = s.turn := rfl
@[simp] theorem modLaunch_cur (s : State) (id : Nat) (f : Launch → Launch) : (s.modLaunch id f).cur = s.cur := rfl
@[simp] theorem modLaunch_arg (s : State) (id : Nat) (f : Launch → Launch) : (s.modLaunch id f).arg = s.arg := rfl
@[simp] theorem modLaunch_inputs (s : State) (id : Nat) (f : Launch → Launch) : (s.modLaunch id f).inputs = s.inputs := rfl
@[simp] theorem modLaunch_since (s : State) (id : Nat) (f : Launch → Launch) : (s.modLaunch id f).since = s.since := rfl
@[simp] theorem modLaunch_stamp (s : State) (id : Nat) (f : Launch → Launch) : (s.modLaunch id f).stamp = s.stamp := rfl
@[simp] theorem modLaunch_nextId (s : State) (id : Nat) (f : Launch → Launch) : (s.modLaunch id f).nextId = s.nextId := rfl

/-! ### State.modBlock -/

@[simp] theorem modBlock_blocks (s : State) (l i : Nat) (f : Block → Block) : (s.modBlock l i f).blocks = s.blocks.map fun b => if b.launch = l ∧ b.index = i then f b else b := rfl
@[simp] theorem modBlock_mem (s : State) (l i : Nat) (f : Block → Block) : (s.modBlock l i f).mem = s.mem := rfl
@[simp] theorem modBlock_lineMarks (s : State) (l i : Nat) (f : Block → Block) : (s.modBlock l i f).lineMarks = s.lineMarks := rfl
@[simp] theorem modBlock_l1 (s : State) (l i : Nat) (f : Block → Block) : (s.modBlock l i f).l1 = s.l1 := rfl
@[simp] theorem modBlock_epochs (s : State) (l i : Nat) (f : Block → Block) : (s.modBlock l i f).epochs = s.epochs := rfl
@[simp] theorem modBlock_guests (s : State) (l i : Nat) (f : Block → Block) : (s.modBlock l i f).guests = s.guests := rfl
@[simp] theorem modBlock_dirs (s : State) (l i : Nat) (f : Block → Block) : (s.modBlock l i f).dirs = s.dirs := rfl
@[simp] theorem modBlock_writes (s : State) (l i : Nat) (f : Block → Block) : (s.modBlock l i f).writes = s.writes := rfl
@[simp] theorem modBlock_staged (s : State) (l i : Nat) (f : Block → Block) : (s.modBlock l i f).staged = s.staged := rfl
@[simp] theorem modBlock_edges (s : State) (l i : Nat) (f : Block → Block) : (s.modBlock l i f).edges = s.edges := rfl
@[simp] theorem modBlock_forward (s : State) (l i : Nat) (f : Block → Block) : (s.modBlock l i f).forward = s.forward := rfl
@[simp] theorem modBlock_visible (s : State) (l i : Nat) (f : Block → Block) : (s.modBlock l i f).visible = s.visible := rfl
@[simp] theorem modBlock_probes (s : State) (l i : Nat) (f : Block → Block) : (s.modBlock l i f).probes = s.probes := rfl
@[simp] theorem modBlock_tlb (s : State) (l i : Nat) (f : Block → Block) : (s.modBlock l i f).tlb = s.tlb := rfl
@[simp] theorem modBlock_ops (s : State) (l i : Nat) (f : Block → Block) : (s.modBlock l i f).ops = s.ops := rfl
@[simp] theorem modBlock_groups (s : State) (l i : Nat) (f : Block → Block) : (s.modBlock l i f).groups = s.groups := rfl
@[simp] theorem modBlock_launches (s : State) (l i : Nat) (f : Block → Block) : (s.modBlock l i f).launches = s.launches := rfl
@[simp] theorem modBlock_slots (s : State) (l i : Nat) (f : Block → Block) : (s.modBlock l i f).slots = s.slots := rfl
@[simp] theorem modBlock_bins (s : State) (l i : Nat) (f : Block → Block) : (s.modBlock l i f).bins = s.bins := rfl
@[simp] theorem modBlock_queues (s : State) (l i : Nat) (f : Block → Block) : (s.modBlock l i f).queues = s.queues := rfl
@[simp] theorem modBlock_gvt (s : State) (l i : Nat) (f : Block → Block) : (s.modBlock l i f).gvt = s.gvt := rfl
@[simp] theorem modBlock_qi (s : State) (l i : Nat) (f : Block → Block) : (s.modBlock l i f).qi = s.qi := rfl
@[simp] theorem modBlock_quarantine (s : State) (l i : Nat) (f : Block → Block) : (s.modBlock l i f).quarantine = s.quarantine := rfl
@[simp] theorem modBlock_astbase (s : State) (l i : Nat) (f : Block → Block) : (s.modBlock l i f).astbase = s.astbase := rfl
@[simp] theorem modBlock_hwbase (s : State) (l i : Nat) (f : Block → Block) : (s.modBlock l i f).hwbase = s.hwbase := rfl
@[simp] theorem modBlock_hwlen (s : State) (l i : Nat) (f : Block → Block) : (s.modBlock l i f).hwlen = s.hwlen := rfl
@[simp] theorem modBlock_ig (s : State) (l i : Nat) (f : Block → Block) : (s.modBlock l i f).ig = s.ig := rfl
@[simp] theorem modBlock_cores (s : State) (l i : Nat) (f : Block → Block) : (s.modBlock l i f).cores = s.cores := rfl
@[simp] theorem modBlock_dieState (s : State) (l i : Nat) (f : Block → Block) : (s.modBlock l i f).dieState = s.dieState := rfl
@[simp] theorem modBlock_mapped (s : State) (l i : Nat) (f : Block → Block) : (s.modBlock l i f).mapped = s.mapped := rfl
@[simp] theorem modBlock_lost (s : State) (l i : Nat) (f : Block → Block) : (s.modBlock l i f).lost = s.lost := rfl
@[simp] theorem modBlock_chanMap (s : State) (l i : Nat) (f : Block → Block) : (s.modBlock l i f).chanMap = s.chanMap := rfl
@[simp] theorem modBlock_mxerr (s : State) (l i : Nat) (f : Block → Block) : (s.modBlock l i f).mxerr = s.mxerr := rfl
@[simp] theorem modBlock_tarnPhase (s : State) (l i : Nat) (f : Block → Block) : (s.modBlock l i f).tarnPhase = s.tarnPhase := rfl
@[simp] theorem modBlock_refresh (s : State) (l i : Nat) (f : Block → Block) : (s.modBlock l i f).refresh = s.refresh := rfl
@[simp] theorem modBlock_tarn (s : State) (l i : Nat) (f : Block → Block) : (s.modBlock l i f).tarn = s.tarn := rfl
@[simp] theorem modBlock_tarnFailing (s : State) (l i : Nat) (f : Block → Block) : (s.modBlock l i f).tarnFailing = s.tarnFailing := rfl
@[simp] theorem modBlock_tarnReported (s : State) (l i : Nat) (f : Block → Block) : (s.modBlock l i f).tarnReported = s.tarnReported := rfl
@[simp] theorem modBlock_chip (s : State) (l i : Nat) (f : Block → Block) : (s.modBlock l i f).chip = s.chip := rfl
@[simp] theorem modBlock_ports (s : State) (l i : Nat) (f : Block → Block) : (s.modBlock l i f).ports = s.ports := rfl
@[simp] theorem modBlock_hosts (s : State) (l i : Nat) (f : Block → Block) : (s.modBlock l i f).hosts = s.hosts := rfl
@[simp] theorem modBlock_windows (s : State) (l i : Nat) (f : Block → Block) : (s.modBlock l i f).windows = s.windows := rfl
@[simp] theorem modBlock_inbound (s : State) (l i : Nat) (f : Block → Block) : (s.modBlock l i f).inbound = s.inbound := rfl
@[simp] theorem modBlock_hostData (s : State) (l i : Nat) (f : Block → Block) : (s.modBlock l i f).hostData = s.hostData := rfl
@[simp] theorem modBlock_hostHorizon (s : State) (l i : Nat) (f : Block → Block) : (s.modBlock l i f).hostHorizon = s.hostHorizon := rfl
@[simp] theorem modBlock_msix (s : State) (l i : Nat) (f : Block → Block) : (s.modBlock l i f).msix = s.msix := rfl
@[simp] theorem modBlock_mailbox (s : State) (l i : Nat) (f : Block → Block) : (s.modBlock l i f).mailbox = s.mailbox := rfl
@[simp] theorem modBlock_flash (s : State) (l i : Nat) (f : Block → Block) : (s.modBlock l i f).flash = s.flash := rfl
@[simp] theorem modBlock_image (s : State) (l i : Nat) (f : Block → Block) : (s.modBlock l i f).image = s.image := rfl
@[simp] theorem modBlock_bringup (s : State) (l i : Nat) (f : Block → Block) : (s.modBlock l i f).bringup = s.bringup := rfl
@[simp] theorem modBlock_offline (s : State) (l i : Nat) (f : Block → Block) : (s.modBlock l i f).offline = s.offline := rfl
@[simp] theorem modBlock_clock (s : State) (l i : Nat) (f : Block → Block) : (s.modBlock l i f).clock = s.clock := rfl
@[simp] theorem modBlock_sampled (s : State) (l i : Nat) (f : Block → Block) : (s.modBlock l i f).sampled = s.sampled := rfl
@[simp] theorem modBlock_leaf (s : State) (l i : Nat) (f : Block → Block) : (s.modBlock l i f).leaf = s.leaf := rfl
@[simp] theorem modBlock_quotes (s : State) (l i : Nat) (f : Block → Block) : (s.modBlock l i f).quotes = s.quotes := rfl
@[simp] theorem modBlock_time (s : State) (l i : Nat) (f : Block → Block) : (s.modBlock l i f).time = s.time := rfl
@[simp] theorem modBlock_turn (s : State) (l i : Nat) (f : Block → Block) : (s.modBlock l i f).turn = s.turn := rfl
@[simp] theorem modBlock_cur (s : State) (l i : Nat) (f : Block → Block) : (s.modBlock l i f).cur = s.cur := rfl
@[simp] theorem modBlock_arg (s : State) (l i : Nat) (f : Block → Block) : (s.modBlock l i f).arg = s.arg := rfl
@[simp] theorem modBlock_inputs (s : State) (l i : Nat) (f : Block → Block) : (s.modBlock l i f).inputs = s.inputs := rfl
@[simp] theorem modBlock_since (s : State) (l i : Nat) (f : Block → Block) : (s.modBlock l i f).since = s.since := rfl
@[simp] theorem modBlock_stamp (s : State) (l i : Nat) (f : Block → Block) : (s.modBlock l i f).stamp = s.stamp := rfl
@[simp] theorem modBlock_nextId (s : State) (l i : Nat) (f : Block → Block) : (s.modBlock l i f).nextId = s.nextId := rfl

/-! ### State.modOp -/

@[simp] theorem modOp_ops (s : State) (id : Nat) (f : Op → Op) : (s.modOp id f).ops = s.ops.map fun o => if o.id = id then f o else o := rfl
@[simp] theorem modOp_mem (s : State) (id : Nat) (f : Op → Op) : (s.modOp id f).mem = s.mem := rfl
@[simp] theorem modOp_lineMarks (s : State) (id : Nat) (f : Op → Op) : (s.modOp id f).lineMarks = s.lineMarks := rfl
@[simp] theorem modOp_l1 (s : State) (id : Nat) (f : Op → Op) : (s.modOp id f).l1 = s.l1 := rfl
@[simp] theorem modOp_epochs (s : State) (id : Nat) (f : Op → Op) : (s.modOp id f).epochs = s.epochs := rfl
@[simp] theorem modOp_guests (s : State) (id : Nat) (f : Op → Op) : (s.modOp id f).guests = s.guests := rfl
@[simp] theorem modOp_dirs (s : State) (id : Nat) (f : Op → Op) : (s.modOp id f).dirs = s.dirs := rfl
@[simp] theorem modOp_writes (s : State) (id : Nat) (f : Op → Op) : (s.modOp id f).writes = s.writes := rfl
@[simp] theorem modOp_staged (s : State) (id : Nat) (f : Op → Op) : (s.modOp id f).staged = s.staged := rfl
@[simp] theorem modOp_edges (s : State) (id : Nat) (f : Op → Op) : (s.modOp id f).edges = s.edges := rfl
@[simp] theorem modOp_forward (s : State) (id : Nat) (f : Op → Op) : (s.modOp id f).forward = s.forward := rfl
@[simp] theorem modOp_visible (s : State) (id : Nat) (f : Op → Op) : (s.modOp id f).visible = s.visible := rfl
@[simp] theorem modOp_probes (s : State) (id : Nat) (f : Op → Op) : (s.modOp id f).probes = s.probes := rfl
@[simp] theorem modOp_tlb (s : State) (id : Nat) (f : Op → Op) : (s.modOp id f).tlb = s.tlb := rfl
@[simp] theorem modOp_groups (s : State) (id : Nat) (f : Op → Op) : (s.modOp id f).groups = s.groups := rfl
@[simp] theorem modOp_blocks (s : State) (id : Nat) (f : Op → Op) : (s.modOp id f).blocks = s.blocks := rfl
@[simp] theorem modOp_launches (s : State) (id : Nat) (f : Op → Op) : (s.modOp id f).launches = s.launches := rfl
@[simp] theorem modOp_slots (s : State) (id : Nat) (f : Op → Op) : (s.modOp id f).slots = s.slots := rfl
@[simp] theorem modOp_bins (s : State) (id : Nat) (f : Op → Op) : (s.modOp id f).bins = s.bins := rfl
@[simp] theorem modOp_queues (s : State) (id : Nat) (f : Op → Op) : (s.modOp id f).queues = s.queues := rfl
@[simp] theorem modOp_gvt (s : State) (id : Nat) (f : Op → Op) : (s.modOp id f).gvt = s.gvt := rfl
@[simp] theorem modOp_qi (s : State) (id : Nat) (f : Op → Op) : (s.modOp id f).qi = s.qi := rfl
@[simp] theorem modOp_quarantine (s : State) (id : Nat) (f : Op → Op) : (s.modOp id f).quarantine = s.quarantine := rfl
@[simp] theorem modOp_astbase (s : State) (id : Nat) (f : Op → Op) : (s.modOp id f).astbase = s.astbase := rfl
@[simp] theorem modOp_hwbase (s : State) (id : Nat) (f : Op → Op) : (s.modOp id f).hwbase = s.hwbase := rfl
@[simp] theorem modOp_hwlen (s : State) (id : Nat) (f : Op → Op) : (s.modOp id f).hwlen = s.hwlen := rfl
@[simp] theorem modOp_ig (s : State) (id : Nat) (f : Op → Op) : (s.modOp id f).ig = s.ig := rfl
@[simp] theorem modOp_cores (s : State) (id : Nat) (f : Op → Op) : (s.modOp id f).cores = s.cores := rfl
@[simp] theorem modOp_dieState (s : State) (id : Nat) (f : Op → Op) : (s.modOp id f).dieState = s.dieState := rfl
@[simp] theorem modOp_mapped (s : State) (id : Nat) (f : Op → Op) : (s.modOp id f).mapped = s.mapped := rfl
@[simp] theorem modOp_lost (s : State) (id : Nat) (f : Op → Op) : (s.modOp id f).lost = s.lost := rfl
@[simp] theorem modOp_chanMap (s : State) (id : Nat) (f : Op → Op) : (s.modOp id f).chanMap = s.chanMap := rfl
@[simp] theorem modOp_mxerr (s : State) (id : Nat) (f : Op → Op) : (s.modOp id f).mxerr = s.mxerr := rfl
@[simp] theorem modOp_tarnPhase (s : State) (id : Nat) (f : Op → Op) : (s.modOp id f).tarnPhase = s.tarnPhase := rfl
@[simp] theorem modOp_refresh (s : State) (id : Nat) (f : Op → Op) : (s.modOp id f).refresh = s.refresh := rfl
@[simp] theorem modOp_tarn (s : State) (id : Nat) (f : Op → Op) : (s.modOp id f).tarn = s.tarn := rfl
@[simp] theorem modOp_tarnFailing (s : State) (id : Nat) (f : Op → Op) : (s.modOp id f).tarnFailing = s.tarnFailing := rfl
@[simp] theorem modOp_tarnReported (s : State) (id : Nat) (f : Op → Op) : (s.modOp id f).tarnReported = s.tarnReported := rfl
@[simp] theorem modOp_chip (s : State) (id : Nat) (f : Op → Op) : (s.modOp id f).chip = s.chip := rfl
@[simp] theorem modOp_ports (s : State) (id : Nat) (f : Op → Op) : (s.modOp id f).ports = s.ports := rfl
@[simp] theorem modOp_hosts (s : State) (id : Nat) (f : Op → Op) : (s.modOp id f).hosts = s.hosts := rfl
@[simp] theorem modOp_windows (s : State) (id : Nat) (f : Op → Op) : (s.modOp id f).windows = s.windows := rfl
@[simp] theorem modOp_inbound (s : State) (id : Nat) (f : Op → Op) : (s.modOp id f).inbound = s.inbound := rfl
@[simp] theorem modOp_hostData (s : State) (id : Nat) (f : Op → Op) : (s.modOp id f).hostData = s.hostData := rfl
@[simp] theorem modOp_hostHorizon (s : State) (id : Nat) (f : Op → Op) : (s.modOp id f).hostHorizon = s.hostHorizon := rfl
@[simp] theorem modOp_msix (s : State) (id : Nat) (f : Op → Op) : (s.modOp id f).msix = s.msix := rfl
@[simp] theorem modOp_mailbox (s : State) (id : Nat) (f : Op → Op) : (s.modOp id f).mailbox = s.mailbox := rfl
@[simp] theorem modOp_flash (s : State) (id : Nat) (f : Op → Op) : (s.modOp id f).flash = s.flash := rfl
@[simp] theorem modOp_image (s : State) (id : Nat) (f : Op → Op) : (s.modOp id f).image = s.image := rfl
@[simp] theorem modOp_bringup (s : State) (id : Nat) (f : Op → Op) : (s.modOp id f).bringup = s.bringup := rfl
@[simp] theorem modOp_offline (s : State) (id : Nat) (f : Op → Op) : (s.modOp id f).offline = s.offline := rfl
@[simp] theorem modOp_clock (s : State) (id : Nat) (f : Op → Op) : (s.modOp id f).clock = s.clock := rfl
@[simp] theorem modOp_sampled (s : State) (id : Nat) (f : Op → Op) : (s.modOp id f).sampled = s.sampled := rfl
@[simp] theorem modOp_leaf (s : State) (id : Nat) (f : Op → Op) : (s.modOp id f).leaf = s.leaf := rfl
@[simp] theorem modOp_quotes (s : State) (id : Nat) (f : Op → Op) : (s.modOp id f).quotes = s.quotes := rfl
@[simp] theorem modOp_time (s : State) (id : Nat) (f : Op → Op) : (s.modOp id f).time = s.time := rfl
@[simp] theorem modOp_turn (s : State) (id : Nat) (f : Op → Op) : (s.modOp id f).turn = s.turn := rfl
@[simp] theorem modOp_cur (s : State) (id : Nat) (f : Op → Op) : (s.modOp id f).cur = s.cur := rfl
@[simp] theorem modOp_arg (s : State) (id : Nat) (f : Op → Op) : (s.modOp id f).arg = s.arg := rfl
@[simp] theorem modOp_inputs (s : State) (id : Nat) (f : Op → Op) : (s.modOp id f).inputs = s.inputs := rfl
@[simp] theorem modOp_since (s : State) (id : Nat) (f : Op → Op) : (s.modOp id f).since = s.since := rfl
@[simp] theorem modOp_stamp (s : State) (id : Nat) (f : Op → Op) : (s.modOp id f).stamp = s.stamp := rfl
@[simp] theorem modOp_nextId (s : State) (id : Nat) (f : Op → Op) : (s.modOp id f).nextId = s.nextId := rfl

/-! ### State.putBytes -/

@[simp] theorem putBytes_mem (s : State) (l : List (Nat × Byte)) : (s.putBytes l).mem = l.foldl (fun m p => SMap.set 0 m p.1 p.2) s.mem := rfl
@[simp] theorem putBytes_lineMarks (s : State) (l : List (Nat × Byte)) : (s.putBytes l).lineMarks = s.lineMarks := rfl
@[simp] theorem putBytes_l1 (s : State) (l : List (Nat × Byte)) : (s.putBytes l).l1 = s.l1 := rfl
@[simp] theorem putBytes_epochs (s : State) (l : List (Nat × Byte)) : (s.putBytes l).epochs = s.epochs := rfl
@[simp] theorem putBytes_guests (s : State) (l : List (Nat × Byte)) : (s.putBytes l).guests = s.guests := rfl
@[simp] theorem putBytes_dirs (s : State) (l : List (Nat × Byte)) : (s.putBytes l).dirs = s.dirs := rfl
@[simp] theorem putBytes_writes (s : State) (l : List (Nat × Byte)) : (s.putBytes l).writes = s.writes := rfl
@[simp] theorem putBytes_staged (s : State) (l : List (Nat × Byte)) : (s.putBytes l).staged = s.staged := rfl
@[simp] theorem putBytes_edges (s : State) (l : List (Nat × Byte)) : (s.putBytes l).edges = s.edges := rfl
@[simp] theorem putBytes_forward (s : State) (l : List (Nat × Byte)) : (s.putBytes l).forward = s.forward := rfl
@[simp] theorem putBytes_visible (s : State) (l : List (Nat × Byte)) : (s.putBytes l).visible = s.visible := rfl
@[simp] theorem putBytes_probes (s : State) (l : List (Nat × Byte)) : (s.putBytes l).probes = s.probes := rfl
@[simp] theorem putBytes_tlb (s : State) (l : List (Nat × Byte)) : (s.putBytes l).tlb = s.tlb := rfl
@[simp] theorem putBytes_ops (s : State) (l : List (Nat × Byte)) : (s.putBytes l).ops = s.ops := rfl
@[simp] theorem putBytes_groups (s : State) (l : List (Nat × Byte)) : (s.putBytes l).groups = s.groups := rfl
@[simp] theorem putBytes_blocks (s : State) (l : List (Nat × Byte)) : (s.putBytes l).blocks = s.blocks := rfl
@[simp] theorem putBytes_launches (s : State) (l : List (Nat × Byte)) : (s.putBytes l).launches = s.launches := rfl
@[simp] theorem putBytes_slots (s : State) (l : List (Nat × Byte)) : (s.putBytes l).slots = s.slots := rfl
@[simp] theorem putBytes_bins (s : State) (l : List (Nat × Byte)) : (s.putBytes l).bins = s.bins := rfl
@[simp] theorem putBytes_queues (s : State) (l : List (Nat × Byte)) : (s.putBytes l).queues = s.queues := rfl
@[simp] theorem putBytes_gvt (s : State) (l : List (Nat × Byte)) : (s.putBytes l).gvt = s.gvt := rfl
@[simp] theorem putBytes_qi (s : State) (l : List (Nat × Byte)) : (s.putBytes l).qi = s.qi := rfl
@[simp] theorem putBytes_quarantine (s : State) (l : List (Nat × Byte)) : (s.putBytes l).quarantine = s.quarantine := rfl
@[simp] theorem putBytes_astbase (s : State) (l : List (Nat × Byte)) : (s.putBytes l).astbase = s.astbase := rfl
@[simp] theorem putBytes_hwbase (s : State) (l : List (Nat × Byte)) : (s.putBytes l).hwbase = s.hwbase := rfl
@[simp] theorem putBytes_hwlen (s : State) (l : List (Nat × Byte)) : (s.putBytes l).hwlen = s.hwlen := rfl
@[simp] theorem putBytes_ig (s : State) (l : List (Nat × Byte)) : (s.putBytes l).ig = s.ig := rfl
@[simp] theorem putBytes_cores (s : State) (l : List (Nat × Byte)) : (s.putBytes l).cores = s.cores := rfl
@[simp] theorem putBytes_dieState (s : State) (l : List (Nat × Byte)) : (s.putBytes l).dieState = s.dieState := rfl
@[simp] theorem putBytes_mapped (s : State) (l : List (Nat × Byte)) : (s.putBytes l).mapped = s.mapped := rfl
@[simp] theorem putBytes_lost (s : State) (l : List (Nat × Byte)) : (s.putBytes l).lost = s.lost := rfl
@[simp] theorem putBytes_chanMap (s : State) (l : List (Nat × Byte)) : (s.putBytes l).chanMap = s.chanMap := rfl
@[simp] theorem putBytes_mxerr (s : State) (l : List (Nat × Byte)) : (s.putBytes l).mxerr = s.mxerr := rfl
@[simp] theorem putBytes_tarnPhase (s : State) (l : List (Nat × Byte)) : (s.putBytes l).tarnPhase = s.tarnPhase := rfl
@[simp] theorem putBytes_refresh (s : State) (l : List (Nat × Byte)) : (s.putBytes l).refresh = s.refresh := rfl
@[simp] theorem putBytes_tarn (s : State) (l : List (Nat × Byte)) : (s.putBytes l).tarn = s.tarn := rfl
@[simp] theorem putBytes_tarnFailing (s : State) (l : List (Nat × Byte)) : (s.putBytes l).tarnFailing = s.tarnFailing := rfl
@[simp] theorem putBytes_tarnReported (s : State) (l : List (Nat × Byte)) : (s.putBytes l).tarnReported = s.tarnReported := rfl
@[simp] theorem putBytes_chip (s : State) (l : List (Nat × Byte)) : (s.putBytes l).chip = s.chip := rfl
@[simp] theorem putBytes_ports (s : State) (l : List (Nat × Byte)) : (s.putBytes l).ports = s.ports := rfl
@[simp] theorem putBytes_hosts (s : State) (l : List (Nat × Byte)) : (s.putBytes l).hosts = s.hosts := rfl
@[simp] theorem putBytes_windows (s : State) (l : List (Nat × Byte)) : (s.putBytes l).windows = s.windows := rfl
@[simp] theorem putBytes_inbound (s : State) (l : List (Nat × Byte)) : (s.putBytes l).inbound = s.inbound := rfl
@[simp] theorem putBytes_hostData (s : State) (l : List (Nat × Byte)) : (s.putBytes l).hostData = s.hostData := rfl
@[simp] theorem putBytes_hostHorizon (s : State) (l : List (Nat × Byte)) : (s.putBytes l).hostHorizon = s.hostHorizon := rfl
@[simp] theorem putBytes_msix (s : State) (l : List (Nat × Byte)) : (s.putBytes l).msix = s.msix := rfl
@[simp] theorem putBytes_mailbox (s : State) (l : List (Nat × Byte)) : (s.putBytes l).mailbox = s.mailbox := rfl
@[simp] theorem putBytes_flash (s : State) (l : List (Nat × Byte)) : (s.putBytes l).flash = s.flash := rfl
@[simp] theorem putBytes_image (s : State) (l : List (Nat × Byte)) : (s.putBytes l).image = s.image := rfl
@[simp] theorem putBytes_bringup (s : State) (l : List (Nat × Byte)) : (s.putBytes l).bringup = s.bringup := rfl
@[simp] theorem putBytes_offline (s : State) (l : List (Nat × Byte)) : (s.putBytes l).offline = s.offline := rfl
@[simp] theorem putBytes_clock (s : State) (l : List (Nat × Byte)) : (s.putBytes l).clock = s.clock := rfl
@[simp] theorem putBytes_sampled (s : State) (l : List (Nat × Byte)) : (s.putBytes l).sampled = s.sampled := rfl
@[simp] theorem putBytes_leaf (s : State) (l : List (Nat × Byte)) : (s.putBytes l).leaf = s.leaf := rfl
@[simp] theorem putBytes_quotes (s : State) (l : List (Nat × Byte)) : (s.putBytes l).quotes = s.quotes := rfl
@[simp] theorem putBytes_time (s : State) (l : List (Nat × Byte)) : (s.putBytes l).time = s.time := rfl
@[simp] theorem putBytes_turn (s : State) (l : List (Nat × Byte)) : (s.putBytes l).turn = s.turn := rfl
@[simp] theorem putBytes_cur (s : State) (l : List (Nat × Byte)) : (s.putBytes l).cur = s.cur := rfl
@[simp] theorem putBytes_arg (s : State) (l : List (Nat × Byte)) : (s.putBytes l).arg = s.arg := rfl
@[simp] theorem putBytes_inputs (s : State) (l : List (Nat × Byte)) : (s.putBytes l).inputs = s.inputs := rfl
@[simp] theorem putBytes_since (s : State) (l : List (Nat × Byte)) : (s.putBytes l).since = s.since := rfl
@[simp] theorem putBytes_stamp (s : State) (l : List (Nat × Byte)) : (s.putBytes l).stamp = s.stamp := rfl
@[simp] theorem putBytes_nextId (s : State) (l : List (Nat × Byte)) : (s.putBytes l).nextId = s.nextId := rfl

/-! ### State.performedFor -/

@[simp] theorem performedFor_mem (s : State) (o : List Nat) (i t : Nat) : (s.performedFor o i t).mem = s.mem := rfl
@[simp] theorem performedFor_lineMarks (s : State) (o : List Nat) (i t : Nat) : (s.performedFor o i t).lineMarks = s.lineMarks := rfl
@[simp] theorem performedFor_l1 (s : State) (o : List Nat) (i t : Nat) : (s.performedFor o i t).l1 = s.l1 := rfl
@[simp] theorem performedFor_epochs (s : State) (o : List Nat) (i t : Nat) : (s.performedFor o i t).epochs = s.epochs := rfl
@[simp] theorem performedFor_guests (s : State) (o : List Nat) (i t : Nat) : (s.performedFor o i t).guests = s.guests := rfl
@[simp] theorem performedFor_dirs (s : State) (o : List Nat) (i t : Nat) : (s.performedFor o i t).dirs = s.dirs := rfl
@[simp] theorem performedFor_writes (s : State) (o : List Nat) (i t : Nat) : (s.performedFor o i t).writes = s.writes := rfl
@[simp] theorem performedFor_staged (s : State) (o : List Nat) (i t : Nat) : (s.performedFor o i t).staged = s.staged := rfl
@[simp] theorem performedFor_forward (s : State) (o : List Nat) (i t : Nat) : (s.performedFor o i t).forward = s.forward := rfl
@[simp] theorem performedFor_visible (s : State) (o : List Nat) (i t : Nat) : (s.performedFor o i t).visible = s.visible := rfl
@[simp] theorem performedFor_probes (s : State) (o : List Nat) (i t : Nat) : (s.performedFor o i t).probes = s.probes := rfl
@[simp] theorem performedFor_tlb (s : State) (o : List Nat) (i t : Nat) : (s.performedFor o i t).tlb = s.tlb := rfl
@[simp] theorem performedFor_ops (s : State) (o : List Nat) (i t : Nat) : (s.performedFor o i t).ops = s.ops := rfl
@[simp] theorem performedFor_blocks (s : State) (o : List Nat) (i t : Nat) : (s.performedFor o i t).blocks = s.blocks := rfl
@[simp] theorem performedFor_launches (s : State) (o : List Nat) (i t : Nat) : (s.performedFor o i t).launches = s.launches := rfl
@[simp] theorem performedFor_slots (s : State) (o : List Nat) (i t : Nat) : (s.performedFor o i t).slots = s.slots := rfl
@[simp] theorem performedFor_bins (s : State) (o : List Nat) (i t : Nat) : (s.performedFor o i t).bins = s.bins := rfl
@[simp] theorem performedFor_queues (s : State) (o : List Nat) (i t : Nat) : (s.performedFor o i t).queues = s.queues := rfl
@[simp] theorem performedFor_gvt (s : State) (o : List Nat) (i t : Nat) : (s.performedFor o i t).gvt = s.gvt := rfl
@[simp] theorem performedFor_qi (s : State) (o : List Nat) (i t : Nat) : (s.performedFor o i t).qi = s.qi := rfl
@[simp] theorem performedFor_quarantine (s : State) (o : List Nat) (i t : Nat) : (s.performedFor o i t).quarantine = s.quarantine := rfl
@[simp] theorem performedFor_astbase (s : State) (o : List Nat) (i t : Nat) : (s.performedFor o i t).astbase = s.astbase := rfl
@[simp] theorem performedFor_hwbase (s : State) (o : List Nat) (i t : Nat) : (s.performedFor o i t).hwbase = s.hwbase := rfl
@[simp] theorem performedFor_hwlen (s : State) (o : List Nat) (i t : Nat) : (s.performedFor o i t).hwlen = s.hwlen := rfl
@[simp] theorem performedFor_ig (s : State) (o : List Nat) (i t : Nat) : (s.performedFor o i t).ig = s.ig := rfl
@[simp] theorem performedFor_cores (s : State) (o : List Nat) (i t : Nat) : (s.performedFor o i t).cores = s.cores := rfl
@[simp] theorem performedFor_dieState (s : State) (o : List Nat) (i t : Nat) : (s.performedFor o i t).dieState = s.dieState := rfl
@[simp] theorem performedFor_mapped (s : State) (o : List Nat) (i t : Nat) : (s.performedFor o i t).mapped = s.mapped := rfl
@[simp] theorem performedFor_lost (s : State) (o : List Nat) (i t : Nat) : (s.performedFor o i t).lost = s.lost := rfl
@[simp] theorem performedFor_chanMap (s : State) (o : List Nat) (i t : Nat) : (s.performedFor o i t).chanMap = s.chanMap := rfl
@[simp] theorem performedFor_mxerr (s : State) (o : List Nat) (i t : Nat) : (s.performedFor o i t).mxerr = s.mxerr := rfl
@[simp] theorem performedFor_tarnPhase (s : State) (o : List Nat) (i t : Nat) : (s.performedFor o i t).tarnPhase = s.tarnPhase := rfl
@[simp] theorem performedFor_refresh (s : State) (o : List Nat) (i t : Nat) : (s.performedFor o i t).refresh = s.refresh := rfl
@[simp] theorem performedFor_tarn (s : State) (o : List Nat) (i t : Nat) : (s.performedFor o i t).tarn = s.tarn := rfl
@[simp] theorem performedFor_tarnFailing (s : State) (o : List Nat) (i t : Nat) : (s.performedFor o i t).tarnFailing = s.tarnFailing := rfl
@[simp] theorem performedFor_tarnReported (s : State) (o : List Nat) (i t : Nat) : (s.performedFor o i t).tarnReported = s.tarnReported := rfl
@[simp] theorem performedFor_chip (s : State) (o : List Nat) (i t : Nat) : (s.performedFor o i t).chip = s.chip := rfl
@[simp] theorem performedFor_ports (s : State) (o : List Nat) (i t : Nat) : (s.performedFor o i t).ports = s.ports := rfl
@[simp] theorem performedFor_hosts (s : State) (o : List Nat) (i t : Nat) : (s.performedFor o i t).hosts = s.hosts := rfl
@[simp] theorem performedFor_windows (s : State) (o : List Nat) (i t : Nat) : (s.performedFor o i t).windows = s.windows := rfl
@[simp] theorem performedFor_inbound (s : State) (o : List Nat) (i t : Nat) : (s.performedFor o i t).inbound = s.inbound := rfl
@[simp] theorem performedFor_hostData (s : State) (o : List Nat) (i t : Nat) : (s.performedFor o i t).hostData = s.hostData := rfl
@[simp] theorem performedFor_hostHorizon (s : State) (o : List Nat) (i t : Nat) : (s.performedFor o i t).hostHorizon = s.hostHorizon := rfl
@[simp] theorem performedFor_msix (s : State) (o : List Nat) (i t : Nat) : (s.performedFor o i t).msix = s.msix := rfl
@[simp] theorem performedFor_mailbox (s : State) (o : List Nat) (i t : Nat) : (s.performedFor o i t).mailbox = s.mailbox := rfl
@[simp] theorem performedFor_flash (s : State) (o : List Nat) (i t : Nat) : (s.performedFor o i t).flash = s.flash := rfl
@[simp] theorem performedFor_image (s : State) (o : List Nat) (i t : Nat) : (s.performedFor o i t).image = s.image := rfl
@[simp] theorem performedFor_bringup (s : State) (o : List Nat) (i t : Nat) : (s.performedFor o i t).bringup = s.bringup := rfl
@[simp] theorem performedFor_offline (s : State) (o : List Nat) (i t : Nat) : (s.performedFor o i t).offline = s.offline := rfl
@[simp] theorem performedFor_clock (s : State) (o : List Nat) (i t : Nat) : (s.performedFor o i t).clock = s.clock := rfl
@[simp] theorem performedFor_sampled (s : State) (o : List Nat) (i t : Nat) : (s.performedFor o i t).sampled = s.sampled := rfl
@[simp] theorem performedFor_leaf (s : State) (o : List Nat) (i t : Nat) : (s.performedFor o i t).leaf = s.leaf := rfl
@[simp] theorem performedFor_quotes (s : State) (o : List Nat) (i t : Nat) : (s.performedFor o i t).quotes = s.quotes := rfl
@[simp] theorem performedFor_time (s : State) (o : List Nat) (i t : Nat) : (s.performedFor o i t).time = s.time := rfl
@[simp] theorem performedFor_turn (s : State) (o : List Nat) (i t : Nat) : (s.performedFor o i t).turn = s.turn := rfl
@[simp] theorem performedFor_cur (s : State) (o : List Nat) (i t : Nat) : (s.performedFor o i t).cur = s.cur := rfl
@[simp] theorem performedFor_arg (s : State) (o : List Nat) (i t : Nat) : (s.performedFor o i t).arg = s.arg := rfl
@[simp] theorem performedFor_inputs (s : State) (o : List Nat) (i t : Nat) : (s.performedFor o i t).inputs = s.inputs := rfl
@[simp] theorem performedFor_since (s : State) (o : List Nat) (i t : Nat) : (s.performedFor o i t).since = s.since := rfl
@[simp] theorem performedFor_stamp (s : State) (o : List Nat) (i t : Nat) : (s.performedFor o i t).stamp = s.stamp := rfl
@[simp] theorem performedFor_nextId (s : State) (o : List Nat) (i t : Nat) : (s.performedFor o i t).nextId = s.nextId := rfl

/-! ### State.publish -/

@[simp] theorem publish_mem (s : State) (n d : Nat) (o w : List Nat) (i : Nat) : (s.publish n d o w i).mem = s.mem := rfl
@[simp] theorem publish_lineMarks (s : State) (n d : Nat) (o w : List Nat) (i : Nat) : (s.publish n d o w i).lineMarks = s.lineMarks := rfl
@[simp] theorem publish_l1 (s : State) (n d : Nat) (o w : List Nat) (i : Nat) : (s.publish n d o w i).l1 = s.l1 := rfl
@[simp] theorem publish_epochs (s : State) (n d : Nat) (o w : List Nat) (i : Nat) : (s.publish n d o w i).epochs = s.epochs := rfl
@[simp] theorem publish_guests (s : State) (n d : Nat) (o w : List Nat) (i : Nat) : (s.publish n d o w i).guests = s.guests := rfl
@[simp] theorem publish_dirs (s : State) (n d : Nat) (o w : List Nat) (i : Nat) : (s.publish n d o w i).dirs = s.dirs := rfl
@[simp] theorem publish_writes (s : State) (n d : Nat) (o w : List Nat) (i : Nat) : (s.publish n d o w i).writes = s.writes := rfl
@[simp] theorem publish_staged (s : State) (n d : Nat) (o w : List Nat) (i : Nat) : (s.publish n d o w i).staged = s.staged := rfl
@[simp] theorem publish_forward (s : State) (n d : Nat) (o w : List Nat) (i : Nat) : (s.publish n d o w i).forward = s.forward := rfl
@[simp] theorem publish_tlb (s : State) (n d : Nat) (o w : List Nat) (i : Nat) : (s.publish n d o w i).tlb = s.tlb := rfl
@[simp] theorem publish_ops (s : State) (n d : Nat) (o w : List Nat) (i : Nat) : (s.publish n d o w i).ops = s.ops := rfl
@[simp] theorem publish_blocks (s : State) (n d : Nat) (o w : List Nat) (i : Nat) : (s.publish n d o w i).blocks = s.blocks := rfl
@[simp] theorem publish_launches (s : State) (n d : Nat) (o w : List Nat) (i : Nat) : (s.publish n d o w i).launches = s.launches := rfl
@[simp] theorem publish_slots (s : State) (n d : Nat) (o w : List Nat) (i : Nat) : (s.publish n d o w i).slots = s.slots := rfl
@[simp] theorem publish_bins (s : State) (n d : Nat) (o w : List Nat) (i : Nat) : (s.publish n d o w i).bins = s.bins := rfl
@[simp] theorem publish_queues (s : State) (n d : Nat) (o w : List Nat) (i : Nat) : (s.publish n d o w i).queues = s.queues := rfl
@[simp] theorem publish_gvt (s : State) (n d : Nat) (o w : List Nat) (i : Nat) : (s.publish n d o w i).gvt = s.gvt := rfl
@[simp] theorem publish_qi (s : State) (n d : Nat) (o w : List Nat) (i : Nat) : (s.publish n d o w i).qi = s.qi := rfl
@[simp] theorem publish_quarantine (s : State) (n d : Nat) (o w : List Nat) (i : Nat) : (s.publish n d o w i).quarantine = s.quarantine := rfl
@[simp] theorem publish_astbase (s : State) (n d : Nat) (o w : List Nat) (i : Nat) : (s.publish n d o w i).astbase = s.astbase := rfl
@[simp] theorem publish_hwbase (s : State) (n d : Nat) (o w : List Nat) (i : Nat) : (s.publish n d o w i).hwbase = s.hwbase := rfl
@[simp] theorem publish_hwlen (s : State) (n d : Nat) (o w : List Nat) (i : Nat) : (s.publish n d o w i).hwlen = s.hwlen := rfl
@[simp] theorem publish_ig (s : State) (n d : Nat) (o w : List Nat) (i : Nat) : (s.publish n d o w i).ig = s.ig := rfl
@[simp] theorem publish_cores (s : State) (n d : Nat) (o w : List Nat) (i : Nat) : (s.publish n d o w i).cores = s.cores := rfl
@[simp] theorem publish_dieState (s : State) (n d : Nat) (o w : List Nat) (i : Nat) : (s.publish n d o w i).dieState = s.dieState := rfl
@[simp] theorem publish_mapped (s : State) (n d : Nat) (o w : List Nat) (i : Nat) : (s.publish n d o w i).mapped = s.mapped := rfl
@[simp] theorem publish_lost (s : State) (n d : Nat) (o w : List Nat) (i : Nat) : (s.publish n d o w i).lost = s.lost := rfl
@[simp] theorem publish_chanMap (s : State) (n d : Nat) (o w : List Nat) (i : Nat) : (s.publish n d o w i).chanMap = s.chanMap := rfl
@[simp] theorem publish_mxerr (s : State) (n d : Nat) (o w : List Nat) (i : Nat) : (s.publish n d o w i).mxerr = s.mxerr := rfl
@[simp] theorem publish_tarnPhase (s : State) (n d : Nat) (o w : List Nat) (i : Nat) : (s.publish n d o w i).tarnPhase = s.tarnPhase := rfl
@[simp] theorem publish_refresh (s : State) (n d : Nat) (o w : List Nat) (i : Nat) : (s.publish n d o w i).refresh = s.refresh := rfl
@[simp] theorem publish_tarn (s : State) (n d : Nat) (o w : List Nat) (i : Nat) : (s.publish n d o w i).tarn = s.tarn := rfl
@[simp] theorem publish_tarnFailing (s : State) (n d : Nat) (o w : List Nat) (i : Nat) : (s.publish n d o w i).tarnFailing = s.tarnFailing := rfl
@[simp] theorem publish_tarnReported (s : State) (n d : Nat) (o w : List Nat) (i : Nat) : (s.publish n d o w i).tarnReported = s.tarnReported := rfl
@[simp] theorem publish_chip (s : State) (n d : Nat) (o w : List Nat) (i : Nat) : (s.publish n d o w i).chip = s.chip := rfl
@[simp] theorem publish_ports (s : State) (n d : Nat) (o w : List Nat) (i : Nat) : (s.publish n d o w i).ports = s.ports := rfl
@[simp] theorem publish_hosts (s : State) (n d : Nat) (o w : List Nat) (i : Nat) : (s.publish n d o w i).hosts = s.hosts := rfl
@[simp] theorem publish_windows (s : State) (n d : Nat) (o w : List Nat) (i : Nat) : (s.publish n d o w i).windows = s.windows := rfl
@[simp] theorem publish_inbound (s : State) (n d : Nat) (o w : List Nat) (i : Nat) : (s.publish n d o w i).inbound = s.inbound := rfl
@[simp] theorem publish_hostData (s : State) (n d : Nat) (o w : List Nat) (i : Nat) : (s.publish n d o w i).hostData = s.hostData := rfl
@[simp] theorem publish_hostHorizon (s : State) (n d : Nat) (o w : List Nat) (i : Nat) : (s.publish n d o w i).hostHorizon = s.hostHorizon := rfl
@[simp] theorem publish_msix (s : State) (n d : Nat) (o w : List Nat) (i : Nat) : (s.publish n d o w i).msix = s.msix := rfl
@[simp] theorem publish_mailbox (s : State) (n d : Nat) (o w : List Nat) (i : Nat) : (s.publish n d o w i).mailbox = s.mailbox := rfl
@[simp] theorem publish_flash (s : State) (n d : Nat) (o w : List Nat) (i : Nat) : (s.publish n d o w i).flash = s.flash := rfl
@[simp] theorem publish_image (s : State) (n d : Nat) (o w : List Nat) (i : Nat) : (s.publish n d o w i).image = s.image := rfl
@[simp] theorem publish_bringup (s : State) (n d : Nat) (o w : List Nat) (i : Nat) : (s.publish n d o w i).bringup = s.bringup := rfl
@[simp] theorem publish_offline (s : State) (n d : Nat) (o w : List Nat) (i : Nat) : (s.publish n d o w i).offline = s.offline := rfl
@[simp] theorem publish_clock (s : State) (n d : Nat) (o w : List Nat) (i : Nat) : (s.publish n d o w i).clock = s.clock := rfl
@[simp] theorem publish_sampled (s : State) (n d : Nat) (o w : List Nat) (i : Nat) : (s.publish n d o w i).sampled = s.sampled := rfl
@[simp] theorem publish_leaf (s : State) (n d : Nat) (o w : List Nat) (i : Nat) : (s.publish n d o w i).leaf = s.leaf := rfl
@[simp] theorem publish_quotes (s : State) (n d : Nat) (o w : List Nat) (i : Nat) : (s.publish n d o w i).quotes = s.quotes := rfl
@[simp] theorem publish_time (s : State) (n d : Nat) (o w : List Nat) (i : Nat) : (s.publish n d o w i).time = s.time := rfl
@[simp] theorem publish_turn (s : State) (n d : Nat) (o w : List Nat) (i : Nat) : (s.publish n d o w i).turn = s.turn := rfl
@[simp] theorem publish_cur (s : State) (n d : Nat) (o w : List Nat) (i : Nat) : (s.publish n d o w i).cur = s.cur := rfl
@[simp] theorem publish_arg (s : State) (n d : Nat) (o w : List Nat) (i : Nat) : (s.publish n d o w i).arg = s.arg := rfl
@[simp] theorem publish_inputs (s : State) (n d : Nat) (o w : List Nat) (i : Nat) : (s.publish n d o w i).inputs = s.inputs := rfl
@[simp] theorem publish_since (s : State) (n d : Nat) (o w : List Nat) (i : Nat) : (s.publish n d o w i).since = s.since := rfl
@[simp] theorem publish_stamp (s : State) (n d : Nat) (o w : List Nat) (i : Nat) : (s.publish n d o w i).stamp = s.stamp := rfl
@[simp] theorem publish_nextId (s : State) (n d : Nat) (o w : List Nat) (i : Nat) : (s.publish n d o w i).nextId = s.nextId := rfl

end Machine
end Sys2Proof
end

