-- ==== Sys2Proof/Laws/Memory.lean ====
section
/-! SUPPORT. Every operation that writes memory keeps its canonical form, and what the first of them leave in it; the others keep it by
these. -/

namespace Sys2Proof
namespace Machine

/-- A property that every step of a fold keeps stands after it. -/
theorem foldl_keeps {α β : Type} (P : β → Prop) (f : β → α → β) (l : List α) (b : β) (h : P b) (hf : ∀ b a, P b → P (f b a)) :
    P (l.foldl f b) := by
  induction l generalizing b with
  | nil => exact h
  | cons a l ih => exact ih _ (hf b a h)

/-! ### Bytes by physical address -/

/-- Read a byte after several have been written at places that differ from it. -/
theorem putBytes_get_other (l : List (Nat × Byte)) (m : List Host.Cell) (p : Nat) (h : ∀ k ∈ l, k.1 ≠ p) :
    SMap.get 0 (l.foldl (fun m k => SMap.set 0 m k.1 k.2) m) p = SMap.get 0 m p := by
  induction l generalizing m with
  | nil => rfl
  | cons k l ih =>
    rw [List.foldl_cons, ih _ fun j hj => h j (List.mem_cons_of_mem _ hj), SMap.get_set]
    have := h k (List.mem_cons_self ..)
    simp [Ne.symm this]

/-- Read a byte that has been written once. -/
theorem putBytes_get_self (l : List (Nat × Byte)) (m : List Host.Cell) (hn : (l.map fun k => k.1).Nodup) (k : Nat × Byte) (hk : k ∈ l) :
    SMap.get 0 (l.foldl (fun m k => SMap.set 0 m k.1 k.2) m) k.1 = k.2 := by
  induction l generalizing m with
  | nil => cases hk
  | cons j l ih =>
    rw [List.map_cons, List.nodup_cons] at hn
    rw [List.foldl_cons]
    rcases List.mem_cons.mp hk with rfl | hk
    · rw [putBytes_get_other l _ k.1 fun i hi he => hn.1 (List.mem_map.mpr ⟨i, hi, he⟩), SMap.get_set]; simp
    · exact ih _ hn.2 hk

theorem putBytes_wf (s : State) (l : List (Nat × Byte)) (h : Memory.wf s.mem = true) : Memory.wf (s.putBytes l).mem = true :=
  foldl_keeps (fun m => Memory.wf m = true) _ l s.mem h fun m p hm => SMap.wf_set 0 m p.1 p.2 hm

/-! ### A line at its home -/

@[simp] theorem wake_mem (s : State) (hit : Monitor → Bool) (n : Nat) : (s.wake hit n).mem = s.mem := rfl
@[simp] theorem wakeLine_mem (s : State) (n : Nat) (b : SMap Byte) : (s.wakeLine n b).mem = s.mem := rfl
@[simp] theorem wake_forward (s : State) (hit : Monitor → Bool) (n : Nat) : (s.wake hit n).forward = s.forward := rfl
@[simp] theorem wakeLine_forward (s : State) (n : Nat) (b : SMap Byte) : (s.wakeLine n b).forward = s.forward := rfl
@[simp] theorem raiseMsix_mem (s : State) (v : Nat) : (s.raiseMsix v).mem = s.mem := rfl
@[simp] theorem modSub_mem (s : State) (r : SubRef) (f : SubGroup → SubGroup) : (s.modSub r f).mem = s.mem := rfl
@[simp] theorem modSub_forward (s : State) (r : SubRef) (f : SubGroup → SubGroup) : (s.modSub r f).forward = s.forward := rfl
@[simp] theorem dropOp_mem (s : State) (id : Nat) : (s.dropOp id).mem = s.mem := rfl
@[simp] theorem newOp_mem (s : State) (o : Op) : (s.newOp o).mem = s.mem := rfl
@[simp] theorem defer_mem (s : State) (o : Op) (c d a t : Nat) : (s.defer o c d a t).mem = s.mem := rfl
@[simp] theorem stopLaunch_mem (s : State) (l a b i : Nat) : (s.stopLaunch l a b i).mem = s.mem := rfl
@[simp] theorem takeTrap_mem (s : State) (g : Group) (r : SubRef) (t : TrapReq) (pc : Dword) (n : Nat) (b : Bool) :
    (s.takeTrap g r t pc n b).mem = s.mem := rfl
@[simp] theorem takeTrap_forward (s : State) (g : Group) (r : SubRef) (t : TrapReq) (pc : Dword) (n : Nat) (b : Bool) :
    (s.takeTrap g r t pc n b).forward = s.forward := rfl
@[simp] theorem updateContention_mem (s : State) : s.updateContention.mem = s.mem := rfl
@[simp] theorem modQueue_mem (s : State) (q : Nat) (f : Queue → Queue) : (s.modQueue q f).mem = s.mem := rfl
@[simp] theorem deferOnce_mem (s : State) (o : Op) (c d a : Nat) : (s.deferOnce o c d a).mem = s.mem := by
  unfold State.deferOnce; split
  · split <;> rfl
  · rfl
@[simp] theorem integrityError_mem (s : State) (ops : List Nat) (line : Nat) : (s.integrityError ops line).mem = s.mem :=
  foldl_keeps (fun t : State => t.mem = s.mem) _ ops s rfl fun t id ht => by split <;> simp [ht]
@[simp] theorem endCommand_mem (s : State) (n : Nat) (b : List Byte) : (s.endCommand n b).mem = s.mem := rfl

@[simp] theorem event_mem (s : State) (t d a : Nat) : (s.event t d a).mem = s.mem := by
  unfold State.event; dsimp only; split
  · rfl
  · split <;> rfl
@[simp] theorem foundDamaged_mem (s : State) (n : Nat) : (s.foundDamaged n).mem = s.mem := by
  unfold State.foundDamaged; dsimp only; split
  · rfl
  · simp
@[simp] theorem event_forward (s : State) (t d a : Nat) : (s.event t d a).forward = s.forward := by
  unfold State.event; dsimp only; split
  · rfl
  · split <;> rfl
@[simp] theorem foundFailing_mem (s : State) (n : Nat) : (s.foundFailing n).mem = s.mem := by
  unfold State.foundFailing; dsimp only; split
  · simp
  · rfl
@[simp] theorem foundFailing_forward (s : State) (n : Nat) : (s.foundFailing n).forward = s.forward := by
  unfold State.foundFailing; dsimp only; split
  · simp
  · rfl
@[simp] theorem taint_mem (s : State) (n : Nat) (b : Bool) : (s.taint n b).mem = s.mem := by
  unfold State.taint; split <;> rfl
@[simp] theorem taint_forward (s : State) (n : Nat) (b : Bool) : (s.taint n b).forward = s.forward := by
  unfold State.taint; split <;> rfl

/-- A merge writes the bytes of its line, where the line stands (R38 01_machine.md, R290 12_translation.md). -/
theorem mergeHome_mem (s : State) (line die : Nat) (b : SMap Byte) (p : Bool) :
    (s.mergeHome line die b p).mem = (s.putBytes (b.map fun k => (64 * line + k.1, k.2))).mem := by
  simp only [State.mergeHome, State.wakeLine, State.putBytes]
  split <;> simp
@[simp] theorem mergeHome_forward (s : State) (line die : Nat) (b : SMap Byte) (p : Bool) :
    (s.mergeHome line die b p).forward = s.forward := by
  simp only [State.mergeHome, State.wakeLine, State.putBytes]
  split <;> simp
theorem mergeHome_wf (s : State) (line die : Nat) (b : SMap Byte) (p : Bool) (h : Memory.wf s.mem = true) :
    Memory.wf (s.mergeHome line die b p).mem = true := by
  rw [mergeHome_mem]; exact putBytes_wf s _ h
theorem merge_mem (s : State) (line die : Nat) (b : SMap Byte) (p : Bool) :
    (s.merge line die b p).mem = (s.putBytes (b.map fun k => (64 * s.fwd line + k.1, k.2))).mem := mergeHome_mem _ _ _ _ _
@[simp] theorem merge_forward (s : State) (line die : Nat) (b : SMap Byte) (p : Bool) : (s.merge line die b p).forward = s.forward :=
  mergeHome_forward _ _ _ _ _

theorem merge_get_other (s : State) (line die : Nat) (b : SMap Byte) (p : Bool) (a : Nat) (h : ∀ k ∈ b, 64 * s.fwd line + k.1 ≠ a) :
    SMap.get 0 (s.merge line die b p).mem a = SMap.get 0 s.mem a := by
  rw [merge_mem]
  exact putBytes_get_other _ _ a (by intro k hk; obtain ⟨j, hj, rfl⟩ := List.mem_map.mp hk; exact h j hj)

theorem merge_get_self (s : State) (line die : Nat) (b : SMap Byte) (p : Bool) (hn : (b.map fun k => k.1).Nodup) (k : Nat × Byte) (hk : k ∈ b) :
    SMap.get 0 (s.merge line die b p).mem (64 * s.fwd line + k.1) = k.2 := by
  rw [merge_mem]
  refine putBytes_get_self (b.map fun k => (64 * s.fwd line + k.1, k.2)) s.mem ?_ (64 * s.fwd line + k.1, k.2) (List.mem_map.mpr ⟨k, hk, rfl⟩)
  rw [List.map_map]
  have : ((fun k : Nat × Byte => k.1) ∘ fun k : Nat × Byte => (64 * s.fwd line + k.1, k.2)) = (fun n => 64 * s.fwd line + n) ∘ fun k : Nat × Byte => k.1 := rfl
  rw [this, ← List.map_map]
  refine List.pairwise_map.mpr (hn.imp ?_)
  intro a b hab he
  omega

theorem merge_wf (s : State) (line die : Nat) (b : SMap Byte) (p : Bool) (h : Memory.wf s.mem = true) :
    Memory.wf (s.merge line die b p).mem = true := by
  rw [merge_mem]; exact putBytes_wf s _ h

/-! ### What is written through merges -/

theorem writeHome_wf (s : State) (die : Nat) (o : List Nat) (l : List (Nat × Byte)) (h : Memory.wf s.mem = true) :
    Memory.wf (s.writeHome die o l).mem = true := by
  refine foldl_keeps (fun t : State => Memory.wf t.mem = true) _ _ s h ?_
  intro t k ht
  simp only [publish_mem]
  exact merge_wf _ _ _ _ _ ht

theorem engineWrite_wf (s : State) (l : Launch) (die : Nat) (o : List Nat) (va : Nat) (b : List Byte) (h : Memory.wf s.mem = true) :
    Memory.wf (s.engineWrite l die o va b).mem = true := by
  unfold State.engineWrite
  split
  · exact h
  · exact writeHome_wf _ _ _ _ h

@[simp] theorem endLaunch_mem (s : State) (l n : Nat) : (s.endLaunch l n).mem = s.mem := rfl

theorem saveBytes_wf (l : Launch) (die : Nat) (o : List Nat) (n : Nat) (s : State) (va : Nat) (b : List Byte) (h : Memory.wf s.mem = true) :
    Memory.wf (s.saveBytes l die o va n b).mem = true := by
  induction n generalizing s va b with
  | zero => exact h
  | succ n ih =>
    cases b with
    | nil => exact h
    | cons a b =>
      simp only [State.saveBytes]
      split
      · exact h
      · exact ih _ _ _ (writeHome_wf _ _ _ _ h)

theorem saveBlock_wf (s : State) (l : Launch) (b : Block) (h : Memory.wf s.mem = true) : Memory.wf (s.saveBlock l b).mem = true := by
  unfold State.saveBlock
  rw [modBlock_mem]
  refine foldl_keeps (fun t : State => Memory.wf t.mem = true) _ _ s h ?_
  intro t p ht
  split
  · split
    · exact ht
    · exact saveBytes_wf _ _ _ _ _ _ _ ht
  · exact ht

theorem performWrite_wf (s : State) (w : HomeWrite) (h : Memory.wf s.mem = true) : Memory.wf (s.performWrite w).mem = true := by
  unfold State.performWrite
  dsimp only
  split
  · exact h
  · split
    · simpa using h
    · simp only [publish_mem, taint_mem]
      exact mergeHome_wf _ _ _ _ _ h

theorem releaseOne_wf (s : State) (o : List Nat) (w : Staged) (h : Memory.wf s.mem = true) : Memory.wf (s.releaseOne o w).mem = true := by
  unfold State.releaseOne
  dsimp only
  split
  · simp only [publish_mem, taint_mem]; exact mergeHome_wf _ _ _ _ _ h
  · split
    · simpa using h
    · split
      · exact h
      · simp only [publish_mem]; exact merge_wf _ _ _ _ _ h

theorem peerWrite_wf (s : State) (id : Nat) (l : List (Nat × SMap Byte × Bool)) (h : Memory.wf s.mem = true) :
    Memory.wf (s.peerWrite id l).mem = true := by
  refine foldl_keeps (fun t : State => Memory.wf t.mem = true) _ _ s h ?_
  intro t k ht
  simp only [publish_mem]
  exact merge_wf _ _ _ _ _ ht

theorem hostWrite_wf (s : State) (line : Nat) (b : SMap Byte) (h : Memory.wf s.mem = true) : Memory.wf (s.hostWrite line b).mem = true :=
  merge_wf _ _ _ _ _ h

theorem writeCompletion_wf (s : State) (l : Launch) (n : Nat) (h : Memory.wf s.mem = true) : Memory.wf (s.writeCompletion l n).2.mem = true := by
  unfold State.writeCompletion
  split
  · exact h
  · split
    · exact h
    · exact writeHome_wf _ _ _ _ h

theorem signalUnit_wf (s : State) (asid : Nat) (priv : Bool) (va v : Nat) (h : Memory.wf s.mem = true) :
    Memory.wf (s.signalUnit asid priv va v).mem = true := by
  unfold State.signalUnit
  split
  · exact h
  · dsimp only
    split
    · simpa using h
    · exact writeHome_wf _ _ _ _ h

/-! ### Moving pages -/

theorem copyLine_wf (s : State) (a b : Nat) (h : Memory.wf s.mem = true) : Memory.wf (s.copyLine a b).mem = true :=
  putBytes_wf _ _ (by rw [show (State.mem _) = _ from foundFailing_mem s (s.fwd a)]; exact h)

@[simp] theorem dropL1_mem (s : State) (c n : Nat) : (s.dropL1 c n).mem = s.mem := rfl
@[simp] theorem putL1_mem (s : State) (x : L1Line) : (s.putL1 x).mem = s.mem := rfl
@[simp] theorem send_mem (s : State) (w : HomeWrite) (l : Nat) : (s.send w l).mem = s.mem := by
  unfold State.send State.countReq; dsimp only; split <;> rfl
@[simp] theorem flushLine_mem (s : State) (x : L1Line) : (s.flushLine x).mem = s.mem := by
  unfold State.flushLine
  split
  · rfl
  · dsimp only; split <;> simp

theorem movePage_wf (s : State) (a b n : Nat) (h : Memory.wf s.mem = true) : Memory.wf (s.movePage a b n).mem = true := by
  unfold State.movePage
  dsimp only
  refine foldl_keeps (fun t : State => Memory.wf t.mem = true) _ _ _ ?_ fun t _ ht => copyLine_wf t _ _ ht
  refine foldl_keeps (fun t : State => Memory.wf t.mem = true) _ _ s h fun t x ht => ?_
  split
  · simpa using ht
  · exact ht

theorem writeLeaf_wf (s : State) (a d : Nat) (x y : Dword) (h : Memory.wf s.mem = true) : Memory.wf (s.writeLeaf a d x y).mem = true :=
  writeHome_wf _ _ _ _ h

theorem scrub_wf (s : State) (a n : Nat) (h : Memory.wf s.mem = true) : Memory.wf (s.scrub a n).mem = true := by
  unfold State.scrub
  generalize (List.range 64).map (fun j => (j, (0 : Byte))) = z
  refine foldl_keeps (fun t : State => Memory.wf t.mem = true) _ _ s h ?_
  intro t k ht
  exact mergeHome_wf t _ 5 z false ht

/-! ### What executors perform -/

@[simp] theorem raiseEdges_mem (s : State) (i t : Nat) : (s.raiseEdges i t).mem = s.mem := rfl
@[simp] theorem atomDone_mem (s : State) (o : Op) (i : Nat) (r : AtomReq) (b : List Byte) (f : Flags) (m : Option Mark) :
    (s.atomDone o i r b f m).mem = s.mem := rfl
@[simp] theorem dropClean_mem (s : State) (c n : Nat) : (s.dropClean c n).mem = s.mem := by
  unfold State.dropClean
  split
  · split <;> rfl
  · rfl
@[simp] theorem modTile_mem (s : State) (l b c k : Nat) (f : Tile → Tile) : (s.modTile l b c k f).mem = s.mem := rfl
@[simp] theorem complete_mem (s : State) (id : Nat) : (s.complete id).mem = s.mem := by
  unfold State.complete
  split
  · rfl
  · rw [modGroup_mem, dropOp_mem]
    exact foldl_keeps (fun t : State => t.mem = s.mem) _ _ _ rfl fun t _ ht => ht

@[simp] theorem landed_mem (s : State) (id : Nat) : (s.landed id).mem = s.mem := by
  unfold State.landed
  split
  · rfl
  · split
    · exact complete_mem s id
    · rfl
@[simp] theorem atomEdge_mem (s : State) (o : Op) : (s.atomEdge o).mem = s.mem := by
  unfold State.atomEdge
  split
  · split <;> rfl
  · rfl
@[simp] theorem aimgEdge_mem (s : State) (id : Nat) (b : Bool) : (s.aimgEdge id b).mem = s.mem := by
  unfold State.aimgEdge; split <;> rfl

theorem atomPerform_wf (s : State) (o : Op) (i : Nat) (r : AtomReq) (h : Memory.wf s.mem = true) :
    Memory.wf (s.atomPerform o i r).mem = true := by
  unfold State.atomPerform
  dsimp only
  repeat' split
  all_goals first
    | (simp only [atomEdge_mem, publish_mem, raiseEdges_mem, dropClean_mem]; exact merge_wf _ _ _ _ _ h)
    | (simp; exact h)

theorem aimgPerform_wf (s : State) (o : Op) (q : List AimgReq) (i : Nat) (r : AimgReq) (h : Memory.wf s.mem = true) :
    Memory.wf (s.aimgPerform o q i r).mem = true := by
  unfold State.aimgPerform
  dsimp only
  split
  · rw [aimgEdge_mem]
    refine foldl_keeps (fun t : State => Memory.wf t.mem = true) _ _ _ ?_ (fun t _ ht => by rw [landed_mem]; exact ht)
    rw [defer_mem]
    exact foldl_keeps (fun t : State => Memory.wf t.mem = true) _ _ _ h (fun t _ ht => by rw [foundFailing_mem]; exact ht)
  · rw [aimgEdge_mem]
    refine foldl_keeps (fun t : State => Memory.wf t.mem = true) _ _ _ h ?_
    intro t k ht
    simp only [publish_mem, raiseEdges_mem, dropClean_mem]
    exact merge_wf _ _ _ _ _ ht

/-! ### Placing one instruction -/

theorem layBytes_wf (m : List Host.Cell) (a : Nat) (b : List Byte) (h : Memory.wf m = true) : Memory.wf (layBytes m a b) = true := by
  have key : ∀ (l : List (Byte × Nat)) (m : List Host.Cell), Memory.wf m = true →
      Memory.wf (l.foldl (fun (m : List Host.Cell) (k : Byte × Nat) => SMap.set 0 m (a + k.2) k.1) m) = true := by
    intro l
    induction l with
    | nil => intro m h; exact h
    | cons k l ih => intro m h; exact ih _ (SMap.wf_set 0 m _ _ h)
  exact key b.zipIdx m h

theorem probeMem_wf (m : List Host.Cell) (b : List Byte) (h : Memory.wf m = true) : Memory.wf (probeMem m b) = true := by
  unfold probeMem
  exact layBytes_wf _ probeBase _ (layBytes_wf _ probeTop _ (layBytes_wf _ probeNext _ (layBytes_wf _ (probeFrame + probeEntry) _ h)))

@[simp] theorem strikeLines_mem (s : State) : s.strikeLines.mem = s.mem := rfl
@[simp] theorem strikeCopies_mem (s : State) : s.strikeCopies.mem = s.mem := by unfold State.strikeCopies; dsimp only; split <;> rfl
@[simp] theorem strikeUnits_mem (s : State) : s.strikeUnits.mem = s.mem := by unfold State.strikeUnits; dsimp only; split <;> split <;> rfl
@[simp] theorem strike_mem (s : State) : s.strike.mem = s.mem := by simp [State.strike]
@[simp] theorem take_mem (s : State) (t : Turn) : (s.take t).mem = s.mem := by unfold State.take; split <;> rfl
/-- What moves next, the world and what storage loses write nothing (R38 to R40 01_machine.md): a lost value is marked where it stands. -/
theorem proceed_mem (s : State) (l : List (Turn × Nat)) : (s.proceed l).mem = s.mem := by simp [State.proceed, State.giveTurn]

theorem withFetchWord_wf (s : State) (n w : Nat) (h : Memory.wf s.mem = true) : Memory.wf (s.withFetchWord n w).mem = true := by
  unfold State.withFetchWord
  dsimp only
  exact probeMem_wf s.mem (natBytes 28 (w % 2 ^ n)) h

end Machine
end Sys2Proof
end

