-- ==== Sys2Proof/Tests/Slice0.lean ====
section
/-! SUPPORT. Tests of the model on fixed values (each names where its expected result stands in the spec), and for each statement with
hypotheses a state and operands that meet them. -/

namespace Sys2Proof
namespace Tests

open Machine

set_option Elab.async false

/-! ### Instructions and states -/

/-- An extended instruction without literal. -/
def ext (d a : BitVec 9) (w1 : Word) : Ext := { d := d, a := a, p := 0, w1 := w1, w2 := 0, lit := none }
/-- A base instruction with D = v10, A = v2. -/
def bas (m : BitVec 6) : Base := { d := 10, a := 2, m := m }
/-- Source B (WORD1[31:23]), source C (WORD1[22:14]) and SUB[10:0] with TYPE (R49, R50). -/
def src1 (b c sub ty : Nat) : Word := BitVec.ofNat 32 (b * 2 ^ 23 + c * 2 ^ 14 + sub * 2 ^ 5 + ty)

/-- A group of one member that stands at an instruction, with the group's turn. -/
def bare : State := { State.reset.withFetchWord 32 0x00400000 with cur := { grp := 2, sub := 0 } }

/-- The same with values in v2, v4 and v6, lane by lane. -/
def base : State := bare.modGroup 2 fun g => { g with vregs :=
  [(2, [(0, 0x3FC00000), (1, 0x7FC00000), (2, 0x7F800001), (3, 0x7F800000), (4, 0xFF800000), (5, 0x80000000), (6, 0x00000001), (7, 7),
        (8, 0x3F800000), (9, 0x80000000), (10, 0xBF800000), (11, 0x7F7FFFFF), (12, 0x40000000), (13, 0x3F800000), (14, 0x00800000),
        (15, 0x7F800000), (16, 0x3F800000), (17, 0x7FC00000), (18, 0xC0000000), (19, 0x3F000000)]),
   (4, [(0, 0x40000000), (1, 0x3F800000), (2, 0x3F800000), (3, 0xFF800000), (4, 0x7F800000), (5, 0xFFFFFFFF), (6, 0x00000001), (7, 0),
        (8, 0xBF800000), (9, 0x00000000), (11, 0x7F7FFFFF), (12, 0x00010021), (13, 0x33800000), (14, 0x00800000), (16, 0x7F800000), (17, 0x7FC00000)]),
   (6, [(0, 0x3F800000), (7, 0x0000FF03)])] }

/-- The issuing sub-group meets `P`, and every instruction of the list is ready in the state. -/
def meets (s : State) (is : List Instr) (P : Cx → Bool) : Bool :=
  match s.issuer with
  | none => false
  | some c => P c && is.all fun i => match portForm i with
    | none => false
    | some (_, x, f) => i.wf && formFails x f == [] && dynFails c x f == [] &&
        (c.markFault (formUses x f) (c.threads x.p) (f.dest.isUni x.d || !f.guard)).isNone && !c.uniHeld (holdUses x f) && !c.awaitHeld (formUses x f)

/-- What `meets` says. -/
def Met (s : State) (is : List Instr) (P : Cx → Bool) : Prop :=
  ∃ c, s.issuer = some c ∧ P c = true ∧ ∀ i ∈ is, i.wf = true ∧ ∃ words x f, portForm i = some (words, x, f) ∧ Ready s c x f

theorem met {s : State} {is : List Instr} {P : Cx → Bool} (h : meets s is P = true) : Met s is P := by
  unfold meets at h
  split at h
  · cases h
  · next c hc =>
    simp only [Bool.and_eq_true, List.all_eq_true] at h
    refine ⟨c, hc, h.1, fun i hi => ?_⟩
    have hk := h.2 i hi
    split at hk
    · cases hk
    · next words x f hf =>
      simp only [Bool.and_eq_true, beq_iff_eq, Option.isNone_iff_eq_none, Bool.not_eq_true'] at hk
      exact ⟨hk.1.1.1.1.1, words, x, f, hf, hc, hk.1.1.1.1.2, hk.1.1.1.2, hk.1.1.2, hk.1.2, hk.2⟩

/-- The instructions of ports V, I and F in one legal encoding each. -/
def sequencer : List Instr := [
  .nop (ext 0 0 0), .exmrd (ext 10 0 0), .mmkrd (ext 10 0 0), .lprrd (ext 10 0 0), .flgrd (ext 10 0 0), .clkrd (ext 10 0 0),
  .exmwr (ext 0 258 0), .mmkwr (ext 0 258 0), .lprwr (ext 0 0 4), .pmov (ext 10 0 33554434),
  .pand (ext 0 0 2181038080), .por (ext 0 0 2181038080), .pxor (ext 0 0 2181038080), .pnot (ext 0 0 2181038080),
  .pandn (ext 0 0 2181038080), .pfirst (ext 0 0 2181038080), .vote (ext 0 0 2181038080), .pcnt (ext 10 0 33554432),
  .ballot (ext 10 0 33554432), .trap (ext 0 0 33554432), .srrd (ext 10 0 4), .srwr (ext 0 2 1), .flgclr (ext 0 0 4),
  .fpmode (ext 0 0 33554432), .idrd (ext 10 0 4), .treduce (ext 10 2 4), .tscan (ext 10 2 4)]
def integers : List Instr := [
  .iadd (ext 10 2 33554436), .isub (ext 10 2 33554436), .iadd3 (ext 10 2 33554436), .imul (ext 10 2 33554436),
  .imulh (ext 10 2 33554436), .imad (ext 10 2 33554436), .imadw (ext 10 2 33554436), .idiv (ext 10 2 33554436),
  .irem (ext 10 2 33554436), .imin (ext 10 2 33554436), .imax (ext 10 2 33554436), .bfx (ext 10 2 33554436),
  .isetp (ext 10 2 33554436), .lea (ext 10 2 33554436), .iaddc (ext 10 2 33554440), .isubb (ext 10 2 33554440),
  .iabs (ext 10 2 4), .ineg (ext 10 2 4), .isat (ext 10 2 68), .cvti (ext 10 2 68), .and (ext 10 2 33554432),
  .or (ext 10 2 33554432), .xor (ext 10 2 33554432), .andn (ext 10 2 33554432), .shl (ext 10 2 33554432), .shr (ext 10 2 33554432),
  .sar (ext 10 2 33554432), .rotl (ext 10 2 33554432), .bfi (ext 10 2 33554432), .isel (ext 10 2 33554432), .not (ext 10 2 0),
  .popc (ext 10 2 0), .clz (ext 10 2 0), .ctz (ext 10 2 0), .brev (ext 10 2 0), .mov (ext 10 2 0),
  .movi { ext 10 511 0 with lit := some 5 }, .idot4 (ext 10 2 33554498)]
def integerBases : List Instr := [
  .iaddBase (bas 4), .isubBase (bas 4), .imulBase (bas 4), .iminBase (bas 4), .imaxBase (bas 4), .iabsBase (bas 4), .inegBase (bas 4),
  .andBase (bas 0), .orBase (bas 0), .xorBase (bas 0), .andnBase (bas 0), .notBase (bas 0), .shlBase (bas 0), .shrBase (bas 0),
  .sarBase (bas 0), .rotlBase (bas 0), .popcBase (bas 0), .clzBase (bas 0), .ctzBase (bas 0), .brevBase (bas 0), .movBase (bas 0)]
def floats : List Instr := [
  .cvtf (ext 10 2 332), .cvtfi (ext 10 2 324), .cvtif (ext 10 2 140), .unpackn (ext 10 2 68), .qcomp (ext 10 2 339),
  .qexp (ext 10 2 620), .hmix (ext 10 2 33554432), .hdot2 (ext 10 2 33554764), .fadd (ext 10 2 33554444), .fsub (ext 10 2 33554444),
  .fmul (ext 10 2 33554444), .ffma (ext 10 2 33554444), .fmin (ext 10 2 33554444), .fmax (ext 10 2 33554444),
  .fminm (ext 10 2 33554444), .fmaxm (ext 10 2 33554444), .fcpsgn (ext 10 2 33554444), .fsetp (ext 10 2 33554444),
  .fsel (ext 10 2 33554444), .fdiv (ext 10 2 33554444), .fscale (ext 10 2 33554444), .frem (ext 10 2 33554444),
  .rand (ext 10 2 33554444), .fabs (ext 10 2 12), .fneg (ext 10 2 12), .fclass (ext 10 2 12), .fsqrt (ext 10 2 12),
  .frcp (ext 10 2 12), .frsq (ext 10 2 12), .frint (ext 10 2 12), .fgexp (ext 10 2 12), .fgmant (ext 10 2 12),
  .hadd2 (ext 10 2 33554442), .hmul2 (ext 10 2 33554442), .hfma2 (ext 10 2 33554442), .dropm (ext 10 2 33554433)]
def functions : List Instr := [
  .fexp (ext 10 2 12), .fexp2 (ext 10 2 12), .fexpm1 (ext 10 2 12), .flog (ext 10 2 12), .flog2 (ext 10 2 12), .flog1p (ext 10 2 12),
  .ferf (ext 10 2 12), .ferfc (ext 10 2 12), .fsinpi (ext 10 2 12), .fcospi (ext 10 2 12), .ftanh (ext 10 2 12), .fcbrt (ext 10 2 12)]
def functionBases : List Instr := [
  .fexpBase (bas 12), .fexp2Base (bas 12), .fexpm1Base (bas 12), .flogBase (bas 12), .flog2Base (bas 12), .flog1pBase (bas 12),
  .ferfBase (bas 12), .ferfcBase (bas 12), .fsinpiBase (bas 12), .fcospiBase (bas 12), .ftanhBase (bas 12), .fcbrtBase (bas 12)]
def floatBases : List Instr := [
  .faddBase (bas 12), .fsubBase (bas 12), .fmulBase (bas 12), .fminBase (bas 12), .fmaxBase (bas 12), .fminmBase (bas 12),
  .fmaxmBase (bas 12), .fabsBase (bas 12), .fnegBase (bas 12), .fcpsgnBase (bas 12), .fsqrtBase (bas 12), .frcpBase (bas 12),
  .frsqBase (bas 12), .fgexpBase (bas 12), .hadd2Base (bas 10), .hmul2Base (bas 10)]

/-! ### What meets the hypotheses of the statements: ports V, I and F -/

theorem witness_PortInstructionsComplete_sequencer : Met base sequencer fun _ => true := met (by decide +kernel)
theorem witness_PortInstructionsComplete_integers : Met base integers fun _ => true := met (by decide +kernel)
theorem witness_PortInstructionsComplete_floats : Met base (floats ++ functions) fun _ => true := met (by decide +kernel)
theorem witness_PortInstructionsComplete_bases : Met base (integerBases ++ floatBases ++ functionBases) fun _ => true :=
  met (by decide +kernel)

/-! ### Encoding and the step -/

/-- A word of a major opcode, class B. -/
def majorWord (op : Nat) : Word := BitVec.ofNat 32 (op * 2 ^ 22)

theorem witness_DecodeOfEncodeIsTheInstruction : (Instr.ffma (ext 10 2 33554444)).wf = true := rfl
theorem witness_DecodedBytesAreTheEncoding : ∃ i, decode (wordBytes 0x0A053E44) = .ok (i, []) := ⟨_, rfl⟩
theorem witness_UnassignedOpcodesDoNotDecode : ∀ op ∈ [0x1B, 0x1F, 0x24, 0x27, 0x4E, 0x4F, 0x57, 0x5F, 0x7B, 0x7F, 0x8F, 0x98, 0xA7, 0xAF,
    0xB7, 0xBC, 0xBF, 0xC7, 0xCF, 0xE2, 0xE3, 0xE7, 0xEF, 0xF4, 0xFF],
    opOf (wordAt (wordBytes (majorWord op)) 0) = op ∧ 4 * wordsOf (wordAt (wordBytes (majorWord op)) 0) ≤ (wordBytes (majorWord op)).length := by
  decide +kernel

/-- Is it a next state with `P`? -/
def nextIs (o : Out) (P : State → Bool) : Bool :=
  match o with
  | .next t => P t
  | _ => false
theorem next_of {o : Out} {P : State → Bool} (h : nextIs o P = true) : ∃ t, o = .next t ∧ P t = true := by
  unfold nextIs at h
  split at h
  · exact ⟨_, rfl, h⟩
  · cases h

theorem some_of {α : Type} {o : Option α} {P : α → Bool} (h : o.any P = true) : ∃ a, o = some a ∧ P a = true := by
  cases o with
  | none => cases h
  | some a => exact ⟨a, rfl, h⟩

/-- What an answer is. -/
def okIs {ε α : Type} (e : Except ε α) (P : α → Bool) : Bool :=
  match e with
  | .ok a => P a
  | _ => false
def errIs {ε α : Type} (e : Except ε α) (P : ε → Bool) : Bool :=
  match e with
  | .error a => P a
  | _ => false
theorem ok_of {ε α : Type} {e : Except ε α} {P : α → Bool} (h : okIs e P = true) : ∃ a, e = .ok a ∧ P a = true := by
  cases e with
  | ok a => exact ⟨a, rfl, h⟩
  | error e => cases h
theorem err_of {ε α : Type} {e : Except ε α} {P : ε → Bool} (h : errIs e P = true) : ∃ a, e = .error a ∧ P a = true := by
  cases e with
  | ok a => cases h
  | error e => exact ⟨e, rfl, h⟩

/-- The sub-group that has the turn fetches words with `P`. -/
def Fetches (s : State) (P : List Word → Prop) : Prop :=
  ∃ c ws, s.turn = .issue s.cur ∧ s.issuer = some c ∧ s.fetch c.l c.g.core c.u.pc.toNat = .ok ws ∧ P ws
theorem fetches {s : State} {P : List Word → Bool} (ht : s.turn = .issue s.cur)
    (h : s.issuer.any (fun c => okIs (s.fetch c.l c.g.core c.u.pc.toNat) P) = true) : Fetches s fun ws => P ws = true := by
  obtain ⟨c, hc, h⟩ := some_of h
  obtain ⟨ws, hw, h⟩ := ok_of h
  exact ⟨c, ws, ht, hc, hw, h⟩

theorem witness_StepRunsTheDecodedInstruction : Fetches bare fun ws => ∃ p, decode (ws.flatMap wordBytes) = .ok p ∧ true = true := by
  obtain ⟨c, ws, h1, h2, h3, h4⟩ := fetches (s := bare) (P := fun ws => okIs (decode (ws.flatMap wordBytes)) fun _ => true) rfl
    (by decide +kernel)
  exact ⟨c, ws, h1, h2, h3, ok_of h4⟩
/-- Its words find the frame area open, or, where they are those of FRMRD and the area lies in host memory without a host link, closed. -/
def Framed (s : State) (wait : Bool) : Prop := ∃ c ws, s.turn = .issue s.cur ∧ s.issuer = some c ∧ s.fetch c.l c.g.core c.u.pc.toNat = .ok ws ∧
  s.framesWait c ws = wait ∧ (decode (ws.flatMap wordBytes)).isOk = true
theorem framed {s : State} {wait : Bool} (ht : s.turn = .issue s.cur) (h : s.issuer.any (fun c => okIs (s.fetch c.l c.g.core c.u.pc.toNat) fun ws =>
    s.framesWait c ws == wait && (decode (ws.flatMap wordBytes)).isOk) = true) : Framed s wait := by
  obtain ⟨c, hc, h⟩ := some_of h
  obtain ⟨ws, hw, h⟩ := ok_of h
  rw [Bool.and_eq_true, beq_iff_eq] at h
  exact ⟨c, ws, ht, hc, hw, h.1, h.2⟩
/-- A word of a launch record. -/
def putWord (r : List Byte) (off v : Nat) : List Byte :=
  (List.range 256).map fun i => if off ≤ i ∧ i < off + 4 then BitVec.ofNat 8 (v / 2 ^ (8 * (i - off))) else r.getD i 0
def putPair (r : List Byte) (k : Nat × Nat) : List Byte := putWord r k.1 k.2
/-- The page at 2^36 is one of host memory; it holds the frame area. -/
def frameless : State :=
  let s := { State.reset.withFetchWord 96 0x72C15025 with cur := { grp := 2, sub := 0 }, hwlen := 0x1000000000 }
  let s := { s with mem := layBytes s.mem (probeNext + 16) (leBytes 8 (8 * 2 ^ 44 + 0x0F) ++ leBytes 8 14) }
  s.modLaunch 1 fun (l : Launch) => { l with record := [(0x4C, 16), (0x50, 65536)].foldl putPair l.record }
theorem witness_StepRunsTheDecodedInstruction_frames : Framed bare false ∧ Framed frameless true := ⟨framed rfl (by decide +kernel), framed rfl (by decide +kernel)⟩
theorem witness_StepRunsTheDecodedInstruction_event : ∃ i a, State.reset.turn = .event i a := ⟨_, _, rfl⟩
/-- Words of the unassigned opcode 1BH. -/
def noOpcode : State := { State.reset.withFetchWord 32 0x06C00000 with cur := { grp := 2, sub := 0 } }
theorem witness_StepRunsTheDecodedInstruction_opcode : Fetches noOpcode fun ws => ∃ e, decode (ws.flatMap wordBytes) = .error e ∧ true = true := by
  obtain ⟨c, ws, h1, h2, h3, h4⟩ := fetches (s := noOpcode) (P := fun ws => errIs (decode (ws.flatMap wordBytes)) fun _ => true) rfl
    (by decide +kernel)
  exact ⟨c, ws, h1, h2, h3, err_of h4⟩
/-- A pc past the virtual addresses. -/
def farPc : State := bare.modSub { grp := 2, sub := 0 } fun u => { u with pc := 2 ^ 57 }
theorem witness_StepRunsTheDecodedInstruction_fetch : ∃ c e, farPc.turn = .issue farPc.cur ∧ farPc.issuer = some c ∧
    farPc.fetch c.l c.g.core c.u.pc.toNat = .error e := by
  obtain ⟨c, hc, h⟩ := some_of
    (show farPc.issuer.any (fun c => errIs (farPc.fetch c.l c.g.core c.u.pc.toNat) fun _ => true) = true by decide +kernel)
  obtain ⟨e, he, -⟩ := err_of h
  exact ⟨c, e, rfl, hc, he⟩
/-- The page of the code is one of host memory, and no host link is up. -/
def pathless : State := { bare with hwlen := 0x1000000000, mem := layBytes bare.mem probeNext (leBytes 8 (8 * 2 ^ 44 + 0x1F) ++ leBytes 8 14) }
theorem witness_StepRunsTheDecodedInstruction_causes : (pathless.issuer.any fun c => errIs (pathless.fetch c.l c.g.core c.u.pc.toNat) fun e => e.2.1 == 0) = true ∧
    (farPc.issuer.any fun c => errIs (farPc.fetch c.l c.g.core c.u.pc.toNat) fun e => e.2.1 != 0) = true := by decide +kernel

theorem witness_TurnStandsAfterEveryStep : bare.TurnStands ∧ ∃ t, step bare = .next t ∧ true = true :=
  ⟨rfl, next_of (P := fun _ => true) (by decide +kernel)⟩
theorem witness_StepIsNeverRefused : State.reset.TurnStands := rfl
theorem witness_MemoryKeepsItsForm : Memory.wf bare.mem = true ∧ ∃ t, step bare = .next t ∧ true = true :=
  ⟨by decide +kernel, next_of (P := fun _ => true) (by decide +kernel)⟩

/-! ### Traps -/

/-- A trap with every field at a boundary of its range. -/
def lastTrap : TrapReq := { cause := 255, detail := 255, code := 2 ^ 32 - 1, addr := 2 ^ 64 - 1, msk := [0, 63, 64, 255], raised := [(0, 31)] }
theorem witness_TrapWritesItsRegisters : ∃ g u l, bare.group? 2 = some g ∧ g.sub? 0 = some u ∧ bare.launch? g.launch = some l ∧
    l.phase = .active ∧ lastTrap.cause < 2 ^ 8 ∧ lastTrap.detail < 2 ^ 8 ∧ lastTrap.code < 2 ^ 32 ∧ lastTrap.addr < 2 ^ 64 :=
  ⟨_, _, _, rfl, rfl, rfl, rfl, by decide, by decide, by decide, by decide⟩
/-- A launch that has stopped before. -/
def stopped : State := bare.modLaunch 1 fun l => { l with phase := .stopping }
theorem witness_TrapFrame : ∃ g l, stopped.group? 2 = some g ∧ stopped.launch? g.launch = some l ∧ l.phase ≠ .active :=
  ⟨_, _, rfl, rfl, by decide +kernel⟩
theorem witness_FaultHasNoEffect : ∃ c, bare.issuer = some c ∧
    formFails (ext 10 2 31) (formAddSub (ext 10 2 31)) ++ dynFails c (ext 10 2 31) (formAddSub (ext 10 2 31)) ≠ [] ∧
    portForm (.iadd (ext 10 2 31)) = some (3, ext 10 2 31, formAddSub (ext 10 2 31)) := by
  obtain ⟨c, hc, hp, -⟩ := met (s := bare) (is := [])
    (P := fun c => decide (formFails (ext 10 2 31) (formAddSub (ext 10 2 31)) ++ dynFails c (ext 10 2 31) (formAddSub (ext 10 2 31)) ≠ []))
    (by decide +kernel)
  exact ⟨c, hc, of_decide_eq_true hp, rfl⟩

/-! ### Integers -/

/-- Two sources v2 and v4 of type I32. -/
def i32x : Ext := ext 10 2 33554436

theorem witness_SumsAndCarries : Met base [.iadd i32x, .iaddBase (bas 4), .isub i32x, .isubBase (bas 4), .iadd3 i32x, .iaddc (ext 10 2 33554440),
    .isubb (ext 10 2 33554440)] fun _ => true := met (by decide +kernel)
theorem witness_ProductsAndQuotients : Met base [.imul i32x, .imulBase (bas 4), .imulh i32x, .imad i32x, .imadw i32x, .idiv i32x, .irem i32x]
    fun c => decide (c.intB i32x 7 = 0) && decide (i32x.ty.signed = true) && decide (c.intA i32x 5 = leastOf i32x.ty) &&
      decide (c.intB i32x 5 = -1) && decide (c.intB i32x 8 ≠ 0) := met (by decide +kernel)
theorem witness_IntegerSelectionsAndSigns : Met base [.imin i32x, .iminBase (bas 4), .imax i32x, .imaxBase (bas 4), .iabs (ext 10 2 4),
    .iabsBase (bas 4), .ineg (ext 10 2 4), .inegBase (bas 4), .isat (ext 10 2 68)] fun _ => true := met (by decide +kernel)
theorem witness_BitsAndShifts : Met base [.and (ext 10 2 33554432), .andBase (bas 0), .or (ext 10 2 33554432), .xor (ext 10 2 33554432),
    .andn (ext 10 2 33554432), .not (ext 10 2 0), .brev (ext 10 2 0), .mov (ext 10 2 0), .movi { ext 10 511 0 with lit := some 5 },
    .isel (ext 10 2 33554432), .shl (ext 10 2 33554432), .shlBase (bas 0), .shr (ext 10 2 33554432), .sar (ext 10 2 33554432),
    .rotl (ext 10 2 33554432)] fun _ => true := met (by decide +kernel)
theorem witness_FieldsAndCounts : Met base [.bfx i32x, .bfi (ext 10 2 33554432), .popc (ext 10 2 0), .popcBase (bas 0), .clz (ext 10 2 0),
    .ctz (ext 10 2 0)] fun c => decide ((c.src (ext 10 2 0) .A false .int 20).toNat = 0) && decide ((c.src (ext 10 2 0) .A false .int 6).toNat = 1) :=
  met (by decide +kernel)
theorem witness_AddressesDotProductsAndWidths : Met base [.lea i32x, .idot4 (ext 10 2 33554498), .cvti (ext 10 2 68)] fun _ => true :=
  met (by decide +kernel)

/-! ### Floating point -/

/-- Two sources v2 and v4 of type F32, and one. -/
def f32x : Ext := ext 10 2 33554444
def f32y : Ext := ext 10 2 12
/-- A finite value other than zero. -/
def nonZero (v : Ex) : Bool :=
  match v with
  | .rat _ n d => decide (0 < n) && decide (0 < d)
  | _ => false
/-- A finite value. -/
def finite (v : Ex) : Bool :=
  match v with
  | .rat _ _ d => decide (0 < d)
  | _ => false

/-- 2^200 lies above F32, 2^-140 below its normal numbers, 3/2 and 1/3 between: one exact, one not. -/
theorem witness_RoundingOfExactValues : DType.isFloat .f32 = true ∧
    (Leads (2 ^ 200) 1 200 ∧ RoundsTo .rne false (2 ^ 200) 1 (200 - 23) (2 ^ 23)) ∧
    (Leads 1 (2 ^ 140) (-140) ∧ RoundsTo .rne false 1 (2 ^ 140) (-140 - 23) (2 ^ 23)) ∧
    (Leads 3 2 0 ∧ RoundsTo .rne true 3 2 (0 - 23) (3 * 2 ^ 22) ∧ IsExactly 3 2 (0 - 23) (3 * 2 ^ 22)) ∧
    (Leads 1 3 (-2) ∧ RoundsTo .rne true 1 3 (-2 - 23) 11184811 ∧ ¬IsExactly 1 3 (-2 - 23) 11184811) := by
  unfold Leads RoundsTo IsExactly; decide +kernel

theorem witness_FloatingPointArithmetic : Met base [.fadd f32x, .faddBase (bas 12), .fsub f32x, .fsubBase (bas 12), .fmul f32x, .fmulBase (bas 12),
    .ffma f32x, .hadd2 (ext 10 2 33554442), .hadd2Base (bas 10), .hmul2 (ext 10 2 33554442), .hmul2Base (bas 10), .hfma2 (ext 10 2 33554442),
    .hdot2 (ext 10 2 33554764)] fun c =>
      (c.fin f32x .A 1).isNan && infZero (c.fin f32x .A 15) (c.fin f32x .B 15) && (mulEx (c.fin f32x .A 0) (c.fin f32x .B 0)).isSome &&
      !(c.fin f32x .A 3).isNan && nonZero (c.fin f32x .A 0) && nonZero (c.fin f32x .B 0) := met (by decide +kernel)
theorem witness_DivisionAndRoots : Met base [.fdiv f32x, .fsqrt f32y, .fsqrtBase (bas 12), .frcp f32y, .frcpBase (bas 12), .frsq f32y,
    .frsqBase (bas 12)] fun c =>
      (c.fin f32x .A 1).isNan && (c.fin f32x .A 3).isInf && (c.fin f32x .B 3).isInf && (c.fin f32x .A 15).isInf && finite (c.fin f32x .B 15) &&
      finite (c.fin f32x .A 16) && (c.fin f32x .B 16).isInf && (c.fin f32x .A 9).isZero && (c.fin f32x .B 9).isZero &&
      nonZero (c.fin f32x .A 10) && (c.fin f32x .B 10).isZero && nonZero (c.fin f32x .A 0) && nonZero (c.fin f32x .B 0) &&
      (c.fin f32y .A 4).isInf && (c.fin f32y .A 10).neg := met (by decide +kernel)
theorem witness_MinimaSignsAndClasses : Met base [.fmin f32x, .fminBase (bas 12), .fmax f32x, .fmaxBase (bas 12), .fminm f32x, .fminmBase (bas 12),
    .fmaxm f32x, .fmaxmBase (bas 12), .fabs f32y, .fabsBase (bas 12), .fneg f32y, .fnegBase (bas 12), .fcpsgn f32x, .fcpsgnBase (bas 12),
    .fsel f32x, .fclass f32y] fun c =>
      (c.fin f32x .A 17).isNan && (c.fin f32x .B 17).isNan && (c.fin f32x .A 1).isNan && !(c.fin f32x .B 1).isNan && !(c.fin f32x .A 5).isNan &&
      (c.fin f32x .B 5).isNan && ltEx (c.fin f32x .A 0) (c.fin f32x .B 0) && ltEx (c.fin f32x .B 8) (c.fin f32x .A 8) &&
      (c.fin f32x .A 9).isZero && (c.fin f32x .B 9).isZero := met (by decide +kernel)
theorem witness_IntegralScaleExponentRemainder : Met base [.frint f32y, .fscale f32x, .fgexp f32y, .fgexpBase (bas 12), .fgmant f32y, .frem f32x]
    fun c => (c.fin f32y .A 1).isNan && (c.fin f32y .A 3).isInf && nonZero (c.fin f32y .A 0) && (c.fin f32y .A 5).isZero &&
      subnormalIn (fmtOf .f32) 1 1 (c.fin f32y .A 6) && finite (c.fin f32x .A 16) && (c.fin f32x .B 16).isInf &&
      (c.fin f32x .B 10).isZero && nonZero (c.fin f32x .B 0) := met (by decide +kernel)
theorem witness_Conversions : Met base [.cvtf (ext 10 2 332), .cvtif (ext 10 2 140), .cvtfi (ext 10 2 388), .cvtfi (ext 10 2 402)]
    fun c => let v := fun t => flushIn c.fzi (fmtOf (ext 10 2 388).ty2) (c.flt (ext 10 2 388) .A (ext 10 2 388).ty2 t)
      (v 1).isNan && (v 3).isInf && (v 4).isInf && nonZero (v 0) && nonZero (v 11) := met (by decide +kernel)

/-! ### A group with memory, an array and frames, and readiness on port M -/

/-- WL and MXU, a pool share, a frame area, a save area. -/
def fullRecord : List Byte :=
  leBytes 8 probeEntry ++ leBytes 4 0 ++ leBytes 4 (1 + 2 ^ 17 + 2 ^ 19 + 2 ^ 24) ++ leBytes 4 31 ++ zeros 28 ++
  leBytes 4 (1 + 16 + 240 * 2 ^ 8 + 160 * 2 ^ 16 + 4 * 2 ^ 24) ++ leBytes 4 65536 ++ zeros 16 ++ leBytes 8 0x100000 ++ leBytes 8 65536 ++
  zeros 24 ++ leBytes 8 0x200000 ++ leBytes 8 0x100000 ++ zeros 128
/-- Two active threads with addresses in v8 and values in v2 and v4; the pairs from s2 on hold addresses. -/
def full : State :=
  let s := bare.modLaunch 1 fun l => { l with record := fullRecord }
  let s := s.modGroup 2 fun g => { g with
    exm := [(0, 3)]
    vregs := [(2, [(0, 0x3FC00000), (1, 0x40000000)]), (4, [(0, 0x40000000), (1, 1)]), (8, [(0, 0x2000), (1, 0x3000)])] }
  s.modSub { grp := 2, sub := 0 } fun u => { u with uregs := [(2, 0x2000), (4, 0x3000), (6, 0x2001), (9, 0x2000000)] }

/-- The state after an instruction or an event. -/
def after (s : State) (i : Instr) : State :=
  match exec i s with
  | .next t => t
  | _ => s
/-- An event's argument. -/
def about (s : State) (a : EventArg) : State := { s with arg := a }

/-- What `Ready` asks of the context. -/
def readyIn (c : Cx) (x : Ext) (f : Form) (more : List RegUse) (who : List Nat := c.threads x.p) : Bool :=
  formFails x f == [] && dynFails c x f == [] &&
    (c.markFault (formUses x f ++ more) who (f.dest.isUni x.d || !f.guard)).isNone && !c.uniHeld (holdUses x f ++ more) &&
    !c.awaitHeld (formUses x f ++ more)

/-- Instructions that are ready on port M: their form, their own checks and their counter. -/
def MetM (s : State) (l : List (Ext × Form × (Cx → List Nat) × Nat)) (P : Cx → Bool) (who : Cx → Ext → List Nat := fun c x => c.threads x.p) : Prop :=
  ∃ c, s.issuer = some c ∧ P c = true ∧ ∀ q ∈ l, ReadyM s c q.1 q.2.1 (q.2.2.1 c) q.2.2.2 (who c q.1)
theorem metM {s : State} {l : List (Ext × Form × (Cx → List Nat) × Nat)} {P : Cx → Bool} {who : Cx → Ext → List Nat}
    (h : (s.issuer.any fun c => P c && l.all fun q => readyIn c q.1 q.2.1 [] (who c q.1) && q.2.2.1 c == [] && c.u.observing.isNone &&
      decide (q.2.2.2 < 4 → c.g.counter q.2.2.2 < 63)) = true) : MetM s l P who := by
  obtain ⟨c, hc, h⟩ := some_of h
  simp only [Bool.and_eq_true, List.all_eq_true] at h
  refine ⟨c, hc, h.1, fun q hq => ?_⟩
  have hk := h.2 q hq
  simp only [readyIn, List.append_nil, Bool.and_eq_true, beq_iff_eq, Option.isNone_iff_eq_none, Bool.not_eq_true', decide_eq_true_eq] at hk
  exact ⟨⟨hc, hk.1.1.1.1.1.1.1, hk.1.1.1.1.1.1.2, hk.1.1.1.1.1.2, hk.1.1.1.1.2, hk.1.1.1.2⟩, hk.1.1.2, hk.1.2, hk.2⟩

/-- Instructions that are ready on an engine: their form, further register operands and their own checks. -/
def MetMem (s : State) (l : List (Ext × Form × List RegUse × (Cx → List Nat))) (P : Cx → Bool) (who : Cx → Ext → List Nat := fun c x => c.threads x.p) : Prop :=
  ∃ c, s.issuer = some c ∧ P c = true ∧ ∀ q ∈ l, ReadyMem s c q.1 q.2.1 q.2.2.1 (q.2.2.2 c) (who c q.1)
theorem metMem {s : State} {l : List (Ext × Form × List RegUse × (Cx → List Nat))} {P : Cx → Bool} {who : Cx → Ext → List Nat}
    (h : (s.issuer.any fun c => P c && l.all fun q => readyIn c q.1 q.2.1 q.2.2.1 (who c q.1) && q.2.2.2 c == [] && c.u.observing.isNone) = true) :
    MetMem s l P who := by
  obtain ⟨c, hc, h⟩ := some_of h
  simp only [Bool.and_eq_true, List.all_eq_true] at h
  refine ⟨c, hc, h.1, fun q hq => ?_⟩
  have hk := h.2 q hq
  simp only [readyIn, Bool.and_eq_true, beq_iff_eq, Option.isNone_iff_eq_none, Bool.not_eq_true'] at hk
  exact ⟨hc, hk.1.1.1.1.1.1, hk.1.1.1.1.1.2, hk.1.2, hk.1.1.1.1.2, hk.1.1.1.2, hk.1.1.2, hk.2⟩

/-- Instructions with a record that are ready: their uniform sources, whether those are pairs, their checks, their mark, their counter, and
the registers that they read. -/
def MetRec (s : State) (l : List (Rec × List (BitVec 9) × (Cx → List Nat) × (Cx → Option TrapReq) × Nat)) (P : Cx → Bool) (wide : Bool := false)
    (reads : Cx → Rec → List RegUse := fun _ _ => []) : Prop :=
  ∃ c, s.issuer = some c ∧ P c = true ∧ ∀ q ∈ l, ReadyRec s c q.1 q.2.1 (q.2.2.1 c) (q.2.2.2.1 c) q.2.2.2.2 wide (reads c q.1)
theorem metRec {s : State} {l : List (Rec × List (BitVec 9) × (Cx → List Nat) × (Cx → Option TrapReq) × Nat)} {P : Cx → Bool} {wide : Bool}
    {reads : Cx → Rec → List RegUse}
    (h : (s.issuer.any fun c => P c && l.all fun q => (recFails q.1 ++ q.2.1.flatMap recSrcFails == []) &&
      (recDyn c q.1 ++ q.2.1.flatMap (fun code => srcDyn c false code wide) == []) && q.2.2.1 c == [] &&
      (c.markFault (recUses q.1 q.2.1 wide) (c.threads q.1.p) true).isNone && (q.2.2.2.1 c).isNone && !c.uniHeld (recUses q.1 q.2.1 wide) &&
      !c.awaitHeld (reads c q.1) && c.u.observing.isNone && decide (c.g.counter q.2.2.2.2 < 63)) = true) : MetRec s l P wide reads := by
  obtain ⟨c, hc, h⟩ := some_of h
  simp only [Bool.and_eq_true, List.all_eq_true] at h
  refine ⟨c, hc, h.1, fun q hq => ?_⟩
  have hk := h.2 q hq
  simp only [beq_iff_eq, Option.isNone_iff_eq_none, Bool.not_eq_true', decide_eq_true_eq] at hk
  exact ⟨hc, hk.1.1.1.1.1.1.1.1, hk.1.1.1.1.1.1.1.2, hk.1.1.1.1.1.1.2, hk.1.1.1.1.1.2, hk.1.1.1.1.2, hk.1.1.1.2, hk.1.1.2, hk.1.2, hk.2⟩

/-- Instructions that are ready and name accumulators: those named, those read, the counter. -/
def MetAcc (s : State) (l : List (Ext × Form × List Nat × List Nat × Option Nat)) (P : Cx → Bool) : Prop :=
  ∃ c, s.issuer = some c ∧ P c = true ∧ ∀ q ∈ l, ReadyAcc s c q.1 q.2.1 q.2.2.1 q.2.2.2.1 q.2.2.2.2
theorem metAcc {s : State} {l : List (Ext × Form × List Nat × List Nat × Option Nat)} {P : Cx → Bool}
    (h : (s.issuer.any fun c => P c && l.all fun q => formFails q.1 q.2.1 == [] && dynFails c q.1 q.2.1 == [] && accFails c q.2.2.1 == [] &&
      (c.markFault (formUses q.1 q.2.1) (c.threads q.1.p) false).isNone && (c.accMark q.1.p q.2.2.2.1).isNone &&
      !c.uniHeld (holdUses q.1 q.2.1) && !c.awaitHeld (formUses q.1 q.2.1) && !c.accHeld q.2.2.1 && c.u.observing.isNone &&
      q.2.2.2.2.all fun k => decide (c.g.counter k < 63)) = true) : MetAcc s l P := by
  obtain ⟨c, hc, h⟩ := some_of h
  simp only [Bool.and_eq_true, List.all_eq_true] at h
  refine ⟨c, hc, h.1, fun q hq => ?_⟩
  have hk := h.2 q hq
  simp only [beq_iff_eq, Option.isNone_iff_eq_none, Bool.not_eq_true'] at hk
  refine ⟨hc, hk.1.1.1.1.1.1.1.1.1, hk.1.1.1.1.1.1.1.1.2, hk.1.1.1.1.1.1.1.2, hk.1.1.1.1.1.1.2, hk.1.1.1.1.1.2, hk.1.1.1.1.2, hk.1.1.1.2,
    hk.1.1.2, fun _ => hk.1.2, fun k hp => ?_⟩
  have := hk.2
  rw [hp] at this
  simpa using this

/-- Trailers that transfer. -/
def MetEnds (s : State) (l : List (Trailer × TrailerUse)) (P : Cx → Bool) : Prop :=
  ∃ c, s.issuer = some c ∧ P c = true ∧ ∀ q ∈ l, Ends s c q.1 q.2
theorem metEnds {s : State} {l : List (Trailer × TrailerUse)} {P : Cx → Bool}
    (h : (s.issuer.any fun c => P c && l.all fun q => trailerBad q.1 q.2 == false && trailerUndeclared q.1 q.2 c == false &&
      c.g.deferred.isEmpty) = true) : MetEnds s l P := by
  obtain ⟨c, hc, h⟩ := some_of h
  simp only [Bool.and_eq_true, List.all_eq_true] at h
  refine ⟨c, hc, h.1, fun q hq => ?_⟩
  have hk := h.2 q hq
  simp only [beq_iff_eq, List.isEmpty_iff] at hk
  exact ⟨hc, hk.1.1, hk.1.2, fun d hd => by rw [hk.2] at hd; cases hd⟩

/-- No check of the entry's own. -/
def noChecks : Cx → List Nat := fun _ => []

/-! ### Packed elements, functions, predicates, registers of the group -/

theorem witness_PackedElementsAndMixing : Met base [.unpackn (ext 10 2 68), .qcomp (ext 10 2 339), .qexp (ext 10 2 620), .hmix (ext 10 2 33554432),
    .rand (ext 10 2 33554444)] fun _ => true := met (by decide +kernel)
/-- PACKN of I32 into I8 and T2, of F32 into E4M3, C8 and I8. -/
def packs : List Ext := [ext 10 2 130, ext 10 2 146, ext 10 2 398, ext 10 2 403, ext 10 2 386]
theorem witness_PackedElementsAndMixing_packn : ∃ c, base.issuer = some c ∧ (packs.all fun x =>
    let uses := { code := x.d, mod := 0, regs := 1 } :: formUses x (formPackn x)
    formFails x (formPackn x) == [] && dynFails c x (formPackn x) == [] && (c.markFault uses (c.threads x.p) ((formPackn x).dest.isUni x.d)).isNone &&
      !c.uniHeld (holdUses x (formPackn x)) && !c.awaitHeld uses) = true := some_of (by decide +kernel)
/-- UNPACKN of E4M3, C8 and T2 into F32, of T2 into I32, and with the sign changed. -/
theorem witness_PackedElementsAndMixing_unpackn : Met base [.unpackn (ext 10 2 460), .unpackn (ext 10 2 620), .unpackn (ext 10 2 588), .unpackn (ext 10 2 580),
    .unpackn { ext 10 2 460 with w2 := 0x80000000 }] fun _ => true := met (by decide +kernel)

/-- A finite value whose numerator and denominator meet `P`. -/
def ratIs (v : Ex) (P : Bool → Nat → Nat → Bool) : Bool :=
  match v with
  | .rat s n d => P s n d
  | _ => false
theorem witness_FunctionsAtTheListedInputs : Met base (functions ++ functionBases) fun c =>
    let a := c.fin f32y .A
    (a 1).isNan && (a 4).isInf && (a 4).neg && (a 5).isZero && (a 5).neg && (a 20).isZero && !(a 20).neg && (a 3).isInf && !(a 3).neg &&
    ratIs (a 8) (fun s n d => !s && n == d && n != 0) && ratIs (a 10) (fun s n d => s && n == d && n != 0) &&
    ratIs (a 18) (fun s n d => s && decide (d < n)) && ratIs (a 18) (fun _ n d => n % d == 0 && n != 0) &&
    ratIs (a 19) (fun _ n d => d % 2 == 0 && n == d / 2) := met (by decide +kernel)

theorem witness_PredicateResults : Met base [.isetp i32x, .fsetp f32x, .dropm (ext 10 2 33554433), .pmov (ext 0 0 2181038080),
    .pmov (ext 0 2 0x80000001), .pmov (ext 0 258 0x80000003), .pand (ext 0 0 2181038080), .por (ext 0 0 2181038080), .pxor (ext 0 0 2181038080),
    .pandn (ext 0 0 2181038080), .pnot (ext 0 0 2181038080), .pfirst (ext 0 0 2181038080), .vote (ext 0 0 2181038080)] fun _ => true :=
  met (by decide +kernel)
theorem witness_GroupStateReadAndWritten : Met base ([.exmrd (ext 10 0 0), .mmkrd (ext 10 0 0), .lprrd (ext 10 0 0), .flgrd (ext 10 0 0),
    .clkrd (ext 10 0 0), .idrd (ext 10 0 0), .idrd (ext 10 0 7), .idrd (ext 10 0 8), .pmov (ext 10 0 33554434), .pcnt (ext 10 0 33554432),
    .ballot (ext 10 0 33554432), .exmwr (ext 0 258 0), .mmkwr (ext 0 258 0), .lprwr (ext 0 0 4), .srwr (ext 0 0x1B0 0), .srwr (ext 0 2 1),
    .flgclr (ext 0 0 4)] ++ [0, 1, 2, 3, 4, 5, 6, 7, 8, 9, 10, 11, 16, 31].map fun n => .srrd (ext 10 0 (BitVec.ofNat 32 n)))
    fun c => decide (c.l.nlev = 1) && decide (c.l.domain 0 = some 0) := met (by decide +kernel)
/-- A launch with a level in every domain, and its group as a spawned one. -/
def levels : List (Nat × Nat) := [(0x30, 5 + 16 + 16 * 2 ^ 8 + 160 * 2 ^ 16), (0x14, 2 ^ 24), (0x18, 2 * 2 ^ 24), (0x1C, 3 * 2 ^ 24), (0x20, 4 * 2 ^ 24)]
def levelled : State := base.modLaunch 1 fun (l : Launch) => { l with record := levels.foldl putPair l.record }
def idrds : List Instr := (List.range 16).map fun n => .idrd (ext 10 0 (BitVec.ofNat 32 n))
theorem witness_GroupStateReadAndWritten_levels : Met levelled idrds (fun c => c.l.nlev == 5 && !c.g.spawned && [0, 1, 2, 3, 4].all fun n => c.l.domain n == some n) ∧
    Met (levelled.modGroup 2 fun g => { g with spawned := true }) idrds (fun c => c.g.spawned) := ⟨met (by decide +kernel), met (by decide +kernel)⟩
theorem witness_NopHasNoEffect : ∃ c, bare.issuer = some c ∧ decide (c.u.ndone < 24) = true := some_of (by decide +kernel)
/-- FMSK 00FH, FVAL 005H. -/
def fpm : Ext := ext 0 0 0x000F0005
theorem witness_FpmodeReplacesFields : Met base [.fpmode fpm] fun _ => let bad := ext 0 0 0x000F0010
    decide (bits bad.w1 9 0 ||| bits bad.w1 25 16 ≠ bits bad.w1 25 16) := met (by decide +kernel)
theorem witness_TrapInstruction : Met base [.trap (ext 0 0 0x00010000), .trap { ext 0 0 0x00010000 with p := 1 }]
    fun c => decide (c.threads 0 ≠ []) && decide (c.threads 1 = []) := met (by decide +kernel)
theorem witness_TileReductionsAndScans : Met base ([0, 1, 2, 3, 4, 5, 6, 7, 8].flatMap fun o =>
    let x := ext 10 2 (BitVec.ofNat 32 ((if o < 6 then 4 else 12) + 32 * o))
    if o < 3 ∨ 6 ≤ o then [.treduce x, .tscan x] else [.treduce (ext 10 2 (BitVec.ofNat 32 (32 * o))), .tscan (ext 10 2 (BitVec.ofNat 32 (32 * o)))])
    fun c => c.active 0 0 := met (by decide +kernel)

/-! ### Trailers -/

/-- A trailer with every field zero. -/
def plainEnd : Trailer := { cond := 0, pred := 0, xf := 0, naw := 0, low := 0, w1 := 0, w2 := 0 }
/-- The pc that leaves the word after the trailer aligned to 64 bytes. -/
def beforeLine : State := full.modSub { grp := 2, sub := 0 } fun u => { u with pc := 4096 + 52 }
/-- A call frame whose header holds a return address. -/
def inFrame (ret : Nat) : State :=
  let s := full.modSub { grp := 2, sub := 0 } fun u => { u with cfrm := some 0 }
  { s with mem := layBytes s.mem (probeFrame + 0x100000) (leBytes 8 ret ++ leBytes 8 0xFFFFFFFF) }

theorem witness_TrailersTransfer : MetEnds full [(plainEnd, {}), (plainEnd, { target := true }),
    ({ plainEnd with cond := 1, pred := 2 }, { cond := true, pred := true, target := true }), ({ plainEnd with xf := 2 }, { jump := true }),
    ({ plainEnd with xf := 6 }, { jump := true }), ({ plainEnd with xf := 8 }, { jump := true })] fun c =>
      let a := fun n => (c.u.ureg n).toNat + (c.u.ureg (n + 1)).toNat * 2 ^ 32
      decide (c.members ≠ []) && decide (a 2 < 2 ^ 57) && decide (a 2 % 64 = 0) && decide (a 6 % 64 ≠ 0) && decide (2 ^ 57 ≤ a 8) &&
        c.u.upending.isEmpty && c.u.umarks.isEmpty := metEnds (by decide +kernel)
theorem witness_CallReturnAndExit_misaligned : MetEnds full [(plainEnd, { frame := true, target := true })] fun c =>
    decide ((c.u.pc + 12).toNat % 64 ≠ 0) := metEnds (by decide +kernel)
theorem witness_CallReturnAndExit_call : MetEnds beforeLine [(plainEnd, { frame := true, target := true })] fun c =>
    decide ((c.u.pc + 12).toNat % 64 = 0) && (c.l.alloc 1 c.g.id 3).isSome && (c.l.alloc (1 + 32 * 255) c.g.id 3).isNone &&
    beforeLine.groups.all fun g => !g.finished := metEnds (by decide +kernel)
theorem witness_CallReturnAndExit_exit : MetEnds full [(plainEnd, {}), (plainEnd, { pred := true })] fun c => c.u.cfrm.isNone :=
  metEnds (by decide +kernel)
/-- What the header of the frame reads as. -/
def returns (s : State) (P : Nat → Bool) : Prop := MetEnds s [(plainEnd, {})] fun c =>
  c.u.cfrm == some 0 && okIs (s.tick.engineAddrs c.l c.l.frameBase 16 true false) fun addrs => (s.tick.markOfBytes addrs).isNone &&
    P (leNat ((addrs.map s.byteAt).take 8))
/-- A marked line that a virtual address below 2^36 leads to. -/
def marking (s : State) (va : Nat) (m : LineMark) : State := { s with lineMarks := s.lineMarks.put ((probeFrame + va) / 64) m }
theorem witness_CallReturnAndExit_marked : ∀ m ∈ [⟨2, false, false, false⟩, ⟨0, true, false, false⟩], MetEnds (marking (inFrame 0x2000) 0x100000 m) [(plainEnd, {})] fun c =>
    c.u.cfrm == some 0 && okIs ((marking (inFrame 0x2000) 0x100000 m).tick.engineAddrs c.l c.l.frameBase 16 true false) fun addrs =>
      ((marking (inFrame 0x2000) 0x100000 m).tick.markOfBytes addrs).isSome := by
  intro m hm
  simp only [List.mem_cons, List.not_mem_nil, or_false] at hm
  obtain rfl | rfl := hm
  · exact metEnds (by decide +kernel)
  · exact metEnds (by decide +kernel)
theorem witness_CallReturnAndExit_return : returns (inFrame 0x2000) (fun a => decide (a < 2 ^ 57) && decide (a % 64 = 0)) ∧
    returns (inFrame 0x2004) (fun a => decide (a < 2 ^ 57) && decide (a % 64 ≠ 0)) ∧ returns (inFrame (2 ^ 57)) (fun a => decide (2 ^ 57 ≤ a)) :=
  ⟨metEnds (by decide +kernel), metEnds (by decide +kernel), metEnds (by decide +kernel)⟩

/-! ### Memory -/

/-- An operation and its group meet `P` in a state with an event's argument. -/
def OpMet (s : State) (a : EventArg) (id : Nat) (P : Op → Group → Bool) : Prop :=
  s.arg = a ∧ ∃ o g, s.op? id = some o ∧ s.group? o.grp = some g ∧ P o g = true
theorem opMet {s : State} {a : EventArg} {id : Nat} {P : Op → Group → Bool} (h1 : s.arg = a)
    (h : ((s.op? id).any fun o => (s.group? o.grp).any fun g => P o g) = true) : OpMet s a id P := by
  obtain ⟨o, ho, h⟩ := some_of h
  obtain ⟨g, hg, h⟩ := some_of h
  exact ⟨h1, o, g, ho, hg, h⟩
/-- The operation that a state started last. -/
def lastOp (s : State) : Nat := (s.ops.getLast?.map fun o => o.id).getD 0

/-- A load from v8, and one from s8:s9, which no page maps. -/
def ldx : Ext := ext 10 8 (src1 0 260 0 0)
def farx : Ext := ext 10 0x108 (src1 0 260 0 0)
def wants (c : Cx) (x : Ext) : List Want := (c.threads x.p).map fun t => { thread := t, va := c.ea x false t, member := memMember x t }
theorem witness_LoadsReadMemory : MetM full [(ldx, formLoad ldx false, memDyn ldx, 0), (farx, formLoad farx false, memDyn farx, 0),
    (ext 0 8 (src1 0 260 0 0), formPref (ext 0 8 (src1 0 260 0 0)), memDyn (ext 0 8 (src1 0 260 0 0)), 4)]
    fun c => okIs (full.tick.translate c (c.who true false) (memSize ldx) none 0 (wants c ldx))
        (fun r => !full.tick.atomHeld c.g.id (linesOf (r.1.flatMap fun g => g.addrs))) &&
      errIs (full.tick.translate c (c.who true false) (memSize farx) none 0 (wants c farx)) fun _ => true := metM (by decide +kernel)
theorem witness_LoadsReadMemory_uniform : MetM full [(ext 0x10A 0x102 (src1 0x1B0 0x1B0 0 0), formLoad (ext 0x10A 0x102 (src1 0x1B0 0x1B0 0 0)) true,
    memDyn (ext 0x10A 0x102 (src1 0x1B0 0x1B0 0 0)), 0), (ldx, formLoad ldx true, memDyn ldx, 0)] (fun _ => true) (fun c x => c.firstMembers x.p) :=
  metM (by decide +kernel)
/-- The data of a load can arrive. -/
def loaded : State := about (after full (.ld ldx)) (.part (lastOp (after full (.ld ldx))) none)
theorem witness_LoadsReadMemory_arrival : OpMet loaded (.part (lastOp loaded) none) (lastOp loaded) fun o _ =>
    (match o.kind with
      | .load accs _ _ none => accs.all loaded.hasPath && (accs.all fun a => [1, 2, 4, 8, 16].contains a.addrs.length) &&
          decide (accs.Pairwise fun a b => ∀ t ∈ a.threads, t ∉ b.threads) && decide (accs.length = 2)
      | _ => false) && o.taken.isEmpty && o.given.isEmpty && loaded.l1.isEmpty && loaded.writes.isEmpty && loaded.staged.isEmpty &&
    loaded.guests.isEmpty := opMet rfl (by decide +kernel)
/-- The data of a load, and of an LDU to s10, whose line is in the L1, on its way and in a guest copy. -/
def cached (s : State) (cachedLine : Nat) : State :=
  { s with l1 := [{ core := 0, line := cachedLine, clean := some (zeros 64), mark := LineMark.none, epoch := 0, dirty := [(1, 5)], stamp := 0, since := 0, owners := [2], waiters := [] }],
           writes := [{ id := 50, core := some 0, die := 0, line := cachedLine, bytes := [(2, 6)], stamp := 0, owners := [2], waiters := [], staged := none, failing := false, poison := false }],
           guests := [⟨1, cachedLine, zeros 64, LineMark.none⟩] }
def lduState : State :=
  let s := after full (.ldu (ext 0x10A 0x102 (src1 0x1B0 0x1B0 0 0)))
  cached (about s (.part (lastOp s) none)) (probeFrame / 64 + 128)
def loadCached : State := cached loaded (probeFrame / 64 + 320)
def arrives (s : State) (cachedLine : Nat) (uni : Bool) (o : Op) : Bool :=
  (match o.kind with
    | .load accs _ _ d => accs.all s.hasPath && (accs.all fun a => [1, 2, 4, 8, 16].contains a.addrs.length) && !accs.isEmpty && d.isSome == uni &&
        decide (accs.Pairwise fun a b => ∀ t ∈ a.threads, t ∉ b.threads) && (accs.any fun a => a.addrs.any fun pa => pa / 64 == cachedLine) &&
        decide ((s.l1.filter fun y => y.core == 0).length + 16 * accs.length ≤ 4096) && (!uni || accs.length == 1)
    | _ => false) && o.taken.isEmpty && o.given.isEmpty && s.forward.isEmpty && s.staged.isEmpty && (s.writes.all fun w => w.staged.isNone) &&
    (s.guests.all fun y => y.bytes.length == 64) && s.l1.all fun y => y.clean.all fun b => b.length == 64
theorem witness_LoadsReadMemory_cached : OpMet loadCached (.part (lastOp loaded) none) (lastOp loaded) (fun o _ => arrives loadCached (probeFrame / 64 + 320) false o) ∧
    OpMet lduState (.part (lastOp lduState) none) (lastOp lduState) (fun o g => arrives lduState (probeFrame / 64 + 128) true o && (g.sub? 0).any fun u => u.upending.get 0 10 == o.id + 1) :=
  ⟨opMet rfl (by decide +kernel), opMet rfl (by decide +kernel)⟩

/-- A store from v10, and one from s10. -/
def stx : Ext := ext 10 8 (src1 0 260 0 0)
def stu : Ext := ext 0x10A 8 (src1 0 260 0 0)
theorem witness_StoresReachMemory : MetM full [(stx, formStore stx, memDyn stx, 1), (stu, formStore stu, memDyn stu, 1),
    (farx, formStore farx, memDyn farx, 1)] fun c =>
      (okIs (full.tick.translate c (c.who false true) (memSize stx) none 0 (wants c stx)) fun r =>
        !full.tick.atomHeld c.g.id (linesOf (r.1.flatMap fun g => g.addrs)) && !c.stageFull full.tick (r.1.length * memSize stx) && !r.1.isEmpty) &&
      errIs (full.tick.translate c (c.who false true) (memSize farx) none 0 (wants c farx)) fun _ => true := metM (by decide +kernel)
/-- A write request to a line of unit memory, what waits for its visibility, and an L1 line with dirty bytes. -/
def line0 : Nat := probeFrame / 64 + 128
def aWrite : HomeWrite := { id := 50, core := some 0, die := 0, line := line0, bytes := [(0, 7), (63, 9)], stamp := 0, owners := [2], waiters := [3],
                            staged := none, failing := false, poison := false }
def aLine : L1Line := { core := 0, line := line0, clean := none, mark := LineMark.none, epoch := 0, dirty := [(5, 1)], stamp := 0, since := 0,
                        owners := [2], waiters := [3] }
def storing : State :=
  let s := after full (.st stx)
  { s with writes := [aWrite], l1 := [aLine], visible := [⟨51, 0, [lastOp s]⟩], probes := [⟨52, 1, line0, 0, false⟩, ⟨53, 1, line0, 0, true⟩],
           guests := [⟨1, line0, zeros 64, LineMark.none⟩], dirs := [(line0 / 8, [1])] }
theorem witness_StoresReachMemory_home : (about storing (.num 50)).arg = .num 50 ∧ (storing.writes.find? fun w => w.id == 50) = some aWrite ∧
    storing.firstOfLine aWrite = true ∧ storing.pathTo aWrite.line = true := ⟨rfl, rfl, by decide +kernel, by decide +kernel⟩
/-- A request that is damaged on its way, and one of a staging launch. -/
theorem witness_StoresReachMemory_failing : ∀ w ∈ [{ aWrite with failing := true, waiters := [lastOp storing] }, { aWrite with staged := some (1, 0) }],
    (({ storing with writes := [w] } : State).writes.find? fun w => w.id == 50) = some w ∧ ({ storing with writes := [w] } : State).firstOfLine w = true ∧
      storing.pathTo w.line = true ∧ (w.failing = true → (storing.op? (lastOp storing)).any (fun o => (storing.group? o.grp).isSome) = true) := by decide +kernel
theorem witness_StoresReachMemory_visible : ∃ v o g, (storing.visible.find? fun v => v.id == 51) = some v ∧ v.time ≤ storing.time ∧
    (∀ p ∈ storing.probes, p.id = 51 → p.answered = true) ∧ v.waiters = [lastOp (after full (.st stx))] ∧
    (about storing (.num 51)).op? (lastOp (after full (.st stx))) = some o ∧ storing.group? o.grp = some g := by
  obtain ⟨o, ho, h⟩ := some_of (show ((about storing (.num 51)).op? (lastOp (after full (.st stx)))).any
    (fun o => (storing.group? o.grp).any fun _ => true) = true by decide +kernel)
  obtain ⟨g, hg, -⟩ := some_of h
  exact ⟨_, o, g, rfl, by decide +kernel, by decide +kernel, rfl, ho, hg⟩
theorem witness_StoresReachMemory_l1 : storing.l1? 0 line0 = some aLine ∧ aLine.dirty ≠ [] ∧ aLine.since + 2048 ≤ ({ storing with time := 2048 } : State).time :=
  ⟨rfl, by decide, by decide⟩
theorem witness_StoresReachMemory_probes : (∃ p, (storing.probes.find? fun p => p.id == 52 && p.die == 1 && !p.answered) = some p) ∧
    (∃ p, (storing.probes.find? fun p => p.id == 53 && p.die == 1 && p.answered) = some p) ∧ storing.dirs.has (line0 / 8) = true ∧
    (∃ g ∈ storing.guests, g.die = 1 ∧ g.line = line0) := by
  refine ⟨⟨_, rfl⟩, ⟨_, rfl⟩, by decide +kernel, by decide +kernel⟩
/-- A line of the host's memory that the map has, and one that it has not. -/
def hosted : State := { bare with hwlen := 64 }
theorem witness_StoresReachMemory_host : (8 * 2 ^ 38) / 2 ^ 38 = 8 ∧ (8 * 2 ^ 38 + 1) / 2 ^ 38 = 8 ∧ (zeros 64).length = 64 ∧
    hosted.home (64 * (8 * 2 ^ 38)) ≠ none ∧ hosted.home (64 * (8 * 2 ^ 38 + 1)) = none ∧ hosted.clear hosted.hostHorizon = true ∧
    ({ hosted with hostHorizon := 60, visible := [⟨51, 100, []⟩] } : State).clear 60 = false := by
  decide +kernel

/-- Atomics: an addition at v8 with D, a compare-and-swap, a SIGNAL, an OBSERVE, a MONITOR. -/
def atomx : Ext := ext 10 8 (src1 4 0 0 4)
def casx : Ext := ext 10 8 (src1 4 4 0 0)
def sigx : Ext := ext 0 8 (src1 4 0 0 0)
def obsx : Ext := ext 10 8 (src1 0 0 0 0)
def monx : Ext := ext 0 8 0
theorem witness_AtomicsAtTheirExecutors_values : ∃ (r : AtomReq) (old : Nat), r.width = 8 ∧ old < 2 ^ (8 * r.width) ∧ r.b < 2 ^ (8 * r.width) ∧
    r.what = 0 ∧ r.opn = 13 ∧ r.ty = .i32 :=
  ⟨{ thread := 0, pa := 0, width := 8, what := 0, opn := 13, ty := .i32, rnd := .rne, fzi := false, fzo := false, b := 2 ^ 64 - 1, c := 0,
     reg := none, msa := false, fl := 0, done := false }, 2 ^ 63, by decide, by decide, by decide, rfl, rfl, rfl⟩
theorem witness_AtomicsAtTheirExecutors_floats : ∀ k ∈ [(4, DType.f32), (8, .f64)], k.1 ≤ 8 ∧ k.2.isFloat = true ∧ k.2.width = 8 * k.1 ∧ 2 ^ 31 < 2 ^ (8 * k.1) := by decide
theorem witness_AtomicsAtTheirExecutors_issue : MetM full [(atomx, formAtom atomx, noChecks, 0), (casx, formAtomcas casx, noChecks, 0),
    (sigx, formSignal sigx, noChecks, 1), (obsx, formObserve obsx, noChecks, 0), (monx, formMonitor monx, noChecks, 4)] fun c =>
      okIs (full.tick.translate c (c.who true true) 4 (some (4, 7)) 0
        ((c.threads 0).map fun t => { thread := t, va := c.atomEa atomx t, member := t / 32 })) fun r => !r.1.isEmpty := metM (by decide +kernel)
/-- An atomic whose accesses can be performed, and after both. -/
def atomic : State := about (after full (.atom atomx)) (.pair (lastOp (after full (.atom atomx))) 0)
def performed : State :=
  let s := after (about (after atomic .atomicAtExecutor) (.pair (lastOp atomic) 1)) .atomicAtExecutor
  about s (.part (lastOp atomic) none)
theorem witness_AtomicsAtTheirExecutors_executor : OpMet atomic (.pair (lastOp atomic) 0) (lastOp atomic) fun o g =>
    (match o.kind with
      | .atom reqs => reqs.head?.any fun r => atomic.atomReady o 0 r && decide (r.width = 4) && decide (r.pa % 4 = 0)
      | _ => false) && atomic.staged.isEmpty && (atomic.launch? g.launch).any fun l => !l.ord := opMet rfl (by decide +kernel)
theorem witness_AtomicsAtTheirExecutors_arrival : OpMet performed (.part (lastOp atomic) none) (lastOp atomic) fun o _ =>
    (match o.kind with
      | .atom reqs => (reqs.all fun r => r.done && r.reg.isSome && r.width == 4) && decide (reqs.length = 2) &&
          ((List.range 2).all fun i => (List.range 4).all fun j => o.taken.has (512 * i + j)) && decide (reqs.Pairwise fun a b => a.thread ≠ b.thread)
      | _ => false) && o.given.isEmpty := opMet rfl (by decide +kernel)
/-- A SIGNAL waiting for the writes before it, under way, and at its executor. -/
def signal : Nat → State
  | 0 => let s := after full (.signal sigx); about s (.num (lastOp s))
  | 1 => after (signal 0) .signalDepart
  | n + 2 => let s := after (signal (n + 1)) .signalArriveExecutor; about s (.pair (lastOp s) 0)
def wayIs (s : State) (way : Nat) (o : Op) : Bool :=
  match o.kind with
  | .signal reqs e w v => w == way && (way != 0 || (s.edges.find? fun k => k.id == e).any fun k => k.pend.isEmpty) &&
      (way != 2 || (s.clear v && reqs.head?.any fun r => s.atomReady o 0 r))
  | _ => false
theorem witness_AtomicsAtTheirExecutors_signal : OpMet (signal 0) (.num (lastOp (signal 0))) (lastOp (signal 0)) (fun o _ => wayIs (signal 0) 0 o) ∧
    OpMet (signal 1) (.num (lastOp (signal 0))) (lastOp (signal 0)) (fun o _ => wayIs (signal 1) 1 o) ∧
    OpMet (signal 2) (.pair (lastOp (signal 1)) 0) (lastOp (signal 0)) (fun o _ => wayIs (signal 2) 2 o) :=
  ⟨opMet rfl (by decide +kernel), opMet (by decide +kernel) (by decide +kernel), opMet (by decide +kernel) (by decide +kernel)⟩

/-! ### Waits -/

/-- A BAR of level 0, one of level 1 that the launch does not declare, and the other waits. -/
def armed : List (Ext × Form × (Cx → List Nat) × Nat) := [(ext 0 0 4, formWaitc, noChecks, 4), (ext 0 0 0, formOnce false 7 [], full.notLast, 4),
  (ext 0 0 1, formOnce false 7 [], full.notLast, 4), (ext 0 258 0, formOnce true 0 [], full.notLast, 4),
  (ext 266 258 0, formMwait, full.notLast, 4), (ext 0x1FF 258 0, formMwait, full.notLast, 4)]
theorem witness_WaitsAreArmed : MetM full armed fun c => (full.notLast c).isEmpty && decide (c.l.domain 0 = some 0) && decide (c.l.domain 1 = none) :=
  metM (by decide +kernel)
theorem witness_WaitsAreArmed_engines : MetMem full [(ext 0 0 0, formAwait, [], full.notLast), (ext 0 258 0, formAwaitn, [], full.notLast),
    (ext 0 258 1, formMsplit (ext 0 258 1), [], full.notLast), (ext 0 0 0, formMsplit (ext 0 0 0), [], full.notLast)] fun _ => true :=
  metMem (by decide +kernel)

/-- The sub-group in a phase, with more of its state. -/
def resting (p : Phase) (f : SubGroup → SubGroup) : State :=
  about (full.modSub { grp := 2, sub := 0 } fun u => f { u with phase := p }) (.sub { grp := 2, sub := 0 })
/-- It and its group and launch meet `P`. -/
def SubMet (s : State) (P : Group → SubGroup → Launch → Bool) : Prop :=
  s.arg = .sub { grp := 2, sub := 0 } ∧ ∃ g u l, s.group? 2 = some g ∧ g.sub? 0 = some u ∧ s.launch? g.launch = some l ∧ P g u l = true
theorem subMet {s : State} {P : Group → SubGroup → Launch → Bool} (h1 : s.arg = .sub { grp := 2, sub := 0 })
    (h : ((s.group? 2).any fun g => (g.sub? 0).any fun u => (s.launch? g.launch).any fun l => P g u l) = true) : SubMet s P := by
  obtain ⟨g, hg, h⟩ := some_of h
  obtain ⟨u, hu, h⟩ := some_of h
  obtain ⟨l, hl, h⟩ := some_of h
  exact ⟨h1, g, u, l, hg, hu, hl, h⟩

def waiting : State := resting (.waitc 0 0 0 0) id
def owing : State := waiting.modGroup 2 fun g => { g with deferred := [{ op := 9, counter := 2, ready := true, cause := 0x10, detail := 1, addr := 0 }] }
theorem witness_WaitsEnd_waitc : SubMet waiting (fun g u _ => u.phase == .waitc 0 0 0 0 && g.ld == 0 && g.st == 0 && g.cp == 0 && g.mx == 0 &&
      waiting.clear g.horizon && g.deferred.isEmpty) ∧
    SubMet owing (fun g _ _ => (g.deferred.find? fun d => d.ready && decide (d.counter < 4)).any fun d => decide (d.cause < 2 ^ 8)) :=
  ⟨subMet rfl (by decide +kernel), subMet rfl (by decide +kernel)⟩
/-- A counter of 62 ends the stall of its sub-group. -/
def stalled : State := (resting (.counterStall 0) id).modGroup 2 fun g => { g with ld := 62 }
theorem witness_WaitsEnd_stall : SubMet stalled fun g u _ => u.phase == .counterStall 0 && decide (g.counter 0 ≤ 62) := subMet rfl (by decide +kernel)
/-- Copies that end with this WAITC, and an error of them that it does not cover. -/
def covering : State := waiting.modGroup 2 fun g => { g with uncovered := [2, 3] }
theorem witness_WaitsEnd_covering : SubMet covering fun g u _ => u.phase == .waitc 0 0 0 0 && g.uncovered.contains 2 && covering.clear g.horizon :=
  subMet rfl (by decide +kernel)
theorem witness_WaitsEnd_sleep : SubMet (resting (.sleep 0) id) fun _ u _ => u.phase == .sleep 0 := subMet rfl (by decide +kernel)
def watch (wakes : List Nat) : Monitor := { addr := some 0, exec := 0, order := 1, pending := false, wakes := wakes }
theorem witness_WaitsEnd_mwait : SubMet (resting (.mwait none (some 10)) fun u => { u with monitor := some (watch [1]) })
      (fun _ u _ => u.phase == .mwait none (some 10) && u.monitor == some (watch [1])) ∧
    SubMet (resting (.mwait (some 0) none) fun u => { u with monitor := some (watch []) })
      (fun _ u _ => u.phase == .mwait (some 0) none && u.monitor == some (watch []) && !(watch []).pending) :=
  ⟨subMet rfl (by decide +kernel), subMet rfl (by decide +kernel)⟩
theorem witness_WaitsEnd_bar : SubMet (resting (.bar 0) id) fun g u l => u.phase == .bar 0 && l.domain 0 == some 0 && l.allPlaced 0 && l.arrived 0 g &&
    (resting (.bar 0) id).quietFor [g.id] := subMet rfl (by decide +kernel)
def awaiting : State := resting (.await 0 0 [0, 1]) id
/-- An await record on a marked line: of a group in its slot and of one that has yielded. -/
def awaitMarked (m : LineMark) : State :=
  marking ((awaiting.modGroup 2 fun g => { g with awr := some 3 }).modLaunch 1 fun l => { l with frames := [⟨3, 12, 2, 1⟩] }) (0x100000 + 64 * 3) m
theorem witness_WaitsEnd_marks : (∀ m ∈ [⟨2, false, false, false⟩, ⟨0, true, false, false⟩], SubMet (awaitMarked m) fun g u l => u.phase == .await 0 0 [0, 1] && !g.awrBad && g.resident &&
      (awaitMarked m).framesOpen l && ((awaitMarked m).awaitMark l g [0, 1]).any fun k => decide (k.cause < 2 ^ 8)) ∧
    SubMet ((awaitMarked ⟨2, false, false, false⟩).modGroup 2 fun g => { g with place := .yielded }) fun g _ l => decide (g.place = .yielded) &&
      ((awaitMarked ⟨2, false, false, false⟩).awaitMark l g [0, 1]).isSome := by
  refine ⟨fun m hm => ?_, subMet rfl (by decide +kernel)⟩
  simp only [List.mem_cons, List.not_mem_nil, or_false] at hm
  obtain rfl | rfl := hm
  · exact subMet rfl (by decide +kernel)
  · exact subMet rfl (by decide +kernel)
theorem witness_WaitsEnd_await : SubMet awaiting (fun g u l => u.phase == .await 0 0 [0, 1] && !g.awrBad && decide (g.place = .slot) && awaiting.framesOpen l && (awaiting.awaitMark l g [0, 1]).isNone &&
      ([0, 1].all fun t => awaiting.outstanding l g.awr t == 0) && awaiting.clear (g.reportHorizon [0, 1])) ∧
    SubMet (awaiting.modGroup 2 fun g => { g with awrBad := true }) (fun g _ _ => g.awrBad && g.resident) ∧
    SubMet (awaiting.modGroup 2 fun g => { g with place := .yielded }) (fun g _ l => decide (g.place = .yielded) &&
      [0, 1].all fun t => awaiting.outstanding l g.awr t == 0) :=
  ⟨subMet rfl (by decide +kernel), subMet rfl (by decide +kernel), subMet rfl (by decide +kernel)⟩

/-! ### Translation -/

/-- The leaf of the probe's page with other bits. -/
def leaf (w0 w1 : Nat) : State := { bare with mem := layBytes bare.mem probeNext (leBytes 8 (w0 + probeFrame) ++ leBytes 8 w1) }
/-- The line of the leaf in a state of its own. -/
def markedLeaf (m : LineMark) : State := { bare with lineMarks := [(probeNext / 64, m)] }
/-- The entry at the leaf's level. -/
def entry (s : State) : Dword × Dword := s.entryFor none probeNext
theorem witness_TranslationAndItsInstructions_walk :
    ((markedLeaf ⟨2, false, false, false⟩).markOf ((markedLeaf ⟨2, false, false, false⟩).fwd (probeNext / 64))).poison ≠ 0 ∧
    ((markedLeaf ⟨0, true, false, false⟩).markOf ((markedLeaf ⟨0, true, false, false⟩).fwd (probeNext / 64))).failing = true ∧
    (entry (leaf 0 0)).1.getLsbD 0 = false ∧
    ((entry (leaf 1 3)).1.getLsbD 0 = true ∧ (leaf 1 3).entryBad 3 (entry (leaf 1 3)).1 (entry (leaf 1 3)).2 = true) ∧
    ((entry bare).1.getLsbD 0 = true ∧ bare.entryBad 3 (entry bare).1 (entry bare).2 = false ∧ (entry bare).1.getLsbD 1 = true) ∧
    (let e := bare.entryFor none probeTop
     e.1.getLsbD 0 = true ∧ bare.entryBad 4 e.1 e.2 = false ∧ e.1.getLsbD 1 = false) ∧
    (bare.tlb = [] ∧ probeNext % 16 = 0 ∧ bare.pathTo (probeNext / 64) = true ∧ bare.pathTo (8 * 2 ^ 38) = false) := by decide +kernel
/-- Its bytes on their way from a core, and dirty in its L1. -/
theorem witness_TranslationAndItsInstructions_entry :
    (({ bare with writes := [{ aWrite with line := probeNext / 64 }] } : State).writes.reverse.find? fun w => w.core == some 0 && w.line == probeNext / 64 &&
      w.staged.isNone && w.bytes.has (probeNext % 64)).isSome = true ∧
    ((({ bare with l1 := [{ aLine with line := probeNext / 64, dirty := [(0, 1)] }] } : State).l1? 0 (probeNext / 64)).any fun y => y.dirty.has (probeNext % 64)) = true := by
  decide +kernel
/-- The leaf that address 0 leads to. -/
def leads (s : State) (P : Leaf → Bool) : Bool :=
  match (s.walk (some 0) 0 0 0).1 with
  | .leaf l => P l && decide (l.pl ≠ 3)
  | _ => false
theorem witness_TranslationAndItsInstructions_reach : leads bare (fun l => l.rd && l.wr && !l.prv && !l.psn) = true ∧
    leads (leaf 0x0B 13) (fun l => !l.rd && l.wr) = true ∧ leads (leaf 0x07 13) (fun l => l.rd && !l.wr) = true ∧
    leads (leaf 0x2F 13) (fun l => l.rd && l.wr && l.prv) = true ∧ leads (leaf 0x10F 13) (fun l => l.psn) = true := by decide +kernel
/-- The group of `full` without privilege. -/
def lowly : State := full.modLaunch 1 fun l => { l with priv := false }
def systemList : List (Ext × Form × List RegUse × (Cx → List Nat)) := [(ext 0 258 1, formTlbinv (ext 0 258 1), [], noChecks),
  (ext 0 0 0, formTlbinv (ext 0 0 0), [], noChecks),
  (ext 266 0 0, formQsync (ext 266 0 0), [], noChecks), (ext 266 258 (src1 260 0 0 1), formQsync (ext 266 258 (src1 260 0 0 1)), [], noChecks),
  (ext 266 0 2, formQsync (ext 266 0 2), [], noChecks), (ext 266 258 (src1 260 260 0 0), formMigr (ext 266 258 (src1 260 260 0 0)), [], noChecks),
  (ext 266 0 (src1 260 260 0 1), formMigr (ext 266 0 (src1 260 260 0 1)), [], noChecks), (ext 10 8 0, formPgqry (ext 10 8 0), [], noChecks),
  (ext 10 8 2, formPgqry (ext 10 8 2), [], noChecks), (ext 10 8 3, formPgqry (ext 10 8 3), [], noChecks)]
theorem witness_TranslationAndItsInstructions_issue : MetMem full systemList (fun c => c.l.priv && decide (c.g.cp < 63)) ∧
    MetMem lowly systemList (fun c => !c.l.priv) := ⟨metMem (by decide +kernel), metMem (by decide +kernel)⟩
/-- PGQRY of units and of the queue with a selector beyond them. -/
theorem witness_TranslationAndItsInstructions_range : MetMem (full.modGroup 2 fun g => { g with vregs := g.vregs.put 8 [(0, 6), (1, 4)] }) [(ext 10 8 2, formPgqry (ext 10 8 2), [], noChecks),
    (ext 10 8 3, formPgqry (ext 10 8 3), [], noChecks)] fun c => (c.threads 0).any (fun t => decide (5 < (c.plain (ext 10 8 2) .A false .int t).toNat)) &&
      (c.threads 0).any fun t => decide (3 < (c.plain (ext 10 8 3) .A false .int t).toNat) := metMem (by decide +kernel)
/-- A quarantined frame, taken and not. -/
theorem witness_TranslationAndItsInstructions_queue : full.quarantine = [] ∧ full.quarantine.length < 4096 ∧ 65536 % 2 ^ 16 = 0 ∧ 8192 % 2 ^ 16 ≠ 0 ∧
    (0 : Nat) ≤ full.qc ∧ full.qc < full.qi + 2 := by decide +kernel
/-- TLBINV, QSYNC.wait and MIGR on their way. -/
def flushing : State := let s := after full (.tlbinv (ext 0 258 1)); about s (.pair (lastOp s) 0)
def flushed : State :=
  let s := { flushing with ops := flushing.ops.map fun o => { o with kind := match o.kind with | .tlbinv m b v e _ _ => .tlbinv m b v e [] [0] | k => k } }
  about s (.pair (lastOp s) 0)
theorem witness_TranslationAndItsInstructions_tlbinv : OpMet flushing (.pair (lastOp flushing) 0) (lastOp flushing) (fun o _ => match o.kind with
      | .tlbinv _ _ _ e todo _ => todo.contains 0 && flushing.edges.all fun k => decide (k.id = e → k.pend = [])
      | _ => false) ∧
    OpMet flushed (.pair (lastOp flushed) 0) (lastOp flushed) (fun o g => (match o.kind with
      | .tlbinv _ _ _ _ todo acks => todo.isEmpty && acks == [0]
      | _ => false) && (flushed.heldBy (lastOp flushed)).any fun r => r.grp == o.grp && (g.sub? r.sub).isSome) :=
  ⟨opMet rfl (by decide +kernel), opMet rfl (by decide +kernel)⟩
def quiescing : State := let s := { after full (.qsyncWait (ext 266 0 0)) with tlb := [] }; about s (.sub { grp := 2, sub := 0 })
theorem witness_TranslationAndItsInstructions_qsync : SubMet quiescing fun _ u _ => match u.phase with
    | .engine id => (quiescing.op? id).any fun o => match o.kind with
      | .qsync n _ => decide (n ≤ quiescing.qc)
      | _ => false
    | _ => false := subMet rfl (by decide +kernel)
/-- MIGR with the leaf it names, the frame it scrubs and its progress given. -/
def migrating (move : Bool) (a b dst : Nat) (started : Option MovingLeaf) : State :=
  let s := after full (.migrMove (ext 266 258 (src1 260 260 0 0)))
  let s := { s with ops := s.ops.map fun o => { o with kind := .migr move a b dst none started } }
  about s (.num (lastOp s))
/-- The leaf of the probe's page as a move read it. -/
def moving : MovingLeaf := { slot := probeNext, w0 := (bare.entryAt probeNext).1, w1 := (bare.entryAt probeNext).2 }
/-- Its operation stands, and `P` holds of the state and of the leaf that it finds. -/
def Migrates (s : State) (P : Option Leaf → Bool) (a b : Nat) : Prop :=
  OpMet s (.num (lastOp s)) (lastOp s) fun o _ => decide (o.counter = 2) && s.forward.isEmpty && P (s.migrLeaf a b)
theorem migrates {s : State} {P : Option Leaf → Bool} {a b : Nat}
    (h : ((s.op? (lastOp s)).any fun o => (s.group? o.grp).any fun _ => decide (o.counter = 2) && s.forward.isEmpty && P (s.migrLeaf a b)) = true)
    (h1 : s.arg = .num (lastOp s)) : Migrates s P a b := opMet h1 h
/-- A scrub of a misaligned frame, of a frame of die 0; a move of an unmapped page, one that is refused, one that begins and one that has begun. -/
theorem witness_TranslationAndItsInstructions_migr :
    Migrates (migrating false 0 1 0 none) (fun _ => decide (1 % 2 ^ 16 ≠ 0)) 0 0 ∧
    Migrates (migrating false 0 (2 ^ 44) 0 none) (fun _ => bare.home (2 ^ 44) != none && bare.home (2 ^ 44 + 65535) != none) 0 0 ∧
    Migrates (migrating true 0 (2 ^ 40) (2 ^ 45) none) (fun l => l.isNone) 0 (2 ^ 40) ∧
    Migrates (migrating true 65536 0 1 none) (fun l => l.any fun l => decide (full.migrRefuses l 1 1 ≠ [])) 0 0 ∧
    Migrates (migrating true 65536 0 (2 ^ 45) none) (fun l => l.any fun l => decide (full.migrRefuses l 1 (2 ^ 45) = [])) 0 0 ∧
    Migrates (migrating true 65536 0 (2 ^ 45) (some moving)) (fun _ => decide (2 ^ 45 % 64 = 0) && decide (moving.frame + moving.span ≤ 2 ^ 45) &&
      decide (moving.slot + 16 ≤ moving.frame) && decide (moving.slot + 16 ≤ 2 ^ 45) && decide (moving.frame % 2 ^ levelShift moving.level = 0)) 0 0 :=
  ⟨migrates (by decide +kernel) (by decide +kernel), migrates (by decide +kernel) (by decide +kernel), migrates (by decide +kernel) (by decide +kernel), migrates (by decide +kernel) (by decide +kernel),
    migrates (by decide +kernel) (by decide +kernel), migrates (by decide +kernel) (by decide +kernel)⟩

/-! ### Tiles and copies -/

/-- A tile of each state. -/
def tileIn (state pf rc : Nat) : Tile := { defined := true, pm := false, bs := 0, sz := 16, state := state, pf := pf, rc := rc }
theorem witness_TilesAndTheirStates_tile : (∀ n ∈ [0, 1, 2, 3], (tileIn n 1 0).defined = true ∧ (tileIn n 1 0).state = n) ∧ 1 < (tileIn 1 2 0).pf := by
  decide
/-- TILEDEF of tile 4 over 16 units of 64 bytes, and over more than the block's share; TILEREL; TILEQ. -/
def defx : Ext := { ext 0 0 4 with w2 := 16 }
def defBig : Ext := { ext 0 0 4 with w2 := 0x04000010 }
def tiled : State := after full (.tiledef defx)
/-- A record form: D, A, B, C, SUB and the four words. -/
def recf (d a : BitVec 9) (b c sub : Nat) (r0 r1 r2 r3 : Word) : Rec :=
  { d := d, a := a, p := 0, w1 := BitVec.ofNat 32 (b * 2 ^ 23 + c * 2 ^ 14 + sub), w2 := 0, r0 := r0, r1 := r1, r2 := r2, r3 := r3 }
/-- The tile being filled from v10. -/
def filling : State := after tiled (.tcopy (recf 0x1E4 10 0x1B0 0x1B0 0 0 0x2000000 0 0))
theorem witness_TilesAndTheirStates : MetMem tiled [(defx, formTiledef defx, [], noChecks), (ext 0 0 4, formTilerel, [], noChecks),
    (ext 10 0 4, formTileq (ext 10 0 4), [], noChecks)] fun c =>
      let hi := fun x : Ext => 64 * (bits x.w2 27 16 + bits x.w2 11 0)
      decide (hi defx ≤ c.l.poolShare) && decide (c.l.poolShare < hi defBig) && c.g.spawned == false && (c.tile tiled 4).defined &&
      (tiled.block? c.l.id c.g.block).any (fun b => b.cores.contains c.g.core) && decide ((c.tile tiled 4).issue .define ≠ .stall) :=
  metMem (by decide +kernel)
theorem witness_TilesAndTheirStates_busy : MetMem filling [(defx, formTiledef defx, [], noChecks)] fun c =>
    decide ((c.tile filling 4).issue .define = .stall) := metMem (by decide +kernel)
/-- A sub-group stalled for a tile that is ready for it. -/
def freed : State := about (tiled.modSub { grp := 2, sub := 0 } fun u => { u with phase := .tileStall 4 .define }) (.sub { grp := 2, sub := 0 })
theorem witness_TilesAndTheirStates_release : SubMet freed fun g u _ => u.phase == .tileStall 4 .define &&
    decide ((freed.tile g.launch g.block g.core 4).issue .define ≠ .stall) := subMet rfl (by decide +kernel)

/-- A copy of two words from memory to registers, one to memory, one out of a tile, a field into a tile, a fill of memory. -/
def copyIn : Rec := recf 10 0x1FE 0x1B0 0x1B0 0 0x2000 0x2000000 1 0
def copyOut : Rec := recf 0x1FE 2 0x1B0 0x1B0 0 0x2000 0x2000000 1 0
def copyDrn : Rec := recf 0x1FE 0x1E4 0x1B0 0x1B0 0 0x2000 0x2000000 1 0
def copyFld : Rec := recf 0x1E4 0x1FE 0x1B0 0x1B0 0 0x2000 0x2000000 0 0
def fillx : Ext := ext 266 258 (src1 0x1B0 0x1B0 0 0)
theorem witness_CopiesMoveElements_tcopy : MetRec tiled [(copyIn, [copyIn.b, copyIn.c], tcopyFails copyIn false, fun c => c.copyMark copyIn, 2),
    (copyOut, [copyOut.b, copyOut.c], tcopyFails copyOut false, fun c => c.copyMark copyOut, 2)] (fun _ => true) false (fun c x => c.copyUses x) :=
  metRec (by decide +kernel)
theorem witness_CopiesMoveElements : MetRec tiled [(copyDrn, [copyDrn.b, copyDrn.c], tcopyFails copyDrn true, fun _ => none, 2), (copyFld, [copyFld.b, copyFld.c], hcopyFails copyFld, fun _ => none, 2)]
    fun c => (copyEnd copyIn.d).isSome && (copyEnd copyIn.a).isSome && decide (c.tcopyBad copyIn (.reg 10) .mem = []) &&
      decide (copyEnd copyFld.d = some (.tile 4 0)) && !c.stageFull tiled.tick 8 := metRec (by decide +kernel)
theorem witness_CopiesMoveElements_fill : MetMem tiled [(fillx, formTfill fillx, tfillUses fillx, tfillDyn fillx)] fun c => decide (c.g.cp < 63) :=
  metMem (by decide +kernel)
/-- A copy that can start, or that has been started with the moves it finds; a shape table of 2 elements in four dimensions at 0x4000. -/
def copying (i : Instr) (started : Bool) : State :=
  let s := after { tiled with mem := layBytes tiled.mem (probeFrame + 0x4000) (zeros 16 ++ leBytes 16 2 ++ leBytes 16 1 ++ leBytes 16 1 ++ leBytes 16 1) } i
  let s := about { s with edges := [] } (.part (lastOp s) none)
  if started then { s with ops := s.ops.map fun o => { o with kind := match o.kind, s.group? o.grp with
    | .copy w, some g => .copy { w with moves := match (s.tick.copyStart o g true w w.xfers).1 with
        | .ok ms => some ms
        | .error _ => none }
    | k, _ => k } } else s
/-- It goes on with its moves, or ends with an error. -/
def Moves (s : State) (P : Group → CopyWork → List Move → Bool) (E : Nat × Nat × Nat → Bool := fun _ => false) : Prop :=
  OpMet s (.part (lastOp s) none) (lastOp s) fun o g => o.left == 0 && s.edgeClear o.edge && (s.launch? g.launch).any fun l => match o.kind with
    | .copy w =>
      let start := match w.moves with
        | some moves => (Except.ok moves, s.tick)
        | none => s.tick.copyStart o g l.priv w w.xfers
      match start.1 with
      | .error e => E e
      | .ok ms => P g w ms && (ms.all fun mv => mv.res.isNone && mv.addrs.all fun pa => s.pathTo (pa / 64) && decide ((s.markOf (s.fwd (pa / 64))).poison = 0) &&
          !(s.markOf (s.fwd (pa / 64))).failing) && !s.copyHolds o g l.ord w ms && o.given.isEmpty && s.writes.isEmpty && s.staged.isEmpty && s.guests.isEmpty &&
          decide (w.xfers.Nodup) && (s.block? g.launch g.block).any fun b => b.struck.isEmpty && o.ends.all fun u => b.cores.contains u.core
    | _ => false
/-- Two elements of 4 bits, and two of F16 as F32; one field; by the shape table; from v10 into tile 4; nothing, with no active thread. -/
def narrowIn : Rec := recf 10 0x1FE 0x1B0 0x1B0 528 0x2000 0x2000000 1 0
def narrowOut : Rec := recf 0x1FE 2 0x1B0 0x1B0 (528 + 1024) 0x2000 0x2000000 1 0
def widenIn : Rec := recf 10 0x1FE 0x1B0 0x1B0 (12 + 32 * 10) 0x2000 0x2000000 1 0
def tableIn : Rec := recf 0x1E4 0x1FE 0x1B0 0x1B0 0 0x2000 0x8000000 0x4000 0
def tileIn4 : Rec := recf 0x1E4 10 0x1B0 0x1B0 0 0 0x2000000 1 0
def tileOut4 : Rec := recf 0x1FE 0x1E4 0x1B0 0x1B0 0 0x2000 0x2000000 1 0
theorem witness_CopiesMoveElements_in : (∀ b ∈ [false, true], Moves (copying (.tcopy copyIn) b) fun _ w ms => w.src == .mem && w.dst == .reg 10 && ms.length == 2 &&
      decide (ms.Pairwise fun a b => a.e ≠ b.e)) ∧
    Moves (copying (.tcopy narrowIn) false) (fun _ w ms => decide (w.ts.width = 4) && (ms.map fun mv => mv.shift) == [0, 4]) ∧
    Moves (copying (.tcopy widenIn) false) (fun _ w _ => decide (w.ts ≠ w.td)) ∧
    Moves (copying (.tcopy { copyIn with r1 := 0x2000010 }) false) (fun _ _ _ => false) (fun _ => true) := by
  refine ⟨fun b hb => ?_, opMet (by decide +kernel) (by decide +kernel), opMet (by decide +kernel) (by decide +kernel), opMet (by decide +kernel) (by decide +kernel)⟩
  cases b <;> exact opMet (by decide +kernel) (by decide +kernel)
theorem witness_CopiesMoveElements_tiles : Moves (copying (.tcopy tileIn4) false) (fun _ w ms => w.dst == .tile 4 0 && ms.length == 2 && ms.all fun mv => mv.m == 0) ∧
    Moves (copying (.hcopy copyFld) false) (fun _ w ms => w.dst == .tile 4 0 && ms.length == 9) :=
  ⟨opMet (by decide +kernel) (by decide +kernel), opMet (by decide +kernel) (by decide +kernel)⟩
/-- The shape table of its way: two elements. -/
theorem witness_CopiesMoveElements_table : ((copying (.tcopy tableIn) false).op? (lastOp (copying (.tcopy tableIn) false))).any (fun o => match o.kind with
      | .copy w => w.way == .table 0x2000 0x4000 4 && w.moves.isNone && (w.src.isMem && w.dst == .tile 4 0)
      | _ => false) = true ∧
    (shapeTable 4 (zeros 16 ++ leBytes 16 2 ++ leBytes 16 1 ++ leBytes 16 1 ++ leBytes 16 1)).any (fun k => elementCount k.2 == 2) = true ∧
    shapeTable 1 (zeros 32) = none := by decide +kernel
/-- Each bit of memory that the moves write is written by one of them. -/
def apart (w : CopyWork) (ms : List Move) : Bool :=
  (ms.all fun mv => decide (mv.shift < 8) && mv.addrs.length == (mv.shift + w.td.width + 7) / 8 && decide mv.addrs.Nodup) &&
    let bits := ms.flatMap fun mv => (List.range w.td.width).map fun i => (mv.addrs.getD ((mv.shift + i) / 8) 0, (mv.shift + i) % 8)
    decide bits.Nodup
theorem witness_CopiesMoveElements_out : Moves (copying (.tcopy copyOut) false) (fun _ w ms => w.dst == .mem && decide (ms ≠ []) && apart w ms) ∧
    Moves (copying (.tcopy narrowOut) false) (fun _ w ms => w.dst == .mem && decide (ms ≠ []) && apart w ms) ∧
    Moves (copying (.tcopy { copyOut with p := 1 }) false) (fun _ w ms => w.dst == .mem && ms.isEmpty) :=
  ⟨opMet (by decide +kernel) (by decide +kernel), opMet (by decide +kernel) (by decide +kernel), opMet (by decide +kernel) (by decide +kernel)⟩

/-! ### Spawning -/

def frmx (sel : Nat) : Ext := ext 10 0 (BitVec.ofNat 32 sel)
def frwx : Ext := ext 0 8 4
def chcx (sel : Nat) : Ext := ext 10 0 (BitVec.ofNat 32 sel)
def laux : Ext := ext 266 258 (src1 260 0 0 0)
/-- The same group as a spawned one, with a frame for each active thread, an await record and a call frame. -/
def kin : State :=
  let s := full.modGroup 2 fun g => { g with spawned := true, frames := [(0, 1), (1, 2)], awr := some 3 }
  let s := s.modSub { grp := 2, sub := 0 } fun u => { u with cfrm := some 16 }
  s.modLaunch 1 fun l => { l with frames := [⟨1, 1, 2, 0⟩, ⟨2, 1, 2, 0⟩, ⟨3, 12, 2, 1⟩, ⟨16, 33, 2, 3⟩] }
theorem witness_FramesCountsAndLaunches_writes : (full.launch? 1).any (fun l => okIs (full.engineAddrs l 0x2000 16 false true) (fun a => decide ((a.map full.place).Nodup)) &&
    errIs (full.engineAddrs l (2 ^ 57) 16 false true) fun _ => true) = true := by decide +kernel
theorem witness_FramesCountsAndLaunches_reaped : kin.Reaped 1 := by
  have h : (kin.groups.all fun g => !g.finished) = true := by decide +kernel
  rw [List.all_eq_true] at h
  intro g hg _ hf
  have := h g hg
  simp_all
theorem witness_FramesCountsAndLaunches : MetMem kin [(frmx 4, formFrmrd (frmx 4), [], noChecks), (frmx 12, formFrmrd (frmx 12), [], noChecks),
    (frmx 13, formFrmrd (frmx 13), [], noChecks), (frmx 14, formFrmrd (frmx 14), [], noChecks), (frwx, formFrmwr frwx, [], noChecks),
    (chcx 0, formChcnt (chcx 0), [], noChecks), (chcx 1, formChcnt (chcx 1), [], noChecks), (chcx 2, formChcnt (chcx 2), [], noChecks),
    (laux, formLaunch laux, [], noChecks)] fun c =>
      (c.g.frames.find? fun e => e.1 == 0) == some (0, 1) && c.u.cfrm == some 16 && (c.l.frames.find? fun r => r.start == 16).isSome &&
      ((c.threads 0).all c.g.frames.has) && c.g.awr == some 3 && (kin.groups.all fun g => !g.finished) &&
      okIs (kin.tick.engineAddrs c.l (c.l.frameBase + 64 * 1 + 0x20) 4 true false) (fun _ => true) &&
      okIs (c.launchCheck kin.tick 0x2000 256 64 true) (fun a => ((c.outgoing kin.tick).markOfBytes a).isNone && (a.all fun pa => kin.pathTo (pa / 64)) &&
        (Launch.ofRecord 0 (a.map kin.byteAt)).cpndAt == 0 && (Launch.ofRecord 0 (a.map kin.byteAt)).teamAt == 0) &&
      (kin.tick.frameFault c.l (c.threads 0) ((c.threads 0).filterMap fun th => (c.g.frames.find? fun e => e.1 == th).map fun e =>
        (th, c.l.frameBase + 64 * e.2 + 0x20))).isNone &&
      ((kin.tick.reap c.l.id).frameFault c.l (c.threads 0) ((c.threads 0).map fun th => (th, c.l.frameBase + 64 * 3 + 2 * th))).isNone && okIs (c.launchCheck kin.tick 0x3000 4 4 false) (fun _ => true) &&
      (c.outgoing kin.tick).quietFor [c.g.id] := metMem (by decide +kernel)
/-- The page at 2^36 is one of host memory, and s2:s3 points into it. -/
def pathlessKin : State :=
  let s := { kin with hwlen := 0x1000000000, mem := layBytes kin.mem (probeNext + 16) (leBytes 8 (8 * 2 ^ 44 + 0x0F) ++ leBytes 8 14) }
  s.modSub { grp := 2, sub := 0 } fun u => { u with uregs := [(2, 0x2000), (3, 16), (4, 0x3000)] }
/-- Marked frames, a marked await record, a marked launch record. -/
def kinMarked : State := ([0x100000 + 64, 0x100000 + 64 * 3, 0x2000].foldl (fun s va => marking s va ⟨2, false, false, false⟩) kin)
theorem witness_FramesCountsAndLaunches_marks : MetMem kinMarked [(frmx 4, formFrmrd (frmx 4), [], noChecks), (chcx 0, formChcnt (chcx 0), [], noChecks),
    (laux, formLaunch laux, [], noChecks)] fun c => let s := kinMarked.tick
      (s.frameFault c.l (c.threads 0) [(0, c.l.frameBase + 64 * 1 + 0x20)]).isSome &&
      ((s.reap c.l.id).frameFault c.l (c.threads 0) ((c.threads 0).map fun th => (th, c.l.frameBase + 64 * 3 + 2 * th))).isSome &&
      okIs (c.launchCheck s 0x2000 256 64 true) fun a => ((c.outgoing s).markOfBytes a).isSome := metMem (by decide +kernel)
/-- A record that is not yet visible, and one to which there is no path. -/
theorem witness_FramesCountsAndLaunches_waits : MetMem { kin with writes := [{ aWrite with owners := [2], waiters := [] }] } [(laux, formLaunch laux, [], noChecks)]
      (fun c => !(c.outgoing ({ kin with writes := [{ aWrite with owners := [2], waiters := [] }] } : State).tick).quietFor [c.g.id]) ∧
    MetMem { pathlessKin with tlb := [] } [(laux, formLaunch laux, [], noChecks)] (fun c => okIs (c.launchCheck pathlessKin.tick 0x1000002000 256 64 true) fun a =>
      ((c.outgoing pathlessKin.tick).markOfBytes a).isNone && a.any fun pa => !pathlessKin.pathTo (pa / 64)) := ⟨metMem (by decide +kernel), metMem (by decide +kernel)⟩
theorem witness_FramesCountsAndLaunches_none : MetMem full [(frwx, formFrmwr frwx, [], noChecks), (frmx 13, formFrmrd (frmx 13), [], noChecks),
    (chcx 0, formChcnt (chcx 0), [], noChecks)] fun c =>
      c.u.cfrm.isNone && ((c.threads 0).any fun t => !c.g.frames.has t) && (c.g.frames.find? fun e => e.1 == 0).isNone && c.g.awr.isNone &&
      errIs (c.launchCheck full.tick 0x2001 256 64 true) fun _ => true := metMem (by decide +kernel)

/-- SPAWN of one child for each thread at s2:s3, and at s6:s7, which is no entry point; with no argument. -/
def spx : Ext := ext 4 258 (src1 0 0 0 0)
def spBad : Ext := ext 4 262 (src1 0 0 0 0)
/-- The same with one active thread and an await record; with no frame area. -/
def single : State := kin.modGroup 2 fun g => { g with exm := [(0, 1)] }
def cramped : State := full.modLaunch 1 fun l => { l with record := putWord l.record 0x50 0 }
def spawnReady (s : State) (x : Ext) (P : Cx → Bool) : Prop :=
  MetMem s [(x, formSpawn x, spawnUses x, noChecks)] fun c => P c && decide (x.subBits 3 0 = 0) && decide (c.liveThreads ≠ []) && decide (s.groups.length = 1)
/-- What the area has for it. -/
def room (s : State) (x : Ext) (c : Cx) : Option (List Nat × Launch) :=
  (((s.tick.reap c.l.id).launch? c.l.id).getD c.l).allocAll c.g.id (c.spawnNeed x (s.tick.wouldOpen (s.tick.slotsOf c x)))
theorem witness_SpawnMakesChildren : spawnReady full (ext 0 258 0) (fun c => decide (c.threads 0 ≠ []) && (room full (ext 0 258 0) c).isSome &&
      ((full.tick.reap c.l.id).frameFault c.l (c.threads 0) (c.spawnReads (c.threads 0))).isNone && (c.threads 0).all fun t => decide ((full.tick.reap c.l.id).outstanding c.l c.g.awr t < 65535) && decide ((c.plain (ext 0 258 0) .A true .int t).toNat % 64 = 0)) ∧
    spawnReady full (ext 0 262 0) (fun c => (c.threads 0).any fun t => decide ((c.plain (ext 0 262 0) .A true .int t).toNat % 64 ≠ 0)) ∧
    spawnReady cramped (ext 0 258 0) (fun c => (room cramped (ext 0 258 0) c).isNone) ∧
    spawnReady single (ext 0 258 0) (fun c => c.threads 0 == [0] && c.g.awr.isSome && (room single (ext 0 258 0) c).isSome &&
      ((single.tick.reap c.l.id).frameFault c.l (c.threads 0) (c.spawnReads (c.threads 0))).isNone) ∧
    spawnReady (marking single (0x100000 + 64 * 3) ⟨2, false, false, false⟩) (ext 0 258 0) (fun c => let s := marking single (0x100000 + 64 * 3) ⟨2, false, false, false⟩
      (room s (ext 0 258 0) c).isSome && ((s.tick.reap c.l.id).frameFault c.l (c.threads 0) (c.spawnReads (c.threads 0))).isSome) ∧
    spawnReady full { ext 0 258 0 with p := 1 } (fun c => c.threads 1 == []) :=
  ⟨metMem (by decide +kernel), metMem (by decide +kernel), metMem (by decide +kernel), metMem (by decide +kernel), metMem (by decide +kernel), metMem (by decide +kernel)⟩

/-- A slot on its way to the bin store of core 0, and bins. -/
def aSlot : SpawnSlot := { id := 20, batch := 1, launch := 1, core := 0, entry := 0x2000, k := 1, bound := (0, 0), frames := [(0, 1)], edge := 30,
                           resv := some 5, waits := none }
def aBin (id : Nat) (slots : List SpawnSlot) (launching : Bool) : Bin :=
  { id := id, core := 0, slots := slots, since := 0, launching := launching, resv := some 6, formed := none }
def binned (bins : List Bin) : State := { full with slots := [aSlot], bins := bins, time := 1000 }
theorem witness_ChildrenRunAndReport_slot : ((binned []).slots.find? fun x => x.id == 20) = some aSlot ∧
    ((binned []).slots.find? fun y => y.core == aSlot.core && y.batch == aSlot.batch) = some aSlot ∧
    ((aBin 40 [{ aSlot with id := 21, resv := none }] false).key == some aSlot.key) = true ∧ aSlot.resv = some 5 ∧
    ((List.range 32).map fun i => aBin (40 + i) [{ aSlot with id := 60 + i, entry := 64 * i }] false).length = 32 ∧
    (((List.range 32).map fun i => aBin (40 + i) [{ aSlot with id := 60 + i, entry := 64 * i }] false).all fun b => b.key != some aSlot.key) = true := by
  decide +kernel
def due : State := about (binned [aBin 40 [aSlot] false]) (.num 40)
def forming : State := about (binned [aBin 40 [aSlot] true]) (.num 40)
theorem witness_ChildrenRunAndReport_bin : ((due.bins.find? fun b => b.id == 40 && !b.launching).any fun b => b.slots.head? == some aSlot &&
      (due.launch? aSlot.launch).any fun l => decide (b.since + l.bint ≤ due.time)) = true ∧
    ((forming.bins.find? fun b => b.id == 40 && b.launching && b.formed.isNone).any fun b => (b.slots.all fun y => forming.edges.all fun e => e.id != y.edge)) = true ∧
    forming.clear 0 = true := by decide +kernel
/-- A second group of the launch, formed and not placed, or away from its slot. -/
def placing (p : Place) (bad : List Nat) : State :=
  about { full with groups := full.groups ++ full.groups.map fun g => { g with id := 9, spawned := true, place := p, bound := (2, 0), frameBad := bad,
                                                                               resv := some 0 } } (.pair 9 0)
/-- It can be placed on core 0. -/
def Places (s : State) (P : Group → Launch → Bool) : Prop :=
  s.arg = .pair 9 0 ∧ ∃ g l p, s.group? 9 = some g ∧ s.launch? g.launch = some l ∧ s.roomFor l 0 = some p ∧
    (P g l && g.wantsPlace && l.runs && (s.homesOf g).contains 0 && (s.groups.all fun o => o.id == 9 || !o.wantsPlace) && s.clear g.horizon &&
      s.framesOpen l && s.areaOpen l (s.recordPlace l g) l.recordSize) = true
theorem places {s : State} {P : Group → Launch → Bool} (h1 : s.arg = .pair 9 0)
    (h : ((s.group? 9).any fun g => (s.launch? g.launch).any fun l => (s.roomFor l 0).any fun _ =>
      P g l && g.wantsPlace && l.runs && (s.homesOf g).contains 0 && (s.groups.all fun o => o.id == 9 || !o.wantsPlace) && s.clear g.horizon &&
      s.framesOpen l && s.areaOpen l (s.recordPlace l g) l.recordSize) = true) :
    Places s P := by
  obtain ⟨g, hg, h⟩ := some_of h
  obtain ⟨l, hl, h⟩ := some_of h
  obtain ⟨p, hp, h⟩ := some_of h
  exact ⟨h1, g, l, p, hg, hl, hp, h⟩
def unmapped : State := (placing .ready []).modLaunch 1 fun l => { l with record := putWord l.record 0x4C 0x2000000 }
/-- It has a frame for its thread 0, on a marked line. -/
def framed9 : State :=
  let s := (marking (placing .formed []) (0x100000 + 64) ⟨2, false, false, false⟩).modGroup 9 fun g => { g with frames := [(0, 1)] }
  s.modLaunch 1 fun l => { l with frames := [⟨1, 1, 9, 0⟩] }
theorem witness_ChildrenRunAndReport_place : Places (placing .formed []) (fun g l => decide (g.place = .formed) && decide (g.frameBad = []) &&
      ((placing .formed []).frameMarks l g).isEmpty) ∧
    Places framed9 (fun g l => g.unissued && ((framed9.frameMarks l g).any fun m => decide (m.2.cause < 2 ^ 8)) && (g.sub? 0).isSome) ∧
    Places (placing .ready []) (fun g l => decide (g.place ≠ .formed) && !g.recordOk l (fun _ => 0) false) ∧
    Places (placing .formed [0]) (fun g _ => decide (g.frameBad ≠ []) && (g.sub? 0).isSome) ∧
    Places unmapped (fun g l => decide (g.place ≠ .formed) && (unmapped.loadBytes l (unmapped.recordPlace l g) 8 l.recordSize).isNone) :=
  ⟨places rfl (by decide +kernel), places rfl (by decide +kernel), places rfl (by decide +kernel), places rfl (by decide +kernel), places rfl (by decide +kernel)⟩
/-- A spawned group whose thread 0 has exited. -/
def exited : State := about (kin.modGroup 2 fun g => { g with live := [(0, 2)], awr := none }) (.pair 2 0)
theorem witness_ChildrenRunAndReport_complete : ((exited.group? 2).any fun g => (exited.launch? g.launch).any fun l =>
    (g.frames.find? fun k => k.1 == 0) == some (0, 1) && decide (g.place ≠ .formed) && exited.threadDone l g 0 && exited.framesOpen l) = true := by decide +kernel
def yielding : State :=
  let s := (full.modGroup 2 fun g => { g with awr := some 3 }).modLaunch 1 fun l => { l with frames := [⟨3, 12, 2, 1⟩] }
  about { (s.modSub { grp := 2, sub := 0 } fun u => { u with phase := .await 0 0 [0] }) with
    time := 1024, mem := layBytes s.mem (probeFrame + 0x100000 + 64 * 3) (leBytes 2 1) } (.num 2)
theorem witness_ChildrenRunAndReport_yield : ((yielding.group? 2).any fun g => ((yielding.launch? g.launch).any fun l => yielding.framesOpen l &&
      yielding.areaOpen l (yielding.recordPlace l g) l.recordSize && decide (0 < yielding.outstanding l g.awr 0)) && g.resident &&
    (g.subs.all fun u => match u.phase with | .await since n act => decide (since + 1024 ≤ yielding.time) && n == 0 && act == [0] | _ => false) &&
    (g.subs.any fun u => decide (u.phase ≠ .finished)) && g.ld == 0 && g.st == 0 && g.cp == 0 && g.mx == 0 && !g.spawned && g.saveFault.isNone) = true := by
  decide +kernel

/-! ### Exact accumulators -/

theorem witness_ExactAccumulators_values : Accum.clear.count ≠ BitVec.allOnes 64 ∧ ({ Accum.clear with count := BitVec.allOnes 64 }).count = BitVec.allOnes 64 ∧
    (2 ^ 1074 ∣ 3 * 2 ^ 1074) ∧ Accum.clear.iv = false ∧ Accum.clear.mag.toInt = 0 ∧ Accum.clear.count = 0 ∧
    ((Accum.clear.take (.rat false 3 1)).mag.toInt ≠ 0) ∧ ((Accum.clear.take (.inf true)).ni = true) ∧ ((Accum.clear.take (.nan false)).qn = true) ∧
    Accum.clear.mag.toInt.natAbs ≤ Accum.clear.count.toNat * 2 ^ 2098 := by decide +kernel
def xrn : Ext := ext 10 0 12
theorem witness_ExactAccumulators : MetAcc full [(ext 0 0 0, formXclr, [0], [], none), (ext 0 8 12, formXadd (ext 0 8 12), [0], [0], none),
    (ext 0 8 (src1 4 0 0 12), formXfma (ext 0 8 (src1 4 0 0 12)), [0], [0], none),
    (ext 0 0 (BitVec.ofNat 32 (3 * 2 ^ 7)), formXmrg, [0, 3], [0, 3], none), (xrn, formXrnd xrn, [0], [0], none),
    (ext 10 0 0, formXstat (ext 10 0 0), [0], [0], none), (ext 10 0 128, formXstat (ext 10 0 128), [0], [0], none)] fun c => decide (c.threads 0 ≠ []) :=
  metAcc (by decide +kernel)
def xmemx : Ext := ext 0 8 0
theorem witness_AccumulatorImagesInMemory : MetAcc full [(xmemx, formXmem xmemx, [0], [0], some 1), (xmemx, formXmem xmemx, [0], [], some 0),
    (xmemx, formAimg, [0], [0], some 1)] fun c =>
      okIs (c.accGot full.tick xmemx false true) (fun r => decide (r.1 ≠ [])) && okIs (c.accGot full.tick xmemx true false) (fun _ => true) &&
      ((c.acting 0).all fun t => decide (c.atomEa xmemx t % 4096 + 288 ≤ 4096)) := metAcc (by decide +kernel)
/-- An image that crosses a page of 4 KiB. -/
def crossing : State := full.modGroup 2 fun g => { g with vregs := g.vregs.put 8 [(0, 0x2FE0), (1, 0x2FE0)] }
theorem witness_AccumulatorImagesInMemory_crossing : MetAcc crossing [(xmemx, formAimg, [0], [0], some 1)] fun c =>
    ((c.acting 0).map fun t => ({ thread := t, va := c.atomEa xmemx t, member := t / 32 } : Want)).head?.any fun w => decide (4096 < w.va % 4096 + 288) &&
      okIs (crossing.tick.translate c (c.who true true) 288 (some (32, 7)) 0 [w]) fun _ => true := metAcc (by decide +kernel)
/-- An image that can be merged, and one whose bytes can arrive. -/
def imaging : State := let s := after full (.aimg xmemx); about s (.pair (lastOp s) 0)
def imported : State := let s := after full (.xld xmemx); about s (.part (lastOp s) none)
theorem witness_AccumulatorImagesInMemory_executor : OpMet imaging (.pair (lastOp imaging) 0) (lastOp imaging) fun o _ => match o.kind with
    | .aimg reqs => reqs.head?.any fun r => imaging.aimgReady o reqs 0 r && imaging.lineMarks.isEmpty && imaging.forward.isEmpty
    | _ => false := opMet (by decide +kernel) (by decide +kernel)
theorem witness_AccumulatorImagesInMemory_arrival : OpMet imported (.part (lastOp imported) none) (lastOp imported) fun o _ => (match o.kind with
    | .xld accs _ => accs.all imported.hasPath && (accs.all fun a => a.addrs.length == 288 && !a.widened) && decide (accs.Pairwise fun a b => a.reg ≠ b.reg)
    | _ => false) && o.taken.isEmpty && imported.l1.isEmpty && imported.writes.isEmpty && imported.staged.isEmpty && imported.guests.isEmpty :=
  opMet (by decide +kernel) (by decide +kernel)

/-! ### Matrix array and weight store -/

/-- MCFG with legal modes and with mode 3; MLDB, MLDBW, MMA from registers and from tile 4, MDRN to memory and to tile 4, WSWR, WSRD. -/
def cfgx : Rec := recf 0 0 0 0 0 0 0 0 0
def cfgBad : Rec := recf 0 0 0 0 0 3 0 0 0
def ldbx : Rec := recf 0 0x1FE 0x1B0 0 2 0x2000 0 64 0
def ldbwx : Rec := recf 0 0 0 0 2 0x2000 64 0 0
def mmax : Rec := recf 0 2 0 0 2 0 0 0 0
def mmat : Rec := recf 0 0x1E4 0 0 2 0x00020000 0 0 0
def drnx : Rec := recf 0x1FE 0 0 0 4 0x2000 0 64 0
def drnt : Rec := recf 0x1E4 0 0 0 4 0 0 64 0
def wswx : Rec := recf 0 0x1FE 0 0 0 0x2000 0 64 0
def wsrx : Rec := recf 0x1FE 0 0 0 0 0x2000 0 64 0
theorem witness_MatrixInstructionsStart : MetRec tiled [(cfgx, [], mcfgFails cfgx, fun _ => none, 4), (cfgBad, [], mcfgFails cfgBad, fun _ => none, 4),
    (ldbwx, [], mldFails ldbwx true, fun _ => none, 3), (drnx, [], mdrnFails drnx tiled, fun _ => none, 3), (drnt, [], mdrnFails drnt tiled, fun _ => none, 3),
    (wswx, [], wsFails wswx true, fun _ => none, 2), (wsrx, [], wsFails wsrx false, fun _ => none, 2)] fun c =>
      c.l.mxu && c.l.wl && !c.g.spawned && decide (copyEnd drnx.d = some .mem) && decide (copyEnd drnt.d = some (.tile 4 0)) && !c.stageFull tiled.tick 64 := metRec (by decide +kernel)
/-- With scales, whose address s2:s3 holds. -/
def ldbs : Rec := recf 0 0x1FE 258 0 (2 + 128) 0x2000 0 64 0
theorem witness_MatrixInstructionsStart_mldb : MetRec tiled [(ldbx, [], mldFails ldbx false, fun _ => none, 3), (ldbs, [ldbs.b], mldFails ldbs false, fun _ => none, 3)]
    (fun c => c.l.mxu && !c.g.spawned) true := metRec (by decide +kernel)
theorem witness_MatrixInstructionsStart_mma : MetRec tiled [(mmax, [], mmaFails mmax, fun c => c.mmaMark mmax, 3), (mmat, [], mmaFails mmat, fun c => c.mmaMark mmat, 3)]
    (fun c => c.l.mxu && !c.g.spawned && decide (copyEnd mmax.a = some (.reg 2)) && decide (copyEnd mmat.a = some (.tile 4 0))) false (fun c x => c.mmaUses x) :=
  metRec (by decide +kernel)
def mzx : Ext := ext 0 0 0xF
def stax : Ext := ext 10 0 4
def wsq (op : Nat) : Ext := ext 10 8 (BitVec.ofNat 32 op)
theorem witness_MatrixInstructionsStart_others : MetMem full [(mzx, formMzero mzx, [], noChecks), (stax, formMstat stax, [], noChecks),
    (ext 10 0 0, formWsqry (ext 10 0 0), [], noChecks), (wsq 1, formWsqry (wsq 1), [], noChecks)] fun c => decide (c.g.mx < 63) := metMem (by decide +kernel)
/-- Without MXU. -/
def unmatrixed : State := full.modLaunch 1 fun l => { l with record := putWord l.record 0x0C 1 }
theorem witness_MatrixInstructionsStart_owner : MetRec unmatrixed [(cfgx, [], mcfgFails cfgx, fun _ => none, 4)] fun c => !c.l.mxu :=
  metRec (by decide +kernel)

theorem witness_MatrixArithmetic : 0 < 8 ∧ (alignBlock 8 [.rat false 3 2, .rat true 1 4]).inexact = false ∧
    (alignBlock 8 [.nan false]).special = true ∧ MxArray.empty.mode 0 ≠ 2 ∧ (MxArray.empty.config 2).mode 0 = 2 ∧
    (alignBlock 8 [.rat false 3 2, .rat false 1 512]).inexact = true := by decide +kernel
/-- Loads of each form, blocks of each tile mode, and a product with its columns. -/
theorem witness_MatrixArithmetic_array : (.i8 ∈ mxTypeB ∧ .t2 ∈ mxTypeB ∧ .f16 ∈ mxTypeB ∧ mxFloatKind .i8 = false ∧ mxFloatKind .t2 = false ∧ mxFloatKind .f16 = true) ∧
    (({ MxArray.empty with form := 1 } : MxArray).columns 0 0).isSome = true ∧ (({ MxArray.empty with form := 2 } : MxArray).columns 0 1).isSome = true ∧
    (({ MxArray.empty with form := 3 } : MxArray).columns 0 2).isSome = true ∧ (MxArray.empty.config 5).mode 0 = 1 ∧ (MxArray.empty.config 5).mode 1 = 1 ∧
    (unpack (fmtOf .f32) ((MxArray.empty.config 2).cell 0 0 0).toNat).isNan = false ∧
    (∀ m ∈ [0, 1], 2 + m * 31 + 31 ≤ 64) ∧ (logMx 0 7 []) = 0 ∧ (0 : Nat) < 2 ^ 6 := by decide +kernel

/-- A matrix operation in a stage of its way. -/
def matrix (i : Instr) (stage : Nat) (f : MxWork → MxWork) : State :=
  let s := after full i
  let s := { s with edges := [], ops := s.ops.map fun o => { o with kind := match o.kind with
    | .matrix w => .matrix (f { w with stage := stage })
    | k => k } }
  about s (.num (lastOp s))
/-- It stands, with its group, launch and block. -/
def MxMet (s : State) (P : Op → MxWork → Launch → MxArray → Bool) : Prop :=
  OpMet s (.num (lastOp s)) (lastOp s) fun o g => match o.kind with
    | .matrix w => s.edgeClear o.edge && (s.block? g.launch g.block).isSome && (s.launch? g.launch).any fun l => P o w l (s.array g.launch g.block o.core)
    | _ => false
/-- Rows of 64 bytes in memory. -/
def rows64 : List (List Nat) := [(List.range 64).map fun i => probeFrame + 0x2000 + i]
/-- Translation of the memory side, for the members' first. -/
def sideOk (s : State) (o : Op) (w : MxWork) (l : Launch) : Bool :=
  match w.what.side with
  | some (rows, scales, rd) => okIs (s.tick.mxRows { core := some o.core, asid := o.asid, priv := l.priv, rd := rd, wr := !rd } 0 (rows ++ scales))
      fun r => !rd || (s.poisonedIn r.1).isNone
  | none => false
theorem witness_MatrixOperationsTakeEffect_start : MxMet (matrix (.mzero mzx) 0 id) (fun o w _ _ => w.what.inOrder && w.what.side.isNone &&
      (matrix (.mzero mzx) 0 id).ops.all fun p => decide (p.id < o.id → p.pendingMx = none)) ∧
    MxMet (matrix (.mdrn drnx) 0 id) (fun o w l _ => w.what.inOrder && decide (w.members = [0]) && sideOk (matrix (.mdrn drnx) 0 id) o w l) ∧
    MxMet (matrix (.wswr wswx) 0 id) (fun o w l _ => !w.what.inOrder && decide (w.members = [0]) && sideOk (matrix (.wswr wswx) 0 id) o w l) :=
  ⟨opMet (by decide +kernel) (by decide +kernel), opMet (by decide +kernel) (by decide +kernel), opMet (by decide +kernel) (by decide +kernel)⟩
theorem witness_MatrixOperationsTakeEffect_refresh : (∃ s : State, s.refresh ≠ s.bankAt s.time) ∧ full.bankAt 0 = some 0 ∧ full.bankAt 3500 = none := by
  exact ⟨⟨{ full with refresh := some 5 }, by decide +kernel⟩, by decide +kernel, by decide +kernel⟩
/-- Line accesses outside the refresh of their bank. -/
theorem witness_MatrixOperationsTakeEffect_lines :
    MxMet { matrix (.wswr wswx) 1 (fun w => { w with rows := rows64 }) with time := 3500 } (fun _ w _ _ => decide (w.members ≠ []) &&
      w.what.tarnLines[w.lines.length]?.isSome && w.busy == 0 && decide ((matrix (.wswr wswx) 1 id).bankAt 3500 = none) && decide (w.rows[0]? = rows64[0]?) &&
      rows64.flatten.all fun pa => pa / 64 == (rows64.headD []).headD 0 / 64 && ((matrix (.wswr wswx) 1 id).markOf ((matrix (.wswr wswx) 1 id).fwd (pa / 64))).poison == 0) ∧
    MxMet { matrix (.wsrd wsrx) 1 id with time := 3500 } (fun _ w _ _ => decide (w.members ≠ []) && w.what.tarnLines[w.lines.length]?.isSome &&
      match w.what with | .wsRead _ _ _ => true | _ => false) :=
  ⟨opMet (by decide +kernel) (by decide +kernel), opMet (by decide +kernel) (by decide +kernel)⟩
/-- Its lines are read and there is a path to its rows. -/
def finishing (s : State) (w : MxWork) : Bool :=
  decide (w.stage = 1) && w.busy == 0 && decide (w.lines.length = w.what.tarnLines.length) && (w.rows.flatten ++ w.saddrs).all fun pa => s.pathTo (pa / 64)
def whatIs (w : MxWork) (P : MxWhat → Bool) : Bool := P w.what && decide (w.members ≠ [])
theorem witness_MatrixOperationsTakeEffect_ends :
    MxMet (matrix (.mzero mzx) 1 id) (fun _ w _ _ => finishing full w && whatIs w fun k => match k with | .zero m => m == 15 | _ => false) ∧
    MxMet (matrix (.mzero mzx) 1 fun w => { w with members := [] }) (fun _ w _ _ => decide (w.members = [])) ∧
    MxMet (matrix (.mldb ldbx) 1 fun w => { w with rows := rows64 }) (fun _ w _ _ => finishing full w && whatIs w fun k => match k with
      | .load tarn _ _ _ _ _ _ _ _ => !tarn
      | _ => false) ∧
    MxMet (matrix (.mma mmax) 1 id) (fun _ w _ _ => finishing full w && whatIs w fun k => match k with
      | .mma _ _ _ _ _ src _ _ _ _ _ _ _ _ _ _ => src.isNone
      | _ => false) ∧
    MxMet (matrix (.mdrn drnx) 1 fun w => { w with rows := [(List.range 4).map fun i => probeFrame + 0x2000 + i] }) (fun _ w _ _ => finishing full w &&
      decide (w.rows.flatten.Nodup) && whatIs w fun k => match k with
        | .drain td _ _ _ _ _ tile _ _ _ nr _ nc => tile.isNone && nr == 1 && nc == 1 && td.width == 32
        | _ => false) ∧
    MxMet (matrix (.wswr wswx) 1 fun w => { w with rows := rows64, lines := [(1, zeros 64, false)] }) (fun _ w _ _ => finishing full w &&
      whatIs w fun k => match k with | .wsWrite _ _ _ => true | _ => false) :=
  ⟨opMet (by decide +kernel) (by decide +kernel), opMet (by decide +kernel) (by decide +kernel), opMet (by decide +kernel) (by decide +kernel),
    opMet (by decide +kernel) (by decide +kernel), opMet (by decide +kernel) (by decide +kernel), opMet (by decide +kernel) (by decide +kernel)⟩
/-- MCFG and MSTAT hold their sub-group. -/
theorem witness_MatrixOperationsTakeEffect_held :
    MxMet (matrix (.mcfg cfgx) 1 id) (fun o w _ _ => finishing full w && ((matrix (.mcfg cfgx) 1 id).heldBy o.id == some { grp := 2, sub := 0 }) &&
      match w.what with | .cfg m => m == 0 | _ => false) ∧
    MxMet (matrix (.mstat (ext 266 0 4)) 1 id) (fun o w _ _ => finishing full w &&
      ((matrix (.mstat (ext 266 0 4)) 1 id).heldBy o.id == some { grp := 2, sub := 0 }) &&
      match w.what with | .stat sel _ d _ => decide (sel ≤ 5) && operandOf d == .ureg 10 | _ => false) :=
  ⟨opMet (by decide +kernel) (by decide +kernel), opMet (by decide +kernel) (by decide +kernel)⟩
/-- Tile 4 is ready. -/
def readable : State := { tiled with blocks := tiled.blocks.map fun (b : Block) => { b with tiles := b.tiles.map fun k => (k.1, { k.2 with state := 2 }) } }
/-- An MLDBW whose lines have been read, an MMA from tile 4, an MDRN to it, a WSRD, an MSTAT to v10. -/
theorem witness_MatrixOperationsTakeEffect_others :
    MxMet (matrix (.mldbw ldbwx) 1 fun w => { w with lines := w.what.tarnLines.map fun n => (n, zeros 64, false) }) (fun _ w _ _ => finishing full w && whatIs w fun k => match k with
      | .load tarn ty wb bs base str _ kb kn => tarn && mxTypeB.contains ty && kb == 0 && kn == 1 && !bs &&
          w.lines.all fun n => decide (base / 64 ≤ n.1) && decide (n.1 ≤ (base + 31 * str + panelColumns (panelForm ty wb) * ty.width / 8) / 64)
      | _ => false) ∧
    MxMet (let s := after readable (.mma mmat); about { s with edges := [], ops := s.ops.map fun o => { o with kind := match o.kind with
        | .matrix w => .matrix { w with stage := 1 } | k => k } } (.num (lastOp s))) (fun _ w _ _ => finishing full w && whatIs w fun k => match k with
      | .mma _ _ _ _ _ src _ _ _ _ _ _ _ _ _ _ => src == some 4 | _ => false) ∧
    MxMet (let s := after tiled (.mdrn drnt); about { s with edges := [], ops := s.ops.map fun o => { o with kind := match o.kind with
        | .matrix w => .matrix { w with stage := 1 } | k => k } } (.num (lastOp s))) (fun _ w _ _ => finishing full w && whatIs w fun k => match k with
      | .drain td _ _ _ _ _ tile _ _ _ nr _ nc => tile == some 4 && nr == 1 && nc == 1 && td.width % 8 == 0 | _ => false) ∧
    MxMet (matrix (.wsrd wsrx) 1 fun w => { w with rows := rows64, lines := [(1, zeros 64, true)] }) (fun _ w _ _ => finishing full w &&
      whatIs w fun k => match k with | .wsRead _ _ _ => decide (w.rows.length = w.lines.length) | _ => false) ∧
    MxMet (matrix (.mstat (ext 10 0 5)) 1 id) (fun o w _ _ => finishing full w && ((matrix (.mstat (ext 10 0 5)) 1 id).heldBy o.id == some { grp := 2, sub := 0 }) &&
      match w.what with | .stat sel _ d _ => sel == 5 && operandOf d == .vreg 10 && w.active.all fun th => decide (th < 32) | _ => false) :=
  ⟨opMet (by decide +kernel) (by decide +kernel), opMet (by decide +kernel) (by decide +kernel), opMet (by decide +kernel) (by decide +kernel),
    opMet (by decide +kernel) (by decide +kernel), opMet (by decide +kernel) (by decide +kernel)⟩
theorem witness_MatrixOperationsTakeEffect_panel : MxMet (matrix (.mma mmax) 1 id) (fun _ w _ a => match w.what with
      | .mma ty mt nh _ bsa _ _ _ _ _ _ _ _ _ _ _ => decide (a.mmaFails ty mt nh bsa = []) || decide (a.mmaFails ty mt nh bsa ≠ [])
      | _ => false) := opMet (by decide +kernel) (by decide +kernel)

/-! ### Regrouping -/

theorem witness_RegroupingOfThreads_issue : MetMem full [(ext 0 0 0, formRjoin, [], joinPlaced), (ext 10 0 0, formRepack, [], joinPlaced)]
    (fun c => c.u.cfrm.isNone && !c.u.passed && decide (c.g.subs.length ≤ 1)) := metMem (by decide +kernel)
/-- Two sub-groups at an RJOIN. -/
def joining (p q : Phase) (frame : Option Nat) : State :=
  about (full.modGroup 2 fun g => { g with m := 2, live := [(0, 3), (1, 3)], subs := g.subs.flatMap fun u =>
    [{ u with members := 1, phase := p }, { u with num := 1, members := 2, mmk := 2, phase := q, cfrm := frame }] }) (.num 2)
/-- The sub-groups stand in these phases. -/
def Joins (s : State) (P : Group → Bool) : Prop := s.arg = .num 2 ∧ ∃ g, s.group? 2 = some g ∧ (g.resident &&
  decide (g.subs.Pairwise fun u v => u.lowest ≠ v.lowest ∧ u.num ≠ v.num) && P g) = true
theorem joins {s : State} {P : Group → Bool} (h1 : s.arg = .num 2) (h : ((s.group? 2).any fun g => g.resident &&
    decide (g.subs.Pairwise fun u v => u.lowest ≠ v.lowest ∧ u.num ≠ v.num) && P g) = true) : Joins s P :=
  ⟨h1, some_of h⟩
theorem witness_RegroupingOfThreads_join : Joins (joining .heldJoin .heldJoin none) (fun g => (g.subs.all fun u => decide (u.phase = .heldJoin) &&
      u.observing.isNone && u.cfrm.isNone && g.subLive u && decide (u.pc = 4096)) && decide (g.subs.length = 2)) ∧
    Joins (joining .heldJoin .heldJoin (some 3)) (fun g => g.subs.any fun u => g.subs.any fun v => decide (u.cfrm ≠ v.cfrm)) ∧
    Joins (joining .heldJoin (.bar 0) none) (fun g => (g.subs.any fun u => decide (u.phase = .heldJoin)) && g.subs.any fun u => decide (u.phase = .bar 0)) :=
  ⟨joins rfl (by decide +kernel), joins rfl (by decide +kernel), joins rfl (by decide +kernel)⟩
/-- Two sub-groups at a REPACK, one of them at another address; one at a BAR of the block beside it. -/
def repackApart : State := (joining (.heldRepack none) (.heldRepack none) none).modSub { grp := 2, sub := 1 } fun u => { u with pc := 8192 }
def blockBar : State := (joining (.heldRepack none) (.bar 1) none).modLaunch 1 fun l =>
  { l with record := [(0x30, 2 + 16 + 240 * 2 ^ 8 + 160 * 2 ^ 16 + 4 * 2 ^ 24), (0x14, 2 ^ 24)].foldl putPair l.record }
theorem witness_RegroupingOfThreads_apart : Joins repackApart (fun g => g.subs.all (fun u => decide (u.phase = .heldRepack none) && g.subLive u) &&
      (g.subs.map fun u => u.pc.toNat) == [4096, 8192] && ((repackApart.repackers g).map fun o => o.id) == [2]) ∧
    Joins blockBar (fun g => g.subs.all (fun u => g.subLive u) && (blockBar.launch? g.launch).any (fun l => l.domain 1 == some 1) &&
      (g.subs.any fun u => u.phase == .bar 1) && (g.subs.any fun u => u.phase == .heldRepack none) && ((blockBar.repackers g).map fun o => o.id) == [2]) :=
  ⟨joins rfl (by decide +kernel), joins rfl (by decide +kernel)⟩
def repacking : State := about (full.modSub { grp := 2, sub := 0 } fun u => { u with phase := .heldRepack none }) (.num 2)
theorem witness_RegroupingOfThreads_repack : Joins repacking (fun g => (repacking.launch? g.launch).isSome && ((repacking.repackers g).map fun o => o.id) == [2] &&
    (repacking.repackers g).all fun o => o.resident && o.ld == 0 && o.st == 0 && o.cp == 0 && o.mx == 0 && o.stale.isEmpty &&
      (o.subs.all fun u => decide (u.phase = .heldRepack none) && o.subLive u && decide (u.pc = 4096)) && repacking.quietFor [o.id]) :=
  joins rfl (by decide +kernel)

/-! ### Collectives -/

def msx (sub : Nat) : Ext := ext 10 8 (BitVec.ofNat 32 (12 + sub))
theorem witness_MemberCollectives_sums : MetAcc full [(msx 0, formMsumx (msx 0), [], [], some 4),
    (ext 0 0 (BitVec.ofNat 32 (32 + 256)), formMsumx (ext 0 0 (BitVec.ofNat 32 (32 + 256))), [0, 1], [0, 1], some 4)] fun _ => true :=
  metAcc (by decide +kernel)
def mqx (q : Nat) : Ext := ext 10 2 (src1 4 0 q 12)
def mrx (ty : Nat) : Ext := ext 10 2 (src1 4 0 0 ty)
def mhx (nb : Nat) : Ext := ext 0 8 (src1 0 nb 0 0)
theorem witness_MemberCollectives : MetMem full [(msx 0, formMmean (msx 0), [], noChecks), (msx 0, formMsprd (msx 0), [], noChecks),
    (msx 32, formMsprd (msx 32), [], noChecks)] fun c => !((c.threads 0).map (c.fin (msx 0) .A)).any Ex.isNan := metMem (by decide +kernel)
theorem witness_MemberCollectives_first : MetMem full [(mqx 0, formMqnt (mqx 0), [], noChecks), (mqx 1, formMqnt (mqx 1), [], noChecks),
    (mrx 4, formMrank (mrx 4), [], noChecks), (mrx 12, formMrank (mrx 12), [], noChecks), (mhx 260, formMhist, [], noChecks),
    (mhx 0x1B0, formMhist, [], noChecks)] (fun c =>
      decide ((c.plain (mhx 260) .C false .int 0).toNat = 0x3000) && decide ((c.plain (mhx 0x1B0) .C false .int 0).toNat = 0) &&
      [(mqx 0, formMqnt (mqx 0)), (mrx 4, formMrank (mrx 4)), (mrx 12, formMrank (mrx 12))].all fun q =>
        (c.markFault (formUses q.1 { q.2 with srcs := q.2.srcs.take 1 }) (c.threads q.1.p) false).isNone) (fun c x => c.firstMembers x.p) := metMem (by decide +kernel)
/-- CCOLL of F32 sums over level 0, from and to v10; its participants matched, and then complete. -/
def colx : Rec := recf 10 10 0x1B0 0x1B0 (12 * 32 + 12) 0x00100001 31 0 0
def colBad : Rec := recf 10 10 0x1B0 0x1B0 (12 * 32 + 12) 0x00100005 31 0 0
theorem witness_CollectivesAcrossGroups_issue : MetRec full [(colx, [], ccollFails colx, fun c => c.ccollMark colx, 2),
    (colBad, [], ccollFails colBad, fun c => c.ccollMark colBad, 2)] (fun c =>
      decide (ccollSrc c colx = some (.reg 10)) && decide (ccollDst c colx = some (.reg 10)) && !c.uniHeld (ccollPairs colx) && !c.accHeld [] &&
      decide (c.l.domain (recField (c.recWord colx 0) 4 2) = some 0) && decide (c.l.domain (recField (c.recWord colBad 0) 4 2) = none) &&
      decide (ccollBad colx c (.reg 10) (.reg 10) = []) && !c.stageFull full.tick 0) false (fun c x => c.ccollUses x) := metRec (by decide +kernel)
/-- From memory to memory, and one whose source no page maps; of accumulators. -/
def colMem (b : Nat) : Rec := recf 0x1FE 0x1FE b 260 (12 * 32 + 12) 0x00100001 0 0 0
theorem witness_CollectivesAcrossGroups_memory : MetRec full [(colMem 258, [], ccollFails (colMem 258), fun c => c.ccollMark (colMem 258), 2),
    (colMem 264, [], ccollFails (colMem 264), fun c => c.ccollMark (colMem 264), 2)] (fun c =>
      decide (ccollSrc c (colMem 258) = some .mem) && decide (ccollDst c (colMem 258) = some .mem) && !c.uniHeld (ccollPairs (colMem 258)) &&
      decide (ccollBad (colMem 258) c .mem .mem = []) &&
      okIs (full.tick.translate c (c.who true false) 4 none 0 [{ thread := 0, va := 0x2000, member := 0 }]) (fun _ => true) &&
      errIs (full.tick.translate c (c.who true false) 4 none 0 [{ thread := 0, va := lo (c.ownVal 264 true .int none 0).toNat 64, member := 0 }]) fun _ => true) false
    (fun c x => c.ccollUses x) := metRec (by decide +kernel)
/-- Every mode gives a result, and a parameter outside the unit interval does too. -/
theorem witness_CollectivesAcrossGroups_modes : ([[1], [2]] : List (List Nat)) ≠ [] ∧ (unpack (fmtOf .f32) 0x3F000000).isNan = false ∧
    (unpack (fmtOf .f32) 0x7FC00000).isNan = true ∧ (unpack (fmtOf .f32) 0x40000000).isInf = false := by decide +kernel
def collecting : State := let s := after full (.ccoll colx); about s (.num (lastOp s))
def collected : State :=
  let s := { collecting with ops := collecting.ops.map fun o => { o with kind := match o.kind with | .ccoll w => .ccoll { w with result := some [5] } | k => k } }
  about s (.part (lastOp s) none)
/-- A block of two groups, of which one has not come to the collective. -/
def paired : State := State.modLaunch { full with groups := full.groups ++ full.groups.map fun g => { g with id := 7, index := 1 } } 1 fun l => { l with record := putWord (putWord l.record 0x30 (2 + 16 + 240 * 2 ^ 8 + 160 * 2 ^ 16 + 4 * 2 ^ 24)) 0x14 (1 + 2 ^ 24) }
def lonely : State := after paired (.ccoll (recf 10 10 0x1B0 0x1B0 (12 * 32 + 12) 0x00100005 31 0 0))
def cancelled : State := about (lonely.modLaunch 1 fun l => { l with phase := .ending 3 }) (.part (lastOp lonely) none)
theorem witness_CollectivesAcrossGroups_match : OpMet collecting (.num (lastOp collecting)) (lastOp collecting) fun o g => match o.kind with
    | .ccoll w => (collecting.launch? g.launch).any fun l => (collecting.ccollSet l g w).any fun set => decide (set.map (fun k => k.o.id) = [o.id]) &&
        w.team.isNone && (set.all fun k => collecting.edgeClear k.o.edge && k.w.srcs.flatten.isEmpty && k.w.mode == 1 && k.w.members.length == 1)
    | _ => false := opMet (by decide +kernel) (by decide +kernel)
/-- A team of two chips, of which the other, chip 7, is joined by a link or by none. -/
def teamed : State :=
  let s := collecting.modLaunch 1 fun l => { l with teams := leBytes 2 2 ++ leBytes 2 0 ++ zeros 60 ++ leBytes 2 3 ++ leBytes 2 7 ++ zeros 60 }
  { s with ops := s.ops.map fun o => { o with kind := match o.kind with | .ccoll w => .ccoll { w with team := some 0 } | k => k } }
def joint : State := { teamed with ports := { width := 3, next := none, since := 0, chip := 7, replays := 0, reductions := 0 } :: List.replicate 15 Port.down }
theorem witness_CollectivesAcrossGroups_team : OpMet (about teamed (.pair (lastOp collecting) 0)) (.pair (lastOp collecting) 0) (lastOp collecting) (fun o g => match o.kind with
      | .ccoll w => (teamed.launch? g.launch).any fun l => l.teamChips w == [(1, 7)] && !teamed.reachable 7 && (teamed.ccollSet l g w).isSome
      | _ => false) ∧
    OpMet (about joint (.team (lastOp collecting) [⟨1, true, [[5]], []⟩])) (.team (lastOp collecting) [⟨1, true, [[5]], []⟩]) (lastOp collecting) (fun o g => match o.kind with
      | .ccoll w => (joint.launch? g.launch).any fun l => l.teamChips w == [(1, 7)] && joint.carries 7 && (joint.ccollSet l g w).isSome
      | _ => false) := ⟨opMet rfl (by decide +kernel), opMet rfl (by decide +kernel)⟩
/-- Its destination in memory, and in an accumulator. -/
def delivering (dst : CcollEnd) (dsts : List (List Nat)) : State :=
  { collected with ops := collected.ops.map fun o => { o with kind := match o.kind with | .ccoll w => .ccoll { w with dst := dst, dsts := dsts } | k => k } }
theorem witness_CollectivesAcrossGroups_deliver : (∀ k ∈ [(CcollEnd.mem, [(List.range 4).map fun i => probeFrame + i]), (.mem, [[]]), (.acc 1, [[]])],
    ((delivering k.1 k.2).op? (lastOp collecting)).any (fun o => match o.kind with
      | .ccoll w => w.dst == k.1 && w.dsts == k.2 && w.result == some [5] && o.left == 0 && w.td.width == 32 && w.mode == 1
      | _ => false) = true) := by decide +kernel
theorem witness_CollectivesAcrossGroups_complete : OpMet collected (.part (lastOp collected) none) (lastOp collected) (fun o _ => match o.kind with
      | .ccoll w => w.result == some [5] && o.left == 0 && w.dst == .reg 10 && !w.td.wide && o.given.isEmpty
      | _ => false) ∧
    OpMet cancelled (.part (lastOp lonely) none) (lastOp lonely) (fun o g => match o.kind with
      | .ccoll w => w.result.isNone && (cancelled.launch? g.launch).any fun l => decide (l.phase ≠ .active) && (cancelled.ccollSet l g w).isNone
      | _ => false) :=
  ⟨opMet (by decide +kernel) (by decide +kernel), opMet (by decide +kernel) (by decide +kernel)⟩

/-! ### Remote operations and links -/

/-- The page at 2^36 is one of chip 7, and the pair s12:s13 points to it; the pages of `full` otherwise. -/
def joined : State :=
  let s := full.modSub { grp := 2, sub := 0 } fun u => { u with uregs := u.uregs ++ [(13, 16)] }
  { s with mem := layBytes s.mem (probeNext + 16) (leBytes 8 0x0F ++ leBytes 8 (3 + 3 * 4 + 7 * 2 ^ 16)) }
/-- The page of v8's addresses is of chip 7. -/
def afar : State := { full with mem := layBytes full.mem probeNext (leBytes 8 0x0F ++ leBytes 8 (3 + 3 * 4 + 7 * 2 ^ 16)) }
/-- RCOPY of eight bytes from s2:s3 to s12:s13; of six; with a reserved bit; of more than 2^32 bytes, by no thread. -/
def rcpx (p : BitVec 4) (r0 r1 : Word) : Rec := { recf 0x1FE 0x1FE 268 258 0 r0 r1 0 0 with p := p }
def rcopies : List Rec := [rcpx 0 7 0, rcpx 0 5 0, rcpx 0 0x1000007 0, rcpx 1 0xFFFFFF 0xFFFF]
theorem witness_RemoteOperationsIssue_copies : MetRec joined (rcopies.map fun x => (x, [], rcopyFails x, fun c =>
      c.markFault [{ code := x.b, mod := 0, regs := 2 }, { code := x.c, mod := 0, regs := 2 }] (c.threads x.p) true, 2)) fun c =>
    (rcopies.all fun x => !c.uniHeld [{ code := x.b, mod := 0, regs := 2 }, { code := x.c, mod := 0, regs := 2 }]) &&
    !(c.transfers 0 (recPm (rcpx 0 7 0))).isEmpty && (c.transfers 1 (recPm (rcpx 1 0 0))).isEmpty &&
    ((c.transfers 0 (recPm (rcpx 0 7 0))).all fun m => [0, 4].all fun i =>
      okIs (joined.tick.reach { c.who true false with peer := 2 } (0x2000 + i) m).1 (fun _ => true) &&
      okIs (joined.tick.reach { c.who false true with peer := 1 } (2 ^ 36 + i) m).1 fun r => r.chip == 7) := metRec (by decide +kernel)
def rsgx : Ext := ext 0 8 (src1 4 0 0 0)
def ratx : Ext := ext 10 8 (src1 4 0 0 4)
def peerList : List (Ext × Form × (Cx → List Nat) × Nat) := [(rsgx, formRsignal rsgx, noChecks, 2), (ratx, formRatom ratx, noChecks, 2)]
theorem witness_RemoteOperationsIssue_units :
    MetM afar peerList (fun c => !(c.threads 0).isEmpty && (c.threads 0).all fun t => decide (c.atomEa rsgx t % 4 = 0) && decide (c.atomEa ratx t % 4 = 0) &&
      okIs (afar.tick.reach { c.who true true with peer := 1 } (c.atomEa ratx t) 0).1 fun r => r.chip == 7) ∧
    MetM full peerList (fun c => (c.threads 0).any fun t =>
      errIs (full.tick.reach { c.who true true with peer := 1 } (c.atomEa ratx t) 0).1 fun e => e.2.2 == 10) ∧
    MetM (afar.modGroup 2 fun g => { g with vregs := g.vregs.put 8 [(0, 0x2001), (1, 0x2001)] }) peerList (fun c => decide (c.atomEa rsgx 0 % 4 ≠ 0)) :=
  ⟨metM (by decide +kernel), metM (by decide +kernel), metM (by decide +kernel)⟩
/-- LNKQ: the first and the last query take no source. -/
def lnkx (sel : Nat) : Ext := ext 10 (if sel = 1 ∨ sel = 2 then 8 else 0) (BitVec.ofNat 32 sel)
theorem witness_RemoteOperationsIssue_query : MetMem full ([0, 1, 2, 3].map fun n => (lnkx n, formLnkq (lnkx n), [], noChecks)) fun c =>
    full.ports[(c.plain (lnkx 1) .A false .int 0).toNat % 16]?.isSome := metMem (by decide +kernel)

/-- One link to chip 7, one host link; RATOM on its way; 10 ms later. -/
def linked (s : State) : State := { s with
  ports := { width := 3, next := none, since := 0, chip := 7, replays := 0, reductions := 0 } :: List.replicate 15 Port.down
  hosts := [{ width := 3, next := none, since := 0, chip := 0xFFF, replays := 0, reductions := 0 }, Port.down] }
def asking : State := linked (after afar (.ratom ratx))
def answer : PeerAnswer := ⟨0, 5, 0, 0, 0, 0⟩
/-- Its first part, and then its second, is answered. -/
def answers (i : Nat) (s : State) : State := about s (.answer (lastOp asking) i answer)
def unreached : State := about { after afar (.ratom ratx) with time := 20000000 } (.num (lastOp asking))
/-- The remote operation that stands. -/
def Remote (s : State) (a : EventArg) (P : RemoteWork → List RemotePart → Launch → Bool) : Prop :=
  OpMet s a (lastOp asking) fun o g => (s.launch? g.launch).any fun l => o.given.isEmpty && match o.kind with
    | .remote w => P w w.parts l
    | _ => false
theorem witness_LinksCarryOperations_answers :
    Remote (answers 0 asking) (.answer (lastOp asking) 0 answer) (fun w ps _ => ps.length == 2 && ((asking.op? (lastOp asking)).all fun o => !asking.remoteLater o w) && (ps.all fun p => p.answer.isNone && asking.carries p.chip) &&
      decide (ps.Pairwise fun a b => a.thread ≠ b.thread)) ∧
    Remote (answers 1 (after (answers 0 asking) .remoteAcknowledgement)) (.answer (lastOp asking) 1 answer) (fun w ps _ => w.reg == some 10 && w.width == 4 &&
      ps.length == 2 && (ps[0]?.any fun p => p.answer == some answer) && ps[1]?.any fun p => p.answer.isNone && asking.carries p.chip) :=
  ⟨opMet (by decide +kernel) (by decide +kernel), opMet (by decide +kernel) (by decide +kernel)⟩
/-- A copy of eight bytes at 0x2000 to chip 7 that may be read; its line poisoned, or failing. -/
def copied : State := { after joined (.rcopy (rcpx 0 7 0)) with edges := [] }
def copyMet (s : State) (P : RemoteWork → Bool) : Prop :=
  OpMet (about s (.part (lastOp s) none)) (.part (lastOp s) none) (lastOp s) fun o g => (s.launch? g.launch).isSome && o.taken.isEmpty &&
    s.edgeClear o.edge && s.writes.isEmpty && s.staged.isEmpty && s.guests.isEmpty && match o.kind with
      | .remote w => decide (w.width = 0) && w.parts.isEmpty && w.reg.isNone && !s.remoteLater o w && decide (8 ≤ w.moves.length) &&
          (w.moves.all fun k => s.pathTo (k.1 / 64)) && P w
      | _ => false
def withheld (s : State) (pa : Nat) : Bool := (s.markOf (s.fwd (pa / 64))).poison == 0 && (s.markOf (s.fwd (pa / 64))).failing
theorem witness_LinksCarryOperations_copies :
    copyMet copied (fun w => w.moves.all fun k => (copied.markOf (copied.fwd (k.1 / 64))).poison == 0 && !withheld copied k.1) ∧
    copyMet (marking copied 0x2000 ⟨2, false, false, false⟩) (fun w => w.moves.all fun k =>
      (((marking copied 0x2000 ⟨2, false, false, false⟩).markOf ((marking copied 0x2000 ⟨2, false, false, false⟩).fwd (k.1 / 64))).poison != 0)) ∧
    copyMet (marking copied 0x2000 ⟨0, true, false, false⟩) (fun w => w.moves.all fun k => withheld (marking copied 0x2000 ⟨0, true, false, false⟩) k.1) :=
  ⟨opMet rfl (by decide +kernel), opMet rfl (by decide +kernel), opMet rfl (by decide +kernel)⟩
/-- A second copy waits for the first, whose data go to the same units. -/
def queuedCopies : State := after { copied with tlb := [] } (.rcopy (rcpx 0 7 0))
theorem witness_LinksCarryOperations_order : ((queuedCopies.op? (lastOp queuedCopies)).any fun o => match o.kind with
      | .remote w => queuedCopies.remoteLater o w
      | _ => false) = true ∧ ((copied.op? (lastOp copied)).any fun o => match o.kind with
      | .remote w => !copied.remoteLater o w
      | _ => false) = true := by decide +kernel
/-- A second chip that can still be reached has a part of it. -/
def halfReached : State :=
  let s := linked unreached
  { s with ops := s.ops.map fun o => { o with kind := match o.kind with
    | .remote w => .remote { w with parts := w.parts.zipIdx.map fun k => if k.2 = 0 then { k.1 with chip := 8 } else k.1 }
    | k => k } }
theorem witness_LinksCarryOperations_timeout :
    Remote unreached (.num (lastOp asking)) (fun w _ _ => w.issued + 17500000 ≤ unreached.time && !w.open'.isEmpty && (w.open'.all fun k => !unreached.reachable k) &&
      unreached.ports.all fun p => decide (p.since + 17500000 ≤ unreached.time)) ∧
    Remote halfReached (.num (lastOp asking)) (fun w ps _ => w.issued + 17500000 ≤ halfReached.time && (w.open'.any fun k => !halfReached.reachable k) &&
      (w.open'.any halfReached.reachable) && ps.length == 2 &&
      halfReached.ports.all fun p => decide (p.since + 17500000 ≤ halfReached.time)) :=
  ⟨opMet (by decide +kernel) (by decide +kernel), opMet (by decide +kernel) (by decide +kernel)⟩
/-- Operations of chip 7, with a window that admits them. -/
def open7 : State := { linked bare with windows := [{ chip := 7, base := probeFrame, len := 65536, w := true, t := true }] }
def peerAsks : List PeerAsk := [.write [(probeFrame, 1), (probeFrame + 1, 2)] [], .signal probeFrame 4 true 5, .signal probeFrame 8 false 5,
  .atom probeFrame 4 0 4 0 false false 5]
theorem witness_LinksCarryOperations_peers : open7.carries 7 = true ∧ (∀ a ∈ peerAsks, ∃ k ∈ open7.windows, k.admits ⟨7, 1, a⟩ = true ∧
      ∀ b ∈ peerTouches a, (open7.home b.1).isSome = true ∧ (open7.home (b.1 + b.2 - 1)).isSome = true) ∧
    open7.place probeFrame ≠ open7.place (probeFrame + 1) ∧ probeFrame % 8 = 0 ∧
    (open7.markOf (open7.fwd (probeFrame / 64))).poison = 0 ∧ (open7.markOf (open7.fwd (probeFrame / 64))).failing = false ∧
    (open7.windows.any fun k => k.admits ⟨7, 1, .signal (probeFrame + 65536) 4 true 5⟩) = false := by decide +kernel
theorem witness_LinksCarryOperations_links : (open7.link 0).width = 3 ∧ (open7.link 0).next = none ∧
    (∀ k ∈ [(0, 3), (1, 4), (2, 8), (3, 16)], k.1 ≤ (open7.link 0).next.getD (open7.link 0).width) ∧
    (let s := open7.modPort 0 fun p => { p with next := some 1 }
     (s.link 0).next = some 1 ∧ 1 ≠ (s.link 0).width ∧ (s.mailbox.head + 1) % 128 ≠ s.mailbox.tail) ∧
    (open7.modPort 0 fun p => { p with next := some 3 }).link 0 = { open7.link 0 with next := some 3 } := by decide +kernel
theorem witness_LinksCarryOperations_host : probeFrame / 64 / 2 ^ 38 < 7 ∧ (∃ p ∈ open7.hosts, p.width ≠ 0 ∧ p.next = none) ∧ open7.clear open7.hostHorizon = true ∧
    (open7.home (64 * (probeFrame / 64))).isSome = true ∧ (∀ b ∈ ([(0, 1), (63, 2)] : List (Nat × Byte)), b.1 < 64) ∧
    ([(0, 1), (63, 2)] : List (Nat × Byte)).Pairwise fun a b => a.1 ≠ b.1 := by decide +kernel

/-! ### The host, launches and blocks -/

/-- Queue 0 runs the launch of `full`, in a phase; queue 1 is empty; a write to queue 0. -/
def queued (f : Launch → Launch) : State := about (linked (full.modLaunch 1 f)) (.num 0)
/-- A queue's launch meets `P`. -/
def Heads (s : State) (P : Launch → Bool) : Prop :=
  s.arg = .num 0 ∧ s.up = true ∧ (∃ p ∈ s.hosts, p.width ≠ 0 ∧ p.next = none) ∧ ∃ l rest, (s.queue 0).launches = l.id :: rest ∧ s.launch? l.id = some l ∧ P l = true
theorem heads {s : State} {P : Launch → Bool} (h1 : s.arg = .num 0) (h2 : s.up = true) (h3 : ∃ p ∈ s.hosts, p.width ≠ 0 ∧ p.next = none)
    (h : ((s.launch? 1).any fun l => (s.queue 0).launches == [l.id] && l.id == 1 && P l) = true) : Heads s P := by
  obtain ⟨l, hl, h⟩ := some_of h
  simp only [Bool.and_eq_true, beq_iff_eq] at h
  exact ⟨h1, h2, h3, l, [], h.1.1, by rw [h.1.2]; exact hl, h.2⟩
theorem witness_HostWritesRegisters_queues : (State.reset.up = false) ∧ (full.queue 1).launches = [] ∧
    Heads (queued id) (fun l => decide (l.phase = .active) && !l.preempt) ∧ Heads (queued fun l => { l with preempt := true }) (fun l => l.preempt) ∧
    Heads (queued fun l => { l with phase := .trapped }) (fun l => decide (l.phase = .trapped) && full.groups.all fun g => decide (g.place ≠ .saved)) ∧
    Heads (queued fun l => { l with phase := .stopping }) (fun l => decide (l.phase ≠ .active)) ∧
    (let s : State := { queued id with hosts := [Port.down, Port.down] }
     s.up = true ∧ ¬∃ p ∈ s.hosts, p.width ≠ 0 ∧ p.next = none) :=
  ⟨rfl, by decide +kernel, heads rfl rfl (by decide +kernel) (by decide +kernel), heads rfl rfl (by decide +kernel) (by decide +kernel),
    heads rfl rfl (by decide +kernel) (by decide +kernel), heads rfl rfl (by decide +kernel) (by decide +kernel), by decide +kernel⟩
theorem witness_HostWritesRegisters_values : State.reset.up = false ∧ ((linked bare).up = true ∧ ∃ p ∈ (linked bare).hosts, p.width ≠ 0 ∧ p.next = none) ∧ (∀ k ∈ [(0x10110, 4), (0x10000, 8), (0x10400 + 0xFC, 4), (0x1100, 1), (0x11FF, 1), (0x100C, 4), (0x1014, 4), (0x1800, 4)],
      k.1 % k.2 = 0 ∧ k.1 < 2 ^ 20 ∧ ownWrite k.1 = false) ∧ State.reset.launches = [] ∧ full.launches ≠ [] ∧
    ((0x100000 : Dword).toNat % 2 ^ 20 = 0 ∧ (0x100000 : Dword).toNat / 2 ^ 44 ≤ 6) ∧ (0x1001 : Dword).toNat % 2 ^ 12 ≠ 0 := by decide +kernel

/-- Nothing runs any more; the launch has a completion record at 0x2000 and a completion signal at 0x3000. -/
def quiet (f : Launch → Launch) : State :=
  let s := full.modLaunch 1 fun l => f { l with record := putWord (putWord l.record 0x80 0x2000) 0x88 0x3000 }
  linked (about { s with groups := s.groups.map fun g => { g with place := .gone, live := [], subs := g.subs.map fun u => { u with phase := .finished } }, blocks := [] } (.num 1))
def Ending (s : State) (P : Launch → Bool) : Prop := s.arg = .num 1 ∧ ∃ l, s.launch? 1 = some l ∧ P l = true
theorem ending {s : State} {P : Launch → Bool} (h1 : s.arg = .num 1) (h : ((s.launch? 1).any P) = true) : Ending s P := ⟨h1, some_of h⟩
theorem witness_LaunchesEnd_open : (∃ p ∈ (quiet id).hosts, p.width ≠ 0 ∧ p.next = none) ∧
    Ending (quiet id) (fun l => (quiet id).reportOpen l && (quiet id).signalsOpen l) := ⟨by decide +kernel, ending rfl (by decide +kernel)⟩
theorem witness_LaunchesEnd_reports : Ending (quiet id) (fun l => decide (l.phase = .active) && (quiet id).launchDone l && decide (l.complAt ≠ 0) &&
      okIs ((quiet id).tick.engineAddrs l l.complAt 256 false true) fun _ => true) ∧
    Ending (quiet fun l => { l with phase := .stopping }) (fun l => decide (l.phase = .stopping) && (quiet fun l => { l with phase := .stopping }).launchStopped l &&
      (quiet fun l => { l with phase := .stopping }).launchClear l) ∧
    Ending (quiet fun l => { l with phase := .ending 4 }) (fun l => decide (l.phase = .ending 4) && (quiet fun l => { l with phase := .ending 4 }).launchStopped l &&
      (quiet fun l => { l with phase := .ending 4 }).launchClear l) :=
  ⟨ending rfl (by decide +kernel), ending rfl (by decide +kernel), ending rfl (by decide +kernel)⟩
/-- Where memory is not moved, every address is its own place. -/
theorem places_distinct (s : State) (h : s.forward = []) (b n : Nat) : ((List.range n).map fun i => s.place (b + i)).Nodup := by
  have key : ∀ a, s.place a = a := fun a => by
    simp only [State.place, State.fwd, h, SMap.get]
    omega
  simp only [key]
  exact List.Pairwise.map _ (fun a b h => by omega) List.nodup_range
theorem witness_LaunchesEnd_signals : Ending (quiet fun l => { l with phase := .reporting 0 0 }) (fun l => decide (l.phase = .reporting 0 0) &&
      (quiet id).clear 0 && decide (l.csigAt ≠ 0) && l.signal.isNone &&
      okIs ((quiet id).tick.reachAll { core := none, asid := l.asid, priv := l.priv, rd := false, wr := true } l.csigAt 4 0).1 fun a => decide ((a.1.map (quiet id).place).Nodup) &&
        a.1.all fun k => decide (((quiet id).markOf ((quiet id).fwd (k / 64))).poison = 0) && !((quiet id).markOf ((quiet id).fwd (k / 64))).failing) ∧
    Ending (quiet fun l => { l with phase := .reporting 1 0 }) (fun l => decide (l.phase = .reporting 1 0)) ∧
    Ending (quiet fun l => { l with phase := .restarting }) (fun l => decide (l.phase = .restarting) && (quiet fun l => { l with phase := .restarting }).launchStopped l &&
      (quiet fun l => { l with phase := .restarting }).launchClear l && !(quiet id).noCore l) ∧
    Ending { quiet (fun l => { l with phase := .restarting }) with cores := [] } (fun l => ({ quiet (fun l => { l with phase := .restarting }) with cores := [] } : State).noCore l) :=
  ⟨ending rfl (by decide +kernel), ending rfl (by decide +kernel), ending rfl (by decide +kernel), ending rfl (by decide +kernel)⟩
theorem witness_LaunchesEnd_losses : (0 ∈ full.cores ∧ (full.launch? 1).any (fun l => full.coreHolds 0 l && decide (l.phase = .active)) = true) ∧
    (64 * 3 + 63 ∉ full.mapped ∧ 64 * 3 + 63 ∉ full.lost) ∧ ((full.home probeFrame).any fun h => decide (full.dieCode h.1 < 2)) = true ∧ full.dieCode 3 < 2 ∧ full.dieCode 0 < 2 ∧ dieOf 0 = 0 ∧
    (full.groups.map fun g => g.id).Nodup := by decide +kernel

/-- The launch has two blocks, of which one is placed; its queue contends. -/
def twoBlocks : State :=
  let s := full.modLaunch 1 fun l => { l with record := [(0x30, 2 + 16 + 16 * 2 ^ 8 + 160 * 2 ^ 16), (0x14, 1 + 2 * 2 ^ 24), (0x34, 0), (0x0C, 1), (0x78, 0x1000000)].foldl putPair l.record }
  { s with queues := s.queues.put 0 { s.queue 0 with contending := true } }
theorem witness_BlocksComeAndGo_choice : (∀ g ∈ twoBlocks.groups, g.id < twoBlocks.nextId) ∧ (twoBlocks.queues.map fun k => k.1).Nodup ∧
    twoBlocks.tick.urgentStep.isNone = true ∧ (twoBlocks.tick.actives.all fun l => (twoBlocks.tick.restoreNow l).isNone) = true ∧
    twoBlocks.queues.map (fun k => (k.1, k.2.contending, k.2.launches)) = [(0, true, [1])] ∧
    ((twoBlocks.launch? 1).any fun l => !l.urg && !l.conc && (twoBlocks.tick.nextSpots l).any fun spots => spots.length == 1) = true := by decide +kernel
/-- Its block has finished. -/
def finished : State :=
  { full with groups := full.groups.map fun g => { g with live := [], subs := g.subs.map fun u => { u with phase := .finished } } }
theorem witness_BlocksComeAndGo_retire : (∃ b ∈ finished.blocks, finished.blockDone b = true) ∧ (∀ l ∈ finished.launches, l.nblocks ≤ l.nextBlock) ∧
    (∀ b ∈ finished.blocks, b.phase ≠ .saved) ∧ (∀ l ∈ finished.launches, l.ord = false) ∧
    (∀ l ∈ (finished.modLaunch 1 fun l => { l with record := putWord l.record 0x0C (1 + 2 ^ 16) }).launches, l.ord = true) := by decide +kernel
/-- It has retired, and holds a staged write. -/
def retired : State :=
  about { full with blocks := full.blocks.map fun (b : Block) => { b with phase := .retired },
                    staged := [{ launch := 1, block := 0, die := 0, line := line0, bytes := [(0, 7), (63, 9)], atom := none, poison := false }] } (.pair 1 0)
theorem witness_BlocksComeAndGo_release : (retired.block? 1 0).any (fun b => decide (b.phase = .retired)) = true ∧
    (retired.blocks.filter fun o => o.launch == 1 && decide (o.index < 0) && decide (o.phase = .released)).length = 0 ∧
    (∀ w ∈ retired.staged, w.atom = none ∧ (w.bytes.map fun k => k.1).Nodup ∧ ∀ k ∈ w.bytes, k.1 < 64) := by decide +kernel
/-- It holds poisoned data, and an atomic addition. -/
def retiredWith (w : Staged) : State := { retired with staged := [w] }
def addsAtRelease : AtomReq := ⟨0, 64 * line0 + 8, 4, 0, 0, .i32, .rne, false, false, 5, 0, none, false, 0, false⟩
theorem witness_BlocksComeAndGo_staged : (∃ w ∈ (retiredWith { launch := 1, block := 0, die := 0, line := line0, bytes := [(0, 7)], atom := none, poison := true }).staged,
      w.poison = true ∧ w.atom = none) ∧
    (let s := retiredWith { launch := 1, block := 0, die := 0, line := line0, bytes := [], atom := some addsAtRelease, poison := false }
     addsAtRelease.pa % 64 + addsAtRelease.width ≤ 64 ∧ (addsAtRelease.compute (leNat (s.bytesAt addsAtRelease.pa addsAtRelease.width))).isSome = true ∧
     (s.markOf (s.fwd (addsAtRelease.pa / 64))).poison = 0 ∧ (s.markOf (s.fwd (addsAtRelease.pa / 64))).failing = false) := by decide +kernel
/-- A second queue of lower PASS waits for a place; the quantum is over. -/
def contended : State :=
  let s := { full with time := 4000000, launches := full.launches ++ full.launches.map fun (l : Launch) => { l with id := 3, queue := 1 } }
  let q0 : Queue := { s.queue 0 with contending := true, pass := 5 }
  let q1 : Queue := { s.queue 1 with contending := true, launches := [3] }
  let s := { s with queues := (s.queues.put 0 q0).put 1 q1 }
  about s (.num 0)
theorem witness_BlocksComeAndGo_quantum : (contended.longest 0).any (fun b => (contended.launch? b.launch).any fun l => decide (b.since + 3500000 ≤ contended.time) &&
      contended.queues.any fun k => k.2.contending && decide (k.2.pass < (contended.queue l.queue).pass) && k.2.launches == [3] &&
        (contended.launch? 3).any fun o => o.runs && contended.clear o.after && (contended.nextSpots o).isNone) = true := by decide +kernel
/-- A group of a stopped launch, with its trap, with an error of its own, and without. -/
def halted (p : Phase) (d : List Deferred) : State :=
  about ((full.modLaunch 1 fun l => { l with phase := .stopping }).modGroup 2 fun g => { g with deferred := d, subs := g.subs.map fun u => { u with phase := p } }) (.num 2)
def Saves (s : State) (P : Group → Launch → Bool) : Prop :=
  s.arg = .num 2 ∧ ∃ g l, s.group? 2 = some g ∧ s.launch? g.launch = some l ∧ s.canSave l g = true ∧ P g l = true
theorem saves {s : State} {P : Group → Launch → Bool} (h1 : s.arg = .num 2)
    (h : ((s.group? 2).any fun g => (s.launch? g.launch).any fun l => s.canSave l g && P g l) = true) : Saves s P := by
  obtain ⟨g, hg, h⟩ := some_of h
  obtain ⟨l, hl, h⟩ := some_of h
  rw [Bool.and_eq_true] at h
  exact ⟨h1, g, l, hg, hl, h.1, h.2⟩
theorem witness_BlocksComeAndGo_save : Saves (halted .trapped []) (fun g l => g.trapped && decide (l.phase ≠ .active)) ∧
    Saves (halted .running []) (fun g _ => !g.trapped && g.saveFault.isNone) ∧
    Saves (halted .running [{ op := 9, counter := 2, ready := true, cause := 0x10, detail := 1, addr := 0 }]) (fun g l => !g.trapped && !l.discards &&
      g.saveFault.isSome) ∧
    Saves ((halted .running []).modLaunch 1 fun l => { l with phase := .restarting }) (fun _ l => l.discards) ∧
    Saves ((halted .running []).modGroup 2 fun g => { g with spawned := true, block := 0, resv := some 3 }) (fun g l => g.spawned && !l.discards && g.saveFault.isNone) :=
  ⟨saves rfl (by decide +kernel), saves rfl (by decide +kernel), saves rfl (by decide +kernel), saves rfl (by decide +kernel), saves rfl (by decide +kernel)⟩
theorem witness_BlocksComeAndGo_record : ((full.group? 2).any fun g => (full.launch? g.launch).any fun l => decide (g.m = l.m) && decide (l.m ≤ 8) && decide (1 ≤ l.m) &&
      decide (g.subs.length ≤ 8) && (g.fpsr.all fun k => decide (k.2.toNat < 32)) && (g.sub? 0).isSome && (g.sub? 7).isNone &&
      (g.sub? 0).all fun u => decide (u.ndone ≤ 24) && decide (u.window.length ≤ 8)) = true := by decide +kernel
theorem witness_BlocksComeAndGo_pages : ((full.launch? 1).any fun l => okIs (full.tick.engineAddrs l 0x2000 1 false true) (fun a => decide ((a.map full.place).Nodup))) = true ∧
    ((full.launch? 1).any fun l => errIs (full.tick.engineAddrs l (2 ^ 57) 1 false true) fun _ => true) = true ∧ (leBytes 1 7).length = 1 := by decide +kernel

/-! ### The management controller -/

theorem witness_ManagementController_bringup : State.reset.bringup = .waiting ∧ SelfTest.clean.failed = none ∧
    (∀ d, d < 4 → ∀ k, k < 44 → 44 * d + k ∈ SelfTest.clean.cores) ∧
    (∀ d, d < 4 → (State.reset.flash.prefs.getD d []).length = 11 ∧ ∀ p ∈ State.reset.flash.prefs.getD d [], p < 11) ∧
    ({ SelfTest.clean with failed := some 8 } : SelfTest).failed = some 8 :=
  ⟨rfl, rfl, fun d hd k hk => List.mem_range.mpr (by omega), by decide +kernel, rfl⟩
theorem witness_ManagementController_governor : let s := { bare with time := 17500 }
    s.up = true ∧ s.sampled + 17500 ≤ s.time ∧ s.image.power = 2800 := by decide +kernel
/-- Argument bytes of OFFLINE: die 1, a pool in region 5 of 65536 bytes. -/
def offArgs : SMap Byte := [(0, 1), (13, 0x50), (16, 1)]
theorem witness_ManagementController_doorbells : (∃ p ∈ (linked bare).hosts, p.width ≠ 0 ∧ p.next = none) ∧
    (¬∃ p ∈ bare.hosts, p.width ≠ 0 ∧ p.next = none) ∧ bare.mailbox.running = none ∧ bare.bringup = .done ∧ offlineArgs (zeros 256) = none ∧
    (offlineArgs ((List.range 256).map fun i => SMap.get 0 offArgs i)).isSome = true ∧ 7 % 256 > 6 ∧ 256 % 256 = 0 ∧
    ({ State.reset with bringup := .failed 3 } : State).bringup = .failed 3 := by decide +kernel
/-- A command that runs, with its argument bytes. -/
def running (code : Nat) (b : List Byte) : State :=
  { linked bare with launches := [], groups := [], blocks := [], hwlen := 65536, mailbox := { bare.mailbox with running := some code, taken := b } }
theorem witness_ManagementController_reports : (running 1 (zeros 256)).mailbox.running = some 1 ∧ (∀ b ∈ zeros 256, b = 0) ∧
    (1 : Byte) ≠ 0 ∧ (running 6 []).launches = [] ∧ bare.launches ≠ [] := by decide +kernel
theorem witness_ManagementController_quote : (zeros 256).length = 256 ∧ leAt (zeros 256) 0x20 8 % 64 = 0 ∧
    (running 2 (zeros 256)).hwbase.toNat ≤ 0 ∧ 8192 ≤ (running 2 (zeros 256)).hwlen.toNat ∧ (running 2 (zeros 256)).quotes < 1024 ∧
    (running 2 (zeros 256)).pathTo ((running 2 (zeros 256)).hostPa 0 / 64) = true ∧
    ({ running 2 (zeros 256) with hosts := [Port.down, Port.down] } : State).pathTo ((running 2 (zeros 256)).hostPa 0 / 64) = false ∧
    ((List.range 7844).map fun i => (running 2 (zeros 256)).place ((running 2 (zeros 256)).hostPa 0 + i)).Nodup :=
  ⟨by decide +kernel, by decide +kernel, by decide +kernel, by decide +kernel, by decide +kernel, by decide +kernel, by decide +kernel, places_distinct _ rfl _ _⟩
/-- WINDOW of entry 15, and STAGE of no bytes and of 64 zeros: an image of wrong length, and one that is none. -/
theorem witness_ManagementController_windows : let b := [15, 0, 0, 0, 7, 0, 0, 0, 0, 0, 1, 0, 0, 0, 0, 0, 0, 0, 1, 0, 0, 0, 0, 0, 3] ++ zeros 231
    leAt b 0 4 ≤ 15 ∧ leAt b 4 4 ≤ 4094 ∧ leAt b 8 8 % 65536 = 0 ∧ leAt b 0x10 8 % 65536 = 0 ∧ leAt b 0x18 4 ≤ 3 ∧
    (∀ i ∈ List.range 256, 0x1C ≤ i → b.getD i 0 = 0) := by decide +kernel
theorem witness_ManagementController_stage : leAt (zeros 64) 8 4 ≠ 64 ∧ leAt ([] : List Byte) 8 4 = 0 ∧ imageOf [] = none := by
  refine ⟨by decide +kernel, by decide +kernel, ?_⟩
  simp only [imageOf]
  exact if_neg fun h => absurd h.1 (by decide +kernel)
/-- The address-space table of one space at 2^44, with one 2 MiB leaf at virtual address 0, whose frame lies at home on die 1. -/
def spaced : State :=
  let t := 2 ^ 44
  let put := fun (m : List Host.Cell) (k : Nat × Nat) => layBytes m k.1 (leBytes 8 k.2)
  { State.reset.withFetchWord 32 0x00400000 with
    launches := [], groups := [], blocks := [], tlb := []
    astbase := BitVec.ofNat 64 t
    mem := [(t, t + 0x100000 + 1), (t + 0x100000, t + 0x108000 + 1), (t + 0x108000, t + 0x10C000 + 1), (t + 0x10C000, t + 0x10E000 + 1),
      (t + 0x10E000, 2 * t + 7), (t + 0x10E008, 5)].foldl put [] }


theorem get_unlisted {α : Type} (d : α) (a : Nat) : ∀ m : SMap α, (∀ k ∈ m, k.1 ≠ a) → SMap.get d m a = d
  | [], _ => rfl
  | k :: m, h => by
    simp only [SMap.get, if_neg (h k (by simp))]
    exact get_unlisted d a m fun j hj => h j (by simp [hj])
/-- An entry where memory lists nothing is zero. -/
theorem entry_zero (s : State) (a : Nat) (hf : s.forward = []) (hm : ∀ k ∈ s.mem, k.1 < a ∨ a + 16 ≤ k.1) : s.entryAt a = (0, 0) := by
  have hb : ∀ b, a ≤ b → b < a + 16 → s.byteAt b = 0 := by
    intro b h1 h2
    have hp : s.place b = b := by simp only [State.place, State.fwd, hf, SMap.get]; omega
    rw [State.byteAt, hp]
    exact get_unlisted _ _ _ fun k hk => by have := hm k hk; omega
  have h1 : ∀ b, a ≤ b → b + 8 ≤ a + 16 → s.bytesAt b 8 = (List.range 8).map fun _ => 0 := fun b h1 h2 =>
    List.map_congr_left fun i hi => hb _ (by omega) (by have := List.mem_range.mp hi; omega)
  simp only [State.entryAt, h1 a (by omega) (by omega), h1 (a + 8) (by omega) (by omega)]
  rfl
/-- Of a table whose first entry alone is listed, only that one can be valid. -/
theorem entries_one (s : State) (t n : Nat) (P : Nat × (Dword × Dword) → Bool) (hf : s.forward = [])
    (hm : ∀ k ∈ s.mem, k.1 < t + 16 ∨ t + 16 * (n + 1) ≤ k.1) :
    ((List.range (n + 1)).map fun i => (i, s.entryAt (t + 16 * i))).filter (fun e => bitAt e.2.1 0 && P e) =
      [(0, s.entryAt t)].filter fun e => bitAt e.2.1 0 && P e := by
  have hz : ((List.range n).map fun i => (i + 1, s.entryAt (t + 16 * (i + 1)))).filter (fun e => bitAt e.2.1 0 && P e) = [] :=
    List.filter_eq_nil_iff.mpr fun e he => by
      obtain ⟨i, hi, rfl⟩ := List.mem_map.mp he
      have := List.mem_range.mp hi
      rw [entry_zero s _ hf fun k hk => by have := hm k hk; omega]
      exact fun h => absurd h (by simp [bitAt])
  rw [List.range_succ_eq_map, List.map_cons, List.map_map]
  exact (List.filter_append (l₁ := [(0, s.entryAt t)]) _).trans ((congrArg _ hz).trans (List.append_nil _))
theorem space_one (s : State) (hf : s.forward = []) (h0 : s.asidOk 0 = true)
    (hm : ∀ k ∈ s.mem, k.1 < s.astbase.toNat + 16 ∨ s.astbase.toNat + 2 ^ 20 ≤ k.1) :
    s.spaces = [(0, s.under 4 (bits (s.asidEntry 0).1 51 15 * 2 ^ 15) 0)] := by
  have hz : ((List.range 65535).map Nat.succ).filter s.asidOk = [] := List.filter_eq_nil_iff.mpr fun a ha => by
    obtain ⟨b, hb, rfl⟩ := List.mem_map.mp ha
    have := List.mem_range.mp hb
    have e : s.asidEntry (b + 1) = (0, 0) := entry_zero s _ hf fun k hk => by have := hm k hk; omega
    simp [State.asidOk, e, bitAt]
  rw [State.spaces, show (65536 : Nat) = 65535 + 1 from rfl, List.range_succ_eq_map, List.filter_cons_of_pos h0, hz]
  rfl

/-- The tables under one whose first entry alone is listed, and points on. -/
theorem under_next (s : State) (k table va : Nat) (hf : s.forward = [])
    (hm : ∀ j ∈ s.mem, j.1 < table + 16 ∨ table + 16 * 2 ^ levelBits (k + 1) ≤ j.1)
    (he : (bitAt (s.entryAt table).1 0 && !s.entryBad (k + 1) (s.entryAt table).1 (s.entryAt table).2 && !bitAt (s.entryAt table).1 1) = true) :
    s.under (k + 1) table va = ((table, 2 ^ (levelBits (k + 1) + 4)) :: (s.under k (bits (s.entryAt table).1 51 9 * 2 ^ 9) va).1,
      (s.under k (bits (s.entryAt table).1 51 9 * 2 ^ 9) va).2) := by
  simp only [Bool.and_eq_true, Bool.not_eq_true'] at he
  obtain ⟨⟨h1, h2⟩, h3⟩ := he
  obtain ⟨n, hn⟩ : ∃ n, 2 ^ levelBits (k + 1) = n + 1 := ⟨_, (Nat.sub_add_cancel Nat.one_le_two_pow).symm⟩
  rw [State.under]
  simp only [hn] at hm ⊢
  rw [entries_one s table n _ hf hm]
  simp [h1, h2, h3]
theorem under_leaf (s : State) (k table va : Nat) (hf : s.forward = [])
    (hm : ∀ j ∈ s.mem, j.1 < table + 16 ∨ table + 16 * 2 ^ levelBits k ≤ j.1)
    (he : (bitAt (s.entryAt table).1 0 && !s.entryBad k (s.entryAt table).1 (s.entryAt table).2 && bitAt (s.entryAt table).1 1) = true) :
    ∃ leaf, (leaf.frame = bits (s.entryAt table).1 51 9 * 2 ^ 9 ∧ leaf.level = k ∧ leaf.pl = bits (s.entryAt table).2 1 0 ∧ leaf.mr = bitAt (s.entryAt table).1 6) ∧
      s.under k table va = ([(table, 2 ^ (levelBits k + 4))], [(va, leaf)]) := by
  simp only [Bool.and_eq_true, Bool.not_eq_true'] at he
  obtain ⟨⟨h1, h2⟩, h3⟩ := he
  obtain ⟨n, hn⟩ : ∃ n, 2 ^ levelBits k = n + 1 := ⟨_, (Nat.sub_add_cancel Nat.one_le_two_pow).symm⟩
  rw [State.under.eq_def]
  simp only [hn] at hm ⊢
  rw [entries_one s table n _ hf hm]
  simp [h1, h2, h3]
theorem spaced_spaces : ∀ s ∈ [spaced, spaced.tick.reboundAll 1], ∃ leaf : Leaf, (leaf.frame = 2 ^ 45 ∧ leaf.level = 1 ∧ leaf.pl = 1 ∧ leaf.mr = false) ∧
    s.spaces = [(0, [(2 ^ 44 + 0x100000, 32768), (2 ^ 44 + 0x108000, 16384), (2 ^ 44 + 0x10C000, 1024), (2 ^ 44 + 0x10E000, 8192)], [(0, leaf)])] := by
  intro s hs
  have he : s.forward = [] ∧ s.mem = spaced.mem ∧ s.astbase = spaced.astbase ∧ s.asidOk 0 = true ∧ (bits (s.asidEntry 0).1 51 15 * 2 ^ 15 = 2 ^ 44 + 0x100000) ∧
      (∀ k ∈ [(3, 0x100000, 0x108000), (2, 0x108000, 0x10C000), (1, 0x10C000, 0x10E000)],
        (bitAt (s.entryAt (2 ^ 44 + k.2.1)).1 0 && !s.entryBad (k.1 + 1) (s.entryAt (2 ^ 44 + k.2.1)).1 (s.entryAt (2 ^ 44 + k.2.1)).2 &&
          !bitAt (s.entryAt (2 ^ 44 + k.2.1)).1 1) = true ∧ bits (s.entryAt (2 ^ 44 + k.2.1)).1 51 9 * 2 ^ 9 = 2 ^ 44 + k.2.2) ∧
      (let e := s.entryAt (2 ^ 44 + 0x10E000)
       (bitAt e.1 0 && !s.entryBad 1 e.1 e.2 && bitAt e.1 1) = true ∧ bits e.1 51 9 * 2 ^ 9 = 2 ^ 45 ∧ bits e.2 1 0 = 1 ∧ bitAt e.1 6 = false) := by
    simp only [List.mem_cons, List.not_mem_nil, or_false] at hs
    obtain rfl | rfl := hs <;> decide +kernel
  obtain ⟨hf, hm, ha, h0, h4, hp, hl⟩ := he
  have hn := fun (k : Nat) (n m : Nat) (hk : (k, n, m) ∈ [(3, 0x100000, 0x108000), (2, 0x108000, 0x10C000), (1, 0x10C000, 0x10E000)]) => hp (k, n, m) hk
  obtain ⟨leaf, h1, h2⟩ := under_leaf s 1 (2 ^ 44 + 0x10E000) 0 hf (by rw [hm]; decide +kernel) hl.1
  refine ⟨leaf, by simpa only [hl.2.1, hl.2.2.1, hl.2.2.2] using h1, ?_⟩
  rw [space_one s hf h0 (by rw [hm, ha]; decide +kernel), h4,
    under_next s 3 _ 0 hf (by rw [hm]; decide +kernel) (hn 3 0x100000 0x108000 (by simp)).1, (hn 3 0x100000 0x108000 (by simp)).2,
    under_next s 2 _ 0 hf (by rw [hm]; decide +kernel) (hn 2 0x108000 0x10C000 (by simp)).1, (hn 2 0x108000 0x10C000 (by simp)).2,
    under_next s 1 _ 0 hf (by rw [hm]; decide +kernel) (hn 1 0x10C000 0x10E000 (by simp)).1, (hn 1 0x10C000 0x10E000 (by simp)).2, h2]
  rfl
theorem spaced_tables : spaced.tablesOn 1 = false := by
  obtain ⟨leaf, -, h⟩ := spaced_spaces spaced (by simp)
  rw [State.tablesOn, h]
  simp only [List.any_cons, List.any_nil]
  decide +kernel
theorem spaced_layout : ((spaced.tick.reboundAll 1).layout { die := 1, base := 5 * 2 ^ 44, len := 65536, moved := none }).isNone = true ∧
    ((spaced.tick.reboundAll 1).layout { die := 1, base := 5 * 2 ^ 44, len := 2 ^ 21, moved := none }).isSome = true := by
  obtain ⟨leaf, ⟨h1, h2, h3, h4⟩, h⟩ := spaced_spaces (spaced.tick.reboundAll 1) (by simp)
  rw [State.layout, State.layout, h]
  have hs : leaf.span = 2 ^ 21 := by simp [Leaf.span, h2, h4, levelShift]
  have ht : (spaced.tick.reboundAll 1).touches 1 35184372088832 2097152 = true := by decide +kernel
  have hf : (spaced.tick.reboundAll 1).frameOk 2 87960930222080 2097152 = true := by decide +kernel
  simp only [Nat.reducePow] at h1 hs
  simp [h1, h2, h3, hs, ht, hf, levelShift, Leaf.within]
/-- A die holds nothing and no table lies on it: one leaf does, whose frame the pool takes, or does not. -/
theorem witness_ManagementController_evacuation : let s := about { spaced with mailbox := { spaced.mailbox with running := some 3, taken := zeros 256 } } .none
    s.dieEmpty 1 = true ∧ (∀ o ∈ s.ops, ∀ a b c d r f, o.kind ≠ .migr a b c d r f) ∧ ¬(2 ≤ s.dieCode 1) ∧ spaced.tablesOn 1 = false ∧
    ((spaced.tick.reboundAll 1).layout { die := 1, base := 5 * 2 ^ 44, len := 65536, moved := none }).isNone = true ∧
    ((spaced.tick.reboundAll 1).layout { die := 1, base := 5 * 2 ^ 44, len := 2 ^ 21, moved := none }).isSome = true :=
  ⟨by decide +kernel, fun _ ho => (List.not_mem_nil ho).elim, by decide +kernel, spaced_tables, spaced_layout⟩
theorem witness_ManagementController_offline : (running 3 (zeros 256)).offline = none ∧ (0 : Nat) ≤ bare.qc ∧ bare.qc < 1 ∧ (running 3 []).dieEmpty 1 = true ∧
    (running 3 []).ops = [] ∧ 2 ≤ ({ running 3 [] with dieState := [(1, 2)] } : State).dieCode 1 := by decide +kernel

/-! ### Decoding: a word of every constructor, from R44 to R49, R60, R69, R70, R76 (02_encoding.md) and R285 (12_translation.md)

Word 0 has D = v10, A = s2, P = 5 in the extended forms, D = v20, A = 0xF9, M = 0x2A in the base forms; the opcode is the one that R76 gives. -/

/-- The fields of the extended words; `k` is SUB[1:0]. -/
def wordX (k : Nat) (lit : Option Dword) : Ext := { d := 0x00A, a := 0x102, p := 5, w1 := 0x89ABCDE0 + BitVec.ofNat 32 k, w2 := 0x13579BDF, lit := lit }
/-- A three-word encoding stands for the instruction. -/
def IsE (w0 : Word) (f : Ext → Instr) (k : Nat := 0) : Prop :=
  decode ([w0, 0x89ABCDE0 + BitVec.ofNat 32 k, 0x13579BDF].flatMap wordBytes) = .ok (f (wordX k none), [])
/-- The same with the literal 0x1122334455667788, low half first. -/
def IsL (w0 : Word) (f : Ext → Instr) : Prop :=
  decode ([w0, 0x89ABCDE0, 0x13579BDF, 0x55667788, 0x11223344].flatMap wordBytes) = .ok (f (wordX 0 (some 0x1122334455667788)), [])
def IsB (w0 : Word) (f : Base → Instr) : Prop := decode (wordBytes w0) = .ok (f { d := 0x14, a := 0xF9, m := 0x2A }, [])
def IsR (w0 : Word) (f : Rec → Instr) : Prop :=
  decode ([w0, 0x89ABCDE0, 0x13579BDF, 1, 2, 3, 0x80000004].flatMap wordBytes) =
    .ok (f { d := 0x00A, a := 0x102, p := 5, w1 := 0x89ABCDE0, w2 := 0x13579BDF, r0 := 1, r1 := 2, r2 := 3, r3 := 0x80000004 }, [])
/-- COND 01, p2, XF 3, NAW 2; the target one block back. -/
def IsT (w0 : Word) (f : Trailer → Instr) : Prop :=
  decode ([w0, 0x0A0B0000, 0x0000FFFF].flatMap wordBytes) =
    .ok (f { cond := 1, pred := 2, xf := 3, naw := 2, low := 0, w1 := 0x0A0B0000, w2 := 0x0000FFFF }, [])

theorem test_decode_trailers :
    IsT 0x40024068 .runendFall ∧ IsT 0x400A4068 .runendBra ∧ IsT 0x40124068 .runendBrc ∧ IsT 0x401A4068 .runendJmp ∧ IsT 0x40224068 .runendCall ∧
    IsT 0x402A4068 .runendRet ∧ IsT 0x40324068 .runendExit ∧ IsT 0x403A4068 .runendYield := by
  and_intros <;> rfl
theorem test_decode_sequencer :
    IsB 0x00453E6A .nopBase ∧ IsE 0x40415025 .nop ∧ IsE 0x40815025 .exmrd ∧ IsE 0x40C15025 .exmwr ∧ IsE 0x41015025 .mmkrd ∧ IsE 0x41415025 .mmkwr ∧
    IsE 0x41815025 .lprrd ∧ IsE 0x41C15025 .lprwr ∧ IsE 0x42015025 .pmov ∧ IsE 0x42415025 .pand ∧ IsE 0x42815025 .por ∧ IsE 0x42C15025 .pxor ∧
    IsE 0x43015025 .pnot ∧ IsE 0x43415025 .pandn ∧ IsE 0x43815025 .pcnt ∧ IsE 0x43C15025 .pfirst ∧ IsE 0x44015025 .waitc ∧ IsE 0x44415025 .bar ∧
    IsE 0x44815025 .trap ∧ IsE 0x44C15025 .srrd ∧ IsE 0x45015025 .srwr ∧ IsE 0x45415025 .flgrd ∧ IsE 0x45815025 .flgclr ∧ IsE 0x45C15025 .fpmode ∧
    IsE 0x46015025 .sleep ∧ IsE 0x46415025 .clkrd ∧ IsE 0x46815025 .idrd ∧ IsE 0x48015025 .vote ∧ IsE 0x48415025 .ballot ∧ IsE 0x48815025 .treduce ∧
    IsE 0x48C15025 .tscan := by
  and_intros <;> rfl
theorem test_decode_integer :
    IsB 0x0A053E6A .iaddBase ∧ IsB 0x0A453E6A .isubBase ∧ IsB 0x0B453E6A .imulBase ∧ IsB 0x0CC53E6A .iminBase ∧ IsB 0x0D053E6A .imaxBase ∧
    IsB 0x0D453E6A .iabsBase ∧ IsB 0x0D853E6A .inegBase ∧ IsB 0x0E053E6A .andBase ∧ IsB 0x0E453E6A .orBase ∧ IsB 0x0E853E6A .xorBase ∧
    IsB 0x0EC53E6A .andnBase ∧ IsB 0x0F053E6A .notBase ∧ IsB 0x0F453E6A .shlBase ∧ IsB 0x0F853E6A .shrBase ∧ IsB 0x0FC53E6A .sarBase ∧
    IsB 0x10053E6A .rotlBase ∧ IsB 0x10C53E6A .popcBase ∧ IsB 0x11053E6A .clzBase ∧ IsB 0x11453E6A .ctzBase ∧ IsB 0x11853E6A .brevBase ∧
    IsB 0x12453E6A .movBase ∧ IsE 0x4A015025 .iadd ∧ IsE 0x4A415025 .isub ∧ IsE 0x4A815025 .iaddc ∧ IsE 0x4AC15025 .isubb ∧ IsE 0x4B015025 .iadd3 ∧
    IsE 0x4B415025 .imul ∧ IsE 0x4B815025 .imulh ∧ IsE 0x4BC15025 .imad ∧ IsE 0x4C015025 .imadw ∧ IsE 0x4C415025 .idiv ∧ IsE 0x4C815025 .irem ∧
    IsE 0x4CC15025 .imin ∧ IsE 0x4D015025 .imax ∧ IsE 0x4D415025 .iabs ∧ IsE 0x4D815025 .ineg ∧ IsE 0x4DC15025 .isat ∧ IsE 0x4E015025 .and ∧
    IsE 0x4E415025 .or ∧ IsE 0x4E815025 .xor ∧ IsE 0x4EC15025 .andn ∧ IsE 0x4F015025 .not ∧ IsE 0x4F415025 .shl ∧ IsE 0x4F815025 .shr ∧
    IsE 0x4FC15025 .sar ∧ IsE 0x50015025 .rotl ∧ IsE 0x50415025 .bfx ∧ IsE 0x50815025 .bfi ∧ IsE 0x50C15025 .popc ∧ IsE 0x51015025 .clz ∧
    IsE 0x51415025 .ctz ∧ IsE 0x51815025 .brev ∧ IsE 0x51C15025 .isetp ∧ IsE 0x52015025 .isel ∧ IsE 0x52415025 .mov ∧ IsE 0x52C15025 .lea ∧
    IsE 0x53015025 .idot4 ∧ IsE 0x53415025 .cvti ∧ IsL 0x8A015025 .iadd ∧ IsL 0x8A415025 .isub ∧ IsL 0x8B015025 .iadd3 ∧ IsL 0x8B415025 .imul ∧
    IsL 0x8B815025 .imulh ∧ IsL 0x8BC15025 .imad ∧ IsL 0x8C015025 .imadw ∧ IsL 0x8C415025 .idiv ∧ IsL 0x8C815025 .irem ∧ IsL 0x8CC15025 .imin ∧
    IsL 0x8D015025 .imax ∧ IsL 0x8E015025 .and ∧ IsL 0x8E415025 .or ∧ IsL 0x8E815025 .xor ∧ IsL 0x8EC15025 .andn ∧ IsL 0x8F415025 .shl ∧
    IsL 0x8F815025 .shr ∧ IsL 0x8FC15025 .sar ∧ IsL 0x90015025 .rotl ∧ IsL 0x90415025 .bfx ∧ IsL 0x90815025 .bfi ∧ IsL 0x91C15025 .isetp ∧
    IsL 0x92815025 .movi ∧ IsL 0x92C15025 .lea := by
  and_intros <;> rfl
theorem test_decode_convert :
    IsE 0x54015025 .cvtf ∧ IsE 0x54415025 .cvtfi ∧ IsE 0x54815025 .cvtif ∧ IsE 0x54C15025 .packn ∧ IsE 0x55015025 .unpackn ∧ IsE 0x55415025 .qcomp ∧
    IsE 0x55815025 .qexp := by
  and_intros <;> rfl
theorem test_decode_float :
    IsB 0x18053E6A .faddBase ∧ IsB 0x18453E6A .fsubBase ∧ IsB 0x18853E6A .fmulBase ∧ IsB 0x19053E6A .fminBase ∧ IsB 0x19453E6A .fmaxBase ∧
    IsB 0x19853E6A .fminmBase ∧ IsB 0x19C53E6A .fmaxmBase ∧ IsB 0x1A053E6A .fabsBase ∧ IsB 0x1A453E6A .fnegBase ∧ IsB 0x1A853E6A .fcpsgnBase ∧
    IsB 0x1BC53E6A .fsqrtBase ∧ IsB 0x1C053E6A .frcpBase ∧ IsB 0x1C453E6A .frsqBase ∧ IsB 0x1D053E6A .fgexpBase ∧ IsB 0x1DC53E6A .hadd2Base ∧
    IsB 0x1E053E6A .hmul2Base ∧ IsE 0x58015025 .fadd ∧ IsE 0x58415025 .fsub ∧ IsE 0x58815025 .fmul ∧ IsE 0x58C15025 .ffma ∧ IsE 0x59015025 .fmin ∧
    IsE 0x59415025 .fmax ∧ IsE 0x59815025 .fminm ∧ IsE 0x59C15025 .fmaxm ∧ IsE 0x5A015025 .fabs ∧ IsE 0x5A415025 .fneg ∧ IsE 0x5A815025 .fcpsgn ∧
    IsE 0x5AC15025 .fsetp ∧ IsE 0x5B015025 .fsel ∧ IsE 0x5B415025 .fclass ∧ IsE 0x5B815025 .fdiv ∧ IsE 0x5BC15025 .fsqrt ∧ IsE 0x5C015025 .frcp ∧
    IsE 0x5C415025 .frsq ∧ IsE 0x5C815025 .frint ∧ IsE 0x5CC15025 .fscale ∧ IsE 0x5D015025 .fgexp ∧ IsE 0x5D415025 .fgmant ∧ IsE 0x5D815025 .frem ∧
    IsE 0x5DC15025 .hadd2 ∧ IsE 0x5E015025 .hmul2 ∧ IsE 0x5E415025 .hfma2 ∧ IsE 0x5E815025 .hdot2 ∧ IsL 0x98015025 .fadd ∧ IsL 0x98415025 .fsub ∧
    IsL 0x98815025 .fmul ∧ IsL 0x98C15025 .ffma ∧ IsL 0x99015025 .fmin ∧ IsL 0x99415025 .fmax ∧ IsL 0x99815025 .fminm ∧ IsL 0x99C15025 .fmaxm ∧
    IsL 0x9AC15025 .fsetp ∧ IsL 0x9B815025 .fdiv ∧ IsL 0x9D815025 .frem ∧ IsL 0x9DC15025 .hadd2 ∧ IsL 0x9E015025 .hmul2 ∧ IsL 0x9E415025 .hfma2 ∧
    IsL 0x9E815025 .hdot2 := by
  and_intros <;> rfl
theorem test_decode_function :
    IsB 0x20053E6A .fexpBase ∧ IsB 0x20453E6A .fexp2Base ∧ IsB 0x20853E6A .fexpm1Base ∧ IsB 0x20C53E6A .flogBase ∧ IsB 0x21053E6A .flog2Base ∧
    IsB 0x21453E6A .flog1pBase ∧ IsB 0x21853E6A .ferfBase ∧ IsB 0x21C53E6A .ferfcBase ∧ IsB 0x22053E6A .fsinpiBase ∧ IsB 0x22453E6A .fcospiBase ∧
    IsB 0x22853E6A .ftanhBase ∧ IsB 0x22C53E6A .fcbrtBase ∧ IsE 0x60015025 .fexp ∧ IsE 0x60415025 .fexp2 ∧ IsE 0x60815025 .fexpm1 ∧
    IsE 0x60C15025 .flog ∧ IsE 0x61015025 .flog2 ∧ IsE 0x61415025 .flog1p ∧ IsE 0x61815025 .ferf ∧ IsE 0x61C15025 .ferfc ∧ IsE 0x62015025 .fsinpi ∧
    IsE 0x62415025 .fcospi ∧ IsE 0x62815025 .ftanh ∧ IsE 0x62C15025 .fcbrt ∧ IsE 0x63015025 .rand ∧ IsE 0x63415025 .dropm ∧ IsE 0x63815025 .hmix := by
  and_intros <;> rfl
theorem test_decode_memory :
    IsE 0x64015025 .ld ∧ IsE 0x64415025 .st ∧ IsE 0x64815025 .ldu ∧ IsE 0x64C15025 .ldp ∧ IsE 0x65015025 .stp ∧ IsE 0x65415025 .pref ∧
    IsE 0x65815025 .ldna ∧ IsE 0x65C15025 .stna ∧ IsE 0x6A015025 .atom ∧ IsE 0x6A415025 .atomcas ∧ IsE 0x6A815025 .aimg ∧ IsE 0x6AC15025 .signal ∧
    IsE 0x6B015025 .observe ∧ IsE 0x6B415025 .monitor ∧ IsE 0x6B815025 .mwait ∧ IsL 0xA4015025 .ld ∧ IsL 0xA4415025 .st ∧ IsL 0xA4815025 .ldu ∧
    IsL 0xA4C15025 .ldp ∧ IsL 0xA5015025 .stp ∧ IsL 0xA5415025 .pref ∧ IsL 0xA5815025 .ldna ∧ IsL 0xA5C15025 .stna ∧ IsL 0xAA015025 .atom ∧
    IsL 0xAA415025 .atomcas ∧ IsL 0xAAC15025 .signal := by
  and_intros <;> rfl
theorem test_decode_system :
    IsE 0x6E015025 .tlbinv ∧ IsE 0x6E415025 .qsyncWait ∧ IsE 0x6E415025 .qsyncPut 1 ∧ IsE 0x6E415025 .qsyncTake 2 ∧ IsE 0x6E815025 .migrMove ∧
    IsE 0x6E815025 .migrScrub 1 ∧ IsE 0x6EC15025 .pgqry := by
  and_intros <;> rfl
theorem test_decode_copy :
    IsE 0x70815025 .tiledef ∧ IsE 0x70C15025 .tileq ∧ IsE 0x71015025 .tilerel ∧ IsE 0x71815025 .tfill ∧ IsL 0xB1815025 .tfill ∧
    IsR 0xF0015025 .tcopy ∧ IsR 0xF0415025 .hcopy ∧ IsR 0xF1415025 .tiledrn := by
  and_intros <;> rfl
theorem test_decode_spawn :
    IsE 0x72015025 .spawn ∧ IsE 0x72415025 .await ∧ IsE 0x72815025 .awaitn ∧ IsE 0x72C15025 .frmrd ∧ IsE 0x73015025 .frmwr ∧ IsE 0x73415025 .chcnt ∧
    IsE 0x73815025 .launch := by
  and_intros <;> rfl
theorem test_decode_accumulator :
    IsE 0x74015025 .xclr ∧ IsE 0x74415025 .xadd ∧ IsE 0x74815025 .xfma ∧ IsE 0x74C15025 .xmrg ∧ IsE 0x75015025 .xrnd ∧ IsE 0x75415025 .xst ∧
    IsE 0x75815025 .xld ∧ IsE 0x75C15025 .xstat ∧ IsL 0xB5415025 .xst ∧ IsL 0xB5815025 .xld := by
  and_intros <;> rfl
theorem test_decode_matrix :
    IsE 0x77015025 .mzero ∧ IsE 0x77815025 .mstat ∧ IsE 0x78415025 .wsqry ∧ IsR 0xF6015025 .mcfg ∧ IsR 0xF6415025 .mldb ∧ IsR 0xF6815025 .mldbw ∧
    IsR 0xF6C15025 .mma ∧ IsR 0xF7415025 .mdrn ∧ IsR 0xF7C15025 .wswr ∧ IsR 0xF8015025 .wsrd := by
  and_intros <;> rfl
theorem test_decode_regroup :
    IsE 0x79015025 .msplit ∧ IsE 0x79415025 .rjoin ∧ IsE 0x79815025 .repack := by
  and_intros <;> rfl
theorem test_decode_collective :
    IsE 0x7A015025 .msumx ∧ IsE 0x7A415025 .mmean ∧ IsE 0x7A815025 .msprd ∧ IsE 0x7AC15025 .mqnt ∧ IsE 0x7B015025 .mrank ∧ IsE 0x7B415025 .mhist ∧
    IsR 0xFB815025 .ccoll := by
  and_intros <;> rfl
theorem test_decode_links :
    IsE 0x7C415025 .rsignal ∧ IsE 0x7C815025 .ratom ∧ IsE 0x7CC15025 .lnkq ∧ IsL 0xBC415025 .rsignal ∧ IsL 0xBC815025 .ratom ∧ IsR 0xFC015025 .rcopy := by
  and_intros <;> rfl

/-! ### Well-formedness -/

theorem smoke_event : Instr.qgo.error = some .event ∧ Instr.qgo.wf = false := ⟨rfl, rfl⟩
theorem smoke_literal : (Instr.nop { ext 0 0 0 with lit := some 5 }).error = some .literal ∧ (Instr.iaddc { ext 10 2 0 with lit := some 5 }).wf = false := ⟨rfl, rfl⟩
theorem smoke_noLiteral : (Instr.movi (ext 10 511 0)).error = some .noLiteral ∧ (Instr.movi (ext 10 511 0)).wf = false := ⟨rfl, rfl⟩
/-- SUB[1:0] 11 of QSYNC is none of its three operations, and 01 is not the wait (R285 12_translation.md). -/
theorem smoke_operation : (Instr.qsyncWait (ext 266 0 1)).error = some (.operation 1) ∧ (Instr.migrMove (ext 266 258 3)).wf = false ∧
    (Instr.qsyncPut (ext 266 258 1)).wf = true := ⟨rfl, rfl, rfl⟩

/-! ### What instructions do: values worked out in the spec -/

/-- The group of `base` after the words of an instruction, with lane 0 active alone, its registers and FPCR given. -/
def ran (regs : List (Nat × Nat)) (fpcr : Nat) (ws : List Word) : Option Group :=
  let s := bare.modGroup 2 fun g => { g with exm := [(0, 1)], vregs := regs.map fun k => (k.1, [(0, BitVec.ofNat 32 k.2)]) }
  let s := s.modSub { grp := 2, sub := 0 } fun u => { u with fpcr := BitVec.ofNat 32 fpcr, uregs := [(5, 0x10)] }
  match decode (ws.flatMap wordBytes) with
  | .ok (i, _) => match exec i s with
    | .next t => t.group? 2
    | _ => none
  | .error _ => none
/-- Lane 0 ends with this in a register, and with these flags (NV, DZ, OF, UF, NX from bit 0, R113 04_sequencer.md). -/
abbrev Ends0 (regs : List (Nat × Nat)) (fpcr : Nat) (ws : List Word) (r : Nat) (v : Word) (flags : BitVec 5) : Prop :=
  ((ran regs fpcr ws).any fun g => g.vcur r 0 == v && g.fpsr.get 0 0 == flags) = true

/-- The low half of the 128-bit addition of 06_integer.md: the carry out reaches p1. -/
theorem test_iaddc : ((ran [(2, 0xFFFFFFFF), (3, 0xFFFFFFFF), (6, 1)] 0 [0x4A814020, 0x03008009, 0]).any fun g =>
    g.vcur 10 0 == 0 && g.vcur 11 0 == 0 && g.preds.get 0 1 == 1) = true := by decide +kernel
/-- LEA of 06_integer.md, with s5 = 0x10 and v2 = 3. -/
theorem test_lea : ((ran [(2, 3)] 0 [0x52C15040, 0x016E8048, 0]).any fun g => g.vcur 10 0 == 0x4C && g.vcur 11 0 == 0x10) = true := by decide +kernel
/-- IMULH of 06_integer.md: −1 times 1 as .i32, all ones squared as .n32. -/
theorem test_imulh : Ends0 [(1, 0xFFFFFFFF), (2, 1)] 0 [0x4B808010, 0x01000004, 0] 4 0xFFFFFFFF 0 ∧
    Ends0 [(1, 0xFFFFFFFF), (2, 0xFFFFFFFF)] 0 [0x4B808010, 0x01000008, 0] 4 0xFFFFFFFE 0 := by decide +kernel
/-- SAR by 40 and SHR by 32 of 06_integer.md. -/
theorem test_shifts : Ends0 [(1, 0x80000010), (2, 40)] 0 [0x4FC08010, 0x01000000, 0] 4 0xFFFFFFFF 0 ∧
    Ends0 [(1, 0x80000010), (2, 32)] 0 [0x4F808010, 0x01000000, 0] 4 0 0 := by decide +kernel
/-- CVTF.f16.f64 of 1 + 2^−11 + 2^−40 of 07_formats.md: one rounding. -/
theorem test_cvtf : Ends0 [(2, 0x1000), (3, 0x3FF00200)] 0 [0x54008020, 0x000001AA, 0] 4 0x3C01 0x10 := by decide +kernel
/-- PACKN.scl of 07_formats.md: 1000 saturates with OF and NX, 0.01 underflows, and is zero under FZI with no flag. -/
theorem test_packn : Ends0 [(1, 0x447A0000), (2, 0x3F000000), (6, 0x11223344)] 0 [0x54C0C010, 0x0100858E, 0] 6 0x117E3344 0x14 ∧
    Ends0 [(1, 0x3C23D70A), (2, 0x3F000000), (6, 0x11223344)] 0 [0x54C0C010, 0x0100858E, 0] 6 0x11033344 0x18 := by decide +kernel
/-- FSETP of 08_float.md with a quiet NaN: false, and NV. -/
theorem test_fsetp : ((ran [(3, 0x7FC00000)] 0 [0x5AC04030, 0xDA01014C, 0]).any fun g => g.fpsr.get 0 0 == 1 && (g.preds.get 0 2).getLsbD 0 == false) = true := by
  decide +kernel
/-- HDOT2 of 08_float.md: one rounding of the exact sum. -/
theorem test_hdot2 : Ends0 [(1, 0x3C006C00), (2, 0x3C006C00), (3, 0xCB800000)] 0 [0x5E80A010, 0x0100C14C, 0] 5 0x3F800000 0 := by decide +kernel
/-- FGEXP of 08_float.md: −149 for the smallest FP32 subnormal. -/
theorem test_fgexp : Ends0 [(1, 1)] 0 [0x5D008010, 0x0000000C, 0] 4 0xC3150000 0 := by decide +kernel
/-- FREM of 08_float.md: 7.0 by 2.0 is −1.0. -/
theorem test_frem : Ends0 [(1, 0x40E00000), (2, 0x40000000)] 0 [0x5D808010, 0x0100000C, 0] 4 0xBF800000 0 := by decide +kernel
/-- FEXP of +0 is exactly 1 (09_function.md), in the base form worked out there. -/
theorem test_fexp_zero : Ends0 [(1, 0)] 0 [0x2001004C] 4 0x3F800000 0 := by decide +kernel
/-- TREDUCE of 05_router.md over tiles of four lanes: 1.0 in all four lanes, and NX. -/
theorem test_treduce : ((State.group? (after (State.modSub (full.modGroup 2 fun g => { g with
    exm := [(0, 15)], vregs := [(4, [(0, 0x4B800000), (1, 0x3F800000), (2, 0x3F800000), (3, 0xCB800000)])] }) { grp := 2, sub := 0 } fun u => { u with lpr := 2 })
    (.treduce (ext 20 4 0xCC))) 2).any fun g => [0, 1, 2, 3].all fun t => g.vcur 20 t == 0x3F800000) = true := by decide +kernel
/-- An IADD with a rounding is illegal with DETAIL 5 (R136 04_sequencer.md); nothing else changes. -/
theorem test_illegal : ((ran [(2, 1)] 0 [0x4A014020, 0x03000804, 0]).any fun g => g.trap.info == 0x00000501 && g.vcur 10 0 == 0 && g.trap.pc == 4096) = true := by
  decide +kernel
/-- TRAP of code 1 for the active threads: cause 0x0B of R134 is not asked for here, only the code and the mask (R130, R135). -/
theorem test_trap : ((ran [] 0 [0x44800000, 0x00010000, 0]).any fun g => bits g.trap.info 63 32 == 1 && g.trap.msk0 == 1) = true := by decide +kernel

/-! ### What the host and the controller do -/

/-- Bring-up with nothing found wrong leaves 160 cores and the mailbox ready (R454 21_management.md). -/
theorem test_bringup : nextIs (exec .powerOnBringup { State.reset with arg := .test SelfTest.clean }) (fun t => t.cores.length == 160 && t.mailbox.ready) = true := by
  decide +kernel
/-- QGO of a record of one block: status 0, and the launch is active (R413, R415, R440); of the same record for another queue: status 1. -/
def enqueuing (q : Nat) : State :=
  let r : List Byte := leBytes 8 probeEntry ++ leBytes 4 0 ++ leBytes 4 (1 + 2 ^ 24) ++ leBytes 4 31 ++ zeros 28 ++
    leBytes 4 (1 + 16 + 16 * 2 ^ 8 + 16 * 2 ^ 16) ++ zeros 60 ++ leBytes 8 0x200000 ++ leBytes 8 0x100000 ++ zeros 128
  about { linked bare with queues := [(q, { bare.queue 9 with qrec := r })] } (.num q)
theorem test_qgo : nextIs (exec .qgo (enqueuing 0)) (fun t => (t.queue 0).qstat == 0x100 && t.launches.length == 2) = true ∧
    nextIs (exec .qgo (enqueuing 5)) (fun t => (t.queue 5).qstat == 0x101 && t.launches.length == 1) = true := by decide +kernel
/-- The layout of MXERR in R369: V, SRC 00 with member 3, K index 33, A row 5, SEQ 7; and MULT for a second event. -/
theorem test_mxerr_layout :
    (logMx 0 7 [(4 * 3, 33, 5)]).toNat = 1 + 3 * 2 ^ 4 + 33 * 2 ^ 8 + 5 * 2 ^ 17 + 7 * 2 ^ 32 ∧
    (logMx (logMx 0 7 [(4 * 3, 33, 5)]) 8 [(1, 2, 3)]).toNat = 3 + 3 * 2 ^ 4 + 33 * 2 ^ 8 + 5 * 2 ^ 17 + 7 * 2 ^ 32 ∧
    (logMx 0 0 [(3, 1, 1)]).toNat = 1 + 3 * 2 ^ 2 + 2 ^ 8 + 2 ^ 17 := by decide
/-- A panel element that cannot be read counts as zero and sets ZREP, bit 5 of the tile status; the panel keeps it (R370). -/
theorem test_zrep :
    let a := { MxArray.empty with form := 1, weights := [(0, 7)] }
    let run := fun (lost : Bool) => a.mmaRead (Launch.ofRecord 0 []) .i8 0 false false 0 1 0 0 1 [0] [(0, 0, 0)] (fun _ _ _ => 3) (fun _ _ _ => 0)
      (fun _ _ _ => false) (fun k n => lost && k == 0 && n == 0)
    (run false).cell 0 0 0 = 21 ∧ (run false).status 0 = 0 ∧ (run true).cell 0 0 0 = 0 ∧ (run true).status 0 = 32 ∧ (run true).q 0 0 = 7 := by
  decide


end Tests
end Sys2Proof
end

section
namespace Sys2Proof
namespace Machine

/-! ### The frame of an instruction of ports V, I and F -/

/-- The issuing group and sub-group after the effect of an instruction that stays in its group: registers, predicates, masks, flags and the
registers of the sequencer may have changed. -/
structure OwnIn (c : Cx) (g : Group) (u : SubGroup) : Prop where
  group : g = { c.g with vregs := g.vregs, stale := g.stale, awaited := g.awaited, vmarks := g.vmarks, preds := g.preds, exm := g.exm,
                         fpsr := g.fpsr, subs := g.subs }
  sub : u = { c.u with window := u.window, uregs := u.uregs, umarks := u.umarks, hist := u.hist, mmk := u.mmk, lpr := u.lpr, fpcr := u.fpcr }
  subs : ∀ n, n ≠ c.r.sub → g.sub? n = c.g.sub? n

/-- An effect is one change of the issuing group, within what OwnIn allows, and perhaps a trap after it. -/
def Cx.Owns (c : Cx) (s : State) (r : Res) : Prop :=
  ∃ (F : Group → Group) (tr : Option TrapReq) (u : SubGroup), (∀ g, (F g).id = g.id) ∧ r = resOf (s.modGroup c.r.grp F) tr ∧
    (F c.g).sub? c.r.sub = some u ∧ OwnIn c (F c.g) u

section
variable {s : State} {c : Cx}

theorem modGroup_modGroup (s : State) (id : Nat) (F G : Group → Group) (hF : ∀ g, (F g).id = g.id) :
    (s.modGroup id F).modGroup id G = s.modGroup id fun g => G (F g) := by
  unfold State.modGroup
  simp only [List.map_map, State.mk.injEq, and_true, true_and]
  refine List.map_congr_left fun g _ => ?_
  by_cases h : g.id = id <;> simp [h, hF]

/-- A computed result stays in its group. -/
theorem owns_result (hc : s.issuer = some c) {x : Ext} {f : Form} (henc : formFails x f = []) {w v u n : Bool} (hd : f.dest = .reg w v u n)
    (wide : Bool) (val : Nat → Dword × Flags) : c.Owns s.tick (c.result s.tick x wide val) := by
  obtain ⟨hg, hu, -⟩ := issuer_some s c hc
  obtain ⟨F, hid, hres, u, hsub, hw⟩ := result_spec c s.tick x wide val hg hu (dest_of_encoding x f henc hd)
  refine ⟨F, _, u, hid, hres, hsub, ?_, ?_, hw.keptSubs⟩
  · exact hw.keptGroup.trans (by rw [hw.keptGroup])
  · exact hw.keptSub.trans (by rw [hw.keptSub])

/-- A judgement stays in its group. -/
theorem owns_predResult (hc : s.issuer = some c) (k : Nat) (hk : k < 16) (p : BitVec 4) (val : Nat → Bool × Flags) :
    c.Owns s.tick (c.predResult s.tick k p val) := by
  obtain ⟨-, hu, -⟩ := issuer_some s c hc
  obtain ⟨F, tr, hres, -, hF, -⟩ := predResult_spec c s.tick p k val hk
  obtain ⟨P, m, h⟩ := hF c.g
  refine ⟨F, tr, c.u, fun g => ?_, hres, by rw [h]; exact hu, by rw [h], rfl, fun n _ => by rw [h]; rfl⟩
  obtain ⟨P, m, h⟩ := hF g
  rw [h]

/-- A change of predicates, masks or flags stays in its group, and a trap may follow it. -/
theorem owns_modGroup (hc : s.issuer = some c) (F : Group → Group) (hF : ∀ g, ∃ P E m, F g = { g with preds := P, exm := E, fpsr := m })
    (tr : Option TrapReq) : c.Owns s.tick (resOf (s.tick.modGroup c.r.grp F) tr) := by
  obtain ⟨-, hu, -⟩ := issuer_some s c hc
  obtain ⟨P, E, m, h⟩ := hF c.g
  refine ⟨F, tr, c.u, fun g => ?_, rfl, by rw [h]; exact hu, by rw [h], rfl, fun n _ => by rw [h]; rfl⟩
  obtain ⟨P, E, m, h⟩ := hF g
  rw [h]

/-- A change of a register of the sequencer stays in its sub-group. -/
theorem owns_modSub (hc : s.issuer = some c) (f : SubGroup → SubGroup) (hf : ∀ u, ∃ m l p, f u = { u with mmk := m, lpr := l, fpcr := p }) :
    c.Owns s.tick (.done (s.tick.modSub c.r f)) := by
  obtain ⟨-, hu, -⟩ := issuer_some s c hc
  have hn : ∀ u, (f u).num = u.num := fun u => by obtain ⟨m, l, p, h⟩ := hf u; rw [h]
  obtain ⟨m, l, p, h⟩ := hf c.u
  exact ⟨fun g => g.modSub c.r.sub f, none, f c.u, fun _ => rfl, rfl, sub?_modSub_self _ _ f _ hn hu, rfl, by rw [h],
    fun n hne => sub?_modSub_other _ _ n f hn hne⟩

/-- A further change of the state where an effect ends without a trap. -/
def Res.onDone (f : State → State) : Res → Res
  | .done t => .done (f t)
  | r => r

/-- IADDC and ISUBB: the result, then the carry out (R165 06_integer.md). -/
theorem effCarry_eq (x : Ext) (op : Int → Int → Int → Int) (out : Int → Bool) (c : Cx) (s : State) : ∃ val l, effCarry x op out c s =
    (c.result s x x.ty.wide val).onDone fun t => t.modGroup c.r.grp fun g => g.putPred (bits x.w1 18 15) l := by
  let v := fun t => op (c.intA x t) (c.intB x t) (if x.bit1 14 && c.g.predBit t (bits x.w1 22 19) then 1 else 0)
  exact ⟨fun t => (intResult x.ty false (v t), 0), (c.threads x.p).map fun t => (t, out (v t)), rfl⟩

/-- A predicate written after an effect without a trap stays in the group too. -/
theorem Cx.Owns.putPred {r : Res} (h : c.Owns s r) (k : Nat) (l : List (Nat × Bool)) :
    c.Owns s (r.onDone fun t => t.modGroup c.r.grp fun g => g.putPred k l) := by
  obtain ⟨F, tr, u, hid, rfl, hsub, hown⟩ := h
  have hput : ∀ g : Group, ∃ P, g.putPred k l = { g with preds := P } := fun g => by
    unfold Group.putPred; split
    · exact ⟨g.preds, rfl⟩
    · exact ⟨_, rfl⟩
  cases tr with
  | some t => exact ⟨F, some t, u, hid, rfl, hsub, hown⟩
  | none =>
    obtain ⟨P, hP⟩ := hput (F c.g)
    refine ⟨fun g => (F g).putPred k l, none, u, fun g => ?_, congrArg Res.done (modGroup_modGroup _ _ F _ hid), ?_⟩
    · obtain ⟨Q, hQ⟩ := hput (F g)
      show ((F g).putPred k l).id = g.id
      rw [hQ]; exact hid g
    · simp only [hP]
      exact ⟨hsub, congrArg (fun g : Group => { g with preds := P }) hown.group, hown.sub, hown.subs⟩

/-- What the statement of a port instruction says of its outcome. -/
def PortCompletes (s : State) (i : Instr) (c : Cx) (words : Nat) : Prop :=
  ∃ t g u, exec i s = .next t ∧ t = { s with groups := t.groups, launches := t.launches, stamp := s.stamp + 1 } ∧
    (∀ a, t.byteAt a = s.byteAt a) ∧ (∀ id, id ≠ c.r.grp → t.group? id = s.group? id) ∧
    t.group? c.r.grp = some g ∧ g.sub? c.r.sub = some u ∧ PortFrame c words g u ∧
    (u.phase = .running → t.launches = s.launches)

theorem byteAt_of_rest {s t : State} (h : t = { s with groups := t.groups, launches := t.launches, stamp := s.stamp + 1 }) (a : Nat) :
    t.byteAt a = s.byteAt a := by rw [h]; rfl

/-- A sub-group behind an instruction of `words` words that issued at `stamp`. -/
def SubGroup.behind (words stamp : Nat) (u : SubGroup) : SubGroup :=
  { u with pc := u.pc + BitVec.ofNat 64 (4 * words), ndone := u.ndone + 1, yielded := false, issued := stamp }

/-- A group in which the instruction of sub-group `n` has retired. -/
def Group.behind (n words stamp : Nat) (g : Group) : Group := g.modSub n (SubGroup.behind words stamp)

theorem OwnIn.portFrame {g : Group} {u : SubGroup} (h : OwnIn c g u) (hrun : c.u.phase = .running) (words stamp : Nat) :
    PortFrame c words (g.behind c.r.sub words stamp) (u.behind words stamp) where
  pc := by rw [h.sub]; rfl
  done := by rw [h.sub]; rfl
  keptGroup := by rw [h.group]; rfl
  keptSub := by rw [h.sub]; rfl
  keptSubs n hn := (sub?_modSub_other g _ n (SubGroup.behind words stamp) (fun _ => rfl) hn).trans (h.subs n hn)
  live := .inl (by rw [h.sub]; exact hrun)
  keptTrap _ := by rw [h.group]; exact ⟨rfl, rfl⟩

/-- The group after a trap of sub-group `r` (R135 04_sequencer.md). -/
def Group.withTrap (g : Group) (r : SubRef) (t : TrapReq) (pc : Dword) (n : Nat) (resume : Bool) : Group :=
  { g with trap := trapRegs t r.sub n resume pc, trapFlags := t.raised }.modSub r.sub fun u => { u with phase := .trapped }

theorem group?_takeTrap_self {s : State} {g g' : Group} {r : SubRef} (h : s.group? r.grp = some g') (t : TrapReq) (pc : Dword) (n : Nat)
    (resume : Bool) : (s.takeTrap g r t pc n resume).group? r.grp = some (g'.withTrap r t pc n resume) :=
  group?_modGroup_self s r.grp _ g' (fun _ => rfl) h

theorem group?_takeTrap_other (s : State) (g : Group) {r : SubRef} {id : Nat} (h : id ≠ r.grp) (t : TrapReq) (pc : Dword) (n : Nat)
    (resume : Bool) : (s.takeTrap g r t pc n resume).group? id = s.group? id :=
  group?_modGroup_other s r.grp id _ (fun _ => rfl) h

theorem sub?_withTrap {g : Group} {u : SubGroup} {r : SubRef} (h : g.sub? r.sub = some u) (t : TrapReq) (pc : Dword) (n : Nat)
    (resume : Bool) : (g.withTrap r t pc n resume).sub? r.sub = some { u with phase := .trapped } :=
  sub?_modSub_self _ r.sub _ u (fun _ => rfl) h

theorem sub?_withTrap_other (g : Group) {r : SubRef} {k : Nat} (h : k ≠ r.sub) (t : TrapReq) (pc : Dword) (n : Nat) (resume : Bool) :
    (g.withTrap r t pc n resume).sub? k = g.sub? k := sub?_modSub_other _ r.sub k _ (fun _ => rfl) h

/-- A trap after an instruction of these ports changes nothing that PortFrame does not name. -/
theorem PortFrame.trapped {g : Group} {u : SubGroup} {words : Nat} (h : PortFrame c words g u) (t : TrapReq) (pc : Dword) (n : Nat)
    (resume : Bool) : PortFrame c words (g.withTrap c.r t pc n resume) { u with phase := .trapped } where
  pc := h.pc
  done := h.done
  keptGroup := by rw [h.keptGroup]; rfl
  keptSub := by rw [h.keptSub]
  keptSubs k hk := (sub?_withTrap_other g hk t pc n resume).trans (h.keptSubs k hk)
  live := .inr rfl
  keptTrap hp := nomatch hp

/-- A ready instruction whose effect stays in its group completes. -/
theorem portCompletes_of_owns {i : Instr} {words : Nat} {x : Ext} {f : Form} {eff : Cx → State → Res} (hr : Ready s c x f)
    (hi : exec i s = s.issueAlu words x f eff) (ho : c.Owns s.tick (eff c s.tick)) : PortCompletes s i c words := by
  obtain ⟨hg, -, -⟩ := issuer_some s c hr.issuer
  obtain ⟨F, tr, u, hid, hres, hsub, hown⟩ := ho
  have hexec := hi.trans (issueExt_ready s c words x f _ eff _ hr rfl)
  rw [hres] at hexec
  -- the group once the instruction has retired
  have hself : ((s.tick.modGroup c.r.grp F).retire c.r words).group? c.r.grp = some ((F c.g).behind c.r.sub words (s.stamp + 1)) :=
    group?_modGroup_self _ c.r.grp _ (F c.g) (fun _ => rfl) (group?_modGroup_self _ _ F _ hid hg)
  have hothers : ∀ id, id ≠ c.r.grp → ((s.tick.modGroup c.r.grp F).retire c.r words).group? id = s.group? id := fun id hne =>
    (group?_modGroup_other _ c.r.grp id (Group.behind c.r.sub words (s.stamp + 1)) (fun _ => rfl) hne).trans (group?_modGroup_other s.tick c.r.grp id F hid hne)
  have hu : ((F c.g).behind c.r.sub words (s.stamp + 1)).sub? c.r.sub = some (u.behind words (s.stamp + 1)) :=
    sub?_modSub_self _ _ _ u (fun _ => rfl) hsub
  have hframe := hown.portFrame (issuer_running s c hr.issuer) words (s.stamp + 1)
  cases tr with
  | none => exact ⟨_, _, _, hexec, rfl, byteAt_of_rest rfl, hothers, hself, hu, hframe, fun _ => rfl⟩
  | some t =>
    have hrest := takeTrap_rest ((s.tick.modGroup c.r.grp F).retire c.r words) s (s.stamp + 1) c.g c.r t c.u.pc c.u.ndone true rfl
    exact ⟨_, _, _, hexec, hrest, byteAt_of_rest hrest,
      fun id hne => (group?_takeTrap_other _ _ hne t _ _ _).trans (hothers id hne), group?_takeTrap_self hself t _ _ _,
      sub?_withTrap hu t _ _ _, hframe.trapped t _ _ _, fun hp => nomatch hp⟩

/-- How the effect of an instruction of these ports comes about. -/
inductive PortEffect (x : Ext) (f : Form) (eff : Cx → State → Res) : Prop where
  /-- Values into D. -/
  | value {w v u n : Bool} (dest : f.dest = .reg w v u n) (wide : Bool)
      (h : ∀ c s, ∃ val, eff c s = c.result s x wide val)
  /-- Values into D, and a predicate of each (R165 06_integer.md). -/
  | carry {w v u n : Bool} (dest : f.dest = .reg w v u n) (op : Int → Int → Int → Int) (out : Int → Bool) (h : eff = effCarry x op out)
  /-- A predicate. -/
  | judge (k : Nat) (hk : k < 16) (h : ∀ c s, ∃ val, eff c s = c.predResult s k x.p val)
  /-- Masks or flags, and perhaps a trap. -/
  | masks (F : Cx → Group → Group) (hF : ∀ c g, ∃ P E m, F c g = { g with preds := P, exm := E, fpsr := m }) (tr : Cx → Option TrapReq)
      (h : ∀ c s, eff c s = resOf (s.modGroup c.r.grp (F c)) (tr c))
  /-- A register of the sequencer. -/
  | register (F : Cx → SubGroup → SubGroup) (hF : ∀ c u, ∃ m l p, F c u = { u with mmk := m, lpr := l, fpcr := p })
      (h : ∀ c s, eff c s = .done (s.modSub c.r (F c)))

theorem PortEffect.owns {x : Ext} {f : Form} {eff : Cx → State → Res} (h : PortEffect x f eff) (hr : Ready s c x f) :
    c.Owns s.tick (eff c s.tick) := by
  cases h with
  | value dest wide h =>
    obtain ⟨val, h⟩ := h c s.tick
    rw [h]; exact owns_result hr.issuer hr.encoding dest wide _
  | carry dest op out h =>
    obtain ⟨val, l, heq⟩ := effCarry_eq x op out c s.tick
    rw [h, heq]
    exact (owns_result hr.issuer hr.encoding dest x.ty.wide val).putPred _ l
  | judge k hk h =>
    obtain ⟨val, h⟩ := h c s.tick
    rw [h]; exact owns_predResult hr.issuer k hk x.p _
  | masks F hF tr h => rw [h]; exact owns_modGroup hr.issuer (F c) (hF c) _
  | register F hF h => rw [h]; exact owns_modSub hr.issuer (F c) (hF c)

section
variable {x : Ext} {f : Form} {w v u n : Bool} (hd : f.dest = .reg w v u n)
include hd

theorem portEffect_bits (op : Dword → Dword → Dword) : PortEffect x f (effBits x op) := .value hd _ fun _ _ => ⟨_, rfl⟩
theorem portEffect_shift (op : Nat → Nat → Nat → Int) : PortEffect x f (effShift x op) := .value hd _ fun _ _ => ⟨_, rfl⟩
theorem portEffect_count (op : Nat → Nat → Nat) : PortEffect x f (effCount x op) := .value hd _ fun _ _ => ⟨_, rfl⟩
theorem portEffect_flt1 (op : Fmt → FpEnv → Ex → Nat × Flags) : PortEffect x f (effFlt1 x op) := .value hd _ fun _ _ => ⟨_, rfl⟩
theorem portEffect_flt2 (op : Fmt → FpEnv → Ex → Ex → Nat × Flags) : PortEffect x f (effFlt2 x op) := .value hd _ fun _ _ => ⟨_, rfl⟩
theorem portEffect_packed (op : Fmt → FpEnv → Ex → Ex → Ex → Nat × Flags) : PortEffect x f (effPacked x op) :=
  .value hd _ fun _ _ => ⟨_, rfl⟩
theorem portEffect_select (view : View) : PortEffect x f (effSelect x view) := .value hd _ fun _ _ => ⟨_, rfl⟩
theorem portEffect_fn (k : FnName) : PortEffect x f (effFn k x) := portEffect_flt1 hd _

end

/-- PMOV: a predicate, or with SUB 2 a value (R120 04_sequencer.md). -/
theorem portEffect_pmov (x : Ext) : PortEffect x (formPmov x) (effPmov x) := by
  by_cases h : x.sub = 2
  · refine .value (w := false) (v := true) (u := false) (n := true) ?_ false fun c s => ?_
    · simp only [formPmov, h]
    · unfold effPmov
      rw [h]
      exact ⟨_, rfl⟩
  · refine .judge (pdOf x) (Nat.mod_lt _ (by decide)) fun c s => ?_
    unfold effPmov
    split
    case h_2 h2 => exact absurd h2 h
    all_goals exact ⟨_, rfl⟩

theorem modGroup_id (s : State) (id : Nat) : (s.modGroup id fun g => g) = s := by simp [State.modGroup]

/-- The trap that TRAP takes after itself: none without an active thread (R130 04_sequencer.md). -/
def trapAfter (x : Ext) (c : Cx) : Option TrapReq :=
  match c.threads x.p with
  | [] => none
  | t :: ts => some { cause := 0x0B, code := bits x.w1 31 16, msk := t :: ts }

theorem portEffect_trap (x : Ext) : PortEffect x formTrap (effTrap x) := by
  refine .masks (fun _ g => g) (fun _ g => ⟨g.preds, g.exm, g.fpsr, rfl⟩) (trapAfter x) fun c s => ?_
  rw [modGroup_id]
  unfold effTrap trapAfter
  cases c.threads x.p <;> rfl

/-- SRWR: FPSR of the active threads, or FPCR (R123 04_sequencer.md). -/
theorem portEffect_srwr (x : Ext) : PortEffect x (formSrwr x) (effSrwr x) := by
  by_cases h : srnOf x = 1
  · exact .masks (fun c g => g.setFpsr (c.threads x.p) fun t _ => BitVec.ofNat 5 (c.plain x .A false .int t).toNat)
      (fun _ g => ⟨g.preds, g.exm, _, rfl⟩) (fun _ => none) fun _ _ => if_pos h
  · exact .register (fun c u => { u with fpcr := fpcrOf (c.once x) }) (fun _ u => ⟨u.mmk, u.lpr, _, rfl⟩) fun _ _ => if_neg h

/-- Every instruction of these ports issues with its entry's checks alone, and its effect is one of the five. -/
theorem portForm_effect {i : Instr} {words : Nat} {x : Ext} {f : Form} (h : portForm i = some (words, x, f)) :
    ∃ eff, (∀ s, exec i s = s.issueAlu words x f eff) ∧ PortEffect x f eff := by
  cases i with (cases h <;> (delta exec; dsimp only))
  | exmrd x | mmkrd x | lprrd x | pcnt x | srrd x | clkrd x | ballot x | treduce x | tscan x | iadd x | iaddBase b | isub x | isubBase b
  | iadd3 x | imul x | imulBase b | imulh x | imad x | imadw x | idiv x | irem x | imin x | iminBase b | imax x | imaxBase b | iabs x
  | iabsBase b | ineg x | inegBase b | isat x | not x | notBase b | bfx x | bfi x | brev x | brevBase b | mov x | movBase b | movi x
  | lea x | idot4 x | cvti x | cvtf x | cvtfi x | cvtif x | unpackn x | qcomp x | qexp x | ffma x | fabs x | fabsBase b | fneg x
  | fnegBase b | fcpsgn x | fcpsgnBase b | fclass x | fscale x | hdot2 x | hmix x =>
    exact ⟨_, fun _ => rfl, .value rfl _ fun _ _ => ⟨_, rfl⟩⟩
  | and x | andBase b | or x | orBase b | xor x | xorBase b | andn x | andnBase b =>
    exact ⟨_, fun _ => rfl, portEffect_bits rfl _⟩
  | shl x | shlBase b | shr x | shrBase b | sar x | sarBase b | rotl x | rotlBase b =>
    exact ⟨_, fun _ => rfl, portEffect_shift rfl _⟩
  | popc x | popcBase b | clz x | clzBase b | ctz x | ctzBase b =>
    exact ⟨_, fun _ => rfl, portEffect_count rfl _⟩
  | isel x | fsel x =>
    exact ⟨_, fun _ => rfl, portEffect_select rfl _⟩
  | fadd x | faddBase b | fsub x | fsubBase b | fmul x | fmulBase b | fmin x | fminBase b | fmax x | fmaxBase b | fminm x | fminmBase b
  | fmaxm x | fmaxmBase b | fdiv x | frem x =>
    exact ⟨_, fun _ => rfl, portEffect_flt2 rfl _⟩
  | fsqrt x | fsqrtBase b | frcp x | frcpBase b | frsq x | frsqBase b | frint x | fgexp x | fgexpBase b | fgmant x =>
    exact ⟨_, fun _ => rfl, portEffect_flt1 rfl _⟩
  | hadd2 x | hadd2Base b | hmul2 x | hmul2Base b | hfma2 x =>
    exact ⟨_, fun _ => rfl, portEffect_packed rfl _⟩
  | fexp x | fexpBase b | fexp2 x | fexp2Base b | fexpm1 x | fexpm1Base b | flog x | flogBase b | flog2 x | flog2Base b | flog1p x
  | flog1pBase b | ferf x | ferfBase b | ferfc x | ferfcBase b | fsinpi x | fsinpiBase b | fcospi x | fcospiBase b | ftanh x | ftanhBase b
  | fcbrt x | fcbrtBase b =>
    exact ⟨_, fun _ => rfl, portEffect_fn rfl _⟩
  | pand x | por x | pxor x | pnot x | pandn x | pfirst x | vote x | isetp x | fsetp x | dropm x =>
    exact ⟨_, fun _ => rfl, .judge _ (Nat.mod_lt _ (by decide)) fun _ _ => ⟨_, rfl⟩⟩
  | iaddc x | isubb x =>
    exact ⟨_, fun _ => rfl, .carry rfl _ _ rfl⟩
  | flgrd x =>
    exact ⟨_, fun _ => rfl, .value rfl _ fun _ _ => by unfold effFlgrd; exact ⟨_, rfl⟩⟩
  | idrd x =>
    exact ⟨_, fun _ => rfl, .value rfl _ fun _ _ => by unfold effIdrd; exact ⟨_, rfl⟩⟩
  | rand x =>
    exact ⟨_, fun _ => rfl, .value rfl _ fun _ _ => by unfold effRand; exact ⟨_, rfl⟩⟩
  | pmov x =>
    exact ⟨_, fun _ => rfl, portEffect_pmov x⟩
  | exmwr x =>
    exact ⟨_, fun _ => rfl, .masks _ (fun _ g => ⟨g.preds, _, g.fpsr, rfl⟩) (fun _ => none) fun _ _ => rfl⟩
  | flgclr x =>
    exact ⟨_, fun _ => rfl, .masks _ (fun _ g => ⟨g.preds, g.exm, _, rfl⟩) (fun _ => none) fun _ _ => rfl⟩
  | nop x =>
    exact ⟨_, fun _ => rfl, .masks (fun _ g => g) (fun _ g => ⟨g.preds, g.exm, g.fpsr, rfl⟩) (fun _ => none) fun c s =>
      congrArg Res.done (modGroup_id s c.r.grp).symm⟩
  | trap x =>
    exact ⟨_, fun _ => rfl, portEffect_trap x⟩
  | mmkwr x =>
    exact ⟨_, fun _ => rfl, .register _ (fun _ u => ⟨_, u.lpr, u.fpcr, rfl⟩) fun _ _ => rfl⟩
  | lprwr x =>
    exact ⟨_, fun _ => rfl, .register _ (fun _ u => ⟨u.mmk, _, u.fpcr, rfl⟩) fun _ _ => rfl⟩
  | fpmode x =>
    exact ⟨_, fun _ => rfl, .register _ (fun _ u => ⟨u.mmk, u.lpr, _, rfl⟩) fun _ _ => rfl⟩
  | srwr x =>
    exact ⟨_, fun _ => rfl, portEffect_srwr x⟩

end

/-- Settles O13: the effect of every instruction of these ports is one of five, and each stays in its group. -/
theorem portInstructionsComplete : Obligations.PortInstructionsComplete := by
  unfold Obligations.PortInstructionsComplete
  intro s i c words x f hi hr
  obtain ⟨eff, hexec, heff⟩ := portForm_effect hi
  exact portCompletes_of_owns hr (hexec s) (heff.owns hr)

end Machine
end Sys2Proof
end

section
namespace Sys2Proof
namespace Machine

/-! ### What an event about one sub-group leaves -/

theorem group_id {s : State} {g : Group} {id : Nat} (h : s.group? id = some g) : g.id = id :=
  key_of_find? s.groups (fun g => g.id) id g h

theorem group_mem {s : State} {g : Group} {id : Nat} (h : s.group? id = some g) : g ∈ s.groups := List.mem_of_find?_eq_some h

theorem argSub_sub {s : State} {r : SubRef} {g : Group} {u : SubGroup} (harg : s.arg = .sub r) (hg : s.group? r.grp = some g)
    (hu : g.sub? r.sub = some u) : s.argSub = some (g, u, r) := by
  simp [State.argSub, harg, hg, hu]

/-- A group that compares its L1 fills with another epoch (R249 10_loadstore.md). -/
def Group.atEpoch (e : Nat) (g : Group) : Group := { g with gepoch := e }

/-- The groups of `t` are those of `s`, each at some epoch. -/
def SameButEpochs (s t : State) : Prop := ∃ E : Group → Nat, t.groups = s.groups.map fun g => g.atEpoch (E g)

theorem SameButEpochs.of_eq {s t : State} (h : t.groups = s.groups) : SameButEpochs s t := ⟨fun g => g.gepoch, by simp [h, Group.atEpoch]⟩

theorem SameButEpochs.group? {s t : State} (h : SameButEpochs s t) {id : Nat} {g : Group} (hg : s.group? id = some g) :
    ∃ e, t.group? id = some (g.atEpoch e) := by
  obtain ⟨E, hE⟩ := h
  refine ⟨E g, ?_⟩
  unfold State.group? at hg ⊢
  rw [hE, find?_map_of_key s.groups (fun g => g.id) (fun g => g.atEpoch (E g)) id fun _ => rfl, hg]
  rfl

/-- An incoming edge changes epochs and clean lines only (R249). -/
theorem incoming_sameButEpochs (s : State) (grp core : Nat) : SameButEpochs s (s.incoming grp core) := by
  unfold State.incoming
  dsimp only
  split
  · refine ⟨fun g => if g.core = core then 0 else g.gepoch, List.map_congr_left fun g _ => ?_⟩
    by_cases h : g.core = core <;> simp [h, Group.atEpoch]
  · refine ⟨fun g => if g.id = grp then (s.epoch core + 1) % 2 ^ 16 else g.gepoch, List.map_congr_left fun g _ => ?_⟩
    by_cases h : g.id = grp <;> simp [h, Group.atEpoch]

@[simp] theorem incoming_mem (s : State) (grp core : Nat) : (s.incoming grp core).mem = s.mem := by
  unfold State.incoming; dsimp only; split <;> rfl
@[simp] theorem incoming_ops (s : State) (grp core : Nat) : (s.incoming grp core).ops = s.ops := by
  unfold State.incoming; dsimp only; split <;> rfl

section
variable {s k : State} {r : SubRef} {g : Group} {u : SubGroup} {i : Instr} {P : State → Group → SubGroup → Prop}

/-- A change of the group with its sub-group, from a state that differs in epochs only. -/
theorem turns_of_modGroup (hg : s.group? r.grp = some g) (hk : SameButEpochs s k) (hmem : k.mem = s.mem) (hops : k.ops = s.ops)
    {F : Group → Group} (hF : ∀ g, (F g).id = g.id) (hexec : exec i s = .next (k.modGroup r.grp F))
    (hP : ∀ e, ∃ u', (F (g.atEpoch e)).sub? r.sub = some u' ∧ P (k.modGroup r.grp F) (F (g.atEpoch e)) u') :
    Turns s i r P := by
  obtain ⟨e, he⟩ := hk.group? hg
  obtain ⟨u', hu', hp⟩ := hP e
  refine ⟨_, _, u', hexec, hmem, hops, group?_modGroup_self _ _ F _ hF he, hu', hp, fun id hne o ho => ?_⟩
  obtain ⟨e', he'⟩ := hk.group? ho
  exact ⟨_, (group?_modGroup_other _ _ _ F hF hne).trans he', rfl⟩

theorem group?_modSub_self (hg : s.group? r.grp = some g) (f : SubGroup → SubGroup) :
    (s.modSub r f).group? r.grp = some (g.modSub r.sub f) := group?_modGroup_self s _ _ g (fun _ => rfl) hg

theorem group?_modSub_other (s : State) (f : SubGroup → SubGroup) {id : Nat} (h : id ≠ r.grp) : (s.modSub r f).group? id = s.group? id :=
  group?_modGroup_other s _ id _ (fun _ => rfl) h

/-- A change of the sub-group alone. -/
theorem turns_of_modSub (hg : s.group? r.grp = some g) (hu : g.sub? r.sub = some u) {f : SubGroup → SubGroup} (hf : ∀ u, (f u).num = u.num)
    (hexec : exec i s = .next (s.tick.modSub r f)) (hP : P (s.tick.modSub r f) (g.modSub r.sub f) (f u)) : Turns s i r P :=
  ⟨_, _, _, hexec, rfl, rfl, group?_modSub_self (s := s.tick) hg f, sub?_modSub_self _ _ f _ hf hu, hP,
    fun _ hne o ho => ⟨o, (group?_modSub_other s.tick f hne).trans ho, rfl⟩⟩

/-- A trap of the sub-group, from a state with the same groups. -/
theorem turns_of_trap {g' : Group} {g₀ : Group} {t : TrapReq} {pc : Dword} {n : Nat} {b : Bool} (hexec : exec i s = .next (k.takeTrap g₀ r t pc n b))
    (hmem : k.mem = s.mem) (hops : k.ops = s.ops) (hself : k.group? r.grp = some g')
    (hothers : ∀ id, id ≠ r.grp → k.group? id = s.group? id) (hu : g'.sub? r.sub = some u)
    (hP : P (k.takeTrap g₀ r t pc n b) (g'.withTrap r t pc n b) { u with phase := .trapped }) : Turns s i r P :=
  ⟨_, _, _, hexec, hmem, hops, group?_takeTrap_self hself t pc n b, sub?_withTrap hu t pc n b, hP,
    fun id hne o ho => ⟨o, ((group?_takeTrap_other k g₀ hne t pc n b).trans (hothers id hne)).trans ho, rfl⟩⟩

end

/-! ### What TRAPINFO holds (R135 04_sequencer.md) -/

theorem trapInfo_toNat (t : TrapReq) (sub n : Nat) (resume : Bool) :
    ∃ q, (trapInfo t sub n resume).toNat = (t.cause + 2 ^ 8 * t.detail + 2 ^ 16 * q) % 2 ^ 64 :=
  ⟨n + (if resume then 2 ^ 5 else 0) + sub * 2 ^ 8 + t.code * 2 ^ 16, by
    unfold trapInfo
    rw [BitVec.toNat_ofNat]
    cases resume <;> simp <;> omega⟩

theorem trapInfo_cause (t : TrapReq) (sub n : Nat) (resume : Bool) (h : t.cause < 2 ^ 8) : bits (trapInfo t sub n resume) 7 0 = t.cause := by
  obtain ⟨q, hq⟩ := trapInfo_toNat t sub n resume
  rw [bits, hq, Nat.shiftRight_eq_div_pow]
  omega

theorem trapInfo_detail (t : TrapReq) (sub n : Nat) (resume : Bool) (h : t.cause < 2 ^ 8) :
    bits (trapInfo t sub n resume) 15 8 = t.detail % 2 ^ 8 := by
  obtain ⟨q, hq⟩ := trapInfo_toNat t sub n resume
  rw [bits, hq, Nat.shiftRight_eq_div_pow]
  omega

/-! ### Barriers -/

/-- A participant of a barrier once it is released (R128 04_sequencer.md). -/
def Group.released (l : Launch) (dom h : Nat) (o : Group) : Group :=
  { o with horizon := max o.horizon h, subs := o.subs.map fun u => if l.atBar dom u then { u with phase := .running } else u }

/-- The largest horizon among the participants. -/
def maxHorizon (unit : List Group) : Nat := unit.foldl (fun h o => max h o.horizon) 0

/-- The release of one participant. -/
def State.releaseAt (l : Launch) (dom h : Nat) (s : State) (o : Group) : State :=
  (s.incoming o.id o.core).modGroup o.id (Group.released l dom h)

@[simp] theorem atBar_running (l : Launch) (dom : Nat) (u : SubGroup) : l.atBar dom { u with phase := .running } = false := rfl
@[simp] theorem released_id (l : Launch) (dom h : Nat) (o : Group) : (o.released l dom h).id = o.id := rfl
@[simp] theorem atEpoch_id (e : Nat) (o : Group) : (o.atEpoch e).id = o.id := rfl
@[simp] theorem atEpoch_atEpoch (e e' : Nat) (o : Group) : (o.atEpoch e).atEpoch e' = o.atEpoch e' := rfl
@[simp] theorem released_atEpoch (l : Launch) (dom h e : Nat) (o : Group) : (o.atEpoch e).released l dom h = (o.released l dom h).atEpoch e := rfl

@[simp] theorem released_released (l : Launch) (dom h : Nat) (o : Group) : (o.released l dom h).released l dom h = o.released l dom h := by
  unfold Group.released
  simp only [List.map_map, Nat.max_assoc, Nat.max_self]
  congr 1
  refine List.map_congr_left fun u _ => ?_
  by_cases hu : l.atBar dom u = true <;> simp [hu]

theorem mem_incoming {s : State} {x : Group} (h : x ∈ s.groups) (grp core : Nat) : ∃ e, x.atEpoch e ∈ (s.incoming grp core).groups := by
  obtain ⟨E, hE⟩ := incoming_sameButEpochs s grp core
  exact ⟨E x, hE ▸ List.mem_map_of_mem h⟩

theorem mem_modGroup {s : State} {x : Group} (h : x ∈ s.groups) (id : Nat) (f : Group → Group) :
    (if x.id = id then f x else x) ∈ (s.modGroup id f).groups := List.mem_map_of_mem (f := fun g => if g.id = id then f g else g) h

/-- Each group with the number of a participant is released, however often that number occurs; every other stays. -/
theorem mem_releaseAll (l : Launch) (dom h : Nat) (unit : List Group) (s : State) (x : Group) (hx : x ∈ s.groups) :
    ∃ e, (if x.id ∈ unit.map fun o => o.id then x.released l dom h else x).atEpoch e ∈ (unit.foldl (State.releaseAt l dom h) s).groups := by
  induction unit generalizing s x with
  | nil => exact ⟨x.gepoch, by simpa [Group.atEpoch] using hx⟩
  | cons o unit ih =>
    obtain ⟨e, he⟩ := mem_incoming hx o.id o.core
    have hstep := mem_modGroup he o.id (Group.released l dom h)
    obtain ⟨e', he'⟩ := ih _ _ hstep
    refine ⟨e', ?_⟩
    rw [List.foldl_cons]
    refine Eq.subst ?_ he'
    by_cases h1 : x.id = o.id
    · by_cases h2 : ∃ a ∈ unit, a.id = o.id <;> simp [h1, h2]
    · by_cases h2 : ∃ a ∈ unit, a.id = x.id <;> simp [h1, h2]

/-- A maximum over a list lies above each of its values, and above the start. -/
theorem le_foldl_max {α : Type} (f : α → Nat) (l : List α) (b : Nat) :
    b ≤ l.foldl (fun h a => max h (f a)) b ∧ ∀ a ∈ l, f a ≤ l.foldl (fun h a => max h (f a)) b := by
  induction l generalizing b with
  | nil => simp
  | cons a l ih =>
    obtain ⟨h1, h2⟩ := ih (max b (f a))
    refine ⟨Nat.le_trans (Nat.le_max_left _ _) h1, fun c hc => ?_⟩
    rcases List.mem_cons.mp hc with rfl | hc
    · exact Nat.le_trans (Nat.le_max_right _ _) h1
    · exact h2 c hc

/-! ### What writes of an engine leave of the groups -/

/-- A sub-group whose monitor has recorded something else. -/
def SubGroup.monitoring (m : Option Monitor) (u : SubGroup) : SubGroup := { u with monitor := m }
/-- A group whose monitors have recorded something else. -/
def Group.monitoring (M : SubGroup → Option Monitor) (g : Group) : Group := { g with subs := g.subs.map fun u => u.monitoring (M u) }

/-- The groups of `t` are those of `s`, but that wake events may have been recorded (R271 11_atomics.md). -/
def OnlyWakes (s t : State) : Prop := ∃ M, t.groups = s.groups.map (Group.monitoring M)

theorem OnlyWakes.of_eq {s t : State} (h : t.groups = s.groups) : OnlyWakes s t := by
  refine ⟨fun u => u.monitor, ?_⟩
  have : ∀ g : Group, g.monitoring (fun u => u.monitor) = g := fun g => by simp [Group.monitoring, SubGroup.monitoring]
  rw [h, show Group.monitoring (fun u => u.monitor) = id from funext this, List.map_id]

theorem OnlyWakes.trans {s t k : State} (h : OnlyWakes s t) (h' : OnlyWakes t k) : OnlyWakes s k := by
  obtain ⟨M, hM⟩ := h
  obtain ⟨N, hN⟩ := h'
  refine ⟨fun u => N (u.monitoring (M u)), ?_⟩
  rw [hN, hM, List.map_map]
  refine List.map_congr_left fun g _ => ?_
  simp only [Group.monitoring, Function.comp_apply, List.map_map]
  rfl

theorem OnlyWakes.group? {s t : State} (h : OnlyWakes s t) {id : Nat} {g : Group} (hg : s.group? id = some g) :
    ∃ M, t.group? id = some (g.monitoring M) := by
  obtain ⟨M, hM⟩ := h
  refine ⟨M, ?_⟩
  unfold State.group? at hg ⊢
  rw [hM, find?_map_of_key s.groups (fun g => g.id) (Group.monitoring M) id fun _ => rfl, hg]
  rfl

theorem sub?_monitoring {g : Group} {u : SubGroup} {n : Nat} (h : g.sub? n = some u) (M : SubGroup → Option Monitor) :
    (g.monitoring M).sub? n = some (u.monitoring (M u)) := by
  unfold Group.sub? at h ⊢
  exact (find?_map_of_key g.subs (fun u => u.num) (fun u => u.monitoring (M u)) n fun _ => rfl).trans (by rw [h]; rfl)

@[simp] theorem event_groups (s : State) (t d a : Nat) : (s.event t d a).groups = s.groups := by
  unfold State.event; dsimp only; split
  · rfl
  · split <;> rfl
@[simp] theorem event_ops (s : State) (t d a : Nat) : (s.event t d a).ops = s.ops := by
  unfold State.event; dsimp only; split
  · rfl
  · split <;> rfl
@[simp] theorem foundFailing_groups (s : State) (n : Nat) : (s.foundFailing n).groups = s.groups := by
  unfold State.foundFailing; dsimp only; split
  · simp
  · rfl
@[simp] theorem foundFailing_ops (s : State) (n : Nat) : (s.foundFailing n).ops = s.ops := by
  unfold State.foundFailing; dsimp only; split
  · simp
  · rfl
@[simp] theorem noteFault_groups (s : State) (t : TrapReq) : (s.noteFault t).groups = s.groups := by
  unfold State.noteFault; split <;> simp
@[simp] theorem noteFault_ops (s : State) (t : TrapReq) : (s.noteFault t).ops = s.ops := by
  unfold State.noteFault; split <;> simp
@[simp] theorem noteFault_mem (s : State) (t : TrapReq) : (s.noteFault t).mem = s.mem := by
  unfold State.noteFault; split <;> simp

theorem wake_onlyWakes (s : State) (hit : Monitor → Bool) (reason : Nat) : OnlyWakes s (s.wake hit reason) := by
  refine ⟨fun u => u.monitor.map fun m => if !m.pending && hit m then { m with wakes := m.wakes ++ [reason] } else m, ?_⟩
  refine List.map_congr_left fun g _ => ?_
  simp only [Group.monitoring]
  congr 1
  refine List.map_congr_left fun u _ => ?_
  have hsame : u.monitoring u.monitor = u := rfl
  cases hm : u.monitor with
  | none => exact (hm ▸ hsame).symm
  | some m => by_cases h : (!m.pending && hit m) = true
              · simp only [Option.map_some, if_pos h]; rfl
              · simp only [Option.map_some, if_neg h]; exact (hm ▸ hsame).symm

theorem mergeHome_onlyWakes (s : State) (line die : Nat) (b : SMap Byte) (p : Bool) : OnlyWakes s (s.mergeHome line die b p) := by
  unfold State.mergeHome State.wakeLine
  dsimp only
  refine .trans (.of_eq ?_) (wake_onlyWakes _ _ _)
  split <;> simp [State.putBytes]

/-- A write without owners raises no horizon (R268 11_atomics.md). -/
theorem publish_onlyWakes (s : State) (line die : Nat) (waiters : List Nat) (id : Nat) : OnlyWakes s (s.publish line die [] waiters id) :=
  .of_eq (by simp [State.publish, State.performedFor])

theorem writeHome_onlyWakes (s : State) (die : Nat) (l : List (Nat × Byte)) : OnlyWakes s (s.writeHome die [] l) := by
  unfold State.writeHome
  exact foldl_keeps (OnlyWakes s) _ _ s (.of_eq rfl) fun t p ht =>
    ht.trans ((mergeHome_onlyWakes t.fresh.2 _ _ _ _).trans (publish_onlyWakes _ _ _ _ _))

theorem engineWrite_onlyWakes (s : State) (l : Launch) (die va : Nat) (b : List Byte) : OnlyWakes s (s.engineWrite l die [] va b) := by
  unfold State.engineWrite
  split
  · exact .of_eq rfl
  · exact writeHome_onlyWakes _ _ _

/-! ### Waits for children -/

/-- A write of a count in an await record raises no horizon. -/
theorem setCount_onlyWakes (s : State) (l : Launch) (die awr t off v : Nat) : OnlyWakes s (s.setCount l die awr t off v) :=
  engineWrite_onlyWakes s l die _ _

/-- The completions that a wait takes are struck from the await record. -/
def State.takeReports (s : State) (l : Launch) (g : Group) (act : List Nat) : State :=
  match g.awr with
  | some k => act.foldl (fun (t' : State) m => if t'.unreported l (some k) m = 0 then t' else t'.setCount l (dieOf g.core) k m 512 0) s
  | none => s

theorem takeReports_onlyWakes (s : State) (l : Launch) (g : Group) (act : List Nat) : OnlyWakes s (s.takeReports l g act) := by
  unfold State.takeReports
  split
  · refine foldl_keeps (OnlyWakes s) _ act s (.of_eq rfl) fun t m ht => ?_
    split
    · exact ht
    · exact ht.trans (setCount_onlyWakes ..)
  · exact .of_eq rfl

/-- The group once its wait has taken the completions of some threads. -/
def Group.reportsTaken (h : Nat) (act : List Nat) (g : Group) : Group :=
  { g with horizon := max g.horizon h, reports := g.reports.filter fun k => !act.contains k.1 }
/-- A yielded group once it is ready. -/
def Group.madeReady (rank : Nat) (g : Group) : Group := { g with place := .ready, rank := rank }
/-- The group once the error of its await record has been taken. -/
def Group.clearAwrBad (g : Group) : Group := { g with awrBad := false }

theorem awaitMet_iff {s : State} {l : Launch} {g : Group} {n : Nat} {act : List Nat} :
    s.awaitMet l g n act = true ↔ ∀ t ∈ act, s.outstanding l g.awr t ≤ n := by
  simp [State.awaitMet]

/-! ### The ends of the simple waits -/

theorem SMap.has_erase {α : Type} (m : SMap α) (k j : Nat) : SMap.has (SMap.erase m k) j = (decide (k ≠ j) && SMap.has m j) := by
  induction m with
  | nil => simp [SMap.erase, SMap.has]
  | cons p m ih =>
    obtain ⟨k', v⟩ := p
    simp only [SMap.erase]
    by_cases h : k' = k
    · subst h
      by_cases hj : k' = j
      · simpa [hj] using ih
      · have hb : (k' == j) = false := by simpa using hj
        simpa [SMap.has, hj, hb] using ih
    · by_cases hj : k' = j
      · subst hj
        simp [SMap.has, h, Ne.symm h]
      · have hb : (k' == j) = false := by simpa using hj
        simp [SMap.has, ih, h, hb]

/-- The end of an MWAIT: its reason in the uniform register that it names (R272 11_atomics.md). -/
theorem endMwait_spec (u : SubGroup) (dest : Option Nat) (reason : Nat) :
    (∃ R M, u.endMwait dest reason = { u with phase := .running, monitor := none, uregs := R, umarks := M }) ∧
    ∀ n, (u.endMwait dest reason).ureg n = (if dest = some n then BitVec.ofNat 32 reason else u.ureg n) ∧
      (u.endMwait dest reason).umarks.has n = (decide (dest ≠ some n) && u.umarks.has n) := by
  cases dest with
  | none => exact ⟨⟨u.uregs, u.umarks, rfl⟩, fun n => ⟨rfl, by simp [SubGroup.endMwait]⟩⟩
  | some d =>
    refine ⟨⟨_, _, rfl⟩, fun n => ⟨?_, ?_⟩⟩
    · simp only [SubGroup.endMwait, SubGroup.putU, SubGroup.ureg, SMap.get_set, Option.some.injEq, eq_comm]
    · simp only [SubGroup.endMwait, SubGroup.putU, SMap.has_erase, ne_eq, Option.some.injEq]

/-- Does a WAITC cover an operation on CP or MX (R249 10_loadstore.md)? -/
theorem engineUncovered {l : List Nat} : (l.any fun k => k == 2 || k == 3) = true ↔ 2 ∈ l ∨ 3 ∈ l := by
  simp only [List.any_eq_true, Bool.or_eq_true, beq_iff_eq]
  constructor
  · rintro ⟨k, hk, rfl | rfl⟩
    · exact .inl hk
    · exact .inr hk
  · rintro (h | h)
    · exact ⟨2, h, .inl rfl⟩
    · exact ⟨3, h, .inr rfl⟩

/-- The condition of a WAITC is met: its counters have come down, and what it covers of CP and MX is visible (R34 01_machine.md, R249). -/
abbrev State.waitcMet (s : State) (g : Group) (ld st cp mx : Nat) : Prop :=
  g.ld ≤ ld ∧ g.st ≤ st ∧ g.cp ≤ cp ∧ g.mx ≤ mx ∧ ((g.uncovered.any fun k => k == 2 || k == 3) = true → s.clear g.horizon = true)

/-- The group without the deferred fault of an operation. -/
def Group.dropDeferred (op : Nat) (g : Group) : Group := { g with deferred := g.deferred.filter fun o => !(o.op == op) }

/-- The group once its WAITC has returned. -/
def Group.waitcReturned (n : Nat) (g : Group) : Group :=
  { g with uncovered := [] }.modSub n fun u => { u with phase := .running, pc := u.pc + 12, ndone := u.ndone + 1, yielded := false }

theorem waitcReturned_eq (s : State) (r : SubRef) :
    ((s.modGroup r.grp fun g => { g with uncovered := [] }).modSub r fun u => { u with phase := .running }).advance r waitcWords =
      s.modGroup r.grp (Group.waitcReturned r.sub) := by
  unfold State.advance State.modSub
  rw [modGroup_modGroup, modGroup_modGroup]
  · refine congrArg (s.modGroup r.grp) (funext fun g => ?_)
    simp only [Group.waitcReturned, Group.modSub, List.map_map]
    congr 1
    refine List.map_congr_left fun u _ => ?_
    by_cases h : u.num = r.sub <;> simp [h, waitcWords]
  all_goals exact fun _ => rfl

section
variable {s : State} {r : SubRef} {g : Group} {u : SubGroup} (harg : s.arg = .sub r) (hg : s.group? r.grp = some g)
  (hu : g.sub? r.sub = some u)
include harg hg hu

theorem counterStallRelease_turns {k : Nat} (hp : u.phase = .counterStall k) (hk : g.counter k ≤ 62) :
    Turns s .counterStallRelease r fun t _ u' => u' = { u with phase := .running } ∧ t = { s with groups := t.groups, stamp := s.stamp + 1 } := by
  refine turns_of_modSub hg hu (f := fun u => { u with phase := .running }) (fun _ => rfl) ?_ ⟨rfl, rfl⟩
  show execCounterStallRelease s = _
  simp only [execCounterStallRelease, argSub_sub harg hg hu, hp, hk, if_true]

theorem sleepExpire_turns {wake : Nat} (hp : u.phase = .sleep wake) (hw : wake ≤ s.time) :
    Turns s .sleepExpire r fun t _ u' => u' = { u with phase := .running } ∧ t = { s with groups := t.groups, stamp := s.stamp + 1 } := by
  refine turns_of_modSub hg hu (f := fun u => { u with phase := .running }) (fun _ => rfl) ?_ ⟨rfl, rfl⟩
  show execSleepExpire s = _
  simp only [execSleepExpire, argSub_sub harg hg hu, hp, hw, if_true]

theorem otherCauseWakeEvent_turns {m : Monitor} (hm : u.monitor = some m) (hp : m.pending = false) :
    Turns s .otherCauseWakeEvent r fun t _ u' =>
      u' = { u with monitor := some { m with wakes := m.wakes ++ [4] } } ∧ t = { s with groups := t.groups, stamp := s.stamp + 1 } := by
  refine turns_of_modSub hg hu (f := fun u => { u with monitor := some { m with wakes := m.wakes ++ [4] } }) (fun _ => rfl) ?_ ⟨rfl, rfl⟩
  show execOtherCauseWakeEvent s = _
  simp only [execOtherCauseWakeEvent, argSub_sub harg hg hu, hm, hp, Bool.false_eq_true, if_false]

omit harg in
theorem mwaitEnds {i : Instr} {dest : Option Nat} {reason : Nat} (hexec : exec i s = .next (s.tick.modSub r fun u => u.endMwait dest reason)) :
    Turns s i r fun t _ u' => t = { s with groups := t.groups, stamp := s.stamp + 1 } ∧
      u' = { u with phase := .running, monitor := none, uregs := u'.uregs, umarks := u'.umarks } ∧
      ∀ n, u'.ureg n = (if dest = some n then BitVec.ofNat 32 reason else u.ureg n) ∧
        u'.umarks.has n = (decide (dest ≠ some n) && u.umarks.has n) := by
  obtain ⟨⟨R, M, h⟩, hn⟩ := endMwait_spec u dest reason
  have hnum : ∀ u : SubGroup, (u.endMwait dest reason).num = u.num := fun u => by
    obtain ⟨⟨R, M, h⟩, -⟩ := endMwait_spec u dest reason
    rw [h]
  exact turns_of_modSub hg hu hnum hexec ⟨rfl, by rw [h], hn⟩

theorem mwaitWake_exec {until' dest : Option Nat} {m : Monitor} {reason : Nat} {rest : List Nat} (hp : u.phase = .mwait until' dest)
    (hm : u.monitor = some m) (hw : m.wakes = reason :: rest) :
    exec .mwaitWake s = .next (s.tick.modSub r fun u => u.endMwait dest reason) := by
  show execMwaitWake s = _
  simp only [execMwaitWake, argSub_sub harg hg hu, hp, hm, hw]

theorem mwaitTimeout_exec {d : Nat} {dest : Option Nat} {m : Monitor} (hp : u.phase = .mwait (some d) dest) (hm : u.monitor = some m)
    (hd : d ≤ s.time) (hw : m.wakes = []) : exec .mwaitTimeout s = .next (s.tick.modSub r fun u => u.endMwait dest 3) := by
  show execMwaitTimeout s = _
  simp [execMwaitTimeout, argSub_sub harg hg hu, hp, hm, hw, hd]

/-! ### WAITC_RETURN (R34 01_machine.md) -/

theorem waitcReturn_turns {ld st cp mx : Nat} (hp : u.phase = .waitc ld st cp mx) (hmet : s.waitcMet g ld st cp mx)
    (hnone : ∀ d ∈ g.deferred, d.ready = true → 4 ≤ d.counter) :
    Turns s .waitcReturn r fun _ g' u' => u' = { u with phase := .running, pc := u.pc + 12, ndone := u.ndone + 1, yielded := false } ∧
      g' = { g with uncovered := [], gepoch := g'.gepoch, subs := g'.subs } := by
  have hfind : (g.deferred.find? fun d => d.ready && decide (d.counter < 4)) = none := by
    rw [List.find?_eq_none]
    intro d hd
    have := hnone d hd
    simp only [Bool.and_eq_true, decide_eq_true_eq]
    rintro ⟨h1, h2⟩
    have := this h1
    omega
  have hexec : exec .waitcReturn s = .next ((if g.uncovered.any fun k => k == 2 || k == 3 then s.tick.incoming g.id g.core
      else s.tick).modGroup r.grp (Group.waitcReturned r.sub)) := by
    rw [← waitcReturned_eq, ← group_id hg]
    show execWaitcReturn s = _
    simp only [execWaitcReturn, argSub_sub harg hg hu, hp, if_pos hmet, hfind]
  refine turns_of_modGroup hg ?_ ?_ ?_ (F := Group.waitcReturned r.sub) (fun _ => rfl) hexec fun e => ?_
  · split
    · exact incoming_sameButEpochs s.tick _ _
    · exact .of_eq rfl
  · split <;> simp
  · split <;> simp
  · exact ⟨_, sub?_modSub_self _ _ _ u (fun _ => rfl) hu, rfl, rfl⟩

/-- A deferred fault that a WAITC covers is taken at it. -/
theorem waitcReturn_traps {ld st cp mx : Nat} (hp : u.phase = .waitc ld st cp mx) (hmet : s.waitcMet g ld st cp mx) {d : Deferred}
    (hd : (g.deferred.find? fun d => d.ready && decide (d.counter < 4)) = some d) (hcause : d.cause < 2 ^ 8) :
    Turns s .waitcReturn r fun _ g' u' => u' = { u with phase := .trapped } ∧ bits g'.trap.info 7 0 = d.cause ∧ g'.trap.pc = u.pc ∧
      ∀ e ∈ g'.deferred, e.op ≠ d.op := by
  obtain ⟨msk, hexec⟩ : ∃ msk, exec .waitcReturn s = .next ((s.tick.modGroup r.grp (Group.dropDeferred d.op)).takeTrap g r
      { cause := d.cause, detail := d.detail, addr := d.addr, msk := msk } u.pc u.ndone false) := by
    rw [← group_id hg]
    show ∃ msk, execWaitcReturn s = _
    simp only [execWaitcReturn, argSub_sub harg hg hu, hp, if_pos hmet, hd]
    exact ⟨_, rfl⟩
  refine turns_of_trap hexec rfl rfl (group?_modGroup_self s.tick _ _ g (fun _ => rfl) hg)
    (fun id hne => group?_modGroup_other s.tick _ _ _ (fun _ => rfl) hne) hu
    ⟨rfl, trapInfo_cause _ _ _ _ hcause, rfl, fun e he => ?_⟩
  simpa using (List.mem_filter.1 he).2

/-! ### BAR_RELEASE (R128 04_sequencer.md) -/

theorem barRelease_group {l : Launch} {level : Nat} (hl : s.launch? g.launch = some l) (hp : u.phase = .bar level) (hd : l.domain level = some 0)
    (harr : l.arrived 0 g = true) (hq : s.quietFor [g.id] = true) :
    exec .barRelease s = .next ((s.tick.incoming g.id g.core).modGroup g.id (Group.released l 0 0)) := by
  show execBarRelease s = _
  have h0 : Group.released l 0 0 = fun g => { g with subs := g.subs.map fun u => if l.atBar 0 u then { u with phase := .running } else u } := by
    funext g
    simp [Group.released]
  simp only [execBarRelease, argSub_sub harg hg hu, hl, hp, hd, harr, hq, Bool.and_self, if_true, h0]

theorem barRelease_unit {l : Launch} {level dom : Nat} (hl : s.launch? g.launch = some l) (hp : u.phase = .bar level)
    (hd : l.domain level = some (dom + 1)) {unit : List Group}
    (hunit : (s.groups.filter fun o => l.sameUnit (dom + 1) g o && o.subs.any fun v => o.subLive v) = unit) (hplaced : l.allPlaced (dom + 1) = true)
    (harr : ∀ o ∈ unit, o.resident = true ∧ l.arrived (dom + 1) o = true) (hq : s.quietFor (unit.map fun o => o.id) = true) :
    exec .barRelease s = .next (unit.foldl (State.releaseAt l (dom + 1) (maxHorizon unit)) s.tick) := by
  have hall : (unit.all fun o => o.resident && l.arrived (dom + 1) o) = true := by simpa using harr
  show execBarRelease s = _
  simp only [execBarRelease, argSub_sub harg hg hu, hl, hp, hd, hunit, hplaced, hall, hq, Bool.and_self, if_true]
  rfl

omit harg hg hu in
theorem releaseAll_keeps (l : Launch) (dom h : Nat) (unit : List Group) (s : State) :
    (unit.foldl (State.releaseAt l dom h) s).mem = s.mem ∧ (unit.foldl (State.releaseAt l dom h) s).ops = s.ops :=
  foldl_keeps (fun t : State => t.mem = s.mem ∧ t.ops = s.ops) _ unit s ⟨rfl, rfl⟩ fun t o ht => by
    simpa [State.releaseAt] using ht

omit harg hu in
/-- BAR_RELEASE of a group's own domain releases the group. -/
theorem barRelease_group_released (l : Launch) (t : State) (ht : t = (s.tick.incoming g.id g.core).modGroup g.id (Group.released l 0 0)) :
    t.mem = s.mem ∧ t.ops = s.ops ∧ ∃ e, (g.released l 0 0).atEpoch e ∈ t.groups := by
  subst ht
  refine ⟨incoming_mem .., incoming_ops .., ?_⟩
  obtain ⟨e, he⟩ := mem_incoming (s := s.tick) (group_mem hg) g.id g.core
  have := mem_modGroup he g.id (Group.released l 0 0)
  rw [atEpoch_id, if_pos rfl] at this
  exact ⟨e, this⟩

theorem barRelease_spec {l : Launch} {level dom : Nat} (hl : s.launch? g.launch = some l) (hp : u.phase = .bar level)
    (hd : l.domain level = some dom) {unit : List Group}
    (hunit : (if dom = 0 then [g] else s.groups.filter fun o => l.sameUnit dom g o && o.subs.any fun v => o.subLive v) = unit)
    (hplaced : l.allPlaced dom = true) (harr : ∀ o ∈ unit, (dom = 0 ∨ o.resident = true) ∧ l.arrived dom o = true)
    (hq : s.quietFor (unit.map fun o => o.id) = true) :
    ∃ t h, exec .barRelease s = .next t ∧ t.mem = s.mem ∧ t.ops = s.ops ∧ (∀ o ∈ unit, ∃ e, (o.released l dom h).atEpoch e ∈ t.groups) ∧
      (dom ≠ 0 → ∀ p ∈ unit, p.horizon ≤ h) := by
  cases dom with
  | zero =>
    subst hunit
    obtain ⟨hmem, hops, hin⟩ := barRelease_group_released hg l _ rfl
    obtain ⟨-, ha⟩ := harr g (List.mem_singleton_self g)
    refine ⟨_, 0, barRelease_group harg hg hu hl hp hd ha hq, hmem, hops, fun o ho => ?_, fun h => absurd rfl h⟩
    rw [List.mem_singleton.mp ho]
    exact hin
  | succ dom =>
    rw [if_neg dom.succ_ne_zero] at hunit
    obtain ⟨hmem, hops⟩ := releaseAll_keeps l (dom + 1) (maxHorizon unit) unit s.tick
    refine ⟨_, _, barRelease_unit harg hg hu hl hp hd hunit hplaced (fun o ho => ?_) hq, hmem, hops, fun o ho => ?_,
      fun _ => (le_foldl_max (fun o : Group => o.horizon) unit 0).2⟩
    · obtain ⟨h0 | hr, ha⟩ := harr o ho
      · exact absurd h0 dom.succ_ne_zero
      · exact ⟨hr, ha⟩
    · obtain ⟨e, he⟩ := mem_releaseAll l (dom + 1) (maxHorizon unit) unit s.tick o
        (List.mem_filter.1 (hunit ▸ ho)).1
      rw [if_pos (List.mem_map_of_mem ho)] at he
      exact ⟨e, he⟩

/-! ### AWAIT_CONDITION_MET (R329, R330, R335 14_spawn.md) -/

theorem awaitBad_turns {l : Launch} {since n : Nat} {act : List Nat} (hl : s.launch? g.launch = some l) (hp : u.phase = .await since n act)
    (hopen : s.framesOpen l = true) (hbad : g.awrBad = true) (hres : g.resident = true) :
    Turns s .awaitConditionMet r fun _ g' u' =>
      u' = { u with phase := .trapped } ∧ bits g'.trap.info 7 0 = 0x12 ∧ bits g'.trap.info 15 8 = 3 := by
  have hexec : exec .awaitConditionMet s = .next ((s.tick.modGroup r.grp Group.clearAwrBad).takeTrap g r
      { cause := 0x12, detail := 3, msk := act } u.pc trailerPos false) := by
    rw [← group_id hg]
    show execAwaitConditionMet s = _
    simp only [execAwaitConditionMet, argSub_sub harg hg hu, hl, hp, hopen, hbad, hres, Bool.not_true, Bool.false_eq_true, if_false,
      Bool.and_self, if_true]
    rfl
  have h8 : 0x12 < 2 ^ 8 := by decide
  exact turns_of_trap hexec rfl rfl (group?_modGroup_self s.tick _ _ g (fun _ => rfl) hg)
    (fun id hne => group?_modGroup_other s.tick _ _ _ (fun _ => rfl) hne) hu
    ⟨rfl, trapInfo_cause _ _ _ _ h8, trapInfo_detail _ _ _ _ h8⟩

theorem awaitMark_turns {l : Launch} {since n : Nat} {act : List Nat} (hl : s.launch? g.launch = some l) (hp : u.phase = .await since n act)
    (hopen : s.framesOpen l = true) (hbad : g.awrBad = false) (hres : g.resident = true) {m : Mark} (hm : s.awaitMark l g act = some m)
    (hcause : m.cause < 2 ^ 8) :
    Turns s .awaitConditionMet r fun _ g' u' =>
      u' = { u with phase := .trapped } ∧ bits g'.trap.info 7 0 = m.cause ∧ bits g'.trap.info 15 8 = m.detail % 2 ^ 8 := by
  have hexec : exec .awaitConditionMet s = .next ((s.tick.noteFault { cause := m.cause, detail := m.detail, addr := m.addr, msk := act }).takeTrap g r
      { cause := m.cause, detail := m.detail, addr := m.addr, msk := act } u.pc trailerPos false) := by
    show execAwaitConditionMet s = _
    simp only [execAwaitConditionMet, argSub_sub harg hg hu, hl, hp, hopen, hbad, hres, hm, Bool.not_true, Bool.false_eq_true, if_false,
      Bool.false_and, if_true]
  have hgroups : ∀ t id, (s.tick.noteFault t).group? id = s.group? id := fun t id => by
    unfold State.group?
    rw [noteFault_groups]
    rfl
  exact turns_of_trap hexec (noteFault_mem _ _) (noteFault_ops _ _) ((hgroups _ _).trans hg) (fun id _ => hgroups _ id) hu
    ⟨rfl, trapInfo_cause _ _ _ _ hcause, trapInfo_detail _ _ _ _ hcause⟩

theorem awaitYielded_ready {l : Launch} {since n : Nat} {act : List Nat} (hl : s.launch? g.launch = some l) (hp : u.phase = .await since n act)
    (hopen : s.framesOpen l = true) (hbad : g.awrBad = false) (hplace : g.place = .yielded)
    (hmet : (∀ t ∈ act, s.outstanding l g.awr t ≤ n) ∨ s.awaitMark l g act ≠ none) :
    ∃ t g', exec .awaitConditionMet s = .next t ∧ t.mem = s.mem ∧ t.group? r.grp = some g' ∧ g' = { g with place := .ready, rank := g'.rank } := by
  have hres : g.resident = false := by simp [Group.resident, hplace]
  have hcond : (s.awaitMet l g n act || (decide (g.place = .yielded) && (s.awaitMark l g act).isSome)) = true := by
    rcases hmet with h | h
    · rw [awaitMet_iff.2 h, Bool.true_or]
    · rw [decide_eq_true hplace, Bool.true_and, Option.isSome_iff_ne_none.2 h, Bool.or_true]
  have hexec : exec .awaitConditionMet s = .next (s.tick.modGroup r.grp (Group.madeReady s.nextId)).fresh.2 := by
    rw [← group_id hg]
    show execAwaitConditionMet s = _
    simp only [execAwaitConditionMet, argSub_sub harg hg hu, hl, hp, hopen, hbad, hres, Bool.not_true, Bool.false_eq_true, if_false,
      Bool.false_and, if_pos hcond]
    rw [hplace]
    rfl
  exact ⟨_, _, hexec, rfl, group?_modGroup_self s.tick _ _ g (fun _ => rfl) hg, rfl⟩

theorem awaitTaken_runs {l : Launch} {since n : Nat} {act : List Nat} (hl : s.launch? g.launch = some l) (hp : u.phase = .await since n act)
    (hopen : s.framesOpen l = true) (hbad : g.awrBad = false) (hplace : g.place = .slot) (hmet : ∀ t ∈ act, s.outstanding l g.awr t ≤ n)
    (hmark : s.awaitMark l g act = none) (hclear : s.clear (g.reportHorizon act) = true) :
    ∃ t g' u', exec .awaitConditionMet s = .next t ∧ t.group? r.grp = some g' ∧ g'.sub? r.sub = some u' ∧ u'.phase = .running ∧ u'.pc = u.pc ∧
      g'.vregs = g.vregs ∧ g'.horizon = max g.horizon (g.reportHorizon act) := by
  have hexec : exec .awaitConditionMet s = .next ((((s.tick.takeReports l g act).modGroup r.grp (Group.reportsTaken (g.reportHorizon act) act)).modSub
      r fun u => { u with phase := .running }).incoming g.id g.core) := by
    rw [← group_id hg]
    show execAwaitConditionMet s = _
    simp only [execAwaitConditionMet, argSub_sub harg hg hu, hl, hp, hopen, hbad, hmark, Bool.not_true, Bool.false_eq_true, if_false,
      Bool.false_and, ite_self, awaitMet_iff.2 hmet, Bool.true_or, hplace, hclear, if_true]
    rfl
  obtain ⟨M, hM⟩ := (takeReports_onlyWakes s.tick l g act).group? (g := g) hg
  have hF := group?_modGroup_self (s.tick.takeReports l g act) _ (Group.reportsTaken (g.reportHorizon act) act) _ (fun _ => rfl) hM
  obtain ⟨e, he⟩ := (incoming_sameButEpochs _ g.id g.core).group? (group?_modSub_self (r := r) hF fun u => { u with phase := .running })
  exact ⟨_, _, _, hexec, he, sub?_modSub_self ((g.monitoring M).reportsTaken (g.reportHorizon act) act) r.sub _ _ (fun _ => rfl)
    (sub?_monitoring hu M), rfl, rfl, rfl, rfl⟩

end

/-- Settles O40, clause by clause from the lemma of each wait. -/
theorem waitsEnd : Obligations.WaitsEnd := by
  unfold Obligations.WaitsEnd
  intro s r g u harg hg hu
  refine ⟨?waitc, ?stall, ?sleep, ?mwait, ?other, ?bar, ?await⟩
  case waitc =>
    intro ld st cp mx hp hld hst hcp hmx hclear
    have hmet : s.waitcMet g ld st cp mx := ⟨hld, hst, hcp, hmx, fun h => hclear (engineUncovered.1 h)⟩
    exact ⟨waitcReturn_turns harg hg hu hp hmet, fun d => waitcReturn_traps harg hg hu hp hmet⟩
  case stall => exact fun k hp hk => counterStallRelease_turns harg hg hu hp hk
  case sleep => exact fun wake hp hw => sleepExpire_turns harg hg hu hp hw
  case mwait =>
    intro until' dest m hp hm
    refine ⟨fun reason rest hw => mwaitEnds hg hu (mwaitWake_exec harg hg hu hp hm hw), fun d hd htime hw => ?_⟩
    subst hd
    exact mwaitEnds hg hu (mwaitTimeout_exec harg hg hu hp hm htime hw)
  case other => exact fun m hm hp => otherCauseWakeEvent_turns harg hg hu hm hp
  case bar =>
    intro l level dom hl hp hd unit hplaced harr hq
    obtain ⟨t, h, hexec, hmem, hops, hin, hmax⟩ := barRelease_spec harg hg hu hl hp hd (unit := unit) rfl hplaced harr hq
    refine ⟨t, hexec, hmem, hops, fun o ho => ?_⟩
    obtain ⟨e, he⟩ := hin o ho
    exact ⟨_, he, rfl, fun h0 p hpu => Nat.le_trans (hmax h0 p hpu) (Nat.le_max_right _ _)⟩
  case await =>
    intro l since n act hl hp hopen met mark
    refine ⟨awaitBad_turns harg hg hu hl hp hopen, fun m hbad hres hm => awaitMark_turns harg hg hu hl hp hopen hbad hres hm,
      fun hbad => ⟨awaitYielded_ready harg hg hu hl hp hopen hbad, fun hplace hmet hmark hclear => ?_⟩⟩
    obtain ⟨t, g', u', hexec, hg', hu', hrun, hpc, hv, hh⟩ := awaitTaken_runs harg hg hu hl hp hopen hbad hplace hmet hmark hclear
    refine ⟨t, g', u', hexec, hg', hu', hrun, hpc, hv, hh ▸ Nat.le_max_left _ _, fun k hk => hh ▸ Nat.le_trans ?_ (Nat.le_max_right _ _)⟩
    exact (le_foldl_max (fun t => g.reports.get 0 t) act 0).2 k hk

end Machine
end Sys2Proof
end

section
namespace Sys2Proof
namespace Machine

/-! ### A channel map that leaves its die (O58) -/

/-- Channel 0 of die 0 is out of service, and the map names 64 in its place: as a place in State.lost that is channel 0 of die 1. The channels that
remain are 0 to 63 (R41 01_machine.md); the images that bring-up accepts name no other (imageOf), but nothing in the statement asks that of a state. -/
def strayMap : State := { State.reset with mapped := [0], chanMap := [(0, 64)], arg := .pair 1 0 }

/-- The first line of near die 0. -/
def firstLine : Nat := 2 ^ 38

theorem strayMap_home : strayMap.home (64 * firstLine) = some (0, strayMap.ig * gib) := by decide +kernel

/-- Losing channel 0 of die 1 poisons the first line of die 0. -/
theorem strayMap_loss : ∃ t, exec .hbmChannelLoss strayMap = .next t ∧ (t.markOf firstLine).poison = 4 ∧ (strayMap.markOf firstLine).poison = 0 :=
  ⟨_, rfl, by decide +kernel, by decide +kernel⟩

/-- Refutes O58: where the map sends a channel of die 0 that is out of service to number 64, the loss of channel 0 of die 1 poisons lines of
die 0 too, which the statement says stay as they were. -/
theorem not_launchesEnd : ¬ Obligations.LaunchesEnd := by
  unfold Obligations.LaunchesEnd
  intro h
  obtain ⟨-, -, hloss, -⟩ := h strayMap
  obtain ⟨t, ht, -, -, -, -, hmarks⟩ := hloss 1 0 rfl (by decide) (by decide) (by decide) (by decide)
  obtain ⟨u, hu, hpoison, hclean⟩ := strayMap_loss
  obtain rfl : u = t := Host.Outcome.next.inj (hu.symm.trans ht)
  obtain ⟨-, hsame⟩ := hmarks firstLine 0 _ strayMap_home (by decide)
  rw [hsame (Or.inl (by decide)), hclean] at hpoison
  exact absurd hpoison (by decide)

end Machine
end Sys2Proof
end

section
namespace Sys2Proof
namespace Machine

/-! ### The tree of a tile (R154 05_router.md) -/

/-- A node from its children, as the model joins them. -/
theorem treeNode_succ (f : Nat → Nat → Nat × Flags) (leaf : Nat → Option Nat) (level i : Nat) :
    treeNode f leaf (level + 1) i = joinNode f (treeNode f leaf level (2 * i)) (treeNode f leaf level (2 * i + 1)) := by
  rw [treeNode]
  cases treeNode f leaf level (2 * i) with
  | none => rfl
  | some a =>
    cases treeNode f leaf level (2 * i + 1) with
    | none => rfl
    | some b => exact congrArg some (Prod.ext rfl (BitVec.or_comm _ _ |>.trans (BitVec.or_assoc _ _ _).symm))

theorem treeLevel_map_range (f : Nat → Nat → Nat × Flags) (node : Nat → Node) (n : Nat) :
    treeLevel f ((List.range (2 * n)).map node) = (List.range n).map fun i => joinNode f (node (2 * i)) (node (2 * i + 1)) := by
  induction n generalizing node with
  | zero => rfl
  | succ n ih =>
    have hrest := ih fun i => node (i + 2)
    rw [Nat.mul_succ, List.range_succ_eq_map, List.range_succ_eq_map, List.range_succ_eq_map]
    simp only [List.map_cons, List.map_map, Function.comp_def, treeLevel, Nat.succ_eq_add_one]
    exact congrArg _ hrest

/-- The root that the model finds level by level is the node at the top. -/
theorem treeRoot_eq_treeNode (f : Nat → Nat → Nat × Flags) (leaf : Nat → Option Nat) (k level : Nat) :
    treeRoot f k ((List.range (2 ^ k)).map (treeNode f leaf level)) = treeNode f leaf (level + k) 0 := by
  induction k generalizing level with
  | zero => rfl
  | succ k ih =>
    have hlevel : (fun i => joinNode f (treeNode f leaf level (2 * i)) (treeNode f leaf level (2 * i + 1))) = treeNode f leaf (level + 1) :=
      funext fun i => (treeNode_succ f leaf level i).symm
    rw [treeRoot, Nat.pow_succ', treeLevel_map_range, hlevel, ih, Nat.add_right_comm, Nat.add_assoc]

/-- The positions of the leaves that carry a value, among `n` from `lo` on. -/
def presentLeaves (leaf : Nat → Option Nat) (lo n : Nat) : List Nat := (List.range' lo n).filter fun q => (leaf q).isSome

theorem presentLeaves_split (leaf : Nat → Option Nat) (level i : Nat) :
    presentLeaves leaf (2 ^ (level + 1) * i) (2 ^ (level + 1)) =
      presentLeaves leaf (2 ^ level * (2 * i)) (2 ^ level) ++ presentLeaves leaf (2 ^ level * (2 * i + 1)) (2 ^ level) := by
  unfold presentLeaves
  rw [← List.filter_append, Nat.mul_add_one, Nat.pow_succ, Nat.mul_assoc, Nat.mul_two]
  exact congrArg _ (List.range'_append_1 ..).symm

/-- What holds of each leaf alone and of two parts joined holds of every node and the leaves below it; without such leaves there is no node. -/
theorem treeNode_induction {f : Nat → Nat → Nat × Flags} {leaf : Nat → Option Nat} {P : List Nat → Nat × Flags → Prop}
    (single : ∀ q v, leaf q = some v → P [q] (v, 0))
    (join : ∀ l l' r r', P l r → P l' r' → P (l ++ l') ((f r.1 r'.1).1, r.2 ||| r'.2 ||| (f r.1 r'.1).2)) (level i : Nat) :
    (treeNode f leaf level i).elim (presentLeaves leaf (2 ^ level * i) (2 ^ level) = []) (P (presentLeaves leaf (2 ^ level * i) (2 ^ level))) := by
  induction level generalizing i with
  | zero =>
    simp only [treeNode, presentLeaves, Nat.pow_zero, Nat.one_mul, List.range'_one]
    cases h : leaf i with
    | none => simp [h]
    | some v => simpa [h] using single i v h
  | succ level ih =>
    have hl := ih (2 * i)
    have hr := ih (2 * i + 1)
    rw [presentLeaves_split, treeNode]
    cases hleft : treeNode f leaf level (2 * i) with
    | none =>
      rw [hleft] at hl
      rw [show presentLeaves leaf (2 ^ level * (2 * i)) (2 ^ level) = [] from hl]
      exact hr
    | some a =>
      rw [hleft] at hl
      cases hright : treeNode f leaf level (2 * i + 1) with
      | none =>
        rw [hright] at hr
        rw [show presentLeaves leaf (2 ^ level * (2 * i + 1)) (2 ^ level) = [] from hr, List.append_nil]
        exact hl
      | some b => rw [hright] at hr; exact join _ _ a b hl hr

/-! ### Patterns of integers and bits -/

theorem toNat_pat {w : Nat} (hw : w ≤ 64) (v : Int) : (pat w v).toNat = lo v w := by
  have h := pat_toNat w hw v
  unfold lo
  omega

theorem Wraps.emod_eq {w : Nat} {v : Int} {r : Dword} (h : Wraps w v r) : (r.toNat : Int) % ((2 ^ w : Nat) : Int) = v % ((2 ^ w : Nat) : Int) :=
  Int.emod_eq_emod_iff_emod_sub_eq_zero.2 h.2

theorem wraps_of_emod_eq {w : Nat} {v : Int} {r : Dword} (h : r.toNat < 2 ^ w)
    (hmod : (r.toNat : Int) % ((2 ^ w : Nat) : Int) = v % ((2 ^ w : Nat) : Int)) : Wraps w v r :=
  ⟨h, Int.emod_eq_emod_iff_emod_sub_eq_zero.1 hmod⟩

/-- An integer of a type is its pattern modulo 2^width (R163 06_integer.md). -/
theorem intTy_emod (ty : DType) (v : Nat) : intTy ty v % ((2 ^ ty.width : Nat) : Int) = (v : Int) % ((2 ^ ty.width : Nat) : Int) := by
  have hmod : ((v % 2 ^ ty.width : Nat) : Int) % ((2 ^ ty.width : Nat) : Int) = (v : Int) % ((2 ^ ty.width : Nat) : Int) := by
    rw [Int.natCast_emod, Int.emod_emod]
  have hpow : (2 : Int) ^ ty.width = ((2 ^ ty.width : Nat) : Int) := (Int.natCast_pow 2 ty.width).symm
  unfold intTy intOf
  dsimp only
  split
  · rw [hpow, Int.sub_emod_right, hmod]
  · exact hmod

theorem wraps_self {ty : DType} {r : Dword} (h : r.toNat < 2 ^ ty.width) : Wraps ty.width (intTy ty r.toNat) r :=
  wraps_of_emod_eq h (intTy_emod ty r.toNat).symm

/-- The pattern of a value of the type reads as that value. -/
theorem Wraps.intTy_eq {ty : DType} {v : Nat} {r : Dword} (h : Wraps ty.width (intTy ty v) r) : intTy ty r.toNat = intTy ty v := by
  have hmod : r.toNat % 2 ^ ty.width = v % 2 ^ ty.width := by
    have hint := h.emod_eq.trans (intTy_emod ty v)
    rw [← Int.natCast_emod, ← Int.natCast_emod] at hint
    exact Int.ofNat_inj.1 hint
  unfold intTy intOf
  rw [hmod]

/-- The pattern of the sum of two values stands for the sum of the integers that they stand for. -/
theorem Wraps.add {ty : DType} {u v : Int} {r r' : Dword} (h : Wraps ty.width u r) (h' : Wraps ty.width v r') :
    Wraps ty.width (u + v) (pat ty.width (intTy ty r.toNat + intTy ty r'.toNat)) := by
  obtain ⟨hlt, hpat⟩ := wraps_pat ty.width (width_le ty) (intTy ty r.toNat + intTy ty r'.toNat)
  refine wraps_of_emod_eq hlt ((Int.emod_eq_emod_iff_emod_sub_eq_zero.2 hpat).trans ?_)
  rw [Int.add_emod, intTy_emod, intTy_emod, h.emod_eq, h'.emod_eq, ← Int.add_emod]

theorem bitsOf_self {w : Nat} {r : Dword} (h : r.toNat < 2 ^ w) : BitsOf w (fun k => r.getLsbD k) r := by
  intro k
  by_cases hk : k < w
  · simp [hk]
  · have hpow : 2 ^ w ≤ 2 ^ k := Nat.pow_le_pow_right (by decide) (by omega)
    have : r.getLsbD k = false := by rw [← BitVec.testBit_toNat]; exact Nat.testBit_lt_two_pow (by omega)
    simp [hk, this]

theorem BitsOf.and {w : Nat} {p q : Nat → Bool} {r r' : Dword} (h : BitsOf w p r) (h' : BitsOf w q r') :
    BitsOf w (fun k => p k && q k) (r &&& r') := fun k => by
  rw [BitVec.getLsbD_and, h k, h' k]
  cases decide (k < w) <;> simp

theorem BitsOf.or {w : Nat} {p q : Nat → Bool} {r r' : Dword} (h : BitsOf w p r) (h' : BitsOf w q r') :
    BitsOf w (fun k => p k || q k) (r ||| r') := fun k => by
  rw [BitVec.getLsbD_or, h k, h' k, Bool.and_or_distrib_left]

theorem BitsOf.xor {w : Nat} {p q : Nat → Bool} {r r' : Dword} (h : BitsOf w p r) (h' : BitsOf w q r') :
    BitsOf w (fun k => p k != q k) (r ^^^ r') := fun k => by
  rw [BitVec.getLsbD_xor, h k, h' k]
  cases decide (k < w) <;> simp

theorem foldl_bne {α : Type} (l : List α) (f : α → Bool) (b : Bool) :
    l.foldl (fun b o => b != f o) b = (b != l.foldl (fun b o => b != f o) false) := by
  induction l generalizing b with
  | nil => simp
  | cons o l ih => rw [List.foldl_cons, List.foldl_cons, ih, ih (false != f o), Bool.false_bne, Bool.bne_assoc]

/-! ### Integer and bitwise reductions (R153, R155 05_router.md) -/

/-- `r` reduces the values `a` of the threads `l` by the operation of `x`, the empty value standing for no thread: the result that the statement
asks of thread `t`. -/
def TileResult (x : Ext) (a : Nat → Dword) (t : Nat) (l : List Nat) (r : Dword) : Prop :=
  match x.subBits 8 5 with
  | 0 => Wraps x.ty.width (l.map fun o => intTy x.ty (a o).toNat).sum r
  | 1 => if l = [] then Wraps x.ty.width (greatestOf x.ty) r
    else ∃ o ∈ l, Wraps x.ty.width (intTy x.ty (a o).toNat) r ∧ ∀ p ∈ l, intTy x.ty (a o).toNat ≤ intTy x.ty (a p).toNat
  | 2 => if l = [] then Wraps x.ty.width (leastOf x.ty) r
    else ∃ o ∈ l, Wraps x.ty.width (intTy x.ty (a o).toNat) r ∧ ∀ p ∈ l, intTy x.ty (a p).toNat ≤ intTy x.ty (a o).toNat
  | 3 => BitsOf x.ty.width (fun k => l.all fun o => (a o).getLsbD k) r
  | 4 => BitsOf x.ty.width (fun k => l.any fun o => (a o).getLsbD k) r
  | 5 => BitsOf x.ty.width (fun k => l.foldl (fun b o => b != (a o).getLsbD k) false) r
  | _ => t = t

/-- `r` is the value of a thread of `l` that stands in the relation `R` to every value of `l`: a smallest or a largest one. -/
def Extreme (ty : DType) (a : Nat → Dword) (R : Int → Int → Prop) (l : List Nat) (r : Dword) : Prop :=
  ∃ o ∈ l, Wraps ty.width (intTy ty (a o).toNat) r ∧ ∀ p ∈ l, R (intTy ty (a o).toNat) (intTy ty (a p).toNat)

/-- Of two extremes the one that stands in the relation to the other is the extreme of both parts. -/
theorem Extreme.append {ty : DType} {a : Nat → Dword} {R : Int → Int → Prop} [DecidableRel R] (total : ∀ u v, R u v ∨ R v u)
    (trans : ∀ u v w, R u v → R v w → R u w) {l l' : List Nat} {r r' : Dword} (h : Extreme ty a R l r) (h' : Extreme ty a R l' r') :
    Extreme ty a R (l ++ l') (if R (intTy ty r.toNat) (intTy ty r'.toNat) then r else r') := by
  obtain ⟨o, ho, hr, hall⟩ := h
  obtain ⟨o', ho', hr', hall'⟩ := h'
  rw [hr.intTy_eq, hr'.intTy_eq]
  split
  · next hc =>
    exact ⟨o, List.mem_append_left _ ho, hr, fun p hp => (List.mem_append.1 hp).elim (hall p) fun hp => trans _ _ _ hc (hall' p hp)⟩
  · next hc =>
    have hc' := (total _ _).resolve_left hc
    exact ⟨o', List.mem_append_right _ ho', hr', fun p hp => (List.mem_append.1 hp).elim (fun hp => trans _ _ _ hc' (hall p hp)) (hall' p)⟩

section
variable {c : Cx} {x : Ext} {a : Nat → Dword} {t : Nat}

theorem tileResult_min {l : List Nat} {r : Dword} (op : x.subBits 8 5 = 1) (hl : l ≠ []) :
    TileResult x a t l r ↔ Extreme x.ty a (· ≤ ·) l r := by
  simp only [TileResult, op, if_neg hl, Extreme]

theorem tileResult_max {l : List Nat} {r : Dword} (op : x.subBits 8 5 = 2) (hl : l ≠ []) :
    TileResult x a t l r ↔ Extreme x.ty a (· ≥ ·) l r := by
  simp only [TileResult, op, if_neg hl, Extreme, ge_iff_le]

theorem subBits_lt_six (h : x.subBits 8 5 < 6) : x.subBits 8 5 = 0 ∨ x.subBits 8 5 = 1 ∨ x.subBits 8 5 = 2 ∨ x.subBits 8 5 = 3 ∨
    x.subBits 8 5 = 4 ∨ x.subBits 8 5 = 5 := by omega

/-- One thread alone: its own value. -/
theorem tileResult_single (hop : x.subBits 8 5 < 6) {o : Nat} (h : (a o).toNat < 2 ^ x.ty.width) : TileResult x a t [o] (a o) := by
  have hself := wraps_self h
  have hbits := bitsOf_self h
  obtain op | op | op | op | op | op := subBits_lt_six hop <;> simp only [TileResult, op]
  · simpa using hself
  · simpa using hself
  · simpa using hself
  · simpa using hbits
  · simpa using hbits
  · simpa using hbits

/-- No thread: the empty value of the operation. -/
theorem tileResult_empty (hop : x.subBits 8 5 < 6) : TileResult x a t [] (BitVec.ofNat 64 (emptyValue x)) := by
  have hw := width_le x.ty
  obtain op | op | op | op | op | op := subBits_lt_six hop <;> simp only [TileResult, emptyValue, treeOp, op, if_true]
  · exact ⟨two_pow_pos _, by simp⟩
  · rw [← maxOf_eq]; exact wraps_pat _ hw _
  · rw [← minOf_eq]; exact wraps_pat _ hw _
  · intro k
    simp only [BitVec.getLsbD_ofNat, Nat.testBit_two_pow_sub_one, List.all_nil, Bool.and_true, ← Bool.decide_and]
    exact decide_eq_decide.2 ⟨And.right, fun h => ⟨by omega, h⟩⟩
  · intro k; simp
  · intro k; simp

/-- Two parts joined by the node function (R153), the lower one on the left. -/
theorem tileResult_append (hop : x.subBits 8 5 < 6) {l l' : List Nat} (hl : l ≠ []) (hl' : l' ≠ []) {r r' : Dword}
    (h : TileResult x a t l r) (h' : TileResult x a t l' r') :
    ∃ d : Dword, nodeOf c x r.toNat r'.toNat = (d.toNat, 0) ∧ TileResult x a t (l ++ l') d := by
  have hll : l ++ l' ≠ [] := List.append_ne_nil_of_left_ne_nil hl l'
  obtain op | op | op | op | op | op := subBits_lt_six hop
  · simp only [TileResult, nodeOf, treeOp, op] at h h' ⊢
    exact ⟨_, Prod.ext (toNat_pat (width_le x.ty) _).symm rfl, by rw [List.map_append, List.sum_append]; exact h.add h'⟩
  · rw [tileResult_min op hl] at h
    rw [tileResult_min op hl'] at h'
    refine ⟨_, ?_, (tileResult_min op hll).2 (h.append Int.le_total (fun _ _ _ => Int.le_trans) h')⟩
    simp only [nodeOf, treeOp, op, apply_ite BitVec.toNat]
  · rw [tileResult_max op hl] at h
    rw [tileResult_max op hl'] at h'
    refine ⟨_, ?_, (tileResult_max op hll).2 (h.append (fun u v => Int.le_total v u) (fun _ _ _ huv hvw => Int.le_trans hvw huv) h')⟩
    simp only [nodeOf, treeOp, op, apply_ite BitVec.toNat]
  · simp only [TileResult, nodeOf, treeOp, op, List.all_append] at h h' ⊢
    exact ⟨r &&& r', by rw [BitVec.toNat_and], h.and h'⟩
  · simp only [TileResult, nodeOf, treeOp, op, List.any_append] at h h' ⊢
    exact ⟨r ||| r', by rw [BitVec.toNat_or], h.or h'⟩
  · simp only [TileResult, nodeOf, treeOp, op, List.foldl_append] at h h' ⊢
    refine ⟨r ^^^ r', by rw [BitVec.toNat_xor], ?_⟩
    simpa only [← foldl_bne l'] using h.xor h'

end

/-! ### What the encoding of TREDUCE and TSCAN admits (R153) -/

theorem failIf_eq_nil {b : Bool} {d : Nat} : failIf b d = [] ↔ b = false := by cases b <;> simp [failIf]

/-- An encoding that breaks no row of R78 has one of the types that its entry accepts. -/
theorem ty_of_encoding {x : Ext} {f : Form} (h : formFails x f = []) {l : List DType} (hty : f.ty = some l) : x.ty ∈ l := by
  unfold formFails at h
  simp only [List.append_eq_nil_iff] at h
  obtain ⟨⟨⟨⟨⟨⟨⟨⟨⟨⟨⟨-, htype⟩, -⟩, -⟩, -⟩, -⟩, -⟩, -⟩, -⟩, -⟩, -⟩, -⟩ := h
  rw [failIf_eq_nil, hty] at htype
  unfold Ext.ty
  cases hcode : DType.ofCode x.tcode with
  | none => simp [hcode] at htype
  | some t => simpa [hcode] using htype

/-- A source with a routing modifier is a vector or window operand. -/
theorem routable_of_encoding {x : Ext} {f : Form} (h : formFails x f = []) {u : SrcUse} (hu : u ∈ f.srcs) (hmods : u.mods = true)
    (hm : x.modOf u.slot ≠ 0) : (∃ n, operandOf (x.code u.slot) = .vreg n) ∨ ∃ n, operandOf (x.code u.slot) = .win n := by
  unfold formFails at h
  simp only [List.append_eq_nil_iff] at h
  obtain ⟨⟨⟨⟨⟨-, hroute⟩, -⟩, -⟩, -⟩, -⟩ := h
  have hfails := List.flatMap_eq_nil_iff.1 hroute u hu
  simp only [modFails, hmods, if_true, List.append_eq_nil_iff, failIf_eq_nil] at hfails
  obtain ⟨hrow, -⟩ := hfails
  revert hrow
  cases operandOf (x.code u.slot) <;> simp [hm]

theorem treeTypes_width {op : Nat} {ty : DType} (h : ty ∈ treeTypes op) : ty.width = if ty.wide then 64 else 32 := by
  have hall : ∀ ty ∈ intTypes ++ (bitTypes ++ fltTypes), ty.width = if ty.wide then 64 else 32 := by decide
  refine hall ty ?_
  unfold treeTypes at h
  split at h
  · exact List.mem_append_left _ h
  · split at h
    · exact List.mem_append_right _ (List.mem_append_left _ h)
    · split at h
      · exact List.mem_append_right _ (List.mem_append_right _ h)
      · cases h

theorem treeTypes_op {op : Nat} {ty : DType} (h : ty ∈ treeTypes op) : op ≤ 8 := by
  refine Decidable.byContradiction fun hop => ?_
  simp [treeTypes, show ¬op ≤ 2 by omega, show ¬op ≤ 5 by omega, hop] at h

/-! ### Values of 32 bits -/

theorem bits_lt {n : Nat} (v : BitVec n) (hi lo : Nat) : bits v hi lo < 2 ^ (hi + 1 - lo) := Nat.mod_lt _ (Nat.two_pow_pos _)

theorem lo_lt (v : Int) (w : Nat) : lo v w < 2 ^ w := by
  have := Int.emod_lt_of_pos v (b := ((2 ^ w : Nat) : Int)) (by have := two_pow_pos w; omega)
  have := Int.emod_nonneg v (b := ((2 ^ w : Nat) : Int)) (by have := two_pow_pos w; omega)
  unfold lo
  omega

theorem toNat_ofNat_lt {v : Nat} (h : v < 2 ^ 32) : (BitVec.ofNat 64 v).toNat < 2 ^ 32 := by
  rw [BitVec.toNat_ofNat]
  exact Nat.lt_of_le_of_lt (Nat.mod_le _ _) h

/-- A 32-bit operand read as an integer has 32 bits. -/
theorem ownVal_narrow_lt (c : Cx) (code : BitVec 9) (lit : Option Dword) (t : Nat) (hm : operandOf code = .member → t < 2 ^ 32) :
    (c.ownVal code false .int lit t).toNat < 2 ^ 32 := by
  unfold Cx.ownVal
  cases hop : operandOf code with
  | vreg n => exact toNat_ofNat_lt (c.vread n t).1.isLt
  | ureg n => exact toNat_ofNat_lt (c.u.ureg n).isLt
  | win k =>
    cases hw : c.u.window[k]? with
    | none => simp [hw]
    | some e => simpa [hw] using toNat_ofNat_lt (bits_lt (e.vals.get 0 t) 31 0)
  | const k => exact toNat_ofNat_lt (lo_lt _ 32)
  | lane => exact toNat_ofNat_lt (by omega)
  | member => exact toNat_ofNat_lt (by have := hm hop; omega)
  | lit =>
    cases lit with
    | none => simp
    | some v => simpa using toNat_ofNat_lt (bits_lt v 31 0)
  | reserved => simp

theorem routed_narrow_lt (c : Cx) (code : BitVec 9) (m : Nat) (lit : Option Dword) (t : Nat)
    (hm : operandOf code = .member → m = 0 ∧ t < 2 ^ 32) : (c.routed code m false .int lit t).toNat < 2 ^ 32 := by
  unfold Cx.routed
  split
  · exact ownVal_narrow_lt c code lit t fun h => (hm h).2
  · next hne =>
    cases c.routeOf m (isWin code) t with
    | own s => exact ownVal_narrow_lt c code lit s fun h => absurd (hm h).1 hne
    | zero => simp
    | cross s =>
      cases hop : operandOf code with
      | vreg n => simpa using toNat_ofNat_lt (c.vcross n s).1.isLt
      | _ => simp

theorem active_lt_256 {c : Cx} {p : BitVec 4} {t : Nat} (h : c.active p t = true) : t < 256 := by
  unfold Cx.active at h
  simp only [Bool.and_eq_true] at h
  obtain ⟨⟨⟨⟨hmember, -⟩, -⟩, -⟩, -⟩ := h
  have := BitVec.lt_of_getLsbD hmember
  omega

section
variable {s : State} {c : Cx} {x : Ext} {own1 : Nat}

/-- The routed A of an active thread fits in the type (R154). -/
theorem treeSrc_lt (h : formFails x (formTree x own1) = []) {t : Nat} (ht : c.active x.p t = true) :
    (c.src x .A x.ty.wide .int t).toNat < 2 ^ x.ty.width := by
  rw [treeTypes_width (ty_of_encoding h rfl)]
  cases x.ty.wide with
  | true => exact (c.src x .A true .int t).isLt
  | false =>
    refine routed_narrow_lt c _ _ _ t fun hmember => ⟨?_, by have := active_lt_256 ht; omega⟩
    refine Decidable.byContradiction fun hm => ?_
    obtain ⟨n, hn⟩ | ⟨n, hn⟩ := routable_of_encoding h (List.mem_singleton.2 rfl) rfl hm <;> simp [hn] at hmember

/-! ### The tree of a thread's tile (R155) -/

/-- The leaf at position `q` of the tile of thread `t`, among the positions below `upto`. -/
def tileLeaf (c : Cx) (x : Ext) (view : View) (t upto q : Nat) : Option Nat :=
  if q < upto ∧ c.active x.p (t - t % c.width + q) = true then some (c.src x .A x.ty.wide view (t - t % c.width + q)).toNat else none

/-- How the operation reads A. -/
def treeView (x : Ext) : View := if 6 ≤ treeOp x then .flt x.ty else .int

/-- The root over the active threads at the positions below `upto`. -/
def tileNode (c : Cx) (x : Ext) (t upto : Nat) : Node :=
  treeNode (nodeOf c x) (tileLeaf c x (treeView x) t upto) (c.u.lpr.toNat + 1) 0

/-- The active threads of the tile at the positions below `upto`. -/
def tileBelow (c : Cx) (x : Ext) (t upto : Nat) : List Nat :=
  ((List.range upto).map fun q => t - t % c.width + q).filter fun o => c.active x.p o

theorem width_eq (c : Cx) : c.width = 2 ^ (c.u.lpr.toNat + 1) := (Nat.pow_succ' ..).symm

theorem tree_eq_tileNode {t upto : Nat} {present : Nat → Bool} (h : ∀ p < c.width, present p = decide (p < upto)) :
    c.tree x t present = tileNode c x t upto := by
  have hleaf : ∀ q < c.width, (if c.active x.p (t - t % c.width + q) && present q then
      some ((c.src x .A x.ty.wide (treeView x) (t - t % c.width + q)).toNat, 0) else none) =
      treeNode (nodeOf c x) (tileLeaf c x (treeView x) t upto) 0 q := fun q hq => by
    rw [h q hq, treeNode, tileLeaf]
    by_cases hlt : q < upto <;> by_cases hact : c.active x.p (t - t % c.width + q) = true <;> simp [hlt, hact]
  have hroot : c.tree x t present = treeRoot (nodeOf c x) (c.u.lpr.toNat + 1)
      ((List.range c.width).map (treeNode (nodeOf c x) (tileLeaf c x (treeView x) t upto) 0)) :=
    congrArg (treeRoot _ _) (List.map_congr_left fun q hq => hleaf q (List.mem_range.1 hq))
  rw [hroot, width_eq, treeRoot_eq_treeNode, Nat.zero_add]
  rfl

theorem effTreduce_eq : effTreduce x c s = c.result s x x.ty.wide fun t => nodeValue x (tileNode c x t c.width) := by
  unfold effTreduce
  refine congrArg _ (funext fun t => ?_)
  rw [tree_eq_tileNode fun p hp => (decide_eq_true hp).symm]

theorem effTscan_eq : effTscan x c s =
    c.result s x x.ty.wide fun t => nodeValue x (tileNode c x t (t % c.width + if x.bit1 9 then 0 else 1)) := by
  unfold effTscan
  refine congrArg _ (funext fun t => ?_)
  rw [tree_eq_tileNode fun p hp => ?_]
  cases x.bit1 9 with
  | true => rfl
  | false => exact decide_eq_decide.2 Nat.lt_succ_iff.symm

/-- The positions whose leaf carries a value are those of the active threads. -/
theorem presentLeaves_tileLeaf {view : View} {t upto n : Nat} (h : upto ≤ n) :
    (presentLeaves (tileLeaf c x view t upto) 0 n).map (fun q => t - t % c.width + q) = tileBelow c x t upto := by
  obtain ⟨k, rfl⟩ := Nat.exists_eq_add_of_le h
  have hbelow : (List.range upto).filter (fun q => (tileLeaf c x view t upto q).isSome) =
      (List.range upto).filter fun q => c.active x.p (t - t % c.width + q) := by
    refine List.filter_congr fun q hq => ?_
    have hq := List.mem_range.1 hq
    cases hact : c.active x.p (t - t % c.width + q) <;> simp [tileLeaf, hq, hact]
  have habove : ((List.range k).map fun q => upto + q).filter (fun q => (tileLeaf c x view t upto q).isSome) = [] := by
    refine List.filter_eq_nil_iff.2 fun q hq => ?_
    obtain ⟨p, -, rfl⟩ := List.mem_map.1 hq
    rw [tileLeaf, if_neg fun h => by omega]
    exact Bool.false_ne_true
  rw [presentLeaves, ← List.range_eq_range', List.range_add, List.filter_append, habove, List.append_nil, hbelow, tileBelow, List.filter_map]
  rfl

/-- What a node of an integer or bitwise operation holds for the positions `l` below it: no flag, and their reduction. -/
def Tallied (c : Cx) (x : Ext) (t : Nat) (l : List Nat) (r : Nat × Flags) : Prop :=
  l ≠ [] ∧ ∃ d : Dword, r = (d.toNat, 0) ∧
    TileResult x (fun o => c.src x .A x.ty.wide .int o) t (l.map fun q => t - t % c.width + q) d

theorem tallied_leaf (h : formFails x (formTree x own1) = []) (hop : x.subBits 8 5 < 6) {t upto q v : Nat}
    (hv : tileLeaf c x .int t upto q = some v) : Tallied c x t [q] (v, 0) := by
  unfold tileLeaf at hv
  split at hv
  · next hq =>
    cases hv
    exact ⟨List.cons_ne_nil _ _, _, rfl, tileResult_single hop (treeSrc_lt h hq.2)⟩
  · cases hv

theorem tallied_join (hop : x.subBits 8 5 < 6) {t : Nat} {l l' : List Nat} {r r' : Nat × Flags} (h : Tallied c x t l r)
    (h' : Tallied c x t l' r') : Tallied c x t (l ++ l') ((nodeOf c x r.1 r'.1).1, r.2 ||| r'.2 ||| (nodeOf c x r.1 r'.1).2) := by
  obtain ⟨hl, d, rfl, hd⟩ := h
  obtain ⟨hl', d', rfl, hd'⟩ := h'
  obtain ⟨e, hnode, he⟩ := tileResult_append (c := c) hop (mt List.map_eq_nil_iff.1 hl) (mt List.map_eq_nil_iff.1 hl') hd hd'
  refine ⟨List.append_ne_nil_of_left_ne_nil hl _, e, ?_, by rw [List.map_append]; exact he⟩
  simp [hnode]

/-- Integer and bitwise operations: the reduction of the active threads, free of flags. -/
theorem tileNode_result (h : formFails x (formTree x own1) = []) (hop : x.subBits 8 5 < 6) {t upto : Nat} (hupto : upto ≤ c.width) :
    ∃ d : Dword, nodeValue x (tileNode c x t upto) = (d, 0) ∧
      TileResult x (fun o => c.src x .A x.ty.wide .int o) t (tileBelow c x t upto) d := by
  have hview : treeView x = .int := if_neg (Nat.not_le.2 hop)
  have hnode := treeNode_induction (f := nodeOf c x) (leaf := tileLeaf c x .int t upto) (P := Tallied c x t)
    (fun q v hv => tallied_leaf h hop hv) (fun _ _ _ _ => tallied_join hop) (c.u.lpr.toNat + 1) 0
  rw [Nat.mul_zero, ← width_eq] at hnode
  rw [tileNode, hview, ← presentLeaves_tileLeaf (view := .int) hupto]
  cases hroot : treeNode (nodeOf c x) (tileLeaf c x .int t upto) (c.u.lpr.toNat + 1) 0 with
  | none =>
    rw [hroot] at hnode
    rw [show presentLeaves _ 0 c.width = [] from hnode]
    exact ⟨_, rfl, tileResult_empty hop⟩
  | some r =>
    rw [hroot] at hnode
    obtain ⟨-, d, rfl, hd⟩ := hnode
    exact ⟨d, by simp [nodeValue], hd⟩

/-- An instruction whose results are tile reductions by an integer or bitwise operation completes with them. -/
theorem computesInt_of_tile {i : Instr} {eff : Cx → State → Res} {upto : Nat → Nat} (hr : Ready s c x (formTree x own1))
    (hop : x.subBits 8 5 < 6) (hi : exec i s = s.issueAlu x.words x (formTree x own1) eff)
    (he : eff c s.tick = c.result s.tick x x.ty.wide fun t => nodeValue x (tileNode c x t (upto t))) (hupto : ∀ t, upto t ≤ c.width) :
    ComputesInt s i c x x.words x.ty.wide fun t r => c.active x.p t = true →
      TileResult x (fun o => c.src x .A x.ty.wide .int o) t (tileBelow c x t (upto t)) r := by
  have hroot := fun t => tileNode_result hr.encoding hop (t := t) (hupto t)
  exact computesInt_of s i c x _ eff _ _ _ (fun t => (hroot t).choose) hr rfl hi
    (he.trans (congrArg _ (funext fun t => (hroot t).choose_spec.1))) fun t _ => (hroot t).choose_spec.2

/-! ### Floating-point reductions (R153, R154) -/

/-- FADD, FMIN or FMAX on flushed operands, as the operation of `x` says. -/
def floatNode (c : Cx) (x : Ext) (u v : Nat) : Nat × Flags :=
  let f := fmtOf x.ty
  let a := flushIn c.fzi f (unpack f u)
  let b := flushIn c.fzi f (unpack f v)
  match x.subBits 8 5 with
  | 6 => if a.isNan || b.isNan then nanres f [a, b] false else fsum [a, b] f (c.mode x.rnd) c.fzo
  | 7 => minMaxOf true false f (c.env x) a b
  | _ => minMaxOf true true f (c.env x) a b

/-- The root of a floating-point operation over the positions below `upto`, or its empty value. -/
def floatRoot (c : Cx) (x : Ext) (t upto : Nat) : Nat × Flags :=
  (treeNode (floatNode c x) (tileLeaf c x (.flt x.ty) t upto) (c.u.lpr.toNat + 1) 0).getD
    (if x.subBits 8 5 = 6 then 0 else (fmtOf x.ty).inf (x.subBits 8 5 == 8), 0)

theorem float_op (h : formFails x (formTree x own1) = []) (hop : 6 ≤ x.subBits 8 5) :
    x.subBits 8 5 = 6 ∨ x.subBits 8 5 = 7 ∨ x.subBits 8 5 = 8 := by
  have : x.subBits 8 5 ≤ 8 := treeTypes_op (ty_of_encoding h rfl)
  omega

theorem nodeOf_float (h : formFails x (formTree x own1) = []) (hop : 6 ≤ x.subBits 8 5) : nodeOf c x = floatNode c x := by
  funext u v
  obtain op | op | op := float_op h hop <;> simp only [nodeOf, floatNode, treeOp, op]
  rfl

theorem emptyValue_float (h : formFails x (formTree x own1) = []) (hop : 6 ≤ x.subBits 8 5) :
    emptyValue x = if x.subBits 8 5 = 6 then 0 else (fmtOf x.ty).inf (x.subBits 8 5 == 8) := by
  obtain op | op | op := float_op h hop <;> simp [emptyValue, treeOp, op]

theorem nodeValue_float (h : formFails x (formTree x own1) = []) (hop : 6 ≤ x.subBits 8 5) (t upto : Nat) :
    nodeValue x (tileNode c x t upto) = (BitVec.ofNat 64 (floatRoot c x t upto).1, (floatRoot c x t upto).2) := by
  have hview : treeView x = .flt x.ty := if_pos hop
  rw [tileNode, hview, nodeOf_float h hop, floatRoot, ← emptyValue_float h hop]
  cases treeNode (floatNode c x) (tileLeaf c x (.flt x.ty) t upto) (c.u.lpr.toNat + 1) 0 <;> rfl

/-- An instruction whose results are tile reductions by a floating-point operation completes with the roots and their flags. -/
theorem computes_of_tile {i : Instr} {eff : Cx → State → Res} {upto : Nat → Nat} (hr : Ready s c x (formTree x own1))
    (hop : 6 ≤ x.subBits 8 5) (hi : exec i s = s.issueAlu x.words x (formTree x own1) eff)
    (he : eff c s.tick = c.result s.tick x x.ty.wide fun t => nodeValue x (tileNode c x t (upto t))) :
    Computes s i c x x.words x.ty.wide fun t => (BitVec.ofNat 64 (floatRoot c x t (upto t)).1, (floatRoot c x t (upto t)).2) := by
  obtain ⟨t, hexec, hcomp⟩ := issueAlu_computed s c x.words x _ eff x.ty.wide _ hr rfl
    (he.trans (congrArg _ (funext fun t => nodeValue_float hr.encoding hop t (upto t))))
  exact ⟨t, hi.trans hexec, hcomp⟩

end

/-- A scan reaches no further than the tile. -/
theorem scan_le_width (c : Cx) (ex : Bool) (t : Nat) : (t % c.width + if ex then 0 else 1) ≤ c.width := by
  have hpos : 0 < c.width := by rw [width_eq]; exact two_pow_pos _
  have := Nat.mod_lt t hpos
  cases ex <;> simp <;> omega

theorem exec_treduce (x : Ext) (s : State) : exec (.treduce x) s = s.issueAlu x.words x (formTree x 0x1E0) (effTreduce x) := rfl
theorem exec_tscan (x : Ext) (s : State) : exec (.tscan x) s = s.issueAlu x.words x (formTree x 0x3E0) (effTscan x) := rfl

/-- Settles O33: the root of a tile's tree reduces the active threads below it, by induction over the levels of the tree. -/
theorem tileReductionsAndScans : Obligations.TileReductionsAndScans := by
  unfold Obligations.TileReductionsAndScans
  intro s c x
  refine ⟨fun hr hop => ?_, fun hr hop => ?_, fun hr hop => ?_, fun hr hop => ?_⟩
  · exact computesInt_of_tile hr hop (exec_treduce x s) effTreduce_eq fun _ => Nat.le_refl _
  · exact computesInt_of_tile hr hop (exec_tscan x s) effTscan_eq (scan_le_width c _)
  · exact ⟨_, computes_of_tile hr hop (exec_treduce x s) effTreduce_eq, fun _ _ => rfl⟩
  · exact ⟨_, computes_of_tile hr hop (exec_tscan x s) effTscan_eq, fun _ _ => rfl⟩

end Machine
end Sys2Proof
end
